-- ==== Sys2Proof/Word.lean ====
section
/-! DEFINITION. The words of the machine and their plainest names (R3, R22, R39, R68, R331, R332). -/

namespace Sys2Proof

/-- One byte of memory. -/
abbrev Byte := BitVec 8
/-- A 32-bit lane register. -/
abbrev Word := BitVec 32
/-- A 64-bit group register, or a register pair. -/
abbrev DWord := BitVec 64
/-- A 72-bit virtual address; bits [71:64] are the window (R331). -/
abbrev VAddr := BitVec 72
/-- An 18-bit IMEM byte address, relative to the team's window (R91). -/
abbrev IAddr := BitVec 18
/-- A value of the widened format XF, or an integer accumulator element in bits [31:0] (R39, R59). -/
abbrev XWord := BitVec 34
/-- A tile descriptor (R182). -/
abbrev TileDesc := BitVec 256

end Sys2Proof
end

