-- ==== Sys2Proof/Machine/Flags.lean ====
section
/-! DEFINITION. The arithmetic status flags of MSTAT (R57), and the integer computations that set or avoid them (R120). -/

namespace Sys2Proof.Machine

def flagNV : DWord := 0x001#64
def flagDZ : DWord := 0x002#64
def flagOF : DWord := 0x004#64
def flagUF : DWord := 0x008#64
def flagNX : DWord := 0x010#64
def flagSV : DWord := 0x020#64
def flagZBI : DWord := 0x040#64
def flagMSCOPE : DWord := 0x100#64

/-- The W1C bits of MSTAT: [6:0] and [8] (R57). -/
def mstatMask : DWord := 0x17F#64

/-- A flag, raised or not. -/
def flagIf (b : Bool) (f : DWord) : DWord := if b then f else 0#64

/-- A number of `w` bits as an integer, signed or unsigned. -/
def asInt (signed : Bool) (w : Nat) (x : Nat) : Int :=
  let y := x % 2 ^ w
  if signed && 2 ^ (w - 1) ≤ y then (y : Int) - 2 ^ w else y

/-- The low `w` bits of an integer. -/
def wrap (w : Nat) (i : Int) : Nat := (i % (2 ^ w : Int)).toNat

/-- An exact result clamped to the range of `w` bits; SV when it changes (R120). -/
def saturate (signed : Bool) (w : Nat) (i : Int) : Nat × DWord :=
  let lo : Int := if signed then -(2 ^ (w - 1) : Int) else 0
  let hi : Int := if signed then 2 ^ (w - 1) - 1 else 2 ^ w - 1
  if i < lo then (wrap w lo, flagSV)
  else if hi < i then (wrap w hi, flagSV)
  else (wrap w i, 0#64)

end Sys2Proof.Machine
end

