-- ==== Sys2Proof/Config.lean ====
section
/-! DEFINITION. What the spec leaves open and the model leaves free: constants with no body, so that nothing can be proved
of their values. A free value is taken at a counter that the state holds (`State.fresh`), which is read and advanced. -/

namespace Sys2Proof.Config

/-- A 64-bit value the spec does not state (log entry 5, DESIGN CHOICE). -/
opaque freeValue : Nat → BitVec 64
/-- A choice the spec leaves to the implementation among the numbers below its bound (log entry 5, DESIGN CHOICE). -/
opaque freeChoice : Nat → Nat

end Sys2Proof.Config
end

