-- ==== Sys2Proof/Syntax.lean ====
section
/-! DEFINITION. The syntax: the six encoding classes of R75 as records, the frames of the fabric (R272), and one
constructor of `Instr` for every row of the table of operations and events. An instruction carries its class record,
field by field as the word holds it; an event carries what happens outside the gang that takes part in it. -/

namespace Sys2Proof

/-- The common header below the opcode (R69). -/
structure Header where
  /-- predicate negate -/
  pn : Bool
  /-- predicate index: k0 to k7 when `g` is false, gp0 to gp7 when it is true -/
  pi : BitVec 3
  /-- group form -/
  g  : Bool
  /-- transient result (R27) -/
  t  : Bool
  /-- format-specific bits [49:48] -/
  fx : BitVec 2
  deriving DecidableEq, Repr

/-- Class A (R75): three sources, one destination; `mod` is MOD[23:12], so its bit n is MOD[n + 12]. -/
structure ClassA where
  h   : Header
  d   : BitVec 6
  a   : BitVec 6
  b   : BitVec 6
  c   : BitVec 6
  mod : BitVec 12
  deriving DecidableEq, Repr

/-- Class I (R75): a 32-bit immediate. -/
structure ClassI where
  h    : Header
  d    : BitVec 6
  a    : BitVec 6
  mod4 : BitVec 4
  imm  : BitVec 32
  deriving DecidableEq, Repr

/-- Class M (R75, R78): memory operands. -/
structure ClassM where
  h   : Header
  d   : BitVec 6
  adr : BitVec 3
  x   : BitVec 6
  sc  : BitVec 2
  sz  : BitVec 3
  sp  : BitVec 3
  scp : BitVec 3
  ord : BitVec 2
  ch  : BitVec 2
  off : BitVec 18
  deriving DecidableEq, Repr

/-- Class B (R75, R79): control. -/
structure ClassB where
  h     : Header
  disp  : BitVec 24
  aux8  : BitVec 8
  aux4  : BitVec 4
  aux12 : BitVec 12
  deriving DecidableEq, Repr

/-- Class E (R75, R80): engines. -/
structure ClassE where
  h   : Header
  d   : BitVec 6
  ta  : BitVec 3
  tb  : BitVec 3
  tc  : BitVec 3
  fs  : BitVec 3
  a   : BitVec 6
  mod : BitVec 24
  deriving DecidableEq, Repr

/-- Class S (R75, R81): special registers. -/
structure ClassS where
  h    : Header
  sreg : BitVec 16
  a    : BitVec 6
  mod  : BitVec 26
  deriving DecidableEq, Repr

/-- One packet-delivery payload of the fabric: the header of R272, the packet number of the delivery sublayer
(R271), and the payload bytes. -/
structure Frame where
  /-- packet sequence number, from 1; 0 names no packet: the frame stays within the module, or has been taken from the network (R271) -/
  psn  : Nat
  cls  : Nat
  scp  : Nat
  ord  : Nat
  srcm : Nat
  dstm : Nat
  sdie : Nat
  ddie : Nat
  len  : Nat
  tag  : Nat
  addr : Nat
  aux  : Nat
  body : List Byte
  deriving DecidableEq, Repr

/-- Where an uncorrectable error stood (the rows of R394's table). -/
inductive ErrorPlace where
  /-- register file, near storage, IMEM, stack cache or release buffer of a vector core -/
  | core (core : Nat)
  /-- accumulator, queue or pin storage of an MXE or TFU, or lintel core state -/
  | cluster (cluster : Nat)
  /-- a way of a set of an L2 slice -/
  | l2 (slice set way : Nat)
  /-- an HBM4E or CXL frame, by physical address -/
  | frame (pa : Nat)
  deriving DecidableEq, Repr

/-- One operation or event of the device: one constructor for every row of the table. -/
inductive Instr where
  -- control (R91 to R117)
  | nop (f : ClassB)
  | ifK (f : ClassB)
  | elseK (f : ClassB)
  | endif (f : ClassB)
  | loop (f : ClassB)
  | endloop (f : ClassB)
  | brk (f : ClassB)
  | cont (f : ClassB)
  | bra (f : ClassB)
  | brx (f : ClassA)
  | call (f : ClassB)
  | callx (f : ClassA)
  | ret (f : ClassB)
  | regang (f : ClassB)
  | jmpf (f : ClassB)
  | cfetch (f : ClassM)
  /-- the fetch of IMEM slot `slot` of team `team` completes (R93) -/
  | segmentLanded (team slot : Nat)
  | cwait (f : ClassB)
  | cwaitAll (f : ClassB)
  | exit (f : ClassB)
  | yield (f : ClassB)
  /-- the wait of gang `gang` runs out (R104) -/
  | yieldExpire (gang : Nat)
  | trap (f : ClassB)
  | rgnb (f : ClassB)
  | rgne (f : ClassB)
  /-- the release buffer of core `core` is exhausted (R107) -/
  | regionExhaustReplay (core : Nat)
  | cbr (f : ClassB)
  /-- the die node delivers the result of the gang's cast vote (R111, R291) -/
  | voteResultDelivery (gang : Nat)
  | bar (f : ClassB)
  | qcfg (f : ClassA)
  -- integer (R118 to R126)
  | iadd (f : ClassA)
  | isub (f : ClassA)
  | imul (f : ClassA)
  | imulh (f : ClassA)
  | imad (f : ClassA)
  | idiv (f : ClassA)
  | irem (f : ClassA)
  | imin (f : ClassA)
  | imax (f : ClassA)
  | iand (f : ClassA)
  | ior (f : ClassA)
  | ixor (f : ClassA)
  | iandn (f : ClassA)
  | shl (f : ClassA)
  | shr (f : ClassA)
  | sar (f : ClassA)
  | rot (f : ClassA)
  | bfe (f : ClassA)
  | bfi (f : ClassA)
  | icmp (f : ClassA)
  | sel (f : ClassA)
  | lea (f : ClassM)
  | mov (f : ClassA)
  | iabs (f : ClassA)
  | ineg (f : ClassA)
  | inot (f : ClassA)
  | popc (f : ClassA)
  | clz (f : ClassA)
  | ctz (f : ClassA)
  | brev (f : ClassA)
  | iaddImm (f : ClassI)
  | isubImm (f : ClassI)
  | imulImm (f : ClassI)
  | iminImm (f : ClassI)
  | imaxImm (f : ClassI)
  | andImm (f : ClassI)
  | orImm (f : ClassI)
  | xorImm (f : ClassI)
  | andnImm (f : ClassI)
  | shlImm (f : ClassI)
  | shrImm (f : ClassI)
  | sarImm (f : ClassI)
  | rotImm (f : ClassI)
  | icmpImm (f : ClassI)
  | movi (f : ClassI)
  | movh (f : ClassI)
  | adsetImm (f : ClassI)
  | adset (f : ClassA)
  | adsetW (f : ClassA)
  | adsetAdd (f : ClassA)
  | adget (f : ClassA)
  | adgetW (f : ClassA)
  -- floating point, conversion (R127 to R139)
  | fadd (f : ClassA)
  | fsub (f : ClassA)
  | fmul (f : ClassA)
  | ffma (f : ClassA)
  | fmin (f : ClassA)
  | fmax (f : ClassA)
  | fcmp (f : ClassA)
  | frnd (f : ClassA)
  | fclass (f : ClassA)
  | frcp (f : ClassA)
  | frsq (f : ClassA)
  | fsqrt (f : ClassA)
  | fexp2 (f : ClassA)
  | flog2 (f : ClassA)
  | fsin (f : ClassA)
  | fcos (f : ClassA)
  | fdiv (f : ClassA)
  | fdot2 (f : ClassA)
  | idot4 (f : ClassA)
  | cvt (f : ClassE)
  | qpack (f : ClassE)
  | qunpk (f : ClassE)
  -- lane exchange (R140 to R148)
  | shfl (f : ClassA)
  | shflx (f : ClassA)
  | bcast (f : ClassA)
  | vote (f : ClassA)
  | red (f : ClassA)
  | redix (f : ClassA)
  | scan (f : ClassA)
  | matchLanes (f : ClassA)
  -- memory (R150 to R168, R178, R179)
  | ld (f : ClassM)
  /-- the operation `id` of gang `gang` returns its values (R153) -/
  | loadReturn (gang id : Nat)
  | st (f : ClassM)
  /-- the store `id` of gang `gang` is performed at its scope, or acknowledged (R221, R273) -/
  | storePerformed (gang id : Nat)
  /-- die `die` makes the store `id` visible (R224) -/
  | causalDelivery (die id : Nat)
  | ldlod (f : ClassM)
  | smpl (f : ClassE)
  | ldgen (f : ClassM)
  | pref (f : ClassM)
  | cinv (f : ClassM)
  | cflush (f : ClassM)
  | rinv (f : ClassM)
  | rminv (f : ClassM)
  | atom (f : ClassM)
  | waitv (f : ClassM)
  /-- a write to a waited line makes the gang's WAITV read again (R167) -/
  | waitvReread (gang : Nat)
  | fence (f : ClassM)
  -- copies, batches, barriers, publication (R163, R169 to R177)
  | cpy (f : ClassE)
  /-- the copy engine reads and writes the next unit of copy `id` (R170) -/
  | copyUnit (id : Nat)
  /-- the last unit of copy `id` has landed (R170) -/
  | copyComplete (id : Nat)
  | gth (f : ClassE)
  | bcommit (f : ClassB)
  | bwait (f : ClassB)
  | bwaitG (f : ClassB)
  | waitc (f : ClassB)
  | publ (f : ClassM)
  /-- the swing requested by PUBL `id` happens at the buffer's home (R163) -/
  | publSwing (id : Nat)
  | bcbarm (f : ClassM)
  | bcbadd (f : ClassM)
  | bcbwait (f : ClassM)
  -- matrix (R180 to R198)
  | tdsetImm (f : ClassE)
  | tdsetReg (f : ClassE)
  | tdget (f : ClassE)
  | mxzero (f : ClassE)
  | mxldacc (f : ClassE)
  | mxmma (f : ClassE)
  | mxdrain (f : ClassE)
  /-- the redundant comparison of the lintel's MXDRAIN ends on cluster `cluster` (R197) -/
  | mxdrainCompareDone (cluster : Nat)
  /-- the matrix operation `id` of cluster `cluster` completes (R187) -/
  | mxOpComplete (cluster id : Nat)
  | mxwait (f : ClassB)
  | mxwaitAcc (f : ClassB)
  | mxmodeNorm (f : ClassE)
  | mxmodeRed (f : ClassE)
  | mxscale (f : ClassE)
  | mxscaleRow (f : ClassE)
  | mxscaleCol (f : ClassE)
  -- engines (R199 to R215)
  | fork (f : ClassB)
  /-- the lintel core of cluster `cluster` is free and serves its oldest FORK (R202) -/
  | lintelStart (cluster : Nat)
  | rdv (f : ClassB)
  | spawn (f : ClassE)
  | done (f : ClassB)
  | doneC (f : ClassB)
  | wlput (f : ClassE)
  | wlget (f : ClassE)
  | rbin (f : ClassE)
  | qdone (f : ClassB)
  | coll (f : ClassE)
  | comp (f : ClassE)
  /-- the destination of team `team` has its last unit for operation `op` of group `grp` (R210) -/
  | collComplete (team grp op : Nat)
  | wsend (f : ClassE)
  | mesh (f : ClassE)
  /-- the raster unit reads and rasterises meshlet `id` (R252) -/
  | meshRaster (id : Nat)
  /-- core `core` packs quads into a pixel gang and starts it (R254) -/
  | pixelTeamStart (core : Nat)
  /-- the owner tests and blends the fragments of ended pixel gang `gang` (R255) -/
  | fragmentBlend (gang : Nat)
  | rtrace (f : ClassE)
  /-- the traversal `id` of gang `gang` ends (R214) -/
  | rtraceComplete (gang id : Nat)
  | rhit (f : ClassE)
  -- system (R216 to R220)
  | srd (f : ClassS)
  | swr (f : ClassS)
  | qcfgWrite (f : ClassS)
  | mstatClear (f : ClassS)
  | srstateWrite (f : ClassS)
  | stklimWrite (f : ClassS)
  | heapRegWrite (f : ClassS)
  | windowWrite (f : ClassS)
  | cceshareWrite (f : ClassS)
  | grstWrite (f : ClassS)
  | plimWrite (f : ClassS)
  | time (f : ClassS)
  | sysc (f : ClassB)
  /-- the answer to the gang's posted entry is present (R326) -/
  | syscAnswer (gang : Nat)
  | tret (f : ClassB)
  | tretSkip (f : ClassB)
  | qmap (f : ClassS)
  | qunmap (f : ClassS)
  | qswSuspend (f : ClassS)
  | qswResume (f : ClassS)
  | qswPreempt (f : ClassS)
  | qswKill (f : ClassS)
  | qswPrio (f : ClassS)
  /-- an asynchronous trap of gang `gang` (R219) -/
  | asyncTrap (gang cause : Nat) (info : DWord)
  -- dispatcher, translation, saved contexts (R310 to R361)
  /-- one placement decision of die `die` (R321) -/
  | placementDecision (die : Nat)
  /-- the walk of queue slot `slot` of die `die` makes the next root record (R320) -/
  | rootRecordMake (die slot : Nat)
  /-- the saved cohort `cohort` at its ring head is restored on `cluster` (R356) -/
  | cohortRestore (cohort : Nat)
  /-- every posted fault entry of the cohort shows ANS (R344) -/
  | faultAnswered (cohort : Nat)
  /-- the free-slot timer of die `die`; `far` when it is the 100 us one to other modules (R323) -/
  | freeSlotAdvert (die : Nat) (far : Bool)
  /-- the head of ring `pri` of slot `slot` of die `die` has waited MIGT unplaced (R323) -/
  | migrationTrigger (die slot pri : Nat)
  /-- a migrated record arrives at slot `slot` of die `die`; `saved` names the saved cohort it carries, if any (R323) -/
  | migrationReceive (die slot record : Nat) (saved : Option Nat)
  | watchdogT1 (team : Nat)
  | watchdogT2 (team : Nat)
  /-- a posted write of requester `rid` to offset `off` of BAR2 of function `fn`; `ro` is the relaxed-ordering
  attribute (R232, R370, R371) -/
  | inboundPostedWrite (fn rid off : Nat) (body : List Byte) (ro : Bool)
  /-- one counting wave over the launch at `launch` (R329) -/
  | qdtWave (launch : Nat)
  /-- the oldest item of list `list` of the launch of slot `slot` of die `die` has waited FLUSHT (R325) -/
  | wlcFlushTimer (die slot list : Nat)
  /-- firmware has written a new SDSEQ into the block of slot `slot` of die `die` (R341) -/
  | shootdownRequest (die slot : Nat)
  -- fabric (R271 to R292)
  | frameRead (f : Frame)
  | frameReadResponse (f : Frame)
  | frameWrite (f : Frame)
  | frameWriteAck (f : Frame)
  | frameAtomic (f : Frame)
  | frameAtomicResponse (f : Frame)
  | frameWorkRecord (f : Frame)
  | frameSlotUpdate (f : Frame)
  /-- the receive area of member `member` of group `grp` sends sender `sender` its bitmap range (R276) -/
  | slotUpdateSend (grp member sender : Nat)
  | frameCollectiveData (f : Frame)
  | frameImageTiles (f : Frame)
  | frameVote (f : Frame)
  | frameVoteResult (f : Frame)
  /-- 100 ns after the first vote of number `num` of group `grp` arrived at die `die` (R290) -/
  | votePartialTimeout (die grp num : Nat)
  /-- die `die` asks the root for the result of vote `num` of group `grp` (R291) -/
  | voteResultRequest (die grp num : Nat)
  | retransmitTimer (psn : Nat)
  | hqEntryReread (fn q : Nat)
  | uncorrectableErrorConsumed (cohort : Nat) (place : ErrorPlace)
  /-- the pager has answered engine fault entry `id` (R342, R419) -/
  | engineFaultAnswered (id : Nat)
  -- kiln (R385 to R391); `matrix` names the cluster pass
  | kilnCoreTimer (die : Nat)
  | kilnClusterTimer (die : Nat)
  | kilnDrainComplete (die : Nat) (matrix : Bool)
  | kilnDrainTimeout (die : Nat) (matrix : Bool)
  | watchdogT3 (team : Nat)
  -- what reaches the module from outside: packets and peers (R211, R271), the host port, peers and CXL (R369 to R379)
  | packetAck (psn : Nat)
  | peerLoss (module : Nat)
  | hqTailWrite (fn q tail : Nat)
  | hqStatusClear (fn q bits : Nat)
  | hqQlogWrite (fn q value : Nat)
  /-- firmware finishes a command of queue `q`: its completion bytes go to host address `addr` (R375) -/
  | hqCompletion (fn q addr : Nat) (body : List Byte)
  | kilnScanComplete (die : Nat) (matrix : Bool) (pass : Bool)
  | inboundRead (fn off len : Nat)
  | inboundAtomic (fn off : Nat)
  /-- the completion of peer read `id` of gang `gang`; no bytes means an error or a timeout (R379) -/
  | pReadCompletion (gang id : Nat) (body : Option (List Byte))
  | cxlLinkDown (die : Nat)
  -- boot and power (R399 to R405)
  /-- a module reset; `copyA`, `copyB`: the image digest when that copy's signature verifies (R399) -/
  | moduleReset (copyA copyB : Option (BitVec 384))
  /-- die firmware: its digest when the signature verifies (R399) -/
  | bootStage1 (image : Option (BitVec 384))
  /-- the journal's steps that fail (R402), by number; a number above 2,048 says that power is lost in that step, one above 4,096 that the CRC of
  that step's newest entry of the start before fails (R401) -/
  | bootStage2 (failed : List Nat)
  | bootStage3
  /-- a 1 ms window ends with this average power in W (R405) -/
  | powerWindow (watts : Nat)
  | junctionThrottle
  | thermalTrip
  | electricalTrip
  | junctionBelow100C
  deriving DecidableEq, Repr

end Sys2Proof
end

