-- ==== Sys2Proof/Decode.lean ====
section
/-! DEFINITION. Instruction words (R68 to R90): the six classes taken from a word and laid into one, the opcode map
(R82, R83), the static checks 1 to 6 of R87, and the encoder written from the same tables. -/

namespace Sys2Proof

/-- The kinds of core that R71, R82 and R85 tell apart. -/
inductive CoreKind where
  | vector
  | lintel
  | firmware
  deriving DecidableEq, Repr

/-! ## Fields of a word -/

/-- Bits [lo + n - 1 : lo] of a word (R3). -/
def field (n lo : Nat) (w : BitVec 64) : BitVec n := w.extractLsb' lo n

/-- One bit as a Bool. -/
def bitAt (i : Nat) (w : BitVec 64) : Bool := w.getLsbD i

/-- The opcode byte (R69). -/
def opcodeOf (w : BitVec 64) : BitVec 8 := field 8 56 w

def headerOf (w : BitVec 64) : Header :=
  { pn := bitAt 55 w, pi := field 3 52 w, g := bitAt 51 w, t := bitAt 50 w, fx := field 2 48 w }

def unpackA (w : BitVec 64) : ClassA :=
  { h := headerOf w, d := field 6 42 w, a := field 6 36 w, b := field 6 30 w, c := field 6 24 w, mod := field 12 12 w }

def unpackI (w : BitVec 64) : ClassI :=
  { h := headerOf w, d := field 6 42 w, a := field 6 36 w, mod4 := field 4 32 w, imm := field 32 0 w }

def unpackM (w : BitVec 64) : ClassM :=
  { h := headerOf w, d := field 6 42 w, adr := field 3 39 w, x := field 6 33 w, sc := field 2 31 w, sz := field 3 28 w,
    sp := field 3 25 w, scp := field 3 22 w, ord := field 2 20 w, ch := field 2 18 w, off := field 18 0 w }

def unpackB (w : BitVec 64) : ClassB :=
  { h := headerOf w, disp := field 24 24 w, aux8 := field 8 16 w, aux4 := field 4 12 w, aux12 := field 12 0 w }

def unpackE (w : BitVec 64) : ClassE :=
  { h := headerOf w, d := field 6 42 w, ta := field 3 39 w, tb := field 3 36 w, tc := field 3 33 w, fs := field 3 30 w,
    a := field 6 24 w, mod := field 24 0 w }

def unpackS (w : BitVec 64) : ClassS :=
  { h := headerOf w, sreg := field 16 32 w, a := field 6 26 w, mod := field 26 0 w }

/-! ## Legal values of operand fields (R73, R74) -/

/-- What a 6-bit field of an instruction names. -/
inductive Opd where
  /-- not used: must hold 0 -/
  | none
  /-- a register that is read -/
  | src
  /-- a register that is written -/
  | dst
  /-- a register that is read and then written -/
  | both
  /-- a predicate, address register, tile descriptor or accumulator: 0 to 7 -/
  | low8
  /-- a field whose table value is 0 (R152): any other is a reserved value, check 3, where R73 alone would make it a
  must-be-zero field, check 2 (log entry 99, DESIGN CHOICE) -/
  | zero
  deriving DecidableEq, Repr

/-- Group-file register field: 0 to 31, or 63 (R73). -/
def okGroup (v : BitVec 6) : Bool := v.toNat < 32 || v.toNat = 63

/-- A lane-form source: v0 to v47, a queue, a bypass position or zero (R73). -/
def okLaneSrc (v : BitVec 6) : Bool := v.toNat < 59 || v.toNat = 63

/-- A lane-form destination: v0 to v47, a queue, or discarded (R73). -/
def okLaneDst (v : BitVec 6) : Bool := v.toNat < 56 || v.toNat = 63

/-- The must-be-zero half of a field's rule. -/
def Opd.zeroOk (k : Opd) (v : BitVec 6) : Bool :=
  match k with
  | .none => v.toNat = 0
  | _ => true

/-- The legal-value half of a field's rule. -/
def Opd.legal (k : Opd) (g : Bool) (v : BitVec 6) : Bool :=
  match k with
  | .none => true
  | .src => if g then okGroup v else okLaneSrc v
  | .dst => if g then okGroup v else okLaneDst v
  | .both => if g then okGroup v else okLaneDst v
  | .low8 => v.toNat < 8
  | .zero => v.toNat = 0

/-- The Forms column of the opcode map (R71, R82). -/
inductive Forms where
  | l
  | g
  | lg
  deriving DecidableEq, Repr

/-- The Lintel column of the opcode map (R71, R82). -/
inductive OnLintel where
  | y
  | n
  | only
  deriving DecidableEq, Repr

/-- What the static checks find in one instruction. -/
structure Checks where
  /-- check 2: every must-be-zero bit is zero -/
  mbz    : Bool
  /-- check 3: no reserved or illegal value -/
  legal  : Bool
  h      : Header
  forms  : Forms
  lintel : OnLintel
  /-- check 6: T = 1 is admitted here, given G = 0 and D = 0 -/
  tOk    : Bool
  /-- R181: the instruction names a register that only a lintel core has -/
  mxOnly : Bool := false
  deriving DecidableEq, Repr

/-! ### Class A -/

/-- The bits of MOD[23:12] named by a mask; bit n of the mask is MOD[n + 12]. -/
def ClassA.modOutside (f : ClassA) (mask : BitVec 12) : Bool := (f.mod &&& ~~~mask) != 0#12

/-- MOD[23]: B names a group register that is broadcast (R76). -/
def ClassA.bcast (f : ClassA) : Bool := f.mod.getLsbD 11

/-- The checks of a class-A word. `mask` holds the MOD bits the instruction defines, `fx` the FX bits it defines. -/
def checkA (f : ClassA) (d a b c : Opd) (mask : BitVec 12) (fx : BitVec 2) (forms : Forms) (lintel : OnLintel)
    (tOk : Bool) (extra : Bool) : Checks :=
  { mbz := d.zeroOk f.d && a.zeroOk f.a && b.zeroOk f.b && c.zeroOk f.c && !f.modOutside mask &&
      (f.h.fx &&& ~~~fx) == 0#2
    legal := d.legal f.h.g f.d && a.legal f.h.g f.a && (if f.bcast then okGroup f.b else b.legal f.h.g f.b) &&
      c.legal f.h.g f.c && !(f.bcast && f.h.g) && extra
    h := f.h, forms := forms, lintel := lintel, tOk := tOk && f.d.toNat == 0 }

/-- An integer form of R119: FX[49] always admitted, FX[48] only where `signed`. -/
def checkInt (f : ClassA) (d b c : Opd) (mask : BitVec 12) (signed : Bool) (tOk : Bool) (extra : Bool := true) : Checks :=
  checkA f d .src b c (mask ||| (if b == .none then 0#12 else 0x800#12)) 0b11#2 .lg .y tOk
    ((signed || !f.h.fx.getLsbD 0) && extra)

/-- MOD[14:12] of class A, a comparison condition (R77). -/
def ClassA.condBits (f : ClassA) : BitVec 3 := f.mod.extractLsb' 0 3
/-- MOD[22:20] of opcodes 0x40 to 0x51, the type TY (R76). -/
def ClassA.ty (f : ClassA) : BitVec 3 := f.mod.extractLsb' 8 3
/-- MOD[19:17] of opcodes 0x40 to 0x51, the rounding code (R76). -/
def ClassA.rnd (f : ClassA) : BitVec 3 := f.mod.extractLsb' 5 3
/-- MOD[15:12], the sub-operation of opcode 0x36 (R83). -/
def ClassA.sub (f : ClassA) : BitVec 4 := f.mod.extractLsb' 0 4
/-- MOD[13:12] of opcode 0x3D (R126). -/
def ClassA.adForm (f : ClassA) : BitVec 2 := f.mod.extractLsb' 0 2
/-- MOD[18:16] of RED, REDIX and SCAN (R141). -/
def ClassA.typ (f : ClassA) : BitVec 3 := f.mod.extractLsb' 4 3
/-- MOD[15:12] of RED, REDIX and SCAN (R141). -/
def ClassA.opr (f : ClassA) : BitVec 4 := f.mod.extractLsb' 0 4
/-- MOD[22:20] of RED and SCAN (R141). -/
def ClassA.redRnd (f : ClassA) : BitVec 3 := f.mod.extractLsb' 8 3

/-- A floating-point form of R128. `packed`, `scalar`: whether the Types column admits them; `rounds`: the RND column
lists modes. A rounding code above 3 is check 8, not check 3 (R48, R87). -/
def checkFloat (f : ClassA) (d b c : Opd) (mask : BitVec 12) (scalar packed rounds : Bool) (tOk : Bool)
    (extra : Bool := true) : Checks :=
  checkA f d .src b c (mask ||| 0xFE0#12) 0#2 .lg .y tOk
    ((if f.ty.toNat < 3 then scalar else f.ty.toNat < 5 && packed) && (rounds || f.rnd.toNat == 0) &&
      !(b == .none && f.bcast) && extra)

/-- A lane-exchange form of R141. -/
def checkLane (f : ClassA) (d a b c : Opd) (mask : BitVec 12) (wide : Bool) (tOk : Bool) (extra : Bool := true) : Checks :=
  checkA f d a b c mask 0b10#2 .l .n tOk ((wide || !f.h.fx.getLsbD 1) && extra)

/-- RED and SCAN: types, operations and rounding that R141 admits. A 64-bit form takes U32 and S32 only. -/
def redOk (f : ClassA) : Bool :=
  f.typ.toNat < 5 && f.opr.toNat < 6 && (f.typ.toNat < 2 || f.opr.toNat < 3) &&
    (f.redRnd.toNat == 0 || (f.typ.toNat ≥ 2 && f.opr.toNat == 0)) && (!f.h.fx.getLsbD 1 || f.typ.toNat < 2)

/-! ### Class I -/

def checkI (f : ClassI) (d a : Opd) (fx : BitVec 2) (forms : Forms) (tOk : Bool) (extra : Bool) : Checks :=
  { mbz := d.zeroOk f.d && a.zeroOk f.a && (f.h.fx &&& ~~~fx) == 0#2
    legal := d.legal f.h.g f.d && a.legal f.h.g f.a && extra
    h := f.h, forms := forms, lintel := .y, tOk := tOk && f.d.toNat == 0 }

/-- An immediate form of opcode 0x38 (R83, R124); FX[48] as R119 admits it for the same mnemonic. -/
def checkImm (f : ClassI) (signed : Bool) : Checks :=
  checkI f .dst .src 0b11#2 .lg true (signed || !f.h.fx.getLsbD 0)

/-! ### Class M (R78, R152) -/

/-- SMPL's coordinates: an even lane register, no queue (R160). -/
def okPair (v : BitVec 6) : Bool := if v.toNat < 48 then v.toNat % 2 = 0 else 56 ≤ v.toNat

/-- A legal index field: 63, or a register of the form's file (R78). -/
def okIndex (g : Bool) (x : BitVec 6) : Bool := x.toNat == 63 || (if g then x.toNat < 32 else x.toNat < 48)

/-- The order codes an instruction admits. -/
structure OrdSet where
  rlx : Bool := true
  acq : Bool := false
  rel : Bool := false
  ar  : Bool := false

def OrdSet.has (o : OrdSet) (v : BitVec 2) : Bool :=
  match v.toNat with
  | 0 => o.rlx
  | 1 => o.acq
  | 2 => o.rel
  | _ => o.ar

/-- The checks of a class-M word: D by its kind, SZ, SP, SCP as predicates on their values, ORD by a set, CH free or
zero, and the FX bits defined (R152). -/
def checkM (f : ClassM) (d : Opd) (sz sp scp : Nat → Bool) (ord : OrdSet) (ch : Bool) (fx : BitVec 2) (forms : Forms)
    (lintel : OnLintel) (tOk : Bool := false) (extra : Bool := true) : Checks :=
  { mbz := d.zeroOk f.d && (f.h.fx &&& ~~~fx) == 0#2
    legal := d.legal f.h.g f.d && okIndex f.h.g f.x && sz f.sz.toNat && sp f.sp.toNat && scp f.scp.toNat &&
      ord.has f.ord && (ch || f.ch == 0#2) && extra
    h := f.h, forms := forms, lintel := lintel, tOk := tOk && f.d.toNat == 0 }

/-- A P access admits only SZ 4 or 5 and SCP 6 (R152). -/
def peerOk (f : ClassM) : Bool :=
  f.sp.toNat != 4 || ((f.sz.toNat == 4 || f.sz.toNat == 5) && f.scp.toNat == 6)

/-- ATOM's operation code {FX[49:48], CH} (R165). -/
def ClassM.atomOp (f : ClassM) : BitVec 4 := f.h.fx ++ f.ch
/-- LDLOD's requested level {FX[49:48], CH} (R152, R158). -/
def ClassM.level (f : ClassM) : BitVec 4 := f.h.fx ++ f.ch
/-- WAITV's condition {FX[48], CH} (R152, R167). -/
def ClassM.waitCond (f : ClassM) : BitVec 3 := f.h.fx.extractLsb' 0 1 ++ f.ch

/-- A 64-bit ATOM exists for every operation but the floating-point ones (R165). -/
def atomOk (f : ClassM) : Bool :=
  f.atomOp.toNat < 15 && (f.sz.toNat == 4 || (f.sz.toNat == 5 && f.atomOp.toNat < 12))

/-- FENCE also needs ADR, X, SC and OFF equal to 0 (R152). -/
def fenceZero (f : ClassM) : Bool :=
  f.adr == 0#3 && f.x == 0#6 && f.sc == 0#2 && f.off == 0#18

/-! ### Class B -/

/-- The checks of a class-B word: which of DISP, AUX8, AUX4, AUX12 must be zero, and a predicate on the rest. -/
def checkB (f : ClassB) (dispZ aux8Z aux4Z aux12Z : Bool) (forms : Forms) (lintel : OnLintel) (extra : Bool := true) : Checks :=
  { mbz := (!dispZ || f.disp == 0#24) && (!aux8Z || f.aux8 == 0#8) && (!aux4Z || f.aux4 == 0#4) &&
      (!aux12Z || f.aux12 == 0#12) && f.h.fx == 0#2
    legal := extra
    h := f.h, forms := forms, lintel := lintel, tOk := false }

/-- PI = 7 and PN = 0, as R96, R102 and R105 require of the words that take no prefix. R96 makes any other value a reserved
one, check 3; the words of R102 and R105 are taken alike, and PI = 7 with PN = 1 fails check 3 before check 4 (log entry
99, DESIGN CHOICE). -/
def Header.always (h : Header) : Bool := h.pi == 7#3 && !h.pn

/-! ### Class E -/

/-- The checks of a class-E word: D and A by kind, which of TA, TB, TC, FS are used, the MOD bits and FX bits defined. -/
def checkE (f : ClassE) (d a : Opd) (ta tb tc fs : Bool) (mask : BitVec 24) (fx : BitVec 2) (forms : Forms)
    (lintel : OnLintel) (tOk : Bool := false) (extra : Bool := true) (zero : Bool := true) : Checks :=
  { mbz := d.zeroOk f.d && a.zeroOk f.a && (ta || f.ta == 0#3) && (tb || f.tb == 0#3) && (tc || f.tc == 0#3) &&
      (fs || f.fs == 0#3) && (f.mod &&& ~~~mask) == 0#24 && (f.h.fx &&& ~~~fx) == 0#2 && zero
    legal := d.legal f.h.g f.d && a.legal f.h.g f.a && extra
    h := f.h, forms := forms, lintel := lintel, tOk := tOk && f.d.toNat == 0 }

/-- The rule of an optional barrier operand: TC is used exactly when FX[49] = 1. -/
def tcRule (f : ClassE) : Bool := f.h.fx.getLsbD 1 || f.tc == 0#3

/-- Bits [hi:lo] of a class-E MOD as a number. -/
def ClassE.bits (f : ClassE) (n lo : Nat) : Nat := (f.mod.extractLsb' lo n).toNat

/-! ### Class S (R81, R216) -/

/-- Access of a special register. -/
inductive SrAccess where
  | ro
  | rw
  | wo
  deriving DecidableEq, Repr

/-- The assigned special registers: the user numbers of R216 and R389, the firmware numbers of R330, R388 and R404. -/
def srAccess (n : Nat) : Option SrAccess :=
  if n ≤ 0x06 then some .ro
  else match n with
  | 0x10 => some .rw
  | 0x20 => some .rw
  | 0x21 => some .rw
  | 0x28 => some .ro | 0x29 => some .ro | 0x2A => some .ro | 0x2B => some .ro
  | 0x2C => some .ro | 0x2D => some .ro | 0x2E => some .ro | 0x2F => some .ro
  | 0x30 => some .ro | 0x31 => some .ro | 0x32 => some .ro | 0x33 => some .ro
  | 0x34 => some .ro | 0x35 => some .ro
  | 0x40 => some .ro
  | 0x50 => some .ro | 0x51 => some .ro | 0x52 => some .ro
  | 0x60 => some .ro
  | 0x70 => some .rw
  | 0x71 => some .ro
  | 0x80 => some .rw | 0x81 => some .rw | 0x82 => some .rw | 0x83 => some .rw
  | 0x90 => some .ro | 0x91 => some .ro | 0x92 => some .ro | 0x93 => some .ro
  | 0xA0 => some .rw
  | 0xB0 => some .ro
  | 0x8000 => some .rw | 0x8001 => some .rw | 0x8002 => some .rw | 0x8003 => some .rw
  | 0x8004 => some .rw | 0x8005 => some .rw | 0x8006 => some .rw | 0x8007 => some .rw
  | 0x8010 => some .wo
  | 0x8011 => some .ro
  | 0x8012 => some .rw
  | 0x8013 => some .ro
  | 0x8014 => some .rw | 0x8015 => some .rw | 0x8016 => some .rw | 0x8017 => some .rw
  | 0x8018 => some .ro
  | 0x8019 => some .rw
  | 0x801A => some .ro
  | _ => none

def checkS (f : ClassS) (a : Opd) (forms : Forms) (lintel : OnLintel) (legal zero : Bool) (mask : BitVec 26 := 0#26)
    (mxOnly : Bool := false) : Checks :=
  { mbz := a.zeroOk f.a && (f.mod &&& ~~~mask) == 0#26 && f.h.fx == 0#2 && zero
    legal := a.legal f.h.g f.a && legal
    h := f.h, forms := forms, lintel := lintel, tOk := false, mxOnly := mxOnly }

/-- SWR to a number: it must be assigned and writable (R81). -/
def checkSwr (f : ClassS) : Checks :=
  checkS f .src .lg .y (match srAccess f.sreg.toNat with | some .rw => true | some .wo => true | _ => false) true

/-- The queue commands: SREG[5:0] names the slot, SREG[15:6] must be 0 (R220). They pass check 5 on every kind of core:
off the firmware core R85 gives them to check 9. -/
def checkQ (f : ClassS) (a : Opd) (mask : BitVec 26) : Checks :=
  checkS f a .g .y true (f.sreg.toNat < 64) mask

/-! ## The static checks of every instruction -/

/-- Checks 2, 3, 5 and 6 of R87 for an instruction; an event has none. -/
def Instr.checks : Instr → Option Checks
  | .nop f => some (checkB f true true true true .lg .y)
  | .ifK f => some (checkB f false false true true .l .n (f.aux8 == 0#8))
  | .elseK f => some (checkB f false false true true .l .n (f.aux8 == 0#8 && f.h.always))
  | .endif f => some (checkB f false false true true .l .n (f.aux8 == 0#8 && f.h.always))
  | .loop f => some (checkB f false false true true .l .n (f.aux8 == 0#8 && f.h.always))
  | .endloop f => some (checkB f false false true true .l .n (f.aux8 == 0#8 && f.h.always))
  | .brk f => some (checkB f false false true true .l .n (f.aux8.toNat ≤ 61))
  | .cont f => some (checkB f false false true true .l .n (f.aux8.toNat ≤ 61))
  | .bra f => some (checkB f false true true true .lg .y)
  | .brx f => some (checkA f .none .src .none .none 0#12 0#2 .lg .y false true)
  | .call f => some (checkB f false true true true .lg .y)
  | .callx f => some (checkA f .none .src .none .none 0#12 0#2 .lg .y false true)
  | .ret f => some (checkB f true true true true .lg .y)
  | .regang f => some (checkB f true true true true .l .n f.h.always)
  | .jmpf f => some (checkB f false true true true .g .y)
  | .cfetch f => some (checkM { f with d := 0#6 } .none (· == 0) (· == 0) (· == 0) {} false 0#2 .g .y)
  | .cwait f => some (checkB f true true true false .g .y |> fun c => { c with mbz := c.mbz && f.aux12.toNat < 64 })
  -- with ALL no slot is named: R94 asks nothing of AUX12[5:0], and every value is admitted (log entry 99, DESIGN CHOICE)
  | .cwaitAll f => some (checkB f true true true false .g .y |> fun c => { c with mbz := c.mbz && f.aux12.toNat < 128 })
  | .exit f => some (checkB f true true true true .lg .y)
  | .yield f => some (checkB f true true true false .g .y)
  | .trap f => some (checkB f true true true false .lg .y)
  | .rgnb f => some (checkB f true true true true .g .n f.h.always)
  | .rgne f => some (checkB f true true true true .g .n f.h.always)
  | .cbr f => some { checkB f false false false false .g .n with mbz := f.aux4.toNat < 4 && f.h.fx == 0#2 }
  | .bar f => some (checkB f true true true true .g .n)
  | .qcfg f => some (checkA f .none .src .none .none 0#12 0#2 .g .n false true)
  | .iadd f => some (checkInt f .dst .src .none 0x010#12 true true)
  | .isub f => some (checkInt f .dst .src .none 0x010#12 true true)
  | .imul f => some (checkInt f .dst .src .none 0#12 false true)
  | .imulh f => some (checkInt f .dst .src .none 0#12 true true)
  | .imad f => some (checkInt f .dst .src .src 0#12 false true)
  | .idiv f => some (checkInt f .dst .src .none 0#12 true true)
  | .irem f => some (checkInt f .dst .src .none 0#12 true true)
  | .imin f => some (checkInt f .dst .src .none 0#12 true true)
  | .imax f => some (checkInt f .dst .src .none 0#12 true true)
  | .iand f => some (checkInt f .dst .src .none 0#12 false true)
  | .ior f => some (checkInt f .dst .src .none 0#12 false true)
  | .ixor f => some (checkInt f .dst .src .none 0#12 false true)
  | .iandn f => some (checkInt f .dst .src .none 0#12 false true)
  | .shl f => some (checkInt f .dst .src .none 0#12 false true)
  | .shr f => some (checkInt f .dst .src .none 0#12 false true)
  | .sar f => some (checkInt f .dst .src .none 0#12 false true)
  | .rot f => some (checkInt f .dst .src .none 0#12 false true)
  | .bfe f => some (checkInt f .dst .src .src 0#12 true true)
  | .bfi f => some (checkInt f .dst .src .src 0#12 false true)
  | .icmp f => some (checkInt f .low8 .src .none 0x007#12 true false (f.condBits.toNat < 6))
  | .sel f => some (checkInt f .dst .src .low8 0#12 false true)
  | .lea f => some (checkM f .dst (· == 0) (· == 0) (· == 0) {} false 0#2 .lg .y true)
  | .mov f => some (checkInt f .dst .none .none 0x00F#12 false true)
  | .iabs f => some (checkInt f .dst .none .none 0x00F#12 true true (f.h.fx.getLsbD 0))
  | .ineg f => some (checkInt f .dst .none .none 0x00F#12 false true)
  | .inot f => some (checkInt f .dst .none .none 0x00F#12 false true)
  | .popc f => some (checkInt f .dst .none .none 0x00F#12 false true)
  | .clz f => some (checkInt f .dst .none .none 0x00F#12 false true)
  | .ctz f => some (checkInt f .dst .none .none 0x00F#12 false true)
  | .brev f => some (checkInt f .dst .none .none 0x00F#12 false true)
  | .iaddImm f => some (checkImm f true)
  | .isubImm f => some (checkImm f true)
  | .imulImm f => some (checkImm f false)
  | .iminImm f => some (checkImm f true)
  | .imaxImm f => some (checkImm f true)
  | .andImm f => some (checkImm f false)
  | .orImm f => some (checkImm f false)
  | .xorImm f => some (checkImm f false)
  | .andnImm f => some (checkImm f false)
  | .shlImm f => some (checkImm f false)
  | .shrImm f => some (checkImm f false)
  | .sarImm f => some (checkImm f false)
  | .rotImm f => some (checkImm f false)
  | .icmpImm f => some (checkI f .low8 .src 0b11#2 .lg false (f.mod4.toNat < 6))
  | .movi f => some { checkI f .dst .none 0b11#2 .lg true true with
      mbz := f.a == 0#6 && f.mod4 == 0#4 }
  | .movh f => some { checkI f .dst .none 0b11#2 .lg false (f.h.fx == 0b10#2) with
      mbz := f.a == 0#6 && f.mod4 == 0#4 }
  | .adsetImm f => some (checkI f .low8 .none 0#2 .g false ((f.mod4.extractLsb' 0 3).toNat ≤ 5))
  | .adset f => some (checkA f .low8 .src .none .none 0x003#12 0#2 .g .y false true)
  | .adsetW f => some (checkA f .low8 .src .src .none 0x003#12 0#2 .g .y false true)
  | .adsetAdd f => some (checkA f .low8 .low8 .src .none 0x003#12 0#2 .g .y false true)
  | .adget f => some (checkA f .dst .low8 .none .none 0x001#12 0#2 .g .y false true)
  | .adgetW f => some (checkA f .dst .low8 .none .none 0x001#12 0#2 .g .y false true)
  | .fadd f => some (checkFloat f .dst .src .none 0#12 true true true true)
  | .fsub f => some (checkFloat f .dst .src .none 0#12 true true true true)
  | .fmul f => some (checkFloat f .dst .src .none 0#12 true true true true)
  | .ffma f => some (checkFloat f .dst .src .src 0#12 true true true true)
  | .fmin f => some (checkFloat f .dst .src .none 0#12 true true false true)
  | .fmax f => some (checkFloat f .dst .src .none 0#12 true true false true)
  | .fcmp f => some (checkFloat f .low8 .src .none 0x00F#12 true false false false (f.condBits.toNat < 6))
  | .frnd f => some (checkFloat f .dst .none .none 0#12 true false true true)
  | .fclass f => some (checkFloat f .dst .none .none 0#12 true false false true)
  | .frcp f => some (checkFloat f .dst .none .none 0#12 true false true true)
  | .frsq f => some (checkFloat f .dst .none .none 0#12 true false true true)
  | .fsqrt f => some (checkFloat f .dst .none .none 0#12 true false true true)
  | .fexp2 f => some (checkFloat f .dst .none .none 0#12 true false true true)
  | .flog2 f => some (checkFloat f .dst .none .none 0#12 true false true true)
  | .fsin f => some (checkFloat f .dst .none .none 0#12 true false true true)
  | .fcos f => some (checkFloat f .dst .none .none 0#12 true false true true)
  | .fdiv f => some (checkFloat f .dst .src .none 0#12 true false true true)
  | .fdot2 f => some (checkFloat f .dst .src .src 0#12 false true true true)
  | .idot4 f => some (checkA f .dst .src .src .src 0x803#12 0#2 .lg .y true true)
  | .cvt f => some (checkE f .dst .src false false false true 0x00007F#24 0#2 .lg .y true
      (f.bits 5 0 < 9 && (match f.bits 5 0 with
        | 0 => f.bits 2 5 == 0 | 7 => f.bits 2 5 == 0 | 8 => f.bits 2 5 == 0
        | 1 => f.bits 2 5 < 2 | 2 => f.bits 2 5 < 2 | _ => true)))
  | .qpack f => some (checkE f .dst .src false false false true 0x0007FF#24 0#2 .l .n true (f.bits 5 0 < 3))
  | .qunpk f => some (checkE f .dst .src false false false true 0x00001F#24 0#2 .l .n true (f.bits 5 0 < 3))
  | .shfl f => some (checkLane f .dst .src .src .none 0x803#12 true true)
  | .shflx f => some (checkLane f .dst .src .src .src 0#12 true true)
  | .bcast f => some (checkLane f .dst .src .none .none 0x01F#12 true true)
  | .vote f => some (checkLane f (if f.mod.extractLsb' 0 2 == 0#2 then .dst else .low8) .low8 .none .none 0x003#12 false
      (f.mod.extractLsb' 0 2 == 0#2))
  | .red f => some (checkLane f .dst .src .none .none 0x77F#12 true true (redOk f))
  | .redix f => some (checkLane f .dst .src .none .none 0x07F#12 false true
      (f.typ.toNat < 3 && f.opr.toNat < 2))
  | .scan f => some (checkLane f .dst .src .none .none 0x7FF#12 true true (redOk f))
  | .matchLanes f => some (checkLane f .dst .src .none .none 0#12 true true)
  | .ld f => some (checkM f .dst (· < 6) (· < 5) (· < 7) { acq := true } true 0#2 .lg .y false (peerOk f))
  | .st f => some (checkM f .src (fun z => z == 0 || z == 2 || z == 4 || z == 5) (· < 5) (· < 7) { rel := true } true 0#2
      .lg .y false (peerOk f))
  | .ldlod f => some (checkM f .dst (· < 5) (· == 0) (· < 7) { acq := true } true 0b11#2 .l .n)
  | .smpl f => some (checkE f .dst .src true false false false 0x00007F#24 0#2 .l .n false (f.bits 2 5 < 3 && okPair f.a))
  | .ldgen f => some (checkM f .dst (· == 5) (· == 0) (· < 7) { rlx := false, acq := true } false 0#2 .lg .y)
  | .pref f => some (checkM f .zero (· == 0) (· == 0) (· == 0) {} true 0#2 .lg .y)
  | .cinv f => some (checkM f .src (· == 0) (· == 0) (fun v => v == 3 || v == 4) {} false 0#2 .g .y)
  | .cflush f => some (checkM f .src (· == 0) (· == 0) (· == 6) {} false 0#2 .g .y)
  | .rinv f => some (checkM f .src (· == 0) (· == 0) (fun v => v == 3 || v == 4) {} false 0#2 .g .y)
  | .rminv f => some (checkM f .src (· == 0) (· == 0) (fun v => v == 3 || v == 4 || v == 5) {} false 0#2 .g .y)
  | .atom f => some (checkM f .both (fun z => z == 4 || z == 5) (· < 3) (· < 7)
      { acq := true, rel := true, ar := true } true 0b11#2 .lg .y false (atomOk f))
  | .waitv f => some (checkM f .both (fun z => z == 4 || z == 5) (· < 3) (· < 7) { acq := true } true 0b11#2 .lg .y
      false (f.waitCond.toNat < 6))
  | .fence f => some { checkM { f with x := 63#6 } .zero (· == 0) (· == 0) (· < 7)
        { rlx := false, acq := true, rel := true, ar := true } false 0#2 .g .y with
      mbz := f.h.fx == 0#2 && fenceZero f }
  | .cpy f => some (checkE { f with d := 0#6, a := if f.h.fx.getLsbD 0 then f.a else 63#6 } .none .src true true true false
      0xFFFFFF#24 0b11#2 .g .y false (f.bits 3 21 < 3 && f.bits 3 18 < 3)
      (tcRule f && (!f.h.fx.getLsbD 0 || f.d == 0#6)))
  | .gth f => some (checkE f .none .src true true true false 0xE3FFC0#24 0b10#2 .l .n false
      ((f.bits 3 21 == 1 || f.bits 3 21 == 2) && (f.bits 3 15 == 0 || f.bits 3 15 == 2 || f.bits 3 15 == 4 || f.bits 3 15 == 5))
      (tcRule f))
  | .bcommit f => some (checkB f true true true true .g .y)
  | .bwait f => some (checkB f false true true true .g .y)
  | .bwaitG f => some { checkB f true true false false .g .y (okGroup ((f.aux12.extractLsb' 0 5).setWidth 6)) with
      mbz := f.disp == 0#24 && f.aux8 == 0#8 && f.aux4 == 1#4 && f.aux12.toNat < 32 && f.h.fx == 0#2 }
  | .waitc f => some (checkB f false true true true .g .y)
  | .publ f => some (checkM f .zero (· == 0) (· == 0) (fun v => v == 0 || (3 ≤ v && v < 7)) {} false 0#2 .g .y)
  | .bcbarm f => some (checkM f .src (· == 0) (fun v => v == 1 || v == 2) (· < 3) {} false 0#2 .g .y)
  | .bcbadd f => some (checkM f .src (· == 0) (fun v => v == 1 || v == 2) (· < 3) {} false 0#2 .g .y)
  | .bcbwait f => some (checkM f .src (· == 0) (fun v => v == 1 || v == 2) (· < 3) {} false 0#2 .g .y)
  | .tdsetImm f => some (checkE { f with a := 0#6 } .low8 .none true false true true 0xFFFFFF#24 0b10#2 .g .y false true
      (tcRule f))
  | .tdsetReg f => some (checkE f .low8 .src true false true true 0x800000#24 0b11#2 .g .y false true (tcRule f))
  | .tdget f => some (checkE f .dst .none true false false false 0x000007#24 0#2 .g .y false (f.bits 3 0 < 6))
  | .mxzero f => some (checkE f .low8 .none false false false false 0x000001#24 0#2 .g .only)
  | .mxldacc f => some (checkE f .low8 .none true false false false 0#24 0#2 .g .only)
  | .mxmma f => some (checkE f .low8 .none true true false false 0x000001#24 0#2 .g .only)
  | .mxdrain f => some (checkE f .low8 .none true false true false 0x007F7F#24 0b10#2 .g .only false true (tcRule f))
  | .mxwait f => some (checkB f true true true true .g .only)
  | .mxwaitAcc f => some (checkB f true true true false .g .only true |> fun c =>
      { c with mbz := c.mbz && f.aux12.toNat < 16 })
  | .mxmodeNorm f => some (checkE f .none .none false false false false 0x000001#24 0#2 .g .only)
  | .mxmodeRed f => some (checkE f .none .none false false false false 0x000001#24 0#2 .g .only)
  | .mxscale f => some (checkE f .low8 .src false false false false 0x000003#24 0#2 .g .only)
  | .mxscaleRow f => some (checkE f .low8 .none true false false false 0x000003#24 0#2 .g .only)
  | .mxscaleCol f => some (checkE f .low8 .none true false false false 0x000003#24 0#2 .g .only)
  | .fork f => some (checkB f false true true true .g .n)
  | .rdv f => some (checkB f true false true true .g .y)
  | .spawn f => some (checkE f .low8 .none true true true false 0x00003F#24 0b10#2 .g .n false true (tcRule f))
  | .done f => some (checkB f true true true true .g .n)
  | .doneC f => some (checkB f true true true false .g .n true |> fun c => { c with mbz := c.mbz && f.aux12.toNat < 16 })
  | .wlput f => some (checkE f .both .src true false false false 0x000003#24 0#2 .l .n)
  | .wlget f => some (checkE f .dst .none true false false false 0x00001F#24 0#2 .l .n)
  | .rbin f => some (checkE f .both .src true false false false 0x00000F#24 0#2 .l .n)
  | .qdone f => some (checkB f true true true false .g .n true |> fun c => { c with mbz := c.mbz && f.aux12.toNat < 8 })
  | .coll f => some (checkE f .none .none true true true false 0x007FFF#24 0b10#2 .g .n false
      (f.bits 3 8 < 4 && f.bits 2 11 < 3) (tcRule f))
  | .comp f => some (checkE f .none .none true true true false 0x007BFF#24 0b10#2 .g .n false (f.bits 2 8 < 3) (tcRule f))
  | .wsend f => some (checkE f .both .none true false false false 0x0000FF#24 0#2 .l .n)
  | .mesh f => some (checkE f .none .none true true false false 0x000003#24 0#2 .g .n false (f.bits 2 0 < 3))
  | .rtrace f => some (checkE f .dst .src true false false false 0x003FFF#24 0#2 .l .n)
  | .rhit f => some (checkE f .dst .src true false false false 0x000001#24 0#2 .l .n)
  | .srd f => some (checkS f .dst .lg .y (match srAccess f.sreg.toNat with | some _ => true | none => false) true 0#26
      (f.sreg.toNat == 0x40))
  | .swr f => some (checkSwr f)
  | .qcfgWrite f => some (checkSwr f)
  | .mstatClear f => some (checkSwr f)
  | .srstateWrite f => some (checkSwr f)
  | .stklimWrite f => some (checkSwr f)
  | .heapRegWrite f => some (checkSwr f)
  | .windowWrite f => some (checkSwr f)
  | .cceshareWrite f => some (checkSwr f)
  | .grstWrite f => some (checkSwr f)
  | .plimWrite f => some (checkSwr f)
  | .time f => some (checkS f .dst .g .y (f.sreg.toNat < 2) true)
  | .sysc f => some (checkB f true true true false .g .y)
  | .tret f => some (checkB f true true true false .g .y true |> fun c => { c with mbz := c.mbz && f.aux12.toNat < 2 })
  | .tretSkip f => some (checkB f true true true false .g .y true |> fun c => { c with mbz := c.mbz && f.aux12.toNat < 2 })
  | .qmap f => some (checkQ f .src 0#26)
  | .qunmap f => some (checkQ f .none 0#26)
  | .qswSuspend f => some (checkQ f .src 0x7#26)
  | .qswResume f => some (checkQ f .src 0x7#26)
  | .qswPreempt f => some (checkQ f .src 0x7#26)
  | .qswKill f => some (checkQ f .src 0x7#26)
  | .qswPrio f => some (checkQ f .src 0x7#26)
  | .segmentLanded .. | .yieldExpire .. | .regionExhaustReplay .. | .voteResultDelivery .. | .loadReturn ..
  | .storePerformed .. | .causalDelivery .. | .waitvReread .. | .copyUnit .. | .copyComplete .. | .publSwing ..
  | .mxdrainCompareDone .. | .mxOpComplete .. | .lintelStart .. | .collComplete .. | .meshRaster .. | .pixelTeamStart ..
  | .fragmentBlend .. | .rtraceComplete .. | .syscAnswer .. | .asyncTrap .. | .placementDecision .. | .rootRecordMake ..
  | .cohortRestore .. | .faultAnswered .. | .freeSlotAdvert .. | .migrationTrigger .. | .migrationReceive ..
  | .watchdogT1 .. | .watchdogT2 .. | .watchdogT3 .. | .qdtWave .. | .wlcFlushTimer .. | .shootdownRequest ..
  | .frameRead .. | .frameReadResponse .. | .frameWrite .. | .frameWriteAck .. | .frameAtomic .. | .frameAtomicResponse ..
  | .frameWorkRecord .. | .frameSlotUpdate .. | .slotUpdateSend .. | .frameCollectiveData .. | .frameImageTiles ..
  | .frameVote .. | .frameVoteResult .. | .votePartialTimeout .. | .voteResultRequest .. | .packetAck ..
  | .retransmitTimer .. | .peerLoss .. | .hqTailWrite .. | .hqEntryReread .. | .hqStatusClear .. | .hqQlogWrite ..
  | .hqCompletion .. | .inboundPostedWrite .. | .inboundRead .. | .inboundAtomic .. | .pReadCompletion ..
  | .cxlLinkDown .. | .uncorrectableErrorConsumed .. | .kilnCoreTimer .. | .kilnClusterTimer .. | .kilnDrainComplete ..
  | .kilnScanComplete .. | .kilnDrainTimeout .. | .moduleReset .. | .bootStage1 .. | .bootStage2 .. | .bootStage3
  | .powerWindow .. | .junctionThrottle | .thermalTrip | .electricalTrip | .engineFaultAnswered .. | .junctionBelow100C =>
    none

/-! ## The opcode map (R82, R83, R220) -/

/-- What the opcode and the sub-operation of a word select. -/
inductive Picked where
  /-- a reserved opcode: check 1 -/
  | reserved
  /-- an assigned opcode with a reserved sub-operation; `mbz` tells whether its must-be-zero bits are zero -/
  | badSub (mbz : Bool)
  /-- a row of the map; `mbz` tells whether the class's own zero bits are zero -/
  | ins (i : Instr) (mbz : Bool)
  deriving DecidableEq, Repr

/-- MOD[15:12] of opcode 0x36 (R83). -/
def pick36 (f : ClassA) : Option Instr :=
  match f.sub.toNat with
  | 0 => some (.mov f)
  | 1 => some (.iabs f)
  | 2 => some (.ineg f)
  | 3 => some (.inot f)
  | 4 => some (.popc f)
  | 5 => some (.clz f)
  | 6 => some (.ctz f)
  | 7 => some (.brev f)
  | _ => none

/-- MOD4 of opcode 0x38 (R83). -/
def pick38 (f : ClassI) : Option Instr :=
  match f.mod4.toNat with
  | 0 => some (.iaddImm f)
  | 1 => some (.isubImm f)
  | 2 => some (.imulImm f)
  | 3 => some (.iminImm f)
  | 4 => some (.imaxImm f)
  | 5 => some (.andImm f)
  | 6 => some (.orImm f)
  | 7 => some (.xorImm f)
  | 8 => some (.andnImm f)
  | 9 => some (.shlImm f)
  | 10 => some (.shrImm f)
  | 11 => some (.sarImm f)
  | 12 => some (.rotImm f)
  | _ => none

/-- MOD[13:12] of opcode 0x3D (R126). -/
def pick3D (f : ClassA) : Option Instr :=
  match f.adForm.toNat with
  | 0 => some (.adset f)
  | 1 => some (.adsetW f)
  | 2 => some (.adsetAdd f)
  | _ => none

/-- MOD[1:0] of opcode 0xC8 (R190). -/
def pickC8 (f : ClassE) : Option Instr :=
  match f.bits 2 0 with
  | 0 => some (.mxscale f)
  | 1 => some (.mxscaleRow f)
  | 2 => some (.mxscaleCol f)
  | _ => none

/-- The special registers whose write has a row of its own (R29, R50, R57, R243, R289, R330, R333, R404). -/
def pickSwr (f : ClassS) : Instr :=
  match f.sreg.toNat with
  | 0x10 => .qcfgWrite f
  | 0x20 => .mstatClear f
  | 0x21 => .srstateWrite f
  | 0x70 => .stklimWrite f
  | 0x80 => .heapRegWrite f
  | 0x81 => .heapRegWrite f
  | 0x82 => .heapRegWrite f
  | 0x83 => .windowWrite f
  | 0xA0 => .cceshareWrite f
  | 0x8010 => .grstWrite f
  | 0x8019 => .plimWrite f
  | _ => .swr f

/-- MOD[2:0] of QSW (R220). -/
def pickQsw (f : ClassS) : Option Instr :=
  match (f.mod.extractLsb' 0 3).toNat with
  | 0 => some (.qswSuspend f)
  | 1 => some (.qswResume f)
  | 2 => some (.qswPreempt f)
  | 3 => some (.qswKill f)
  | 4 => some (.qswPrio f)
  | _ => none

/-- The must-be-zero rule that holds whatever the reserved sub-operation of a class-A word is. -/
def Picked.ofA (o : Option Instr) (low : Bool) (mbz : Bool) : Picked :=
  match o with
  | some i => .ins i low
  | none => .badSub (low && mbz)

/-- The row of the opcode map that a word belongs to. -/
def pick (w : BitVec 64) : Picked :=
  let a := unpackA w
  let i := unpackI w
  let m := unpackM w
  let b := unpackB w
  let e := unpackE w
  let s := unpackS w
  let low := field 12 0 w == 0#12
  match (opcodeOf w).toNat with
  | 0x00 => .ins (.nop b) true
  | 0x01 => .ins (.ifK b) true
  | 0x02 => .ins (.elseK b) true
  | 0x03 => .ins (.endif b) true
  | 0x04 => .ins (.loop b) true
  | 0x05 => .ins (.endloop b) true
  | 0x06 => .ins (.brk b) true
  | 0x07 => .ins (.cont b) true
  | 0x08 => .ins (.bra b) true
  | 0x09 => .ins (.brx a) low
  | 0x0A => .ins (.call b) true
  | 0x0B => .ins (.callx a) low
  | 0x0C => .ins (.ret b) true
  | 0x0D => .ins (.regang b) true
  | 0x0E => .ins (.jmpf b) true
  | 0x0F => .ins (.cfetch m) true
  | 0x10 => .ins (if b.aux12.getLsbD 6 then .cwaitAll b else .cwait b) true
  | 0x11 => .ins (.exit b) true
  | 0x12 => .ins (.yield b) true
  | 0x13 => .ins (.trap b) true
  | 0x14 => .ins (.rgnb b) true
  | 0x15 => .ins (.rgne b) true
  | 0x16 => .ins (.cbr b) true
  | 0x17 => .ins (.bar b) true
  | 0x18 => .ins (.qcfg a) low
  | 0x20 => .ins (.iadd a) low
  | 0x21 => .ins (.isub a) low
  | 0x22 => .ins (.imul a) low
  | 0x23 => .ins (.imulh a) low
  | 0x24 => .ins (.imad a) low
  | 0x25 => .ins (.idiv a) low
  | 0x26 => .ins (.irem a) low
  | 0x27 => .ins (.imin a) low
  | 0x28 => .ins (.imax a) low
  | 0x29 => .ins (.iand a) low
  | 0x2A => .ins (.ior a) low
  | 0x2B => .ins (.ixor a) low
  | 0x2C => .ins (.iandn a) low
  | 0x2D => .ins (.shl a) low
  | 0x2E => .ins (.shr a) low
  | 0x2F => .ins (.sar a) low
  | 0x30 => .ins (.rot a) low
  | 0x31 => .ins (.bfe a) low
  | 0x32 => .ins (.bfi a) low
  | 0x33 => .ins (.icmp a) low
  | 0x34 => .ins (.sel a) low
  | 0x35 => .ins (.lea m) true
  | 0x36 => .ofA (pick36 a) low (a.b == 0#6 && a.c == 0#6 && !a.modOutside 0x00F#12)
  | 0x38 => .ofA (pick38 i) true true
  | 0x39 => .ins (.icmpImm i) true
  | 0x3A => .ins (.movi i) true
  | 0x3B => .ins (.movh i) true
  | 0x3C => .ins (.adsetImm i) true
  | 0x3D => .ofA (pick3D a) low (a.c == 0#6 && !a.modOutside 0x003#12 && a.h.fx == 0#2)
  | 0x3E => .ins (if a.mod.getLsbD 0 then .adgetW a else .adget a) low
  | 0x40 => .ins (.fadd a) low
  | 0x41 => .ins (.fsub a) low
  | 0x42 => .ins (.fmul a) low
  | 0x43 => .ins (.ffma a) low
  | 0x44 => .ins (.fmin a) low
  | 0x45 => .ins (.fmax a) low
  | 0x46 => .ins (.fcmp a) low
  | 0x47 => .ins (.frnd a) low
  | 0x48 => .ins (.fclass a) low
  | 0x49 => .ins (.frcp a) low
  | 0x4A => .ins (.frsq a) low
  | 0x4B => .ins (.fsqrt a) low
  | 0x4C => .ins (.fexp2 a) low
  | 0x4D => .ins (.flog2 a) low
  | 0x4E => .ins (.fsin a) low
  | 0x4F => .ins (.fcos a) low
  | 0x50 => .ins (.fdiv a) low
  | 0x51 => .ins (.fdot2 a) low
  | 0x52 => .ins (.idot4 a) low
  | 0x60 => .ins (.cvt e) true
  | 0x61 => .ins (.qpack e) true
  | 0x62 => .ins (.qunpk e) true
  | 0x70 => .ins (.shfl a) low
  | 0x71 => .ins (.shflx a) low
  | 0x72 => .ins (.bcast a) low
  | 0x73 => .ins (.vote a) low
  | 0x74 => .ins (.red a) low
  | 0x75 => .ins (.redix a) low
  | 0x76 => .ins (.scan a) low
  | 0x77 => .ins (.matchLanes a) low
  | 0x80 => .ins (.ld m) true
  | 0x81 => .ins (.st m) true
  | 0x82 => .ins (.ldlod m) true
  | 0x83 => .ins (.smpl e) true
  | 0x84 => .ins (.ldgen m) true
  | 0x85 => .ins (.pref m) true
  | 0x86 => .ins (.cinv m) true
  | 0x87 => .ins (.cflush m) true
  | 0x88 => .ins (.rinv m) true
  | 0x89 => .ins (.rminv m) true
  | 0xA0 => .ins (.atom m) true
  | 0xA1 => .ins (.waitv m) true
  | 0xA2 => .ins (.fence m) true
  | 0xB0 => .ins (.cpy e) true
  | 0xB1 => .ins (.gth e) true
  | 0xB2 => .ins (.bcommit b) true
  | 0xB3 => .ins (if b.aux4.getLsbD 0 then .bwaitG b else .bwait b) true
  | 0xB4 => .ins (.waitc b) true
  | 0xB5 => .ins (.publ m) true
  | 0xB6 => .ins (.bcbarm m) true
  | 0xB7 => .ins (.bcbadd m) true
  | 0xB8 => .ins (.bcbwait m) true
  | 0xC0 => .ins (if e.h.fx.getLsbD 0 then .tdsetReg e else .tdsetImm e) true
  | 0xC1 => .ins (.tdget e) true
  | 0xC2 => .ins (.mxzero e) true
  | 0xC3 => .ins (.mxldacc e) true
  | 0xC4 => .ins (.mxmma e) true
  | 0xC5 => .ins (.mxdrain e) true
  | 0xC6 => .ins (if b.aux12.getLsbD 3 then .mxwaitAcc b else .mxwait b) true
  | 0xC7 => .ins (if e.mod.getLsbD 0 then .mxmodeRed e else .mxmodeNorm e) true
  | 0xC8 => .ofA (pickC8 e) true (e.fs == 0#3 && e.tb == 0#3 && e.tc == 0#3 && e.h.fx == 0#2 && (e.mod &&& ~~~3#24) == 0#24)
  | 0xD0 => .ins (.fork b) true
  | 0xD1 => .ins (.rdv b) true
  | 0xD2 => .ins (.spawn e) true
  | 0xD3 => .ins (if b.aux12.getLsbD 3 then .doneC b else .done b) true
  | 0xD4 => .ins (.wlput e) true
  | 0xD5 => .ins (.wlget e) true
  | 0xD6 => .ins (.qdone b) true
  | 0xD7 => .ins (.coll e) true
  | 0xD8 => .ins (.comp e) true
  | 0xD9 => .ins (.wsend e) true
  | 0xDA => .ins (.mesh e) true
  | 0xDB => .ins (.rtrace e) true
  | 0xDC => .ins (.rhit e) true
  | 0xDD => .ins (.rbin e) true
  | 0xE0 => .ins (.srd s) true
  | 0xE1 => .ins (pickSwr s) true
  | 0xE2 => .ins (.time s) true
  | 0xE3 => .ins (.sysc b) true
  | 0xE4 => .ins (if b.aux12.getLsbD 0 then .tretSkip b else .tret b) true
  | 0xE5 => .ins (.qmap s) true
  | 0xE6 => .ins (.qunmap s) true
  | 0xE7 => .ofA (pickQsw s) true (s.sreg.toNat < 64 && s.h.fx == 0#2 && (s.mod &&& ~~~7#26) == 0#26)
  | _ => .reserved

/-! ## Decoding (R86, R87) -/

/-- Check 5: the G bit against the Forms column and the opcode against the core kind (R71). -/
def Checks.admitted (c : Checks) (kind : CoreKind) : Bool :=
  (match c.forms with
    | .l => !c.h.g
    | .g => c.h.g
    | .lg => true) &&
  (match kind with
    | .lintel => c.h.g && c.lintel != .n
    | _ => c.lintel != .only && !c.mxOnly)

/-- The first of checks 2 to 6 that fails, as its decode code; 0 when none does. -/
def Checks.code (c : Checks) (kind : CoreKind) (classZero : Bool) : Nat :=
  if !(c.mbz && classZero) then 2
  else if !c.legal then 3
  else if c.h.pn && c.h.pi == 7#3 then 4
  else if !c.admitted kind then 5
  else if c.h.t && !(c.tOk && !c.h.g) then 6
  else 0

/-- A word as a core of the given kind reads it: the instruction, or the decode code of the first static check that
fails. Total on any word. -/
def decode (kind : CoreKind) (w : BitVec 64) : Except Nat Instr :=
  match pick w with
  | .reserved => .error 1
  | .badSub mbz => .error (if mbz then 3 else 2)
  | .ins i z =>
    match i.checks with
    | none => .error 1
    | some c => if c.code kind z = 0 then .ok i else .error (c.code kind z)

/-- Eight bytes of IMEM, lowest address first (R9, R68), and the rest. -/
def wordOfBytes (bs : List Byte) : Option (BitVec 64 × List Byte) :=
  match bs with
  | b0 :: b1 :: b2 :: b3 :: b4 :: b5 :: b6 :: b7 :: rest =>
    some (b7 ++ b6 ++ b5 ++ b4 ++ b3 ++ b2 ++ b1 ++ b0, rest)
  | _ => none

/-- The bytes of a word as IMEM holds them (R9, R68). -/
def bytesOfWord (w : BitVec 64) : List Byte :=
  [field 8 0 w, field 8 8 w, field 8 16 w, field 8 24 w, field 8 32 w, field 8 40 w, field 8 48 w, field 8 56 w]

/-- Decoding of any bytes: an instruction and the bytes after it, or the decode code; fewer than eight bytes are no
instruction and answer code 1. -/
def decodeBytes (kind : CoreKind) (bs : List Byte) : Except Nat (Instr × List Byte) :=
  match wordOfBytes bs with
  | none => .error 1
  | some (w, rest) =>
    match decode kind w with
    | .ok i => .ok (i, rest)
    | .error c => .error c

/-! ## Encoding -/

def bit1 (b : Bool) : BitVec 1 := BitVec.ofBool b

def packHeader (op : BitVec 8) (h : Header) : BitVec 16 :=
  op ++ bit1 h.pn ++ h.pi ++ bit1 h.g ++ bit1 h.t ++ h.fx

def packA (op : BitVec 8) (f : ClassA) : BitVec 64 := packHeader op f.h ++ f.d ++ f.a ++ f.b ++ f.c ++ f.mod ++ 0#12
def packI (op : BitVec 8) (f : ClassI) : BitVec 64 := packHeader op f.h ++ f.d ++ f.a ++ f.mod4 ++ f.imm
def packM (op : BitVec 8) (f : ClassM) : BitVec 64 :=
  packHeader op f.h ++ f.d ++ f.adr ++ f.x ++ f.sc ++ f.sz ++ f.sp ++ f.scp ++ f.ord ++ f.ch ++ f.off
def packB (op : BitVec 8) (f : ClassB) : BitVec 64 := packHeader op f.h ++ f.disp ++ f.aux8 ++ f.aux4 ++ f.aux12
def packE (op : BitVec 8) (f : ClassE) : BitVec 64 :=
  packHeader op f.h ++ f.d ++ f.ta ++ f.tb ++ f.tc ++ f.fs ++ f.a ++ f.mod
def packS (op : BitVec 8) (f : ClassS) : BitVec 64 := packHeader op f.h ++ f.sreg ++ f.a ++ f.mod

/-- The word of an instruction (R82, R83); an event has none. -/
def encode : Instr → Option (BitVec 64)
  | .nop f => some (packB 0x00#8 f)
  | .ifK f => some (packB 0x01#8 f)
  | .elseK f => some (packB 0x02#8 f)
  | .endif f => some (packB 0x03#8 f)
  | .loop f => some (packB 0x04#8 f)
  | .endloop f => some (packB 0x05#8 f)
  | .brk f => some (packB 0x06#8 f)
  | .cont f => some (packB 0x07#8 f)
  | .bra f => some (packB 0x08#8 f)
  | .brx f => some (packA 0x09#8 f)
  | .call f => some (packB 0x0A#8 f)
  | .callx f => some (packA 0x0B#8 f)
  | .ret f => some (packB 0x0C#8 f)
  | .regang f => some (packB 0x0D#8 f)
  | .jmpf f => some (packB 0x0E#8 f)
  | .cfetch f => some (packM 0x0F#8 f)
  | .cwait f => some (packB 0x10#8 f)
  | .cwaitAll f => some (packB 0x10#8 f)
  | .exit f => some (packB 0x11#8 f)
  | .yield f => some (packB 0x12#8 f)
  | .trap f => some (packB 0x13#8 f)
  | .rgnb f => some (packB 0x14#8 f)
  | .rgne f => some (packB 0x15#8 f)
  | .cbr f => some (packB 0x16#8 f)
  | .bar f => some (packB 0x17#8 f)
  | .qcfg f => some (packA 0x18#8 f)
  | .iadd f => some (packA 0x20#8 f)
  | .isub f => some (packA 0x21#8 f)
  | .imul f => some (packA 0x22#8 f)
  | .imulh f => some (packA 0x23#8 f)
  | .imad f => some (packA 0x24#8 f)
  | .idiv f => some (packA 0x25#8 f)
  | .irem f => some (packA 0x26#8 f)
  | .imin f => some (packA 0x27#8 f)
  | .imax f => some (packA 0x28#8 f)
  | .iand f => some (packA 0x29#8 f)
  | .ior f => some (packA 0x2A#8 f)
  | .ixor f => some (packA 0x2B#8 f)
  | .iandn f => some (packA 0x2C#8 f)
  | .shl f => some (packA 0x2D#8 f)
  | .shr f => some (packA 0x2E#8 f)
  | .sar f => some (packA 0x2F#8 f)
  | .rot f => some (packA 0x30#8 f)
  | .bfe f => some (packA 0x31#8 f)
  | .bfi f => some (packA 0x32#8 f)
  | .icmp f => some (packA 0x33#8 f)
  | .sel f => some (packA 0x34#8 f)
  | .lea f => some (packM 0x35#8 f)
  | .mov f => some (packA 0x36#8 f)
  | .iabs f => some (packA 0x36#8 f)
  | .ineg f => some (packA 0x36#8 f)
  | .inot f => some (packA 0x36#8 f)
  | .popc f => some (packA 0x36#8 f)
  | .clz f => some (packA 0x36#8 f)
  | .ctz f => some (packA 0x36#8 f)
  | .brev f => some (packA 0x36#8 f)
  | .iaddImm f => some (packI 0x38#8 f)
  | .isubImm f => some (packI 0x38#8 f)
  | .imulImm f => some (packI 0x38#8 f)
  | .iminImm f => some (packI 0x38#8 f)
  | .imaxImm f => some (packI 0x38#8 f)
  | .andImm f => some (packI 0x38#8 f)
  | .orImm f => some (packI 0x38#8 f)
  | .xorImm f => some (packI 0x38#8 f)
  | .andnImm f => some (packI 0x38#8 f)
  | .shlImm f => some (packI 0x38#8 f)
  | .shrImm f => some (packI 0x38#8 f)
  | .sarImm f => some (packI 0x38#8 f)
  | .rotImm f => some (packI 0x38#8 f)
  | .icmpImm f => some (packI 0x39#8 f)
  | .movi f => some (packI 0x3A#8 f)
  | .movh f => some (packI 0x3B#8 f)
  | .adsetImm f => some (packI 0x3C#8 f)
  | .adset f => some (packA 0x3D#8 f)
  | .adsetW f => some (packA 0x3D#8 f)
  | .adsetAdd f => some (packA 0x3D#8 f)
  | .adget f => some (packA 0x3E#8 f)
  | .adgetW f => some (packA 0x3E#8 f)
  | .fadd f => some (packA 0x40#8 f)
  | .fsub f => some (packA 0x41#8 f)
  | .fmul f => some (packA 0x42#8 f)
  | .ffma f => some (packA 0x43#8 f)
  | .fmin f => some (packA 0x44#8 f)
  | .fmax f => some (packA 0x45#8 f)
  | .fcmp f => some (packA 0x46#8 f)
  | .frnd f => some (packA 0x47#8 f)
  | .fclass f => some (packA 0x48#8 f)
  | .frcp f => some (packA 0x49#8 f)
  | .frsq f => some (packA 0x4A#8 f)
  | .fsqrt f => some (packA 0x4B#8 f)
  | .fexp2 f => some (packA 0x4C#8 f)
  | .flog2 f => some (packA 0x4D#8 f)
  | .fsin f => some (packA 0x4E#8 f)
  | .fcos f => some (packA 0x4F#8 f)
  | .fdiv f => some (packA 0x50#8 f)
  | .fdot2 f => some (packA 0x51#8 f)
  | .idot4 f => some (packA 0x52#8 f)
  | .cvt f => some (packE 0x60#8 f)
  | .qpack f => some (packE 0x61#8 f)
  | .qunpk f => some (packE 0x62#8 f)
  | .shfl f => some (packA 0x70#8 f)
  | .shflx f => some (packA 0x71#8 f)
  | .bcast f => some (packA 0x72#8 f)
  | .vote f => some (packA 0x73#8 f)
  | .red f => some (packA 0x74#8 f)
  | .redix f => some (packA 0x75#8 f)
  | .scan f => some (packA 0x76#8 f)
  | .matchLanes f => some (packA 0x77#8 f)
  | .ld f => some (packM 0x80#8 f)
  | .st f => some (packM 0x81#8 f)
  | .ldlod f => some (packM 0x82#8 f)
  | .smpl f => some (packE 0x83#8 f)
  | .ldgen f => some (packM 0x84#8 f)
  | .pref f => some (packM 0x85#8 f)
  | .cinv f => some (packM 0x86#8 f)
  | .cflush f => some (packM 0x87#8 f)
  | .rinv f => some (packM 0x88#8 f)
  | .rminv f => some (packM 0x89#8 f)
  | .atom f => some (packM 0xA0#8 f)
  | .waitv f => some (packM 0xA1#8 f)
  | .fence f => some (packM 0xA2#8 f)
  | .cpy f => some (packE 0xB0#8 f)
  | .gth f => some (packE 0xB1#8 f)
  | .bcommit f => some (packB 0xB2#8 f)
  | .bwait f => some (packB 0xB3#8 f)
  | .bwaitG f => some (packB 0xB3#8 f)
  | .waitc f => some (packB 0xB4#8 f)
  | .publ f => some (packM 0xB5#8 f)
  | .bcbarm f => some (packM 0xB6#8 f)
  | .bcbadd f => some (packM 0xB7#8 f)
  | .bcbwait f => some (packM 0xB8#8 f)
  | .tdsetImm f => some (packE 0xC0#8 f)
  | .tdsetReg f => some (packE 0xC0#8 f)
  | .tdget f => some (packE 0xC1#8 f)
  | .mxzero f => some (packE 0xC2#8 f)
  | .mxldacc f => some (packE 0xC3#8 f)
  | .mxmma f => some (packE 0xC4#8 f)
  | .mxdrain f => some (packE 0xC5#8 f)
  | .mxwait f => some (packB 0xC6#8 f)
  | .mxwaitAcc f => some (packB 0xC6#8 f)
  | .mxmodeNorm f => some (packE 0xC7#8 f)
  | .mxmodeRed f => some (packE 0xC7#8 f)
  | .mxscale f => some (packE 0xC8#8 f)
  | .mxscaleRow f => some (packE 0xC8#8 f)
  | .mxscaleCol f => some (packE 0xC8#8 f)
  | .fork f => some (packB 0xD0#8 f)
  | .rdv f => some (packB 0xD1#8 f)
  | .spawn f => some (packE 0xD2#8 f)
  | .done f => some (packB 0xD3#8 f)
  | .doneC f => some (packB 0xD3#8 f)
  | .wlput f => some (packE 0xD4#8 f)
  | .wlget f => some (packE 0xD5#8 f)
  | .rbin f => some (packE 0xDD#8 f)
  | .qdone f => some (packB 0xD6#8 f)
  | .coll f => some (packE 0xD7#8 f)
  | .comp f => some (packE 0xD8#8 f)
  | .wsend f => some (packE 0xD9#8 f)
  | .mesh f => some (packE 0xDA#8 f)
  | .rtrace f => some (packE 0xDB#8 f)
  | .rhit f => some (packE 0xDC#8 f)
  | .srd f => some (packS 0xE0#8 f)
  | .swr f => some (packS 0xE1#8 f)
  | .qcfgWrite f => some (packS 0xE1#8 f)
  | .mstatClear f => some (packS 0xE1#8 f)
  | .srstateWrite f => some (packS 0xE1#8 f)
  | .stklimWrite f => some (packS 0xE1#8 f)
  | .heapRegWrite f => some (packS 0xE1#8 f)
  | .windowWrite f => some (packS 0xE1#8 f)
  | .cceshareWrite f => some (packS 0xE1#8 f)
  | .grstWrite f => some (packS 0xE1#8 f)
  | .plimWrite f => some (packS 0xE1#8 f)
  | .time f => some (packS 0xE2#8 f)
  | .sysc f => some (packB 0xE3#8 f)
  | .tret f => some (packB 0xE4#8 f)
  | .tretSkip f => some (packB 0xE4#8 f)
  | .qmap f => some (packS 0xE5#8 f)
  | .qunmap f => some (packS 0xE6#8 f)
  | .qswSuspend f => some (packS 0xE7#8 f)
  | .qswResume f => some (packS 0xE7#8 f)
  | .qswPreempt f => some (packS 0xE7#8 f)
  | .qswKill f => some (packS 0xE7#8 f)
  | .qswPrio f => some (packS 0xE7#8 f)
  | .segmentLanded .. | .yieldExpire .. | .regionExhaustReplay .. | .voteResultDelivery .. | .loadReturn ..
  | .storePerformed .. | .causalDelivery .. | .waitvReread .. | .copyUnit .. | .copyComplete .. | .publSwing ..
  | .mxdrainCompareDone .. | .mxOpComplete .. | .lintelStart .. | .collComplete .. | .meshRaster .. | .pixelTeamStart ..
  | .fragmentBlend .. | .rtraceComplete .. | .syscAnswer .. | .asyncTrap .. | .placementDecision .. | .rootRecordMake ..
  | .cohortRestore .. | .faultAnswered .. | .freeSlotAdvert .. | .migrationTrigger .. | .migrationReceive ..
  | .watchdogT1 .. | .watchdogT2 .. | .watchdogT3 .. | .qdtWave .. | .wlcFlushTimer .. | .shootdownRequest ..
  | .frameRead .. | .frameReadResponse .. | .frameWrite .. | .frameWriteAck .. | .frameAtomic .. | .frameAtomicResponse ..
  | .frameWorkRecord .. | .frameSlotUpdate .. | .slotUpdateSend .. | .frameCollectiveData .. | .frameImageTiles ..
  | .frameVote .. | .frameVoteResult .. | .votePartialTimeout .. | .voteResultRequest .. | .packetAck ..
  | .retransmitTimer .. | .peerLoss .. | .hqTailWrite .. | .hqEntryReread .. | .hqStatusClear .. | .hqQlogWrite ..
  | .hqCompletion .. | .inboundPostedWrite .. | .inboundRead .. | .inboundAtomic .. | .pReadCompletion ..
  | .cxlLinkDown .. | .uncorrectableErrorConsumed .. | .kilnCoreTimer .. | .kilnClusterTimer .. | .kilnDrainComplete ..
  | .kilnScanComplete .. | .kilnDrainTimeout .. | .moduleReset .. | .bootStage1 .. | .bootStage2 .. | .bootStage3
  | .powerWindow .. | .junctionThrottle | .thermalTrip | .electricalTrip | .engineFaultAnswered .. | .junctionBelow100C =>
    none

/-! ## The host's reading of a table word -/

/-- The first eight bytes of an instruction whose bits are `w`, numbered from bit 0 of the first word; bits at `nbits`
and above are 0. -/
def tableWord (nbits w : Nat) : BitVec 64 := BitVec.ofNat 64 (w % 2 ^ (min nbits 64))

/-- The instruction the decoder reads from a table word: as a vector core reads it, else as a lintel core does. -/
def decodeTableWord (nbits w : Nat) : Option Instr :=
  match decode .vector (tableWord nbits w) with
  | .ok i => some i
  | .error _ =>
    match decode .lintel (tableWord nbits w) with
    | .ok i => some i
    | .error _ => none

end Sys2Proof
end

