-- ==== Sys2Proof/Machine/Map.lean ====
section
/-! DEFINITION. Sparse maps in one canonical form: keys strictly rising, no entry equal to what an unlisted key reads
as, so that equal maps are equal data. Register files, memories and tables of units are all such maps. -/

namespace Sys2Proof.Machine

/-- A sparse map from numbers. The value of an unlisted key is an argument of the operations. -/
abbrev KMap (α : Type) := List (Nat × α)

/-- The value at a key; `d` where the map lists none. -/
def KMap.get {α : Type} (d : α) (m : KMap α) (k : Nat) : α :=
  match m with
  | [] => d
  | (j, v) :: r => if k = j then v else KMap.get d r k

/-- The map without key `k`. -/
def KMap.erase {α : Type} (m : KMap α) (k : Nat) : KMap α :=
  match m with
  | [] => []
  | (j, v) :: r => if k = j then KMap.erase r k else (j, v) :: KMap.erase r k

/-- The map with an entry for key `k`, whatever its value. -/
def KMap.insert {α : Type} (m : KMap α) (k : Nat) (a : α) : KMap α :=
  match m with
  | [] => [(k, a)]
  | (j, v) :: r => if k = j then (k, a) :: r else if k < j then (k, a) :: (j, v) :: r else (j, v) :: KMap.insert r k a

/-- The map with value `a` at key `k`; the default is never listed. -/
def KMap.set {α : Type} [DecidableEq α] (d : α) (m : KMap α) (k : Nat) (a : α) : KMap α :=
  if a = d then KMap.erase m k else KMap.insert m k a

/-- Several updates, first to last. -/
def KMap.setAll {α : Type} [DecidableEq α] (d : α) (m : KMap α) (l : List (Nat × α)) : KMap α :=
  l.foldl (fun m p => KMap.set d m p.1 p.2) m

/-- Every key of `m` is above `lo` and the keys rise strictly. -/
def KMap.risingFrom {α : Type} (m : KMap α) (lo : Nat) : Bool :=
  match m with
  | [] => true
  | (j, _) :: r => decide (lo ≤ j) && KMap.risingFrom r (j + 1)

/-- The canonical form: keys rise strictly and no entry is the default. -/
def KMap.wf {α : Type} [DecidableEq α] (d : α) (m : KMap α) : Bool :=
  KMap.risingFrom m 0 && m.all fun p => decide (p.2 ≠ d)

/-- The listed keys, rising. -/
def KMap.keys {α : Type} (m : KMap α) : List Nat := m.map fun p => p.1

end Sys2Proof.Machine
end

