-- ==== Sys2Proof/Machine/State.lean ====
section
/-! DEFINITION. The state of one ZX9 module as plain data: every gang, team, cohort, queue, cluster and die, memory, the
fabric and the host port. INVENTORY.md lists each piece with the rule that names it and its value at reset. -/

namespace Sys2Proof.Machine

/-! ## A gang and what it owns (R19 to R38, R350) -/

/-- One slice of a gang (R19, R31, R34, R113). A missing key is an absent slice. -/
structure Slice where
  present  : Bool := false
  pc       : IAddr := 0#18
  /-- call depth (R101) -/
  depth    : BitVec 8 := 0#8
  /-- the part, named by its lowest slice -/
  part     : Nat := 0
  /-- waits at the REGANG its PC stands at (R34) -/
  atRegang : Bool := false
  /-- waits at the BAR its PC stands at (R113) -/
  atBar    : Bool := false
  deriving DecidableEq, Repr

/-- The registers whose first write run-ahead can undo (R38, R58). Register n of lane l has key 32 n + l. -/
structure Regs where
  v       : KMap Word := []
  k       : KMap Word := []
  g       : KMap DWord := []
  gp      : BitVec 8 := 0#8
  ad      : KMap VAddr := []
  mstat   : DWord := 0#64
  srstate : KMap Word := []
  /-- while the gang runs ahead: the lane registers (by 8 n + slice), and from 384 on the group, address, k and gp registers, written
  since its CBR, each once (R38, R107) -/
  undo    : Option (List Nat) := none
  deriving DecidableEq, Repr

/-- A store held in the release buffer (R105, R110): its space, its bytes by address, its scope and order. -/
structure Held where
  space : Nat
  bytes : List (Nat × Byte)
  scp   : Nat
  ord   : Nat
  /-- an atomic's write, and the 32-byte blocks it locks until it is performed, as (space, block) (R110) -/
  atom  : Bool := false
  locks : List (Nat × Nat) := []
  /-- after its commit: the store whose answer brings the page it waits for (R419) -/
  fault : Option Nat := none
  deriving DecidableEq, Repr

/-- The idempotent region opened by RGNB (R105, R358). -/
structure Region where
  pc      : IAddr
  cnt     : KMap (BitVec 6)
  slices  : KMap Slice
  mstat   : DWord
  srstate : KMap Word
  ret     : KMap (Option IAddr) := []
  held    : List Held := []
  /-- when it was opened, in the order of all regions (R107) -/
  order   : Nat
  deriving DecidableEq, Repr

/-- Run-ahead past a CBR (R38, R110, R111). -/
structure Ahead where
  cbr    : IAddr
  /-- where the gang goes on a mismatch -/
  other  : IAddr
  /-- the hint: the taken path is being run -/
  taken  : Bool
  /-- gang-instructions left of the window -/
  left   : Nat
  regs   : Regs
  cnt    : KMap (BitVec 6)
  slices : KMap Slice
  ret    : KMap (Option IAddr)
  held   : List Held := []
  deriving DecidableEq, Repr

/-- A cast vote whose result has not been delivered: group, GRPM slot, number (R109, R350). -/
structure Cast where
  grp  : Nat
  slot : Nat
  num  : Nat
  deriving DecidableEq, Repr

/-- An operation of the ld counter (R153, R173): the registers it will write, and what it will write. A value that
comes from outside the module is missing until its response has arrived. -/
structure PendLoad where
  id     : Nat
  vregs  : List Nat := []
  gregs  : List Nat := []
  /-- lane-register writes by key -/
  vals   : List (Nat × Word) := []
  gvals  : List (Nat × DWord) := []
  /-- MSTAT flags ORed at the return (R166) -/
  flags  : DWord := 0#64
  /-- responses awaited: tag, lane (32 for the group form) -/
  await  : List (Nat × Nat) := []
  /-- SZ of the access and its D field, for a response -/
  sz     : Nat := 0
  d      : Nat := 0
  /-- issued while running ahead -/
  ahead  : Bool := false
  /-- one of the two traversals a gang may have (R351) -/
  ray    : Bool := false
  /-- an acquire: later accesses wait while its value is awaited (R228) -/
  acq    : Bool := false
  /-- ATOM's operation code, for the old value that comes back; 15 for other loads (R165) -/
  code   : Nat := 15
  /-- reads for the instruction itself, which issues again with their values; `words`: of these 8-byte words -/
  probe  : Bool := false
  words  : List Nat := []
  /-- held bytes that overlay a response: 64 lane + offset (R105) -/
  mask   : List (Nat × Byte) := []
  /-- the addresses that an LDGEN reads (R164) -/
  lgen   : List Nat := []
  deriving DecidableEq, Repr

/-- What an RTRACE entry of the frame holds (R351). -/
structure RayEntry where
  id     : Nat
  word   : DWord
  act    : Word
  ta     : VAddr
  stklim : Nat
  rays   : KMap Word
  deriving DecidableEq, Repr

/-- Who released a value (R222, R227): gang, team and cohort keys on a module, that module and the die, with the scope of the release. -/
structure Tag where
  modn   : Nat := 0
  scp    : Nat
  gang   : Nat
  team   : Nat
  cohort : Nat
  die    : Nat
  deriving DecidableEq, Repr

/-- The trap shadow of R218. -/
structure Shadow where
  slices : KMap Slice
  cnt    : KMap (BitVec 6)
  deriving DecidableEq, Repr

/-- Why a gang is not ready, beyond its own polling waits. -/
inductive Hold where
  | no
  /-- YIELD n (R104): until YIELD_EXPIRE, at this clock -/
  | yield (till : Nat)
  /-- SYSC posted, its answer awaited (R217) -/
  | sysc
  /-- a vote cast, its result awaited with no window left (R110) -/
  | vote
  /-- WAITV: until its line is written (R167) -/
  | waitv
  /-- EXIT executed, its waits under R103 unfinished -/
  | exiting
  /-- waits in QDONE (R208) -/
  | qdone
  /-- waits at RDV with this number (R203) -/
  | rdv (n : Nat)
  /-- MXDRAIN's comparison (R197), and its end without a mismatch -/
  | compare
  | compared
  /-- its request stands in the FORK queue (R202) -/
  | fork
  /-- a queue command waits until the cohorts it saves are saved (R220) -/
  | command
  deriving DecidableEq, Repr

/-- A quad of pixels as a pixel gang holds it in one slice (R253, R254). -/
structure Quad where
  /-- the core that owns its tile -/
  owner : Nat
  /-- the meshlet, the gang and the team that issued its MESH -/
  mesh  : Nat
  gang  : Nat
  team  : Nat
  view  : Nat
  tri   : Nat
  x     : Nat
  y     : Nat
  /-- bit j: pixel (x + j AND 1, y + j >> 1) is covered -/
  cover : Nat
  front : Bool
  /-- F32 depth of the four pixels, and their attributes -/
  depth : List Nat
  attrs : List (List Nat)
  pent  : Nat
  pframe : Nat
  deriving DecidableEq, Repr

/-- A gang of a vector core, a lintel program, or the program of a firmware core (R1, R19, R25). -/
structure Gang where
  kind    : CoreKind := .vector
  team    : Nat := 0
  /-- GANGID -/
  gid     : Nat := 0
  /-- gang slot 0 to 47 of the core; the quadrant is slot mod 4 (R35) -/
  slot    : Nat := 0
  slices  : KMap Slice := []
  /-- return entries that the stack cache holds: entry e of slice s has key 256 s + e (R101, R244) -/
  ret     : KMap (Option IAddr) := []
  exited  : Word := 0#32
  cnt     : KMap (BitVec 6) := []
  r       : Regs := {}
  /-- bypass b1 to b3: position p of lane l has key 32 (p - 1) + l (R27) -/
  byp     : KMap DWord := []
  /-- bit 3 s + p - 1: position bp of slice s is full (R28) -/
  bypFull : BitVec 24 := 0#24
  /-- loop queues, oldest entry first: queue q of lane l has key 32 q + l (R30) -/
  queues  : KMap (List Word) := []
  qcfg    : DWord := 0#64
  /-- queue entries allocated at launch (R24, R29) -/
  qent    : Nat := 0
  /-- allocated blocks of eight lane registers (R24) -/
  blocks  : Nat := 6
  td      : KMap TileDesc := []
  blast   : Word := 0#32
  stklim  : Word := 0#32
  /-- data-stack bytes and window-0 address of the stack region (R242) -/
  ssize   : Nat := 0
  region  : Nat := 0
  /-- data-stack bytes that the stack cache holds, by offset, in whole lines of 128 bytes; and the lines that are dirty (R244) -/
  kdata   : KMap (Option Byte) := []
  kdirty  : List Nat := []
  /-- vote counters and operation counters, by GRPM slot (R109, R210) -/
  vcnt    : KMap (BitVec 16) := []
  ocnt    : KMap (BitVec 16) := []
  tcause  : DWord := 0#64
  tpc     : DWord := 0#64
  tinfo   : DWord := 0#64
  tlanes  : DWord := 0#64
  ltpc    : DWord := 0#64
  /-- HSTATE.H (R218) -/
  hstate  : Bool := false
  shadow  : Option Shadow := none
  svent   : DWord := 0#64
  /-- the name of its SYSC that is out, 0 for none; and the SYSC, with its entry, that a trap handler has interrupted (R217) -/
  sysn    : Nat := 0
  sysOld  : Option (Nat × DWord) := none
  /-- the slice TPC belongs to (R218, R219) -/
  tslice  : Nat := 0
  loads   : List PendLoad := []
  rays    : List RayEntry := []
  /-- operations the st, eng and net counters count (R173) -/
  stores  : List Nat := []
  engs    : List Nat := []
  nets    : List Nat := []
  /-- P accesses not yet acknowledged (R156) -/
  pios    : List Nat := []
  /-- MESH records not yet read (R199) -/
  meshes  : List Nat := []
  rel     : Option Region := none
  ahead   : Option Ahead := none
  vcast   : Option Cast := none
  /-- held stores that have been committed and are not performed yet, oldest first (R111, R233) -/
  commits : List Held := []
  hold    : Hold := .no
  /-- values that came from other modules for the word at the PC: 2 lane and 2 lane + 1 hold its low and high half -/
  probe   : KMap Word := []
  probed  : Bool := false
  /-- the releases of those values (R227) -/
  ptags   : List Tag := []
  /-- 8-byte words of other modules that the word at the PC reads, by virtual address / 8: those that have come, and the
  addresses of those that it wants -/
  far     : KMap (Option DWord) := []
  asks    : List Nat := []
  /-- the releases that those words were, by virtual address / 8 (R227) -/
  farTags : KMap (List Tag) := []
  /-- waits for a release-buffer entry (R107) -/
  starved : Bool := false
  /-- lintel program of a gang, gang of a lintel program (R202) -/
  partner : Option Nat := none
  /-- widest scope of a release fence already issued (R226) -/
  relScp  : Option Nat := none
  /-- releases that relaxed loads have read (R227) -/
  seen    : List Tag := []
  /-- the answer to its QDONE (R208) -/
  qans    : Option Bool := none
  /-- the quads of a pixel gang, by slice (R254) -/
  quads   : List Quad := []
  /-- the part that issued last, and the address of its word (R32) -/
  last    : Nat := 0
  issued  : Option IAddr := none
  /-- the parts that fell through, newest first (R32) -/
  falls   : List Nat := []
  /-- issues of its quadrant that it has waited ready without one of its own (R36) -/
  waited  : Nat := 0
  ended   : Bool := false
  deriving DecidableEq, Repr

/-! ## IMEM, teams and cohorts -/

/-- State of an IMEM segment slot (R91). -/
inductive SlotState where
  | empty
  | fetching
  | landed
  deriving DecidableEq, Repr

/-- One IMEM slot with the address its contents come from (R91, R202, R349). -/
structure ISlot where
  st  : SlotState := .empty
  src : VAddr := 0#72
  /-- the gang whose CFETCH is awaited (R93, R419) -/
  by_ : Nat := 0
  deriving DecidableEq, Repr

/-- A window of IMEM slots (R91). -/
structure Imem where
  nseg  : Nat := 1
  /-- first slot of the window in the core's IMEM -/
  place : Nat := 0
  slots : KMap ISlot := []
  /-- bytes by IMEM address -/
  bytes : KMap Byte := []
  deriving DecidableEq, Repr

/-- Where a team stands. -/
inductive TeamStatus where
  | running
  | saved
  /-- stopped by a trap without a handler (R218) -/
  | stopped
  | ended
  deriving DecidableEq, Repr

/-- The operation a team is issuing or has issued on a group (R210). -/
structure CollIssue where
  grp   : Nat
  num   : Nat
  word  : DWord
  src   : TileDesc
  dst   : TileDesc
  bar   : Option VAddr
  gangs : List (Nat × Nat) := []
  started : Bool := false
  deriving DecidableEq, Repr

/-- A resident or saved team. -/
structure Team where
  cohort : Nat := 0
  teamid : Nat := 0
  core   : Nat := 0
  gangs  : List Nat := []
  status : TeamStatus := .running
  spsz   : Nat := 0
  spad   : KMap Byte := []
  spadTag : KMap (List Tag) := []
  /-- BCBADDs counted at a barrier, by its offset: phase and release (R227) -/
  adds   : KMap (List (Nat × Tag)) := []
  im     : Imem := {}
  hbase  : DWord := 0#64
  hlimit : DWord := 0#64
  hoffs  : DWord := 0#64
  wmax   : DWord := 0#64
  grpm   : DWord := 0#64
  crec   : DWord := 0#64
  frame  : DWord := 0#64
  cls    : Nat := 0
  /-- pixel continuations of its MESH instructions that have not ended (R206, R257) -/
  pixels : Nat := 0
  /-- clock at which it was last started or restored (R328) -/
  since  : Nat := 0
  colls  : List CollIssue := []
  deriving DecidableEq, Repr

/-- Where a cohort stands. -/
inductive CohortStatus where
  | running
  /-- issue has stopped; the save waits for what R348 names, or for room in the frame pool (R347) -/
  | saving
  /-- saved, waiting for the answers of its fault entries (R344) -/
  | faulted
  /-- saved, at its ring -/
  | ready
  | stopped
  deriving DecidableEq, Repr

/-- One posted fault entry of a cohort: where it stands and the address it names (R343, R344). -/
structure Posted where
  entry : Nat
  va    : VAddr
  deriving DecidableEq, Repr

/-- A cohort, from placement to retirement (R311, R344, R347). -/
structure Cohort where
  cohid   : DWord := 0#64
  crec    : DWord := 0#64
  cluster : Nat := 0
  /-- queue key 64 die + slot -/
  queue   : Nat := 0
  teams   : List Nat := []
  status  : CohortStatus := .running
  /-- the address the latest DONE.C recorded (R205) -/
  donec   : Option DWord := none
  posted  : List Posted := []
  /-- faulting pages found before or during the save: address, ACC, core (R343, R344) -/
  pages   : List (VAddr × Nat × Nat) := []
  /-- frame addresses in TEAMID order, and the directory entry (R347) -/
  frames  : List Nat := []
  dir     : Nat := 0
  /-- a pre-emption request is pending (R104, R220) -/
  preempt : Bool := false
  /-- matrix state saved with its lintel program (R352) -/
  mxValid : BitVec 8 := 0#8
  mxKind  : BitVec 8 := 0#8
  mxRed   : Bool := false
  mxAcc0  : KMap XWord := []
  mxAcc1  : KMap XWord := []
  mxImem  : Imem := {}
  /-- a pixel gang's own cohort: it has no record (R254) -/
  pixel   : Bool := false
  lintel  : Option Nat := none
  deriving DecidableEq, Repr

/-! ## Queues, launches (R310, R318, R335) -/

/-- The launch record of R310, as the dispatcher keeps it. -/
structure Launch where
  at_    : Nat := 0
  fusel1 : Bool := false
  rpri   : Nat := 0
  rcls   : Nat := 0
  cohx   : Nat := 0
  cohy   : Nat := 0
  cohz   : Nat := 0
  lseed  : Word := 0#32
  entry  : DWord := 0#64
  frame0 : DWord := 0#64
  hent   : DWord := 0#64
  fs     : List Word := []
  classes : Nat := 0
  gtab   : Nat := 0
  gmap   : Nat := 0
  place  : Nat := 0
  hbase  : DWord := 0#64
  hlimit : DWord := 0#64
  hoffs  : DWord := 0#64
  stkb   : Nat := 0
  ssize  : Nat := 0
  nview  : Nat := 0
  stkn   : Nat := 0
  viewt  : Nat := 0
  swtab  : Nat := 0
  nswb   : Nat := 0
  wltab  : Nat := 0
  stage  : Nat := 0
  stgsz  : Nat := 0
  dbase  : DWord := 0#64
  deriving DecidableEq, Repr

/-- The translation context block of R335. -/
structure Ctx where
  root  : Nat := 0
  ctxn  : Nat := 0
  wmax  : Nat := 0
  hpb   : Nat := 0
  hpsz  : Nat := 0
  hpol  : Nat := 0
  hpart : Nat := 0
  frh   : Nat := 0
  /-- physical address of the block -/
  blk   : Nat := 0
  deriving DecidableEq, Repr

/-- One registered swing buffer (R314). -/
structure Swing where
  base  : Nat
  nblk  : Nat
  scope : Nat
  gen   : Nat
  alt   : Nat
  sel   : Nat
  deriving DecidableEq, Repr

/-- A mapped hardware queue slot of a die (R318 to R321, R328). -/
structure Queue where
  bound   : Bool := false
  /-- unbound by QUNMAP: the dispatcher keeps what it holds on chip until the queue is bound again (R310, R317) -/
  parked  : Bool := false
  /-- its launch has completed (R320) -/
  closed  : Bool := false
  /-- frames of stopped teams that stay readable until the queue is unmapped (R327) -/
  kept    : List Nat := []
  swings  : List Swing := []
  /-- descriptor address -/
  desc    : Nat := 0
  lrec    : Nat := 0
  launch  : Launch := {}
  refused : Bool := false
  ctx     : Ctx := {}
  rpool   : Nat := 0
  ps      : Nat := 0
  free    : Nat := 0xFFFFFFFF
  ring    : List Nat := []
  rs      : List Nat := []
  head    : List Nat := []
  tail    : List Nat := []
  /-- records that stand before the rings' own heads, foremost first: priority, record, saved cohort (R321, R323, R356) -/
  heads   : List (Nat × Nat × Option Nat) := []
  /-- clock since which each ring's head has stood at the head -/
  headAt  : List Nat := [0, 0, 0, 0]
  qpri    : Nat := 0
  suspended : Bool := false
  fbring  : Nat := 0
  svring  : Nat := 0
  t1      : Nat := 0
  t2      : Nat := 0
  t3      : Nat := 0
  age     : Nat := 0
  rot     : Nat := 0
  /-- how often each ring's head record was passed over, by record index (R321) -/
  passed  : KMap Nat := []
  pinned  : Option Nat := none
  /-- scan position of the claim (R320) -/
  scan    : Nat := 0
  /-- the owners of screen tiles, by number (R253) -/
  owners  : List Nat := []
  /-- COHID of root records and of records SPAWN made, by record index (R317) -/
  cohids  : KMap DWord := []
  /-- data-error relaunches, by record index (R395) -/
  retries : KMap Nat := []
  /-- stack regions given to records, by region index: record index + 1 (R242) -/
  regions : KMap Nat := []
  /-- batch slots in use, by 256 list + slot: record index + 1 (R325) -/
  batches : KMap Nat := []
  /-- clocks at which the items now in each list were appended, oldest first (R325) -/
  appended : KMap (List Nat) := []
  deriving DecidableEq, Repr

/-! ## The cluster's lintel core and matrix engine (R180 to R198) -/

/-- What a queued matrix operation does. -/
inductive MxKind where
  | zero (int : Bool)
  | ldacc
  | mma (bt : Bool)
  | scale (s : Word)
  | scaleRow
  | scaleCol
  | drain (row0 col0 : Nat) (bar : Option VAddr)
  deriving DecidableEq, Repr

/-- One operation in the queue of the MXE with the descriptors captured at issue (R187). -/
structure MxOp where
  id    : Nat
  kind  : MxKind
  acc   : Nat
  da    : TileDesc := 0#256
  db    : TileDesc := 0#256
  /-- KIND of the accumulator when it was issued -/
  int   : Bool := false
  /-- stochastic draws taken at issue (R194) -/
  draws : List Word := []
  deriving DecidableEq, Repr

/-- A lintel core and its engine. -/
structure Mx where
  /-- the lintel program that runs -/
  prog    : Option Nat := none
  /-- gangs whose FORK waits, oldest first, with the target address (R202) -/
  forks   : List (Nat × IAddr) := []
  /-- the entry segment of the program has not landed: the forking gang and its FORK word (R202, R419) -/
  landing : Option (Nat × IAddr) := none
  drained : Bool := false
  shut    : Bool := false
  valid   : BitVec 8 := 0#8
  kind    : BitVec 8 := 0#8
  red     : Bool := false
  ops     : List MxOp := []
  /-- the two halves; element (i, j) of acc n has key 16384 n + 128 i + j (R186) -/
  h0      : KMap XWord := []
  h1      : KMap XWord := []
  im      : Imem := { nseg := 16 }
  /-- the cluster runs fused (R240) -/
  fused   : Bool := false
  deriving DecidableEq, Repr

/-! ## Memory (R223, R224, R332) -/

/-- A store some die has not yet made visible (R224). -/
structure StoreEnt where
  id    : Nat
  die   : Nat
  seq   : Nat
  /-- the clock it carries -/
  clk   : List Nat
  bytes : List (Nat × Byte)
  tags  : List Tag := []
  /-- bit e: visible to loads of die e -/
  seen  : BitVec 4
  deriving DecidableEq, Repr

/-- A CPY or GTH in progress (R170, R171, R354). -/
structure Copy where
  id     : Nat
  gang   : Nat
  word   : DWord
  dsp    : Nat
  ssp    : Nat
  dst    : VAddr
  src    : VAddr
  len    : Nat
  /-- bytes landed, and those read that wait for the rest of their 32-byte unit (R162) -/
  done   : Nat := 0
  buf    : List Byte := []
  bar    : Option VAddr := none
  /-- the closed batch it belongs to (R172) -/
  batch  : Option Nat := none
  gth    : Bool := false
  act    : Word := 0#32
  /-- lane indices of a gather -/
  idx    : List Nat := []
  n      : Nat := 16
  /-- a command of a saved cohort (R354) -/
  parked : Bool := false
  /-- abandoned under R419: it never completes -/
  dead   : Bool := false
  /-- the tag of a unit's read that another module has to answer -/
  wait   : Option Nat := none
  deriving DecidableEq, Repr

/-- Bytes of other modules that an operation of an engine needs: the requests out, by tag, address and length, and the
pieces that have come; `go` is the event that goes on with them (R188, R273). -/
structure Fetch where
  go   : Instr
  tags : List (Nat × Nat × Nat) := []
  got  : List (Nat × List Byte) := []
  deriving DecidableEq, Repr

/-- A PUBL that has not swung (R163). -/
structure Publ where
  id   : Nat
  gang : Nat
  base : Nat
  scp  : Nat
  queue : Nat
  /-- the launch, as in `sagger` -/
  launch : Nat := 0
  /-- earlier operations of the gang that have to be performed first -/
  need : List Nat := []
  deriving DecidableEq, Repr

/-- A translation held by a die's TLBs (R340): a window-0 or window leaf, tagged with context and page size. -/
structure TlbEnt where
  ctxn  : Nat
  /-- first virtual address of the page, and log2 of its bytes -/
  base  : Nat
  bits  : Nat
  leaf  : DWord
  deriving DecidableEq, Repr

/-- A kiln pass under way (R385 to R387, R397). -/
structure Kiln where
  /-- core number, or cluster number for the matrix units -/
  unit     : Nat
  /-- clock at which its drain began -/
  start    : Nat
  scanning : Bool := false
  /-- the drain instant in ns -/
  instant  : Nat := 0
  /-- asked for by a redundant mismatch: the rotation stands still -/
  extra    : Bool := false
  deriving DecidableEq, Repr

/-- What a vector core caches of level-of-detail accesses: map words by physical address, newest first (R266), and the
repeat filter's keys queue, resource, level, page (R270). -/
structure Core where
  resid  : List (Nat × DWord) := []
  filter : List (Nat × Nat × Nat × Nat) := []
  /-- lines of swing buffers that the L1 may hold, and the bytes of those that a swing has left behind, both by the physical address
  behind the buffer's range (R231, R239) -/
  l1     : List Nat := []
  stale  : KMap (Option Byte) := []
  /-- out of service for a kiln pass; shuttered (R385, R391) -/
  drained : Bool := false
  shut    : Bool := false
  /-- to be shuttered once it holds no team -/
  leaving : Bool := false
  deriving DecidableEq, Repr

/-- One die (R1, R247, R323, R330). -/
structure Die where
  /-- core number of the firmware core (R403) -/
  fwcore : Option Nat := none
  /-- L2PM0 to L2PM7 that differ from their reset value are listed (R247) -/
  l2pm   : List (BitVec 16) := [0x3FFF#16, 0x3FFF#16, 0x3FFF#16, 0x3FFF#16, 0x3FFF#16, 0x3FFF#16, 0x3FFF#16, 0xC000#16]
  migt   : Nat := 50
  /-- bytes of lines filled under way partition 7, by physical address; those of other modules by 2^58 + (module × 2^16 + context) × 2^64 +
  near address (R246, R248) -/
  p7     : KMap (Option Byte) := []
  tlb    : List TlbEnt := []
  /-- the slot the dispatcher served last (R321) -/
  last   : Nat := 63
  /-- ELOG, KILNIV, CKILNIV, KRETRY (R388) -/
  elog   : Nat := 0
  kilniv : Nat := 100
  ckilniv : Nat := 2000
  kretry : Nat := 3
  /-- CCESHARE (R289) -/
  cceshare : DWord := 0x01010101#64
  /-- BOOTST: HBMOK, CXLOK, UEOK, HALF (R404) -/
  hbmok  : BitVec 4 := 0xF#4
  cxlok  : Bool := true
  ueok   : BitVec 4 := 0xF#4
  half   : Bool := false
  /-- the CXL link has failed (R377) -/
  cxlDown : Bool := false
  /-- next core and next cluster of the rotations, the passes under way, and clusters R397 asks for (R385 to R387) -/
  coreRot : Nat := 0
  clusRot : Nat := 0
  corePass : Option Kiln := none
  clusPass : Option Kiln := none
  clusAsk : List Nat := []
  clusDue : Bool := false
  /-- PASS of each kiln unit that has passed, in ns: 4 × core for a vector core, 4 × core + k for the cluster's lintel
  core, MXE and TFU, k = 1 to 3 (R389) -/
  passes : KMap Nat := []
  /-- free team slots that other dies have advertised (R323) -/
  advert : KMap Nat := []
  /-- FPOOL in GiB (R403), and the frames now in the pool: address, bytes (R347) -/
  fpool  : Nat := 4
  frames : List (Nat × Nat) := []
  deriving DecidableEq, Repr

/-- A member of a group (R315). -/
structure Member where
  cohid  : Nat
  teamid : Nat
  rlist  : Nat
  rarea  : Nat
  deriving DecidableEq, Repr

/-- A meshlet handed to a raster unit (R213, R252). -/
structure MeshOp where
  id   : Nat
  gang : Nat
  team : Nat
  off  : Nat
  mask : Nat
  cull : Nat
  /-- the 32 bytes of the header, as MESH read them (R213) -/
  hdr  : List Byte := []
  deriving DecidableEq, Repr

/-- A record that WSEND has sent and whose slot its receiver has not released (R199, R212, R275). -/
structure Sent where
  id   : Nat
  gang : Nat
  grp  : Nat
  src  : Nat
  dst  : Nat
  slot : Nat
  deriving DecidableEq, Repr

/-- Counts of the quiescence detector for a launch (R329): remote records sent and received, the last wave saw zeros. -/
structure Qdt where
  sent : Nat := 0
  rcvd : Nat := 0
  zero : Bool := false
  deriving DecidableEq, Repr

/-- Votes of one number gathered at a node: how many, their reduction, and whether it is ALL (R290). -/
structure Partial where
  count : Nat := 0
  val   : Bool := false
  all   : Bool := false
  deriving DecidableEq, Repr

/-- One member's part in an operation of the CCE (R279 to R286). Units are elements of COLL or tiles of COMP. -/
structure CollOp where
  rank  : Nat
  num   : Nat
  team  : Nat
  word  : DWord
  src   : TileDesc
  dst   : TileDesc
  bar   : Option VAddr
  gangs : List (Nat × Nat)
  members : Nat
  ring  : Bool
  units : Nat
  /-- partials of the units held, and the rounds of the swap they have passed -/
  cur   : KMap (List Nat) := []
  rnd   : KMap Nat := []
  /-- final units -/
  fin   : KMap (List Nat) := []
  /-- units of later rounds: unit, round, partial -/
  inbox : List (Nat × Nat × List Nat) := []
  /-- format code of the elements or pixels, and bytes of the destination -/
  fmt   : Nat := 0
  bytes : Nat := 0
  flags : DWord := 0#64
  /-- the member's operation has completed; units of others still pass through it -/
  passed : Bool := false
  deriving DecidableEq, Repr

/-- A group of a launch (R109, R210, R211, R315). -/
structure Group where
  members : List Member := []
  /-- module and die of each member, by rank, and the module of the domain root: fixed when the group's state is built (R290, R315) -/
  places  : List (Nat × Nat) := []
  rootm   : Nat := 0
  rwk     : Bool := false
  nsl     : Nat := 1
  broken  : Bool := false
  /-- votes by number: at die nodes (65,536 die + number) and, as die 4, at the module node; at the root; and the root's results with
  how many gangs have taken them (R290, R291) -/
  nodes   : KMap Partial := []
  root    : KMap Partial := []
  results : KMap (Option (Bool × Nat)) := []
  /-- at the root: the vote counters of member gangs of other modules that have ended (R109) -/
  gone    : List Nat := []
  /-- the four newest results of each die node, newest first -/
  kept    : KMap (List (Nat × Bool)) := []
  /-- slots in use as senders know them, and the newest sequence number applied: 65,536 sender + receiver (R274, R276) -/
  used    : KMap (Nat × Nat) := []
  /-- slots not released as receivers know them, and the next sequence number: 65,536 receiver + sender -/
  taken   : KMap (Nat × Nat) := []
  /-- how often each slot has been released, modulo 2, as its receiver counts and as its sender has heard -/
  rels    : KMap Nat := []
  heard   : KMap Nat := []
  /-- operations of the members on this module: 512 number + rank (R210) -/
  ops     : KMap (Option CollOp) := []
  /-- frames of operations that the member has not started (R288) -/
  early   : List Frame := []
  deriving DecidableEq, Repr

/-- An entry that waits for room in a service ring or a fault ring (R326, R343). -/
structure Post where
  /-- true: the fault ring of the queue, false: its service ring -/
  fault : Bool
  queue : Nat
  entry : Nat
  /-- the cohort whose fault it is, and the address -/
  cohort : Option Nat := none
  va    : VAddr := 0#72
  /-- the gang whose SYSC it is, and the name of that SYSC -/
  gang  : Option Nat := none
  sysc  : Nat := 0
  /-- the engine fault whose entry it is -/
  eng   : Option Nat := none
  deriving DecidableEq, Repr

/-- What an entry of the bring-up journal says of a step (R401). -/
inductive Step where
  | begun
  | done
  | failed
  deriving DecidableEq, Repr

/-- The boot and its outcome (R399, R401, R402). -/
structure Boot where
  /-- the stage that runs or has run last: 0 to 3, 4 once all have passed -/
  stage   : Nat := 0
  halted  : Bool := false
  tripped : Bool := false
  /-- M0 to M3 (R399) -/
  meas    : List (BitVec 384) := [0#384, 0#384, 0#384, 0#384]
  /-- copy B was booted -/
  copyB   : Bool := false
  /-- the journal of the start before and of this start, by step number (R401) -/
  before  : List (Nat × Step) := []
  now     : List (Nat × Step) := []
  /-- kiln units shuttered in the two starts before (R402) -/
  shut1   : List Nat := []
  shut2   : List Nat := []
  /-- kiln units shuttered since this start began -/
  shutNow : List Nat := []
  /-- the journal's record of a trip (R405) -/
  trips   : Nat := 0
  /-- end of the boot self-test in ns (R389) -/
  tested  : Nat := 0
  /-- the attestation key is loaded and the host queues are open -/
  opened  : Bool := false
  deriving DecidableEq, Repr

/-- An engine fault whose answer is awaited: the entry, 0 until it is posted, the address, the event that goes on, and the gang it acts for
(R342, R419). -/
structure EngFault where
  id    : Nat
  entry : Nat
  va    : VAddr
  queue : Nat
  gang  : Nat
  go    : Instr
  deriving DecidableEq, Repr

/-- An entry of the peer aperture table (R378). -/
structure Aper where
  v     : Bool := false
  rd    : Bool := false
  wr    : Bool := false
  pv    : Bool := false
  ctxn  : Nat := 0
  pasid : Nat := 0
  pbase : Nat := 0
  psize : Nat := 0
  pcia  : Nat := 0
  deriving DecidableEq, Repr

/-- A request that has left the host port for a peer (R379): a posted write, or a read whose completion is awaited. -/
structure PcieReq where
  id    : Nat
  gang  : Nat
  addr  : Nat
  /-- bytes written; none for a read -/
  body  : Option (List Byte)
  len   : Nat
  /-- the relaxed-ordering attribute (R232) -/
  ro    : Bool
  pasid : Option Nat
  deriving DecidableEq, Repr

/-- A host queue (R372 to R374). -/
structure HQueue where
  qbase : Nat := 0
  qlog  : Nat := 0
  head  : Nat := 0
  /-- the latched tail -/
  lt    : Nat := 0
  phase : Bool := true
  stale : Bool := false
  baddb : Bool := false
  /-- reads of the entry at HEAD so far -/
  reads : Nat := 0
  deriving DecidableEq, Repr

/-- A function of the host port: its queues, and the context firmware has bound to it (R370, R372). -/
structure HostFn where
  queues : KMap HQueue := []
  ctx    : Option Ctx := none
  deriving DecidableEq, Repr

/-- What the module sends to its host (R370, R374, R375, R379). -/
inductive HostOut where
  /-- a completion of queue `q` to a host address, then the MSI-X message of the function -/
  | completion (fn q addr : Nat) (body : List Byte)
  | msix (fn : Nat)
  /-- a queue-error completion: HEAD and the cause bit -/
  | queueError (fn q head cause : Nat)
  /-- the completion of an inbound read; no bytes: Unsupported Request -/
  | readDone (fn off : Nat) (body : Option (List Byte))
  /-- an inbound atomic completes with Unsupported Request -/
  | unsupported (fn off : Nat)
  deriving DecidableEq, Repr

/-- Messages of the dispatchers to other modules, which have no frame of R272 (R323). -/
inductive Away where
  /-- the free team slots of a die, to the modules of a launch -/
  | advert (launch die free : Nat)
  /-- loss of a peer module is reported -/
  | lost (module : Nat)
  /-- a record leaves for another module that runs its launch, with the frames of its teams where it is saved (R323, R347) -/
  | record (launch record : Nat) (frames : List Nat)
  /-- a packet of a module is acknowledged, or refused with a retry response (R271, R288) -/
  | ack (module psn : Nat)
  | retry (module psn : Nat)
  deriving DecidableEq, Repr

/-- The module. -/
structure State where
  /-- arithmetic clocks since reset (R217) -/
  clock  : Nat := 0
  /-- events owed, oldest first -/
  due    : List Instr := []
  /-- gangs that issue; the quadrant of the first has the next turn (R36) -/
  runq   : List Nat := []
  /-- the IMEM address each quadrant issued last (R36) -/
  fused  : KMap Nat := []
  /-- the next step serves `due` first -/
  turn   : Bool := false
  /-- the gang and the part that issue -/
  gk     : Nat := 0
  pt     : Nat := 0
  /-- the free values taken so far -/
  fresh  : Nat := 0
  nextId : Nat := 1
  gangs  : KMap Gang := []
  teams  : KMap Team := []
  cohorts : KMap Cohort := []
  /-- mapped slots by 64 die + slot -/
  queues : KMap Queue := []
  /-- lintel cores by cluster -/
  mx     : KMap Mx := []
  /-- memory by physical address (R332) -/
  mem    : KMap Byte := []
  /-- release tags by physical address (R227) -/
  tags   : KMap (List Tag) := []
  /-- stores that some die does not see yet, in coherence order (R223, R224) -/
  log    : List StoreEnt := []
  /-- vector clocks by die (R224) -/
  vclock : KMap (List Nat) := []
  copies : List Copy := []
  publs  : List Publ := []
  /-- by the number of the operation -/
  fetches : KMap (Option Fetch) := []
  /-- blocks of swing buffers that an engine has written since the last PUBL: the launch, as context × 2^64 + record address, and the
  block's published virtual address (R162, R314) -/
  sagger : List (Nat × Nat) := []
  dies   : KMap Die := []
  /-- vector cores by number (R266, R270) -/
  cores  : KMap Core := []
  boot   : Boot := {}
  engFaults : List EngFault := []
  /-- bytes of stack lines of ended gangs whose page is not resident: queue, virtual address, byte (R244) -/
  spills : List (Nat × Nat × Byte) := []
  /-- the peer aperture table, by entry number (R378) -/
  aper   : KMap Aper := []
  /-- requests to peers, oldest first (R379) -/
  pcieOut : List PcieReq := []
  fns    : KMap HostFn := []
  /-- host-queue entries delivered to the firmware core: function, queue, entry (R373) -/
  cmds   : List (Nat × Nat × List Byte) := []
  hostOut : List HostOut := []
  away   : List Away := []
  /-- records under way between dies: the queue instance they go to, the record, and the one they come from (R323) -/
  moving : List (Nat × Nat × Nat) := []
  /-- PLIM, PNOW, throttling for power and for temperature (R404, R405) -/
  plim   : Nat := 4000
  pnow   : Nat := 0
  thr    : Bool := false
  hot    : Bool := false
  /-- KFAIL (R389) -/
  kfail  : Nat := 0
  /-- L2 ways retired: slice, set, way; frames of 128 KiB that firmware has unmapped, by PA / 131,072 (R394) -/
  ways   : List (Nat × Nat × Nat) := []
  badFrames : List Nat := []
  /-- inbound posted writes that wait, in the order of their arrival (R232, R371) -/
  inbound : List Instr := []
  /-- frames in the dies' park buffers (R288) -/
  parked : List Frame := []
  /-- domain module number of this module (R272) -/
  modn   : Nat := 0
  /-- next packet sequence number, and frames sent whose acknowledgement has not come, with their timers (R271) -/
  psn    : Nat := 1
  net    : List (Frame × Nat) := []
  /-- packet numbers taken from each other module (R271) -/
  pseen  : KMap (List Nat) := []
  /-- the retransmission timer in µs (R271) -/
  rto    : Nat := 4
  /-- entries waiting for a full ring -/
  posts  : List Post := []
  /-- groups by 256 launch + index; a launch is named by context × 2^64 + record address -/
  groups : KMap Group := []
  /-- work records that stay in their slots until the receive list has room (R275) -/
  slotted : List Frame := []
  sent   : List Sent := []
  /-- quiescence detectors by launch (R329) -/
  qdt    : KMap Qdt := []
  /-- meshlets not yet rasterised, and quads that wait at their owner, oldest first (R252, R254) -/
  meshq  : List MeshOp := []
  quads  : List Quad := []
  deriving DecidableEq, Repr

/-- The machine right after a module reset. -/
def State.reset : State := {}

/-- Why a machine stops. Both are raised by `step` alone, and both are safe: the model does nothing where the module
does nothing. -/
inductive Fault where
  /-- the module has halted at a boot stage (R399, R402); raised by `step`, safe -/
  | halted
  /-- the module has tripped (R405); raised by `step`, safe -/
  | tripped
  deriving DecidableEq, Repr

/-- Why a step has no meaning. -/
inductive Refusal where
  /-- an instruction with no meaning in this model; raised by `exec` alone, safe -/
  | notModelled (mnemonic : String)
  deriving DecidableEq, Repr

end Sys2Proof.Machine
end

