-- ==== Sys2Proof/Machine/Base.lean ====
section
/-! DEFINITION. Named reads and writes of the state: gangs, slices and parts, lane activity and predicates (R20 to R26),
the register files with their hard-wired members (R22, R23), and the free values. -/

namespace Sys2Proof.Machine

/-! ## Units by key -/

def State.gangAt (s : State) (k : Nat) : Gang := KMap.get {} s.gangs k
def State.setGangAt (s : State) (k : Nat) (g : Gang) : State := { s with gangs := KMap.set {} s.gangs k g }
def State.teamAt (s : State) (k : Nat) : Team := KMap.get {} s.teams k
def State.setTeamAt (s : State) (k : Nat) (t : Team) : State := { s with teams := KMap.set {} s.teams k t }
def State.cohortAt (s : State) (k : Nat) : Cohort := KMap.get {} s.cohorts k
def State.setCohortAt (s : State) (k : Nat) (c : Cohort) : State := { s with cohorts := KMap.set {} s.cohorts k c }
def State.queueAt (s : State) (k : Nat) : Queue := KMap.get {} s.queues k
def State.setQueueAt (s : State) (k : Nat) (q : Queue) : State := { s with queues := KMap.set {} s.queues k q }
def State.mxAt (s : State) (k : Nat) : Mx := KMap.get {} s.mx k
def State.setMxAt (s : State) (k : Nat) (m : Mx) : State := { s with mx := KMap.set {} s.mx k m }
def State.dieAt (s : State) (k : Nat) : Die := KMap.get {} s.dies k
def State.setDieAt (s : State) (k : Nat) (d : Die) : State := { s with dies := KMap.set {} s.dies k d }

def State.coreAt (s : State) (k : Nat) : Core := KMap.get {} s.cores k
def State.setCoreAt (s : State) (k : Nat) (c : Core) : State := { s with cores := KMap.set {} s.cores k c }

/-- Every core that has an entry takes a new one. -/
def State.mapCores (s : State) (f : Nat → Core → Core) : State :=
  (s.cores.map (·.1)).foldl (fun s k => s.setCoreAt k (f k (s.coreAt k))) s

/-- The issuing gang, and its replacement. -/
def State.gang (s : State) : Gang := s.gangAt s.gk
def State.setGang (s : State) (g : Gang) : State := s.setGangAt s.gk g

/-- The issuing gang's team, cohort, queue and launch. -/
def State.team (s : State) : Team := s.teamAt s.gang.team
def State.setTeam (s : State) (t : Team) : State := s.setTeamAt s.gang.team t
def State.cohort (s : State) : Cohort := s.cohortAt s.team.cohort
def State.queue (s : State) : Queue := s.queueAt s.cohort.queue
def State.launch (s : State) : Launch := s.queue.launch

/-- The queue and the launch of a team. -/
def State.queueOf (s : State) (team : Nat) : Queue := s.queueAt (s.cohortAt (s.teamAt team).cohort).queue
def State.launchOf (s : State) (team : Nat) : Launch := (s.queueOf team).launch

/-- The die and the cluster of a core (R1). -/
def dieOf (core : Nat) : Nat := core / 96
def clusterOf (core : Nat) : Nat := core / 8

/-- The die and the cluster a gang stands on. -/
def State.dieOfGang (s : State) (k : Nat) : Nat := dieOf (s.teamAt (s.gangAt k).team).core
def State.clusterOfGang (s : State) (k : Nat) : Nat := clusterOf (s.teamAt (s.gangAt k).team).core
def State.die (s : State) : Nat := s.dieOfGang s.gk

/-- Events owed, put at the end. -/
def State.owe (s : State) (l : List Instr) : State := { s with due := s.due ++ l }

/-- A name for a new operation. -/
def State.newId (s : State) : Nat × State := (s.nextId, { s with nextId := s.nextId + 1 })

/-- A free 64-bit value (log entry 5, DESIGN CHOICE). -/
def State.freeVal (s : State) : DWord × State := (Config.freeValue s.fresh, { s with fresh := s.fresh + 1 })

/-- A free choice below `n` (log entry 5, DESIGN CHOICE). -/
def State.freePick (s : State) (n : Nat) : Nat × State :=
  (Config.freeChoice s.fresh % n, { s with fresh := s.fresh + 1 })

/-! ## Slices and parts (R19, R31) -/

def Gang.sliceAt (g : Gang) (n : Nat) : Slice := KMap.get {} g.slices n

/-- All lanes of a gang. -/
def lanes : List Nat := List.range 32

/-- The lane's slice is present (R20). -/
def Gang.present (g : Gang) (l : Nat) : Bool := (g.sliceAt (l / 4)).present

/-- The lane has executed EXIT (R26). -/
def Gang.exitedAt (g : Gang) (l : Nat) : Bool := g.exited.getLsbD l

/-- The nesting counter of a lane. -/
def Gang.cntAt (g : Gang) (l : Nat) : BitVec 6 := KMap.get 0#6 g.cnt l

/-- A present slice with a lane that has not exited (R103). -/
def Gang.liveSlice (g : Gang) (n : Nat) : Bool :=
  (g.sliceAt n).present && (List.range 4).any fun i => !g.exitedAt (4 * n + i)

/-- The live slices of a part, lowest first. -/
def Gang.partSlices (g : Gang) (p : Nat) : List Nat :=
  (List.range 8).filter fun n => g.liveSlice n && (g.sliceAt n).part == p

/-- The live slices of a gang. -/
def Gang.liveSlices (g : Gang) : List Nat := (List.range 8).filter g.liveSlice

/-- The parts of a gang that hold a live slice, by their lowest slice. -/
def Gang.parts (g : Gang) : List Nat :=
  (List.range 8).filter fun p => !(g.partSlices p).isEmpty

/-- The gang is one part (R31, R106). -/
def Gang.whole (g : Gang) : Bool := g.parts.length ≤ 1

/-- PC and call depth of a part: those of its lowest live slice. -/
def Gang.pcOf (g : Gang) (p : Nat) : IAddr :=
  match g.partSlices p with
  | n :: _ => (g.sliceAt n).pc
  | [] => 0#18

def Gang.depthOf (g : Gang) (p : Nat) : BitVec 8 :=
  match g.partSlices p with
  | n :: _ => (g.sliceAt n).depth
  | [] => 0#8

/-- The present, non-exited lanes of a part: P of R97. -/
def Gang.partLane (g : Gang) (p l : Nat) : Bool :=
  g.present l && (g.sliceAt (l / 4)).part == p && !g.exitedAt l

/-- The lane is active while part `p` issues (R26). -/
def Gang.active (g : Gang) (p l : Nat) : Bool := g.partLane p l && g.cntAt l == 0#6

def Gang.anyActive (g : Gang) (p : Nat) : Bool := lanes.any (g.active p)

/-- The lanes that satisfy a test, as a mask. -/
def maskOf (t : Nat → Bool) : Word :=
  lanes.foldl (fun m l => if t l then m ||| (1#32 <<< l) else m) 0#32

/-- The lowest lane that satisfies a test. -/
def lowest (t : Nat → Bool) : Option Nat := lanes.find? t

/-- TLANES where a trap's own rule names none (R117): the active lanes of the part, else its non-exited lanes. -/
def Gang.trapLanes (g : Gang) (p : Nat) : Word :=
  if g.anyActive p then maskOf (g.active p) else maskOf (g.partLane p)

/-- A change of every slice named. -/
def Gang.onSlices (g : Gang) (l : List Nat) (f : Slice → Slice) : Gang :=
  { g with slices := l.foldl (fun m n => KMap.set {} m n (f (KMap.get {} m n))) g.slices }

/-- The slices named stand at `pc`. -/
def Gang.setPc (g : Gang) (l : List Nat) (pc : IAddr) : Gang :=
  g.onSlices l fun x => { x with pc := pc, atRegang := false, atBar := false }

/-- Slices leave their part: each group of slices is named by its lowest member (R31). -/
def Gang.setPart (g : Gang) (l : List Nat) : Gang :=
  match l with
  | [] => g
  | n :: _ => g.onSlices l fun x => { x with part := n }

/-! ## Bypass marks (R27, R28) -/

/-- The bits of one slice in the bypass marks. -/
def sliceMarks (n : Nat) : BitVec 24 := 7#24 <<< (3 * n)

/-- Positions of the slices named become empty. -/
def Gang.emptyBypass (g : Gang) (l : List Nat) : Gang :=
  { g with bypFull := l.foldl (fun m n => m &&& ~~~sliceMarks n) g.bypFull }

/-- Position p, 1 to 3, of a slice is full. -/
def Gang.bypFullAt (g : Gang) (n p : Nat) : Bool := g.bypFull.getLsbD (3 * n + p - 1)

/-! ## Register files (R22, R23) -/

/-- Predicate k[n] of a lane; k7 reads true (R22). -/
def Gang.kAt (g : Gang) (n l : Nat) : Bool := if n < 7 then (KMap.get 0#32 g.r.k n).getLsbD l else true

/-- A register is written: the first time in a run-ahead takes an undo entry (R38, R107). -/
def Regs.mark (r : Regs) (key : Nat) : Regs :=
  { r with undo := r.undo.map fun l => if l.contains key then l else key :: l }

/-- A write to k7 is discarded (R23). -/
def Gang.setK (g : Gang) (n l : Nat) (b : Bool) : Gang :=
  if n < 7 then
    let old := KMap.get 0#32 g.r.k n
    let m := if b then old ||| (1#32 <<< l) else old &&& ~~~(1#32 <<< l)
    { g with r := { g.r with k := KMap.set 0#32 g.r.k n m }.mark (424 + n) }
  else g

/-- Predicate gp[n]; gp7 reads true (R22). -/
def Gang.gpAt (g : Gang) (n : Nat) : Bool := if n < 7 then g.r.gp.getLsbD n else true

/-- A write to gp7 is discarded (R23). -/
def Gang.setGp (g : Gang) (n : Nat) (b : Bool) : Gang :=
  if n < 7 then
    { g with r := { g.r with gp := if b then g.r.gp ||| (1#8 <<< n) else g.r.gp &&& ~~~(1#8 <<< n) }.mark (432 + n) }
  else g

/-- Group register field: g0 to g31; 63 reads zero (R73). -/
def Gang.gAt (g : Gang) (n : Nat) : DWord := if n < 32 then KMap.get 0#64 g.r.g n else 0#64

/-- A write to field 63 is discarded (R23). -/
def Gang.setG (g : Gang) (n : Nat) (x : DWord) : Gang :=
  if n < 32 then { g with r := { g.r with g := KMap.set 0#64 g.r.g n x }.mark (384 + n) } else g

def Gang.adAt (g : Gang) (n : Nat) : VAddr := KMap.get 0#72 g.r.ad n

def Gang.setAd (g : Gang) (n : Nat) (x : VAddr) : Gang :=
  { g with r := { g.r with ad := KMap.set 0#72 g.r.ad n x }.mark (416 + n) }

/-- Lane register vN of lane l. -/
def Gang.vAt (g : Gang) (n l : Nat) : Word := KMap.get 0#32 g.r.v (32 * n + l)

/-- Only v0 to v47 exist; a write to the zero field is discarded (R23). -/
def Gang.setV (g : Gang) (n l : Nat) (x : Word) : Gang :=
  if n < 48 then { g with r := { g.r with v := KMap.set 0#32 g.r.v (32 * n + l) x }.mark (8 * n + l / 4) } else g

/-- A pair: vN holds bits [31:0], vN+1 bits [63:32] (R23). -/
def Gang.setV2 (g : Gang) (n l : Nat) (x : DWord) : Gang :=
  if n < 48 then (g.setV n l (x.truncate 32)).setV (n + 1) l ((x >>> 32).truncate 32) else g

def Gang.tdAt (g : Gang) (n : Nat) : TileDesc := KMap.get 0#256 g.td n

/-- Flags are ORed into MSTAT (R57). -/
def Gang.orMstat (g : Gang) (f : DWord) : Gang := { g with r := { g.r with mstat := g.r.mstat ||| f } }

def Gang.srstateAt (g : Gang) (l : Nat) : Word := KMap.get 0#32 g.r.srstate l

def Gang.setSrstate (g : Gang) (l : Nat) (x : Word) : Gang :=
  { g with r := { g.r with srstate := KMap.set 0#32 g.r.srstate l x } }

/-- cond of R26 for a lane. -/
def Gang.cond (g : Gang) (h : Header) (l : Nat) : Bool := g.kAt h.pi.toNat l != h.pn

/-- The lane form has an effect in this lane (R26). -/
def Gang.eff (g : Gang) (p : Nat) (h : Header) (l : Nat) : Bool := g.active p l && g.cond h l

/-- The lanes in which a lane form has an effect, ascending. -/
def Gang.effLanes (g : Gang) (p : Nat) (h : Header) : List Nat := lanes.filter (g.eff p h)

/-- gp[PI] XOR PN. -/
def Gang.gcond (g : Gang) (h : Header) : Bool := g.gpAt h.pi.toNat != h.pn

/-- The group form has an effect (R26). -/
def Gang.geff (g : Gang) (p : Nat) (h : Header) : Bool := g.anyActive p && g.gcond h

end Sys2Proof.Machine
end

