-- ==== Sys2Proof/Machine/Memory.lean ====
section
/-! DEFINITION. Memory: byte order (R9), causal delivery between dies (R224), release tags (R226, R227), translation
(R331 to R341), swing buffers (R162, R314), and the scratchpads (R236). -/

namespace Sys2Proof.Machine

/-! ## Byte order: little-endian (R9) -/

/-- The low `n` bytes of a number, lowest first. -/
def leBytes (n x : Nat) : List Byte := (List.range n).map fun i => BitVec.ofNat 8 (x >>> (8 * i))

/-- The number whose bytes, lowest first, are given. -/
def leNat : List Byte → Nat
  | [] => 0
  | b :: r => b.toNat + 256 * leNat r

/-- Bits [lo + n - 1 : lo] of a number. -/
def bitsOf (x lo n : Nat) : Nat := (x >>> lo) % 2 ^ n

/-! ## Bytes of global memory (R223, R224) -/

/-- What a byte of memory that nothing has written reads as (log entry 1, DESIGN CHOICE). -/
def unwritten : Byte := 0#8

/-- Memory is in its canonical form: addresses rise strictly, and no byte is listed that reads as an unlisted one. -/
def State.memWf (s : State) : Bool := KMap.wf unwritten s.mem

/-- The byte a store gives to an address, if it gives one. -/
def byteIn (l : List (Nat × Byte)) (a : Nat) : Option Byte :=
  (l.reverse.find? fun p => p.1 == a).map (·.2)

/-- The newest byte in coherence order among the stores that satisfy a test (R223). -/
def State.byteIf (s : State) (t : StoreEnt → Bool) (pa : Nat) : Byte :=
  s.log.foldl (fun b e => if t e then (byteIn e.bytes pa).getD b else b) (KMap.get unwritten s.mem pa)

/-- The byte that loads of die `d` see. -/
def State.byteAt (s : State) (d pa : Nat) : Byte := s.byteIf (fun e => e.seen.getLsbD d) pa

/-- The newest byte at its home. -/
def State.byteHome (s : State) (pa : Nat) : Byte := s.byteIf (fun _ => true) pa

/-- A little-endian number at its home. -/
def State.homeNat (s : State) (pa n : Nat) : Nat := leNat ((List.range n).map fun i => s.byteHome (pa + i))

/-- The releases that are the newest byte, in coherence order, among the stores that satisfy a test (R226, R227). -/
def State.tagsIf (s : State) (t : StoreEnt → Bool) (pa : Nat) : List Tag :=
  s.log.foldl (fun l e => if t e && (byteIn e.bytes pa).isSome then e.tags else l) (KMap.get [] s.tags pa)

/-- The releases of the bytes that a load of die `d` returns, and of the newest ones at their home. -/
def State.tagsSeen (s : State) (d : Nat) (pas : List Nat) : List Tag :=
  (pas.flatMap fun a => s.tagsIf (fun e => e.seen.getLsbD d) a).eraseDups
def State.tagsHome (s : State) (pas : List Nat) : List Tag := (pas.flatMap fun a => s.tagsIf (fun _ => true) a).eraseDups

/-- Stores at the head of the log that every die sees become memory. -/
def foldLog (m : KMap Byte) : List StoreEnt → KMap Byte × List StoreEnt
  | [] => (m, [])
  | e :: r => if e.seen == 15#4 then foldLog (KMap.setAll unwritten m e.bytes) r else (m, e :: r)

/-- Their releases go with them. -/
def foldTags (m : KMap (List Tag)) : List StoreEnt → KMap (List Tag)
  | [] => m
  | e :: r =>
    if e.seen == 15#4 then foldTags (if e.tags.isEmpty && m.isEmpty then m else e.bytes.foldl (fun m b => KMap.set [] m b.1 e.tags) m) r
    else m

def State.fold (s : State) : State :=
  let p := foldLog s.mem s.log
  { s with mem := p.1, log := p.2, tags := foldTags s.tags s.log }

/-- The vector clock of a die (R224). -/
def State.clockOf (s : State) (d : Nat) : List Nat := KMap.get [0, 0, 0, 0] s.vclock d

def State.setClock (s : State) (d : Nat) (c : List Nat) : State :=
  { s with vclock := KMap.set [0, 0, 0, 0] s.vclock d c }

/-- The store is one that a carried clock names. -/
def StoreEnt.namedBy (e : StoreEnt) (c : List Nat) : Bool := e.seq ≤ c.getD e.die 0

/-- A store's own clock: the clock it carries with its own die's entry advanced for it. -/
def StoreEnt.own (e : StoreEnt) : List Nat := (List.range 4).map fun i => if i = e.die then e.seq else e.clk.getD i 0

/-- A load of die `d` that returned bytes at these addresses merges the clocks of the stores it returned (R224). -/
def State.noteRead (s : State) (d : Nat) (pas : List Nat) : State :=
  let c := s.log.foldl (fun c e =>
    if e.seen.getLsbD d && pas.any (fun a => (byteIn e.bytes a).isSome) then
      (List.range 4).map fun i => max (c.getD i 0) (e.own.getD i 0)
    else c) (s.clockOf d)
  if s.log.isEmpty then s else s.setClock d c

/-- A store is visible to die `d` once every store its clock names is (R224). -/
def State.deliverable (s : State) (d : Nat) (e : StoreEnt) : Bool :=
  s.log.all fun x => !x.namedBy e.clk || x.seen.getLsbD d

/-- The address lies behind a CXL port whose link is down (R376, R377). -/
def State.portDown (s : State) (pa : Nat) : Bool := (pa >>> 55) % 2 == 1 && (s.dieAt ((pa >>> 56) % 4)).cxlDown

/-- The bytes of a write that are not discarded: those to a port whose link is down are (R377). -/
def State.kept (s : State) (bytes : List (Nat × Byte)) : List (Nat × Byte) := bytes.filter fun b => !s.portDown b.1

/-- A store of die `d` enters the coherence order and becomes visible on its own die; the other dies see it by
CAUSAL_DELIVERY (R224). The result names it. -/
def State.store (s : State) (d : Nat) (bytes : List (Nat × Byte)) (tags : List Tag) : Nat × State :=
  let bytes := s.kept bytes
  let c := s.clockOf d
  let q := c.getD d 0 + 1
  let e : StoreEnt :=
    { id := s.nextId, die := d, seq := q, clk := c, bytes := bytes, tags := tags, seen := 1#4 <<< d }
  let s := { s with log := s.log ++ [e], nextId := s.nextId + 1 }
  let s := s.setClock d ((List.range 4).map fun i => if i = d then q else c.getD i 0)
  (e.id, s.owe (((List.range 4).filter (· ≠ d)).map fun x => Instr.causalDelivery x e.id))

/-- Every store a clock names becomes visible on every die. -/
def State.force (s : State) (c : List Nat) : State :=
  { s with log := s.log.map fun (e : StoreEnt) => if e.namedBy c then { e with seen := 15#4 } else e }.fold

/-- A write performed at its home in one instant, at every scope (R221): an atomic, or a device's own write. What its
issuer has observed is visible everywhere first. -/
def State.writeNow (s : State) (d : Nat) (bytes : List (Nat × Byte)) (tags : List Tag) : State :=
  let bytes := s.kept bytes
  let c := s.clockOf d
  let q := c.getD d 0 + 1
  let s := s.force c
  let e : StoreEnt := { id := s.nextId, die := d, seq := q, clk := c, bytes := bytes, tags := tags, seen := 15#4 }
  let s := { s with log := s.log ++ [e], nextId := s.nextId + 1 }
  (s.setClock d ((List.range 4).map fun i => if i = d then q else c.getD i 0)).fold

/-- A number written at its home by the device itself, n bytes. -/
def State.writeNat (s : State) (pa n x : Nat) : State :=
  s.writeNow ((pa >>> 56) % 4) ((List.range n).map fun i => (pa + i, BitVec.ofNat 8 (x >>> (8 * i)))) []

/-! ## Homes (R246, R332) -/

/-- The die that is home to a physical address. -/
def homeDie (pa : Nat) : Nat := (pa >>> 56) % 4

/-- The slice and the set of the home die's L2 that a line belongs to (R246). -/
def l2Slice (pa : Nat) : Nat :=
  [7, 13, 19, 25, 31, 37, 43, 49].foldl (fun x lo => x ^^^ (pa >>> lo) % 64) ((pa >>> 55) % 8)
def l2Set (pa : Nat) : Nat := (pa >>> 13) % 2 ^ 11

/-! ## Translation (R331 to R341) -/

/-- What an access is translated with: the context block of its queue, the registers of its team, and the die whose
TLBs serve it. Without a bound queue (a firmware program) addresses are physical (log entry 20, DESIGN CHOICE). -/
structure Xl where
  bound  : Bool := false
  ctx    : Ctx := {}
  hbase  : Nat := 0
  hlimit : Nat := 0
  hoffs  : Nat := 0
  wmax   : Nat := 255
  die    : Nat := 0
  swings : List Swing := []
  /-- queue key; the launch, as context × 2^64 + record address -/
  queue  : Nat := 0
  launch : Nat := 0
  /-- the window that near pointers are taken in, times 2^64 (R331) -/
  win    : Nat := 0
  deriving DecidableEq, Repr

/-- The name of a queue's launch: context × 2^64 + record address. -/
def Queue.key (q : Queue) : Nat := q.ctx.ctxn * 2 ^ 64 + q.lrec

/-- The die of a queue; a parked one keeps the die it was mapped on. -/
def queueDie (k : Nat) : Nat := k / 64 % 4

/-- The environment of a team (R333). -/
def State.xlOf (s : State) (team : Nat) : Xl :=
  let t := s.teamAt team
  let q := s.queueOf team
  { bound := q.bound || q.parked, ctx := q.ctx, hbase := t.hbase.toNat, hlimit := t.hlimit.toNat, hoffs := t.hoffs.toNat,
    wmax := t.wmax.toNat, die := dieOf t.core, swings := q.swings, queue := (s.cohortAt t.cohort).queue,
    launch := q.key }

/-- The environment of a queue itself, for the dispatcher, the compactor and the rings: window 0, no heap window of a
team. -/
def State.xlQueue (s : State) (k : Nat) : Xl :=
  let q := s.queueAt k
  { bound := q.bound || q.parked, ctx := q.ctx, hbase := q.launch.hbase.toNat, hlimit := q.launch.hlimit.toNat,
    hoffs := q.launch.hoffs.toNat, wmax := q.ctx.wmax, die := queueDie k, swings := q.swings, queue := k,
    launch := q.key }

/-- What an address translates to. -/
inductive Trans where
  /-- physical address and leaf -/
  | page (pa : Nat) (leaf : DWord)
  /-- mapped, not resident (R337: V = 0, ABS = 1) -/
  | absent
  /-- unmapped, malformed or above WMAX -/
  | unmapped
  /-- a window entry: module and context (R338) -/
  | far (modn rctx : Nat) (leaf : DWord)
  deriving DecidableEq, Repr

/-- Fields of a table entry (R337). -/
def entV (e : DWord) : Bool := e.getLsbD 0
def entLeaf (e : DWord) : Bool := e.getLsbD 1
def entR (e : DWord) : Bool := e.getLsbD 2
def entW (e : DWord) : Bool := e.getLsbD 3
def entX (e : DWord) : Bool := e.getLsbD 4
def entOi (e : DWord) : Bool := e.getLsbD 5
def entPol (e : DWord) : Nat := bitsOf e.toNat 7 2
def entPart (e : DWord) : Nat := bitsOf e.toNat 9 3
def entPa (e : DWord) : Nat := bitsOf e.toNat 17 41 * 131072

/-- Installed bytes behind a physical address: R2's 256 GB of HBM4E per die, 3,072 GB of CXL memory (log entry 21, DEDUCED). -/
def populated (pa : Nat) : Bool :=
  if (pa >>> 55) % 2 = 0 then pa % 2 ^ 55 < 256000000000 else pa % 2 ^ 55 < 3072000000000

/-- Reserved bits of every valid entry: [16:12] and [63:58] (R337). -/
def entReserved (e : DWord) : Bool := bitsOf e.toNat 12 5 == 0 && bitsOf e.toNat 58 6 == 0

/-- A table entry's bits [11:2] are 0, and its table stands in memory that is there (R337). -/
def tableOk (e : DWord) : Bool := entReserved e && bitsOf e.toNat 2 10 == 0 && populated (entPa e + 131071)

/-- A leaf is well formed: reserved bits, and a frame aligned to its page of 2 ^ bits bytes (R337). -/
def leafOk (e : DWord) (bits : Nat) : Bool := entReserved e && entPa e % 2 ^ bits == 0

/-- V = 0: absent or unmapped by ABS (R337). -/
def absOf (e : DWord) : Trans := if bitsOf e.toNat 1 2 = 1 then .absent else .unmapped

/-- The entry numbered `i` of the table at `t` (R336). -/
def State.entry (s : State) (t i : Nat) : DWord := BitVec.ofNat 64 (s.homeNat (t + 8 * i) 8)

/-- A leaf as a translation; all the memory it maps must be populated (R337). -/
def leafTrans (e : DWord) (bits va : Nat) : Trans × Option (Nat × DWord) :=
  if leafOk e bits && populated (entPa e + 2 ^ bits - 1) then (.page (entPa e + va % 2 ^ bits) e, some (bits, e)) else (.unmapped, none)

/-- The levels below the top table: e is the entry read at the level above (R336). The result also names the leaf to
cache. `l` lists (low bit of the index, index bits, page bits of a leaf e at this level or 0). -/
def State.walk (s : State) (va : Nat) (e : DWord) : List (Nat × Nat × Nat) → Trans × Option (Nat × DWord)
  | [] => if !entV e then (absOf e, none) else if entLeaf e then leafTrans e 17 va else (.unmapped, none)
  | (lo, n, bits) :: r =>
    if !entV e then (absOf e, none)
    else if entLeaf e then (if bits = 0 then (.unmapped, none) else leafTrans e bits va)
    else if tableOk e then s.walk va (s.entry (entPa e) (bitsOf va lo n)) r
    else (.unmapped, none)

/-- The levels below the top table, as State.walk takes them. -/
def walkLevels : List (Nat × Nat × Nat) := [(45, 14, 0), (31, 14, 45), (17, 14, 31)]

/-- The valid table entries that a walk passes, each with log2 of the bytes it covers: what the walk cache may keep (R340). -/
def State.passedTables (s : State) (va : Nat) (bits : Nat) (e : DWord) : List (Nat × Nat × Nat) → List (Nat × DWord)
  | [] => []
  | (lo, n, _) :: r =>
    if entV e && !entLeaf e && tableOk e then (bits, e) :: s.passedTables va lo (s.entry (entPa e) (bitsOf va lo n)) r else []

/-- The page-table walk (R336, R338). -/
def State.walkTop (s : State) (root va : Nat) : Trans × Option (Nat × DWord) :=
  let w := bitsOf va 64 8
  if w ≠ 0 then
    let e := s.entry root (32 * w)
    if entV e && entLeaf e && !entX e then
      (.far (bitsOf e.toNat 16 9) (bitsOf e.toNat 32 16) e, none)
    else (.unmapped, none)
  else s.walk va (s.entry root (bitsOf va 59 13)) walkLevels

/-- The table entries of window 0 that a walk from the top passes. -/
def State.tablesOf (s : State) (root va : Nat) : List (Nat × DWord) :=
  if bitsOf va 64 8 = 0 then s.passedTables va 59 (s.entry root (bitsOf va 59 13)) walkLevels else []

/-- The heap window holds the address (R334). -/
def Xl.inHeap (x : Xl) (va : Nat) : Bool :=
  va < 2 ^ 64 && x.hlimit != 0 && x.hbase ≤ va && va < min (x.hbase + x.hlimit) (2 ^ 64)

/-- The leaf that the heap window stands for: R and W, no X, HPOL, HPART (R334). -/
def Xl.heapLeaf (x : Xl) : DWord := BitVec.ofNat 64 (0xF + x.ctx.hpol % 4 * 128 + x.ctx.hpart % 8 * 512)

/-- The memory behind a physical address is in service: its stack or its port was trained, and no frame of it has been
retired (R394, R402). -/
def State.inService (s : State) (pa : Nat) : Bool :=
  let d := s.dieAt ((pa >>> 56) % 4)
  !s.badFrames.contains (pa / 131072) &&
    (if (pa >>> 55) % 2 = 0 then d.hbmok.getLsbD (pa % 2 ^ 55 / 64000000000) else d.cxlok)

/-- A translation to memory that is not in service maps nothing. -/
def State.serviced (s : State) (r : Trans × Option TlbEnt) : Trans × Option TlbEnt :=
  match r with
  | (.page pa leaf, e) => if s.inService pa then (.page pa leaf, e) else (.unmapped, none)
  | r => r

/-- An entry of the TLB or of the walk cache that covers an address. -/
def TlbEnt.covers (t : TlbEnt) (ctxn va : Nat) : Bool := t.ctxn == ctxn && t.base == va / 2 ^ t.bits * 2 ^ t.bits

/-- A walk from the deepest table entry of the walk cache that covers the address, or from the top (R336, R340). -/
def State.cachedWalk (s : State) (x : Xl) (va : Nat) : Trans × Option (Nat × DWord) :=
  let held := fun (bits : Nat) => (s.dieAt x.die).tlb.find? fun t => t.bits == bits && !entLeaf t.leaf && t.covers x.ctx.ctxn va
  match held 31, held 45, held 59 with
  | some t, _, _ => s.walk va t.leaf (walkLevels.drop 2)
  | none, some t, _ => s.walk va t.leaf (walkLevels.drop 1)
  | none, none, some t => s.walk va t.leaf walkLevels
  | none, none, none => s.walkTop x.ctx.root va

/-- Translation of one address, with the leaf to cache when it was walked (R334, R336, R340). -/
def State.lookupRaw (s : State) (x : Xl) (va : Nat) : Trans × Option TlbEnt :=
  if !x.bound then (if va < 2 ^ 58 && populated va then .page va 0x1F#64 else .unmapped, none)
  else if x.inHeap va then
    let o := va - x.hbase + x.hoffs
    (if x.ctx.hpsz ≤ o then .unmapped else .page (x.ctx.hpb + o) x.heapLeaf, none)
  else if x.wmax < bitsOf va 64 8 then (.unmapped, none)
  else
    match (s.dieAt x.die).tlb.find? fun t => entLeaf t.leaf && t.covers x.ctx.ctxn va with
    | some t => ((leafTrans t.leaf t.bits va).1, none)
    | none =>
      match s.cachedWalk x va with
      | (t, some (bits, e)) => (t, some { ctxn := x.ctx.ctxn, base := va / 2 ^ bits * 2 ^ bits, bits := bits, leaf := e })
      | (t, none) => (t, none)

/-- Translation of one address to memory in service. -/
def State.lookup (s : State) (x : Xl) (va : Nat) : Trans × Option TlbEnt := s.serviced (s.lookupRaw x va)

/-- The cached entries that cover an address and that the tables no longer hold. -/
def State.staleEnts (s : State) (x : Xl) (va : Nat) : List TlbEnt :=
  (s.dieAt x.die).tlb.filter fun t => t.covers x.ctx.ctxn va &&
    (if entLeaf t.leaf then (s.walkTop x.ctx.root va).2 != some (t.bits, t.leaf)
     else !(s.tablesOf x.ctx.root va).contains (t.bits, t.leaf))

/-- A cached entry that the tables no longer hold may have been replaced before its shoot-down: that is free (R340; log entry 65, DESIGN
CHOICE). -/
def State.ageTlb (s : State) (x : Xl) (va : Nat) : State :=
  (s.staleEnts x va).foldl (fun s t =>
    let p := s.freePick 2
    if p.1 = 0 then p.2
    else
      let d := p.2.dieAt x.die
      p.2.setDieAt x.die { d with tlb := d.tlb.filter (· != t) }) s

/-- A walk fills the TLB with its leaf, and the walk cache with the table entries it passes (R340). -/
def State.fillTlb (s : State) (x : Xl) (va : Nat) (e : TlbEnt) : State :=
  let d := s.dieAt x.die
  let up := (s.tablesOf x.ctx.root va).map fun t =>
    ({ ctxn := x.ctx.ctxn, base := va / 2 ^ t.1 * 2 ^ t.1, bits := t.1, leaf := t.2 } : TlbEnt)
  s.setDieAt x.die { d with tlb := e :: up.filter (fun t => !d.tlb.any fun o => !entLeaf o.leaf && o.bits == t.bits && o.base == t.base && o.ctxn == t.ctxn) ++ d.tlb }

/-- Translation that fills the TLB (R340). -/
def State.xlate (s : State) (x : Xl) (va : Nat) : Trans × State :=
  let s := s.ageTlb x va
  match s.lookup x va with
  | (t, some e) => (t, s.fillTlb x va e)
  | (t, none) => (t, s)

/-- A read by the dispatcher or another engine in window 0, at the homes of the bytes; none where a byte is not mapped,
resident and readable. -/
def State.vaBytes (s : State) (x : Xl) (va n : Nat) : Option (List Byte) :=
  (List.range n).mapM fun i =>
    match (s.lookup x (va + i)).1 with
    | .page pa leaf => if entR leaf then some (s.byteHome pa) else none
    | _ => none

def State.vaNat (s : State) (x : Xl) (va n : Nat) : Option Nat := (s.vaBytes x va n).map leNat

/-- A write by the dispatcher or another engine in window 0; bytes that are not mapped are lost. -/
def State.vaWrite (s : State) (x : Xl) (va n v : Nat) : State :=
  let bytes := (List.range n).filterMap fun i =>
    match (s.lookup x (va + i)).1 with
    | .page pa _ => some (pa, BitVec.ofNat 8 (v >>> (8 * i)))
    | _ => none
  s.writeNow x.die bytes []

/-- A write by an engine that is a release at scope `scp`, made at the home of the bytes (R268, R270). -/
def State.vaRelease (s : State) (x : Xl) (scp va n v : Nat) : State :=
  let bytes := (List.range n).filterMap fun i =>
    match (s.lookup x (va + i)).1 with
    | .page pa _ => some (pa, BitVec.ofNat 8 (v >>> (8 * i)))
    | _ => none
  let d := homeDie ((bytes.head?.map (·.1)).getD 0)
  let who := 2 ^ 66 + d
  s.writeNow x.die bytes [{ modn := s.modn, scp := scp, gang := who, team := who, cohort := who, die := d }]

/-! ## Swing buffers (R162, R314) -/

/-- The registered buffer whose published range holds the address. -/
def Xl.swingOf (x : Xl) (va : Nat) : Option Swing :=
  x.swings.find? fun b => b.base ≤ va && va < b.base + 4096 * b.nblk

/-- The address stands in some buffer's second area or selector bitmap. -/
def Xl.hidden (x : Xl) (va : Nat) : Bool :=
  x.swings.any fun b => (b.alt ≤ va && va < b.alt + 4096 * b.nblk) || (b.sel ≤ va && va < b.sel + (b.nblk + 7) / 8)

/-- The address stands in a generation word. -/
def Xl.isGen (x : Xl) (va : Nat) : Bool := x.swings.any fun b => b.gen ≤ va && va < b.gen + 8

/-- SEL bit of a block: the published place is ALT (R314). -/
def State.selBit (s : State) (x : Xl) (b : Swing) (blk : Nat) : Bool :=
  match s.vaNat x (b.sel + blk / 8) 1 with
  | some v => v.testBit (blk % 8)
  | none => false

/-- The published place of an address (R314). -/
def State.published (s : State) (x : Xl) (va : Nat) : Nat :=
  match x.swingOf va with
  | some b => if s.selBit x b ((va - b.base) / 4096) then b.alt + (va - b.base) else va
  | none => va

/-- The sagger place of an address (R314). -/
def State.saggerPlace (s : State) (x : Xl) (b : Swing) (va : Nat) : Nat :=
  if s.selBit x b ((va - b.base) / 4096) then va else b.alt + (va - b.base)

/-! ## Places an access can name -/

/-- Where an access lands. -/
inductive Loc where
  /-- physical memory, with the leaf it was reached through -/
  | mem (pa : Nat) (leaf : DWord)
  /-- a team's scratchpad -/
  | spad (team off : Nat)
  /-- the gang's data stack (R242): offset, and the physical address behind it -/
  | stack (off pa : Nat)
  /-- memory of another module (R338) -/
  | far (modn rctx va : Nat)
  /-- the peer I/O space (R378) -/
  | peer (addr : Nat)
  deriving DecidableEq, Repr

/-- What R151 finds of one lane's access. -/
inductive Chk where
  | ok (loc : Loc)
  /-- check 1: scratchpad violation or stack limit -/
  | range
  /-- check 2: alignment -/
  | align
  /-- check 3: permission, unmapped, a store to read-only memory -/
  | perm
  /-- mapped, not resident -/
  | absent
  deriving DecidableEq, Repr

/-- The permission an access needs (R339). -/
structure Need where
  r : Bool := false
  w : Bool := false
  deriving DecidableEq, Repr

def Need.met (n : Need) (leaf : DWord) : Bool :=
  (!n.r || entR leaf) && (!n.w || (entW leaf && entPart leaf != 7))

/-- A program's access to one address of G (R151 check 3, R162, R248, R314, R338, R339). -/
def State.checkG (s : State) (x : Xl) (n : Need) (va : VAddr) : Chk × State :=
  let a := va.toNat
  if x.hidden a || (n.w && x.isGen a) then (.perm, s)
  else
    match s.xlate x (s.published x a) with
    | (.page pa leaf, s) => (if n.met leaf then .ok (.mem pa leaf) else .perm, s)
    | (.absent, s) => (.absent, s)
    | (.unmapped, s) => (.perm, s)
    | (.far m c leaf, s) =>
      (if (!n.r || entR leaf) && (!n.w || entW leaf) then .ok (.far m c (a % 2 ^ 64)) else .perm, s)

/-- The team of the cohort that a C address names (R150). -/
def State.teamByC (s : State) (cohort id : Nat) : Option Nat :=
  (s.cohortAt cohort).teams.find? fun t => (s.teamAt t).teamid == id

/-- The scratchpad place of an S or C access of `n` bytes by a gang; none where it leaves the allocation (R150, R237). -/
def State.spadLoc (s : State) (g : Gang) (sp : Nat) (n : Nat) (ea : VAddr) : Option (Nat × Nat) :=
  let a := ea.toNat
  if sp = 1 then
    if a + n ≤ (s.teamAt g.team).spsz then some (g.team, a) else none
  else if 2 ^ 24 ≤ a then none
  else
    match s.teamByC (s.teamAt g.team).cohort (a / 2 ^ 20) with
    | some t => if a % 2 ^ 20 + n ≤ (s.teamAt t).spsz then some (t, a % 2 ^ 20) else none
    | none => none

/-- One scratchpad byte. -/
def Team.spadAt (t : Team) (off : Nat) : Byte := KMap.get 0#8 t.spad off

def State.spadBytes (s : State) (team off n : Nat) : List Byte :=
  (List.range n).map fun i => (s.teamAt team).spadAt (off + i)

/-- Byte offset of the scratchpad image in a saved team's frame (R349, R353), and the frame. -/
def State.imageOf (s : State) (team : Nat) : Option Nat :=
  let t := s.teamAt team
  if t.status == .saved then
    let c := s.cohortAt t.cohort
    match c.teams.findIdx? (· == team) with
    | some i => match c.frames[i]? with
      | some f => some (f + s.homeNat (f + 68) 4)
      | none => none
    | none => none
  else none

/-- Bytes written into a scratchpad; a saved team's image at its frame's home changes with it (R353). -/
def State.spadWrite (s : State) (team off : Nat) (bytes : List Byte) (tags : List Tag) : State :=
  let t := s.teamAt team
  let ps := bytes.zipIdx.map fun p => (off + p.2, p.1)
  let s' := s.setTeamAt team { t with
    spad := KMap.setAll 0#8 t.spad ps,
    spadTag := if tags.isEmpty && t.spadTag.isEmpty then t.spadTag
      else ps.foldl (fun m p => KMap.set [] m p.1 tags) t.spadTag }
  match s.imageOf team with
  | some f => s'.writeNow (dieOf t.core) (ps.map fun p => (f + p.1, p.2)) []
  | none => s'

/-! ## Synchronisation tags (R222, R226, R227) -/

/-- The place of a gang as a release carries it. A lintel program is of its cohort, of no team (R222). -/
def State.tagOf (s : State) (gk scp : Nat) : Tag :=
  let g := s.gangAt gk
  { modn := s.modn, scp := scp, gang := gk, team := if g.kind == .lintel then 2 ^ 64 + gk else g.team,
    cohort := (s.teamAt g.team).cohort, die := s.dieOfGang gk }

/-- The smallest scope that holds both the releaser and the gang (R222), as an SCP code. -/
def State.between (s : State) (t : Tag) (gk : Nat) : Nat :=
  let o := s.tagOf gk 0
  if t.modn ≠ o.modn then 5
  else if t.gang = o.gang then 0
  else if t.team = o.team then 1
  else if t.cohort = o.cohort then 2
  else if t.die = o.die then 3
  else 4

/-- A release and an acquire include each other's agent (R226). -/
def State.includes (s : State) (t : Tag) (gk z : Nat) : Bool :=
  s.between t gk ≤ t.scp && s.between t gk ≤ z

/-- An acquire at scope `z` of values with these tags: MSCOPE is set where a pair does not include each other (R227). -/
def State.acquire (s : State) (gk z : Nat) (ts : List Tag) : State :=
  if ts.all fun t => s.includes t gk z then s
  else s.setGangAt gk ((s.gangAt gk).orMstat 0x100#64)

/-- The tag a store of the issuing gang carries: its own release, and that of an earlier release fence (R226). -/
def State.storeTag (s : State) (scp ord : Nat) : Option Tag :=
  let own := if ord = 2 || ord = 3 then some scp else none
  match own, s.gang.relScp with
  | none, none => none
  | some a, none => some (s.tagOf s.gk a)
  | none, some b => some (s.tagOf s.gk b)
  | some a, some b => some (s.tagOf s.gk (max a b))

/-- The releases that the bytes of a place are, as a load of die `d` returns them. -/
def State.tagsAt (s : State) (d : Nat) (l : Loc) (n : Nat) : List Tag :=
  match l with
  | .mem pa _ => s.tagsSeen d ((List.range n).map (pa + ·))
  | .spad t off => ((List.range n).flatMap fun i => KMap.get [] (s.teamAt t).spadTag (off + i)).eraseDups
  | _ => []

/-- The releases that an atomic reads at the place's home. -/
def State.tagsNow (s : State) (l : Loc) (n : Nat) : List Tag :=
  match l with
  | .mem pa _ => s.tagsHome ((List.range n).map (pa + ·))
  | l => s.tagsAt 0 l n

/-! ## Byte-counting barriers (R174) -/

/-- EXP, ARR, PHASE, PEND. -/
structure Bcb where
  exp   : Word
  arr   : Word
  phase : Word
  pend  : Word
  deriving DecidableEq, Repr

def State.bcb (s : State) (team off : Nat) : Bcb :=
  let w := fun i => BitVec.ofNat 32 (leNat (s.spadBytes team (off + 4 * i) 4))
  { exp := w 0, arr := w 1, phase := w 2, pend := w 3 }

/-- Settle (R174). -/
def Bcb.settle (b : Bcb) : Bcb :=
  if b.exp != 0#32 && b.exp.toNat ≤ b.arr.toNat then
    { b with arr := b.arr - b.exp, exp := 0#32, phase := b.phase + 1#32 }
  else b

def State.setBcb (s : State) (team off : Nat) (b : Bcb) (tags : List Tag) : State :=
  s.spadWrite team off (leBytes 4 b.exp.toNat ++ leBytes 4 b.arr.toNat ++ leBytes 4 b.phase.toNat ++ leBytes 4 b.pend.toNat)
    tags

/-- Bytes of an engine operation arrive: PEND loses them, ARR gains them, the phase settles (R170, R174). -/
def Bcb.arrive (b : Bcb) (n : Nat) : Bcb :=
  { b with arr := b.arr + BitVec.ofNat 32 n, pend := b.pend - BitVec.ofNat 32 n }.settle

/-- The barrier that a C address of the gang's cohort names. -/
def State.barAt (s : State) (gk : Nat) (a : VAddr) : Option (Nat × Nat) := s.spadLoc (s.gangAt gk) 2 16 a

def State.barArrive (s : State) (gk : Nat) (bar : Option VAddr) (n : Nat) : State :=
  match bar with
  | none => s
  | some a =>
    match s.barAt gk a with
    | some (t, off) => s.setBcb t off ((s.bcb t off).arrive n) []
    | none => s

/-- An issued engine operation adds its bytes to PEND (R174). -/
def State.barPend (s : State) (gk : Nat) (bar : Option VAddr) (n : Nat) : State :=
  match bar with
  | none => s
  | some a =>
    match s.barAt gk a with
    | some (t, off) =>
      let b := s.bcb t off
      s.setBcb t off { b with pend := b.pend + BitVec.ofNat 32 n } []
    | none => s

end Sys2Proof.Machine
end

