-- ==== Sys2Proof/Machine/Context.lean ====
section
/-! DEFINITION. What a cohort leaves and takes with it: the rings of the dispatcher (R268, R326, R343, R393), context
frames (R346 to R355), the save (R348), and the kill (R395). -/

namespace Sys2Proof.Machine

/-- A list with one element replaced. -/
def setNth {α : Type} (l : List α) (i : Nat) (a : α) : List α := l.set i a

/-- Module time in ns: one clock is 4/7 ns (R5, R216). -/
def State.time (s : State) : Nat := s.clock * 4 / 7

/-- `n` bytes that the spec does not state. -/
def State.freeBytes (s : State) : Nat → List Byte × State
  | 0 => ([], s)
  | n + 1 =>
    let p := s.freeVal
    let r := p.2.freeBytes n
    (p.1.setWidth 8 :: r.1, r.2)

/-! ## Rings with the header of R268 -/

/-- Physical addressing, for the structures whose address is physical (R335, R388). -/
def physXl (die : Nat) : Xl := { bound := false, die := die }

/-- One entry appended: none when the ring is full, malformed or not mapped. -/
def State.ringAppend (s : State) (x : Xl) (hdr bytes entry : Nat) : Option State := do
  let base ← s.vaNat x hdr 8
  let size ← s.vaNat x (hdr + 8) 1
  let wr ← s.vaNat x (hdr + 12) 4
  let rd ← s.vaNat x (hdr + 16) 4
  let sz := size % 32
  if base % 64 = 0 && (wr + 2 ^ 32 - rd) % 2 ^ 32 < 2 ^ sz then
    let s := s.vaWrite x (base + bytes * (wr % 2 ^ sz)) bytes entry
    some (s.vaRelease x 6 (hdr + 12) 4 (wr + 1))
  else none

/-- Address of the entry a ring takes next. -/
def State.ringNext (s : State) (x : Xl) (hdr bytes : Nat) : Nat :=
  let base := (s.vaNat x hdr 8).getD 0
  let size := (s.vaNat x (hdr + 8) 1).getD 0 % 32
  let wr := (s.vaNat x (hdr + 12) 4).getD 0
  base + bytes * (wr % 2 ^ size)

/-- A drop is counted, saturating, and OVF is set (R268, R270). -/
def State.ringDrop (s : State) (x : Xl) (hdr : Nat) : State :=
  let d := (s.vaNat x (hdr + 20) 4).getD 0
  (s.vaWrite x (hdr + 20) 4 (min (d + 1) 0xFFFFFFFF)).vaWrite x (hdr + 24) 1 1

/-- The event log of a die; a full ring loses its oldest entry, which is counted (R393). -/
def State.logEvent (s : State) (die kind unit ukind a b : Nat) : State :=
  let hdr := (s.dieAt die).elog
  if hdr = 0 then s
  else
    let x := physXl die
    let entry := s.time % 2 ^ 64 + kind % 16 * 2 ^ 64 + unit % 512 * 2 ^ 68 + ukind % 8 * 2 ^ 77 + a % 2 ^ 64 * 2 ^ 128 +
      b % 2 ^ 64 * 2 ^ 192
    match s.ringAppend x hdr 32 entry with
    | some s => s
    | none =>
      let wr := (s.vaNat x (hdr + 12) 4).getD 0
      let s := s.vaWrite x (s.ringNext x hdr 32) 32 entry
      (s.vaRelease x 6 (hdr + 12) 4 (wr + 1)).ringDrop x hdr

/-- An entry of the service ring (R326). -/
def svcEntry (code kind crec g0 g1 g2 g3 info : Nat) : Nat :=
  code % 4096 + kind % 16 * 2 ^ 12 + crec % 2 ^ 64 * 2 ^ 64 + g0 * 2 ^ 128 + g1 * 2 ^ 192 + g2 * 2 ^ 256 + g3 * 2 ^ 320 +
    info % 2 ^ 64 * 2 ^ 384

/-- Posting, or waiting for room; an entry of a service ring waits while its queue is not mapped (R326, R343). -/
def State.post (s : State) (p : Post) : State :=
  if (!p.fault && !(s.queueAt p.queue).bound) || s.posts.any fun o => o.queue == p.queue && o.fault == p.fault then { s with posts := s.posts ++ [p] }
  else
    let q := s.queueAt p.queue
    let x := if p.fault then physXl (queueDie p.queue) else s.xlQueue p.queue
    let hdr := if p.fault then q.ctx.frh else q.svring
    let bytes := if p.fault then 32 else 64
    let at_ := s.ringNext x hdr bytes
    match s.ringAppend x hdr bytes p.entry with
    | none => { s with posts := s.posts ++ [p] }
    | some s =>
      match p.cohort, p.gang, p.eng with
      | some c, _, _ =>
        let co := s.cohortAt c
        s.setCohortAt c { co with posted := co.posted ++ [{ entry := at_, va := p.va }] }
      | none, some k, _ =>
        let g := s.gangAt k
        let e := BitVec.ofNat 64 at_
        s.setGangAt k (if g.sysn = p.sysc then { g with svent := e }
          else { g with sysOld := g.sysOld.map fun o => if o.1 = p.sysc then (o.1, e) else o })
      | none, none, some id =>
        { s with engFaults := s.engFaults.map fun (f : EngFault) => if f.id = id then { f with entry := at_ } else f }
      | none, none, none => s

/-- Entries that waited are tried again, oldest first. -/
def State.retryPosts (s : State) : State :=
  s.posts.foldl (fun s p => s.post p) { s with posts := [] }

/-! ## Engine faults (R342, R343) -/

/-- An entry of the fault ring (R343). -/
def faultEntry (va : VAddr) (acc : Nat) (eng : Bool) (ctxn core crec : Nat) : Nat :=
  va.toNat + acc % 4 * 2 ^ 72 + (if eng then 1 else 0) * 2 ^ 74 + ctxn % 65536 * 2 ^ 80 + core % 512 * 2 ^ 96 + crec % 2 ^ 64 * 2 ^ 128

/-- An engine meets a page that is mapped and not resident: an entry with ENG = 1 is posted, and the event goes on when
it is answered (R342, R343). -/
def State.engineFault (s : State) (gk : Nat) (queue : Nat) (va : VAddr) (acc : Nat) (go : Instr) : State :=
  let q := s.queueAt queue
  let core := (s.teamAt (s.gangAt gk).team).core
  let e := faultEntry va acc true q.ctx.ctxn core (s.teamAt (s.gangAt gk).team).crec.toNat
  let f : EngFault :=
    { id := s.nextId, entry := 0, va := va, queue := queue, gang := gk, go := go }
  let s := { s with engFaults := s.engFaults ++ [f], nextId := s.nextId + 1 }
  s.post { fault := true, queue := queue, entry := e, eng := some f.id }

/-! ## Undoing (R38, R105, R112) -/

/-- A region is replayed: held stores go, what RGNB recorded comes back, with the return addresses of the call depths it recorded
(log entry 101, DEDUCED); the bypass empties (R105). -/
def Gang.replay (g : Gang) : Gang :=
  match g.rel with
  | none => g
  | some r =>
    { g with
      slices := r.slices, cnt := r.cnt, ret := r.ret, r := { g.r with mstat := r.mstat, srstate := r.srstate },
      bypFull := 0#24, rel := none, starved := false }

/-- The mismatch restore of R38 and R58: registers, counters and parts come back, the bypass empties; loads that the
run-ahead issued are dropped. -/
def Gang.rewind (g : Gang) : Gang :=
  match g.ahead with
  | none => g
  | some a =>
    { g with
      slices := a.slices, cnt := a.cnt, r := a.regs, ret := a.ret, bypFull := 0#24, ahead := none,
      loads := g.loads.filter (!·.ahead), starved := false }

/-- Values pushed into loop queues by a returned load: key 32 (48 + q) + lane (R30, R153). -/
def Gang.landQueues (g : Gang) (p : PendLoad) : Gang :=
  let qs := p.vals.filter fun x => 1536 ≤ x.1 && x.1 < 1792
  if qs.isEmpty then g
  else { g with queues := qs.foldl (fun m x => KMap.set [] m (x.1 - 1536) (KMap.get [] m (x.1 - 1536) ++ [x.2])) g.queues }

/-- The register writes of a returned load (R153, R166). -/
def Gang.landRegs (g : Gang) (p : PendLoad) : Gang :=
  let r := { g.r with
    v := KMap.setAll 0#32 g.r.v (p.vals.filter fun x => x.1 < 1536), g := KMap.setAll 0#64 g.r.g (p.gvals.filter fun x => x.1 < 32),
    mstat := g.r.mstat ||| p.flags }
  let r := if p.ahead then
      let vk := (p.vals.filter fun x => x.1 < 1536).map fun x => 8 * (x.1 / 32) + x.1 % 32 / 4
      let gk := (p.gvals.filter fun x => x.1 < 32).map fun x => 384 + x.1
      (vk ++ gk).foldl Regs.mark r
    else r
  let g' := { g with r := r, loads := g.loads.filter (·.id != p.id) }
  match g.ahead with
  | some a =>
    if p.ahead then g'
    else
      let ar := { a.regs with
        v := KMap.setAll 0#32 a.regs.v (p.vals.filter fun x => x.1 < 1536),
        g := KMap.setAll 0#64 a.regs.g (p.gvals.filter fun x => x.1 < 32), mstat := a.regs.mstat ||| p.flags }
      { g' with ahead := some { a with regs := ar } }
  | none => g'

/-- A returned operation of the ld counter. -/
def Gang.land (g : Gang) (p : PendLoad) : Gang :=
  if p.probe && !p.words.isEmpty then
    let word := fun (i : Nat) => (KMap.get 0#32 p.vals (2049 + 2 * i) ++ KMap.get 0#32 p.vals (2048 + 2 * i) : BitVec 64)
    { g with
      loads := g.loads.filter (·.id != p.id)
      far := p.words.zipIdx.foldl (fun m a => KMap.set none m a.1 (some (word a.2))) g.far }
  else if p.probe then
    { g with
      loads := g.loads.filter (·.id != p.id), probed := true,
      probe := KMap.setAll 0#32 [] (p.vals.map fun x => (x.1 - 2048, x.2)) }
  else (g.landQueues p).landRegs p

/-! ## The stack cache (R242, R244, R245) -/

/-- The window-0 address of a data-stack byte, and the number of the line that holds it. -/
def Gang.stackVa (g : Gang) (off : Nat) : Nat := g.region + 8192 + off
def Gang.stackLine (g : Gang) (off : Nat) : Nat := g.stackVa off / 128

/-- The data-stack offsets of a line. -/
def Gang.lineOffs (g : Gang) (line : Nat) : List Nat :=
  ((List.range 128).map fun i => 128 * line + i).filterMap fun a =>
    if g.stackVa 0 ≤ a && a < g.stackVa g.ssize then some (a - g.stackVa 0) else none

/-- The window-0 address of a return entry (R242). -/
def Gang.retVa (g : Gang) (key : Nat) : Nat := g.region + 1024 * (key / 256) + 4 * (key % 256)

/-- The bytes of the dirty lines and of the return entries, by window-0 address. -/
def Gang.dirtyBytes (g : Gang) : List (Nat × Byte) :=
  (g.kdirty.flatMap fun ln => (g.lineOffs ln).filterMap fun o => (KMap.get none g.kdata o).map fun b => (g.stackVa o, b)) ++
  g.ret.flatMap fun p => match p.2 with
    | some a => (List.range 4).map fun i => (g.retVa p.1 + i, BitVec.ofNat 8 (a.toNat >>> (8 * i)))
    | none => []

/-- The dirty lines of a gang's stack cache: window-0 address and bytes; bytes that the cache does not hold are the region's (R244, R350). -/
def State.stackLines (s : State) (gk : Nat) : List (Nat × List Byte) :=
  let g := s.gangAt gk
  let x := s.xlOf g.team
  let all := g.dirtyBytes
  let bases := (all.map fun p => p.1 / 128 * 128).eraseDups
  bases.map fun b => (b, (List.range 128).map fun i => (byteIn all (b + i)).getD (match (s.lookup x (b + i)).1 with
    | .page pa _ => s.byteAt x.die pa
    | _ => 0#8))

/-- A miss fills a line from the region (R244). -/
def State.fillStack (s : State) (gk line : Nat) : State :=
  let g := s.gangAt gk
  let x := s.xlOf g.team
  let l := (g.lineOffs line).filterMap fun o => match (s.lookup x (g.stackVa o)).1 with
    | .page pa _ => some (o, pa)
    | _ => none
  (s.setGangAt gk { g with kdata := l.foldl (fun m p => KMap.set none m p.1 (some (s.byteAt x.die p.2))) g.kdata }).noteRead x.die
    (l.map (·.2))

/-- Bytes of stack lines go to the region in G: as ordinary stores of the die, or (`now`) performed everywhere, as at the end or the save of
a team (R234, R245). With `hold` the bytes of a page that is not resident are held until the pager has brought it (R342, R344). -/
def State.spillBytes (s : State) (gk : Nat) (now hold : Bool) (l : List (Nat × Byte)) : State :=
  let x := s.xlOf (s.gangAt gk).team
  let mem := l.filterMap fun b => match (s.lookup x b.1).1 with
    | .page pa _ => some (pa, b.2)
    | _ => none
  let late := l.filterMap fun b => match (s.lookup x b.1).1 with
    | .absent => some (x.queue, b.1, b.2)
    | _ => none
  let s := if mem.isEmpty then s else if now then s.writeNow x.die mem [] else (s.store x.die mem []).2
  if hold then
    let pages := (late.map fun b => b.2.1 / 131072).eraseDups
    pages.foldl (fun s p => s.engineFault gk x.queue (BitVec.ofNat 72 (131072 * p)) 1 (.storePerformed gk 0)) { s with spills := s.spills ++ late }
  else s

/-- The region's contents become current in G (R234, R245). -/
def State.flushStack (s : State) (hold : Bool) (gk : Nat) : State :=
  let l := (s.gangAt gk).dirtyBytes
  if l.isEmpty then s else s.spillBytes gk true hold l

/-- Spills whose page has come are made (R244). -/
def State.spillRest (s : State) : State :=
  s.spills.foldl (fun s p =>
    let x := s.xlQueue p.1
    match (s.lookup x p.2.1).1 with
    | .absent => { s with spills := s.spills ++ [p] }
    | .page pa _ => s.writeNow x.die [(pa, p.2.2)] []
    | _ => s) { s with spills := [] }

/-- Which lines fall out of the stack cache is its choice beyond the 1 KiB that each gang is sure of: the highest data lines stay, and
what falls out is spilled, where its page is resident; nothing does while the gang holds its stores (R244; log entry 110, DESIGN CHOICE). -/
def State.spillPick (s : State) (gk : Nat) : State :=
  let g := s.gangAt gk
  let lines := (g.kdata.map fun p => g.stackLine p.1).eraseDups
  let rets := (g.ret.map fun p => g.retVa p.1 / 128).eraseDups
  if lines.length + rets.length ≤ 8 || g.ahead.isSome || g.rel.isSome then s
  else
    let p := s.freePick (lines.length + 1)
    let q := p.2.freePick 2
    let x := s.xlOf g.team
    let here := fun (ln : Nat) => match (s.lookup x (128 * ln)).1 with
      | .page .. => true
      | _ => false
    let out := (lines.take (lines.length - p.1)).filter here
    let old := if q.1 = 0 then [] else g.ret.filter fun e => e.1 % 256 + 1 < (g.sliceAt (e.1 / 256)).depth.toNat && here (g.retVa e.1 / 128)
    let gone : Gang := { g with kdirty := g.kdirty.filter out.contains, ret := old }
    let s := q.2.spillBytes gk false false gone.dirtyBytes
    let g := s.gangAt gk
    s.setGangAt gk { g with
      kdata := g.kdata.filter fun e => !out.contains (g.stackLine e.1), kdirty := g.kdirty.filter fun l => !out.contains l,
      ret := g.ret.filter fun e => !old.contains e }

/-! ## The context frame (R349 to R354) -/

/-- A piece of a frame: offset, bytes, value. -/
abbrev Piece := Nat × Nat × Nat

def sliceWord (x : Slice) : Nat :=
  x.pc.toNat + x.depth.toNat * 2 ^ 18 + x.part % 8 * 2 ^ 26 + (if x.present then 2 ^ 29 else 0) +
    (if x.atRegang then 2 ^ 30 else 0)

def boolNat (b : Bool) : Nat := if b then 1 else 0

/-- Depth of loop queue q (R29). -/
def Gang.qdepth (g : Gang) (q : Nat) : Nat := bitsOf g.qcfg.toNat (5 * q) 5

/-- The section of one gang with the dirty lines of its stack cache (R350), and its length. -/
def Gang.section (g : Gang) (lines : List (Nat × List Byte)) : List Piece × Nat :=
  let sh := g.shadow.getD { slices := [], cnt := [] }
  let vend := 0x1180 + 128 * (8 * g.blocks)
  let depth := (List.range 8).map g.qdepth
  let qend := vend + 128 * depth.sum
  let slices := (List.range 8).flatMap fun i =>
    [(8 * i, 8, sliceWord (g.sliceAt i)), (0x40 + 8 * i, 8, sliceWord (KMap.get {} sh.slices i))]
  let lanesOf := lanes.flatMap fun l =>
    [(0x80 + l, 1, (g.cntAt l).toNat), (0xA0 + l, 1, (KMap.get 0#6 sh.cnt l).toNat), (0x160 + 4 * l, 4, (g.srstateAt l).toNat)]
  let vc := g.vcast.getD { grp := 0, slot := 0, num := 0 }
  let ctl :=
    [(0xC0, 8, g.exited.toNat + (0xFFFFFF - g.bypFull.toNat) * 2 ^ 32),
     (0xC8, 8, g.r.gp.toNat % 128 + boolNat g.hstate * 2 ^ 8 + boolNat g.vcast.isSome * 2 ^ 9 + vc.slot % 4 * 2 ^ 10 +
        vc.num % 65536 * 2 ^ 16),
     (0xD0, 8, g.qcfg.toNat), (0xD8, 8, g.blast.toNat), (0xE0, 8, g.stklim.toNat), (0xE8, 8, g.r.mstat.toNat),
     (0xF0, 8, ((List.range 4).map fun i => (KMap.get 0#16 g.vcnt i).toNat * 2 ^ (16 * i)).sum),
     (0xF8, 8, ((List.range 4).map fun i => (KMap.get 0#16 g.ocnt i).toNat * 2 ^ (16 * i)).sum),
     (0x100, 8, g.tcause.toNat), (0x108, 8, g.tpc.toNat), (0x110, 8, g.tinfo.toNat), (0x118, 8, g.tlanes.toNat),
     (0x120, 8, g.ltpc.toNat), (0x128, 8, g.svent.toNat),
     (0x130, 8, (qend + 136 * lines.length) + lines.length * 2 ^ 32 + g.rays.length % 4 * 2 ^ 48 + (g.blocks - 1) * 2 ^ 50)]
  let files :=
    ((List.range 7).map fun i => (0x140 + 4 * i, 4, (KMap.get 0#32 g.r.k i).toNat)) ++
    ((List.range 32).map fun i => (0x1E0 + 8 * i, 8, (g.gAt i).toNat)) ++
    ((List.range 8).flatMap fun i => [(0x2E0 + 16 * i, 16, (g.adAt i).toNat), (0x360 + 32 * i, 32, (g.tdAt i).toNat)]) ++
    (g.byp.map fun p => (0x460 + 256 * (p.1 / 32) + 8 * (p.1 % 32), 8, p.2.toNat)) ++
    (g.queues.map fun p => (0x760 + p.1, 1, p.2.length)) ++
    (g.r.v.map fun p => (0x1180 + 4 * p.1, 4, p.2.toNat)) ++
    (g.queues.flatMap fun p => p.2.zipIdx.map fun e =>
      (vend + 128 * ((depth.take (p.1 / 32)).sum + e.2) + 4 * (p.1 % 32), 4, e.1.toNat)) ++
    (lines.zipIdx.flatMap fun l => [(qend + 136 * l.2, 8, l.1.1), (qend + 136 * l.2 + 8, 128, leNat l.1.2)])
  let rays := g.rays.zipIdx.flatMap fun e =>
    let b := 0x868 + 1152 * e.2
    [(b, 8, e.1.word.toNat), (b + 8, 4, e.1.act.toNat), (b + 16, 16, e.1.ta.toNat), (b + 32, 8, e.1.stklim)] ++
      e.1.rays.map fun p => (b + 0x80 + 32 * (p.1 % 32) + 4 * (p.1 / 32), 4, p.2.toNat)
  (slices ++ lanesOf ++ ctl ++ files ++ rays, qend + 136 * lines.length)

def slotWord (x : ISlot) : Nat :=
  x.src.toNat + (match x.st with
    | .empty => 0
    | .fetching => 1
    | .landed => 2) * 2 ^ 72

/-- A copy as a command of the frame (R354). -/
def Copy.command (c : Copy) (gid : Nat) : Nat :=
  c.word.toNat + c.dst.toNat * 2 ^ 64 + c.src.toNat * 2 ^ 136 + c.len % 2 ^ 32 * 2 ^ 208 +
    (c.bar.getD 0#72).toNat * 2 ^ 240 + c.batch.getD 0 % 2 ^ 32 * 2 ^ 312 + gid % 32 * 2 ^ 344 + boolNat c.gth * 2 ^ 349 +
    c.act.toNat * 2 ^ 352

/-- The lintel section (R352), and its length. -/
def lintelSection (g : Gang) (partner : Nat) (m : Mx) : List Piece × Nat :=
  let valid := (List.range 8).filter fun n => m.valid.getLsbD n
  let halves := if m.red then 2 else 1
  let acc := valid.zipIdx.flatMap fun n => (List.range halves).flatMap fun h =>
    (List.range 16384).map fun e =>
      (0x400 + 131072 * (halves * n.2 + h) + 8 * e, 8,
        (KMap.get 0#34 (if h = 0 then m.h0 else m.h1) (16384 * n.1 + e)).toNat)
  ([(0, 8, (g.pcOf 0).toNat % 65536 + partner % 16 * 2 ^ 16),
    (8, 8, m.valid.toNat + m.kind.toNat * 2 ^ 8 + boolNat m.red * 2 ^ 16), (16, 8, g.r.mstat.toNat),
    (24, 8, (g.srstateAt 0).toNat + g.blast.toNat * 2 ^ 32),
    (0x20, 8, g.tcause.toNat), (0x28, 8, g.tpc.toNat), (0x30, 8, g.tinfo.toNat), (0x40, 8, g.r.gp.toNat % 128)] ++
    ((List.range 16).map fun i => (0x50 + 16 * i, 16, slotWord (KMap.get {} m.im.slots i))) ++
    ((List.range 32).map fun i => (0x150 + 8 * i, 8, (g.gAt i).toNat)) ++
    ((List.range 8).flatMap fun i => [(0x250 + 16 * i, 16, (g.adAt i).toNat), (0x2D0 + 32 * i, 32, (g.tdAt i).toNat)]) ++ acc,
   0x400 + 131072 * halves * valid.length)

def alignUp (x a : Nat) : Nat := (x + a - 1) / a * a

/-- The frame of one team, its sections in the order of R362, and its length (R349). `lin`: the lintel program when this team's gang is its
partner. -/
def State.frameOf (s : State) (team : Nat) (lin : Option Nat) : List Piece × Nat :=
  let t := s.teamAt team
  let secs := t.gangs.map fun k => (s.gangAt k).section (s.stackLines k)
  let offs := secs.foldl (fun p x => (p.1 ++ [p.2], alignUp (p.2 + x.2) 64)) (([] : List Nat), 1280)
  let loff := offs.2
  let ls := match lin with
    | some k =>
      let partner := ((s.gangAt k).partner.map fun p => (s.gangAt p).gid).getD 0
      lintelSection (s.gangAt k) partner (s.mxAt (clusterOf t.core))
    | none => ([], 0)
  let cpoff := alignUp (loff + ls.2) 64
  let mine := (t.gangs ++ lin.toList).flatMap fun k => s.copies.filter fun c => c.gang == k
  let cmd := mine.foldl (fun p c =>
    let gid := if lin == some c.gang then 16 else (s.gangAt c.gang).gid
    (p.1 ++ [(p.2, 64, c.command gid)] ++ (if c.gth then c.idx.zipIdx.map fun i => (p.2 + 64 + 4 * i.2, 4, i.1) else []),
      p.2 + 64 + (if c.gth then 128 else 0))) (([] : List Piece), cpoff)
  let spoff := alignUp cmd.2 64
  let size := spoff + t.spsz
  let head : List Piece :=
    [(0, 4, size), (4, 2, (t.gangs.length - 1) % 16 + t.teamid % 8 * 16 + boolNat lin.isSome * 128), (6, 2, mine.length),
     (8, 8, t.crec.toNat), (16, 8, (s.cohortAt t.cohort).cohid.toNat), (24, 8, t.grpm.toNat), (32, 8, t.hbase.toNat),
     (40, 8, t.hlimit.toNat), (48, 8, t.hoffs.toNat), (56, 8, t.wmax.toNat), (68, 4, spoff), (72, 4, cpoff),
     (76, 4, if lin.isSome then loff else 0), (144, 4, t.spsz / 16 + (t.im.nseg - 1) * 2 ^ 20)] ++
    (offs.1.zipIdx.map fun o => (80 + 4 * o.2, 4, o.1))
  let slots := (List.range 64).map fun i =>
    (256 + 16 * i, 16, if i < t.im.nseg then slotWord (KMap.get {} t.im.slots i) else 0)
  let body := (secs.zip offs.1).flatMap fun p => p.1.1.map fun x => (x.1 + p.2, x.2)
  (head ++ slots ++ body ++ (t.spad.map fun p => (spoff + p.1, 1, p.2.toNat)) ++ cmd.1 ++
    (ls.1.map fun x => (x.1 + loff, x.2)), size)

/-- The bytes of a frame placed at `base`: every byte of it, unnamed ones 0. -/
def frameBytes (base size : Nat) (ps : List Piece) : List (Nat × Byte) :=
  ((List.range size).map fun i => (base + i, (0#8 : Byte))) ++
    ps.flatMap fun p => (List.range p.2.1).map fun i => (base + p.1 + i, BitVec.ofNat 8 (p.2.2 >>> (8 * i)))

/-- The frame pool of a die: FPOOL GiB at the top of its HBM4E (R347, R403; log entry 22, DESIGN CHOICE). -/
def Die.poolBase (d : Die) (die : Nat) : Nat := die * 2 ^ 56 + 256000000000 - d.fpool * 2 ^ 30

/-- The lowest free 4 KiB aligned run of the pool (R347). -/
def Die.poolFind (d : Die) (die size : Nat) : Option Nat :=
  let cands := d.poolBase die :: d.frames.map fun f => alignUp (f.1 + f.2) 4096
  let ok := cands.filter fun a => a + size ≤ die * 2 ^ 56 + 256000000000 && d.poolBase die ≤ a &&
    d.frames.all fun f => a + size ≤ f.1 || f.1 + f.2 ≤ a
  ok.min?

/-- A run of the pool is taken. -/
def State.poolTake (s : State) (die size : Nat) : Option (Nat × State) :=
  let d := s.dieAt die
  (d.poolFind die size).map fun a => (a, s.setDieAt die { d with frames := d.frames ++ [(a, size)] })

def State.poolFree (s : State) (l : List Nat) : State :=
  (List.range 4).foldl (fun s i =>
    let d := s.dieAt i
    s.setDieAt i { d with frames := d.frames.filter fun f => !l.contains f.1 }) s

/-- The frame of a team is written into the pool. -/
def State.writeFrame (s : State) (team : Nat) (lin : Option Nat) : Option (Nat × State) :=
  let die := dieOf (s.teamAt team).core
  let f := s.frameOf team lin
  (s.poolTake die f.2).map fun p => (p.1, p.2.writeNow die (frameBytes p.1 f.2 f.1) [])

/-! ## The save (R344, R346, R348) -/

/-- The vector gangs of a cohort, and its lintel program. -/
def State.gangsOf (s : State) (c : Nat) : List Nat := (s.cohortAt c).teams.flatMap fun t => (s.teamAt t).gangs

/-- Gangs leave the run queue. -/
def State.unrun (s : State) (l : List Nat) : State := { s with runq := s.runq.filter fun k => !l.contains k }

/-- A gang at its save boundary: a region is replayed, run-ahead is rewound, its loads land, its traversals are abandoned
(R263, R348, R359, R360). -/
def Gang.boundary (g : Gang) : Gang :=
  let g := g.replay.rewind
  let g := (g.loads.filter fun p => !p.ray && p.await.isEmpty).foldl (fun g p => g.land p) g
  { g with loads := g.loads.filter (!·.ray) }

/-- What the save waits for (R348). -/
def State.quiet (s : State) (c : Nat) : Bool :=
  let co := s.cohortAt c
  let ks := s.gangsOf c ++ co.lintel.toList
  ks.all (fun k =>
    let g := s.gangAt k
    g.loads.all (fun p => p.await.isEmpty) && g.commits.isEmpty && g.pios.isEmpty && g.meshes.isEmpty) &&
  (co.lintel.isNone || (s.mxAt co.cluster).ops.isEmpty)

/-- The copies of a cohort are quiesced whole: landed ones complete, the others become commands (R355). -/
def State.quiesceCopies (s : State) (ks : List Nat) : State :=
  let done := s.copies.filter fun c => ks.contains c.gang && c.len ≤ c.done
  let s := done.foldl (fun s c =>
    let g := s.gangAt c.gang
    (s.setGangAt c.gang { g with engs := g.engs.filter (· != c.id) }).barArrive c.gang c.bar c.len) s
  { s with copies := (s.copies.filter fun c => !(ks.contains c.gang && c.len ≤ c.done)).map fun c =>
      if ks.contains c.gang then { c with parked := true, done := 0, buf := [] } else c }

/-- The number of a core as an event-log UNIT: die × 96 + cluster × 8 + core is the core's number here (R269, R393). -/
def State.leftCore (s : State) (team : Nat) : State :=
  let t := s.teamAt team
  s.logEvent (dieOf t.core) 1 t.core 0 t.crec.toNat (s.cohortAt t.cohort).cohid.toNat

/-- Every frame of the cohort is written, or none (R347). -/
def State.writeFrames (s : State) (c : Nat) (lin : Option Nat) : Option (List Nat × State) :=
  (s.cohortAt c).teams.foldlM (fun (p : List Nat × State) t =>
    let l := match lin with
      | some k => if ((s.gangAt k).partner.map fun q => (s.gangAt q).team) == some t then lin else none
      | none => none
    (p.2.writeFrame t l).map fun q => (p.1 ++ [q.1], q.2)) ([], s)

/-- The directory entry of a saved cohort (R347). -/
def State.writeDir (s : State) (c : Nat) (frames : List Nat) : Option (Nat × State) :=
  let co := s.cohortAt c
  let die := co.cluster / 12
  (s.poolTake die 128).map fun p =>
    let v := co.crec.toNat + co.cohid.toNat * 2 ^ 64 +
      (frames.zipIdx.map fun f => f.1 * 2 ^ (128 + 64 * f.2)).sum
    (p.1, p.2.writeNow die ((List.range 128).map fun i => (p.1 + i, BitVec.ofNat 8 (v >>> (8 * i)))) [])

/-- One fault entry per distinct page (R344). -/
def State.postPages (s : State) (c : Nat) : State :=
  let co := s.cohortAt c
  let ps := co.pages.foldl (fun l p => if l.any fun q => q.1.toNat / 131072 == p.1.toNat / 131072 then l else l ++ [p]) []
  let s := s.setCohortAt c { co with pages := [] }
  ps.foldl (fun s p =>
    s.post { fault := true, queue := co.queue, cohort := some c, va := p.1,
             entry := faultEntry p.1 p.2.1 false (s.queueAt co.queue).ctx.ctxn p.2.2 co.crec.toNat }) s

/-- The save of a cohort at the point where nothing it waits for is left (R348 to R355). Without room in the pool the
cohort stays stopped on its cores; its fault entries are posted (R347). -/
def State.saveNow (s : State) (c : Nat) : State :=
  let co := s.cohortAt c
  let ks := s.gangsOf c
  let all := ks ++ co.lintel.toList
  let s := all.foldl (fun s k => s.setGangAt k (s.gangAt k).boundary) s
  let s := (ks.foldl (State.flushStack · false) s).quiesceCopies all
  match s.writeFrames c co.lintel with
  | none => s.postPages c
  | some (frames, s1) =>
    match s1.writeDir c frames with
    | none => s.postPages c
    | some (dir, s) =>
      let m := s.mxAt co.cluster
      let co := { s.cohortAt c with
        status := if co.pages.isEmpty && co.posted.isEmpty then .ready else .faulted, frames := frames, dir := dir,
        preempt := false,
        mxValid := if co.lintel.isSome then m.valid else 0#8, mxKind := if co.lintel.isSome then m.kind else 0#8,
        mxRed := co.lintel.isSome && m.red, mxAcc0 := if co.lintel.isSome then m.h0 else [],
        mxAcc1 := if co.lintel.isSome then m.h1 else [], mxImem := if co.lintel.isSome then m.im else {} }
      let s := s.setCohortAt c co
      let s := co.teams.foldl (fun s t =>
        let s := s.leftCore t
        s.setTeamAt t { s.teamAt t with status := .saved }) s
      let s := s.setMxAt co.cluster { m with
        prog := if co.lintel.isSome then none else m.prog, landing := if co.lintel.isSome then none else m.landing,
        forks := m.forks.filter fun f => !ks.contains f.1,
        valid := if co.lintel.isSome then 0#8 else m.valid, kind := if co.lintel.isSome then 0#8 else m.kind,
        red := !co.lintel.isSome && m.red, h0 := if co.lintel.isSome then [] else m.h0,
        h1 := if co.lintel.isSome then [] else m.h1, im := if co.lintel.isSome then { nseg := 16 } else m.im }
      let s := all.foldl (fun s k =>
        let g := s.gangAt k
        s.setGangAt k { g with hold := if g.hold == .fork then .no else g.hold }) s
      let s := s.unrun all
      if co.status == .ready then
        let q := s.queueAt co.queue
        let pri := ((s.vaNat (s.xlQueue co.queue) (co.crec.toNat + 28) 1).getD 0) % 4
        s.setQueueAt co.queue { q with heads := (pri, co.crec.toNat, some c) :: q.heads, headAt := setNth q.headAt pri s.clock }
      else s.postPages c

/-- Issue stops in every team of the cohort, and the save runs when nothing it waits for is left (R348). -/
def State.save (s : State) (c : Nat) : State :=
  let s := s.setCohortAt c { s.cohortAt c with status := .saving }
  let s := s.unrun (s.gangsOf c ++ (s.cohortAt c).lintel.toList)
  if s.quiet c then s.saveNow c else s

/-- Saves that waited go on; a cohort that the pool has no room for and whose faults are posted stands on its cores (R347). -/
def State.saveRest (s : State) : State :=
  s.cohorts.foldl (fun s p =>
    if p.2.status == .saving && p.2.posted.isEmpty && (s.posts.all fun o => o.cohort != some p.1) && s.quiet p.1 then s.saveNow p.1
    else s) s

/-- A cohort fault: the cohort is saved, with the faulting pages added (R344). A pixel gang has no record: it stands on its
core until its pages have come (log entry 34, DEDUCED). -/
def State.cohortFault (s : State) (pages : List (VAddr × Nat)) : State :=
  let t := s.team
  let co := s.cohort
  if co.pixel then
    (({ s with runq := s.runq.filter fun k => !(s.gangsOf t.cohort).contains k }).setCohortAt t.cohort
      { co with status := .faulted, pages := pages.map fun (p : VAddr × Nat) => (p.1, p.2, t.core) }).postPages t.cohort
  else (s.setCohortAt t.cohort { co with pages := co.pages ++ pages.map fun (p : VAddr × Nat) => (p.1, p.2, t.core) }).save t.cohort

/-! ## Frames that leave the module (R271, R272) -/

/-- The event of a frame's arrival, by its class (R272). -/
def frameEvent (f : Frame) : List Instr :=
  match f.cls with
  | 0 => [.frameRead f]
  | 1 => [.frameReadResponse f]
  | 2 => [.frameWrite f]
  | 3 => [.frameWriteAck f]
  | 4 => [.frameAtomic f]
  | 5 => [.frameAtomicResponse f]
  | 6 => [.frameWorkRecord f]
  | 7 => [.frameSlotUpdate f]
  | 8 => [.frameCollectiveData f]
  | 9 => [.frameImageTiles f]
  | 10 => [.frameVote f]
  | 11 => [.frameVoteResult f]
  | _ => []

/-- A frame is sent, with the next packet number and the timer running (R271). One to the module itself needs no port. -/
def State.sendFrame (s : State) (f : Frame) : State :=
  if f.dstm = s.modn then s.owe (frameEvent { f with psn := 0, srcm := s.modn })
  else { s with psn := s.psn + 1, net := s.net ++ [({ f with psn := s.psn, srcm := s.modn }, s.clock)] }

/-- A frame that arrives: a packet is acknowledged, and one whose number has been taken from its module before is discarded (R271). -/
def State.receive (s : State) (f : Frame) (act : Frame → State → State) : State :=
  if f.psn = 0 then act f s
  else
    let seen := KMap.get [] s.pseen f.srcm
    let s := { s with away := s.away ++ [.ack f.srcm f.psn] }
    if seen.contains f.psn then s
    else act { f with psn := 0 } { s with pseen := KMap.set [] s.pseen f.srcm (f.psn :: seen) }

/-- A frame about a group: TAG names the group index and the number, ADDR the rest of the number and the class's own word,
AUX the launch record, the context number and the class's own fields (R272; log entry 23, DESIGN CHOICE). `gk` is the group's key. -/
def groupFrame (cls src dst gk num word aux : Nat) : Frame :=
  { psn := 0, cls := cls, scp := 0, ord := 0, srcm := src, dstm := dst, sdie := 0, ddie := 0, len := 0,
    tag := gk % 256 + num % 4096 * 2 ^ 8, addr := word % 2 ^ 60 + num / 4096 % 16 * 2 ^ 60, aux := gk / 256 % 2 ^ 80 + aux * 2 ^ 80,
    body := [] }

/-- The number a group frame names, its group's key, and its own word and fields. -/
def frameNum (f : Frame) : Nat := f.tag / 2 ^ 8 % 4096 + f.addr / 2 ^ 60 % 16 * 4096
def frameGkey (f : Frame) : Nat := f.aux % 2 ^ 80 * 256 + f.tag % 256
def frameWord (f : Frame) : Nat := f.addr % 2 ^ 60
def frameExtra (f : Frame) : Nat := f.aux / 2 ^ 80

/-! ## The kill (R211, R395) -/

/-- The groups a team's GRPM names (R316). -/
def grpmList (m : DWord) : List (Nat × Nat) :=
  (List.range 4).filterMap fun i => if m.getLsbD (32 + i) then some (i, bitsOf m.toNat (8 * i) 8) else none

/-- Key of a group of the team's launch. -/
def State.groupKey (s : State) (team grp : Nat) : Nat := (s.queueOf team).key * 256 + grp

def State.groupAt (s : State) (k : Nat) : Group := KMap.get {} s.groups k
def State.setGroupAt (s : State) (k : Nat) (g : Group) : State := { s with groups := KMap.set {} s.groups k g }

/-- The resident or saved teams of a launch that are members of a group. -/
def State.groupTeams (s : State) (gkey : Nat) : List Nat :=
  s.teams.filterMap fun p =>
    if p.2.status != .ended && (grpmList p.2.grpm).any (fun x => s.groupKey p.1 x.2 == gkey) then some p.1 else none

/-- A group is marked broken on this module; every gang of each surviving member takes the collective-broken trap asynchronously
(R211). -/
def State.breakHere (s : State) (gkey : Nat) (except_ : List Nat) : State :=
  let s := s.setGroupAt gkey { s.groupAt gkey with
    broken := true, nodes := [], root := [], results := [], ops := [], early := [] }
  (s.groupTeams gkey).foldl (fun s t =>
    if except_.contains t then s
    else s.owe (((s.teamAt t).gangs.filter fun k => !(s.gangAt k).ended).map fun k =>
      Instr.asyncTrap k 16 (BitVec.ofNat 64 (gkey % 256)))) s

/-- A queue of a launch on this module: a mapped one, or one that is parked. -/
def State.launchQueue (s : State) (key : Nat) : Option Nat :=
  match s.queues.find? fun p => p.2.bound && p.2.key == key with
  | some p => some p.1
  | none => (s.queues.find? fun p => p.2.parked && !p.2.closed && p.2.key == key).map (·.1)

/-- The modules of a group's members. -/
def State.groupModules (s : State) (gk : Nat) : List Nat :=
  match (s.groupAt gk).places with
  | [] => [s.modn]
  | ps => (ps.map (·.1)).eraseDups

/-- A group breaks here, and the modules of its other members are told (R211, R293): bit 33 of a vote-result frame's word (log entry 23,
DESIGN CHOICE). -/
def State.breakGroup (s : State) (gkey : Nat) (except_ : List Nat) : State :=
  let told := (s.groupAt gkey).broken
  let others := (s.groupModules gkey).filter fun m => m != s.modn && !s.away.contains (.lost m)
  let s := s.breakHere gkey except_
  if told then s else others.foldl (fun s m => s.sendFrame (groupFrame 11 s.modn m gkey 0 (2 ^ 33) 0)) s

/-- Gangs, teams and their work disappear without a frame (R395). -/
def State.dropCohort (s : State) (c : Nat) : State :=
  let co := s.cohortAt c
  let ks := s.gangsOf c ++ co.lintel.toList
  let m := s.mxAt co.cluster
  let s := s.unrun ks
  let s := { s with
    copies := s.copies.filter fun x => !ks.contains x.gang, meshq := s.meshq.filter fun x => !co.teams.contains x.team,
    quads := s.quads.filter fun x => !co.teams.contains x.team }
  let pix := s.gangs.filterMap fun p =>
    if p.2.quads.any fun q => co.teams.contains q.team then some p.1 else none
  let s := pix.foldl (fun s k =>
    let g := s.gangAt k
    let t := s.teamAt g.team
    let s := s.setGangAt k { g with ended := true, quads := [], hold := .no }
    (s.setTeamAt g.team { t with status := .ended }).setCohortAt t.cohort { s.cohortAt t.cohort with status := .stopped }) (s.unrun pix)
  let s := s.setMxAt co.cluster { m with
    landing := if co.lintel.isSome && m.prog == co.lintel then none else m.landing,
    prog := if co.lintel.isSome && m.prog == co.lintel then none else m.prog,
    ops := if co.lintel.isSome && m.prog == co.lintel then [] else m.ops,
    forks := m.forks.filter fun f => !ks.contains f.1 }
  let s := ks.foldl (fun s k =>
    let g := s.gangAt k
    s.setGangAt k { g with
      ended := true, rel := none, ahead := none, loads := [], rays := [], stores := [], engs := [], nets := [], pios := [],
      meshes := [], hold := .no }) s
  co.teams.foldl (fun s t =>
    let tm := s.teamAt t
    let s := if tm.status == .running then s.leftCore t else s
    s.setTeamAt t { tm with status := if tm.status == .stopped then .stopped else .ended, pixels := 0 }) s

/-! ## Records and rings of a queue (R317, R319) -/

/-- Pool index of a record address: the 32-bit signed distance from the pool, in records (R319; log entry 36, DEDUCED). -/
def Queue.index (q : Queue) (rec : Nat) : Nat := (rec + 2 ^ 64 - q.rpool) / 32 % 2 ^ 32

/-- Address of a pool record. -/
def Queue.recAt (q : Queue) (i : Nat) : Nat :=
  (q.rpool + 32 * (i % 2 ^ 32) + (if 2 ^ 31 ≤ i % 2 ^ 32 then 2 ^ 64 - 2 ^ 37 else 0)) % 2 ^ 64

/-- The queue whose pool holds a record of the same launch: the record's home. -/
def State.homeQueue (s : State) (qk rec : Nat) : Nat :=
  let o := s.queueAt qk
  match s.queues.find? fun p => p.2.key == o.key && p.2.closed == o.closed && p.2.rpool ≤ rec && rec < p.2.rpool + 32 * 2 ^ p.2.ps with
  | some p => p.1
  | none => qk

/-- n bytes at offset `off` of a record, or of any structure of the queue's context; 0 where it is not mapped. -/
def State.qNat (s : State) (qk a n : Nat) : Nat := (s.vaNat (s.xlQueue qk) a n).getD 0

/-- A field of a record: PRI, CLS, SUSP, ROOT, OWNL, OWNV stand in the last word (R317). -/
def State.recCtl (s : State) (qk rec : Nat) : Nat := s.qNat qk (rec + 28) 4

def State.setRecCtl (s : State) (qk rec v : Nat) : State := s.vaWrite (s.xlQueue qk) (rec + 28) 4 v

/-- SUSP, bit 230 of the record: bit 6 of its last word. -/
def State.setSusp (s : State) (qk rec : Nat) (b : Bool) : State :=
  let v := s.recCtl qk rec
  s.setRecCtl qk rec (if b then v ||| 64 else v - (if v.testBit 6 then 64 else 0))

/-- A pool index is appended at TAIL p (R319). -/
def State.enqueue (s : State) (qk idx pri : Nat) : State :=
  let q := s.queueAt qk
  let tl := q.tail.getD pri 0
  let s := s.vaWrite (s.xlQueue qk) (q.ring.getD pri 0 + 4 * (tl % 2 ^ q.rs.getD pri 0)) 4 idx
  let empty := tl == q.head.getD pri 0
  s.setQueueAt qk { q with
    tail := setNth q.tail pri ((tl + 1) % 2 ^ 32)
    headAt := if empty then setNth q.headAt pri s.clock else q.headAt }

/-- The continuation area of priority p is full (R319). -/
def Queue.full (q : Queue) (pri : Nat) : Bool :=
  (q.tail.getD pri 0 + 2 ^ 32 - q.head.getD pri 0) % 2 ^ 32 == 2 ^ q.rs.getD pri 0 || q.free == 0xFFFFFFFF

/-- LSTAT of the launch (R310). -/
def State.setLstat (s : State) (qk v : Nat) : State := s.vaWrite (s.xlQueue qk) ((s.queueAt qk).lrec + 248) 1 v

/-- A kill (R395): the cohort stops, its groups break, its work is abandoned; log entries of kinds 1 and 5; with
`relaunch` its record is reset and enqueued again, with an entry of kind 8. `err` is the unit, its kind and the address of
a data error; `keep` names a frame that stays readable. -/
def State.kill (s : State) (c : Nat) (relaunch : Bool) (err : Option (Nat × Nat × Nat)) (keep : List Nat) : State :=
  let co := s.cohortAt c
  let q := s.queueAt co.queue
  let die := co.cluster / 12
  let core := (co.teams.head?.map fun t => (s.teamAt t).core).getD 0
  let gks := (co.teams.flatMap fun t => (grpmList (s.teamAt t).grpm).map fun x => s.groupKey t x.2).eraseDups
  let s := s.dropCohort c
  let s := gks.foldl (fun s k => s.breakGroup k co.teams) s
  let s := s.poolFree ((co.frames ++ (if co.dir = 0 then [] else [co.dir])).filter fun f => !keep.contains f)
  let q' := { q with heads := q.heads.filter fun h => h.2.2 != some c }
  let s := s.setQueueAt co.queue q'
  let s := s.setCohortAt c { s.cohortAt c with status := .stopped, lintel := none, posted := [], pages := [] }
  let e := err.getD (core, 0, 0)
  let s := s.logEvent die 5 e.1 e.2.1 e.2.2 co.crec.toNat
  if relaunch then
    let idx := q.index co.crec.toNat
    let h := s.homeQueue co.queue co.crec.toNat
    let mine := (s.queueAt h).index co.crec.toNat + 1
    let s := s.setQueueAt h { s.queueAt h with regions := (s.queueAt h).regions.filter fun r => r.2 != mine }
    let s := s.setSusp co.queue co.crec.toNat false
    let s := s.enqueue co.queue idx (s.recCtl co.queue co.crec.toNat % 4)
    s.logEvent die 8 core 0 co.crec.toNat co.cohid.toNat
  else s

/-- The cohort that a team works for: a pixel continuation's is that of the team that issued its MESH (R254, R257). -/
def State.ownerCohort (s : State) (team : Nat) : Nat :=
  let t := s.teamAt team
  match (t.gangs.flatMap fun k => (s.gangAt k).quads) with
  | q :: _ => (s.teamAt q.team).cohort
  | [] => t.cohort

/-! ## Consumed errors (R377, R394) -/

/-- An event that comes before everything else that is owed. -/
def State.urge (s : State) (e : Instr) : State := { s with due := e :: s.due, turn := true }

/-- A gang's access, or an engine's that acts for it, has met memory behind a link that is down. -/
def State.consume (s : State) (gk pa : Nat) : State :=
  let t := (s.gangAt gk).team
  if (s.queueOf t).bound then s.urge (.uncorrectableErrorConsumed (s.ownerCohort t) (.frame pa)) else s

/-- The event-log unit, its kind and the address of an error in a frame (R393). -/
def frameError (pa : Nat) : Nat × Nat × Nat := (96 * ((pa >>> 56) % 4), if (pa >>> 55) % 2 = 0 then 5 else 6, pa)

/-- Bytes of a write that goes to a port whose link is down count in the error log (R377). -/
def State.logDown (s : State) (pas : List Nat) : State :=
  match pas.find? s.portDown with
  | none => s
  | some pa => s.logEvent ((pa >>> 56) % 4) 5 (frameError pa).1 6 pa 0

/-- A team stops (R218, R327): its frame is saved, a fault event is posted, the cohort is killed without relaunch and
LSTAT becomes 3. -/
def State.stopTeam (s : State) (team : Nat) (tcause : DWord) : State :=
  let t := s.teamAt team
  let co := s.cohortAt t.cohort
  let s := t.gangs.foldl (fun s k => s.setGangAt k (s.gangAt k).boundary) s
  let s := (t.gangs.foldl (State.flushStack · true) s).quiesceCopies t.gangs
  let lin := match co.lintel with
    | some k => if ((s.gangAt k).partner.map fun q => (s.gangAt q).team) == some team then co.lintel else none
    | none => none
  let fs := (s.writeFrame team lin).getD (0, s)
  let s := fs.2
  let s := s.leftCore team
  let s := s.setTeamAt team { s.teamAt team with status := .stopped }
  let s := s.unrun t.gangs
  if !(s.queueAt co.queue).bound then
    t.gangs.foldl (fun s k => s.setGangAt k { s.gangAt k with ended := true }) s
  else
    let s := s.post { fault := false, queue := co.queue, entry := svcEntry 0 1 t.crec.toNat 0 0 0 0 tcause.toNat }
    let s := s.setQueueAt co.queue { s.queueAt co.queue with kept := (s.queueAt co.queue).kept ++ [fs.1] }
    (s.kill (s.ownerCohort team) false none [fs.1]).setLstat co.queue 3

end Sys2Proof.Machine
end

