-- ==== Sys2Proof/Machine/Ops.lean ====
section
/-! DEFINITION. The shared operations of every instruction: moving PCs under R92, taking a trap and returning from one
(R115 to R117, R218, R219), asynchronous traps, the release buffer's limits (R107), and waits (R36). -/

namespace Sys2Proof.Machine

/-- What every meaning answers: the next state. -/
abbrev Res := Host.Outcome State Fault Refusal

/-! ## Taking a trap (R115 to R117, R218) -/

/-- A trap to be recorded (R115). -/
structure TrapInfo where
  cause : Nat
  dcode : Nat := 0
  aux   : Nat := 0
  lanes : Word
  info  : DWord := 0#64
  /-- TPC -/
  pc    : IAddr
  /-- the slice that TPC belongs to, where the lanes do not tell -/
  slice : Option Nat := none
  deriving DecidableEq, Repr

/-- SLICE: the lowest slice that has a lane in TLANES (R117). -/
def lowSlice (m : Word) : Nat := ((lowest fun l => m.getLsbD l).getD 0) / 4

/-- The trap record of R115 is written. -/
def Gang.record (g : Gang) (t : TrapInfo) : Gang :=
  { g with
    tcause := BitVec.ofNat 64 (t.cause % 256 + t.dcode % 16 * 256 + lowSlice t.lanes * 4096 + t.aux % 4096 * 65536)
    tpc := t.pc.setWidth 64
    tinfo := t.info
    tlanes := t.lanes.setWidth 64
    tslice := t.slice.getD (lowSlice t.lanes) }

/-- Entry to the trap handler at `hent`: the shadow takes slices and counters, H is set, one part of every live slice
starts there with counters 0, call depth 0 (log entry 7, DESIGN CHOICE) and an empty bypass (R28, R218). A SYSC that is out is kept
for the return (log entry 104, DEDUCED). -/
def Gang.enterHandler (g : Gang) (hent : IAddr) : Gang :=
  let live := g.liveSlices
  let g := { g with
    shadow := some { slices := g.slices, cnt := g.cnt }, hstate := true, cnt := [], bypFull := 0#24,
    sysOld := if g.sysn = 0 then none else some (g.sysn, g.svent), sysn := 0, svent := 0#64 }
  (g.onSlices live fun x => { x with pc := hent, depth := 0#8, atRegang := false, atBar := false }).setPart live

/-- A gang of a team with a bound launch takes a recorded trap, or its team stops (R218, R359). -/
def State.deliver (s : State) (k : Nat) : State :=
  let g := s.gangAt k
  let hent := (s.launchOf g.team).hent
  if hent != 0#64 && !g.hstate && g.rel.isNone && g.kind == .vector then
    s.setGangAt k (g.enterHandler (hent.setWidth 18))
  else (s.setGangAt k { g with bypFull := 0#24 }).stopTeam g.team g.tcause

/-- The gang's work stops at an asynchronous trap: a region is replayed, run-ahead is discarded, a wait ends
(R211, R219, R359). -/
def Gang.interrupt (g : Gang) : Gang :=
  { g.replay.rewind with hold := if g.hold == .exiting then .exiting else .no, starved := false, qans := none }

/-- An asynchronous trap of gang `k` (R219): TPC holds the word of the wait it interrupts, else the next word of the lowest slice;
TLANES 0. -/
def State.asyncTake (s : State) (k cause : Nat) (info ltpc : DWord) : State :=
  let h := (s.gangAt k).hold
  let g := (s.gangAt k).interrupt
  let n := ((if h == .no then [] else g.partSlices g.last) ++ g.liveSlices).headD 0
  let g := g.record { cause := cause, lanes := 0#32, info := info, pc := (g.sliceAt n).pc, slice := some n }
  (s.setGangAt k { g with ltpc := ltpc }).deliver k

/-- A lintel program ends: its core is free, its gang has no partner program, the oldest FORK is owed (R202). -/
def State.endLintel (s : State) (k : Nat) : State :=
  let g := s.gangAt k
  let c := s.clusterOfGang k
  let m := s.mxAt c
  let s := s.setGangAt k { g with ended := true, hold := .no }
  let s := s.unrun [k]
  let s := match g.partner with
    | some p => s.setGangAt p { s.gangAt p with partner := none }
    | none => s
  let ck := (s.teamAt g.team).cohort
  let s := s.setCohortAt ck { s.cohortAt ck with lintel := none }
  let s := s.setMxAt c { m with
    prog := none, valid := 0#8, kind := 0#8, red := false, ops := [], h0 := [], h1 := [], im := { nseg := 16 } }
  if m.forks.isEmpty then s else s.owe [.lintelStart c]

/-- A lintel trap: its own record, with no lanes (R237), its end, and an asynchronous trap of its partner; where the partner has ended the team
stops (R219). -/
def State.lintelTrap (s : State) (k : Nat) (t : TrapInfo) : State :=
  let g := (s.gangAt k).record { t with lanes := 0#32 }
  let s := s.setGangAt k g
  let ltpc := BitVec.ofNat 64 (t.pc.toNat % 65536 + 65536)
  match g.partner with
  | none => (s.endLintel k).stopTeam g.team g.tcause
  | some p =>
    let s := s.endLintel k
    if (s.gangAt p).ended then s.stopTeam g.team g.tcause
    else s.asyncTake p t.cause t.info ltpc

/-- Run-ahead ends at the word: all parts of the gang wait until the branch resolves (R89, R110). -/
def State.halt (s : State) : State :=
  match s.gang.ahead with
  | some a => s.setGang { s.gang with ahead := some { a with left := 0 } }
  | none => s

/-- TAKING A TRAP (R115, R218, R219): the record is written and the trap delivered. A gang that runs ahead waits at the
word instead, until its branch resolves (R89, R110). -/
def State.takeTrap (s : State) (t : TrapInfo) : State :=
  let g := s.gang
  if g.ahead.isSome then s.halt
  else if g.kind == .lintel then s.lintelTrap s.gk t
  else (s.setGang (g.record t)).deliver s.gk

/-- The PC of the issuing part. -/
def State.pc (s : State) : IAddr := s.gang.pcOf s.pt

/-- A trap at the issuing word whose rule names no lanes (R117). -/
def State.trap (s : State) (cause : Nat) (info : DWord) : State :=
  s.takeTrap { cause := cause, lanes := s.gang.trapLanes s.pt, info := info, pc := s.pc }

/-- A trap at the issuing word met by certain lanes. -/
def State.trapLanes (s : State) (cause : Nat) (m : Word) (info : DWord) : State :=
  s.takeTrap { cause := cause, lanes := m, info := info, pc := s.pc }

/-- The illegal-instruction trap with its decode code (R87). -/
def State.illegal (s : State) (code : Nat) : State :=
  s.takeTrap { cause := 1, dcode := code, lanes := s.gang.trapLanes s.pt, pc := s.pc }

/-- RETURNING FROM A TRAP (R218): the shadow comes back and H is cleared; the part that holds TPC's slice resumes at TPC,
or one word on. The bypass stays empty. Without H there is no effect. -/
def Gang.trapReturn (g : Gang) (skip : Bool) : Gang :=
  match g.hstate, g.shadow with
  | true, some sh =>
    let back : Nat × DWord := if skip then (0, 0#64) else g.sysOld.getD (0, 0#64)
    let g := { g with
      slices := sh.slices, cnt := sh.cnt, shadow := none, hstate := false, bypFull := 0#24, sysOld := none,
      sysn := back.1, svent := back.2 }
    let tpc : IAddr := (g.tpc.setWidth 18) + (if skip then 8#18 else 0#18)
    let part := (g.sliceAt g.tslice).part
    (g.onSlices (List.range 8) fun x => { x with atRegang := false, atBar := false }).setPc (g.partSlices part) tpc
  | _, _ => g

/-! ## Moving on (R92) -/

/-- One instruction of a run-ahead's window is used up (R110). -/
def Gang.tick (g : Gang) : Gang :=
  match g.ahead with
  | some a => { g with ahead := some { a with left := a.left - 1 } }
  | none => g

/-- The address of the next word; the segment bits wrap at 2^18. -/
def nextPc (pc : IAddr) : IAddr := pc + 8#18

/-- The word is the last of its slot. -/
def lastWord (pc : IAddr) : Bool := pc.toNat % 4096 == 4088

/-- A part of the issuing gang that stands at `pc` goes on to the next word; past the last word of a slot the segment-cross
trap is taken after the word's full effect (R92, R117). -/
def State.advanceFrom (s : State) (p : Nat) (pc : IAddr) : State :=
  let g := s.gang
  let n := nextPc pc
  let s' := s.setGang ((g.setPc (g.partSlices p) n).tick)
  if lastWord pc then
    s'.takeTrap { cause := 11, lanes := g.trapLanes p, info := n.setWidth 64, pc := n }
  else s'

def State.advancePart (s : State) (p : Nat) : State := s.advanceFrom p (s.gang.pcOf p)

/-- The issuing part goes on to the next word. -/
def State.advance (s : State) : State := s.advancePart s.pt

/-- Something done as another gang and part, with the issuing ones put back. -/
def State.asPart (s : State) (k p : Nat) (f : State → State) : State :=
  { f { s with gk := k, pt := p } with gk := s.gk, pt := s.pt }

/-- The IMEM window that a gang issues from (R91, R180). -/
def State.imemOf (s : State) (k : Nat) : Imem :=
  let g := s.gangAt k
  if g.kind == .lintel then (s.mxAt (s.clusterOfGang k)).im else (s.teamAt g.team).im

def State.setImemOf (s : State) (k : Nat) (im : Imem) : State :=
  let g := s.gangAt k
  if g.kind == .lintel then
    let c := s.clusterOfGang k
    s.setMxAt c { s.mxAt c with im := im }
  else s.setTeamAt g.team { s.teamAt g.team with im := im }

/-- The word at an IMEM address. -/
def Imem.word (m : Imem) (a : IAddr) : BitVec 64 :=
  BitVec.ofNat 64 (leNat ((List.range 8).map fun i => KMap.get 0#8 m.bytes (a.toNat + i)))

/-- The slot of an IMEM address. -/
def slotOf (a : IAddr) : Nat := a.toNat / 4096

/-- Why a target cannot be reached: the cause of R91, R92; none when it can, or when the part will wait there. -/
def State.targetTrap (s : State) (a : IAddr) : Option Nat :=
  let im := s.imemOf s.gk
  if im.nseg ≤ slotOf a then some 12
  else if (KMap.get {} im.slots (slotOf a)).st == .empty then some 10
  else none

/-- Slices that jump: their PC moves and their bypass empties (R28, R97). -/
def Gang.jump (g : Gang) (sl : List Nat) (a : IAddr) : Gang := (g.setPc sl a).emptyBypass sl

/-! ## Limits of the release buffer (R107) -/

/-- Blocks of 32 bytes, by space, that held stores take. -/
def heldBlocks (l : List Held) : Nat :=
  ((l.flatMap fun h => h.bytes.map fun b => (h.space, b.1 / 32)).eraseDups).length

/-- Undo entries (R38, R58, R107): each register written since the CBR, whatever its value, and MSTAT and each slice's SRSTATE once
they have changed. -/
def undoEntries (a b : Regs) : Nat :=
  let sr := ((List.range 8).filter fun sl =>
    (List.range 4).any fun i => KMap.get 0#32 a.srstate (4 * sl + i) != KMap.get 0#32 b.srstate (4 * sl + i)).length
  (b.undo.getD []).length + sr + (if a.mstat != b.mstat then 1 else 0)

/-- Release-buffer entries a gang holds (R107, R358). -/
def Gang.entries (g : Gang) : Nat :=
  match g.ahead, g.rel with
  | some a, _ => heldBlocks a.held + undoEntries a.regs g.r
  | none, some r =>
    heldBlocks r.held + undoEntries { mstat := r.mstat, srstate := r.srstate }
      { mstat := g.r.mstat, srstate := g.r.srstate }
  | none, none => 0

/-- Entries that the gangs of a core hold. -/
def State.coreEntries (s : State) (core : Nat) : Nat :=
  ((s.gangs.filter fun p => !p.2.ended && (s.teamAt p.2.team).core == core).map fun p => p.2.entries).sum

/-- The result of an instruction, unless it would take more release-buffer entries than R107 gives: past 256 a region
traps and run-ahead stops at the word, as it does at the last word of a slot (R110); past the core's 1,024 the gang waits. `s` is the state before it. -/
def State.within (s s' : State) : State :=
  let g := s'.gang
  if g.ahead.isNone && g.rel.isNone then s'
  else if g.ahead.isSome && lastWord s.pc && (s.gang.partSlices s.pt).any fun n => (g.sliceAt n).pc == nextPc s.pc then s.halt
  else if 256 < g.entries then (if g.ahead.isSome then s.halt else s.trap 14 0#64)
  else if 1024 < s'.coreEntries s.team.core && s.gang.entries < g.entries then
    let s := s.setGang { s.gang with starved := true }
    let holders := s.gangs.filter fun p => !p.2.ended && (s.teamAt p.2.team).core == s.team.core && p.2.entries != 0
    if holders.all fun p => p.2.starved && p.2.ahead.isNone then s.owe [.regionExhaustReplay s.team.core] else s
  else s'.setGang { g with starved := false }

/-- The end of every instruction that goes on to the next word: `s'` is `s` with its effect. -/
def State.done (s s' : State) : State := s.within s'.advance

/-- An instruction that R110 stops run-ahead at: the gang waits at the word until the branch resolves. -/
def State.stops (s : State) : Bool := s.gang.ahead.isSome

/-- An instruction that R106 bars from a region. -/
def State.barred (s : State) : Bool := s.gang.rel.isSome

end Sys2Proof.Machine
end

