-- ==== Sys2Proof/Machine/Operands.lean ====
section
/-! DEFINITION. Operands: lane and group sources (R22, R23, R76), the checks 7 to 11 of R87, loop queues (R30), the
bypass (R27, R28), effective addresses (R78), and the combinators that run one instruction over the issuing part. -/

namespace Sys2Proof.Machine

/-! ## Reading a source -/

/-- A lane source: a lane register or pair, the head of a loop queue, a bypass position, or zero (R73). -/
def Gang.src (g : Gang) (f : BitVec 6) (wide : Bool) (l : Nat) : DWord :=
  let n := f.toNat
  if n < 48 then
    if wide then (g.vAt (n + 1) l ++ g.vAt n l : BitVec 64) else (g.vAt n l).setWidth 64
  else if n < 56 then ((KMap.get [] g.queues (32 * (n - 48) + l)).headD 0#32).setWidth 64
  else if n < 59 then
    let b := KMap.get 0#64 g.byp (32 * (n - 56) + l)
    if wide then b else (b.truncate 32).setWidth 64
  else 0#64

/-- The low 32 bits, or all 64, of a group register (R76, R118). -/
def Gang.gsrc (g : Gang) (f : BitVec 6) (wide : Bool) : DWord :=
  let x := g.gAt f.toNat
  if wide then x else (x.truncate 32).setWidth 64

/-- The B operand of class A: MOD[23] broadcasts a group register (R76). -/
def Gang.srcB (g : Gang) (f : ClassA) (wide : Bool) (l : Nat) : DWord :=
  if f.bcast then g.gsrc f.b wide else g.src f.b wide l

/-- A lane field that is read: how many registers it names, and the alignment of the first. -/
structure Use where
  f : BitVec 6
  n : Nat := 1
  a : Nat := 1
  deriving DecidableEq, Repr

/-- A source of the width given. -/
def Use.of (f : BitVec 6) (wide : Bool) : Use := if wide then { f := f, n := 2, a := 2 } else { f := f }

def Use.isQueue (u : Use) : Bool := 48 ≤ u.f.toNat && u.f.toNat < 56
def Use.isByp (u : Use) : Bool := 56 ≤ u.f.toNat && u.f.toNat < 59
def Use.queue (u : Use) : Nat := u.f.toNat - 48

/-- Check 7: a register beyond the allocation (R24), a misaligned pair or a pair that names a queue (R23), a queue of
depth 0 (R30). -/
def Gang.badUse (g : Gang) (u : Use) : Bool :=
  let n := u.f.toNat
  if n < 48 then n % u.a != 0 || 8 * g.blocks < n + u.n
  else if n < 56 then u.n != 1 || g.qdepth (n - 48) == 0
  else if n < 59 then 2 < u.n
  else false

/-- The scoreboard: a load that has not returned will write a register the field names (R36, R153). -/
def Gang.busyV (g : Gang) (u : Use) : Bool :=
  u.f.toNat < 56 && g.loads.any fun p => p.vregs.any fun r => u.f.toNat ≤ r && r < u.f.toNat + u.n

def Gang.busyG (g : Gang) (n : Nat) : Bool := g.loads.any fun p => p.gregs.contains n

/-! ## The checks before a lane form acts (R26, R30, R87) -/

/-- Active lanes in slices that would read an empty bypass position (R28). -/
def Gang.bypEmptyLanes (g : Gang) (p : Nat) (srcs : List Use) : Word :=
  maskOf fun l => g.active p l && srcs.any fun u => u.isByp && !g.bypFullAt (l / 4) (u.f.toNat - 55)

/-- Queues popped: each one once (R30). -/
def popped (srcs : List Use) : List Nat := ((srcs.filter Use.isQueue).map Use.queue).eraseDups

def Gang.queueAt (g : Gang) (q l : Nat) : List Word := KMap.get [] g.queues (32 * q + l)

/-- Lanes with an effect in which some pop meets an empty queue. -/
def Gang.popEmpty (g : Gang) (p : Nat) (h : Header) (srcs : List Use) : Word :=
  maskOf fun l => g.eff p h l && (popped srcs).any fun q => (g.queueAt q l).isEmpty

/-- Lanes with an effect in which the push meets a queue that is full after the pops. -/
def Gang.pushFull (g : Gang) (p : Nat) (h : Header) (srcs : List Use) (d : Use) : Word :=
  maskOf fun l => g.eff p h l && d.isQueue &&
    g.qdepth d.queue ≤ (g.queueAt d.queue l).length - (if (popped srcs).contains d.queue then 1 else 0)

/-- What stops a lane form before it acts: the state the step ends in, or none to go on. `dst` is the destination where
there is one; `bad8` and `priv` are checks 8 and 9. -/
def State.laneGate (s : State) (h : Header) (srcs : List Use) (dst : List Use) (bad8 priv : Bool) : Option State :=
  let g := s.gang
  if (srcs ++ dst).any g.busyV then some s
  else if (srcs ++ dst).any g.badUse then some (s.illegal 7)
  else if bad8 then some (s.illegal 8)
  else if priv then some (s.trap 2 0#64)
  else if (g.effLanes s.pt h).isEmpty then some (s.done s)
  else
    let e := g.bypEmptyLanes s.pt srcs
    if e != 0#32 then some (s.trapLanes 3 e 0#64)
    else if ((popped srcs).isEmpty && !dst.any Use.isQueue) then none
    else if s.stops then some s.halt
    else
      let e := g.popEmpty s.pt h srcs
      if e != 0#32 then some (s.trapLanes 4 e 0#64)
      else
        let e := maskOf fun l => dst.any fun d => (g.pushFull s.pt h srcs d).getLsbD l
        if e != 0#32 then some (s.trapLanes 5 e 0#64)
        else if s.barred then some (s.trap 14 0#64)
        else none

/-- What stops a group form before it acts. `gs` are the group registers it reads or writes. -/
def State.groupGate (s : State) (h : Header) (gs : List Nat) (bad8 priv : Bool) : Option State :=
  let g := s.gang
  if gs.any g.busyG then some s
  else if bad8 then some (s.illegal 8)
  else if priv then some (s.trap 2 0#64)
  else if !g.geff s.pt h then some (s.done s)
  else none

/-! ## Writing a lane result (R27, R30) -/

/-- What a lane computes: its result, the flags it raises, and its SRSTATE when a conversion draws from it (R49). -/
structure LaneOut where
  val   : DWord
  flags : DWord := 0#64
  sr    : Option Word := none
  deriving DecidableEq, Repr

/-- The queues named are popped in the lanes given (R30). -/
def Gang.pop (g : Gang) (qs : List Nat) (ls : List Nat) : Gang :=
  { g with queues := ls.foldl (fun m l => qs.foldl (fun m q =>
      KMap.set [] m (32 * q + l) ((KMap.get [] m (32 * q + l)).drop 1)) m) g.queues }

def Gang.push (g : Gang) (q l : Nat) (x : Word) : Gang :=
  { g with queues := KMap.set [] g.queues (32 * q + l) (g.queueAt q l ++ [x]) }

/-- A result goes to its destination: a lane register or pair, a queue, or nowhere (R23, R73). -/
def Gang.put (g : Gang) (d : BitVec 6) (wide : Bool) (l : Nat) (x : DWord) : Gang :=
  let n := d.toNat
  if n < 48 then (if wide then g.setV2 n l x else g.setV n l (x.truncate 32))
  else if n < 56 then g.push (n - 48) l (x.truncate 32)
  else g

/-- A lane of a live slice of the part. -/
def Gang.inPart (g : Gang) (p l : Nat) : Bool := (g.partSlices p).contains (l / 4)

/-- The bypass of every slice of the part shifts; lanes with a result put it in b1, the others keep their b1; b1's mark
is set in slices with a result (R27). Bits [63:32] beside a 32-bit result are zero (log entry 102, DESIGN CHOICE). -/
def Gang.shiftBypass (g : Gang) (p : Nat) (wide : Bool) (res : List (Nat × DWord)) : Gang :=
  let ls := lanes.filter (g.inPart p)
  let val := fun l => (res.find? fun r => r.1 == l).map (·.2)
  let byp := ls.foldl (fun m l =>
    let b1 := KMap.get 0#64 m l
    let b2 := KMap.get 0#64 m (32 + l)
    let m := KMap.set 0#64 m (64 + l) b2
    let m := KMap.set 0#64 m (32 + l) b1
    match val l with
    | some x => KMap.set 0#64 m l (if wide then x else (x.truncate 32).setWidth 64)
    | none => m) g.byp
  let mark := fun (m : BitVec 24) (n : Nat) =>
    let old := (m >>> (3 * n)).toNat % 8
    let b1 := if res.any (fun r => r.1 / 4 == n) then 1 else old % 2
    (m &&& ~~~sliceMarks n) ||| (BitVec.ofNat 24 (b1 + old % 4 * 2) <<< (3 * n))
  { g with byp := byp, bypFull := (g.partSlices p).foldl mark g.bypFull }

/-- Results, flags and draws of the lanes, written after the pops (R27, R30, R57). -/
def Gang.finish (g : Gang) (p : Nat) (t : Bool) (d : BitVec 6) (wide : Bool) (qs : List Nat) (res : List (Nat × LaneOut)) : Gang :=
  let g' := g.pop qs (res.map (·.1))
  let g' := if t then g' else res.foldl (fun g r => g.put d wide r.1 r.2.val) g'
  let g' := g'.shiftBypass p wide (res.map fun r => (r.1, r.2.val))
  let g' := g'.orMstat (res.foldl (fun m r => m ||| r.2.flags) 0#64)
  res.foldl (fun g r => match r.2.sr with
    | some x => g.setSrstate r.1 x
    | none => g) g'

/-- A bypass-producing lane form (R27): gate, results of the lanes with an effect, writes, next word. -/
def State.aluLane (s : State) (h : Header) (d : BitVec 6) (wide : Bool) (srcs : List Use) (bad8 : Bool)
    (res : Gang → Nat → LaneOut) : State :=
  match s.laneGate h srcs (if h.t then [] else [Use.of d wide]) bad8 false with
  | some s' => s'
  | none =>
    let g := s.gang
    let out := (g.effLanes s.pt h).map fun l => (l, res g l)
    s.done (s.setGang (g.finish s.pt h.t d wide (popped srcs) out))

/-- A group form that writes one group register (R26, R118). -/
def State.aluGroup (s : State) (h : Header) (d : BitVec 6) (gs : List Nat) (bad8 : Bool) (res : Gang → LaneOut) : State :=
  match s.groupGate h (d.toNat :: gs) bad8 false with
  | some s' => s'
  | none =>
    let r := res s.gang
    let g := (s.gang.setG d.toNat r.val).orMstat r.flags
    let g := match r.sr, lowest (s.gang.active s.pt) with
      | some x, some l => g.setSrstate l x
      | _, _ => g
    s.done (s.setGang g)

/-- A lane form that writes a predicate (R123). -/
def State.predLane (s : State) (h : Header) (d : BitVec 6) (srcs : List Use) (bad8 : Bool) (res : Gang → Nat → Bool × DWord) :
    State :=
  match s.laneGate h srcs [] bad8 false with
  | some s' => s'
  | none =>
    let g := s.gang
    let ls := g.effLanes s.pt h
    let g' := g.pop (popped srcs) ls
    let g' := ls.foldl (fun x l => (x.setK d.toNat l (res g l).1).orMstat (res g l).2) g'
    s.done (s.setGang g')

/-- A group form that writes a predicate. -/
def State.predGroup (s : State) (h : Header) (d : BitVec 6) (gs : List Nat) (bad8 : Bool) (res : Gang → Bool × DWord) : State :=
  match s.groupGate h gs bad8 false with
  | some s' => s'
  | none =>
    let r := res s.gang
    s.done (s.setGang ((s.gang.setGp d.toNat r.1).orMstat r.2))

/-- A group form whose effect is a change of the gang. -/
def State.groupDo (s : State) (h : Header) (gs : List Nat) (f : Gang → Gang) : State :=
  match s.groupGate h gs false false with
  | some s' => s'
  | none => s.done (s.setGang (f s.gang))

/-! ## Effective addresses (R78) -/

/-- A signed offset as a 72-bit address. -/
def sext72 {n : Nat} (x : BitVec n) : VAddr := x.signExtend 72

/-- EffAddr of a lane (R78). -/
def Gang.effAddr (g : Gang) (f : ClassM) (l : Nat) : VAddr :=
  let idx : VAddr :=
    if f.x.toNat = 63 then 0#72
    else if f.h.g then (g.gAt f.x.toNat).setWidth 72
    else (g.vAt f.x.toNat l).setWidth 72
  g.adAt f.adr.toNat + (idx <<< f.sc.toNat) + sext72 f.off

/-- The lane field that an index names, for the checks. -/
def indexUse (f : ClassM) : List Use := if f.h.g || f.x.toNat = 63 then [] else [{ f := f.x }]

/-- The group registers a class-M group form reads as index. -/
def indexG (f : ClassM) : List Nat := if f.h.g && f.x.toNat != 63 then [f.x.toNat] else []

/-! ## What an instruction is once its meaning has run -/

/-- An instruction barred from regions, and one that stops run-ahead, takes its effect only outside both (R106, R110). -/
def State.engineGate (s : State) : Option State :=
  if s.stops then some s.halt
  else if s.barred then some (s.trap 14 0#64)
  else none

end Sys2Proof.Machine
end

