-- ==== Sys2Proof/Machine/Lifecycle.lean ====
section
/-! DEFINITION. The ends of gangs, lintel programs, teams and records (R103, R206, R319, R320), and abandoned operations (R419). -/

namespace Sys2Proof.Machine

/-! ## Abandoned operations -/

/-- The party that an abandoned operation belongs to takes the asynchronous memory-access trap (R419). -/
def State.abandon (s : State) (gk : Nat) (va : VAddr) : State :=
  if (s.gangAt gk).ended then s else s.owe [.asyncTrap gk 20 (va.setWidth 64)]

/-! ## New records (R204, R317, R319) -/

/-- A record made and enqueued at its priority; the area is not full. -/
def State.makeRecord (s : State) (qk code frame parent ctl : Nat) (cohid : DWord) : State :=
  let q := s.queueAt qk
  let idx := q.free
  let rec_ := q.recAt idx
  let next := s.qNat qk rec_ 8 % 2 ^ 32
  let s := s.vaWrite (s.xlQueue qk) rec_ 32 (code % 2 ^ 64 + frame % 2 ^ 64 * 2 ^ 64 + parent % 2 ^ 64 * 2 ^ 128 + ctl % 2 ^ 32 * 2 ^ 224)
  let s := s.setQueueAt qk { q with free := next, cohids := KMap.set 0#64 q.cohids idx cohid }
  let live := s.qNat qk (q.lrec + 232) 8
  (s.vaWrite (s.xlQueue qk) (q.lrec + 232) 8 (live + 1)).enqueue qk idx (ctl % 4)

/-! ## Work lists (R324, R325) -/

/-- A work-list entry. -/
structure WList where
  stor  : Nat
  lcap  : Nat
  z     : Nat
  recv  : Bool
  thr   : Nat
  flush : Nat
  pri   : Nat
  cls   : Nat
  lent  : Nat
  bpool : Nat
  nbat  : Nat
  wr    : Nat
  rd    : Nat
  deriving DecidableEq, Repr

def listAt (tab i : Nat) : Nat := tab + 64 + 64 * i

def State.wlist (s : State) (qk tab i : Nat) : WList :=
  let e := listAt tab i
  let c := s.qNat qk (e + 8) 1
  let p := s.qNat qk (e + 17) 1
  { stor := s.qNat qk e 8, lcap := c % 32, z := c / 32 % 4, recv := c.testBit 7, thr := s.qNat qk (e + 12) 2,
    flush := s.qNat qk (e + 14) 3 % 2 ^ 21, pri := p % 4, cls := p / 4 % 16, lent := s.qNat qk (e + 24) 8,
    bpool := s.qNat qk (e + 32) 8, nbat := s.qNat qk (e + 40) 1, wr := s.qNat qk (e + 52) 4, rd := s.qNat qk (e + 56) 4 }

/-- Bytes of an item, and items in the list. -/
def WList.bytes (l : WList) : Nat := if l.recv then 64 else 4 * 2 ^ l.z
def WList.items (l : WList) : Nat := (l.wr + 2 ^ 32 - l.rd) % 2 ^ 32
def WList.full (l : WList) : Bool := 2 ^ l.lcap ≤ l.items

/-- Teams of the launch whose record names list `i` as their own, or whose receive list it is, leave QDONE with false (R208). -/
def State.wakeList (s : State) (qk i : Nat) : State :=
  let key := (s.queueAt qk).key
  let mine := fun (p : Nat × Team) =>
    let co := s.cohortAt p.2.cohort
    let c := s.recCtl co.queue p.2.crec.toNat
    (c.testBit 16 && c / 256 % 256 == i) ||
      (grpmList p.2.grpm).any fun x => (s.groupAt (s.groupKey p.1 x.2)).members.any fun m =>
        m.cohid == co.cohid.toNat && m.teamid == p.2.teamid && m.rlist == i && (s.groupAt (s.groupKey p.1 x.2)).rwk
  let ts := s.teams.filter fun p => p.2.status == .running && (s.queueOf p.1).key == key && mine p
  ts.foldl (fun s p => p.2.gangs.foldl (fun s k =>
    let g := s.gangAt k
    if g.hold == .qdone then s.setGangAt k { g with qans := some false } else s) s) s

/-- One item appended to a list with room. -/
def State.appendItem (s : State) (qk tab i v : Nat) : State :=
  let l := s.wlist qk tab i
  let x := s.xlQueue qk
  let s := s.vaWrite x (l.stor + l.wr % 2 ^ l.lcap * l.bytes) l.bytes v
  let s := s.vaWrite x (listAt tab i + 52) 4 (l.wr + 1)
  let q := s.queueAt qk
  (s.setQueueAt qk { q with appended := KMap.set [] q.appended i (KMap.get [] q.appended i ++ [s.clock]) }).wakeList qk i

/-- One batch taken from a list into a free slot, with its record (R207, R325). -/
def State.takeBatch (s : State) (qk tab i b : Nat) : State :=
  let l := s.wlist qk tab i
  let x := s.xlQueue qk
  let q := s.queueAt qk
  let n := min l.thr l.items
  let at_ := l.bpool + b * ((16 + l.thr * l.bytes + 63) / 64 * 64)
  let items := (List.range n).map fun j => s.qNat qk (l.stor + (l.rd + j) % 2 ^ l.lcap * l.bytes) l.bytes
  let s := items.zipIdx.foldl (fun s p => s.vaWrite x (at_ + 16 + p.2 * l.bytes) l.bytes p.1) s
  let s := s.vaWrite x at_ 16 (n + i % 2 ^ 16 * 2 ^ 64 + (if l.recv then 4 else l.z) * 2 ^ 80)
  let s := s.vaWrite x (listAt tab i + 56) 4 (l.rd + n)
  let s := s.setQueueAt qk { q with
    batches := KMap.set 0 q.batches (256 * i + b) (q.free + 1), appended := KMap.set [] q.appended i ((KMap.get [] q.appended i).drop n) }
  let s := s.makeRecord qk l.lent at_ 0 (l.pri + l.cls * 4 + i % 256 * 2 ^ 8 + 2 ^ 16) 0#64
  { s with slotted := [] }.owe (s.slotted.map fun f => .frameWorkRecord f)

/-- The WLC launches what it can of a list: while the threshold is met, or once when `force` (R325). -/
def State.wlcTry (s : State) (qk tab i : Nat) (force : Bool) : Nat → State
  | 0 => s
  | n + 1 =>
    let l := s.wlist qk tab i
    let q := s.queueAt qk
    if l.items = 0 || !(force || l.thr ≤ l.items) || q.full l.pri then s
    else
      match (List.range l.nbat).find? fun b => KMap.get 0 q.batches (256 * i + b) == 0 with
      | some b => (s.takeBatch qk tab i b).wlcTry qk tab i false n
      | none => s

/-- Every list of the launch that waited for a batch slot or for room is tried again. -/
def State.wlcRetry (s : State) (qk : Nat) : State :=
  let tab := (s.queueAt qk).launch.wltab
  if tab = 0 then s
  else
    (List.range (s.qNat qk tab 2)).foldl (fun s i =>
      let l := s.wlist qk tab i
      let late := match KMap.get [] (s.queueAt qk).appended i with
        | c :: _ => c + l.flush ≤ s.clock
        | [] => false
      s.wlcTry qk tab i late 256) s

/-! ## Retiring a record (R206, R319, R320) -/

/-- A cohort is killed for a data error and relaunched, KRETRY times at most; then its launch fails (R395). The fault
event's cause is not stated: it is free. -/
def State.dataKill (s : State) (c : Nat) (err : Nat × Nat × Nat) : State :=
  let co := s.cohortAt c
  let h := s.homeQueue co.queue co.crec.toNat
  let q := s.queueAt h
  let i := q.index co.crec.toNat
  let n := KMap.get 0 q.retries i
  if co.status == .stopped then s
  else if n < (s.dieAt (co.cluster / 12)).kretry then
    (s.setQueueAt h { q with retries := KMap.set 0 q.retries i (n + 1) }).kill c true (some err) []
  else
    let s := s.kill c false (some err) []
    let p := s.freeVal
    (p.2.post { fault := false, queue := co.queue, entry := svcEntry 0 1 co.crec.toNat 0 0 0 0 p.1.toNat }).setLstat co.queue 3

/-- The number of cohorts of a launch (R311). -/
def Launch.cohorts (l : Launch) : Nat := l.cohx * l.cohy * l.cohz

/-- A launch is over: what the device kept for it goes (R310, R314, R315). -/
def State.endLaunch (s : State) (key : Nat) : State :=
  { s with
    queues := s.queues.map fun p => if p.2.key = key && (p.2.bound || p.2.parked) then (p.1, { p.2 with closed := true }) else p
    groups := s.groups.filter fun p => p.1 / 256 != key
    qdt := s.qdt.filter fun p => p.1 != key
    sagger := s.sagger.filter fun p => p.1 != key
    slotted := s.slotted.filter fun f => f.aux % 2 ^ 80 != key
    sent := s.sent.filter fun r => r.grp / 256 != key }

/-- Every cohort is claimed and no record lives: the launch is complete; the die that made the last subtraction says so (R320). -/
def State.completeCheck (s : State) (qk : Nat) : State :=
  let q := s.queueAt qk
  let walk := s.qNat qk (q.lrec + 224) 8
  let live := s.qNat qk (q.lrec + 232) 8
  if q.launch.cohorts ≤ walk && live = 0 then
    ((s.setLstat qk 1).post { fault := false, queue := qk, entry := svcEntry 0 3 0 0 0 0 0 0 }).endLaunch q.key
  else s

/-- A retired record returns to FREE; its regions and its batch slot are free; LIVE falls by 1 (R242, R319, R320,
R325). -/
def State.freeRecord (s : State) (qk rec : Nat) : State :=
  let h := s.homeQueue qk rec
  let q := s.queueAt h
  let idx := q.index rec
  let s := s.vaWrite (s.xlQueue h) rec 8 q.free
  let s := s.setQueueAt h { q with
    free := idx, batches := q.batches.filter fun b => b.2 != idx + 1, cohids := KMap.set 0#64 q.cohids idx 0#64,
    regions := q.regions.filter fun b => b.2 != idx + 1, retries := KMap.set 0 q.retries idx 0 }
  let live := s.qNat h (q.lrec + 232) 8
  (s.vaWrite (s.xlQueue h) (q.lrec + 232) 8 (live - 1)).wlcRetry h

/-- The parent's join falls by 1; a suspended parent at zero is enqueued (R206). -/
def State.joinParent (s : State) (qk parent : Nat) : State :=
  if parent = 0 then s
  else
    let h := s.homeQueue qk parent
    let j := s.qNat h (parent + 24) 4
    let s := s.vaWrite (s.xlQueue h) (parent + 24) 4 (j + 2 ^ 32 - 1)
    let ctl := s.recCtl h parent
    if j = 1 && ctl.testBit 6 then
      (s.setSusp h parent false).enqueue h ((s.queueAt h).index parent) (ctl % 4)
    else s

/-- RECORD_RETIRE and LAUNCH_COMPLETE (R206, R320). -/
def State.retire (s : State) (qk rec : Nat) : State :=
  let h := s.homeQueue qk rec
  let parent := s.qNat h (rec + 16) 8
  ((s.freeRecord qk rec).joinParent qk parent).completeCheck qk

/-- DONE.C: the record takes its new code address and waits for its children, or is enqueued (R206). -/
def State.suspend (s : State) (qk rec : Nat) (code : DWord) : State :=
  let h := s.homeQueue qk rec
  let s := s.vaWrite (s.xlQueue h) rec 8 code.toNat
  let j := s.qNat h (rec + 24) 4
  if j = 0 then (s.setSusp h rec false).enqueue h ((s.queueAt h).index rec) (s.recCtl h rec % 4)
  else s.setSusp h rec true

/-! ## The end of a team and of a cohort (R103, R206) -/

/-- The three conditions of R206. -/
def State.teamDone (s : State) (t : Nat) : Bool :=
  let tm := s.teamAt t
  tm.pixels = 0 && tm.gangs.all fun k =>
    (s.gangAt k).ended && (match (s.gangAt k).partner with
      | some p => (s.gangAt p).ended
      | none => true)

/-- TEAM_END: when every team of the record has ended the record ends (R206). -/
def State.cohortEnd (s : State) (c : Nat) : State :=
  let co := s.cohortAt c
  if co.status == .running && co.teams.all s.teamDone then
    let s := s.force (s.clockOf (co.cluster / 12))
    let s := co.teams.foldl (fun s t => (if co.pixel then s else s.leftCore t).setTeamAt t { s.teamAt t with status := .ended }) s
    let s := s.unrun (s.gangsOf c)
    let s := s.setCohortAt c { co with status := .stopped }
    let s := match co.pixel, co.donec with
      | true, _ => s
      | false, some a => s.suspend co.queue co.crec.toNat a
      | false, none => s.retire co.queue co.crec.toNat
    s.owe [.placementDecision (co.cluster / 12)]
  else s

/-- The root looks at its open numbers, and at the results it keeps, again: bit 35 of a vote frame's word, and no votes. -/
def State.relook (s : State) (gk : Nat) : State :=
  let g := s.groupAt gk
  s.owe ((g.root.map (·.1) ++ g.results.map (·.1)).map fun n => .frameVote (groupFrame 10 s.modn s.modn gk n (2 ^ 35) 0))

/-- An ended gang counts in the votes it has not cast: a root on this module looks again, one of another module is told the gang's vote
counter (bits 35 and 37 of a vote frame's word) (R109, R290). -/
def State.revote (s : State) (k : Nat) : State :=
  let g := s.gangAt k
  (grpmList (s.teamAt g.team).grpm).foldl (fun s x =>
    let gk := s.groupKey g.team x.2
    let root := (s.groupAt gk).rootm
    if root = s.modn then s.relook gk
    else s.sendFrame (groupFrame 10 s.modn root gk (KMap.get 0#16 g.vcnt x.1).toNat (2 ^ 35 + 2 ^ 37 + 1) 0)) s

/-- All present lanes of a gang have exited (R103). -/
def Gang.allExited (g : Gang) : Bool := g.liveSlices.isEmpty

/-- The counters of WAITC (R173). -/
def Gang.drained (g : Gang) : Bool := g.loads.isEmpty && g.commits.isEmpty && g.stores.isEmpty && g.engs.isEmpty && g.nets.isEmpty && g.pios.isEmpty

/-- An operation of a team starts once every gang that has not ended has issued it (R210). -/
def State.collReady (s : State) (team : Nat) (c : CollIssue) : Bool :=
  !c.started && (s.teamAt team).gangs.all fun k => (s.gangAt k).ended || c.gangs.any fun x => x.1 == k

/-- The operations of a team that can start are owed their start. -/
def State.collTry (s : State) (team : Nat) : State :=
  let t := s.teamAt team
  let rdy := t.colls.filter (s.collReady team)
  if rdy.isEmpty then s
  else
    (s.setTeamAt team { t with colls := t.colls.map fun c => if s.collReady team c then { c with started := true } else c }).owe
      (rdy.map fun c => .collComplete team c.grp c.num)

/-- A gang whose lanes have all exited ends once its counters are zero; a lintel program also waits for its matrix
operations (R103). -/
def State.endCheck (s : State) (k : Nat) : State :=
  let g := s.gangAt k
  if g.ended || !g.allExited || !g.drained || g.hold != .exiting then s
  else if g.kind == .lintel then
    if !(s.mxAt (s.clusterOfGang k)).ops.isEmpty then s
    else (s.endLintel k).cohortEnd (s.teamAt g.team).cohort
  else
    let s := s.setGangAt k { g with ended := true, hold := .no }
    let s := if g.kdirty.isEmpty && g.ret.isEmpty then s else s.flushStack true k
    let s := s.unrun [k]
    let s := if g.quads.isEmpty then s else s.owe [.fragmentBlend k]
    let s := s.collTry g.team
    if (s.queueOf g.team).bound then (s.revote k).cohortEnd (s.teamAt g.team).cohort else s

/-- Lanes exit (R103). -/
def State.exitLanes (s : State) (m : Word) : State :=
  let g := s.gang
  let g := { g with exited := g.exited ||| m }
  if g.allExited then (s.setGang { g with hold := .exiting }).endCheck s.gk
  else if (g.partSlices s.pt).isEmpty then s.setGang g
  else s.done (s.setGang g)

end Sys2Proof.Machine
end

