-- ==== Sys2Proof/Machine/Access.lean ====
section
/-! DEFINITION. Memory accesses of a gang: the checks of R151, held bytes (R105, R110), loads, stores and their
performance in every space (R150 to R156, R226, R242, R273, R378, R419). -/

namespace Sys2Proof.Machine

/-- One lane's access. The group form uses lane 32. -/
structure Acc where
  lane : Nat
  ea   : VAddr
  loc  : Loc
  deriving DecidableEq, Repr

/-! ## The peer I/O space (R378) -/

/-- The lowest valid aperture entry of the context that covers the whole access. -/
def State.aperOf (s : State) (ctxn : Nat) (a n : Nat) : Option Aper :=
  ((List.range 64).map fun i => KMap.get {} s.aper i).find? fun e =>
    e.v && (e.ctxn == ctxn || e.ctxn == 0xFFFF) && e.pbase ≤ a && a + n ≤ e.pbase + e.psize

def State.checkPeer (s : State) (x : Xl) (nd : Need) (n : Nat) (ea : VAddr) : Chk :=
  if 2 ^ 64 ≤ ea.toNat then .perm
  else
    match s.aperOf x.ctx.ctxn ea.toNat n with
    | some e => if (!nd.r || e.rd) && (!nd.w || e.wr) then .ok (.peer ea.toNat) else .perm
    | none => .perm

/-! ## The checks of R151 -/

/-- One access of `n` bytes. A K access that misses the stack cache fills its line; one that hits needs no page (R244). -/
def State.checkAcc (s : State) (gk sp n : Nat) (nd : Need) (ea : VAddr) : Chk × State :=
  let g := s.gangAt gk
  let x := s.xlOf g.team
  let aligned := ea.toNat % n == 0
  match sp with
  | 0 => if aligned then s.checkG x nd ea else (.align, s)
  | 3 =>
    if g.stklim.toNat < ea.toNat + n then (.range, s)
    else if !aligned then (.align, s)
    else if (KMap.get none g.kdata ea.toNat).isSome then (.ok (.stack ea.toNat 0), s)
    else
      match s.xlate x (g.stackVa ea.toNat) with
      | (.page pa leaf, s) =>
        if entR leaf && entW leaf then (.ok (.stack ea.toNat pa), if s.portDown pa then s else s.fillStack gk (g.stackLine ea.toNat))
        else (.perm, s)
      | (.absent, s) => (.absent, s)
      | (_, s) => (.perm, s)
  | 4 => (if aligned then s.checkPeer x nd n ea else .align, s)
  | _ =>
    if sp = 1 && g.kind == .lintel then (.perm, s)
    else
      match s.spadLoc g sp n ea with
      | none => (.range, s)
      | some (t, off) => (if aligned then .ok (.spad t off) else .align, s)

/-- The checks of every lane in turn. -/
def State.checkAll (s : State) (gk sp n : Nat) (nd : Need) : List (Nat × VAddr) → List (Nat × VAddr × Chk) × State
  | [] => ([], s)
  | (l, ea) :: r =>
    let c := s.checkAcc gk sp n nd ea
    let p := c.2.checkAll gk sp n nd r
    ((l, ea, c.1) :: p.1, p.2)

/-- The key of the 32-byte block a place lies in, for the locks of held atomics (R110). -/
def Loc.block : Loc → Option (Nat × Nat)
  | .mem pa _ => some (0, pa / 32)
  | .spad t off => some (1, (t * 2 ^ 20 + off) / 32)
  | _ => none

/-- The stores a gang holds, oldest first. -/
def Gang.heldList (g : Gang) : List Held :=
  match g.ahead, g.rel with
  | some a, _ => a.held
  | none, some r => r.held
  | none, none => []

/-- Another gang's held atomic, not yet performed, locks the place (R110). -/
def State.lockedFor (s : State) (gk : Nat) (loc : Loc) : Bool :=
  match loc.block with
  | none => false
  | some b => s.gangs.any fun p => p.1 != gk && (p.2.heldList ++ p.2.commits).any fun h => h.locks.contains b

/-- A held atomic locks some of these bytes of memory against accesses that no gang of the module makes itself. -/
def State.lockedPas (s : State) (pas : List Nat) : Bool := pas.any fun pa => s.lockedFor (2 ^ 64) (.mem pa 0#64)

/-- The physical address behind a place. -/
def Loc.pa : Loc → Nat
  | .mem pa _ => pa
  | .stack _ pa => pa
  | _ => 0

/-- A read of the place is a data error: the link of its port is down (R377). -/
def State.downLoc (s : State) (l : Loc) : Bool := s.portDown l.pa

/-- What a set of accesses comes to: the state the instruction ends in, or its places. -/
inductive Plan where
  | stop (s : State)
  | go (s : State) (l : List Acc)

/-- The lowest byte of a group form's operand that lies outside its space (R237). -/
def State.outByte (s : State) (g : Gang) (sp : Nat) (ea : VAddr) : VAddr :=
  let lim : Nat :=
    match sp with
    | 1 => (s.teamAt g.team).spsz
    | 2 =>
      if 2 ^ 24 ≤ ea.toNat then 0
      else
        match s.teamByC (s.teamAt g.team).cohort (ea.toNat / 2 ^ 20) with
        | some t => ea.toNat / 2 ^ 20 * 2 ^ 20 + (s.teamAt t).spsz
        | none => 0
    | _ => 0
  if ea.toNat < lim then BitVec.ofNat 72 lim else ea

/-- The accesses of one instruction (R151): traps in the order of the checks, then the cohort fault of a page that is not
resident, which stops run-ahead instead (R110, R342). -/
def State.plan (s : State) (sp n : Nat) (nd : Need) (grp : Bool) (l : List (Nat × VAddr)) : Plan :=
  let r := s.checkAll s.gk sp n nd l
  let s := r.2
  let failing := fun (c : Chk) => r.1.filter fun p => p.2.2 == c
  let raise := fun (cause : Nat) (bad : List (Nat × VAddr × Chk)) (info : VAddr) =>
    let m := if s.gang.kind == .lintel then 0#32 else if grp then s.gang.trapLanes s.pt else maskOf fun i => bad.any (·.1 == i)
    Plan.stop (s.trapLanes cause m (info.setWidth 64))
  match failing .range, failing .align, failing .perm, failing .absent with
  | p :: b, _, _, _ =>
    raise (if sp = 3 then 18 else 17) (p :: b) (if grp && sp != 3 then s.outByte s.gang sp p.2.1 else p.2.1)
  | [], p :: b, _, _ => raise 20 (p :: b) p.2.1
  | [], [], p :: b, _ => raise 20 (p :: b) p.2.1
  | [], [], [], p :: b =>
    if s.gang.ahead.isSome then .stop s.halt
    else
      let acc := if nd.w then (if nd.r then 3 else 1) else 0
      let va := fun (a : VAddr) => if sp = 3 then BitVec.ofNat 72 (s.gang.stackVa a.toNat) else a
      .stop (s.cohortFault ((p :: b).map fun q => (va q.2.1, acc)))
  | [], [], [], [] =>
    let accs := r.1.filterMap fun p => match p.2.2 with
      | .ok loc => some { lane := p.1, ea := p.2.1, loc := loc : Acc }
      | _ => none
    match (if nd.r then accs.find? fun a => s.downLoc a.loc else none) with
    | some a => .stop (s.consume s.gk a.loc.pa)
    | none => if accs.any fun a => s.lockedFor s.gk a.loc then .stop s else .go s accs

/-! ## Held bytes (R105, R110) -/

/-- The gang holds its stores. -/
def Gang.holds (g : Gang) : Bool := g.ahead.isSome || g.rel.isSome

def Gang.putHeld (g : Gang) (h : Held) : Gang :=
  match g.ahead, g.rel with
  | some a, _ => { g with ahead := some { a with held := a.held ++ [h] } }
  | none, some r => { g with rel := some { r with held := r.held ++ [h] } }
  | none, none => g

/-- Space and address that name a byte for the gang: C addresses of its own team count as S. -/
def State.keyOf (s : State) (g : Gang) (sp : Nat) (ea : Nat) : Nat × Nat :=
  if sp = 2 && ea / 2 ^ 20 == (s.teamAt g.team).teamid && g.kind != .lintel then (1, ea % 2 ^ 20) else (sp, ea)

/-- The newest held byte at an address. -/
def Gang.heldByte (g : Gang) (key : Nat × Nat) : Option Byte :=
  g.heldList.foldl (fun b h => if h.space = key.1 then (byteIn h.bytes key.2).or b else b) none

/-! ## Access frames and requests that leave the module (R273, R379) -/

/-- Fields common to the access frames of a gang (log entry 23, DESIGN CHOICE). -/
def accessFrame (cls scp ord modn die tag addr : Nat) : Frame :=
  { psn := 0, cls := cls, scp := scp, ord := ord, srcm := 0, dstm := modn, sdie := die, ddie := 0, len := 0,
    tag := tag % 2 ^ 20, addr := addr, aux := 0, body := [] }

/-- A 64-byte beat with bytes at an offset. -/
def beat (off : Nat) (b : List Byte) : List Byte :=
  (List.range 64).map fun i => if off ≤ i then b.getD (i - off) 0#8 else 0#8

/-- A payload filled to whole beats, and the beats of a payload (R272). -/
def padBeats (b : List Byte) : List Byte := (List.range ((b.length + 63) / 64 * 64)).map fun i => b.getD i 0#8
def beatsOf (b : List Byte) : Nat := (b.length + 63) / 64

/-- A release as it travels in one beat: its scope, and who released (R227, log entry 23, DESIGN CHOICE). -/
def Tag.wire (t : Tag) : List Byte :=
  beat 0 (leBytes 1 t.scp ++ leBytes 1 t.die ++ leBytes 2 t.modn ++ leBytes 16 t.gang ++ leBytes 16 t.team ++ leBytes 16 t.cohort)

/-- The release that a beat carries. -/
def tagOfWire (b : List Byte) : Tag :=
  let n := fun lo len => leNat ((b.drop lo).take len)
  { scp := n 0 1, die := n 1 1, modn := n 2 2, gang := n 4 16, team := n 20 16, cohort := n 36 16 }

/-! ## Loads -/

/-! ### Stale copies of swing buffers in the L1 (R231, R239 to R241; log entry 96, DESIGN CHOICE) -/

/-- The name of a byte of a swing buffer in the L1s: the physical address behind the buffer's own range. -/
def State.lineKey (s : State) (x : Xl) (va : Nat) : Option Nat :=
  match (s.lookup x va).1 with
  | .page pa _ => some pa
  | _ => none

/-- The core may serve a cluster's lintel core: in service, not drained, not the firmware core (R241). -/
def State.mayHost (s : State) (core : Nat) : Bool :=
  !(s.coreAt core).shut && !(s.coreAt core).drained && (s.dieAt (dieOf core)).fwcore != some core

/-- The core whose L1 serves a gang; the eight L1s of a fused cluster are kept as the first one's (R240, R241). -/
def State.l1Core (s : State) (gk : Nat) : Option Nat :=
  let g := s.gangAt gk
  let core := (s.teamAt g.team).core
  let c := clusterOf core
  let hosts := ((List.range 8).map (8 * c + ·)).filter s.mayHost
  if g.kind == .lintel then
    if (s.mxAt c).fused then (if hosts.isEmpty then none else some (8 * c)) else hosts.head?
  else if (s.mxAt c).fused then some (8 * c)
  else some core

/-- The byte of a copy that a swing has left behind, where the gang's L1 still holds one. -/
def State.staleByte (s : State) (gk va : Nat) : Option Byte :=
  match s.l1Core gk with
  | some c =>
    let m := (s.coreAt c).stale
    if m.isEmpty then none else (s.lineKey (s.xlOf (s.gangAt gk).team) va).bind fun k => KMap.get none m k
  | none => none

/-- L1 copies whose keys are in `p` go, on the cores in `on`. -/
def State.dropL1 (s : State) (on p : Nat → Bool) : State :=
  s.mapCores fun n c =>
    if on n then { c with l1 := c.l1.filter fun k => !p k, stale := c.stale.filter fun e => !p e.1 } else c

/-- The bytes of a store are those of every L1 copy too: nothing of them is stale. -/
def State.freshen (s : State) (gk : Nat) (l : List (Acc × Nat)) : State :=
  if s.cores.all fun c => c.2.stale.isEmpty then s
  else
    let x := s.xlOf (s.gangAt gk).team
    let keys := l.flatMap fun p => (List.range p.2).filterMap fun i => s.lineKey x (p.1.ea.toNat + i)
    s.mapCores fun _ c => { c with stale := c.stale.filter fun e => !keys.contains e.1 }

/-- Whether a copy that a swing has left behind is still there is the cache's choice, line by line: it is free. -/
def State.l1Pick (s : State) (n : Nat) (l : List Acc) : State :=
  l.foldl (fun s a =>
    if (List.range n).any fun i => (s.staleByte s.gk (a.ea.toNat + i)).isSome then
      let p := s.freePick 2
      let line := ((s.lineKey (s.xlOf s.gang.team) a.ea.toNat).getD 0) / 128
      if p.1 = 0 then p.2 else p.2.dropL1 (fun c => some c == s.l1Core s.gk) fun k => k / 128 == line
    else s) s

/-- Loads fill lines of swing buffers into the L1, where the access's policy fills it (R155, R248). -/
def State.fillL1 (s : State) (gk ch : Nat) (l : List Acc) : State :=
  let x := s.xlOf (s.gangAt gk).team
  l.foldl (fun s a =>
    match a.loc, s.l1Core gk with
    | .mem _ leaf, some c =>
      let pol := if ch = 0 then entPol leaf else ch
      if (x.swingOf a.ea.toNat).isSome && (pol = 0 || pol = 2) then
        match s.lineKey x (a.ea.toNat / 128 * 128) with
        | some key =>
          let k := s.coreAt c
          if k.l1.contains key then s else s.setCoreAt c { k with l1 := k.l1 ++ [key] }
        | none => s
      else s
    | _, _ => s) s

/-! ### Partition 7 (R246 to R248; log entry 111, DESIGN CHOICE) -/

/-- The name of a byte of another module in partition 7. -/
def farName (modn rctx va : Nat) : Nat := 2 ^ 58 + (modn * 2 ^ 16 + rctx) * 2 ^ 64 + va

/-- The name under which partition 7 can hold a place, and the die whose L2 it is in: the home of the line, or for lines of other modules
the reader's die (R246). -/
def Loc.p7Name : Loc → Option Nat
  | .mem pa leaf => if entPart leaf = 7 then some pa else none
  | .far m c va => some (farName m c va)
  | _ => none
def Loc.p7Die (die : Nat) : Loc → Nat
  | .mem pa _ => homeDie pa
  | _ => die

/-- The byte that partition 7 holds of a place. -/
def State.p7Byte (s : State) (die : Nat) (loc : Loc) (i : Nat) : Option Byte :=
  loc.p7Name.bind fun k => KMap.get none (s.dieAt (loc.p7Die die)).p7 (k + i)

/-- The place answers within the module. -/
def Loc.here : Loc → Bool
  | .far .. => false
  | .peer _ => false
  | _ => true

/-- A read of `n` bytes needs no request: the place is the module's, or partition 7 holds it. -/
def State.near (s : State) (die n : Nat) (a : Acc) : Bool :=
  a.loc.here || (List.range n).all fun i => (s.p7Byte die a.loc i).isSome

/-- Partition 7 of the line's set has a way that is not retired (R247, R394). -/
def State.p7Room (s : State) (d pa : Nat) : Bool :=
  (List.range 16).any fun w => ((s.dieAt d).l2pm.getD 7 0#16).getLsbD w && !s.ways.contains (96 * d + l2Slice pa, l2Set pa, w)

/-- A line joins partition 7 of a die, by the name and the bytes of it. -/
def State.putP7 (s : State) (d name : Nat) (b : Nat → Byte) : State :=
  let x := s.dieAt d
  s.setDieAt d { x with p7 := (List.range 128).foldl (fun m i => KMap.set none m (name + i) (some (b i))) x.p7 }

/-- Accesses fill the lines that partition 7 does not hold, with what they return, unless policy or mask makes the fill a bypass (R155,
R247, R248). -/
def State.fillP7 (s : State) (gk ch : Nat) (l : List Acc) : State :=
  let die := s.dieOfGang gk
  l.foldl (fun s a =>
    match a.loc with
    | .mem pa leaf =>
      let pb := pa / 128 * 128
      let d := homeDie pa
      let pol := if ch = 0 then entPol leaf else ch
      if entPart leaf = 7 && pol != 3 && s.p7Room d pa && (KMap.get none (s.dieAt d).p7 pb).isNone then
        s.putP7 d pb fun i => s.byteAt die (pb + i)
      else s
    | _ => s) s

/-- Whether a line of partition 7 has aged out is the cache's choice: it is free where it makes a difference. -/
def State.p7Pick (s : State) (die n : Nat) (l : List Acc) (now : State → Nat → Byte := fun s => s.byteAt die) : State :=
  l.foldl (fun s a =>
    let differs := match a.loc with
      | .mem pa _ => (List.range n).any fun i => (s.p7Byte die a.loc i).any fun b => b != now s (pa + i)
      | loc => (s.p7Byte die loc 0).isSome
    match differs, a.loc.p7Name with
    | true, some name =>
      let p := s.freePick 2
      let d := a.loc.p7Die die
      if p.1 = 0 then p.2
      else p.2.setDieAt d { p.2.dieAt d with p7 := (p.2.dieAt d).p7.filter fun e => e.1 / 128 != name / 128 }
    | _, _ => s) s

/-- A byte as loads of a gang return it: held bytes first, then partition 7, a stale copy, and what its die sees (R105, R154, R224,
R239, R248). -/
def State.seenByte (s : State) (gk : Nat) (key : Nat × Nat) (loc : Loc) (va i : Nat) : Byte :=
  let g := s.gangAt gk
  let d := s.dieOfGang gk
  match (g.heldByte key).or (s.p7Byte d loc i) with
  | some b => b
  | none =>
    match loc with
    | .mem pa _ => (s.staleByte gk va).getD (s.byteAt d (pa + i))
    | .spad t off => (s.teamAt t).spadAt (off + i)
    | .stack off pa => (KMap.get none g.kdata (off + i)).getD (s.byteAt d (pa + i))
    | _ => 0#8

/-- The bytes that a near access reads. -/
def State.readLoc (s : State) (gk sp n : Nat) (a : Acc) : List Byte :=
  let g := s.gangAt gk
  (List.range n).map fun i => s.seenByte gk (s.keyOf g sp (a.ea.toNat + i)) a.loc (a.ea.toNat + i) i

/-- The dies' clocks after the loads of a list of places (R224). -/
def State.noteReads (s : State) (n : Nat) (l : List Acc) : State :=
  let pas := l.flatMap fun a => match a.loc with
    | .mem pa _ => (List.range n).map (pa + ·)
    | _ => []
  if pas.isEmpty then s else s.noteRead s.die pas

/-- Release tags that a load reads: an acquire checks them, a relaxed load remembers them (R226, R227). -/
def State.syncTags (s : State) (gk scp ord : Nat) (ts : List Tag) : State :=
  if ts.isEmpty then s
  else if ord = 1 || ord = 3 then s.acquire gk scp ts
  else s.setGangAt gk { s.gangAt gk with seen := ((s.gangAt gk).seen ++ ts).eraseDups }

/-- The access returns what its die sees of the place, and no older copy. -/
def State.newest (s : State) (sp n : Nat) (a : Acc) : Bool :=
  match a.loc with
  | .mem pa _ => (List.range n).all fun i =>
      match (s.p7Byte s.die a.loc i).or (if sp = 0 then s.staleByte s.gk (a.ea.toNat + i) else none) with
      | some b => b == s.byteAt s.die (pa + i)
      | none => true
  | _ => true

/-- The releases that loads of the issuing gang return; an older copy stands for none. -/
def State.syncRead (s : State) (sp scp ord n : Nat) (l : List Acc) : State :=
  s.syncTags s.gk scp ord ((l.filter (s.newest sp n)).flatMap fun a => s.tagsAt s.die a.loc n).eraseDups

/-- The reads of a list that leave the module: one frame or request for each place, whichever lanes name it (R153, R273, R379). The result
gives the tag that each lane awaits; `known` are the places asked for already. -/
def State.askFrom (s : State) (scp ord ch n : Nat) : List (Loc × Nat) → List Acc → List (Nat × Nat) × State
  | _, [] => ([], s)
  | known, a :: r =>
    match known.find? fun k => k.1 == a.loc with
    | some k =>
      let p := s.askFrom scp ord ch n known r
      ((k.2, a.lane) :: p.1, p.2)
    | none =>
      match a.loc with
      | .far m c va =>
        let id := s.nextId
        let f := { accessFrame 0 scp ord m s.die id va with aux := c + n * 2 ^ 16 + ch * 2 ^ 24 }
        let p := ({ s with nextId := id + 1 }.sendFrame f).askFrom scp ord ch n ((a.loc, id % 2 ^ 20) :: known) r
        ((id % 2 ^ 20, a.lane) :: p.1, p.2)
      | .peer addr =>
        let id := s.nextId
        let e := (s.aperOf s.queue.ctx.ctxn addr n).getD {}
        let q : PcieReq :=
          { id := id, gang := s.gk, addr := e.pcia + (addr - e.pbase), body := none, len := n, ro := true,
            pasid := if e.pv then some e.pasid else none }
        let s := s.setGang { s.gang with pios := s.gang.pios ++ [id] }
        let p := ({ s with nextId := id + 1, pcieOut := s.pcieOut ++ [q] }).askFrom scp ord ch n ((a.loc, id % 2 ^ 20) :: known) r
        ((id % 2 ^ 20, a.lane) :: p.1, p.2)
      | _ => s.askFrom scp ord ch n known r

def State.askAway (s : State) (scp ord ch n : Nat) (l : List Acc) : List (Nat × Nat) × State := s.askFrom scp ord ch n [] l

/-! ## Stores -/

/-- The stack cache takes bytes; their lines are dirty (R244). -/
def Gang.putStack (g : Gang) (l : List (Nat × Byte)) : Gang :=
  { g with
    kdata := l.foldl (fun m p => KMap.set none m p.1 (some p.2)) g.kdata
    kdirty := (g.kdirty ++ l.map fun p => g.stackLine p.1).eraseDups }

/-- The bytes of one store on another module, by 64-byte beat: of lanes that write one byte the highest remains (R154). -/
def farBeats (l : List (Acc × List Byte)) : List ((Nat × Nat × Nat) × List (Nat × Byte)) :=
  let bs := l.flatMap fun p => match p.1.loc with
    | .far m c va => p.2.zipIdx.map fun b => ((m, c, (va + b.2) / 64), (va + b.2) % 64, b.1)
    | _ => []
  ((bs.map (·.1)).eraseDups).map fun k => (k, (bs.filter fun b => b.1 == k).map (·.2))

/-- One beat of a store leaves as a write frame. -/
def State.sendBeat (s : State) (gk scp ord : Nat) (tag : Option Tag) (b : (Nat × Nat × Nat) × List (Nat × Byte)) : State :=
  let id := s.nextId
  let mask := (b.2.map (·.1)).eraseDups.foldl (fun m i => m + 2 ^ i) 0
  let data := (List.range 64).map fun i => (byteIn b.2 i).getD 0#8
  let low := (b.2.map (·.1)).foldl min 63
  let body := data ++ (match tag with
    | some t => t.wire
    | none => [])
  let f := { accessFrame 2 ((tag.map (·.scp)).getD scp) (ord ||| (if tag.isSome then 2 else 0)) b.1.1 (s.dieOfGang gk) id (64 * b.1.2.2 + low) with
    len := beatsOf body, aux := mask + b.1.2.1 * 2 ^ 64, body := body }
  let g := s.gangAt gk
  { s.setGangAt gk { g with stores := g.stores ++ [id] } with nextId := id + 1 }.sendFrame f

/-- The last of several writes to one peer address is the highest lane's (R154). -/
def lastPeer : List (Acc × List Byte) → List (Acc × List Byte)
  | [] => []
  | x :: r =>
    match x.1.loc with
    | .peer _ => if r.any fun y => y.1.loc == x.1.loc then lastPeer r else x :: lastPeer r
    | _ => lastPeer r

/-- A posted write to a peer (R156, R232, R379). -/
def State.postPeer (s : State) (gk scp ord : Nat) (p : Acc × List Byte) : State :=
  match p.1.loc with
  | .peer addr =>
    let id := s.nextId
    let e := (s.aperOf (s.queueOf (s.gangAt gk).team).ctx.ctxn addr p.2.length).getD {}
    let strict := (ord = 2 && scp = 6) || (s.gangAt gk).relScp == some 6
    let q : PcieReq :=
      { id := id, gang := gk, addr := e.pcia + (addr - e.pbase), body := some p.2, len := p.2.length, ro := !strict,
        pasid := if e.pv then some e.pasid else none }
    let g := s.gangAt gk
    ({ s.setGangAt gk { g with pios := g.pios ++ [id] } with nextId := id + 1, pcieOut := s.pcieOut ++ [q] }).owe [.storePerformed gk id]
  | _ => s

/-- A store on this module: G as one store of its die, S and C at the scratchpad, K in the stack cache (R154, R224, R229, R244). -/
def State.storeHere (s : State) (gk : Nat) (tags : List Tag) (l : List (Acc × List Byte)) : State :=
  let mem := l.flatMap fun p => match p.1.loc with
    | .mem pa _ => p.2.zipIdx.map fun b => (pa + b.2, b.1)
    | _ => []
  let s :=
    if mem.isEmpty then s
    else
      let s := (s.logDown (mem.map (·.1))).freshen gk (l.filterMap fun p => match p.1.loc with
        | .mem .. => some (p.1, p.2.length)
        | _ => none)
      let r := s.store (s.dieOfGang gk) mem tags
      let g := r.2.gangAt gk
      (r.2.setGangAt gk { g with stores := g.stores ++ [r.1] }).owe [.storePerformed gk r.1]
  let stack := l.flatMap fun p => match p.1.loc with
    | .stack off _ => p.2.zipIdx.map fun b => (off + b.2, b.1)
    | _ => []
  let s := if stack.isEmpty then s else (s.setGangAt gk ((s.gangAt gk).putStack stack)).spillPick gk
  l.foldl (fun s p =>
    match p.1.loc with
    | .spad t off => s.spadWrite t off p.2 tags
    | _ => s) s

/-- Stores of a gang leave in order (R154, R156, R223): those on this module, frames to other modules, posted writes to peers. -/
def State.storeAll (s : State) (gk scp ord : Nat) (l : List (Acc × List Byte)) : State :=
  let tag := State.storeTag { s with gk := gk } scp ord
  let s := s.storeHere gk tag.toList l
  let s := (farBeats l).foldl (fun s b => s.sendBeat gk scp ord tag b) s
  (lastPeer l).foldl (fun s p => s.postPeer gk scp ord p) s

/-- The stores of one instruction: held, or performed (R105, R110). -/
def State.storeOrHold (s : State) (sp scp ord : Nat) (l : List (Acc × List Byte)) : State :=
  if s.gang.holds then
    let bytes := l.flatMap fun p => p.2.zipIdx.map fun b => ((s.keyOf s.gang sp (p.1.ea.toNat + b.2)).2, b.1)
    let space := match l with
      | p :: _ => (s.keyOf s.gang sp p.1.ea.toNat).1
      | [] => sp
    s.setGang (s.gang.putHeld { space := space, bytes := bytes, scp := scp, ord := ord })
  else s.storeAll s.gk scp ord l

/-! ## What a gang's accesses wait for (R228, R273; log entry 27, DESIGN CHOICE) -/

/-- An acquire of another module's memory is awaited. -/
def Gang.heldBack (g : Gang) : Bool := g.loads.any fun p => p.acq && !p.await.isEmpty

/-- Some load's value is not fixed yet. -/
def Gang.loadsOut (g : Gang) : Bool := g.loads.any fun p => !p.await.isEmpty

/-- Some access outside the module is not answered. -/
def Gang.farBusy (g : Gang) : Bool := g.loadsOut || !g.stores.isEmpty

/-- The issuing gang has stores outside the module that are not acknowledged: a copy's reads, a barrier and a rendezvous come after them
(R170, R228, R229). -/
def State.farStores (s : State) : Bool := !s.gang.pios.isEmpty || s.gang.stores.any fun i => !s.log.any fun e => e.id == i

/-- The scope of the release that a store of this order makes, if any. -/
def Gang.releaseScope (g : Gang) (scp ord : Nat) : Option Nat :=
  let own := if ord = 2 || ord = 3 then some scp else none
  match own, g.relScp with
  | none, x => x
  | x, none => x
  | some a, some b => some (max a b)

/-- Accesses to G wait for an acquire that is out, and for the gang's PUBLs to swing (R163, R228). -/
def State.accWaits (s : State) : Bool := s.gang.heldBack || s.publs.any fun p => p.gang == s.gk

/-- A store or atomic waits for earlier loads; a release at DOM or SYS waits for the gang's earlier stores (R225, R273). -/
def Gang.storeWaits (g : Gang) (scp ord : Nat) : Bool :=
  g.loadsOut ||
    (match g.releaseScope scp ord with
    | some z => 5 ≤ z && !(g.stores.isEmpty && g.pios.isEmpty)
    | none => false)

/-- The places of a plan that answer from outside the module. -/
def anyFar (l : List Acc) : Bool := l.any fun a => match a.loc with
  | .far .. => true
  | _ => false

/-! ## The commit of held stores (R105, R111, R233) -/

/-- What the home knows of these bytes is observed: every store of them, and what it follows, is visible first (R224). -/
def State.homeRead (s : State) (d : Nat) (pas : List Nat) : State :=
  if s.log.isEmpty then s
  else
    let c := s.log.foldl (fun c e =>
      if pas.any (fun a => (byteIn e.bytes a).isSome) then
        (List.range 4).map fun i => max (c.getD i 0) (e.own.getD i 0)
      else c) (s.clockOf d)
    (s.setClock d c).force c

/-- Where the bytes of a held store go: the places its addresses translate to now, a page that is not resident, and an address that may not
be written (R419). -/
def State.heldPlaces (s : State) (gk : Nat) (h : Held) : List (Acc × List Byte) × Option VAddr × Option VAddr × State :=
  h.bytes.foldl (fun (p : List (Acc × List Byte) × Option VAddr × Option VAddr × State) b =>
    let ea := BitVec.ofNat 72 b.1
    let nd : Need := { r := h.space == 3, w := true }
    let c := p.2.2.2.checkAcc gk h.space 1 nd ea
    match c.1 with
    | .ok loc => (p.1 ++ [(Acc.mk 32 ea loc, [b.2])], p.2.1, p.2.2.1, c.2)
    | .absent => (p.1, p.2.1.or (some ea), p.2.2.1, c.2)
    | _ => (p.1, p.2.1, p.2.2.1.or (some ea), c.2)) ([], none, none, s)

/-- The write of a held atomic: in one instant at its home, carrying on the releases that stand there (R221, R226). -/
def State.performAtom (s : State) (gk : Nat) (h : Held) (l : List (Acc × List Byte)) : State :=
  let ts := l.flatMap fun p => s.tagsNow p.1.loc 1
  let tags := ((State.storeTag { s with gk := gk } h.scp h.ord).toList ++ ts).eraseDups
  let mem := l.flatMap fun p => match p.1.loc with
    | .mem pa _ => p.2.zipIdx.map fun b => (pa + b.2, b.1)
    | _ => []
  let d := s.dieOfGang gk
  let s :=
    if mem.isEmpty then s
    else (((s.logDown (mem.map (·.1))).freshen gk (l.map fun p => (p.1, 1))).homeRead d (mem.map (·.1))).writeNow d mem tags
  l.foldl (fun s p => match p.1.loc with
    | .spad t off => s.spadWrite t off p.2 tags
    | _ => s) s

/-- The oldest committed store of a gang is performed, or asks for the page it waits for; none where it has to wait: for earlier loads, as
a release for acknowledgements, for accesses of other modules, or for another gang's lock (R110, R225, R226, R228, R273). One that may
not be written has no effect, and the gang takes the trap (R419). -/
def State.commitStep (s : State) (gk : Nat) : Option State :=
  let g := s.gangAt gk
  match g.commits with
  | [] => none
  | h :: r =>
    if h.fault.isSome || g.storeWaits h.scp h.ord then none
    else
      let p := s.heldPlaces gk h
      let s := p.2.2.2
      let g := s.gangAt gk
      match p.2.1, p.2.2.1 with
      | some va, _ =>
        let id := s.nextId
        some (({ s with nextId := id + 1 }.setGangAt gk { g with commits := { h with fault := some id } :: r }).engineFault gk
          (s.cohortAt (s.teamAt g.team).cohort).queue va 1 (.storePerformed gk id))
      | none, some va => some ((s.setGangAt gk { g with commits := r }).abandon gk va)
      | none, none =>
        let accs := p.1.map (·.1)
        if (anyFar accs && g.farBusy) || accs.any fun a => s.lockedFor gk a.loc then none
        else
          let s := s.setGangAt gk { g with commits := r }
          some (if h.atom then s.performAtom gk h p.1 else s.storeAll gk h.scp h.ord p.1)

/-- Committed stores of a gang are performed in program order, as far as they can be; `n` bounds their number. -/
def State.commitAll (s : State) (gk : Nat) : Nat → State
  | 0 => s
  | n + 1 =>
    match s.commitStep gk with
    | some s => s.commitAll gk n
    | none => s

/-- Held stores are committed (R105, R111). -/
def State.commit (s : State) (gk : Nat) (l : List Held) : State :=
  if l.isEmpty then s
  else
    let g := s.gangAt gk
    (s.setGangAt gk { g with commits := g.commits ++ l }).commitAll gk (g.commits.length + l.length)

/-- Committed stores that waited go on. -/
def State.commitRest (s : State) : State :=
  s.gangs.foldl (fun s p => if p.2.commits.isEmpty then s else s.commitAll p.1 p.2.commits.length) s

/-! ## Sizes (R78) -/

/-- Bytes of an access by SZ. -/
def szBytes (sz : Nat) : Nat :=
  match sz with
  | 0 => 1
  | 1 => 1
  | 2 => 2
  | 3 => 2
  | 4 => 4
  | _ => 8

/-- A value extended by SZ: S8 and S16 by sign (R153). -/
def szExtend (sz v : Nat) : DWord :=
  match sz with
  | 1 => (BitVec.ofNat 8 v).signExtend 64
  | 3 => (BitVec.ofNat 16 v).signExtend 64
  | _ => BitVec.ofNat 64 (v % 2 ^ (8 * szBytes sz))

end Sys2Proof.Machine
end

