-- ==== Sys2Proof/Machine/Control.lean ====
section
/-! DEFINITION. Control flow (R91 to R107, R113, R114): structured constructs, branches and calls, code segments, EXIT,
YIELD, TRAP, idempotent regions, the team barrier and QCFG. -/

namespace Sys2Proof.Machine

/-! ## Shared operations -/

/-- A relative target: PC + 8 × SignExtend(DISP, 24), mod 2^18 (R79). -/
def relTarget (pc : IAddr) (disp : BitVec 24) : IAddr := pc + 8#18 * disp.signExtend 18

/-- Slices of the issuing part jump; the instruction counts against a run-ahead window. -/
def State.jumpTo (s s' : State) (sl : List Nat) (a : IAddr) : State :=
  s.within (s'.setGang (s'.gang.jump sl a).tick)

/-- The target PC + 8 × SignExtend(DISP, 24) lies outside the slot that holds the branch word (R92). The sum is not reduced
here: R79 and R99 give no wrap, where R95 and R202 do (log entry 40, DEDUCED). -/
def crosses (pc : IAddr) (disp : BitVec 24) : Bool := ((pc.toNat : Int) + 8 * disp.toInt) / 4096 != (slotOf pc : Int)

/-- A segment trap at the issuing word with the address that could not be reached (R117). -/
def State.segTrap (s : State) (cause : Nat) (a : IAddr) : State := s.trap cause (a.setWidth 64)

/-! ## Structured control (R96, R97) -/

/-- New counters for the lanes of P; none where some counter would pass 63. -/
def Gang.recount (g : Gang) (p : Nat) (upd : Nat → Nat → Nat) : Option Gang :=
  let ls := lanes.filter (g.partLane p)
  if ls.any fun l => 63 < upd l (g.cntAt l).toNat then none
  else some { g with cnt := ls.foldl (fun m l => KMap.set 0#6 m l (BitVec.ofNat 6 (upd l (g.cntAt l).toNat))) g.cnt }

/-- The lanes whose counter would pass 63 (R117). -/
def Gang.overLanes (g : Gang) (p : Nat) (upd : Nat → Nat → Nat) : Word :=
  maskOf fun l => g.partLane p l && 63 < upd l (g.cntAt l).toNat

/-- No lane of P has counter 0. -/
def Gang.idle (g : Gang) (p : Nat) : Bool := !lanes.any (g.active p)

/-- Counters change, then SkipIfIdle (R97). -/
def State.structured (s : State) (f : ClassB) (upd : Gang → Nat → Nat → Nat) : State :=
  let g := s.gang
  match g.recount s.pt (upd g) with
  | none => s.trapLanes 6 (g.overLanes s.pt (upd g)) 0#64
  | some g' =>
    if g'.idle s.pt then
      let t := relTarget s.pc f.disp
      if crosses s.pc f.disp then s.segTrap 11 t else s.jumpTo (s.setGang g') (g.partSlices s.pt) t
    else s.done (s.setGang g')

def updIf (h : Header) (g : Gang) (l c : Nat) : Nat := if 0 < c then c + 1 else if g.cond h l then 0 else 1
def updElse (c : Nat) : Nat := if c = 0 then 1 else if c = 1 then 0 else c
def updEndif (c : Nat) : Nat := c - 1
def updLoop (c : Nat) : Nat := if 0 < c then c + 2 else 0
def updLeave (h : Header) (n : Nat) (g : Gang) (l c : Nat) : Nat := if c = 0 && g.cond h l then n else c

def execNop (_f : ClassB) (s : State) : Res := .next (s.done s)
def execIfK (f : ClassB) (s : State) : Res := .next (s.structured f (updIf f.h))
def execElseK (f : ClassB) (s : State) : Res := .next (s.structured f fun _ _ c => updElse c)
def execEndif (f : ClassB) (s : State) : Res := .next (s.structured f fun _ _ c => updEndif c)
def execLoop (f : ClassB) (s : State) : Res := .next (s.structured f fun _ _ c => updLoop c)
def execBrk (f : ClassB) (s : State) : Res := .next (s.structured f (updLeave f.h (f.aux8.toNat + 2)))
def execCont (f : ClassB) (s : State) : Res := .next (s.structured f (updLeave f.h (f.aux8.toNat + 1)))

/-- Counters of P after ENDLOOP's first line: 1 becomes 0. -/
def updEndloop1 (c : Nat) : Nat := if c = 1 then 0 else c
/-- Counters of P when no lane goes round again. -/
def updEndloop2 (c : Nat) : Nat := if 2 ≤ c then c - 2 else c

def execEndloop (f : ClassB) (s : State) : Res :=
  let g := s.gang
  match g.recount s.pt fun _ c => updEndloop1 c with
  | none => .next s
  | some g1 =>
    if !g1.idle s.pt then
      let t := relTarget s.pc f.disp
      .next (if crosses s.pc f.disp then s.segTrap 11 t else s.jumpTo (s.setGang g1) (g.partSlices s.pt) t)
    else
      match g1.recount s.pt fun _ c => updEndloop2 c with
      | none => .next s
      | some g2 => .next (s.done (s.setGang g2))

/-! ## Branches (R31, R99, R100) -/

/-- What a slice of the part decides: its lanes disagree, it goes on, or it jumps. -/
inductive Decision where
  | split
  | stay
  | go (a : IAddr)
  deriving DecidableEq, Repr

/-- The active lanes of a slice. -/
def Gang.activeIn (g : Gang) (p n : Nat) : List Nat := ((List.range 4).map (4 * n + ·)).filter (g.active p)

/-- A slice decides from the predicate over its own active lanes; `target` is each lane's target (R31, R100). -/
def Gang.decide_ (g : Gang) (p : Nat) (h : Header) (target : Nat → IAddr) (n : Nat) : Decision :=
  match g.activeIn p n with
  | [] => .stay
  | l :: r =>
    if r.any fun x => g.cond h x != g.cond h l then .split
    else if !g.cond h l then .stay
    else if r.any fun x => target x != target l then .split
    else .go (target l)

/-- The slices of a part with what each decides. -/
def Gang.decisions (g : Gang) (p : Nat) (h : Header) (target : Nat → IAddr) : List (Nat × Decision) :=
  (g.partSlices p).map fun n => (n, g.decide_ p h target n)

/-- The lanes of slices whose lanes disagree. -/
def splitLanes (g : Gang) (p : Nat) (ds : List (Nat × Decision)) : Word :=
  maskOf fun l => g.active p l && ds.contains (l / 4, .split)

/-- The targets decided on, each once, in slice order. -/
def targetsOf (ds : List (Nat × Decision)) : List IAddr :=
  (ds.filterMap fun d => match d.2 with
    | .go a => some a
    | _ => none).eraseDups

/-- The slices that decided on something. -/
def slicesOf (ds : List (Nat × Decision)) (d : Decision) : List Nat := (ds.filter fun x => x.2 == d).map (·.1)

/-- The part parts: slices of each target jump as a part of their own, the others go on (R31). -/
def State.partAndGo (s s' : State) (ds : List (Nat × Decision)) : State :=
  let g := s'.gang
  let ts := targetsOf ds
  let stay := slicesOf ds .stay
  let g := if ts.length + (if stay.isEmpty then 0 else 1) ≤ 1 then g
    else ts.foldl (fun g a => g.setPart (slicesOf ds (.go a))) { g.setPart stay with falls := stay.take 1 ++ g.falls }
  let g := ts.foldl (fun g a => g.jump (slicesOf ds (.go a)) a) g
  let parted := ts.length + (if stay.isEmpty then 0 else 1)
  let g := if parted ≤ 1 then g else g.emptyBypass (ds.map (·.1))
  match stay with
  | [] => s.within (s'.setGang g.tick)
  | n :: _ => s.within ((s'.setGang g).advanceFrom (g.sliceAt n).part s.pc)

/-- A relative branch of a lane form. -/
def State.branchRel (s : State) (f : ClassB) (act : List Nat → State → Option (Nat × DWord) × State) : State :=
  let g := s.gang
  let h := f.h
  let t := relTarget s.pc f.disp
  let ds := g.decisions s.pt h fun _ => t
  if ds.any fun d => d.2 == .split then s.trapLanes 7 (splitLanes g s.pt ds) 0#64
  else if (targetsOf ds).isEmpty then s.done s
  else if crosses s.pc f.disp then s.segTrap 11 t
  else
    match act (slicesOf ds (.go t)) s with
    | (some (c, i), _) => s.trap c i
    | (none, s') => s.partAndGo s' ds

/-- A relative branch of a group form. -/
def State.branchGroup (s : State) (f : ClassB) (act : List Nat → State → Option (Nat × DWord) × State) : State :=
  let g := s.gang
  let h := f.h
  let t := relTarget s.pc f.disp
  if !g.geff s.pt h then s.done s
  else if crosses s.pc f.disp then s.segTrap 11 t
  else
    match act (g.partSlices s.pt) s with
    | (some (c, i), _) => s.trap c i
    | (none, s') => s.jumpTo s' (g.partSlices s.pt) t

/-- A jump alone. -/
def noAct (_ : List Nat) (s : State) : Option (Nat × DWord) × State := (none, s)

/-- CALL: each slice that jumps pushes the next word's address; at depth 255 the call-depth trap (R101). -/
def pushAct (sl : List Nat) (s : State) : Option (Nat × DWord) × State :=
  let g := s.gang
  match sl.find? fun n => (g.sliceAt n).depth == 255#8 with
  | some n => (some (9, (g.sliceAt n).depth.setWidth 64), s)
  | none =>
    let ra := nextPc s.pc
    let g := { g with ret := sl.foldl (fun m n => KMap.set none m (256 * n + (g.sliceAt n).depth.toNat) (some ra)) g.ret }
    (none, (s.setGang (g.onSlices sl fun x => { x with depth := x.depth + 1#8 })).spillPick s.gk)

def execBra (f : ClassB) (s : State) : Res :=
  .next (if f.h.g then s.branchGroup f noAct else s.branchRel f noAct)

def execCall (f : ClassB) (s : State) : Res :=
  .next (if f.h.g then s.branchGroup f pushAct else s.branchRel f pushAct)

/-- Why an indirect target cannot be taken (R91, R92, R100). -/
def State.indirectTrap (s : State) (a : IAddr) : Option (Nat × IAddr) :=
  if a.toNat % 8 ≠ 0 then some (11, a)
  else
    match s.targetTrap a with
    | some c => some (c, a)
    | none => none

/-- Decided slices with indirect targets. -/
def State.branchInd (s : State) (ds : List (Nat × Decision)) (qs : List Nat) (ls : List Nat)
    (act : List Nat → State → Option (Nat × DWord) × State) : State :=
  let g := s.gang
  if ds.any fun d => d.2 == .split then s.trapLanes 7 (splitLanes g s.pt ds) 0#64
  else
    match ds.findSome? fun d => match d.2 with
      | .go a => s.indirectTrap a
      | _ => none with
    | some (c, a) => s.segTrap c a
    | none =>
      match act ((ds.filter fun d => d.2 != .stay).map (·.1)) (s.setGang (g.pop qs ls)) with
      | (some (c, i), _) => s.trap c i
      | (none, s') => s.partAndGo s' ds

/-- BRX and CALLX (R100). -/
def State.brx (s : State) (f : ClassA) (act : List Nat → State → Option (Nat × DWord) × State) : State :=
  if f.h.g then
    match s.groupGate f.h [f.a.toNat] false false with
    | some s' => s'
    | none =>
      let t : IAddr := (s.gang.gAt f.a.toNat).setWidth 18
      s.branchInd ((s.gang.partSlices s.pt).map fun n => (n, .go t)) [] [] act
  else
    let srcs := [Use.of f.a false]
    match s.laneGate f.h srcs [] false false with
    | some s' => s'
    | none =>
      let g := s.gang
      let ds := g.decisions s.pt f.h fun l => (g.src f.a false l).setWidth 18
      s.branchInd ds (popped srcs) (g.effLanes s.pt f.h) act

def execBrx (f : ClassA) (s : State) : Res := .next (s.brx f noAct)
def execCallx (f : ClassA) (s : State) : Res := .next (s.brx f pushAct)

/-- The key of a slice's newest return entry. -/
def Gang.retKey (g : Gang) (n : Nat) : Nat := 256 * n + (g.sliceAt n).depth.toNat - 1

/-- RET pops: the slice's depth falls by one (R101). -/
def popAct (sl : List Nat) (s : State) : Option (Nat × DWord) × State :=
  let g := s.gang
  let g := { g with ret := sl.foldl (fun m n => KMap.set none m (g.retKey n) none) g.ret }
  (none, s.setGang (g.onSlices sl fun x => { x with depth := x.depth - 1#8 }))

/-- The return address of a slice. -/
def Gang.retAddr (g : Gang) (n : Nat) : IAddr := (KMap.get none g.ret (g.retKey n)).getD 0#18

/-- A return entry that the stack cache does not hold is filled from the region (R244). -/
def State.fillRet (s : State) (key : Nat) : State :=
  let g := s.gang
  match (s.lookup (s.xlOf g.team) (g.retVa key)).1 with
  | .page pa _ =>
    let pas := (List.range 4).map (pa + ·)
    let a := BitVec.ofNat 18 (leNat (pas.map (s.byteAt s.die)))
    (s.setGang { g with ret := KMap.set none g.ret key (some a) }).noteRead s.die pas
  | _ => s

/-- The entries that a RET of these slices needs and the stack cache does not hold: filled, or what stops the fill: a page that is not
resident is a page fault of the team, or ends run-ahead (R110, R244). -/
def State.fillRets (s : State) (sl : List Nat) : State × Bool :=
  let g := s.gang
  let x := s.xlOf g.team
  let miss := (sl.map g.retKey).filter fun k => (KMap.get none g.ret k).isNone
  let of := fun (t : Trans → Bool) => miss.filter fun k => t (s.lookup x (g.retVa k)).1
  match of (fun t => match t with
      | .page pa leaf => !(entR leaf && entW leaf) || s.portDown pa
      | .absent => false
      | _ => true), of (· == .absent) with
  | k :: _, _ =>
    match (s.lookup x (g.retVa k)).1 with
    | .page pa leaf => (if entR leaf && entW leaf then s.consume s.gk pa else s.trap 20 (BitVec.ofNat 64 (g.retVa k)), true)
    | _ => (s.trap 20 (BitVec.ofNat 64 (g.retVa k)), true)
  | [], k :: r =>
    (if g.ahead.isSome then s.halt else s.cohortFault ((k :: r).map fun k => (BitVec.ofNat 72 (g.retVa k), 0)), true)
  | [], [] => (miss.foldl State.fillRet s, false)

def execRet (f : ClassB) (s : State) : Res :=
  let g := s.gang
  let sel := if f.h.g then (g.partSlices s.pt).map fun n => (n, if g.geff s.pt f.h then Decision.go 0#18 else .stay)
    else g.decisions s.pt f.h fun _ => 0#18
  let jumping := slicesOf sel (.go 0#18)
  .next <|
    if sel.any fun d => d.2 == .split then s.trapLanes 7 (splitLanes g s.pt sel) 0#64
    else if jumping.isEmpty then s.done s
    else if jumping.any fun n => (g.sliceAt n).depth == 0#8 then s.trap 9 0#64
    else
      let r := s.fillRets jumping
      if r.2 then r.1
      else r.1.branchInd (sel.map fun d => (d.1, if d.2 == .stay then .stay else .go (r.1.gang.retAddr d.1))) [] [] popAct

/-! ## REGANG (R34, R102) -/

/-- Every present, non-exited slice waits at some REGANG. -/
def Gang.allRegang (g : Gang) : Bool := g.liveSlices.all fun n => (g.sliceAt n).atRegang

/-- The slices waiting at each address merge into one part, which goes on. -/
def Gang.regang (g : Gang) : Gang :=
  let pcs := (g.liveSlices.map fun n => (g.sliceAt n).pc).eraseDups
  pcs.foldl (fun x pc =>
    let sl := g.liveSlices.filter fun n => (g.sliceAt n).pc == pc
    (x.setPart sl).setPc sl (nextPc pc)) g

def execRegang (_f : ClassB) (s : State) : Res :=
  let g := s.gang
  let sl := g.partSlices s.pt
  let pc := s.pc
  let clash := g.liveSlices.any fun n =>
    (g.sliceAt n).atRegang && (g.sliceAt n).pc == pc && (g.sliceAt n).depth != g.depthOf s.pt
  .next <|
    if !g.anyActive s.pt then s.done s
    else if clash then s.trap 8 0#64
    else
      let here := sl.all fun n => (g.sliceAt n).atRegang
      let g' := if here then g else ((g.onSlices sl fun x => { x with atRegang := true }).emptyBypass sl).tick
      if g'.allRegang then
        let m := g'.regang
        match m.liveSlices.find? fun n => lastWord (g'.sliceAt n).pc with
        | some n =>
          let pc := (m.sliceAt n).pc
          if s.stops then s.halt else s.within ((s.setGang m).takeTrap
            { cause := 11, lanes := m.trapLanes (m.sliceAt n).part, info := pc.setWidth 64, pc := pc })
        | none => s.within (s.setGang m)
      else s.setGang g'

/-! ## Code segments (R93 to R95) -/

def execJmpf (f : ClassB) (s : State) : Res :=
  let t := relTarget s.pc f.disp
  .next <|
    if !s.gang.geff s.pt f.h then s.done s
    else
      match s.targetTrap t with
      | some c => s.segTrap c t
      | none => s.jumpTo s (s.gang.partSlices s.pt) t

/-- The number an IMEM window has in SEGMENT_LANDED: its team, or 2^32 + cluster for a lintel core. -/
def State.imemKey (s : State) (gk : Nat) : Nat :=
  if (s.gangAt gk).kind == .lintel then 2 ^ 32 + s.clusterOfGang gk else (s.gangAt gk).team

def State.imemAt (s : State) (key : Nat) : Imem :=
  if 2 ^ 32 ≤ key then (s.mxAt (key - 2 ^ 32)).im else (s.teamAt key).im

def State.setImemAt (s : State) (key : Nat) (im : Imem) : State :=
  if 2 ^ 32 ≤ key then s.setMxAt (key - 2 ^ 32) { s.mxAt (key - 2 ^ 32) with im := im }
  else s.setTeamAt key { s.teamAt key with im := im }

def Imem.slotAt (m : Imem) (n : Nat) : ISlot := KMap.get {} m.slots n
def Imem.setSlot (m : Imem) (n : Nat) (x : ISlot) : Imem := { m with slots := KMap.set {} m.slots n x }

/-- CFETCH. The segment-range trap names the slot's first address also where the cause is the address or a PC in the slot (log entry 108,
DESIGN CHOICE). -/
def execCfetch (f : ClassM) (s : State) : Res :=
  let n := f.d.toNat
  .next <|
    match s.groupGate f.h (indexG f) false false with
    | some s' => s'
    | none =>
      match s.engineGate with
      | some s' => s'
      | none =>
        let ea := s.gang.effAddr f 0
        let im := s.imemOf s.gk
        if im.nseg ≤ n || ea.toNat % 4096 ≠ 0 || (s.gang.liveSlices.any fun i => slotOf (s.gang.sliceAt i).pc == n) then
          s.trap 12 (BitVec.ofNat 64 (4096 * n))
        else
          let x := s.xlOf s.gang.team
          match (s.lookup x ea.toNat).1 with
          | .unmapped => s.trap 20 (ea.setWidth 64)
          | .far .. => s.trap 20 (ea.setWidth 64)
          | .page _ leaf =>
            if entX leaf then
              s.done ((s.setImemOf s.gk (im.setSlot n { st := .fetching, src := ea, by_ := s.gk })).owe
                [.segmentLanded (s.imemKey s.gk) n])
            else s.trap 20 (ea.setWidth 64)
          | .absent =>
            s.done ((s.setImemOf s.gk (im.setSlot n { st := .fetching, src := ea, by_ := s.gk })).owe
              [.segmentLanded (s.imemKey s.gk) n])

/-- The 4 KiB of a code segment, as a relaxed load of the die (R93): its bytes and where they stand. -/
inductive Segment where
  | bytes (b : List Byte) (pa : Nat) (leaf : DWord)
  | absent
  | bad
  /-- locked by a held atomic (R110) -/
  | locked
  /-- behind a link that is down (R377) -/
  | down (pa : Nat)

def State.segment (s : State) (x : Xl) (va : Nat) : Segment :=
  match (s.lookup x (s.published x va)).1 with
  | .page pa leaf =>
    if !entX leaf then .bad
    else if s.portDown pa then .down pa
    else if (List.range 128).any fun i => s.lockedPas [pa + 32 * i] then .locked
    else .bytes ((List.range 4096).map fun i => (s.p7Byte x.die (.mem pa leaf) i).getD (s.byteAt x.die (pa + i))) pa leaf
  | .absent => .absent
  | _ => .bad

/-- The read of a segment is a load: partition 7 fills, and the die's clock takes in the stores it returned (R224, R248). -/
def State.tookSegment (s : State) (gk pa : Nat) (leaf : DWord) : State :=
  let ls := (List.range 32).map fun i => Acc.mk 32 (BitVec.ofNat 72 (128 * i)) (.mem (pa + 128 * i) leaf)
  (s.fillP7 gk 0 ls).noteRead (s.dieOfGang gk) ((List.range 4096).map (pa + ·))

/-- The segment's bytes in a slot. -/
def Imem.land (m : Imem) (n : Nat) (b : List Byte) : Imem :=
  let keep := m.bytes.filter fun p => p.1 / 4096 != n
  { m with bytes := b.zipIdx.foldl (fun m p => KMap.set 0#8 m (4096 * n + p.2) p.1) keep }

/-- TCAUSE of a team whose entry segment cannot be fetched (R419). -/
def entryCause (_va : VAddr) : DWord := 20#64

/-- SEGMENT_LANDED (R91, R93, R419). A slot that no CFETCH fills is the entry segment of a team not yet started. -/
def execSegmentLanded (key slot : Nat) (s : State) : Res :=
  let im := s.imemAt key
  let sl := im.slotAt slot
  .next <|
    if sl.st != .fetching then s
    else
      let team := if sl.by_ = 0 then key else (s.gangAt sl.by_).team
      let gk := if sl.by_ = 0 then (s.teamAt team).gangs.headD 0 else sl.by_
      match s.segment (s.xlOf team) sl.src.toNat with
      | .down pa => s.consume gk pa
      | .locked => s.owe [.segmentLanded key slot]
      | .bytes b pa leaf => (s.tookSegment gk pa leaf).setImemAt key ((im.land slot b).setSlot slot { sl with st := .landed })
      | .absent =>
        s.engineFault gk (s.cohortAt (s.teamAt team).cohort).queue sl.src 2 (.segmentLanded key slot)
      | .bad =>
        if sl.by_ = 0 then (s.setImemAt key (im.setSlot slot { sl with st := .empty })).stopTeam team (entryCause sl.src)
        else (s.setImemAt key (im.setSlot slot { sl with st := .empty })).abandon sl.by_ sl.src

/-- Slots that CWAIT waits for. -/
def waitsFor (im : Imem) (slots : List Nat) : Bool := slots.any fun n => (im.slotAt n).st == .fetching

def execCwait (f : ClassB) (s : State) : Res :=
  let n := (f.aux12.extractLsb' 0 6).toNat
  let im := s.imemOf s.gk
  .next <|
    if !s.gang.geff s.pt f.h then s.done s
    else if im.nseg ≤ n then s.segTrap 12 (BitVec.ofNat 18 (4096 * n))
    else if waitsFor im [n] then s
    else s.done s

def execCwaitAll (f : ClassB) (s : State) : Res :=
  let im := s.imemOf s.gk
  .next <|
    if !s.gang.geff s.pt f.h then s.done s
    else if waitsFor im (List.range im.nseg) then s
    else s.done s

/-! ## EXIT, YIELD, TRAP (R103, R104) -/

def execExit (f : ClassB) (s : State) : Res :=
  let g := s.gang
  let m := if f.h.g then (if g.geff s.pt f.h then maskOf fun l => g.present l else 0#32) else maskOf (g.eff s.pt f.h)
  .next <|
    if m == 0#32 then s.done s
    else
      match s.engineGate with
      | some s' => s'
      | none => s.exitLanes m

def execYield (f : ClassB) (s : State) : Res :=
  .next <|
    if !s.gang.geff s.pt f.h then s.done s
    else
      match s.engineGate with
      | some s' => s'
      | none =>
        if s.cohort.preempt then s.save s.team.cohort
        else if f.aux12 == 0#12 then s.done s
        else s.done ((s.setGang { s.gang with hold := .yield (s.clock + f.aux12.toNat) }).owe [.yieldExpire s.gk])

/-- YIELD_EXPIRE: the gang is ready again once its clocks have passed (R104). -/
def execYieldExpire (gang : Nat) (s : State) : Res :=
  let g := s.gangAt gang
  .next <|
    match g.hold with
    | .yield till => if till ≤ s.clock then s.setGangAt gang { g with hold := .no } else s.owe [.yieldExpire gang]
    | _ => s

def execTrap (f : ClassB) (s : State) : Res :=
  let g := s.gang
  let m := if f.h.g then (if g.geff s.pt f.h then maskOf (g.active s.pt) else 0#32) else maskOf (g.eff s.pt f.h)
  .next <|
    if m == 0#32 then s.done s
    else s.takeTrap { cause := 13, aux := f.aux12.toNat, lanes := m, pc := s.pc }

/-! ## Idempotent regions (R105, R106) -/

def execRgnb (_f : ClassB) (s : State) : Res :=
  let g := s.gang
  .next <|
    if !g.anyActive s.pt then s.done s
    else if s.stops then s.halt
    else if s.barred || !g.whole then s.trap 14 0#64
    else
      let r : Region :=
        { pc := s.pc, cnt := g.cnt, slices := g.slices, mstat := g.r.mstat, srstate := g.r.srstate, ret := g.ret,
          order := s.nextId }
      s.done ({ s with nextId := s.nextId + 1 }.setGang { g with rel := some r })

def execRgne (_f : ClassB) (s : State) : Res :=
  let g := s.gang
  .next <|
    if !g.anyActive s.pt then s.done s
    else if s.stops then s.halt
    else
      match g.rel with
      | none => s.trap 14 0#64
      | some r => if g.loadsOut then s else s.done ((s.setGang { g with rel := none }).commit s.gk r.held)

/-- REGION_EXHAUST_REPLAY: every gang that holds entries of the core waits for one and none runs ahead: the region opened
last is replayed (R107). -/
def execRegionExhaustReplay (core : Nat) (s : State) : Res :=
  let hs := s.gangs.filter fun p => !p.2.ended && (s.teamAt p.2.team).core == core && p.2.entries != 0
  .next <|
    if !hs.isEmpty && hs.all fun p => p.2.starved && p.2.ahead.isNone then
      let last := hs.foldl (fun (b : Option (Nat × Nat)) p =>
        match p.2.rel, b with
        | some r, some (_, o) => if o < r.order then some (p.1, r.order) else b
        | some r, none => some (p.1, r.order)
        | none, _ => b) none
      match last with
      | some (k, _) => s.setGangAt k (s.gangAt k).replay
      | none => s
    else s

/-! ## BAR and QCFG (R113, R114) -/

/-- A gang has arrived at the barrier: it has ended, or each of its parts waits at some BAR. -/
def Gang.arrived (g : Gang) : Bool := g.liveSlices.all fun n => (g.sliceAt n).atBar

def State.barrierMet (s : State) (t : Nat) : Bool := (s.teamAt t).gangs.all fun k => (s.gangAt k).arrived

/-- Every part of every gang of the team goes on past its BAR. -/
def State.barrierPass (s : State) (t : Nat) : State :=
  (s.teamAt t).gangs.foldl (fun s k =>
    ((s.gangAt k).parts).foldl (fun s p => s.asPart k p fun s => s.advance) s) s

/-- The part waits at this BAR already. -/
def Gang.waitsBar (g : Gang) (p : Nat) : Bool := (g.partSlices p).any fun n => (g.sliceAt n).atBar

/-- BAR. A part arrives once its gang's earlier loads have their values and its stores outside the module are acknowledged, so
that the barrier is a release of them in every space (R228, R229). -/
def execBar (f : ClassB) (s : State) : Res :=
  let g := s.gang
  .next <|
    if g.waitsBar s.pt then (if s.barrierMet g.team then s.barrierPass g.team else s)
    else if !g.geff s.pt f.h then s.done s
    else
      match s.engineGate with
      | some s' => s'
      | none =>
        if g.loadsOut || s.farStores then s
        else
          let s := s.setGang (g.onSlices (g.partSlices s.pt) fun x => { x with atBar := true })
          if s.barrierMet g.team then s.barrierPass g.team else s

/-- QCFG[39:0] is well formed and within the allocation (R29). -/
def qcfgOk (v : DWord) (qent : Nat) : Bool :=
  let d := (List.range 8).map fun q => bitsOf v.toNat (5 * q) 5
  v.toNat < 2 ^ 40 && d.all (· ≤ 16) && d.sum ≤ 64 && d.sum ≤ qent

/-- A write of QCFG empties all queues in every lane (R29). -/
def Gang.setQcfg (g : Gang) (v : DWord) : Gang := { g with qcfg := v, queues := [] }

/-- A write of QCFG, with the value's own check before the predicate's (R90, R114). -/
def State.writeQcfg (s : State) (eff : Bool) (v : DWord) : State :=
  if !qcfgOk v s.gang.qent then s.illegal 7
  else if !eff then s.done s
  else if s.gang.loads.any fun p => p.vregs.any (48 ≤ ·) then s
  else
    match s.engineGate with
    | some s' => s'
    | none => s.done (s.setGang (s.gang.setQcfg v))

def execQcfg (f : ClassA) (s : State) : Res :=
  .next (if s.gang.busyG f.a.toNat then s else s.writeQcfg (s.gang.geff s.pt f.h) (s.gang.gAt f.a.toNat))

end Sys2Proof.Machine
end

