-- ==== Sys2Proof/Machine/Formats.lean ====
section
/-! DEFINITION. Number formats (R39, R43, R61), their exact values, and the one rounding of a value to a format (R40, R48
to R54, R59). A finite value is (-1)^neg × m × 2^e; every computation here is exact integer arithmetic. -/

namespace Sys2Proof.Machine

/-! ## Formats -/

/-- A floating-point format: exponent bits, fraction bits, bias; E4M3 has no infinity (R39). -/
structure FFmt where
  eb   : Nat
  fb   : Nat
  bias : Nat
  inf  : Bool := true
  deriving DecidableEq, Repr

def fmtF32 : FFmt := { eb := 8, fb := 23, bias := 127 }
def fmtF16 : FFmt := { eb := 5, fb := 10, bias := 15 }
def fmtBF16 : FFmt := { eb := 8, fb := 7, bias := 127 }
def fmtE4M3 : FFmt := { eb := 4, fb := 3, bias := 7, inf := false }
def fmtE5M2 : FFmt := { eb := 5, fb := 2, bias := 15 }
def fmtXF : FFmt := { eb := 10, fb := 23, bias := 511 }

/-- Width of a format in bits. -/
def FFmt.width (f : FFmt) : Nat := 1 + f.eb + f.fb

/-- The all-ones exponent. -/
def FFmt.top (f : FFmt) : Nat := 2 ^ f.eb - 1

/-- The canonical NaN (R39). -/
def FFmt.nan (f : FFmt) : Nat := if f.inf then f.top * 2 ^ f.fb + 2 ^ (f.fb - 1) else 0x7F

def FFmt.signed (f : FFmt) (neg : Bool) (mag : Nat) : Nat := (if neg then 2 ^ (f.eb + f.fb) else 0) + mag

/-- The largest finite magnitude's bits. -/
def FFmt.maxMag (f : FFmt) : Nat := if f.inf then f.top * 2 ^ f.fb - 1 else 0x7E

def FFmt.infMag (f : FFmt) : Nat := f.top * 2 ^ f.fb

/-! ## Values -/

/-- The value of a bit pattern. A NaN carries its quiet bit and its fraction below that bit, left-aligned in 22 bits. -/
inductive FVal where
  | nan (neg quiet : Bool) (payload : Nat)
  | inf (neg : Bool)
  | num (neg : Bool) (m : Nat) (e : Int)
  deriving DecidableEq, Repr

def FVal.isNan : FVal → Bool
  | .nan .. => true
  | _ => false

/-- A signalling NaN (R40). -/
def FVal.isSnan : FVal → Bool
  | .nan _ q _ => !q
  | _ => false

def FVal.isInf : FVal → Bool
  | .inf _ => true
  | _ => false

def FVal.isZero : FVal → Bool
  | .num _ m _ => m == 0
  | _ => false

def FVal.neg : FVal → Bool
  | .nan n _ _ => n
  | .inf n => n
  | .num n _ _ => n

def FVal.negate : FVal → FVal
  | .nan n q p => .nan (!n) q p
  | .inf n => .inf (!n)
  | .num n m e => .num (!n) m e

/-- The value of a pattern (R39, R40); an 8-bit NaN has no payload (R52). -/
def FFmt.decode (f : FFmt) (x : Nat) : FVal :=
  let v := x % 2 ^ f.width
  let s := decide (2 ^ (f.eb + f.fb) ≤ v)
  let e := v / 2 ^ f.fb % 2 ^ f.eb
  let m := v % 2 ^ f.fb
  if e = f.top && (f.inf || m = 7) then
    if f.inf && m = 0 then .inf s
    else if f.inf then
      .nan s (decide (2 ^ (f.fb - 1) ≤ m)) (if f.eb + f.fb = 7 then 0 else m % 2 ^ (f.fb - 1) * 2 ^ (23 - f.fb))
    else .nan s true 0
  else if e = 0 then .num s m (1 - (f.bias : Int) - f.fb)
  else .num s (m + 2 ^ f.fb) ((e : Int) - f.bias - f.fb)

/-- An integer as a value. -/
def FVal.ofInt (i : Int) : FVal := .num (decide (i < 0)) i.natAbs 0

/-! ## Rounding (R48, R49, R53) -/

/-- Rounding modes (R48). The stochastic mode carries its draw n (R49). -/
inductive RMode where
  | rn
  | rz
  | ru
  | rd
  | sr (n : Nat)
  deriving DecidableEq, Repr

/-- The mode of a code below 4. -/
def RMode.of (code : Nat) : RMode :=
  match code with
  | 0 => .rn
  | 1 => .rz
  | 2 => .ru
  | _ => .rd

/-- q + r / 2^sh rounded to an integer, for 0 ≤ r < 2^sh: the magnitude of a number of the sign given. -/
def RMode.bump (m : RMode) (neg : Bool) (q r sh : Nat) : Nat :=
  if r = 0 then q
  else
    let up := match m with
      | .rn => decide (2 ^ sh < 2 * r) || (2 * r == 2 ^ sh && q % 2 == 1)
      | .rz => false
      | .ru => !neg
      | .rd => neg
      | .sr n => decide (65536 ≤ r * 65536 / 2 ^ sh + n)
    if up then q + 1 else q

/-- m × 2^e in units of 2^u: quotient, remainder and the remainder's bits. -/
def units (m : Nat) (e u : Int) : Nat × Nat × Nat :=
  if u ≤ e then (m <<< (e - u).toNat, 0, 0)
  else
    let sh := (u - e).toNat
    (m >>> sh, m % 2 ^ sh, sh)

/-- What a finite magnitude above the largest finite value becomes (R53). -/
def FFmt.overflow (f : FFmt) (m : RMode) (sat neg : Bool) : Nat × DWord :=
  if sat then (f.signed neg f.maxMag, flagSV ||| flagNX)
  else if !f.inf then (f.signed neg 0x7F, flagOF)
  else
    let big := match m with
      | .rn => true
      | .rz => false
      | .ru => !neg
      | .rd => neg
      | .sr _ => true
    (f.signed neg (if big then f.infMag else f.maxMag), flagOF ||| flagNX)

/-- RoundTo for a finite value (R40, R49, R51, R53, R60): the pattern and its flags. -/
def FFmt.round (f : FFmt) (mode : RMode) (sat neg : Bool) (m : Nat) (e : Int) : Nat × DWord :=
  if m = 0 then (f.signed neg 0, 0#64)
  else
    let emin : Int := 1 - f.bias
    let big := (m.log2 : Int) + e
    let u := max big emin - f.fb
    let x := units m e u
    let q := mode.bump neg x.1 x.2.1 x.2.2
    let y := units m e (big - f.fb)
    let qu := mode.bump neg y.1 y.2.1 y.2.2
    let tiny := decide (big < emin) && !(decide (2 ^ (f.fb + 1) ≤ qu) && big + 1 == emin)
    let q' := if 2 ^ (f.fb + 1) ≤ q then q / 2 else q
    let u' := if 2 ^ (f.fb + 1) ≤ q then u + 1 else u
    let mag := if q' < 2 ^ f.fb then q' else (u' + f.fb + f.bias).toNat * 2 ^ f.fb + (q' - 2 ^ f.fb)
    if f.maxMag < mag then f.overflow mode sat neg
    else (f.signed neg mag, if x.2.1 = 0 then 0#64 else flagNX ||| flagIf tiny flagUF)

/-- A value as the result of an arithmetic operation, saturation off (R41, R53). The caller sets NV where it is due. -/
def FFmt.result (f : FFmt) (mode : RMode) : FVal → Nat × DWord
  | .nan .. => (f.nan, 0#64)
  | .inf n => if f.inf then (f.signed n f.infMag, 0#64) else (f.signed n 0x7F, flagNV)
  | .num n m e => f.round mode false n m e

/-! ## Exact arithmetic on values -/

/-- The invalid operation: a NaN (R41). -/
def FVal.bad : FVal := .nan false true 0

/-- Exact product of values that are no NaN; 0 × ∞ is invalid. -/
def FVal.mul : FVal → FVal → FVal
  | .num a m e, .num b n f => .num (a != b) (m * n) (e + f)
  | x, y => if x.isZero || y.isZero then .bad else .inf (x.neg != y.neg)

/-- A finite magnitude as a signed integer in units of 2^u, for u no larger than its exponent. -/
def FVal.scaled (u : Int) : FVal → Int
  | .num n m e => let k : Int := (m <<< (e - u).toNat : Nat); if n then -k else k
  | _ => 0

def FVal.expOf : FVal → Int
  | .num _ _ e => e
  | _ => 0

/-- Exact sum of values that are no NaN, with the sign of an exact zero under the mode (R129); ∞ - ∞ is invalid. -/
def sumVals (rd : Bool) (l : List FVal) : FVal :=
  let infs := l.filter FVal.isInf
  match infs with
  | x :: r => if r.any fun y => y.neg != x.neg then .bad else x
  | [] =>
    let u := l.foldl (fun u v => min u v.expOf) 0
    let t := (l.map (FVal.scaled u)).sum
    if t = 0 then
      let zs := l.all FVal.isZero
      if zs && l.all FVal.neg && !l.isEmpty then .num true 0 0
      else if zs && l.all fun v => !v.neg then .num false 0 0
      else .num rd 0 0
    else .num (decide (t < 0)) t.natAbs u

/-- Comparison of values that are no NaN; `zeros`: -0 is below +0. -1, 0 or 1. -/
def FVal.cmp (zeros : Bool) (x y : FVal) : Int :=
  let rank := fun (v : FVal) => match v with
    | .inf n => if n then (-1 : Int) else 1
    | _ => 0
  if rank x ≠ rank y then (if rank x < rank y then -1 else 1)
  else if x.isInf then 0
  else
    let u := min x.expOf y.expOf
    let a := x.scaled u
    let b := y.scaled u
    if a < b then -1
    else if b < a then 1
    else if zeros && a = 0 && x.neg != y.neg then (if x.neg then -1 else 1)
    else 0

/-! ## Operations of the vector core (R129 to R135) -/

/-- NV for signalling NaN operands (R40). -/
def snanFlag (l : List FVal) : DWord := flagIf (l.any FVal.isSnan) flagNV

/-- A NaN operand gives the canonical NaN; otherwise the value computed, invalid when it is a NaN (R41). -/
def FFmt.arith (f : FFmt) (mode : RMode) (l : List FVal) (v : FVal) : Nat × DWord :=
  if l.any FVal.isNan then (f.nan, snanFlag l)
  else if v.isNan then (f.nan, flagNV)
  else f.result mode v

def RMode.down (m : RMode) : Bool := m == .rd

def FFmt.add (f : FFmt) (mode : RMode) (a b : Nat) : Nat × DWord :=
  let x := f.decode a
  let y := f.decode b
  f.arith mode [x, y] (sumVals mode.down [x, y])

def FFmt.sub (f : FFmt) (mode : RMode) (a b : Nat) : Nat × DWord :=
  let x := f.decode a
  let y := f.decode b
  f.arith mode [x, y] (sumVals mode.down [x, y.negate])

def FFmt.mul (f : FFmt) (mode : RMode) (a b : Nat) : Nat × DWord :=
  let x := f.decode a
  let y := f.decode b
  f.arith mode [x, y] (x.mul y)

/-- 0 × ∞ among operands that are no NaN: NV even beside a NaN addend (R41). -/
def zeroTimesInf (x y : FVal) : Bool := !x.isNan && !y.isNan && (x.mul y).isNan

def FFmt.fma (f : FFmt) (mode : RMode) (a b c : Nat) : Nat × DWord :=
  let x := f.decode a
  let y := f.decode b
  let z := f.decode c
  let p := x.mul y
  let r := f.arith mode [x, y, z] (if p.isNan then p else sumVals mode.down [p, z])
  (r.1, r.2 ||| flagIf (zeroTimesInf x y) flagNV)

/-- The exact value with one more bit below it that tells whether something follows: rounding it at any bit above gives
what the whole value gives. -/
def sticky (neg : Bool) (q : Nat) (rest : Bool) (e : Int) : FVal := .num neg (2 * q + (if rest then 1 else 0)) (e - 1)

/-- Quotient of finite values, nonzero divisor, to 79 bits or more and a sticky one. -/
def quotient (neg : Bool) (m n : Nat) (e : Int) : FVal :=
  let k := 80 + n.log2
  let a := m <<< k
  sticky neg (a / n) (a % n != 0) (e - k)

def FFmt.div (f : FFmt) (mode : RMode) (a b : Nat) : Nat × DWord :=
  let x := f.decode a
  let y := f.decode b
  let s := x.neg != y.neg
  match x, y with
  | .num _ m e, .num _ n e' =>
    if n = 0 then
      if m = 0 then (f.nan, flagNV) else ((f.result mode (.inf s)).1, flagDZ)
    else f.result mode (quotient s m n (e - e'))
  | _, _ =>
    f.arith mode [x, y] (if x.isInf && y.isInf then .bad else if x.isInf then .inf s else .num s 0 0)

/-- FMIN and FMAX (R130). -/
def FFmt.minMax (f : FFmt) (isMax : Bool) (a b : Nat) : Nat × DWord :=
  let x := f.decode a
  let y := f.decode b
  let fl := snanFlag [x, y]
  let v :=
    if x.isNan && y.isNan then f.nan
    else if x.isNan then b
    else if y.isNan then a
    else
      let c := x.cmp true y
      if (if isMax then decide (0 ≤ c) else decide (c ≤ 0)) then a else b
  (v % 2 ^ f.width, fl)

/-- FCMP: condition codes 0 EQ to 5 GE of R77, `u` for unordered true (R131). -/
def FFmt.compare (f : FFmt) (cond : Nat) (u : Bool) (a b : Nat) : Bool × DWord :=
  let x := f.decode a
  let y := f.decode b
  if x.isNan || y.isNan then (u || cond == 1, snanFlag [x, y])
  else
    let c := x.cmp false y
    (match cond with
    | 0 => c == 0
    | 1 => c != 0
    | 2 => decide (c < 0)
    | 3 => decide (c ≤ 0)
    | 4 => decide (0 < c)
    | _ => decide (0 ≤ c), 0#64)

/-- FCLASS (R132). -/
def FFmt.classify (f : FFmt) (a : Nat) : Nat :=
  let sub := a / 2 ^ f.fb % 2 ^ f.eb == 0
  match f.decode a with
  | .nan _ q _ => if q then 2 ^ 9 else 2 ^ 8
  | .inf n => if n then 2 ^ 0 else 2 ^ 7
  | .num n m _ =>
    if m = 0 then (if n then 2 ^ 3 else 2 ^ 4)
    else if sub then (if n then 2 ^ 2 else 2 ^ 5)
    else if n then 2 ^ 1
    else 2 ^ 6

/-- A value rounded to an integer: magnitude, and whether it was inexact. -/
def roundInt (mode : RMode) (neg : Bool) (m : Nat) (e : Int) : Nat × Bool :=
  let x := units m e 0
  (mode.bump neg x.1 x.2.1 x.2.2, x.2.1 != 0)

/-- FRND (R133). -/
def FFmt.integral (f : FFmt) (mode : RMode) (a : Nat) : Nat × DWord :=
  match f.decode a with
  | .num n m e =>
    let r := roundInt mode n m e
    ((f.round .rz false n r.1 0).1, flagIf r.2 flagNX)
  | .inf _ => (a % 2 ^ f.width, 0#64)
  | v => (f.nan, snanFlag [v])

/-! ## Square roots -/

/-- ⌊√x⌋ by bits, high to low, for x < 4^n. -/
def isqrt (x : Nat) : Nat → Nat → Nat
  | 0, r => r
  | n + 1, r => isqrt x n (if (r + 2 ^ n) * (r + 2 ^ n) ≤ x then r + 2 ^ n else r)

/-- m × 2^e with an even exponent. -/
def evenExp (m : Nat) (e : Int) : Nat × Int := if e % 2 = 0 then (m, e) else (2 * m, e - 1)

def FFmt.sqrt (f : FFmt) (mode : RMode) (a : Nat) : Nat × DWord :=
  let x := f.decode a
  match x with
  | .num n m e =>
    if m = 0 then (f.signed n 0, 0#64)
    else if n then (f.nan, flagNV)
    else
      let p := evenExp m e
      let y := p.1 <<< 80
      let r := isqrt y 64 0
      f.result mode (sticky false r (r * r != y) (p.2 / 2 - 40))
  | _ => f.arith mode [x] (if x.neg then .bad else .inf false)

def FFmt.rcp (f : FFmt) (mode : RMode) (a : Nat) : Nat × DWord :=
  let x := f.decode a
  match x with
  | .num n m e => if m = 0 then (f.signed n f.infMag, flagDZ) else f.result mode (quotient n 1 m (-e))
  | _ => f.arith mode [x] (.num x.neg 0 0)

def FFmt.rsqrt (f : FFmt) (mode : RMode) (a : Nat) : Nat × DWord :=
  let x := f.decode a
  match x with
  | .num n m e =>
    if m = 0 then (f.signed n f.infMag, flagDZ)
    else if n then (f.nan, flagNV)
    else
      let p := evenExp m e
      let y := 2 ^ 160 / p.1
      let r := isqrt y 82 0
      f.result mode (sticky false r (r * r * p.1 != 2 ^ 160) (-(p.2 / 2) - 80))
  | _ => f.arith mode [x] (if x.neg then .bad else .num false 0 0)

/-! ## Transcendental functions (R134; log entry 24, DEDUCED)

Fixed point with 512 fraction bits. Every series runs until its terms are below the last bit. -/

/-- Fraction bits. -/
def fxBits : Nat := 512
def fxOne : Nat := 2 ^ fxBits

/-- Σ x^k / k! from the term given. -/
def expSeries (x : Nat) : Nat → Nat → Nat → Nat → Nat
  | 0, _, _, acc => acc
  | n + 1, k, t, acc => expSeries x n (k + 1) (t * x / fxOne / k) (acc + t)

/-- Σ ± x^k / k! with every second k: the cosine from k = 1, the sine from k = 2. -/
def trigSeries (x2 : Nat) : Nat → Nat → Nat → Bool → Int → Int
  | 0, _, _, _, acc => acc
  | n + 1, k, t, s, acc => trigSeries x2 n (k + 2) (t * x2 / fxOne / (k * (k + 1))) (!s) (if s then acc - t else acc + t)

/-- Σ t^(2k+1)/(2k+1): the inverse hyperbolic tangent; with `alt` the inverse tangent. -/
def atanSeries (t2 : Nat) (alt : Bool) : Nat → Nat → Nat → Bool → Int → Int
  | 0, _, _, _, acc => acc
  | n + 1, k, p, s, acc =>
    atanSeries t2 alt n (k + 2) (p * t2 / fxOne) (!s) (if s && alt then acc - (p / k : Nat) else acc + (p / k : Nat))

def atanh (num den : Nat) : Nat :=
  let t := num * fxOne / den
  (atanSeries (t * t / fxOne) false 200 1 t false 0).toNat

def atanInv (n : Nat) : Nat :=
  let t := fxOne / n
  (atanSeries (t * t / fxOne) true 130 1 t false 0).toNat

/-- ln 2 = 2 atanh (1/3). -/
def fxLn2 : Nat := 2 * atanh 1 3

/-- π = 16 atan (1/5) - 4 atan (1/239). -/
def fxPi : Nat := 16 * atanInv 5 - 4 * atanInv 239

/-- A magnitude m × 2^e as whole part and fixed-point fraction; every operand's lowest bit is above the last one. -/
def fxSplit (m : Nat) (e : Int) : Nat × Nat :=
  let x := if 0 ≤ e then m <<< (e.toNat + fxBits) else (m <<< fxBits) >>> (-e).toNat
  (x / fxOne, x % fxOne)

/-- 2^a. The fraction of a is taken from the floor, so that it is at least 0. -/
def exp2Val (neg : Bool) (m : Nat) (e : Int) : FVal :=
  let p := fxSplit m e
  if p.2 = 0 then .num false 1 (if neg then -(p.1 : Int) else p.1)
  else
    let i : Int := if neg then -(p.1 : Int) - 1 else p.1
    let fr := if neg then fxOne - p.2 else p.2
    sticky false (expSeries (fr * fxLn2 / fxOne) 100 1 fxOne 0) true (i - fxBits)

/-- An operand this large overflows, or underflows below every subnormal; the clamp keeps the integer part small. -/
def exp2Clamped (neg : Bool) (m : Nat) (e : Int) : FVal :=
  if 4096 ≤ (fxSplit m e).1 then .num false 1 (if neg then -4096 else 4096) else exp2Val neg m e

def FFmt.exp2 (f : FFmt) (mode : RMode) (a : Nat) : Nat × DWord :=
  let x := f.decode a
  match x with
  | .num n m e => f.result mode (exp2Clamped n m e)
  | .inf n => if n then (0, 0#64) else (f.infMag, 0#64)
  | v => (f.nan, snanFlag [v])

/-- log2 of m × 2^e for m > 0. -/
def log2Val (m : Nat) (e : Int) : FVal :=
  let k := m.log2
  let whole := (k : Int) + e
  let d := 2 ^ k
  if m = d then FVal.ofInt whole
  else
    let frac := 2 * atanh (m - d) (m + d) * fxOne / fxLn2
    let v : Int := whole * (fxOne : Int) + frac
    if 0 ≤ v then sticky false v.toNat true (-(fxBits : Int)) else sticky true (-v).toNat true (-(fxBits : Int))

def FFmt.log2 (f : FFmt) (mode : RMode) (a : Nat) : Nat × DWord :=
  let x := f.decode a
  match x with
  | .num n m e =>
    if m = 0 then (f.signed true f.infMag, flagDZ)
    else if n then (f.nan, flagNV)
    else f.result mode (log2Val m e)
  | .inf n => if n then (f.nan, flagNV) else (f.infMag, 0#64)
  | v => (f.nan, snanFlag [v])

/-- sin (π/2 × t) or cos (π/2 × t) for a fixed-point t in [0, 1). -/
def quarter (cosine : Bool) (t : Nat) : Nat :=
  let x := t * (fxPi / 2) / fxOne
  let x2 := x * x / fxOne
  (if cosine then trigSeries x2 60 1 fxOne false 0 else trigSeries x2 60 2 x false 0).toNat

/-- sin 2πa or cos 2πa of a magnitude that is no multiple of a quarter turn: the quadrant, and the value in it. -/
def turnVal (cosine neg : Bool) (fr : Nat) : FVal :=
  let q := fr * 4 / fxOne
  let t := fr * 4 % fxOne
  let c := (if q % 2 = 1 then !cosine else cosine)
  let minus := if cosine then q = 1 || q = 2 else (decide (2 ≤ q)) != neg
  sticky minus (quarter c t) true (-(fxBits : Int))

/-- FSIN and FCOS (R134). `free` is the sign of a zero result the spec gives no sign (log entry 25, DESIGN CHOICE). -/
def FFmt.turn (f : FFmt) (mode : RMode) (cosine free : Bool) (a : Nat) : Nat × DWord :=
  let x := f.decode a
  match x with
  | .num n m e =>
    let fr := (fxSplit m e).2
    let one : FVal := .num false 1 0
    if fr = 0 then f.result mode (if cosine then one else .num n 0 0)
    else if 2 * fr = fxOne then f.result mode (if cosine then .num false 0 0 else .num free 0 0)
    else if 4 * fr % fxOne = 0 then
      f.result mode (if cosine then .num free 0 0 else .num ((4 * fr = 3 * fxOne) != n) 1 0)
    else f.result mode (turnVal cosine n fr)
  | .inf _ => (f.nan, flagNV)
  | v => (f.nan, snanFlag [v])

/-- FDOT2: two products and an F32 addend, one rounding to F32 (R135). An exact zero keeps a sign that all three addends share, else it
is +0, or -0 under RD, as R129 has it for two (log entry 103, DESIGN CHOICE). -/
def dot2 (f : FFmt) (mode : RMode) (a b c : Nat) : Nat × DWord :=
  let x0 := f.decode a
  let x1 := f.decode (a / 65536)
  let y0 := f.decode b
  let y1 := f.decode (b / 65536)
  let z := fmtF32.decode c
  let p := x0.mul y0
  let q := x1.mul y1
  let all := [x0, y0, x1, y1, z]
  let r := fmtF32.arith mode all (if p.isNan || q.isNan then .bad else sumVals mode.down [p, q, z])
  (r.1, r.2 ||| flagIf (zeroTimesInf x0 y0 || zeroTimesInf x1 y1) flagNV)

/-! ## Conversion (R49, R51 to R54, R61) -/

/-- XorShift (R49). -/
def xorShift (s : Word) : Word :=
  let s := s ^^^ (s <<< 13)
  let s := s ^^^ (s >>> 17)
  s ^^^ (s <<< 5)

/-- The formats of R61 that are no ZB format. -/
inductive NFmt where
  | flt (f : FFmt)
  | int (signed : Bool) (w : Nat)
  deriving DecidableEq, Repr

/-- FMT codes 0 to 8 (R61). -/
def NFmt.of (code : Nat) : NFmt :=
  match code with
  | 0 => .flt fmtF32
  | 1 => .flt fmtF16
  | 2 => .flt fmtBF16
  | 3 => .flt fmtE4M3
  | 4 => .flt fmtE5M2
  | 5 => .int true 8
  | 6 => .int false 8
  | 7 => .int true 32
  | _ => .int false 32

def NFmt.width : NFmt → Nat
  | .flt f => f.width
  | .int _ w => w

def NFmt.isInt : NFmt → Bool
  | .int .. => true
  | .flt _ => false

def NFmt.decode : NFmt → Nat → FVal
  | .flt f, x => f.decode x
  | .int s w, x => FVal.ofInt (asInt s w x)

/-- A NaN in another format: sign kept, quiet bit set, payload truncated or extended from the low end (R52). -/
def FFmt.nanFrom (f : FFmt) (neg : Bool) (payload : Nat) : Nat :=
  if f.eb + f.fb = 7 then f.signed neg f.nan
  else f.signed neg (f.nan + payload / 2 ^ (23 - f.fb))

/-- A conversion to a floating-point format (R51 to R53). -/
def FFmt.convert (f : FFmt) (mode : RMode) (sat : Bool) : FVal → Nat × DWord
  | .nan n q p => (f.nanFrom n p, flagIf (!q) flagNV)
  | .inf n =>
    if sat then (f.signed n f.maxMag, flagSV)
    else if f.inf then (f.signed n f.infMag, 0#64)
    else (f.signed n 0x7F, flagNV)
  | .num n m e => f.round mode sat n m e

/-- A conversion to an integer format (R54). `intSrc`: from an integer. -/
def convertInt (signed : Bool) (w : Nat) (mode : RMode) (sat intSrc : Bool) (v : FVal) : Nat × DWord :=
  let lo : Int := if signed then -(2 ^ (w - 1) : Int) else 0
  let hi : Int := if signed then 2 ^ (w - 1) - 1 else 2 ^ w - 1
  match v with
  | .nan .. => (0, flagNV)
  | .inf n => if sat then (wrap w (if n then lo else hi), flagSV) else (0, flagNV)
  | .num n m e =>
    let r := roundInt mode n m e
    let i : Int := if n then -(r.1 : Int) else r.1
    if sat then
      let c := max lo (min i hi)
      (wrap w c, flagIf (c != i) flagSV ||| flagIf (!intSrc && (r.2 || c != i)) flagNX)
    else if intSrc then (wrap w i, 0#64)
    else
      let d := if i.natAbs < 2 ^ 64 then wrap w i else 0
      let out := decide (i < lo) || decide (hi < i)
      (d, flagIf out flagNV ||| flagIf (r.2 || asInt signed w d != i) flagNX)

/-- Convert (R137). -/
def NFmt.convert (dst : NFmt) (mode : RMode) (sat intSrc : Bool) (v : FVal) : Nat × DWord :=
  match dst with
  | .flt f => f.convert mode sat v
  | .int s w => convertInt s w mode sat intSrc v

/-! ## XF chains (R59, R63) -/

/-- One addition of an XF chain: RN to XF; only NV and OF are set (R59). -/
def xfAdd (a b : Nat) : Nat × DWord :=
  let r := fmtXF.add .rn a b
  (r.1, r.2 &&& (flagNV ||| flagOF))

/-- The final conversion of a chain to its format (R59): a NaN is canonical (R41). -/
def fromXf (f : FFmt) (mode : RMode) (x : Nat) : Nat × DWord := f.result mode (fmtXF.decode x)

/-- A value of a format as XF: exact; a signalling NaN sets NV (R40, R59). -/
def toXf (f : FFmt) (x : Nat) : Nat × DWord := fmtXF.convert .rn false (f.decode x)

end Sys2Proof.Machine
end

