-- ==== Sys2Proof/Machine/Loads.lean ====
section
/-! DEFINITION. Loads, stores, atomics, value waits, fences and cache maintenance (R150 to R157, R163 to R168, R178, R179,
R226 to R228, R248), with the events that return a load, perform a store and deliver it to another die. -/

namespace Sys2Proof.Machine

/-! ## Shared pieces -/

/-- The addresses an instruction accesses: every lane with an effect, or lane 32 for the group form (R78). -/
def State.accList (s : State) (f : ClassM) : List (Nat × VAddr) :=
  if f.h.g then [(32, s.gang.effAddr f 0)] else (s.gang.effLanes s.pt f.h).map fun l => (l, s.gang.effAddr f l)

/-- The gate of a class-M form whose D is read, written or both. -/
def State.memGate (s : State) (f : ClassM) (srcs dst : List Use) (gs : List Nat) : Option State :=
  if f.h.g then s.groupGate f.h (gs ++ indexG f) false false
  else s.laneGate f.h (srcs ++ indexUse f) dst false false

/-- Register writes of one lane: register n of lane l, the pair's second half after it. Fields above 55 discard. -/
def laneVals (d : Nat) (wide : Bool) (l : Nat) (x : DWord) : List (Nat × Word) :=
  if 56 ≤ d then []
  else (32 * d + l, x.truncate 32) :: (if wide then [(32 * (d + 1) + l, (x >>> 32).truncate 32)] else [])

/-- An operation joins the ld counter; it returns at once when nothing is awaited. -/
def State.addLoad (s : State) (p : PendLoad) : State :=
  let s := s.setGang { s.gang with loads := s.gang.loads ++ [p] }
  if p.await.isEmpty then s.owe [.loadReturn s.gk p.id] else s

/-- Held bytes that overlay what comes from outside, by 64 lane + offset (R105). -/
def State.overlay (s : State) (sp n : Nat) (away : List Acc) : List (Nat × Byte) :=
  let g := s.gang
  if !g.holds then []
  else away.flatMap fun a => (List.range n).filterMap fun i =>
    (g.heldByte (s.keyOf g sp (a.ea.toNat + i))).map fun b => (64 * a.lane + i, b)

/-! ## Loads (R153 to R156, R164) -/

/-- An LDGEN drops the stale L1 copies of the buffers whose generation words it read, at its issue where it answers from the module (R164,
R231). -/
def State.ldgenDrop (s : State) (gk : Nat) (l : List Nat) : State :=
  if l.isEmpty || s.cores.all fun c => c.2.l1.isEmpty && c.2.stale.isEmpty then s
  else
    let x := s.xlOf (s.gangAt gk).team
    let bs := x.swings.filter fun b => l.any fun a => b.gen ≤ a && a < b.gen + 8
    let blocks := bs.flatMap fun b => (List.range b.nblk).filterMap fun i => s.lineKey x (b.base + 4096 * i)
    s.dropL1 (fun c => some c == s.l1Core gk) fun k => blocks.contains (k / 4096 * 4096)

/-- Some space of the module has room in the counters for the places of an instruction (R173). -/
def State.fullNet (s : State) (sp : Nat) (l : List Acc) : Bool :=
  sp = 4 && 4095 < s.gang.pios.length + s.gang.nets.length + ((l.map (·.loc)).eraseDups).length

/-- LD, and LDGEN with `gen`. -/
def State.loadOp (s : State) (f : ClassM) (gen : Bool) : State :=
  let sz := f.sz.toNat
  let sp := f.sp.toNat
  let n := szBytes sz
  let wide := sz == 5
  let d := f.d.toNat
  match s.memGate f [] [Use.of f.d wide] [d] with
  | some s' => s'
  | none =>
    if s.accWaits || 4095 ≤ s.gang.loads.length then s
    else
      match (if sp = 4 then s.engineGate else none) with
      | some s' => s'
      | none =>
        match s.plan sp n { r := true } f.h.g (s.accList f) with
        | .stop s' => s'
        | .go s0 accs =>
          let s1 := if sp = 0 then (s0.l1Pick n accs).p7Pick s0.die n accs else s0
          let here := accs.filter (s1.near s1.die n)
          let away := accs.filter fun a => !s1.near s1.die n a
          if (anyFar away && s0.gang.farBusy) || s0.fullNet sp accs then s0
          else
            let vals := here.map fun a => (a.lane, szExtend sz (leNat (s1.readLoc s1.gk sp n a)))
            let asked := s1.askAway f.scp.toNat f.ord.toNat f.ch.toNat n away
            let id := asked.2.nextId
            let p : PendLoad :=
              { id := id, sz := sz, d := d, await := asked.1, ahead := s1.gang.ahead.isSome, acq := gen || f.ord == 1#2,
                mask := s1.overlay sp n away, lgen := if gen then accs.map (·.ea.toNat) else [],
                vregs := if f.h.g || 56 ≤ d then [] else if wide then [d, d + 1] else [d],
                gregs := if f.h.g then [d] else [],
                vals := if f.h.g then [] else vals.flatMap fun v => laneVals d wide v.1 v.2,
                gvals := if f.h.g then vals.map fun v => (d, v.2) else [] }
            let s2 := ({ asked.2 with nextId := id + 1 }).addLoad p
            let s2 := if sp = 0 then ((s2.fillP7 s2.gk f.ch.toNat here).fillL1 s2.gk f.ch.toNat here).noteReads n here else s2
            let s2 := s2.syncRead sp f.scp.toNat f.ord.toNat n here
            s.done (if away.isEmpty && gen then s2.ldgenDrop s2.gk p.lgen else s2)

def execLd (f : ClassM) (s : State) : Res := .next (s.loadOp f false)
def execLdgen (f : ClassM) (s : State) : Res := .next (s.loadOp f true)

/-- LOAD_RETURN: an operation of the ld counter with nothing left to await writes its registers (R153, R166, R173). -/
def execLoadReturn (gang id : Nat) (s : State) : Res :=
  let g := s.gangAt gang
  .next <|
    match g.loads.find? (·.id == id) with
    | some p => if p.await.isEmpty then ((s.setGangAt gang (g.land p)).ldgenDrop gang p.lgen).endCheck gang else s
    | none => s

/-! ## Stores (R154, R156, R223, R224) -/

/-- What a store adds to the st counter: 1 for its bytes in the module's memory, and its frames (R173). -/
def storeCount (l : List (Acc × List Byte)) : Nat :=
  (if l.any fun p => match p.1.loc with
    | .mem .. => true
    | _ => false then 1 else 0) + (farBeats l).length

def execSt (f : ClassM) (s : State) : Res :=
  let sz := f.sz.toNat
  let sp := f.sp.toNat
  let n := szBytes sz
  let wide := sz == 5
  let srcs := [Use.of f.d wide]
  .next <|
    match s.memGate f srcs [] [f.d.toNat] with
    | some s' => s'
    | none =>
      let g := s.gang
      if s.accWaits || (!g.holds && g.storeWaits f.scp.toNat f.ord.toNat) then s
      else
        match (if sp = 4 then s.engineGate else none) with
        | some s' => s'
        | none =>
          match s.plan sp n { w := true } f.h.g (s.accList f) with
          | .stop s' => s'
          | .go s1 accs =>
            if anyFar accs && s1.gang.farBusy && !s1.gang.holds then s1
            else
              let val := fun (a : Acc) => if f.h.g then g.gAt f.d.toNat else g.src f.d wide a.lane
              let data := accs.map fun a => (a, leBytes n (val a).toNat)
              if s1.fullNet sp accs || 4095 < g.stores.length + storeCount data then s1
              else
                let s2 := if f.h.g then s1 else s1.setGang (s1.gang.pop (popped srcs) (accs.map (·.lane)))
                s.done (s2.storeOrHold sp f.scp.toNat f.ord.toNat data)

/-- STORE_PERFORMED: a local store once every die sees it, another module's or a peer's once it is acknowledged; the
committed stores that waited for it go on, and so does one whose page has come (R221, R173, R419). -/
def execStorePerformed (gang id : Nat) (s : State) : Res :=
  .next <|
    if s.log.any fun e => e.id == id then s.owe [.storePerformed gang id]
    else
      let g := s.gangAt gang
      let s := s.setGangAt gang { g with
        stores := g.stores.filter (· != id), pios := g.pios.filter (· != id)
        commits := g.commits.map fun (h : Held) => if h.fault = some id then { h with fault := none } else h }
      (s.commitAll gang g.commits.length).endCheck gang

/-- CAUSAL_DELIVERY (R224). -/
def execCausalDelivery (die id : Nat) (s : State) : Res :=
  .next <|
    match s.log.find? (·.id == id) with
    | none => s
    | some e =>
      if e.seen.getLsbD die then s
      else if s.deliverable die e then
        { s with log := s.log.map fun (x : StoreEnt) => if x.id = id then { x with seen := x.seen ||| (1#4 <<< die) } else x }.fold
      else s.owe [.causalDelivery die id]

/-! ## Atomics (R165, R166) -/

/-- New value and flags of an atomic on `w` bits: x is the operand (CAS: the comparand), y CAS's new value (R165). -/
def atomNew (code w old x y : Nat) : Nat × DWord :=
  match code with
  | 0 => (x % 2 ^ w, 0#64)
  | 1 => ((old + x) % 2 ^ w, 0#64)
  | 2 => ((old + 2 ^ w - x % 2 ^ w) % 2 ^ w, 0#64)
  | 3 => (old &&& x, 0#64)
  | 4 => (old ||| x, 0#64)
  | 5 => (old ^^^ x, 0#64)
  | 6 => (min old x, 0#64)
  | 7 => (max old x, 0#64)
  | 8 => (if asInt true w old ≤ asInt true w x then old else x, 0#64)
  | 9 => (if asInt true w old ≤ asInt true w x then x else old, 0#64)
  | 10 => (if old = x then y else old, 0#64)
  | 11 => (if x ≤ old then 0 else old + 1, 0#64)
  | 12 => fmtF32.add .rn old x
  | 13 => fmtF32.minMax false old x
  | _ => fmtF32.minMax true old x

/-- One lane's atomic, in one instant at its home: the old value, its flags and the state after it (R166, R221). A later
atomic carries on the releases it reads, beside its own (R226). -/
def State.atomOne (s : State) (scp ord n code : Nat) (a : Acc) (x y : Nat) : Nat × DWord × State :=
  let w := 8 * n
  let ts := s.tagsNow a.loc n
  let s := s.syncTags s.gk scp ord ts
  let tags := ((s.storeTag scp ord).toList ++ ts).eraseDups
  match a.loc with
  | .mem pa _ =>
    let pas := (List.range n).map (pa + ·)
    let s := s.homeRead s.die pas
    let old := s.homeNat pa n
    let r := atomNew code w old x y
    (old, r.2, s.writeNow s.die (pas.zip (leBytes n r.1)) tags)
  | .spad t off =>
    let old := leNat (s.spadBytes t off n)
    let r := atomNew code w old x y
    (old, r.2, s.spadWrite t off (leBytes n r.1) tags)
  | _ => (0, 0#64, s)

/-- The atomics of one instruction on places within the module, in lane order. -/
def State.atomAll (s : State) (scp ord n code : Nat) (ops : Nat → Nat × Nat) : List Acc → List (Nat × Nat) × DWord × State
  | [] => ([], 0#64, s)
  | a :: r =>
    if a.loc.here then
      let o := ops a.lane
      let p := (s.freshen s.gk [(a, n)]).atomOne scp ord n code a o.1 o.2
      let q := p.2.2.atomAll scp ord n code ops r
      ((a.lane, p.1) :: q.1, p.2.1 ||| q.2.1, q.2.2)
    else s.atomAll scp ord n code ops r

/-- An atomic of a gang that runs ahead reads its home together with the held bytes, as an acquire where it is one, is held, and locks its
block until its write is performed (R110, R221, R233). -/
def State.atomHeld (s : State) (sp scp ord n code : Nat) (ops : Nat → Nat × Nat) : List Acc → List (Nat × Nat) × DWord × State
  | [] => ([], 0#64, s)
  | a :: r =>
    let o := ops a.lane
    let s := match a.loc with
      | .mem pa _ => s.homeRead s.die ((List.range n).map (pa + ·))
      | _ => s
    let s := s.syncTags s.gk scp ord (s.tagsNow a.loc n)
    let at_ := fun (i : Nat) => s.keyOf s.gang sp (a.ea.toNat + i)
    let home := match a.loc with
      | .mem pa _ => (List.range n).map fun i => s.byteHome (pa + i)
      | .spad t off => s.spadBytes t off n
      | _ => []
    let old := leNat ((List.range n).map fun i => (s.gang.heldByte (at_ i)).getD (home.getD i 0#8))
    let v := atomNew code (8 * n) old o.1 o.2
    let s := s.setGang (s.gang.putHeld
      { space := (at_ 0).1, bytes := (leBytes n v.1).zipIdx.map fun b => ((at_ b.2).2, b.1), scp := scp, ord := ord, atom := true
        locks := a.loc.block.toList })
    let q := s.atomHeld sp scp ord n code ops r
    ((a.lane, old) :: q.1, v.2 ||| q.2.1, q.2.2)

/-- Atomics on other modules leave as frames, one for each place: the lanes that name it travel together, in ascending order. AUX holds the
operands of the lowest, the payload what it does and the operands of the others (R166, R272, R273; log entry 23, DESIGN CHOICE). -/
def State.atomAway (s : State) (scp ord n code : Nat) (ops : Nat → Nat × Nat) (l : List Acc) : List (Nat × Nat) × State :=
  ((l.map (·.loc)).eraseDups).foldl (fun (p : List (Nat × Nat) × State) loc =>
    match loc with
    | .far m c va =>
      let ls := (l.filter fun a => a.loc == loc).map (·.lane)
      let id := p.2.nextId
      let tag := p.2.storeTag scp ord
      let os := ls.map ops
      let head := leBytes 8 (c + code * 2 ^ 16 + n * 2 ^ 20 + ls.length * 2 ^ 24)
      let body := padBeats (head ++ (os.drop 1).flatMap fun o => leBytes 8 o.1 ++ leBytes 8 o.2) ++ (match tag with
        | some t => t.wire
        | none => [])
      let o := os.headD (0, 0)
      let f := { accessFrame 4 ((tag.map (·.scp)).getD scp) (ord ||| (if tag.isSome then 2 else 0)) m p.2.die id va with
        len := beatsOf body, aux := o.1 % 2 ^ 64 + o.2 % 2 ^ 64 * 2 ^ 64, body := body }
      (p.1 ++ ls.map fun i => (id % 2 ^ 20, i), { p.2 with nextId := id + 1 }.sendFrame f)
    | _ => p) ([], s)

/-- Registers that D of ATOM names: CAS reads and writes a pair, or a quad of 64-bit halves (R165). -/
def atomUse (f : ClassM) : Use :=
  let wide := f.sz.toNat == 5
  if f.atomOp.toNat = 10 then (if wide then { f := f.d, n := 4, a := 4 } else { f := f.d, n := 2, a := 2 })
  else Use.of f.d wide

/-- The operand, and CAS's new value. -/
def Gang.atomOps (g : Gang) (f : ClassM) (l : Nat) : Nat × Nat :=
  let wide := f.sz.toNat == 5
  let d := f.d.toNat
  let cas := f.atomOp.toNat = 10
  if f.h.g then
    if cas then
      if wide then ((g.gAt d).toNat, (if d < 32 then g.gAt (d + 1) else 0#64).toNat)
      else ((g.gAt d).toNat % 2 ^ 32, (g.gAt d).toNat / 2 ^ 32)
    else ((g.gAt d).toNat % 2 ^ (if wide then 64 else 32), 0)
  else if cas then
    if 48 ≤ d then (0, 0)
    else if wide then ((g.src f.d true l).toNat, (g.src (f.d + 2#6) true l).toNat)
    else ((g.vAt d l).toNat, (g.vAt (d + 1) l).toNat)
  else ((g.src f.d wide l).toNat, 0)

/-- What the old value writes: CAS on 32 bits in the group form keeps g[D][63:32] (R165). -/
def Gang.atomBack (g : Gang) (d sz code : Nat) (grp : Bool) (l old : Nat) : List (Nat × Word) × List (Nat × DWord) :=
  let x := BitVec.ofNat 64 old
  if grp then
    ([], [(d, if code = 10 && sz = 4 then ((g.gAt d >>> 32).truncate 32 : BitVec 32) ++ (x.truncate 32 : BitVec 32) else x)])
  else (laneVals d (sz == 5) l x, [])

def execAtom (f : ClassM) (s : State) : Res :=
  let sz := f.sz.toNat
  let sp := f.sp.toNat
  let n := szBytes sz
  let d := f.d.toNat
  let code := f.atomOp.toNat
  let u := atomUse f
  let cas := code == 10
  .next <|
    if f.h.g && cas && sz == 5 && d < 32 && d % 2 != 0 then s.illegal 7
    else
      match s.memGate f [u] [u] ([d] ++ (if cas && sz == 5 && d < 31 then [d + 1] else [])) with
      | some s' => s'
      | none =>
        if s.barred then s.trap 14 0#64
        else if s.stops && 1 < f.scp.toNat then s.halt
        else
          let g := s.gang
          if s.accWaits || (!g.holds && g.storeWaits f.scp.toNat f.ord.toNat) || 4095 ≤ g.loads.length then s
          else
            match s.plan sp n { r := true, w := true } f.h.g (s.accList f) with
            | .stop s' => s'
            | .go s1 accs =>
              if anyFar accs && (s1.gang.farBusy || s1.stops) then s1
              else
                let ops := g.atomOps f
                let s1 := if f.h.g then s1 else s1.setGang (s1.gang.pop (popped [u]) (accs.map (·.lane)))
                let r :=
                  if s1.stops then s1.atomHeld sp f.scp.toNat f.ord.toNat n code ops accs
                  else s1.atomAll f.scp.toNat f.ord.toNat n code ops accs
                let asked := r.2.2.atomAway f.scp.toNat f.ord.toNat n code ops accs
                let back := r.1.map fun o => g.atomBack d sz code f.h.g o.1 o.2
                let id := asked.2.nextId
                let p : PendLoad :=
                  { id := id, sz := sz, d := d, await := asked.1, ahead := s1.gang.ahead.isSome,
                    acq := f.ord == 1#2 || f.ord == 3#2, code := code, flags := r.2.1,
                    vregs := if f.h.g || 56 ≤ d then [] else (List.range u.n).map (d + ·),
                    gregs := if f.h.g then [d] else [],
                    vals := back.flatMap (·.1), gvals := back.flatMap (·.2) }
                s.done (({ asked.2 with nextId := id + 1 }).addLoad p)

/-- A response from outside the module gives one lane its value (R153, R166, R273, R379). -/
def PendLoad.answer (p : PendLoad) (g : Gang) (lane : Nat) (bytes : List Byte) : PendLoad :=
  let n := szBytes p.sz
  let b := (List.range n).map fun i => (byteIn p.mask (64 * lane + i)).getD (bytes.getD i 0#8)
  let v := szExtend p.sz (leNat b)
  if p.probe then
    { p with vals := p.vals ++ [(2048 + 2 * lane, v.truncate 32), (2049 + 2 * lane, (v >>> 32).truncate 32)] }
  else if p.code < 15 then
    let back := g.atomBack p.d p.sz p.code (lane == 32) lane v.toNat
    let x := if lane = 32 then (g.gAt p.d).toNat % 2 ^ 32 else (g.vAt p.d lane).toNat
    { p with vals := p.vals ++ back.1, gvals := p.gvals ++ back.2,
             flags := p.flags ||| (if 12 ≤ p.code then (atomNew p.code 32 v.toNat x 0).2 else 0#64) }
  else if lane = 32 then { p with gvals := p.gvals ++ [(p.d, v)] }
  else { p with vals := p.vals ++ laneVals p.d (p.sz == 5) lane v }

/-- The answer to a tag: every lane that awaits it takes the bytes, of an atomic each its own 8 of them; a load with nothing left to await returns. -/
def State.answer (s : State) (tag : Nat) (bytes : List Byte) : State :=
  match s.gangs.find? fun x => x.2.loads.any fun p => p.await.any fun a => a.1 == tag with
  | none => s
  | some x =>
    let g := x.2
    let upd := fun (p : PendLoad) =>
      let mine := p.await.filter fun a => a.1 == tag
      mine.zipIdx.foldl (fun p a => p.answer g a.1.2 (if p.code < 15 then bytes.drop (8 * a.2) else bytes)) { p with await := p.await.filter fun a => a.1 != tag }
    let ids := g.loads.filterMap fun p => if p.await.any (·.1 == tag) && (upd p).await.isEmpty then some p.id else none
    (s.setGangAt x.1 { g with loads := g.loads.map fun p => if p.await.any (·.1 == tag) then upd p else p }).owe
      (ids.map fun i => .loadReturn x.1 i)

/-! ## Reads of other modules that the word itself needs -/

/-- The value a probe brought for a lane. -/
def Gang.probeAt (g : Gang) (lane : Nat) : DWord :=
  (KMap.get 0#32 g.probe (2 * lane + 1) ++ KMap.get 0#32 g.probe (2 * lane) : BitVec 64)

/-- The probe is used up. -/
def Gang.unprobe (g : Gang) : Gang := { g with probe := [], probed := false, ptags := [] }

/-- Reads go out; the word issues again when they have returned. -/
def State.sendProbe (s : State) (sz scp ord n : Nat) (l : List Acc) : State :=
  if s.gang.loads.any (·.probe) then s
  else
    let asked := s.askAway scp ord 0 n l
    let id := asked.2.nextId
    let p : PendLoad := { id := id, sz := sz, await := asked.1, probe := true, ahead := s.gang.ahead.isSome }
    ({ asked.2 with nextId := id + 1 }).addLoad p

/-- The 8-byte words that the word at the PC wants are asked for; it issues again when they have come (R331, R338). -/
def State.sendAsks (s : State) (words : List Nat) : State :=
  if s.gang.loads.any (·.probe) then s
  else
    let ws := words.eraseDups
    let x := s.xlOf s.gang.team
    let accs := ws.zipIdx.filterMap fun p =>
      match (s.lookup x (8 * p.1)).1 with
      | .far m c _ => some (Acc.mk p.2 (BitVec.ofNat 72 (8 * p.1)) (.far m c (8 * p.1 % 2 ^ 64)))
      | _ => none
    let asked := s.askAway 0 0 0 8 accs
    let id := asked.2.nextId
    let p : PendLoad := { id := id, sz := 5, await := asked.1, probe := true, words := ws, ahead := s.gang.ahead.isSome }
    let s := ({ asked.2 with nextId := id + 1 }).addLoad p
    s.setGang { s.gang with asks := [] }

/-- The gang has no more use for the words that came. -/
def State.forgetFar (s : State) : State :=
  if s.gang.far.isEmpty then s else s.setGang { s.gang with far := [], asks := [], farTags := [] }

/-! ## WAITV (R167) -/

/-- Condition codes of R77 on `w` bits. -/
def waitCond (code : Nat) (signed : Bool) (w a b : Nat) : Bool :=
  let x := asInt signed w a
  let y := asInt signed w b
  match code with
  | 0 => x == y
  | 1 => x != y
  | 2 => decide (x < y)
  | 3 => decide (x ≤ y)
  | 4 => decide (y < x)
  | _ => decide (y ≤ x)

def execWaitv (f : ClassM) (s : State) : Res :=
  let sz := f.sz.toNat
  let sp := f.sp.toNat
  let n := szBytes sz
  let wide := sz == 5
  let d := f.d.toNat
  let u := Use.of f.d wide
  .next <|
    match s.memGate f [u] [u] [d] with
    | some s' => s'
    | none =>
      match s.engineGate with
      | some s' => s'
      | none =>
        if s.accWaits then s
        else
          match s.plan sp n { r := true } f.h.g (s.accList f) with
          | .stop s' => s'
          | .go s0 accs =>
            let s1 := if sp = 0 then (s0.l1Pick n accs).p7Pick s0.die n accs else s0
            let g := s1.gang
            let here := accs.filter (·.loc.here)
            if !accs.all (s1.near s1.die n) && !g.probed then
              if g.farBusy then s1 else s1.sendProbe sz f.scp.toNat f.ord.toNat n (accs.filter fun a => !a.loc.here)
            else
              let val := fun (a : Acc) =>
                if a.loc.here || !g.probed then leNat (s1.readLoc s1.gk sp n a) else (g.probeAt a.lane).toNat % 2 ^ (8 * n)
              let want := fun (a : Acc) => if f.h.g then (g.gAt d).toNat else (g.src f.d wide a.lane).toNat
              let ok := accs.all fun a => waitCond f.waitCond.toNat (f.h.fx.getLsbD 1) (8 * n) (val a) (want a)
              if !ok then (s1.setGang { g.unprobe with hold := .waitv }).owe [.waitvReread s1.gk]
              else
                let s2 := if sp = 0 then ((s1.fillP7 s1.gk 0 here).fillL1 s1.gk 0 here).noteReads n here else s1
                let s2 := s2.syncRead sp f.scp.toNat f.ord.toNat n here
                let s2 := s2.syncTags s2.gk f.scp.toNat f.ord.toNat s2.gang.ptags
                let g2 := { s2.gang.unprobe with hold := .no }
                let g2 :=
                  if f.h.g then accs.foldl (fun x a => x.setG d (BitVec.ofNat 64 (val a))) g2
                  else
                    let x := g2.pop (popped [u]) (accs.map (·.lane))
                    accs.foldl (fun x a => x.put f.d wide a.lane (BitVec.ofNat 64 (val a))) x
                s.done (s2.setGang g2)

/-- WAITV_REREAD: the gang's WAITV issues again and reads again (R167). -/
def execWaitvReread (gang : Nat) (s : State) : Res :=
  let g := s.gangAt gang
  .next (if g.hold == .waitv then s.setGangAt gang { g with hold := .no } else s)

/-! ## FENCE (R168, R226 to R228, R273) -/

/-- A fence has to wait: for load values, and for acknowledgements when it releases at DOM or SYS. -/
def Gang.fenceWaits (g : Gang) (scp ord : Nat) : Bool :=
  g.loadsOut || ((ord = 2 || ord = 3) && 5 ≤ scp && !(g.stores.isEmpty && g.pios.isEmpty))

/-- The acquire half turns earlier relaxed loads into acquires; the release half makes later stores releases. -/
def State.fenceDo (s : State) (scp ord : Nat) : State :=
  let s := if ord = 1 || ord = 3 then s.acquire s.gk scp s.gang.seen else s
  if ord = 2 || ord = 3 then s.setGang { s.gang with relScp := some (max scp (s.gang.relScp.getD 0)) } else s

def execFence (f : ClassM) (s : State) : Res :=
  .next <|
    match s.groupGate f.h [] false false with
    | some s' => s'
    | none =>
      match s.engineGate with
      | some s' => s'
      | none =>
        if s.gang.fenceWaits f.scp.toNat f.ord.toNat then s
        else s.done (s.fenceDo f.scp.toNat f.ord.toNat)

/-! ## PREF and maintenance (R157, R178, R179, R248, R266, R270) -/

/-- PREF fills what partition 7 holds of a line, and lines of swing buffers; a line of another module is read for it. Every other cache effect
changes no value. It never traps. -/
def execPref (f : ClassM) (s : State) : Res :=
  .next <|
    match s.memGate f [] [] [] with
    | some s' => s'
    | none =>
      let x := s.xlOf s.gang.team
      let s1 := (s.accList f).foldl (fun s a =>
        match (s.checkG x { r := true } a.2).1 with
        | .ok loc =>
          let l : List Acc := [{ lane := a.1, ea := a.2, loc := loc }]
          if s.near s.die 1 { lane := a.1, ea := a.2, loc := loc } then (s.fillP7 s.gk f.ch.toNat l).fillL1 s.gk f.ch.toNat l
          else (s.askAway 0 0 f.ch.toNat 1 l).2
        | _ => s) s
      s.done s1

/-- The lines that cover [EffAddr, EffAddr + Max(g[D], 1)): first byte, and one past the last. -/
def State.lineRange (s : State) (f : ClassM) : Nat × Nat :=
  let a := (s.gang.effAddr f 0).toNat
  let n := max (s.gang.gAt f.d.toNat).toNat 1
  (a / 128 * 128, (a + n + 127) / 128 * 128)

/-- The name of a line in the caches: its physical address, or that of a line of another module (R240, R246). -/
def State.lineName (s : State) (x : Xl) (va : Nat) : Option Nat :=
  match (s.lookup x va).1 with
  | .page pa _ => some (pa / 128)
  | .far m c _ => some (farName m c (va % 2 ^ 64) / 128)
  | _ => none

/-- A cached byte lies in a line of the range, through whatever address or context it was filled. -/
def State.inLines (s : State) (f : ClassM) (key : Nat) : Bool :=
  let r := s.lineRange f
  let x := s.xlOf s.gang.team
  (List.range ((r.2 - r.1) / 128)).any fun i => s.lineName x (r.1 + 128 * i) == some (key / 128)

/-- A maintenance instruction: its gate, then its effect. -/
def State.maintain (s : State) (f : ClassM) (act : State → State) : State :=
  match s.groupGate f.h (f.d.toNat :: indexG f) false false with
  | some s' => s'
  | none => s.done (act s)

/-- The cores of a DIE or MOD scope (R178). -/
def State.inDies (s : State) (f : ClassM) (core : Nat) : Bool := f.scp == 4#3 || dieOf core == s.die

def execCinv (f : ClassM) (s : State) : Res := .next (s.maintain f fun s => s.dropL1 (s.inDies f) (s.inLines f))
def execCflush (f : ClassM) (s : State) : Res := .next (s.maintain f id)

def execRinv (f : ClassM) (s : State) : Res :=
  .next (s.maintain f fun s =>
    let s := s.dropL1 (s.inDies f) (s.inLines f)
    (List.range 4).foldl (fun x d =>
      if f.scp == 4#3 || d == s.die then
        x.setDieAt d { x.dieAt d with p7 := (x.dieAt d).p7.filter fun p => !s.inLines f p.1 }
      else x) s)

/-- A gang within the scope of an RMINV. -/
def State.inScope (s : State) (f : ClassM) (gk : Nat) : Bool := f.scp != 3#3 || s.dieOfGang gk == s.die

/-- Some LOD access of the scope has words of other modules on their way: what it then uses was read before (R179). -/
def State.lodOut (s : State) (f : ClassM) : Bool :=
  s.gangs.any fun p => s.inScope f p.1 && p.2.loads.any fun l => l.probe && !l.words.isEmpty && !l.await.isEmpty

/-- Residency caches lose the map words of the range, and repeat filters empty, on every core of the scope; words that LOD accesses have
fetched from other modules are asked for again. -/
def State.rminv (s : State) (f : ClassM) : State :=
  let t := s.mapCores fun n c =>
    if f.scp == 3#3 && dieOf n != s.die then c
    else { c with resid := c.resid.filter fun e => !s.inLines f e.1, filter := [] }
  (t.gangs.map (·.1)).foldl (fun t k =>
    let g := t.gangAt k
    if s.inScope f k && !g.far.isEmpty then t.setGangAt k { g with far := [], farTags := [] } else t) t

def execRminv (f : ClassM) (s : State) : Res :=
  .next <|
    match s.groupGate f.h (f.d.toNat :: indexG f) false false with
    | some s' => s'
    | none =>
      if s.stops then s.halt
      else if s.gang.fenceWaits f.scp.toNat 3 || s.lodOut f then s
      else s.done ((s.fenceDo f.scp.toNat 3).rminv f)

end Sys2Proof.Machine
end

