-- ==== Sys2Proof/Machine/Engines.lean ====
section
/-! DEFINITION. Instructions that hand work to other agents (R199 to R208, R212): lintel programs, continuations, work lists,
quiescence and remote records. -/

namespace Sys2Proof.Machine

/-- The seed of SRSTATE (R50). -/
def seedWord (lseed : Word) (cohid : DWord) (teamid gid lane : Nat) : Word :=
  let s := lseed ^^^ ((cohid.setWidth 32 : Word) * 0x9E3779B1#32) ^^^ BitVec.ofNat 32 (teamid * 2 ^ 24) ^^^
    BitVec.ofNat 32 (gid * 2 ^ 16) ^^^ BitVec.ofNat 32 (lane * 2 ^ 8)
  if s = 0#32 then 0x6D2B79F5#32 else s

/-- A hand-off at DOM waits for what its release waits for (R201, R226). -/
def State.handsOff (s : State) : Bool := s.gang.fenceWaits 5 2

/-- An engine instruction of the group form: its gate and R106, R110. -/
def State.engineE (s : State) (h : Header) (gs : List Nat) (act : State → State) : State :=
  match s.groupGate h gs false false with
  | some s' => s'
  | none =>
    match s.engineGate with
    | some s' => s'
    | none => act s

/-! ## FORK (R202) -/

/-- The core's program is reserved for gang `k`: its record stands, and the entry segment is being fetched. -/
def State.forkTake (s : State) (k : Nat) (t : IAddr) (word : IAddr) : State :=
  let g := s.gangAt k
  let c := s.clusterOfGang k
  let id := s.nextId
  let tm := s.teamAt g.team
  let co := s.cohortAt tm.cohort
  let src := ((s.imemOf k).slotAt (slotOf t)).src
  let sr := seedWord (s.launchOf g.team).lseed co.cohid tm.teamid 0 0
  let lin : Gang :=
    { kind := .lintel, team := g.team, partner := some k, r := { srstate := KMap.set 0#32 [] 0 sr },
      slices := [(0, { present := true, pc := BitVec.ofNat 18 (t.toNat % 65536) })] }
  let im : Imem := { nseg := 16, slots := KMap.set {} [] (slotOf t % 16) { st := .fetching, src := src, by_ := id } }
  let s := ({ s with nextId := id + 1 }).setGangAt id lin
  let s := s.setGangAt k { s.gangAt k with partner := some id }
  let s := s.setCohortAt tm.cohort { co with lintel := some id }
  (s.setMxAt c { s.mxAt c with
    prog := some id, valid := 0#8, kind := 0#8, red := false, ops := [], h0 := [], h1 := [], im := im,
    landing := some (k, word) }).owe [.lintelStart c]

/-- The lintel core can take a program. -/
def Mx.free (m : Mx) : Bool := m.prog.isNone && !m.drained && !m.shut

/-- The gang's previous lintel program has not ended. -/
def State.hasProgram (s : State) (g : Gang) : Bool :=
  match g.partner with
  | some p => !(s.gangAt p).ended
  | none => false

def execFork (f : ClassB) (s : State) : Res :=
  .next (s.engineE f.h [] fun s =>
    let t := relTarget s.pc f.disp
    let im := s.imemOf s.gk
    let g := s.gang
    let c := s.clusterOfGang s.gk
    let m := s.mxAt c
    if 15 < slotOf t || im.nseg ≤ slotOf t then s.segTrap 12 t
    else
      match (im.slotAt (slotOf t)).st with
      | .empty => s.segTrap 10 t
      | .fetching => s
      | .landed =>
        if s.hasProgram g then s.trap 22 0#64
        else if m.free && m.forks.isEmpty then s.done (s.forkTake s.gk t s.pc)
        else
          let s := s.setGang { g with hold := .fork }
          s.setMxAt c { m with forks := m.forks.filter (fun x => x.1 != s.gk) ++ [(s.gk, t)] })

/-- A FORK landing that cannot be made: no program starts, and the forking gang takes the trap at its FORK word (R419). -/
def State.forkAbort (s : State) (c k : Nat) (word : IAddr) (va : VAddr) : State :=
  let m := s.mxAt c
  match m.prog with
  | none => s
  | some p =>
    let s := (s.setMxAt c { m with landing := none }).endLintel p
    let g := (s.gangAt k).interrupt
    let g := g.record { cause := 20, lanes := 0#32, info := va.setWidth 64, pc := word }
    if g.ended then s else (s.setGangAt k g).deliver k

/-- LINTEL_START: the program reserved starts once its segment has landed; a free core first takes its oldest FORK, whose
gang goes on (R91, R202, R342, R419). -/
def execLintelStart (cluster : Nat) (s : State) : Res :=
  let m := s.mxAt cluster
  .next <|
    match m.landing, m.prog with
    | some (k, word), some p =>
      let g := s.gangAt p
      let slot := slotOf (g.pcOf 0)
      let src := (m.im.slotAt slot).src
      match s.segment (s.xlOf g.team) src.toNat with
      | .locked => s.owe [.lintelStart cluster]
      | .bytes b pa leaf =>
        let s := (s.tookSegment k pa leaf).setMxAt cluster { m with
          landing := none, im := (m.im.land slot b).setSlot slot { st := .landed, src := src, by_ := p } }
        if (s.cohortAt (s.teamAt g.team).cohort).status == .running then { s with runq := s.runq ++ [p] } else s
      | .absent =>
        s.engineFault k (s.cohortAt (s.teamAt g.team).cohort).queue src 2 (.lintelStart cluster)
      | .bad => s.forkAbort cluster k word src
      | .down pa => s.consume k pa
    | _, _ =>
      match m.free, m.forks with
      | true, (k, t) :: r =>
        let s := s.setMxAt cluster { m with forks := r }
        let g := s.gangAt k
        if g.ended || g.hold != .fork then s.owe (if r.isEmpty then [] else [.lintelStart cluster])
        else
          let s := s.setGangAt k { g with hold := .no }
          s.asPart k g.last fun s => s.done (s.forkTake k t s.pc)
      | _, _ => s

/-! ## RDV (R203) -/

/-- A FENCE.AR.COHORT on behalf of a gang. -/
def State.fenceFor (s : State) (k : Nat) : State := s.asPart k 0 fun s => s.fenceDo 2 3

/-- Rendezvous numbers differ: each party takes its own trap; the lintel's is not delivered again (R203). -/
def State.rdvClash (s : State) (a b n m : Nat) : State :=
  let gang := if (s.gangAt a).kind == .lintel then b else a
  let lin := if (s.gangAt a).kind == .lintel then a else b
  let ng := if gang = a then n else m
  let nl := if gang = a then m else n
  let lg := s.gangAt lin
  let s := s.setGangAt lin (lg.record { cause := 22, lanes := 0#32, info := BitVec.ofNat 64 (nl + 256 * ng), pc := lg.pcOf 0 })
  let s := s.endLintel lin
  let g := s.gangAt gang
  let s := s.setGangAt gang { g with hold := .no }
  s.asPart gang g.last fun s => s.trap 22 (BitVec.ofNat 64 (ng + 256 * nl))

def execRdv (f : ClassB) (s : State) : Res :=
  let n := f.aux8.toNat
  .next (s.engineE f.h [] fun s =>
    let g := s.gang
    if (s.publs.any fun p => p.gang == s.gk) || g.loadsOut || s.farStores then s
    else
      match g.partner with
      | none => (s.setGang { g with hold := .no }).trap 22 (BitVec.ofNat 64 n)
      | some p =>
        let h := s.gangAt p
        if h.ended then (s.setGang { g with hold := .no }).trap 22 (BitVec.ofNat 64 n)
        else
          match h.hold with
          | .rdv m =>
            if m = n then
              let s1 := (s.fenceFor s.gk).fenceFor p
              let s1 := s1.setGang { s1.gang with hold := .no }
              let s1 := s1.setGangAt p { s1.gangAt p with hold := .no }
              (s1.asPart p h.last fun s => s.advance).advance
            else s.rdvClash s.gk p n m
          | _ => s.setGang { g with hold := .rdv n })

/-! ## SPAWN, DONE (R204, R205) -/

/-- The entry rule of R204. -/
def badEntry (a : VAddr) : Bool := a.toNat / 2 ^ 64 != 0 || a.toNat % 8 != 0

def execSpawn (f : ClassE) (s : State) : Res :=
  .next (s.engineE f.h [] fun s =>
    let g := s.gang
    let code := g.adAt f.ta.toNat
    let par := g.adAt f.tc.toNat
    let hasPar := f.h.fx.getLsbD 1
    let pri := f.bits 2 0
    let qk := s.cohort.queue
    if badEntry code then s.trap 20 (code.setWidth 64)
    else if hasPar && par.toNat % 32 != 0 then s.trap 20 (par.setWidth 64)
    else if s.handsOff then s
    else if s.queue.full pri then s.done (s.setGang (g.setGp (f.d.toNat % 8) false))
    else
      let parent := if hasPar then par.toNat % 2 ^ 64 else 0
      let s1 :=
        if hasPar then
          let h := s.homeQueue qk parent
          s.vaWrite (s.xlQueue h) (parent + 24) 4 (s.qNat h (parent + 24) 4 + 1)
        else s
      let s2 := s1.makeRecord qk code.toNat (g.adAt f.tb.toNat).toNat parent (pri + f.bits 4 2 * 4) s.cohort.cohid
      s.done ((s2.setGang (s2.gang.setGp (f.d.toNat % 8) true)).owe [.placementDecision (qk / 64)]))

/-- DONE ends the gang as a group-form EXIT does (R103, R205). -/
def State.doneGang (s : State) : State := s.exitLanes (maskOf fun l => s.gang.present l)

def execDone (f : ClassB) (s : State) : Res := .next (s.engineE f.h [] fun s => s.doneGang)

def execDoneC (f : ClassB) (s : State) : Res :=
  .next (s.engineE f.h [] fun s =>
    let a := s.gang.adAt (f.aux12.toNat % 8)
    if badEntry a then s.trap 20 (a.setWidth 64)
    else (s.setCohortAt s.team.cohort { s.cohort with donec := some (a.setWidth 64) }).doneGang)

/-! ## Work lists (R207, R324) -/

/-- Word w of an item whose first lane register is field `f`. -/
def Gang.itemWord (g : Gang) (f : BitVec 6) (n w l : Nat) : Nat :=
  if f.toNat < 48 then (g.vAt (f.toNat + w) l).toNat
  else if n ≤ 2 then (g.src f (n == 2) l).toNat / 2 ^ (32 * w) % 2 ^ 32
  else 0

/-- What stops an access to a structure of `n` bytes that an instruction names: the trap or the cohort fault; none where it
may go on. Only window 0 holds such structures (log entry 29, DESIGN CHOICE). -/
def State.structGate (s : State) (a : VAddr) (n : Nat) (nd : Need) : Option State :=
  let x := s.xlOf s.gang.team
  let cs := [a, a + BitVec.ofNat 72 (n - 1)].map fun v => (v, (s.checkG x nd v).1)
  match cs.find? fun c => c.2 == .perm || c.1.toNat / 2 ^ 64 != 0, cs.find? fun c => c.2 == .absent with
  | some _, _ => some (s.trap 20 (a.setWidth 64))
  | none, some c => some (s.cohortFault [(c.1, if nd.w then (if nd.r then 3 else 1) else 0)])
  | none, none => none

/-- The same for several structures: what stops the first that is stopped. -/
def State.structGates (s : State) (l : List (Nat × Nat × Need)) : Option State :=
  l.findSome? fun p => s.structGate (BitVec.ofNat 72 p.1) p.2.1 p.2.2

/-- What the issuing gang has stored and observed is performed for every die before what it hands over is (R201, R226). -/
def State.release (s : State) : State := s.force (s.clockOf s.die)

/-- The queue instance on the die that is home to a list's entry (R325). -/
def State.listQueue (s : State) (qk tab i : Nat) : Nat :=
  match (s.lookup (s.xlQueue qk) (listAt tab i)).1 with
  | .page pa _ =>
    let die := (pa >>> 56) % 4
    match s.queues.find? fun p => p.1 / 64 == die && p.2.key == (s.queueAt qk).key with
    | some p => p.1
    | none => qk
  | _ => qk

/-- One lane's append: its status and the state after it. -/
def State.wlAppend (s : State) (qk tab i item : Nat) : Nat × State :=
  if s.qNat qk tab 2 ≤ i then (2, s)
  else if (s.wlist qk tab i).full then (1, s)
  else
    let h := s.listQueue qk tab i
    (0, (s.appendItem h tab i item).wlcTry h tab i false 4)

/-- The appends of the lanes in order. -/
def State.wlAppends (s : State) (qk tab : Nat) : List (Nat × Nat × Nat) → List (Nat × Nat) × State
  | [] => ([], s)
  | (l, i, item) :: r =>
    let p := s.wlAppend qk tab i item
    let q := p.2.wlAppends qk tab r
    ((l, p.1) :: q.1, q.2)

/-- What the appends of the lanes reach: each list's entry, and the place of each item that is appended (R151, R324). -/
def State.wlPlaces (s : State) (qk tab : Nat) (reqs : List (Nat × Nat × Nat)) : List (Nat × Nat × Need) :=
  let is := (reqs.map (·.2.1)).filter fun i => i < s.qNat qk tab 2
  let ents := is.eraseDups.map fun i => (listAt tab i, 64, ({ r := true } : Need))
  ents ++ is.eraseDups.flatMap fun i =>
    let l := s.wlist qk tab i
    (List.range (min (is.count i) (2 ^ l.lcap - l.items))).map fun k => (l.stor + (l.wr + k) % 2 ^ l.lcap * l.bytes, l.bytes, { w := true })

/-- WLPUT and RBIN: the gate, the table, the appends, the statuses. -/
def State.wlput (s : State) (f : ClassE) (n : Nat) (list : State → Nat → Nat) : State :=
  let ud : Use := { f := f.d }
  let ua : Use := { f := f.a, n := n, a := n }
  match s.laneGate f.h [ud, ua] [ud] false false with
  | some s' => s'
  | none =>
    match s.engineGate with
    | some s' => s'
    | none =>
      let g := s.gang
      let tab := g.adAt f.ta.toNat
      match s.structGate tab 64 { r := true } with
      | some s' => s'
      | none =>
        let ls := g.effLanes s.pt f.h
        let reqs := ls.map fun l =>
          (l, list s l, ((List.range n).map fun w => g.itemWord f.a n w l * 2 ^ (32 * w)).sum)
        match s.structGates (s.wlPlaces s.cohort.queue tab.toNat reqs) with
        | some s' => s'
        | none =>
        if s.handsOff then s
        else
          let r := s.release.wlAppends s.cohort.queue tab.toNat reqs
          let g1 := r.2.gang.pop (popped [ud, ua]) ls
          s.done (r.2.setGang (r.1.foldl (fun x p => x.put f.d false p.1 (BitVec.ofNat 64 p.2)) g1))

def execWlput (f : ClassE) (s : State) : Res :=
  .next (s.wlput f (2 ^ f.bits 2 0) fun s l => (s.gang.src f.d false l).toNat)

/-- Floor(w / 2^c) mod 16 of an F32 pattern; a NaN or infinity reads 0 (R207). -/
def rayCell (w c : Nat) : Nat :=
  match fmtF32.decode w with
  | .num n m e =>
    let v : Int := if n then -(m : Int) else m
    let k := e - (c : Int)
    let i := if 0 ≤ k then v * 2 ^ k.toNat else v / (2 ^ (-k).toNat : Int)
    (i % 16).toNat
  | _ => 0

/-- The key of a ray (R207). -/
def rayKey (view c : Nat) (w : Nat → Nat) : Nat :=
  let oct := w 4 / 2 ^ 31 + w 5 / 2 ^ 31 * 2 + w 6 / 2 ^ 31 * 4
  view % 128 * 2 ^ 15 + oct * 2 ^ 12 + rayCell (w 0) c * 2 ^ 8 + rayCell (w 1) c * 2 ^ 4 + rayCell (w 2) c

def execRbin (f : ClassE) (s : State) : Res :=
  .next (s.wlput f 8 fun s l =>
    let g := s.gang
    let key := rayKey (g.src f.d false l).toNat (f.bits 4 0) fun w => g.itemWord f.a 8 w l
    key % s.qNat s.cohort.queue (g.adAt f.ta.toNat).toNat 2)

def execWlget (f : ClassE) (s : State) : Res :=
  let n := 2 ^ f.bits 2 0
  let k := f.bits 3 2
  .next <|
    match s.laneGate f.h [] [{ f := f.d, n := n, a := n }] false false with
    | some s' => s'
    | none =>
      match s.engineGate with
      | some s' => s'
      | none =>
        let g := s.gang
        let b := g.adAt f.ta.toNat
        let x := s.xlOf g.team
        match s.structGate b 16 { r := true, w := true } with
        | some s' => s'
        | none =>
          let a := b.toNat
          if (s.vaNat x (a + 10) 1).getD 0 ≠ f.bits 2 0 then s.trap 20 (b.setWidth 64)
          else
            let count := (s.vaNat x a 4).getD 0
            let first := (s.vaNat x (a + 4) 4).getD 0
            let ls := g.effLanes s.pt f.h
            let items := (List.range ls.length).filterMap fun r =>
              let i := (first + r) % 2 ^ 32
              if i < count then some (a + 16 + 4 * n * i, 4 * n, ({ r := true } : Need)) else none
            match s.structGates items with
            | some s' => s'
            | none =>
            let s1 := s.vaWrite x (a + 4) 4 (first + ls.length)
            let g1 := ls.zipIdx.foldl (fun (g : Gang) p =>
              let i := (first + p.2) % 2 ^ 32
              if i < count then
                let g := (List.range n).foldl (fun (g : Gang) w =>
                  let v := BitVec.ofNat 32 ((s.vaNat x (a + 16 + 4 * n * i + 4 * w) 4).getD 0)
                  if f.d.toNat < 48 then g.setV (f.d.toNat + w) p.1 v else if n = 1 then g.put f.d false p.1 (v.setWidth 64) else g) g
                g.setK k p.1 true
              else g.setK k p.1 false) s1.gang
            s.done (s1.setGang g1)

/-! ## QDONE (R208) -/

def execQdone (f : ClassB) (s : State) : Res :=
  let n := f.aux12.toNat % 8
  .next (s.engineE f.h [] fun s =>
    let g := s.gang
    match g.qans with
    | some b => s.done (s.setGang ({ g with hold := .no, qans := none }.setGp n b))
    | none => s.setGang { g with hold := .qdone })

/-! ## WSEND (R212, R274, R275) -/

/-- The group index is one that the team's GRPM names (R200): its slot in GRPM. -/
def Team.grpSlot (t : Team) (grp : Nat) : Option Nat := ((grpmList t.grpm).find? fun x => x.2 == grp).map (·.1)

/-- The team that stands for a member on this module: the newest of its cohort and TEAMID. -/
def State.memberTeam (s : State) (gk : Nat) (m : Member) : Option Nat :=
  ((s.teams.filter fun p =>
    (s.cohortAt p.2.cohort).cohid.toNat == m.cohid && p.2.teamid == m.teamid && p.2.grpm != 0#64 &&
      (s.queueOf p.1).key == gk / 256).getLast?).map (·.1)

/-- Where a member stands: its module, and its die as far as this module knows it (R272, R315). -/
def State.rankMod (s : State) (gk r : Nat) : Nat := ((s.groupAt gk).places.getD r (s.modn, 0)).1
def State.rankDie (s : State) (gk r : Nat) : Nat :=
  match (s.groupAt gk).members[r]?.bind (s.memberTeam gk) with
  | some t => dieOf (s.teamAt t).core
  | none => ((s.groupAt gk).places.getD r (s.modn, 0)).2

/-- Rank of a team in a group. -/
def State.rankOf (s : State) (team : Nat) (g : Group) : Option Nat :=
  let t := s.teamAt team
  g.members.findIdx? fun m => m.cohid == (s.cohortAt t.cohort).cohid.toNat && m.teamid == t.teamid

/-- The lowest slot that a mask of used slots leaves free. -/
def freeSlot (used nsl : Nat) : Option Nat := (List.range nsl).find? fun i => !used.testBit i

/-- One lane of WSEND: its status and the state after it. -/
def State.wsendLane (s : State) (gkey me off dst : Nat) : Nat × State :=
  let g := s.groupAt gkey
  if g.members.length ≤ dst then (2, s)
  else if dst = me then (3, s)
  else
    let k := 65536 * me + dst
    let u := KMap.get (0, 0) g.used k
    match (if g.rwk then freeSlot u.1 g.nsl else none) with
    | none => (1, s)
    | some i =>
      let t := s.gang.team
      let lrec := gkey / 256
      let body := s.spadBytes t off 64
      let f := { groupFrame 6 s.modn (s.rankMod gkey dst) gkey 0 (me * g.nsl + i) (me + dst * 2 ^ 16) with
        len := 1, sdie := s.die, ddie := s.rankDie gkey dst, body := body }
      let id := s.nextId
      let q := KMap.get {} s.qdt lrec
      let s := { s with
        nextId := id + 1, sent := s.sent ++ [({ id := id, gang := s.gk, grp := gkey, src := me, dst := dst, slot := i } : Sent)]
        qdt := KMap.set {} s.qdt lrec { q with sent := q.sent + 1, zero := false } }
      let tk := 65536 * dst + me
      let t := KMap.get (0, 0) g.taken tk
      let s := s.setGroupAt gkey { g with
        used := KMap.set (0, 0) g.used k (u.1 + 2 ^ i, u.2)
        taken := if s.rankMod gkey dst = s.modn then KMap.set (0, 0) g.taken tk (t.1 ||| 2 ^ i, t.2) else g.taken }
      let s := s.setGang { s.gang with nets := s.gang.nets ++ [id] }
      (0, s.sendFrame f)

def State.wsendLanes (s : State) (gkey me : Nat) : List (Nat × Nat × Nat) → List (Nat × Nat) × State
  | [] => ([], s)
  | (l, off, dst) :: r =>
    let p := s.wsendLane gkey me off dst
    let q := p.2.wsendLanes gkey me r
    ((l, p.1) :: q.1, q.2)

def execWsend (f : ClassE) (s : State) : Res :=
  let grp := f.bits 8 0
  let u : Use := { f := f.d }
  .next <|
    match s.laneGate f.h [u] [u] false false with
    | some s' => s'
    | none =>
      match s.engineGate with
      | some s' => s'
      | none =>
        let g := s.gang
        let gkey := s.groupKey g.team grp
        match (s.team).grpSlot grp, s.rankOf g.team (s.groupAt gkey) with
        | some _, some me =>
          let ls := g.effLanes s.pt f.h
          let ea := fun l => g.adAt f.ta.toNat + BitVec.ofNat 72 (64 * l)
          match ls.find? fun l => (s.spadLoc g 1 64 (ea l)).isNone, ls.filter fun l => (ea l).toNat % 64 != 0 with
          | some l, _ => s.trap 17 ((s.outByte g 1 (ea l)).setWidth 64)
          | none, l :: b => s.trapLanes 20 (maskOf fun i => (l :: b).contains i) ((ea l).setWidth 64)
          | none, [] =>
            if s.handsOff || 4095 < g.nets.length + 32 then s
            else
              let r := s.release.wsendLanes gkey me (ls.map fun l => (l, (ea l).toNat, (g.src f.d false l).toNat % 65536))
              let g1 := r.2.gang.pop (popped [u]) ls
              s.done (r.2.setGang (r.1.foldl (fun x p => x.put f.d false p.1 (BitVec.ofNat 64 p.2)) g1))
        | _, _ => s.trap 15 (BitVec.ofNat 64 grp)

end Sys2Proof.Machine
end

