-- ==== Sys2Proof/Machine/Launches.lean ====
section
/-! DEFINITION. Launch records, shapes, groups, swing-buffer tables and queue descriptors (R310 to R318, R335), the checks
before a launch runs (R313), and what binding and unbinding a queue do (R220). -/

namespace Sys2Proof.Machine

/-! ## Shapes (R24, R235, R312) -/

/-- A shape-table entry. -/
structure Shape where
  teams  : Nat
  gangs  : Nat
  slices : Nat
  blocks : Nat
  qent   : Nat
  spsz   : Nat
  nseg   : Nat
  deriving DecidableEq, Repr

def Shape.of (e : Nat) : Shape :=
  { teams := bitsOf e 0 3 + 1, gangs := bitsOf e 3 4 + 1, slices := bitsOf e 7 3 + 1, blocks := bitsOf e 10 3 + 1,
    qent := bitsOf e 13 7, spsz := 16 * bitsOf e 20 16, nseg := bitsOf e 36 6 + 1 }

/-- Shape `c` of a launch. -/
def State.shape (s : State) (qk : Nat) (l : Launch) (c : Nat) : Shape := Shape.of (s.qNat qk (l.classes + 8 * c) 8)

/-- Register-file bytes of a gang (R24). -/
def Shape.storage (x : Shape) : Nat := 1024 * x.blocks + 128 * x.qent + 512

/-- Its scratchpad reservation (R235). -/
def Shape.reserve (x : Shape) : Nat := alignUp x.spsz 4096

/-- A reserved value (R312). -/
def Shape.bad (x : Shape) : Bool := 6 < x.blocks || 64 < x.qent || 655360 < x.spsz

/-- A team of the shape fits an empty core (R24, R91, R235). -/
def Shape.fits (x : Shape) : Bool :=
  x.gangs ≤ 48 && x.gangs * x.storage ≤ 524288 && x.reserve ≤ 655360 && x.nseg ≤ 64

/-! ## Reading a launch record (R310) -/

def State.readLaunch (s : State) (qk lrec : Nat) : Launch :=
  let n := fun off len => s.qNat qk (lrec + off) len
  let d := fun off => BitVec.ofNat 64 (n off 8)
  let c := n 0 1
  { at_ := lrec, fusel1 := c.testBit 0, rpri := c / 2 % 4, rcls := c / 8 % 16, cohx := n 8 4, cohy := n 12 4, cohz := n 16 4,
    lseed := BitVec.ofNat 32 (n 20 4), entry := d 24, frame0 := d 32, hent := d 40,
    fs := (List.range 8).map fun i => BitVec.ofNat 32 (n (48 + 4 * i) 4 % 2 ^ 14), classes := n 80 8, gtab := n 88 8, gmap := n 96 8,
    place := n 104 8, hbase := d 112, hlimit := d 120, hoffs := d 128, stkb := n 136 8, ssize := n 144 4, nview := n 148 1,
    stkn := n 149 3, viewt := n 152 8, swtab := n 160 8, nswb := n 168 4, wltab := n 176 8, stage := n 184 8,
    stgsz := n 192 8, dbase := d 200 }

/-- Swing buffers of the table (R314). -/
def State.readSwings (s : State) (qk : Nat) (l : Launch) : List Swing :=
  (List.range (min l.nswb 4096)).map fun i =>
    let n := fun off len => s.qNat qk (l.swtab + 64 * i + off) len
    { base := n 0 8, nblk := n 8 4, scope := n 12 1 % 8, gen := n 16 8, alt := n 24 8, sel := n 32 8 }

/-- The ranges of a swing-table entry: first byte and bytes. -/
def Swing.ranges (b : Swing) : List (Nat × Nat) :=
  [(b.base, 4096 * b.nblk), (b.alt, 4096 * b.nblk), (b.sel, (b.nblk + 7) / 8), (b.gen, 8)]

/-- Two ranges of a list meet. -/
def rangesMeet : List (Nat × Nat) → Bool
  | [] => false
  | r :: l => (l.any fun q => r.1 < q.1 + q.2 && q.1 < r.1 + r.2) || rangesMeet l

/-- LWHY 6: an entry with a reserved SCOPE, a misaligned field or an NBLK out of range, or two ranges that meet. -/
def badSwings (l : List Swing) : Bool :=
  (l.any fun b => b.scope < 3 || 6 < b.scope || b.base % 4096 != 0 || b.alt % 4096 != 0 || b.gen % 8 != 0 || b.sel % 8 != 0 ||
    b.nblk == 0 || 1048576 < b.nblk) || rangesMeet (l.flatMap Swing.ranges)

/-! ## Groups (R315, R316) -/

/-- Members, RWK and NSL of group-table entry `i`; none where it is unused. -/
def State.readGroup (s : State) (qk : Nat) (l : Launch) (i : Nat) : Option Group :=
  let e := l.gtab + 32 * i
  let n := s.qNat qk (e + 8) 2
  if l.gtab = 0 || n = 0 then none
  else
    let memb := s.qNat qk e 8
    let c := s.qNat qk (e + 10) 1
    some {
      rwk := c.testBit 0, nsl := c / 2 % 64 + 1
      members := (List.range n).map fun r =>
        let m := memb + 32 * r
        ({ cohid := s.qNat qk m 6, teamid := s.qNat qk (m + 6) 1 % 8, rlist := s.qNat qk (m + 12) 1,
           rarea := s.qNat qk (m + 16) 8 } : Member) }

/-- GMAP's value for a team of a root record (R311, R316). -/
def State.gmapAt (s : State) (qk : Nat) (l : Launch) (cohid teamid : Nat) : DWord :=
  if l.gmap = 0 then 0#64
  else BitVec.ofNat 64 (s.qNat qk (l.gmap + 8 * (cohid * (s.shape qk l l.rcls).teams + teamid)) 8 % 2 ^ 36)

/-- A group breaks the rule of LWHY 4. -/
def State.badGroup (s : State) (qk : Nat) (l : Launch) (i : Nat) : Bool :=
  match s.readGroup qk l i with
  | none => false
  | some g =>
    let t := (s.shape qk l l.rcls).teams
    let ids := g.members.map fun m => 8 * m.cohid + m.teamid
    ids.eraseDups.length != ids.length ||
      g.members.any fun m => l.cohorts ≤ m.cohid || t ≤ m.teamid ||
        !(grpmList (s.gmapAt qk l m.cohid m.teamid)).any fun x => x.2 == i

/-! ## The checks of R313 -/

/-- Some cluster of the die can fuse (R392). -/
def State.canFuse (s : State) (die : Nat) : Bool :=
  (List.range 12).any fun c => (List.range 8).all fun i => !(KMap.get {} s.cores (96 * die + 8 * c + i)).shut

/-- LWHY, or none. -/
def State.launchWhy (s : State) (qk : Nat) (l : Launch) : Option Nat :=
  let shapes := (List.range 16).map (s.shape qk l)
  let odd := l.classes % 8 != 0 || l.gtab % 32 != 0 || l.gmap % 8 != 0 || l.place % 8 != 0 || l.swtab % 64 != 0 || l.wltab % 64 != 0 || l.viewt % 64 != 0
  let why1 := l.cohorts == 0 || 2 ^ 48 < l.cohorts || l.stkn == 0 || shapes.any Shape.bad || l.ssize % 16 != 0 ||
    16777216 < l.ssize || l.entry.toNat % 8 != 0 || l.stgsz % 4096 != 0 || 4096 < l.nswb
  let slot := fun (w : Word) => (5 < bitsOf w.toNat 11 3 || (0 < bitsOf w.toNat 11 3 && bitsOf w.toNat 11 3 < 5)) ||
    (let f := bitsOf w.toNat 0 5
     8 < f && (f < 18 || 24 < f))
  if why1 then some 1
  else if shapes.any fun x => !x.fits then some 2
  else if l.fs.any slot || (l.fusel1 && !s.canFuse (qk / 64)) then some 3
  else if (List.range 256).any (s.badGroup qk l) then some 4
  else if 128 < l.nview || odd then some 5
  else if badSwings (s.readSwings qk l) then some 6
  else none

/-! ## Binding and unbinding (R220, R318, R335) -/

/-- The bytes of a descriptor and its context block are mapped, and the descriptor is aligned. -/
def State.descOk (s : State) (die a : Nat) : Bool :=
  a % 64 == 0 && (s.vaBytes (physXl die) a 256).isSome

/-- The context block at a physical address. -/
def State.readCtx (s : State) (die a : Nat) : Ctx :=
  let n := fun off len => (s.vaNat (physXl die) (a + off) len).getD 0
  { root := n 0 8 % 2 ^ 58, ctxn := n 8 2, wmax := n 10 1, hpb := n 16 8, hpsz := n 24 8, hpol := n 32 1 % 4, hpart := n 32 1 / 4 % 8,
    frh := n 40 8 % 2 ^ 58, blk := a }

/-- The queue a descriptor describes, bound to slot `qk`. -/
def State.readQueue (s : State) (die a : Nat) : Queue :=
  let n := fun off len => (s.vaNat (physXl die) (a + off) len).getD 0
  { bound := true, desc := a, lrec := n 0 8, ctx := s.readCtx die (a + 128), rpool := n 8 8, ps := n 16 1, free := n 20 4,
    ring := (List.range 4).map fun i => n (24 + 8 * i) 8, rs := (List.range 4).map fun i => n (56 + i) 1, qpri := n 60 1 % 4,
    fbring := n 64 8, svring := n 72 8, t1 := n 80 4, t2 := n 84 4, t3 := n 88 4, age := n 92 4,
    head := (List.range 4).map fun i => n (96 + 8 * i) 4, tail := (List.range 4).map fun i => n (100 + 8 * i) 4,
    headAt := [s.clock, s.clock, s.clock, s.clock] }

/-- Module and die that PLACE fixes for a cohort (R322). -/
def State.placeOf (s : State) (qk : Nat) (l : Launch) (cohid : Nat) : Option (Nat × Nat) :=
  if l.place = 0 then none
  else
    let e := s.qNat qk (l.place + 8 * cohid) 8
    if e.testBit 12 then some (e % 512, if e.testBit 11 then e / 512 % 4 else 0) else none

/-- The modules known to run a launch: this one, and those that PLACE names (log entry 30, DEDUCED). -/
def State.launchModules (s : State) (qk : Nat) (l : Launch) : List Nat :=
  s.modn :: if l.place = 0 then [] else (List.range l.cohorts).filterMap fun c => (s.placeOf qk l c).map (·.1)

/-- Groups of the launch that have no state yet are built: members stand where PLACE fixes their cohorts, and on this module otherwise; the
domain root is the module of rank 0's cohort, the lowest-numbered one of the launch where PLACE leaves it open (R290, R315). -/
def State.buildGroups (s : State) (qk : Nat) (l : Launch) : State :=
  (List.range 256).foldl (fun s i =>
    match s.readGroup qk l i with
    | none => s
    | some g =>
      let k := (s.queueAt qk).key * 256 + i
      if (s.groupAt k).members.isEmpty then
        s.setGroupAt k { g with
          places := g.members.map fun m => (s.placeOf qk l m.cohid).getD (s.modn, 0)
          rootm := match g.members.head?.bind fun m => s.placeOf qk l m.cohid with
            | some p => p.1
            | none => (s.launchModules qk l).foldl min s.modn }
      else s) s

/-- Whatever names queue `a` names queue `b` from now on, and `a` is empty. -/
def State.moveQueue (s : State) (a b : Nat) : State :=
  let f := fun (k : Nat) => if k = a then b else k
  { s with
    queues := KMap.set {} (KMap.set {} s.queues b (s.queueAt a)) a {}
    cohorts := s.cohorts.map fun p => (p.1, { p.2 with queue := f p.2.queue })
    posts := s.posts.map fun (p : Post) => { p with queue := f p.queue }
    engFaults := s.engFaults.map fun (e : EngFault) => { e with queue := f e.queue }
    publs := s.publs.map fun (p : Publ) => { p with queue := f p.queue }
    moving := s.moving.map fun m => (m.1, m.2.1, f m.2.2)
    spills := s.spills.map fun p => (f p.1, p.2) }

/-- Queues of a launch that is not over, mapped or parked. -/
def State.sameLaunch (s : State) (key : Nat) : List (Nat × Queue) :=
  s.queues.filter fun p => (p.2.bound || p.2.parked) && !p.2.refused && !p.2.closed && p.2.key == key

/-- The launch starts anew with this queue: no mapped queue runs it, and no cohort has been claimed. -/
def State.startsAnew (s : State) (qk : Nat) (key lrec : Nat) : Bool :=
  !(s.sameLaunch key).any (fun p => p.2.bound && p.1 != qk) && s.qNat qk (lrec + 224) 8 == 0 && s.qNat qk (lrec + 232) 8 == 0

/-- Some PLACE entry names a module or a die of which it is not known here whether it runs the launch (R313; log entry 48,
DESIGN CHOICE). -/
def State.placeUnsure (s : State) (qk : Nat) (l : Launch) : Bool :=
  l.place != 0 && (List.range l.cohorts).any fun i =>
    let e := s.qNat qk (l.place + 8 * i) 8
    let die := e / 512 % 4
    e.testBit 12 && !(e % 512 == s.modn && (!e.testBit 11 || die == qk / 64 || (s.sameLaunch (s.queueAt qk).key).any fun p => queueDie p.1 == die))

/-- LWHY of a launch at a die; where PLACE leaves it open whether the launch is refused, that is free. -/
def State.whyAt (s : State) (qk : Nat) (l : Launch) : Option Nat × State :=
  let w := s.launchWhy qk l
  if s.placeUnsure qk l then
    let p := s.freePick 2
    (if p.1 = 1 && w.all (5 < ·) then some 5 else w, p.2)
  else (w, s)

/-- The user cores of a die in service, in order (R253). -/
def State.userCores (s : State) (die : Nat) : List Nat :=
  ((List.range 96).map (96 * die + ·)).filter fun c => !(KMap.get {} s.cores c).shut && (s.dieAt die).fwcore != some c

/-- A mapped queue of a launch that runs on the die is served. -/
def State.serveQueue (s : State) (qk : Nat) : State :=
  s.owe [.rootRecordMake (qk / 64) (qk % 64), .placementDecision (qk / 64)]

/-- A queue whose launch this die takes on: the launch is checked, refused or made ready. Its record is read by the first die that starts
it and kept (R253, R310, R313, R315). -/
def State.admitLaunch (s : State) (qk : Nat) (q : Queue) : State :=
  let l := match s.sameLaunch q.key with
    | p :: _ => p.2.launch
    | [] => (s.setQueueAt qk q).readLaunch qk q.lrec
  let s := s.setQueueAt qk { q with launch := l }
  let w := s.whyAt qk l
  let s := w.2
  match w.1 with
  | some n =>
    let s := s.setQueueAt qk { q with launch := l, refused := true }
    let s := (s.setLstat qk 2).vaWrite (s.xlQueue qk) (q.lrec + 249) 1 n
    s.post { fault := false, queue := qk, entry := svcEntry 0 2 0 0 0 0 0 0 }
  | none =>
    let s := s.setQueueAt qk { q with launch := l, swings := s.readSwings qk l, owners := s.userCores (qk / 64) }
    (s.buildGroups qk l).serveQueue qk

/-- A queue that was parked is mapped again: positions, limits and rings are the descriptor's, the rest is what the dispatcher kept; after
a failed launch the record is read again (R317, R318, R327). -/
def State.unpark (s : State) (k qk : Nat) (q : Queue) : State :=
  let o := s.queueAt k
  let s := s.moveQueue k qk
  let failed := s.qNat qk (q.lrec + 248) 1 == 3
  let s := s.setQueueAt qk { o with
    bound := true, parked := false, desc := q.desc, ctx := q.ctx, ps := q.ps, free := q.free, ring := q.ring, rs := q.rs, head := q.head, tail := q.tail
    headAt := q.headAt, qpri := q.qpri, suspended := false, fbring := q.fbring, svring := q.svring, t1 := q.t1, t2 := q.t2, t3 := q.t3, age := q.age }
  (if failed then s.setQueueAt qk { s.queueAt qk with launch := s.readLaunch qk q.lrec } else s).serveQueue qk

/-- A descriptor is bound to a slot (R220, R313, R318). -/
def State.bindQueue (s : State) (qk a : Nat) : State :=
  let q := s.readQueue (qk / 64) a
  let s := s.setQueueAt qk q
  let s := if s.startsAnew qk q.key q.lrec then (s.endLaunch q.key).setQueueAt qk q else s
  match s.queues.find? fun p =>
      p.2.parked && !p.2.closed && !p.2.refused && queueDie p.1 == qk / 64 && p.2.key == q.key && p.2.rpool == q.rpool with
  | some p => s.unpark p.1 qk q
  | none => (s.setQueueAt qk {}).admitLaunch qk q

/-- A record that stands before a ring's own head goes into the ring. -/
def State.unheads (s : State) (qk : Nat) : State :=
  let s := (s.queueAt qk).heads.reverse.foldl (fun s h =>
    let q := s.queueAt qk
    let hd := (q.head.getD h.1 0 + 2 ^ 32 - 1) % 2 ^ 32
    (s.vaWrite (s.xlQueue qk) (q.ring.getD h.1 0 + 4 * (hd % 2 ^ q.rs.getD h.1 0)) 4 (q.index h.2.1)).setQueueAt qk
      { q with head := setNth q.head h.1 hd }) s
  s.setQueueAt qk { s.queueAt qk with heads := [] }

/-- The head and tail fields, FREE and QPRI go back to the descriptor, and the slot is free; what the dispatcher holds of the queue on chip
stays, for the day it is mapped again (R220, R317, R318, R327). -/
def State.unbindQueue (s : State) (qk : Nat) : State :=
  let s := s.unheads qk
  let q := s.queueAt qk
  let x := physXl (qk / 64)
  let s := (List.range 4).foldl (fun s i =>
    (s.vaWrite x (q.desc + 96 + 8 * i) 4 (q.head.getD i 0)).vaWrite x (q.desc + 100 + 8 * i) 4 (q.tail.getD i 0)) s
  let s := (s.vaWrite x (q.desc + 20) 4 q.free).vaWrite x (q.desc + 60) 1 q.qpri
  let s := s.poolFree q.kept
  let s := s.setQueueAt qk { q with bound := false, parked := true, kept := [] }
  ({ s with nextId := s.nextId + 1 }).moveQueue qk (64 * (4 * s.nextId + qk / 64))

/-- Cohorts of a queue whose teams stand on cores. -/
def State.onCores (s : State) (qk : Nat) : List Nat :=
  s.cohorts.filterMap fun p =>
    if p.2.queue == qk && !p.2.pixel && (p.2.status == .running || p.2.status == .saving) then some p.1 else none

/-- Dispatch stops, and every running cohort of the queue is saved (R220, R346). -/
def State.stopQueue (s : State) (qk : Nat) : State :=
  let s := s.setQueueAt qk { s.queueAt qk with suspended := true }
  (s.onCores qk).foldl (fun s c => if (s.cohortAt c).status == .running then s.save c else s) s

end Sys2Proof.Machine
end

