-- ==== Sys2Proof/Machine/System.lean ====
section
/-! DEFINITION. System instructions (R216 to R220): special registers, TIME, SYSC and its answer, the returns from a trap,
queue commands of the firmware core, and the asynchronous trap. -/

namespace Sys2Proof.Machine

/-! ## Values of special registers (R21, R216, R330, R388, R404) -/

/-- A core that takes user work: in service, not shuttered, not the firmware core (R1, R321, R385). -/
def State.userCore (s : State) (core : Nat) : Bool :=
  let c : Core := KMap.get {} s.cores core
  !c.drained && !c.shut && (s.dieAt (dieOf core)).fwcore != some core

/-- Teams that stand on a core: a record's teams leave their cores together (R206). -/
def State.teamsOn (s : State) (core : Nat) : List Nat :=
  s.teams.filterMap fun p =>
    let co := s.cohortAt p.2.cohort
    if p.2.core == core && p.2.status == .running && (co.status != .stopped && co.status != .ready) then some p.1 else none

/-- Free team slots of a die (R323, R330; log entry 31, DEDUCED). -/
def State.freeSlots (s : State) (die : Nat) : Nat :=
  if s.boot.stage < 3 then 0
  else
    ((List.range 96).map fun i =>
      if s.userCore (96 * die + i) then 48 - ((s.teamsOn (96 * die + i)).map fun t => (s.teamAt t).gangs.length).sum
      else 0).sum

/-- PASS of a kiln unit (R389). -/
def State.passOf (s : State) (die unit : Nat) : Nat := KMap.get s.boot.tested (s.dieAt die).passes unit

/-- CERTT of a die: the least PASS over its kiln units in service (R389). -/
def State.certt (s : State) (die : Nat) : Nat :=
  let d := s.dieAt die
  let units := (List.range 96).flatMap fun i =>
    let core := 96 * die + i
    let v := if (KMap.get {} s.cores core).shut || d.fwcore == some core then [] else [4 * core]
    let c := if i % 8 = 0 && !(s.mxAt (clusterOf core)).shut then [4 * core + 1, 4 * core + 2, 4 * core + 3] else []
    v ++ c
  (units.map (s.passOf die)).min?.getD s.boot.tested

def State.certm (s : State) : Nat := ((List.range 4).map s.certt).min?.getD 0

/-- MXSTAT (R181). -/
def Mx.stat (m : Mx) : Nat := m.valid.toNat + m.kind.toNat * 2 ^ 8 + boolNat m.red * 2 ^ 16 + m.ops.length % 16 * 2 ^ 20

/-- GSHAPE (R21). -/
def State.gshape (s : State) : Nat :=
  let g := match s.gang.kind, s.gang.partner with
    | .lintel, some p => s.gangAt p
    | _, _ => s.gang
  ((List.range 8).filter fun n => (g.sliceAt n).present).length + s.team.gangs.length % 32 * 2 ^ 8 +
    max 1 s.cohort.teams.length % 16 * 2 ^ 16

/-- Firmware registers (R330, R388, R404). -/
def State.fwReg (s : State) (die n : Nat) : Nat :=
  let d := s.dieAt die
  if n < 0x8008 then (d.l2pm.getD (n - 0x8000) 0#16).toNat
  else match n with
  | 0x8011 => s.freeSlots die
  | 0x8012 => d.migt
  | 0x8013 => ((List.range 64).map fun i => if (s.queueAt (64 * die + i)).bound then 2 ^ i else 0).sum
  | 0x8014 => d.elog
  | 0x8015 => d.kilniv
  | 0x8016 => d.ckilniv
  | 0x8017 => d.kretry
  | 0x8018 => d.hbmok.toNat + boolNat d.cxlok * 2 ^ 4 + d.ueok.toNat * 2 ^ 5 + boolNat d.half * 2 ^ 9
  | 0x8019 => s.plim
  | 0x801A => s.pnow % 65536 + boolNat (s.thr || s.hot) * 2 ^ 16
  | _ => 0

/-- The value of special register `n` for a lane of the issuing gang. A lintel program reads 0 as GANGID and QUADID, and its partner's
GSHAPE (log entry 106, DESIGN CHOICE). -/
def State.sregVal (s : State) (n l : Nat) : DWord :=
  let g := s.gang
  let t := s.team
  let nat := BitVec.ofNat 64
  let per := g.kind != .lintel
  if 0x28 ≤ n && n < 0x30 then (s.launch.fs.getD (n - 0x28) 0#32).setWidth 64
  else if 0x8000 ≤ n then nat (s.fwReg s.die n)
  else match n with
  | 0x00 => nat (if per then l else 0)
  | 0x01 => nat (if per then l / 4 else 0)
  | 0x02 => nat g.gid
  | 0x03 => nat t.teamid
  | 0x04 => s.cohort.cohid
  | 0x05 => nat s.gshape
  | 0x06 => nat (g.slot % 4)
  | 0x10 => g.qcfg
  | 0x20 => g.r.mstat
  | 0x21 => (g.srstateAt (if per then l else 0)).setWidth 64
  | 0x30 => g.tcause
  | 0x31 => g.tpc
  | 0x32 => g.tinfo
  | 0x33 => g.tlanes
  | 0x34 => nat (boolNat g.hstate)
  | 0x35 => g.ltpc
  | 0x40 => nat (s.mxAt (s.clusterOfGang s.gk)).stat
  | 0x50 => t.crec
  | 0x51 => t.frame
  | 0x52 => g.blast.setWidth 64
  | 0x60 => t.grpm
  | 0x70 => g.stklim.setWidth 64
  | 0x71 => nat g.region
  | 0x80 => t.hbase
  | 0x81 => t.hlimit
  | 0x82 => t.hoffs
  | 0x83 => t.wmax
  | 0x90 => nat (s.certt s.die)
  | 0x91 => nat s.time
  | 0x92 => nat s.certm
  | 0x93 => nat (s.kfail % 2 ^ 32)
  | 0xA0 => (s.dieAt s.die).cceshare
  | 0xB0 => nat s.queue.fbring
  | _ => 0#64

/-- Registers of 32 bits; the others are 64 bits wide (R216). -/
def sregNarrow (n : Nat) : Bool :=
  (n < 7 && n != 4) || n == 0x21 || (0x28 ≤ n && n < 0x30) || n == 0x52

/-- A firmware register outside a firmware core (R85). -/
def State.srPriv (s : State) (f : ClassS) : Bool := 0x8000 ≤ f.sreg.toNat && s.gang.kind != .firmware

def execSrd (f : ClassS) (s : State) : Res :=
  let n := f.sreg.toNat
  let wide := !sregNarrow n
  .next <|
    if f.h.g then
      match s.groupGate f.h [f.a.toNat] false (s.srPriv f) with
      | some s' => s'
      | none => s.done (s.setGang (s.gang.setG f.a.toNat (s.sregVal n ((lowest (s.gang.active s.pt)).getD 0))))
    else
      match s.laneGate f.h [] [Use.of f.a wide] false (s.srPriv f) with
      | some s' => s'
      | none =>
        s.done (s.setGang ((s.gang.effLanes s.pt f.h).foldl (fun g l => g.put f.a wide l (s.sregVal n l)) s.gang))

/-! ## SWR (R81, R216) -/

/-- The value of the lowest active lane, which a lane form gives a register with one value, whatever its predicate (R26, R216; log entry
105, DEDUCED). -/
def State.lowVal (s : State) (f : ClassS) (narrow : Bool) : DWord :=
  s.gang.src f.a (!narrow) ((lowest (s.gang.active s.pt)).getD 0)

/-- SWR: its gate, then the effect. `act` has the value for a register with one value, and the values of the lanes with an effect; the
group form has lane 32. -/
def State.swr (s : State) (f : ClassS) (narrow free : Bool) (act : State → DWord → List (Nat × DWord) → State) : State :=
  let go := fun (s : State) (one : DWord) (vals : List (Nat × DWord)) (ls : List Nat) (qs : List Nat) =>
    match (if free then none else s.engineGate) with
    | some s' => s'
    | none => act (s.setGang (s.gang.pop qs ls)) one vals
  if f.h.g then
    match s.groupGate f.h [f.a.toNat] false (s.srPriv f) with
    | some s' => s'
    | none => go s (s.gang.gAt f.a.toNat) [(32, s.gang.gAt f.a.toNat)] [] []
  else
    let u := Use.of f.a (!narrow)
    match s.laneGate f.h [u] [] false (s.srPriv f) with
    | some s' => s'
    | none =>
      let ls := s.gang.effLanes s.pt f.h
      go s (s.lowVal f narrow) (ls.map fun l => (l, s.gang.src f.a (!narrow) l)) ls (popped [u])

/-- SWR to a register with one value (R216). -/
def State.swrOne (s : State) (f : ClassS) (act : State → DWord → State) : State :=
  s.swr f false false fun s one _ => s.done (act s one)

/-- A value within a range the register states; outside it the spec names none, so a free one stands (log entry 32, DESIGN CHOICE). -/
def State.inRange (s : State) (lo hi v : Nat) : Nat × State :=
  if lo ≤ v && v ≤ hi then (v, s)
  else
    let p := s.freeVal
    (p.1.toNat, p.2)

/-- Firmware registers without a row of their own: the way masks, MIGT, ELOG and the kiln registers (R247, R330, R388). -/
def State.setFwReg (s : State) (die n v : Nat) : State :=
  let d := s.dieAt die
  if n < 0x8008 then s.setDieAt die { d with l2pm := setNth d.l2pm (n - 0x8000) (BitVec.ofNat 16 v) }
  else match n with
  | 0x8012 => let p := s.inRange 1 1000 v; p.2.setDieAt die { d with migt := p.1 }
  | 0x8014 => s.setDieAt die { d with elog := v }
  | 0x8015 => let p := s.inRange 10 10000 v; p.2.setDieAt die { d with kilniv := p.1 }
  | 0x8016 => let p := s.inRange 100 60000 v; p.2.setDieAt die { d with ckilniv := p.1 }
  | 0x8017 => let p := s.inRange 1 15 v; p.2.setDieAt die { d with kretry := p.1 }
  | _ => s

def execSwr (f : ClassS) (s : State) : Res := .next (s.swrOne f fun s v => s.setFwReg s.die f.sreg.toNat v.toNat)

/-- SWR to QCFG checks the value as QCFG does, before the predicate (R29, R90, R114). -/
def execQcfgWrite (f : ClassS) (s : State) : Res :=
  let u := Use.of f.a true
  .next <|
    if f.h.g then
      if s.gang.busyG f.a.toNat then s else s.writeQcfg (s.gang.geff s.pt f.h) (s.gang.gAt f.a.toNat)
    else
      let v := s.lowVal f false
      if s.gang.busyV u then s
      else if s.gang.badUse u || (s.gang.anyActive s.pt && !qcfgOk v s.gang.qent) then s.illegal 7
      else
        match s.laneGate f.h [u] [] false false with
        | some s' => s'
        | none => s.writeQcfg true v

/-- MSTAT: bits written as 1 are cleared (R57). -/
def execMstatClear (f : ClassS) (s : State) : Res :=
  .next (s.swr f false true fun s one _ =>
    let v := one &&& mstatMask
    s.done (s.setGang { s.gang with r := { s.gang.r with mstat := s.gang.r.mstat &&& ~~~v } }))

/-- SRSTATE's stored value (R50). -/
def srSeed (v : DWord) : Word := if v.setWidth 32 = 0#32 then 0x6D2B79F5#32 else v.setWidth 32

/-- SRSTATE: each active lane its own value; the group form writes the lowest active lane's (R216). -/
def execSrstateWrite (f : ClassS) (s : State) : Res :=
  .next (s.swr f true true fun s _ vals =>
    let low := if s.gang.kind == .lintel then 0 else (lowest (s.gang.active s.pt)).getD 0
    s.done (s.setGang (vals.foldl (fun g v => g.setSrstate (if v.1 = 32 then low else v.1) (srSeed v.2)) s.gang)))

/-- STKLIM: Min(value[31:0], SSIZE) with bits [3:0] cleared (R243). -/
def execStklimWrite (f : ClassS) (s : State) : Res :=
  .next (s.swrOne f fun s v =>
    let n := min (v.toNat % 2 ^ 32) s.gang.ssize / 16 * 16
    s.setGang { s.gang with stklim := BitVec.ofNat 32 n })

/-- HBASE, HLIMIT, HOFFS: bits [16:0] are written as 0, for the whole team (R333). -/
def execHeapRegWrite (f : ClassS) (s : State) : Res :=
  .next (s.swrOne f fun s v =>
    let w := v &&& ~~~0x1FFFF#64
    let t := s.team
    s.setTeam (match f.sreg.toNat with
      | 0x80 => { t with hbase := w }
      | 0x81 => { t with hlimit := w }
      | _ => { t with hoffs := w }))

/-- WINDOW: Min(value, the block's WMAX) (R333). -/
def execWindowWrite (f : ClassS) (s : State) : Res :=
  .next (s.swrOne f fun s v =>
    let lim := if s.queue.bound then s.queue.ctx.wmax else 255
    s.setTeam { s.team with wmax := BitVec.ofNat 64 (min (v.toNat % 256) lim) })

/-- CCESHARE of the die (R289). -/
def execCceshareWrite (f : ClassS) (s : State) : Res :=
  .next (s.swrOne f fun s v =>
    let cap := min (bitsOf v.toNat 32 7) 100
    s.setDieAt s.die { s.dieAt s.die with cceshare := BitVec.ofNat 64 (v.toNat % 2 ^ 32 + cap * 2 ^ 32) })

/-! ## GRST and PLIM (R211, R330, R404) -/

/-- The groups numbered `i` of the launches mapped on a die (log entry 33, DEDUCED). -/
def State.dieGroups (s : State) (die i : Nat) : List Nat :=
  (((s.queues.filter fun p => p.1 / 64 == die && p.2.bound).map fun p => p.2.key * 256 + i).eraseDups).filter fun k =>
    !(s.groupAt k).members.isEmpty

/-- The GRPM slots of a team that name a group. -/
def State.slotsOf (s : State) (team gkey : Nat) : List Nat :=
  ((grpmList (s.teamAt team).grpm).filter fun x => s.groupKey team x.2 == gkey).map (·.1)

/-- A member still holds a vote or an operation of the broken number. -/
def State.groupHeld (s : State) (gkey : Nat) : Bool :=
  !(s.groupAt gkey).ops.isEmpty || (s.groupTeams gkey).any fun t =>
    (s.teamAt t).gangs.any (fun k => match (s.gangAt k).vcast with
      | some v => v.grp == gkey
      | none => false) || (s.teamAt t).colls.any fun c => c.grp == gkey

/-- The group is whole again, and its counters restart in every member. -/
def State.rearm (s : State) (gkey : Nat) : State :=
  let g := s.groupAt gkey
  let s := s.setGroupAt gkey { g with
    broken := false, nodes := [], root := [], results := [], kept := [], early := [], gone := g.gone.map fun _ => 0 }
  (s.groupTeams gkey).foldl (fun s t =>
    (s.teamAt t).gangs.foldl (fun s k =>
      s.setGangAt k ((s.slotsOf t gkey).foldl (fun (g : Gang) i =>
        { g with vcnt := KMap.set 0#16 g.vcnt i 0#16, ocnt := KMap.set 0#16 g.ocnt i 0#16 }) (s.gangAt k))) s) s

def execGrstWrite (f : ClassS) (s : State) : Res :=
  .next (s.swr f false false fun s one _ =>
    let i := one.toNat % 256
    let ks := s.dieGroups s.die i
    if ks.any s.groupHeld then s.trap 20 0#64
    else s.done (ks.foldl (fun s k => s.rearm k) s))

def execPlimWrite (f : ClassS) (s : State) : Res :=
  .next (s.swrOne f fun s v => { s with plim := max 1500 (min (v.toNat % 65536) 4000) })

/-! ## TIME, SYSC (R217, R326) -/

def execTime (f : ClassS) (s : State) : Res :=
  .next (s.groupDo f.h [f.a.toNat] fun g =>
    g.setG f.a.toNat (BitVec.ofNat 64 (if f.sreg = 0#16 then s.time else s.clock)))

def execSysc (f : ClassB) (s : State) : Res :=
  .next <|
    match s.groupGate f.h [0, 1, 2, 3] false false with
    | some s' => s'
    | none =>
      match s.engineGate with
      | some s' => s'
      | none =>
        let g := s.gang
        if g.sysn ≠ 0 then (s.setGang { g with hold := .sysc }).owe [.syscAnswer s.gk]
        else if g.fenceWaits 5 2 then s
        else
          let e := svcEntry f.aux12.toNat 0 s.team.crec.toNat (g.gAt 0).toNat (g.gAt 1).toNat (g.gAt 2).toNat (g.gAt 3).toNat 0
          let n := s.nextId
          ({ s with nextId := n + 1 }.setGang { g with hold := .sysc, sysn := n, svent := 0#64 }).post
            { fault := false, queue := s.cohort.queue, entry := e, gang := some s.gk, sysc := n }

/-- SYSC_ANSWER: ANS is set, g0 to g3 take the entry's values with an acquire at SYS, and the gang goes on (R217, R326). -/
def execSyscAnswer (gang : Nat) (s : State) : Res :=
  let g := s.gangAt gang
  let qk := (s.cohortAt (s.teamAt g.team).cohort).queue
  let a := g.svent.toNat
  .next <|
    if g.ended || g.svent = 0#64 || g.hold != .sysc || (s.teamAt g.team).status != .running ||
      (s.cohortAt (s.teamAt g.team).cohort).status != .running then s
    else if s.qNat qk (a + 56) 1 % 2 = 0 then s
    else
      let x := s.xlQueue qk
      let pas := (List.range 64).filterMap fun i => match (s.lookup x (a + i)).1 with
        | .page pa _ => some pa
        | _ => none
      let g := (List.range 4).foldl (fun (g : Gang) i => g.setG i (BitVec.ofNat 64 (s.qNat qk (a + 16 + 8 * i) 8))) g
      let s := ((s.homeRead (s.dieOfGang gang) pas).setGangAt gang { g with svent := 0#64, sysn := 0, hold := .no }).acquire gang 6 (s.tagsHome pas)
      s.asPart gang g.last fun s => s.advance

/-! ## TRET and the asynchronous trap (R218, R219) -/

/-- A return from a trap: its gate, then the return, or the next word when no handler runs. -/
def State.tret (s : State) (f : ClassB) (skip : Bool) : State :=
  match s.groupGate f.h [] false false with
  | some s' => s'
  | none =>
    if s.stops then s.halt
    else if s.gang.hstate && s.gang.shadow.isSome then s.setGang (s.gang.trapReturn skip)
    else s.done s

def execTret (f : ClassB) (s : State) : Res := .next (s.tret f false)
def execTretSkip (f : ClassB) (s : State) : Res := .next (s.tret f true)

/-- The collective-broken trap ends what the gang held of the group: its cast vote and its operations (R112, R211). -/
def State.dropColl (s : State) (k grp : Nat) : State :=
  let g := s.gangAt k
  let t := s.teamAt g.team
  let mine := t.colls.filter fun c => c.grp % 256 == grp
  let ids := mine.flatMap fun c => (c.gangs.filter fun x => x.1 == k).map (·.2)
  let s := s.setTeamAt g.team { t with
    colls := (t.colls.map fun c => if c.grp % 256 = grp then { c with gangs := c.gangs.filter fun x => x.1 != k } else c).filter
      fun c => !c.gangs.isEmpty }
  s.setGangAt k { g with
    nets := g.nets.filter fun i => !ids.contains i
    vcast := match g.vcast with
      | some v => if v.grp % 256 = grp then none else some v
      | none => none }

/-- ASYNC_TRAP: a gang that stands on a core takes it between two words; that of a saved team takes it once it is restored
(R219). A lintel program hands it to its partner. -/
def execAsyncTrap (gang cause : Nat) (info : DWord) (s : State) : Res :=
  let g := s.gangAt gang
  let st := (s.teamAt g.team).status
  .next <|
    if g.ended || st == .ended || st == .stopped then s
    else if st == .saved || (s.cohortAt (s.teamAt g.team).cohort).status == .saving then s.owe [.asyncTrap gang cause info]
    else if cause = 20 && !g.commits.isEmpty then s.owe [.asyncTrap gang cause info]
    else if g.kind == .lintel then s.lintelTrap gang { cause := cause, lanes := 0#32, info := info, pc := g.pcOf 0 }
    else
      let s := s.asyncTake gang cause info g.ltpc
      if cause = 16 then s.dropColl gang (info.toNat % 256) else s

/-! ## Queue commands (R220) -/

/-- A queue command: privileged outside a firmware core; `act` has the slot's key and g[A]. -/
def State.queueCmd (s : State) (f : ClassS) (gs : List Nat) (act : State → Nat → DWord → State) : State :=
  match s.groupGate f.h gs false (s.gang.kind != .firmware) with
  | some s' => s'
  | none => act s (64 * s.die + f.sreg.toNat % 64) (s.gang.gAt f.a.toNat)

/-- The slot's queue is unbound, or the command waits while teams of it are being saved. -/
def State.unmapThen (s : State) (qk : Nat) (act : State → State) : State :=
  if (s.queueAt qk).bound then
    let s := s.stopQueue qk
    if (s.onCores qk).isEmpty then act (s.unbindQueue qk) else s
  else act s

def execQmap (f : ClassS) (s : State) : Res :=
  .next (s.queueCmd f [f.a.toNat] fun s qk a =>
    if !s.descOk s.die a.toNat then s.trap 20 a
    else s.unmapThen qk fun s => s.done (s.bindQueue qk a.toNat))

def execQunmap (f : ClassS) (s : State) : Res :=
  .next (s.queueCmd f [] fun s qk _ => s.unmapThen qk fun s => s.done s)

/-- SUSPEND and RESUME. -/
def State.setSuspended (s : State) (qk : Nat) (b : Bool) : State :=
  let q := s.queueAt qk
  if q.bound then s.setQueueAt qk { q with suspended := b } else s

def execQswSuspend (f : ClassS) (s : State) : Res :=
  .next (s.queueCmd f [f.a.toNat] fun s qk _ => s.done (s.setSuspended qk true))

def execQswResume (f : ClassS) (s : State) : Res :=
  .next (s.queueCmd f [f.a.toNat] fun s qk _ => s.done ((s.setSuspended qk false).owe [.placementDecision (qk / 64)]))

/-- PREEMPT: every running cohort of the queue is saved; a save without room in the frame pool waits (R220, R346, R347). The issuing core
waits until the cohorts that ran are saved. -/
def State.preempt (s : State) (qk : Nat) : State :=
  ((s.onCores qk).foldl (fun s c =>
    let co := s.cohortAt c
    if co.status == .running then (s.setCohortAt c { co with preempt := true }).save c else s) s).owe [.placementDecision (qk / 64)]

def execQswPreempt (f : ClassS) (s : State) : Res :=
  .next (s.queueCmd f [f.a.toNat] fun s qk _ =>
    let s := if s.gang.hold == .command then s else (s.preempt qk).setGang { (s.preempt qk).gang with hold := .command }
    if (s.onCores qk).any fun c => (s.cohortAt c).preempt then s
    else s.done (s.setGang { s.gang with hold := .no }))

/-- Cohorts of a queue with a COHID that have not ended. -/
def State.cohortsNamed (s : State) (qk : Nat) (cohid : DWord) : List Nat :=
  s.cohorts.filterMap fun p =>
    if p.2.queue == qk && !p.2.pixel && p.2.cohid == cohid && p.2.status != .stopped then some p.1 else none

/-- Records of a queue that wait with that COHID. -/
def Queue.waitsFor (q : Queue) (cohid : DWord) : Bool := q.cohids.any fun p => p.2 == cohid

def execQswKill (f : ClassS) (s : State) : Res :=
  .next (s.queueCmd f [f.a.toNat] fun s qk a =>
    let cs := s.cohortsNamed qk a
    if cs.isEmpty && !(s.queueAt qk).waitsFor a then s.trap 20 0#64
    else s.done ((cs.foldl (fun s c => s.kill c true none []) s).owe [.placementDecision (qk / 64)]))

def execQswPrio (f : ClassS) (s : State) : Res :=
  .next (s.queueCmd f [f.a.toNat] fun s qk a =>
    let q := s.queueAt qk
    s.done (if q.bound then s.setQueueAt qk { q with qpri := a.toNat % 4 } else s))

end Sys2Proof.Machine
end

