-- ==== Sys2Proof/Machine/Place.lean ====
section
/-! DEFINITION. Where teams go and how they start (R24, R35, R50, R91, R235, R236, R240, R242, R311, R316, R321, R333). -/

namespace Sys2Proof.Machine

/-! ## What a core holds -/

/-- An event is owed, unless it is owed already. -/
def State.oweOnce (s : State) (e : Instr) : State := if s.due.contains e then s else s.owe [e]

/-- What a team takes of a core. -/
structure TeamNeed where
  gangs   : Nat
  storage : Nat
  reserve : Nat
  nseg    : Nat
  deriving DecidableEq, Repr

/-- Register-file bytes of a gang (R24). -/
def Gang.storage (g : Gang) : Nat := 1024 * g.blocks + 128 * g.qent + 512

/-- What a team that exists takes. -/
def State.needOf (s : State) (t : Nat) : TeamNeed :=
  let tm := s.teamAt t
  { gangs := tm.gangs.length, storage := (tm.gangs.map fun k => (s.gangAt k).storage).sum, reserve := alignUp tm.spsz 4096,
    nseg := tm.im.nseg }

/-- What a team of a shape takes. -/
def Shape.need (x : Shape) : TeamNeed :=
  { gangs := x.gangs, storage := x.gangs * x.storage, reserve := x.reserve, nseg := x.nseg }

/-- A launch with a view table is resident on the die: each core keeps one gang slot for pixel continuations (R254). -/
def State.viewed (s : State) (die : Nat) : Bool :=
  s.queues.any fun p => p.1 / 64 == die && p.2.bound && !p.2.refused && 0 < p.2.launch.nview

/-- The lowest run of `n` free IMEM slots beside the runs in use (R91). -/
def freeRun (used : List (Nat × Nat)) (n : Nat) : Option Nat :=
  (List.range (65 - n)).find? fun p => used.all fun u => p + n ≤ u.1 || u.1 + u.2 ≤ p

/-- IMEM runs in use on a core. -/
def State.imemRuns (s : State) (core : Nat) : List (Nat × Nat) :=
  (s.teamsOn core).map fun t => ((s.teamAt t).im.place, (s.teamAt t).im.nseg)

/-- Gang slots in use on a core. -/
def State.slotsUsed (s : State) (core : Nat) : List Nat :=
  (s.teamsOn core).flatMap fun t => (s.teamAt t).gangs.map fun k => (s.gangAt k).slot

/-- A core in service that can hold a team (R24, R91, R235, R254). The slot kept for pixel continuations is theirs alone. -/
def State.coreFits (s : State) (core : Nat) (pixel : Bool) (n : TeamNeed) : Bool :=
  let ts := s.teamsOn core
  let plain := ts.filter fun t => !(s.cohortAt (s.teamAt t).cohort).pixel
  let slots := (plain.map fun t => (s.teamAt t).gangs.length).sum
  let needs := ts.map s.needOf
  (s.userCore core || pixel) &&
    (pixel || slots + n.gangs + boolNat (s.viewed (dieOf core)) ≤ 48) &&
    (s.slotsUsed core).length + n.gangs ≤ 48 &&
    (needs.map (·.storage)).sum + n.storage ≤ 524288 &&
    alignUp ((needs.map (·.reserve)).sum + n.reserve) 65536 ≤ 655360 &&
    (freeRun (s.imemRuns core) n.nseg).isSome

/-- Each team in ascending TEAMID on the lowest-numbered remaining core that can hold it (R321). -/
def State.assign (s : State) : List TeamNeed → List Nat → Option (List Nat)
  | [], _ => some []
  | n :: r, cores =>
    match cores.find? fun c => s.coreFits c false n with
    | none => none
    | some c => (s.assign r (cores.filter (· != c))).map (c :: ·)

/-- The cores of a cluster. -/
def clusterCores (c : Nat) : List Nat := (List.range 8).map (8 * c + ·)

/-- A cluster takes a mode; the eight L1s are emptied at a change (R240). -/
def State.setFused (s : State) (cluster : Nat) (fused : Bool) : State :=
  let m := s.mxAt cluster
  if m.fused == fused then s
  else (s.setMxAt cluster { m with fused := fused }).dropL1 (fun c => clusterOf c == cluster) fun _ => true

/-- The cluster holds no user team. -/
def State.clusterEmpty (s : State) (c : Nat) : Bool :=
  (clusterCores c).all fun i => (s.teamsOn i).isEmpty || (s.dieAt (dieOf i)).fwcore == some i

/-- The cluster runs in the mode of the launch, or can change to it (R240, R392). -/
def State.modeFits (s : State) (c : Nat) (fuse : Bool) : Bool :=
  (s.mxAt c).fused == fuse || s.clusterEmpty c

def State.fuseOk (s : State) (c : Nat) (fuse : Bool) : Bool :=
  !fuse || (clusterCores c).all fun i => !(KMap.get {} s.cores i).shut

/-- The lowest-numbered cluster of a die able to hold a cohort, and the cores of its teams (R321). `lintel`: its lintel core
has to be free too (R356). -/
def State.placeOn (s : State) (die : Nat) (fuse lintel : Bool) (needs : List TeamNeed) : Option (Nat × List Nat) :=
  ((List.range 12).map (12 * die + ·)).findSome? fun c =>
    if s.modeFits c fuse && s.fuseOk c fuse && (!lintel || ((s.mxAt c).free && (s.mxAt c).landing.isNone)) then
      (s.assign needs (clusterCores c)).map fun l => (c, l)
    else none

/-! ## Gang slots and stack regions (R35, R242) -/

/-- The lowest free slot of a quadrant. -/
def quadSlot (used : List Nat) (q : Nat) : Option Nat := ((List.range 12).map (4 * · + q)).find? fun i => !used.contains i

/-- `n` slots in rotation over the quadrants from `q`. -/
def slotsFrom (used : List Nat) (q : Nat) : Nat → List Nat
  | 0 => []
  | n + 1 =>
    match ((List.range 4).map fun i => (q + i) % 4).findSome? (quadSlot used) with
    | some x => x :: slotsFrom (x :: used) ((x + 1) % 4) n
    | none => []

/-- The quadrant that holds the fewest gangs, the lowest of those that tie. -/
def fewest (used : List Nat) : Nat :=
  let n := fun q => (used.filter fun x => x % 4 == q).length
  [1, 2, 3].foldl (fun b q => if n q < n b then q else b) 0

/-- Slots for `n` gangs of a team (R35). -/
def State.pickSlots (s : State) (core n : Nat) : List Nat :=
  let used := s.slotsUsed core
  slotsFrom used (fewest used) n

/-- The lowest-numbered free stack regions of the module for a launch. -/
def State.freeRegions (s : State) (qk n : Nat) : List Nat :=
  let q := s.queueAt qk
  let used := s.queues.flatMap fun p => if p.2.key == q.key && p.2.closed == q.closed then p.2.regions.map (·.1) else []
  -- at most `used.length` of the first `used.length + n` are taken
  ((List.range (min q.launch.stkn (used.length + n))).filter fun i => !used.contains i).take n

/-- Window-0 address of a region. -/
def Launch.regionAt (l : Launch) (i : Nat) : Nat := l.stkb + i * (8192 + l.ssize)

/-! ## Starting a team -/

/-- The registers of a gang at its start (R21, R24, R31, R50, R243). -/
def startGang (l : Launch) (cohid : DWord) (team teamid gid slot n blocks qent region pc : Nat) : Gang :=
  { team := team, gid := gid, slot := slot, blocks := blocks, qent := qent, ssize := l.ssize, region := region,
    stklim := BitVec.ofNat 32 l.ssize
    slices := (List.range n).map fun i => (i, ({ present := true, pc := BitVec.ofNat 18 pc } : Slice))
    r := { srstate := KMap.setAll 0#32 [] (lanes.map fun x => (x, seedWord l.lseed cohid teamid gid x)) } }

/-- The registers of a team at its start, its window with the entry segment being fetched, its scratchpad zero
(R91, R236, R333). -/
def State.startTeam (s : State) (qk cohort teamid core spsz nseg code frame crec : Nat) (gangs : List Nat) (grpm : DWord) : Team :=
  let q := s.queueAt qk
  let l := q.launch
  { cohort := cohort, teamid := teamid, core := core, gangs := gangs, spsz := spsz
    im := { nseg := nseg, place := (freeRun (s.imemRuns core) nseg).getD 0
            slots := [(0, ({ st := .fetching, src := BitVec.ofNat 72 (code / 4096 * 4096) } : ISlot))] }
    hbase := l.hbase, hlimit := l.hlimit, hoffs := l.hoffs, wmax := BitVec.ofNat 64 q.ctx.wmax, grpm := grpm
    crec := BitVec.ofNat 64 crec, frame := BitVec.ofNat 64 frame, since := s.clock }

/-- One team of a new cohort: its gangs, its slots and its regions. -/
def State.addTeam (s : State) (qk cohort teamid core : Nat) (x : Shape) (code frame crec : Nat) (cohid grpm : DWord)
    (regions : List Nat) : State :=
  let l := (s.queueAt qk).launch
  let t := s.nextId
  let ks := (List.range x.gangs).map (t + 1 + ·)
  let slots := s.pickSlots core x.gangs
  let team := s.startTeam qk cohort teamid core x.spsz x.nseg code frame crec ks grpm
  let s := { s with nextId := t + 1 + x.gangs, runq := s.runq ++ ks }
  let s := (List.range x.gangs).foldl (fun s i =>
    s.setGangAt (t + 1 + i) (startGang l cohid t teamid i (slots.getD i 0) x.slices x.blocks x.qent
      (l.regionAt (regions.getD i 0)) (code % 4096))) s
  let s := s.setTeamAt t team
  let s := s.setCohortAt cohort { s.cohortAt cohort with teams := (s.cohortAt cohort).teams ++ [t] }
  (s.logEvent (dieOf core) 0 core 0 crec cohid.toNat).owe [.segmentLanded t 0]

/-- The cohort of a record starts on a cluster (R321). -/
def State.startCohort (s : State) (qk crec cluster : Nat) (cores : List Nat) (x : Shape) (code frame : Nat) (cohid : DWord)
    (root : Bool) (regions : List Nat) : State :=
  let l := (s.queueAt qk).launch
  let h := s.homeQueue qk crec
  let idx := (s.queueAt h).index crec
  let c := s.nextId
  let s := { s with nextId := c + 1 }
  let s := s.setCohortAt c { cohid := cohid, crec := BitVec.ofNat 64 crec, cluster := cluster, queue := qk }
  let q := s.queueAt h
  let s := s.setQueueAt h { q with regions := KMap.setAll 0 q.regions (regions.map fun r => (r, idx + 1)) }
  let s := s.setFused cluster l.fusel1
  (cores.zipIdx).foldl (fun s p =>
    let grpm := if root then s.gmapAt qk l cohid.toNat p.2 else 0#64
    s.addTeam qk c p.2 p.1 x code frame crec cohid grpm ((regions.drop (p.2 * x.gangs)).take x.gangs)) s

end Sys2Proof.Machine
end

