-- ==== Sys2Proof/Machine/Kiln.lean ====
section
/-! DEFINITION. Kiln passes and shuttering (R385 to R391, R397), consumed errors (R394, R395), and the watchdog (R328). -/

namespace Sys2Proof.Machine

/-- Clocks in n microseconds (R5). -/
def micros (n : Nat) : Nat := 1750 * n

/-! ## Draining (R385, R386) -/

/-- Nothing more is placed on these cores, and every cohort with a team there is saved. -/
def State.drain (s : State) (cores : List Nat) : State :=
  let s := cores.foldl (fun s c => s.setCoreAt c { s.coreAt c with drained := true }) s
  let cs := ((cores.flatMap s.teamsOn).map fun t => (s.teamAt t).cohort).eraseDups
  cs.foldl (fun s c =>
    let co := s.cohortAt c
    if co.status == .running && !co.pixel then s.save c else s) s

/-- Cores come back, but for those that are to be shuttered. -/
def State.undrain (s : State) (cores : List Nat) : State :=
  cores.foldl (fun s c => s.setCoreAt c { s.coreAt c with drained := (s.coreAt c).leaving }) s

/-- A cohort whose lintel program runs on a cluster is saved. -/
def State.saveLintel (s : State) (cluster : Nat) : State :=
  match (s.mxAt cluster).prog with
  | some k =>
    let c := (s.teamAt (s.gangAt k).team).cohort
    if (s.cohortAt c).status == .running then s.save c else s
  | none => s

/-- The cores that a core pass drains: the whole cluster where it runs fused (R240). -/
def State.passCores (s : State) (core : Nat) : List Nat :=
  if (s.mxAt (clusterOf core)).fused then (clusterCores (clusterOf core)).filter fun c => (s.dieAt (dieOf c)).fwcore != some c
  else [core]

/-! ## Shuttering (R391) -/

/-- KFAIL, the shutter entry and the journal's list. `code` names the unit in the journal: a core by its number, a cluster
unit by 512 + 3 × cluster + UKIND − 1. -/
def State.noteShut (s : State) (die unit ukind code : Nat) : State :=
  let s := s.logEvent die 4 unit ukind 0 0
  { s with kfail := (s.kfail + 1) % 2 ^ 32, boot := { s.boot with shutNow := s.boot.shutNow ++ [code] } }

/-- An empty vector core is shuttered. -/
def State.shutCore (s : State) (core : Nat) : State :=
  if (s.coreAt core).shut then s
  else
    let d := s.dieAt (dieOf core)
    let s := s.setCoreAt core { shut := true }
    let s := s.setDieAt (dieOf core) { d with corePass := if d.corePass.any fun p => p.unit == core then none else d.corePass }
    s.noteShut (dieOf core) core 0 core

/-- A core is drained, and shuttered once it holds no team. -/
def State.retireCore (s : State) (core : Nat) : State :=
  if (s.coreAt core).shut || (s.dieAt (dieOf core)).fwcore == some core then s
  else
    let s := s.drain [core]
    if (s.teamsOn core).isEmpty then s.shutCore core
    else s.setCoreAt core { s.coreAt core with leaving := true }

/-- Cores that have emptied since. -/
def State.shutLeaving (s : State) : State :=
  s.cores.foldl (fun s p => if p.2.leaving && (s.teamsOn p.1).isEmpty then s.shutCore p.1 else s) s

/-- A failure of a lintel core, MXE or TFU takes the whole cluster. -/
def State.shutCluster (s : State) (c ukind : Nat) : State :=
  if (s.mxAt c).shut then s
  else
    let s := s.setMxAt c { s.mxAt c with shut := true, drained := false }
    let s := (s.saveLintel c).noteShut (c / 12) (8 * c) ukind (512 + 3 * c + ukind - 1)
    (clusterCores c).foldl (fun s i => s.retireCore i) s

/-! ## Passes (R385 to R387, R397) -/

/-- The next core of the rotation. -/
def State.nextCore (s : State) (die : Nat) : Option Nat :=
  let d := s.dieAt die
  ((List.range 96).map fun i => 96 * die + (d.coreRot + i) % 96).find? fun c =>
    !(s.coreAt c).shut && !(s.coreAt c).leaving && d.fwcore != some c

/-- The next cluster of the rotation. -/
def State.nextCluster (s : State) (die : Nat) : Option Nat :=
  ((List.range 12).map fun i => 12 * die + ((s.dieAt die).clusRot + i) % 12).find? fun c => !(s.mxAt c).shut

/-- A core pass stands in the cluster. -/
def Die.coreIn (d : Die) (c : Nat) : Bool := d.corePass.any fun p => clusterOf p.unit == c

def State.startCluster (s : State) (die c : Nat) (extra : Bool) : State :=
  let s := s.setMxAt c { s.mxAt c with drained := true }
  let s := s.setDieAt die { s.dieAt die with clusPass := some { unit := c, start := s.clock, extra := extra } }
  s.saveLintel c

/-- A cluster pass that waits starts where it may: one that a mismatch asks for, else the one that is due. -/
def State.kilnNext (s : State) (die : Nat) : State :=
  let d := s.dieAt die
  if d.clusPass.isSome then s
  else
    match d.clusAsk.find? fun c => !d.coreIn c with
    | some c =>
      let s := s.setDieAt die { d with clusAsk := d.clusAsk.filter (· != c) }
      if (s.mxAt c).shut then s else s.startCluster die c true
    | none =>
      match s.nextCluster die with
      | some c =>
        if d.clusDue && !d.coreIn c then (s.setDieAt die { d with clusDue := false }).startCluster die c false else s
      | none => s

/-- KILN_CORE_TIMER: the next core's drain starts; a die runs one core pass at a time, and none in the cluster of its
cluster pass. -/
def execKilnCoreTimer (die : Nat) (s : State) : Res :=
  let d := s.dieAt die
  .next <|
    match d.corePass, s.nextCore die with
    | none, some c =>
      if d.clusPass.any fun p => p.unit == clusterOf c then s.oweOnce (.kilnCoreTimer die)
      else (s.setDieAt die { d with corePass := some { unit := c, start := s.clock } }).drain (s.passCores c)
    | _, _ => s

def execKilnClusterTimer (die : Nat) (s : State) : Res :=
  .next ((s.setDieAt die { s.dieAt die with clusDue := true }).kilnNext die)

/-- The unit of a pass holds no team. -/
def State.drainedEmpty (s : State) (matrix : Bool) (p : Kiln) : Bool :=
  if matrix then (s.mxAt p.unit).prog.isNone else (s.passCores p.unit).all fun c => (s.teamsOn c).isEmpty

/-- KILN_DRAIN_COMPLETE: the drain instant; the scan starts. -/
def execKilnDrainComplete (die : Nat) (matrix : Bool) (s : State) : Res :=
  let d := s.dieAt die
  .next <|
    match (if matrix then d.clusPass else d.corePass) with
    | none => s
    | some p =>
      if p.scanning || !s.drainedEmpty matrix p then s
      else
        let p := { p with scanning := true, instant := s.time }
        s.setDieAt die (if matrix then { d with clusPass := some p } else { d with corePass := some p })

/-- The pass ends: its unit is free, and the rotation goes on unless a mismatch asked for the pass. -/
def State.endPass (s : State) (die : Nat) (matrix : Bool) (p : Kiln) : State :=
  let d := s.dieAt die
  let s := s.setDieAt die
    (if matrix then { d with clusPass := none, clusRot := if p.extra then d.clusRot else (p.unit + 1) % 12 }
     else { d with corePass := none, coreRot := (p.unit + 1) % 96 })
  (s.kilnNext die).oweOnce (.placementDecision die)

/-- The lintel core, MXE and TFU return; a FORK that waited is served. -/
def State.undrainMx (s : State) (c : Nat) : State :=
  let s := s.setMxAt c { s.mxAt c with drained := false }
  if (s.mxAt c).forks.isEmpty then s else s.owe [.lintelStart c]

/-- A kiln unit's PASS becomes the drain instant (R389). -/
def State.setPass (s : State) (die unit instant : Nat) : State :=
  s.setDieAt die { s.dieAt die with passes := KMap.set 0 (s.dieAt die).passes unit instant }

/-- KILN_SCAN_COMPLETE: the unit returns to service with its PASS and an entry of kind 2, or fails: an entry of kind 3 with the
window that began at its PASS, and it is shuttered. Which of a cluster's three units failed is free. -/
def execKilnScanComplete (die : Nat) (matrix : Bool) (pass : Bool) (s : State) : Res :=
  let d := s.dieAt die
  .next <|
    match (if matrix then d.clusPass else d.corePass) with
    | none => s
    | some p =>
      if !p.scanning then s
      else if matrix then
        let core := 8 * p.unit
        if pass then
          let s := [1, 2, 3].foldl (fun s k => (s.setPass die (4 * core + k) p.instant).logEvent die 2 core k 0 0) s
          (s.undrainMx p.unit).endPass die true p
        else
          let k := s.freePick 3
          let s := k.2.logEvent die 3 core (k.1 + 1) (k.2.passOf die (4 * core + k.1 + 1)) 0
          (s.shutCluster p.unit (k.1 + 1)).endPass die true p
      else
        let cores := s.passCores p.unit
        if pass then
          let s := (s.setPass die (4 * p.unit) p.instant).logEvent die 2 p.unit 0 0 0
          let s := (s.setCoreAt p.unit {}).dropL1 (fun c => c == p.unit || (cores.length != 1 && c == 8 * clusterOf p.unit)) fun _ => true
          (s.undrain cores).endPass die false p
        else
          let s := s.logEvent die 3 p.unit 0 (s.passOf die (4 * p.unit)) 0
          ((s.undrain (cores.filter (· != p.unit))).shutCore p.unit).endPass die false p

/-! ## UNCORRECTABLE_ERROR_CONSUMED (R394) -/

/-- The failing function is retired; `k` says which of a cluster's units it is. -/
def State.retirePlace (s : State) (p : ErrorPlace) (k : Nat) : State :=
  match p with
  | .core c => s.retireCore c
  | .cluster c => s.shutCluster c k
  | .l2 slice set way => { s with ways := s.ways ++ [(slice, set, way)] }
  | .frame pa => { s with badFrames := if s.badFrames.contains (pa / 131072) then s.badFrames else s.badFrames ++ [pa / 131072] }

/-- Unit, its kind and address of an error, for the log (R393). -/
def errorEntry (p : ErrorPlace) (k : Nat) : Nat × Nat × Nat :=
  match p with
  | .core c => (c, 0, 0)
  | .cluster c => (8 * c, k, 0)
  | .l2 slice _ _ => (96 * (slice / 64), 4, 0)
  | .frame pa => frameError pa

/-- The die an error's entry stands on. -/
def errorDie (p : ErrorPlace) : Nat := (errorEntry p 1).1 / 96 % 4

/-- Which of a cluster's units an error stands in: lintel core 1, MXE 2 or TFU 3, a free choice (log entry 87, DESIGN CHOICE). -/
def State.errorUnit (s : State) (p : ErrorPlace) : Nat × State :=
  match p with
  | .cluster _ => ((s.freePick 3).1 + 1, (s.freePick 3).2)
  | _ => (0, s)

/-- The consumer's cohort is killed and relaunched, then the failing function is retired. Without a cohort there is only the
entry. -/
def execUncorrectableErrorConsumed (cohort : Nat) (place : ErrorPlace) (s : State) : Res :=
  let co := s.cohortAt cohort
  let k := s.errorUnit place
  let e := errorEntry place k.1
  let s := k.2
  .next <|
    if (s.queueAt co.queue).bound && !co.teams.isEmpty then
      ((s.dataKill cohort e).retirePlace place k.1).oweOnce (.placementDecision (queueDie co.queue))
    else (s.logEvent (errorDie place) 5 e.1 e.2.1 e.2.2 0).retirePlace place k.1

/-! ## The watchdog (R328) -/

/-- The team has held its core for `n` µs. -/
def State.heldFor (s : State) (team n : Nat) : Bool :=
  let t := s.teamAt team
  let co := s.cohortAt t.cohort
  (s.queueOf team).bound && t.status == .running && (co.status == .running || co.status == .saving) && !co.pixel &&
    t.since + micros n ≤ s.clock

/-- T1: QSW PREEMPT of the queue. -/
def execWatchdogT1 (team : Nat) (s : State) : Res :=
  .next (if s.heldFor team (s.queueOf team).t1 then s.preempt (s.cohortAt (s.teamAt team).cohort).queue else s)

/-- QSW KILL of a team's cohort, with the watchdog-kill entry. -/
def State.watchKill (s : State) (team : Nat) : State :=
  let t := s.teamAt team
  let qk := (s.cohortAt t.cohort).queue
  let s := s.kill t.cohort true none []
  (s.post { fault := false, queue := qk, entry := svcEntry 0 4 t.crec.toNat 0 0 0 0 0 }).oweOnce (.placementDecision (qk / 64))

/-- T2: the cohort of a team still not saved is killed. -/
def execWatchdogT2 (team : Nat) (s : State) : Res :=
  .next (if s.heldFor team (s.queueOf team).t2 then s.watchKill team else s)

/-- T3: the core that has not freed the team's slot is shuttered; what stands on it goes as under T2. -/
def execWatchdogT3 (team : Nat) (s : State) : Res :=
  .next (if s.heldFor team (s.queueOf team).t3 then (s.watchKill team).retireCore (s.teamAt team).core else s)

end Sys2Proof.Machine
end

