-- ==== Sys2Proof/Machine/HostPort.lean ====
section
/-! DEFINITION. The host port (R369 to R375): host queues, BAR2 accesses, completions; peer reads (R379); the loss of a CXL
link (R377); and the attestation report that firmware builds on a command (R400). -/

namespace Sys2Proof.Machine

def State.fnAt (s : State) (fn : Nat) : HostFn := KMap.get {} s.fns fn
def State.setFn (s : State) (fn : Nat) (f : HostFn) : State := { s with fns := KMap.set {} s.fns fn f }
def State.hqAt (s : State) (fn q : Nat) : HQueue := KMap.get {} (s.fnAt fn).queues q
def State.setHq (s : State) (fn q : Nat) (h : HQueue) : State :=
  s.setFn fn { s.fnAt fn with queues := KMap.set {} (s.fnAt fn).queues q h }

/-- The translation of a function: window 0 of the context bound to it, no heap window (R370). -/
def HostFn.xl (f : HostFn) : Xl := { bound := f.ctx.isSome, ctx := f.ctx.getD {}, hlimit := 0, wmax := 0, die := 0 }

/-- The host error log (R370, R379, R393). -/
def State.hostError (s : State) (a : Nat) : State := s.logEvent 0 7 0 7 a 0

/-! ## Host queues (R372 to R374) -/

/-- STOP (R372, R374). -/
def HQueue.stop (h : HQueue) : Bool := h.stale || h.baddb

/-- Entries of the ring. -/
def HQueue.size (h : HQueue) : Nat := 2 ^ h.qlog

/-- The entry at HEAD as the device reads it; one that is not mapped reads as free bytes. -/
def State.hqEntry (s : State) (fn q : Nat) : List Byte × State :=
  let f := s.fnAt fn
  let h := s.hqAt fn q
  match (if f.ctx.isSome then s.vaBytes f.xl (h.qbase + 64 * h.head) 64 else none) with
  | some b => (b, s)
  | none => s.freeBytes 64

/-- One turn of Drain: the entry at HEAD is read; a current one is delivered, another is read again, 16 times in all. An entry
already waited for is waited for whatever LT and STOP become meanwhile: the inner loop of R374 looks at neither. The result
says that a further entry is to be taken. -/
def State.hqTake (s : State) (fn q : Nat) : Bool × State :=
  let h := s.hqAt fn q
  if h.reads = 0 && (h.head = h.lt || h.stop) then (false, s)
  else
    let e := s.hqEntry fn q
    let s := e.2
    let ph := (e.1.headD 0#8).getLsbD 0
    if ph == h.phase then
      let n := (h.head + 1) % h.size
      (true, { s.setHq fn q { h with head := n, phase := if n = 0 then !h.phase else h.phase, reads := 0 } with
        cmds := s.cmds ++ [(fn, q, e.1)] })
    else if h.reads + 1 < 16 then (false, (s.setHq fn q { h with reads := h.reads + 1 }).owe [.hqEntryReread fn q])
    else (false, { s.setHq fn q { h with stale := true, reads := 0 } with
      hostOut := s.hostOut ++ [HostOut.queueError fn q h.head 1, HostOut.msix fn] })

/-- Drain, for as many entries as the ring has. -/
def State.hqDrain (s : State) (fn q : Nat) : Nat → State
  | 0 => s
  | n + 1 =>
    let r := s.hqTake fn q
    if r.1 then r.2.hqDrain fn q n else r.2

/-- A drain starts unless one is waiting for its entry; before stage 3 has opened the queues none does (R399; log entry 97, DEDUCED). -/
def State.hqGo (s : State) (fn q : Nat) : State :=
  let h := s.hqAt fn q
  if h.reads = 0 && s.boot.opened then s.hqDrain fn q (h.size + 1) else s

/-- The host queues open: each takes what its latched tail names (R399). -/
def State.openQueues (s : State) : State :=
  s.fns.foldl (fun s f => f.2.queues.foldl (fun s q => if (s.hqAt f.1 q.1).stop then s else s.hqGo f.1 q.1) s) s

/-- HQ_TAIL_WRITE. -/
def execHqTailWrite (fn q tail : Nat) (s : State) : Res :=
  let h := s.hqAt fn q
  .next <|
    if h.qlog = 0 then s
    else if h.size ≤ tail then s.setHq fn q { h with baddb := true }
    else
      let s := s.setHq fn q { h with lt := tail }
      if h.stop then s else s.hqGo fn q

/-- HQ_ENTRY_REREAD: the drain goes on with the entry it waits for. -/
def execHqEntryReread (fn q : Nat) (s : State) : Res :=
  let h := s.hqAt fn q
  .next (if h.reads = 0 then s else s.hqDrain fn q (h.size + 1))

/-- HQ_STATUS_CLEAR: bits written as 1 are cleared; with both clear the queue takes entries again. -/
def execHqStatusClear (fn q bits : Nat) (s : State) : Res :=
  let h := s.hqAt fn q
  let h := { h with stale := h.stale && !bits.testBit 0, baddb := h.baddb && !bits.testBit 1 }
  .next <|
    let s := s.setHq fn q h
    if h.stop then s else s.hqGo fn q

/-- HQ_QLOG_WRITE: HEAD and the latched tail become 0, the expected phase 1. A value other than 0 and 4 to 16 leaves a free one (R372; log
entry 32, DESIGN CHOICE). -/
def execHqQlogWrite (fn q value : Nat) (s : State) : Res :=
  let v := value % 32
  let p := if v = 0 || (4 ≤ v && v ≤ 16) then (v, s) else s.freePick 32
  .next (p.2.setHq fn q { s.hqAt fn q with qlog := p.1, head := 0, lt := 0, phase := true, reads := 0 })

/-- HQ_COMPLETION: the completion, then the function's MSI-X message (R375). -/
def execHqCompletion (fn q addr : Nat) (body : List Byte) (s : State) : Res :=
  .next { s with hostOut := s.hostOut ++ [HostOut.completion fn q addr body, HostOut.msix fn] }

/-! ## BAR2 (R370, R371) -/

/-- The physical addresses behind a range of BAR2; none where some byte is not mapped, resident and permitted. -/
def State.barPas (s : State) (fn off n : Nat) (nd : Need) : Option (List Nat) :=
  let f := s.fnAt fn
  if f.ctx.isNone then none
  else (List.range n).mapM fun i =>
    match (s.lookup f.xl (off + i)).1 with
    | .page pa leaf => if nd.met leaf then some pa else none
    | _ => none

/-- The requester of an inbound posted write. -/
def requesterOf : Instr → Option Nat
  | .inboundPostedWrite _ rid _ _ _ => some rid
  | _ => none

/-- An earlier write of the requester waits, so this one does. -/
def State.inboundWaits (s : State) (rid : Nat) (e : Instr) : Bool :=
  match s.inbound.find? fun w => requesterOf w == some rid with
  | some w => w != e
  | none => false

/-- Some byte of a range of BAR2 stands on an ordered-inbound page (R371). -/
def State.barOi (s : State) (fn off n : Nat) : Bool :=
  (List.range n).any fun i => match (s.lookup (s.fnAt fn).xl (off + i)).1 with
    | .page _ leaf => entOi leaf
    | _ => false

/-- An inbound posted write waits with those that have arrived. -/
def State.inboundWait (s : State) (e : Instr) : State :=
  { s with inbound := if s.inbound.contains e then s.inbound else s.inbound ++ [e] }.owe [e]

/-- An inbound posted write is performed at SYS, or discarded and logged; one that a held atomic keeps out waits (R110, R370). -/
def State.inboundDo (s : State) (fn off : Nat) (body : List Byte) (e : Instr) : State :=
  match s.barPas fn off body.length { w := true } with
  | some pas =>
    if s.lockedPas pas then s.inboundWait e
    else ({ s with inbound := s.inbound.erase e }.logDown pas).writeNow (homeDie (pas.headD 0)) (pas.zip body) []
  | none => { s with inbound := s.inbound.erase e }.hostError off

/-- INBOUND_POSTED_WRITE: performed in the order in which its requester's writes have arrived; one with relaxed ordering, to pages that are
not ordered-inbound, may pass those that wait, which is free (R232, R371). -/
def execInboundPostedWrite (fn rid off : Nat) (body : List Byte) (ro : Bool) (s : State) : Res :=
  let e := Instr.inboundPostedWrite fn rid off body ro
  .next <|
    if !s.inboundWaits rid e then s.inboundDo fn off body e
    else if ro && !s.barOi fn off body.length then
      let p := s.freePick 2
      if p.1 = 1 then p.2.inboundDo fn off body e else p.2.inboundWait e
    else s.inboundWait e

/-- INBOUND_READ: completes with the bytes, or with Unsupported Request and a log entry. What the host reads behind a link
that is down is free. -/
def execInboundRead (fn off len : Nat) (s : State) : Res :=
  .next <|
    match s.barPas fn off len { r := true } with
    | some pas =>
      if pas.any s.portDown then
        let b := s.freeBytes len
        { b.2 with hostOut := b.2.hostOut ++ [HostOut.readDone fn off (some b.1)] }
      else { s with hostOut := s.hostOut ++ [HostOut.readDone fn off (some (pas.map s.byteHome))] }
    | none => { s.hostError off with hostOut := s.hostOut ++ [HostOut.readDone fn off none] }

/-- INBOUND_ATOMIC (R369). -/
def execInboundAtomic (fn off : Nat) (s : State) : Res := .next { s with hostOut := s.hostOut ++ [HostOut.unsupported fn off] }

/-! ## Peers and CXL (R377, R379) -/

/-- P_READ_COMPLETION: the load takes the bytes; on an error or a timeout all ones, and the address is logged. -/
def execPReadCompletion (gang id : Nat) (body : Option (List Byte)) (s : State) : Res :=
  .next <|
    match s.pcieOut.find? fun r => r.id == id && r.gang == gang && r.body.isNone with
    | none => s
    | some r =>
      let s := { s with pcieOut := s.pcieOut.filter fun x => x.id != id }
      let g := s.gangAt gang
      let s := s.setGangAt gang { g with pios := g.pios.filter (· != id) }
      match body with
      | some b => (s.answer (id % 2 ^ 20) b).endCheck gang
      | none => ((s.hostError r.addr).answer (id % 2 ^ 20) (List.replicate r.len 0xFF#8)).endCheck gang

/-- CXL_LINK_DOWN: from now on reads of the port are data errors of their consumers, and writes to it are discarded. -/
def execCxlLinkDown (die : Nat) (s : State) : Res := .next (s.setDieAt die { s.dieAt die with cxlDown := true })

/-! ## The attestation report (R400) -/

/-- Bytes 0x000 to 0x13F of the report for a 48-byte nonce. A measurement register stands as SHA-384 gives it, first byte
first. -/
def State.attestation (s : State) (nonce : List Byte) : List Byte :=
  let shut := (List.range 384).filter fun c => (s.coreAt c).shut
  let mx := (List.range 48).filter fun c => (s.mxAt c).shut
  leBytes 8 1 ++ nonce.take 48 ++ (s.boot.meas.flatMap fun m => (leBytes 48 m.toNat).reverse) ++ leBytes 8 s.time ++
    leBytes 8 s.certm ++ leBytes 4 s.kfail ++ leBytes 4 (shut.length + 3 * mx.length) ++
    leBytes 48 (shut.foldl (fun m c => m + 2 ^ c) 0)

/-- The report of 416 bytes; the 96 bytes of its signature, made with a key that only die 0 holds, are free (R400; log entry 53, DESIGN
CHOICE). -/
def State.report (s : State) (nonce : List Byte) : List Byte × State :=
  let p := s.freeBytes 96
  (s.attestation nonce ++ p.1, p.2)

end Sys2Proof.Machine
end

