-- ==== Sys2Proof/Machine/Sha.lean ====
section
/-! DEFINITION. SHA-384 of a 96-byte message, for the measurement registers (R399). The function is the one FIPS 180-4
names SHA-384; a register or a digest is a 384-bit number whose first byte is the most significant. -/

namespace Sys2Proof.Machine

/-- Round constants of the 64-bit SHA-2 functions. -/
def shaK : List Nat :=
  [
   0x428A2F98D728AE22, 0x7137449123EF65CD, 0xB5C0FBCFEC4D3B2F, 0xE9B5DBA58189DBBC,
   0x3956C25BF348B538, 0x59F111F1B605D019, 0x923F82A4AF194F9B, 0xAB1C5ED5DA6D8118,
   0xD807AA98A3030242, 0x12835B0145706FBE, 0x243185BE4EE4B28C, 0x550C7DC3D5FFB4E2,
   0x72BE5D74F27B896F, 0x80DEB1FE3B1696B1, 0x9BDC06A725C71235, 0xC19BF174CF692694,
   0xE49B69C19EF14AD2, 0xEFBE4786384F25E3, 0x0FC19DC68B8CD5B5, 0x240CA1CC77AC9C65] ++
  [
   0x2DE92C6F592B0275, 0x4A7484AA6EA6E483, 0x5CB0A9DCBD41FBD4, 0x76F988DA831153B5,
   0x983E5152EE66DFAB, 0xA831C66D2DB43210, 0xB00327C898FB213F, 0xBF597FC7BEEF0EE4,
   0xC6E00BF33DA88FC2, 0xD5A79147930AA725, 0x06CA6351E003826F, 0x142929670A0E6E70,
   0x27B70A8546D22FFC, 0x2E1B21385C26C926, 0x4D2C6DFC5AC42AED, 0x53380D139D95B3DF,
   0x650A73548BAF63DE, 0x766A0ABB3C77B2A8, 0x81C2C92E47EDAEE6, 0x92722C851482353B] ++
  [
   0xA2BFE8A14CF10364, 0xA81A664BBC423001, 0xC24B8B70D0F89791, 0xC76C51A30654BE30,
   0xD192E819D6EF5218, 0xD69906245565A910, 0xF40E35855771202A, 0x106AA07032BBD1B8,
   0x19A4C116B8D2D0C8, 0x1E376C085141AB53, 0x2748774CDF8EEB99, 0x34B0BCB5E19B48A8,
   0x391C0CB3C5C95A63, 0x4ED8AA4AE3418ACB, 0x5B9CCA4F7763E373, 0x682E6FF3D6B2B8A3,
   0x748F82EE5DEFB2FC, 0x78A5636F43172F60, 0x84C87814A1F0AB72, 0x8CC702081A6439EC] ++
  [
   0x90BEFFFA23631E28, 0xA4506CEBDE82BDE9, 0xBEF9A3F7B2C67915, 0xC67178F2E372532B,
   0xCA273ECEEA26619C, 0xD186B8C721C0C207, 0xEADA7DD6CDE0EB1E, 0xF57D4F7FEE6ED178,
   0x06F067AA72176FBA, 0x0A637DC5A2C898A6, 0x113F9804BEF90DAE, 0x1B710B35131C471B,
   0x28DB77F523047D84, 0x32CAAB7B40C72493, 0x3C9EBE0A15C9BEBC, 0x431D67C49C100D4C,
   0x4CC5D4BECB3E42B6, 0x597F299CFC657E2A, 0x5FCB6FAB3AD6FAEC, 0x6C44198C4A475817]

/-- Initial hash value of SHA-384. -/
def shaInit : List Nat := [
   0xCBBB9D5DC1059ED8, 0x629A292A367CD507, 0x9159015A3070DD17, 0x152FECD8F70E5939,
   0x67332667FFC00B31, 0x8EB44A8768581511, 0xDB0C2E0D64F98FA7, 0x47B5481DBEFA4FA4]

/-- The eight working variables. -/
structure Sha where
  a : DWord
  b : DWord
  c : DWord
  d : DWord
  e : DWord
  f : DWord
  g : DWord
  h : DWord
  deriving DecidableEq, Repr

def Sha.of (l : List Nat) : Sha :=
  let w := fun i => BitVec.ofNat 64 (l.getD i 0)
  { a := w 0, b := w 1, c := w 2, d := w 3, e := w 4, f := w 5, g := w 6, h := w 7 }

/-- Exclusive or of three rotations to the right. -/
def rot3 (x : DWord) (i j k : Nat) : DWord := x.rotateRight i ^^^ x.rotateRight j ^^^ x.rotateRight k

/-- One round. -/
def Sha.round (s : Sha) (k w : DWord) : Sha :=
  let t1 := s.h + rot3 s.e 14 18 41 + ((s.e &&& s.f) ^^^ (~~~s.e &&& s.g)) + k + w
  let t2 := rot3 s.a 28 34 39 + ((s.a &&& s.b) ^^^ (s.a &&& s.c) ^^^ (s.b &&& s.c))
  { a := t1 + t2, b := s.a, c := s.b, d := s.c, e := s.d + t1, f := s.e, g := s.f, h := s.g }

/-- The rounds: `w` holds the next sixteen words of the schedule. -/
def shaRounds (s : Sha) (w : List DWord) : List Nat → Sha
  | [] => s
  | k :: r =>
    let at_ := fun i => w.getD i 0#64
    let x := at_ 1
    let y := at_ 14
    let s0 := x.rotateRight 1 ^^^ x.rotateRight 8 ^^^ (x >>> 7)
    let s1 := y.rotateRight 19 ^^^ y.rotateRight 61 ^^^ (y >>> 6)
    shaRounds (s.round (BitVec.ofNat 64 k) (at_ 0)) (w.drop 1 ++ [at_ 0 + s0 + at_ 9 + s1]) r

/-- The padded block of M ‖ digest. -/
def shaBlock (m d : BitVec 384) : Nat := m.toNat * 2 ^ 640 + d.toNat * 2 ^ 256 + 2 ^ 255 + 768

/-- SHA-384(M ‖ digest). -/
def sha384 (m d : BitVec 384) : BitVec 384 :=
  let b := shaBlock m d
  let w := (List.range 16).map fun i => BitVec.ofNat 64 (b >>> (64 * (15 - i)))
  let i := Sha.of shaInit
  let r := shaRounds i w shaK
  (i.a + r.a) ++ (i.b + r.b) ++ (i.c + r.c) ++ (i.d + r.d) ++ (i.e + r.e) ++ (i.f + r.f)

end Sys2Proof.Machine
end

