-- ==== Sys2Proof/Machine/Boot.lean ====
section
/-! DEFINITION. Reset, the boot stages and the bring-up journal (R399 to R403), and the power and thermal events (R405). -/

namespace Sys2Proof.Machine

/-- A measurement register is extended by a digest (R399). -/
def Boot.extend (b : Boot) (i : Nat) (digest : BitVec 384) : Boot :=
  { b with meas := b.meas.set i (sha384 (b.meas.getD i 0#384) digest) }

/-- 384 bits that the spec does not state. -/
def State.freeDigest (s : State) : BitVec 384 × State :=
  let b := s.freeBytes 48
  (BitVec.ofNat 384 (leNat b.1), b.2)

/-- The reset state with what stands in flash: the journal, the units shuttered in the last two starts, FPOOL, and the L2 ways
retired for good (R394, R401, R402, R403). -/
def State.afterReset (s : State) : State :=
  { State.reset with
    fresh := s.fresh, ways := s.ways
    dies := (List.range 4).foldl (fun m d => KMap.set {} m d ({ fpool := (s.dieAt d).fpool } : Die)) []
    boot := { before := s.boot.now, shut1 := s.boot.shutNow, shut2 := s.boot.shut1, trips := s.boot.trips } }

/-- MODULE_RESET, with stage 0: copy A, else copy B; with neither the module halts (R399). -/
def execModuleReset (copyA copyB : Option (BitVec 384)) (s : State) : Res :=
  let s := s.afterReset
  .next { s with boot :=
    match copyA, copyB with
    | some d, _ => { s.boot.extend 0 d with stage := 1 }
    | none, some d => { s.boot.extend 0 d with stage := 1, copyB := true }
    | none, none => { s.boot with halted := true } }

/-- BOOT_STAGE1. -/
def execBootStage1 (image : Option (BitVec 384)) (s : State) : Res :=
  .next <|
    if s.boot.stage ≠ 1 || s.boot.halted then s
    else
      match image with
      | some d => { s with boot := { s.boot.extend 1 d with stage := 2 } }
      | none => { s with boot := { s.boot with halted := true } }

/-! ## The journal's steps (R401, R402) -/

/-- What a step of the journal brings up. Numbers: 4 × die + stack; 16 + boundary, between die b and die b + 1; 20; 24 + die;
32 + 4 × die + port; 64 + core; 512 + 3 × cluster + k for a lintel core, MXE, TFU; 1,024 + die. -/
inductive BootStep where
  | hbm (die stack : Nat)
  | link (b : Nat)
  | host
  | cxl (die : Nat)
  | ue (die port : Nat)
  | core (c : Nat)
  | matrix (cluster k : Nat)
  | firmware (die : Nat)
  deriving DecidableEq, Repr

/-- The steps in order. -/
def bootSteps : List (Nat × BootStep) :=
  ((List.range 16).map fun i => (i, .hbm (i / 4) (i % 4))) ++ ((List.range 4).map fun i => (16 + i, .link i)) ++ [(20, .host)] ++
    ((List.range 4).map fun i => (24 + i, .cxl i)) ++ ((List.range 16).map fun i => (32 + i, .ue (i / 4) (i % 4))) ++
    ((List.range 384).map fun i => (64 + i, .core i)) ++ ((List.range 144).map fun i => (512 + i, .matrix (i / 3) (i % 3))) ++
    ((List.range 4).map fun i => (1024 + i, .firmware i))

/-- The unit's number in the lists of shuttered units. -/
def BootStep.unit : BootStep → Option Nat
  | .core c => some c
  | .matrix c k => some (512 + 3 * c + k)
  | _ => none

/-- What a step comes to: it is done, it takes its alternative, its part is absent, it halts the boot. -/
inductive StepEnd where
  | done
  | alternative
  | absent
  | halt
  deriving DecidableEq, Repr

/-- The end of a step that failed in the start before (`again`) and fails, or not, in this one. A stack or a CXL or Ethernet
port is skipped after a failure; a boundary and the host port run their alternative, which may fail too. -/
def BootStep.ends (b : BootStep) (again fails : Bool) : StepEnd :=
  match b with
  | .hbm .. | .cxl _ | .ue .. => if again || fails then .absent else .done
  | .link _ | .host => if again then (if fails then .halt else .alternative) else if fails then .absent else .done
  | .core _ | .matrix .. => if fails then .absent else .done
  | .firmware _ => if fails then .halt else .done

/-- A step's part is absent, or runs its alternative. -/
def State.without (s : State) (b : BootStep) : State :=
  match b with
  | .hbm d i => s.setDieAt d { s.dieAt d with hbmok := (s.dieAt d).hbmok &&& ~~~(1#4 <<< i) }
  | .link i => [i, (i + 1) % 4].foldl (fun s d => s.setDieAt d { s.dieAt d with half := true }) s
  | .cxl d => s.setDieAt d { s.dieAt d with cxlok := false }
  | .ue d i => s.setDieAt d { s.dieAt d with ueok := (s.dieAt d).ueok &&& ~~~(1#4 <<< i) }
  | .core c => s.setCoreAt c { s.coreAt c with shut := true }
  | .matrix c _ =>
    (clusterCores c).foldl (fun s i => s.setCoreAt i { s.coreAt i with shut := true }) (s.setMxAt c { s.mxAt c with shut := true })
  | _ => s

/-- The newest entry of a journal for a step says that it failed, or that it had begun and nothing more: it counts as failed. An entry whose CRC
fails is ignored (R401). -/
def failedIn (j : List (Nat × Step)) (n : Nat) (crc : Bool) : Bool :=
  match (j.reverse.filter fun e => e.1 == n).drop (if crc then 1 else 0) |>.head? with
  | some e => e.2 != .done
  | none => false

def State.journal (s : State) (n : Nat) (e : Step) : State := { s with boot := { s.boot with now := s.boot.now ++ [(n, e)] } }

/-- One step of the journal: BEGUN, the step, DONE or FAILED; one that is skipped begins nothing. Where power is lost in a step BEGUN is its
newest entry, and nothing more happens until the next reset. -/
def State.bootStep (s : State) (failed : List Nat) (n : Nat) (b : BootStep) : State :=
  if s.boot.halted then s
  else
    -- a unit shuttered in both starts before is left shuttered untested
    let old := b.unit.any fun u => s.boot.shut1.contains u && s.boot.shut2.contains u
    let again := failedIn s.boot.before n (failed.contains (4096 + n))
    let skipped := match b with
      | .hbm .. | .cxl _ | .ue .. => again
      | _ => old
    let fails := failed.contains n && !skipped
    let e := if old then .absent else b.ends again fails
    let lost := failed.contains (2048 + n) && !skipped
    let b' := s.journal n .begun
    let s := if skipped then s else if lost then { b' with boot := { b'.boot with halted := true } } else b'.journal n (if fails then .failed else .done)
    if lost then s else
    match e with
    | .done => s
    | .halt => { s with boot := { s.boot with halted := true } }
    | _ =>
      let s := s.without b
      match b.unit with
      | some u => { s with boot := { s.boot with shutNow := s.boot.shutNow ++ [u] } }
      | none => s

/-- The firmware core of a die: the first vector core that passed (R403). -/
def State.firmwareCore (s : State) (die : Nat) : Option Nat :=
  ((List.range 96).map fun i => 96 * die + i).find? fun c => !(s.coreAt c).shut

/-- BOOT_STAGE2: the journal's steps, the firmware cores and the frame pools; M2 takes the journal's outcome, whose digest is
free. -/
def execBootStage2 (failed : List Nat) (s : State) : Res :=
  .next <|
    if s.boot.stage ≠ 2 || s.boot.halted then s
    else
      let s := { s with boot := { s.boot with now := [], shutNow := [] } }
      let s := bootSteps.foldl (fun s p => s.bootStep failed p.1 p.2) s
      if s.boot.halted then s
      else
        let s := (List.range 4).foldl (fun s d => s.setDieAt d { s.dieAt d with fwcore := s.firmwareCore d, frames := [] }) s
        let d := s.freeDigest
        { d.2 with boot := { d.2.boot.extend 2 d.1 with stage := 3, tested := d.2.time } }

/-- BOOT_STAGE3: the attestation key is loaded and the host queues open; the digest that M3 takes is free. -/
def execBootStage3 (s : State) : Res :=
  .next <|
    if s.boot.stage ≠ 3 || s.boot.halted then s
    else
      let d := s.freeDigest
      State.openQueues { d.2 with boot := { d.2.boot.extend 3 d.1 with stage := 4, opened := true } }

/-! ## Power and heat (R404, R405) -/

/-- POWER_WINDOW: PNOW, and THR while the power exceeds PLIM. -/
def execPowerWindow (watts : Nat) (s : State) : Res := .next { s with pnow := watts % 65536, thr := decide (s.plim < watts) }

def execJunctionThrottle (s : State) : Res := .next { s with hot := true }
def execJunctionBelow100C (s : State) : Res := .next { s with hot := false }

/-- A trip: the module stops at once, and the journal records it. -/
def State.trip (s : State) : State := { s with boot := { s.boot with tripped := true, trips := s.boot.trips + 1 } }

def execThermalTrip (s : State) : Res := .next s.trip
def execElectricalTrip (s : State) : Res := .next s.trip

end Sys2Proof.Machine
end

