-- ==== Sys2Proof/Machine/Copy.lean ====
section
/-! DEFINITION. Copies and gathers, batches, counter waits, publication and byte-counting barriers (R162, R163, R169 to
R176, R314, R355, R419). -/

namespace Sys2Proof.Machine

/-! ## Range operands (R151, R170, R237) -/

/-- A range operand: space, address, bytes, needs; `swing`: it must lie inside one swing buffer (R170). -/
structure Range where
  sp    : Nat
  a     : VAddr
  n     : Nat
  need  : Need
  swing : Bool := false
  deriving DecidableEq, Repr

/-- Check 1: an S or C range leaves its space. -/
def State.rangeOut (s : State) (g : Gang) (r : Range) : Bool :=
  (r.sp = 1 || r.sp = 2) && !(r.sp = 1 && g.kind == .lintel) && (s.spadLoc g r.sp r.n r.a).isNone

/-- Check 2: its alignment is 16. -/
def Range.odd (r : Range) : Bool := r.a.toNat % 16 != 0

/-- The points of a G range at which a page or a swing block can change. -/
def Range.points (r : Range) : List Nat :=
  let a := r.a.toNat
  a :: (List.range ((a % 4096 + r.n + 4095) / 4096 - 1)).map fun i => (a / 4096 + 1 + i) * 4096

/-- Check 3: permission, an unmapped window, S on a lintel core, a destination outside every swing buffer. -/
def State.rangeBad (s : State) (g : Gang) (r : Range) : Bool :=
  if r.sp = 0 then
    let x := s.xlOf g.team
    (r.swing && (match x.swingOf r.a.toNat with
      | some b => b.base + 4096 * b.nblk < r.a.toNat + r.n
      | none => true)) ||
    r.points.any fun va => (s.checkG x r.need (BitVec.ofNat 72 va)).1 == .perm
  else r.sp = 1 && g.kind == .lintel

/-- The trap of the first failing check among the operands, if any: cause and TINFO. -/
def State.rangeTrap (s : State) (g : Gang) (l : List Range) : Option (Nat × VAddr) :=
  match l.find? (s.rangeOut g), l.find? Range.odd, l.find? (s.rangeBad g) with
  | some r, _, _ => some (17, s.outByte g r.sp r.a)
  | none, some r, _ => some (20, r.a)
  | none, none, some r => some (20, r.a)
  | none, none, none => none

/-- A group-form instruction's trap of a range operand; a lintel core records no lanes (R237). -/
def State.rangeRaise (s : State) (c : Nat) (a : VAddr) : State :=
  s.trapLanes c (if s.gang.kind == .lintel then 0#32 else s.gang.trapLanes s.pt) (a.setWidth 64)

/-- The barrier that TC names when FX[49] = 1. -/
def Gang.barOf (g : Gang) (f : ClassE) : Option VAddr :=
  if f.h.fx.getLsbD 1 then some (g.adAt f.tc.toNat) else none

def barRange (b : Option VAddr) : List Range :=
  match b with
  | some a => [{ sp := 2, a := a, n := 16, need := {} }]
  | none => []

/-! ## CPY and GTH (R169 to R171) -/

/-- An offset of 16-byte units, signed, 9 bits. -/
def off16 (f : ClassE) (lo : Nat) : VAddr := (f.mod.extractLsb' lo 9).signExtend 72 <<< 4

/-- A copy starts: it joins the eng counter, PEND gains its bytes, its first unit is owed. A copy of nothing is complete
at issue. -/
def State.startCopy (s : State) (c : Copy) : State :=
  if c.len = 0 then s
  else
    let g := s.gang
    ((({ s with nextId := s.nextId + 1, copies := s.copies ++ [{ c with id := s.nextId, gang := s.gk }] }).setGang
      { g with engs := g.engs ++ [s.nextId] }).barPend s.gk c.bar c.len).owe [.copyUnit s.nextId]

/-- Bytes of a CPY; none where g[A] breaks the limits (R169). -/
def Gang.cpyLen (g : Gang) (f : ClassE) : Option Nat :=
  if f.h.fx.getLsbD 0 then
    let n := (g.gAt f.a.toNat).toNat % 2 ^ 32
    if n % 16 = 0 && n ≤ 16777216 then some n else none
  else some (16 * (f.d.toNat * 64 + f.a.toNat + 1))

/-- The word of a class-E instruction, as a frame keeps it. -/
def wordOf (i : Instr) : DWord := (encode i).getD 0#64

def execCpy (f : ClassE) (s : State) : Res :=
  .next <|
    match s.groupGate f.h (if f.h.fx.getLsbD 0 then [f.a.toNat] else []) false false with
    | some s' => s'
    | none =>
      match s.engineGate with
      | some s' => s'
      | none =>
        let g := s.gang
        if s.accWaits || g.loadsOut || s.farStores || 4095 ≤ g.engs.length then s
        else
          match g.cpyLen f with
          | none => s.rangeRaise 20 0#72
          | some len =>
            let dst := g.adAt f.ta.toNat + off16 f 9
            let src := g.adAt f.tb.toNat + off16 f 0
            let dsp := f.bits 3 21
            let ssp := f.bits 3 18
            let bar := g.barOf f
            match s.rangeTrap g ([{ sp := dsp, a := dst, n := len, need := { w := true }, swing := dsp == 0 },
                { sp := ssp, a := src, n := len, need := { r := true } }] ++ barRange bar) with
            | some (c, a) => s.rangeRaise c a
            | none =>
              s.done (s.startCopy
                { id := 0, gang := 0, word := wordOf (.cpy f), dsp := dsp, ssp := ssp, dst := dst, src := src, len := len,
                  bar := bar })

/-- Bytes of a GTH element. -/
def gthSize (f : ClassE) : Nat := szBytes (f.bits 3 15)

/-- GTH's check of its destination: one range to the end of the highest active lane's slot, recorded for the lanes whose
slots leave it (R171, R237). -/
def State.gthDest (s : State) (g : Gang) (sp n : Nat) (dst : VAddr) (ls : List Nat) : Option (Nat × Word × VAddr) :=
  let h := ls.foldl max 0
  let slot := fun l => dst + BitVec.ofNat 72 (l * n)
  if (s.spadLoc g sp ((h + 1) * n) dst).isNone then
    let out := ls.filter fun l => (s.spadLoc g sp n (slot l)).isNone
    some (17, maskOf fun l => out.contains l, slot (out.headD h))
  else if dst.toNat % 16 ≠ 0 then some (20, maskOf fun l => ls.contains l, dst)
  else none

def execGth (f : ClassE) (s : State) : Res :=
  let srcs := [{ f := f.a : Use }]
  .next <|
    match s.laneGate f.h srcs [] false false with
    | some s' => s'
    | none =>
      match s.engineGate with
      | some s' => s'
      | none =>
        let g := s.gang
        if s.accWaits || g.loadsOut || s.farStores || 4095 ≤ g.engs.length then s
        else
          let n := gthSize f
          let dst := g.adAt f.ta.toNat + off16 f 6
          let base := g.adAt f.tb.toNat
          let ls := g.effLanes s.pt f.h
          let idx := fun l => (g.src f.a false l).toNat
          let ea := fun l => base + BitVec.ofNat 72 (idx l * n)
          match s.gthDest g (f.bits 3 21) n dst ls, s.rangeTrap g (barRange (g.barOf f)) with
          | some (c, m, a), _ => s.trapLanes c m (a.setWidth 64)
          | none, some (c, a) => s.rangeRaise c a
          | none, none =>
            let cs := (s.checkAll s.gk 0 n { r := true } (ls.map fun l => (l, ea l))).1
            match cs.filter (·.2.2 == .align), cs.filter (·.2.2 == .perm) with
            | p :: b, _ => s.trapLanes 20 (maskOf fun i => (p :: b).any (·.1 == i)) (p.2.1.setWidth 64)
            | [], p :: b => s.trapLanes 20 (maskOf fun i => (p :: b).any (·.1 == i)) (p.2.1.setWidth 64)
            | [], [] =>
              let s1 := s.setGang (g.pop (popped srcs) ls)
              s.done (s1.startCopy
                { id := 0, gang := 0, word := wordOf (.gth f), dsp := f.bits 3 21, ssp := 0, dst := dst, src := base,
                  len := n * ls.length, bar := g.barOf f, gth := true, act := maskOf fun l => ls.contains l,
                  idx := lanes.map idx, n := n })

/-! ## Units (R162, R170, R171) -/

/-- The unit to be read next: source, destination and bytes. -/
def Copy.unit (c : Copy) : VAddr × VAddr × Nat :=
  if c.gth then
    let l := ((lanes.filter fun l => c.act.getLsbD l)[c.done / c.n]?).getD 0
    (c.src + BitVec.ofNat 72 (c.idx.getD l 0 * c.n), c.dst + BitVec.ofNat 72 (l * c.n), c.n)
  else (c.src + BitVec.ofNat 72 (c.done + c.buf.length), c.dst + BitVec.ofNat 72 (c.done + c.buf.length), 16)

/-- What an engine's access to memory meets (R419). -/
inductive Met where
  | bytes (b : List Byte) (pas : List Nat)
  | absent (va : VAddr)
  | bad (va : VAddr)
  | far (modn rctx va : Nat)
  /-- behind a link that is down (R377) -/
  | down (pa : Nat)
  /-- locked by a held atomic (R110) -/
  | locked

/-- An engine's read of `n` bytes that lie in one page: G through the published view and partition 7, S and C at the scratchpad. -/
def State.engineRead (s : State) (gk sp n : Nat) (va : VAddr) : Met :=
  let g := s.gangAt gk
  if sp = 0 then
    let x := s.xlOf g.team
    match (s.checkG x { r := true } va).1 with
    | .ok (.mem pa leaf) =>
      if s.portDown pa then .down pa
      else if (List.range n).any fun i => s.lockedFor gk (.mem (pa + i) leaf) then .locked
      else
        .bytes ((List.range n).map fun i => (s.p7Byte x.die (.mem pa leaf) i).getD (s.byteAt x.die (pa + i))) ((List.range n).map (pa + ·))
    | .ok (.far m c a) =>
      match (List.range n).mapM fun i => s.p7Byte x.die (.far m c a) i with
      | some b => .bytes b []
      | none => .far m c a
    | .absent => .absent va
    | _ => .bad va
  else
    match s.spadLoc g sp n va with
    | some (t, off) =>
      if (List.range n).any fun i => s.lockedFor gk (.spad t (off + i)) then .locked else .bytes (s.spadBytes t off n) []
    | none => .bad va

/-- An engine's read fills the line that partition 7 does not hold (R189, R248). -/
def State.engineFill (s : State) (gk sp n : Nat) (va : VAddr) : State :=
  if sp ≠ 0 then s
  else
    let x := s.xlOf (s.gangAt gk).team
    match (s.checkG x { r := true } va).1 with
    | .ok loc =>
      let l := [Acc.mk 32 va loc]
      (s.p7Pick x.die n l).fillP7 gk 0 l
    | _ => s

/-- What stops an engine's write into a swing buffer, or the state after it: the first write to a block after a PUBL
copies the block from the published view (R162, R314). -/
inductive Wrote where
  | ok (s : State)
  | absent (va : VAddr)
  | bad (va : VAddr)
  /-- locked by a held atomic (R110) -/
  | locked

/-- The physical address of a 4 KiB block at a virtual place. -/
def State.blockPa (s : State) (x : Xl) (va : Nat) : Trans := (s.lookup x va).1

/-- An engine's write to G. -/
def State.engineWriteG (s : State) (gk : Nat) (va : VAddr) (b : List Byte) : Wrote :=
  let x := s.xlOf (s.gangAt gk).team
  let a := va.toNat
  match x.swingOf a with
  | none => .bad va
  | some w =>
    let blk := a / 4096 * 4096
    let pub := s.published x blk
    let sag := s.saggerPlace x w blk
    match s.blockPa x sag, s.blockPa x pub with
    | .page sp leaf, .page pp _ =>
      if !(entW leaf && entPart leaf != 7) then .bad va
      else if !s.sagger.contains (x.launch, blk) && s.portDown pp then .ok (s.consume gk pp)
      else
        let s := s.logDown [sp]
        let s1 :=
          if s.sagger.contains (x.launch, blk) then s
          else
            { s.writeNow x.die ((List.range 4096).map fun i => (sp + i, s.byteAt x.die (pp + i))) [] with
              sagger := s.sagger ++ [(x.launch, blk)] }
        .ok (s1.writeNow x.die (b.zipIdx.map fun p => (sp + a % 4096 + p.2, p.1)) [])
    | .absent, _ => .absent (BitVec.ofNat 72 sag)
    | _, .absent => .absent (BitVec.ofNat 72 pub)
    | _, _ => .bad va

/-- An engine's write to any space. -/
def State.engineWrite (s : State) (gk sp : Nat) (va : VAddr) (b : List Byte) : Wrote :=
  if sp = 0 then s.engineWriteG gk va b
  else
    match s.spadLoc (s.gangAt gk) sp b.length va with
    | some (t, off) =>
      if (List.range b.length).any fun i => s.lockedFor gk (.spad t (off + i)) then .locked else .ok (s.spadWrite t off b [])
    | none => .bad va

def State.setCopy (s : State) (c : Copy) : State :=
  { s with copies := s.copies.map fun x => if x.id = c.id then c else x }

/-- An engine operation of a gang cannot go on: a page of its queue's context is fetched, or the copy is abandoned. -/
def State.copyFault (s : State) (c : Copy) (va : VAddr) (acc : Nat) : State :=
  s.engineFault c.gang (s.cohortAt (s.teamAt (s.gangAt c.gang).team).cohort).queue va acc (.copyUnit c.id)

def State.copyAbandon (s : State) (c : Copy) (va : VAddr) : State := (s.setCopy { c with dead := true }).abandon c.gang va

/-- A G destination takes whole 32-byte units: the unit that has been read waits for the rest of its own (R162). -/
def Copy.waits (c : Copy) (n : Nat) : Bool :=
  c.dsp = 0 && (c.dst.toNat + c.done + n) % 32 != 0 && c.done + n < c.len

/-- A unit's bytes land, and the next unit or the completion is owed. -/
def State.landUnit (s : State) (c : Copy) (b : List Byte) : State :=
  let all := c.buf ++ b
  if c.waits all.length then (s.setCopy { c with buf := all, wait := none }).owe [.copyUnit c.id]
  else
    match s.engineWrite c.gang c.dsp (if c.gth then c.unit.2.1 else c.dst + BitVec.ofNat 72 c.done) all with
    | .absent va => (s.setCopy { c with buf := [], wait := none }).copyFault c va 1
    | .bad va => s.copyAbandon c va
    | .locked => (s.setCopy { c with buf := [], wait := none }).owe [.copyUnit c.id]
    | .ok s1 =>
      let c' := { c with done := c.done + all.length, buf := [], wait := none }
      (s1.setCopy c').owe [if c'.len ≤ c'.done then .copyComplete c.id else .copyUnit c.id]

/-- COPY_UNIT (R170, R419). -/
def execCopyUnit (id : Nat) (s : State) : Res :=
  .next <|
    match s.copies.find? (·.id == id) with
    | none => s
    | some c =>
      if c.parked || c.dead || c.wait.isSome || c.len ≤ c.done then s
      else
        let u := c.unit
        match s.engineRead c.gang c.ssp u.2.2 u.1 with
        | .bytes b pas => ((s.engineFill c.gang c.ssp u.2.2 u.1).noteRead (s.dieOfGang c.gang) pas).landUnit c b
        | .locked => s.owe [.copyUnit c.id]
        | .absent va => s.copyFault c va 0
        | .bad va => s.copyAbandon c va
        | .down pa => s.consume c.gang pa
        | .far m r a =>
          let tag := s.nextId
          let f := { accessFrame 0 0 0 m (s.dieOfGang c.gang) tag a with aux := r + u.2.2 * 2 ^ 16 }
          (({ s with nextId := tag + 1 }).setCopy { c with wait := some (tag % 2 ^ 20) }).sendFrame f

/-- COPY_COMPLETE: ARR gains, PEND loses, the batch and the eng counter see it done (R170). -/
def execCopyComplete (id : Nat) (s : State) : Res :=
  .next <|
    match s.copies.find? (·.id == id) with
    | none => s
    | some c =>
      if c.parked || c.dead || c.done < c.len then s
      else
        let s := { s with copies := s.copies.filter (·.id != id) }
        let g := s.gangAt c.gang
        let s := s.setGangAt c.gang { g with engs := g.engs.filter (· != id) }
        (s.barArrive c.gang c.bar c.len).endCheck c.gang

/-! ## Batches and counters (R172, R173) -/

/-- The gate of the class-B engine waits. -/
def State.engineB (s : State) (h : Header) (gs : List Nat) (act : State → State) : State :=
  match s.groupGate h gs false false with
  | some s' => s'
  | none =>
    match s.engineGate with
    | some s' => s'
    | none => act s

def execBcommit (f : ClassB) (s : State) : Res :=
  .next (s.engineB f.h [] fun s =>
    let g := s.gang
    let n := g.blast + 1#32
    let s := s.setGang { g with blast := n }
    s.done { s with copies := s.copies.map fun c => if c.gang = s.gk && c.batch.isNone then { c with batch := some n.toNat } else c })

/-- A closed batch up to n has not completed (R172). -/
def State.batchOut (s : State) (n : Nat) : Bool :=
  s.copies.any fun c => c.gang == s.gk && c.batch.any fun b => (n + 2 ^ 32 - b) % 2 ^ 32 < 2 ^ 31

def execBwait (f : ClassB) (s : State) : Res :=
  .next (s.engineB f.h [] fun s => if s.batchOut f.disp.toNat then s else s.done s)

def execBwaitG (f : ClassB) (s : State) : Res :=
  let a := f.aux12.toNat % 32
  .next (s.engineB f.h [a] fun s => if s.batchOut ((s.gang.gAt a).toNat % 2 ^ 32) then s else s.done s)

/-- Some counter is above its limit: ld, st, eng, net from the highest field down (R173). -/
def Gang.above (g : Gang) (disp : Nat) : Bool :=
  disp / 2 ^ 18 % 64 < g.loads.length || disp / 2 ^ 12 % 64 < g.stores.length || disp / 2 ^ 6 % 64 < g.engs.length ||
    disp % 64 < g.pios.length + g.nets.length

def execWaitc (f : ClassB) (s : State) : Res :=
  .next (s.engineB f.h [] fun s => if s.gang.above f.disp.toNat then s else s.done s)

/-! ## PUBL (R163, R231, R314) -/

def execPubl (f : ClassM) (s : State) : Res :=
  .next <|
    match s.groupGate f.h (indexG f) false false with
    | some s' => s'
    | none =>
      match s.engineGate with
      | some s' => s'
      | none =>
        let g := s.gang
        let ea := g.effAddr f 0
        let x := s.xlOf g.team
        if 4095 ≤ g.engs.length then s
        else
          match x.swings.find? fun b => b.base == ea.toNat with
          | none => s.trap 21 (ea.setWidth 64)
          | some b =>
            let id := s.nextId
            let p : Publ :=
              { id := id, gang := s.gk, base := b.base, scp := if f.scp == 0#3 then b.scope else f.scp.toNat, queue := x.queue,
                launch := x.launch, need := g.loads.map (·.id) ++ g.stores ++ g.pios }
            let s1 := { s with nextId := id + 1, publs := s.publs ++ [p] }
            s.done ((s1.setGang { g with engs := g.engs ++ [id] }).owe [.publSwing id])

/-- The blocks of a buffer that an engine has written since the last PUBL. -/
def State.written (s : State) (x : Xl) (b : Swing) : List (Nat × Nat) :=
  s.sagger.filter fun p => p.1 == x.launch && b.base ≤ p.2 && p.2 < b.base + 4096 * b.nblk

/-- The written blocks of a buffer swing: their SEL bits flip. -/
def State.swingBlocks (s : State) (x : Xl) (b : Swing) : State :=
  let mine := s.written x b
  let s := mine.foldl (fun s p =>
    let i := (p.2 - b.base) / 4096
    let v := (s.vaNat x (b.sel + i / 8) 1).getD 0
    s.vaWrite x (b.sel + i / 8) 1 (v ^^^ 2 ^ (i % 8))) s
  { s with sagger := s.sagger.filter fun p => !mine.contains p }

/-- One line of a copy joins those left behind, with the bytes its die reads: `k` is its name, `va` its address. -/
def State.leaveLine (s : State) (x : Xl) (die k va : Nat) (m : KMap (Option Byte)) : KMap (Option Byte) :=
  (List.range 128).foldl (fun m i =>
    match KMap.get none m (k + i), (s.lookup x (s.published x (va + i))).1 with
    | none, .page pa _ => KMap.set none m (k + i) (some (s.byteAt die pa))
    | _, _ => m) m

/-- Each L1 keeps its copies of lines of the swung blocks as they were (R239). -/
def State.leaveStale (s : State) (x : Xl) (b : Swing) : State :=
  if s.cores.all fun c => c.2.l1.isEmpty then s
  else
    let blocks := (s.written x b).filterMap fun p => (s.lineKey x p.2).map fun k => (k, p.2)
    let left := fun (n : Nat) (c : Core) => c.l1.foldl (fun m k =>
      match blocks.find? fun p => p.1 == k / 4096 * 4096 with
      | some p => s.leaveLine x (dieOf n) k (p.2 + k % 4096) m
      | none => m) c.stale
    s.mapCores fun n c => { c with stale := left n c }

/-- A page that the swing needs and that is not resident: of the generation word, or of a selector bit it flips (R163, R342). -/
def State.swingAbsent (s : State) (x : Xl) (b : Swing) : Option Nat :=
  (b.gen :: (s.written x b).map fun p => b.sel + (p.2 - b.base) / 4096 / 8).find? fun a => match (s.lookup x a).1 with
    | .absent => true
    | _ => false

/-- PUBL_SWING: one event at the home, once every earlier access of the gang is performed, in the order the PUBLs of a
buffer arrived (R163). -/
def execPublSwing (id : Nat) (s : State) : Res :=
  .next <|
    match s.publs.find? (·.id == id) with
    | none => s
    | some p =>
      let g := s.gangAt p.gang
      let out := p.need.any fun i => g.stores.contains i || g.pios.contains i || g.loads.any (·.id == i)
      let first := (s.publs.find? fun q => q.launch == p.launch && q.base == p.base).map (·.id)
      let x := s.xlQueue p.queue
      if out || !g.commits.isEmpty || first != some id then s.owe [.publSwing id]
      else if let some va := (x.swings.find? fun b => b.base == p.base).bind (s.swingAbsent x) then
        s.engineFault p.gang p.queue (BitVec.ofNat 72 va) 1 (.publSwing id)
      else
        let s := { s with publs := s.publs.filter (·.id != id) }
        let s := s.setGangAt p.gang { g with engs := g.engs.filter (· != id) }
        let s := match x.swings.find? fun b => b.base == p.base with
          | none => s
          | some b =>
            let s := (s.leaveStale x b).swingBlocks x b
            let gen := (s.vaNat x b.gen 8).getD 0
            let bytes := (leBytes 8 ((gen + 1) % 2 ^ 64)).zipIdx.filterMap fun (q : Byte × Nat) =>
              match (s.lookup x (b.gen + q.2)).1 with
              | .page pa _ => some (pa, q.1)
              | _ => none
            s.writeNow x.die bytes [s.tagOf p.gang p.scp]
        s.endCheck p.gang

/-! ## Byte-counting barriers (R174 to R176, R227) -/

/-- A BCB instruction: its gates, its wait for the loads and acquires that are out (R174, R228), its operand's checks, then the effect on the
barrier at (team, offset). -/
def State.bcbOp (s : State) (f : ClassM) (act : State → Nat → Nat → State) : State :=
  match s.groupGate f.h (f.d.toNat :: indexG f) false false with
  | some s' => s'
  | none =>
    match s.engineGate with
    | some s' => s'
    | none =>
      let g := s.gang
      let ea := g.effAddr f 0
      if g.heldBack || g.loadsOut then s
      else match s.rangeTrap g [{ sp := f.sp.toNat, a := ea, n := 16, need := {} }], s.spadLoc g f.sp.toNat 16 ea with
      | some (c, a), _ => s.rangeRaise c a
      | none, some (t, off) => act s t off
      | none, none => s

/-- g[D][31:0]. -/
def State.bcbArg (s : State) (f : ClassM) : Word := (s.gang.gAt f.d.toNat).setWidth 32

def execBcbarm (f : ClassM) (s : State) : Res :=
  .next (s.bcbOp f fun s t off =>
    let b := s.bcb t off
    s.done (s.setBcb t off ({ b with exp := b.exp + s.bcbArg f } : Bcb).settle []))

def execBcbadd (f : ClassM) (s : State) : Res :=
  .next (s.bcbOp f fun s t off =>
    let b := s.bcb t off
    let tm := s.teamAt t
    let e := (b.phase.toNat, s.tagOf s.gk f.scp.toNat)
    let s1 := s.setTeamAt t { tm with adds := KMap.set [] tm.adds off (KMap.get [] tm.adds off ++ [e]) }
    s.done (s1.setBcb t off ({ b with arr := b.arr + s.bcbArg f } : Bcb).settle []))

def execBcbwait (f : ClassM) (s : State) : Res :=
  .next (s.bcbOp f fun s t off =>
    let b := s.bcb t off
    let k := s.bcbArg f
    let d := (b.phase - k).toNat
    if d = 0 || 2 ^ 31 ≤ d then s
    else
      let ts := ((KMap.get [] (s.teamAt t).adds off).filter fun e => e.1 == k.toNat).map (·.2)
      s.done (s.acquire s.gk f.scp.toNat ts))

end Sys2Proof.Machine
end

