-- ==== Sys2Proof/Machine/Fetch.lean ====
section
/-! DEFINITION. Bytes that an engine operation reads (R188, R210, R338, R419): pieces of a 64-byte beat, near or from another
module, and the responses that bring the far ones. -/

namespace Sys2Proof.Machine

/-- A range cut at 64-byte boundaries: address and bytes of each piece. -/
def pieces (a n : Nat) : List (Nat × Nat) :=
  (List.range ((a % 64 + n + 63) / 64)).map fun i =>
    let lo := max a (a / 64 * 64 + 64 * i)
    (lo, min (a + n) (a / 64 * 64 + 64 * (i + 1)) - lo)

/-- What the reads of an operation come to. -/
inductive Gathered where
  /-- the pieces, by address -/
  | ok (l : List (Nat × List Byte)) (s : State)
  | absent (va : VAddr)
  | bad (va : VAddr)
  | wait (s : State)

/-- A byte of the pieces gathered. -/
def pieceByte (l : List (Nat × List Byte)) (a : Nat) : Byte :=
  match l.find? fun p => p.1 ≤ a && a < p.1 + p.2.length with
  | some p => p.2.getD (a - p.1) 0#8
  | none => 0#8

/-- A little-endian number of the pieces. -/
def pieceNat (l : List (Nat × List Byte)) (a n : Nat) : Nat := leNat ((List.range n).map fun i => pieceByte l (a + i))

/-- The request for a piece of another module. -/
def State.askPiece (s : State) (gk : Nat) (far : Nat × Nat × Nat) (p : Nat × Nat) : (Nat × Nat × Nat) × State :=
  let tag := s.nextId
  let f := { accessFrame 0 0 0 far.1 (s.dieOfGang gk) tag far.2.2 with aux := far.2.1 + p.2 * 2 ^ 16 }
  ((tag % 2 ^ 20, p.1, p.2), { s with nextId := tag + 1 }.sendFrame f)

/-- The reads of operation `id`, made as loads of gang `gk`; `go` goes on when far pieces have come, or a lock is gone. -/
def State.gather (s : State) (gk sp id : Nat) (go : Instr) (rs : List (Nat × Nat)) : Gathered :=
  let f := (KMap.get none s.fetches id).getD { go := go }
  let ms := (rs.flatMap fun r => pieces r.1 r.2).map fun p =>
    (p, match f.got.find? fun q => q.1 == p.1 && q.2.length == p.2 with
      | some q => Met.bytes q.2 []
      | none => s.engineRead gk sp p.2 (BitVec.ofNat 72 p.1))
  let absent := ms.findSome? fun m => match m.2 with
    | .absent va => some va
    | _ => none
  let bad := ms.findSome? fun m => match m.2 with
    | .bad va => some va
    | _ => none
  let fars := ms.filterMap fun m => match m.2 with
    | .far md c va => some (m.1, md, c, va)
    | _ => none
  let down := ms.findSome? fun m => match m.2 with
    | .down pa => some pa
    | _ => none
  let locked := ms.any fun m => match m.2 with
    | .locked => true
    | _ => false
  match absent, bad with
  | some va, _ => .absent va
  | none, some va => .bad va
  | none, none =>
    if let some pa := down then .wait (s.consume gk pa)
    else if !f.tags.isEmpty then .wait s
    else if locked then .wait (s.owe [go])
    else if !fars.isEmpty then
      let r := fars.foldl (fun (p : List (Nat × Nat × Nat) × State) q =>
        let a := p.2.askPiece gk q.2 q.1
        (p.1 ++ [a.1], a.2)) ([], s)
      .wait { r.2 with fetches := KMap.set none r.2.fetches id (some { f with tags := r.1 }) }
    else
      let l := ms.filterMap fun m => match m.2 with
        | .bytes b _ => some (m.1.1, b)
        | _ => none
      let pas := ms.flatMap fun m => match m.2 with
        | .bytes _ pas => pas
        | _ => []
      let s := ms.foldl (fun s m => match m.2 with
        | .bytes _ (_ :: _) => s.engineFill gk sp m.1.2 (BitVec.ofNat 72 m.1.1)
        | _ => s) s
      .ok l { s.noteRead (s.dieOfGang gk) pas with fetches := KMap.set none s.fetches id none }

/-- The response to a tag brings a piece; when all have come the operation goes on. -/
def State.answerFetch (s : State) (tag : Nat) (bytes : List Byte) : State :=
  match s.fetches.find? fun p => match p.2 with
    | some f => f.tags.any fun t => t.1 == tag
    | none => false with
  | some (id, some f) =>
    let mine := f.tags.filter fun t => t.1 == tag
    let f' := { f with
      tags := f.tags.filter fun t => t.1 != tag
      got := f.got ++ mine.map fun t => (t.2.1, (List.range t.2.2).map fun i => bytes.getD i 0#8) }
    let s := { s with fetches := KMap.set none s.fetches id (some f') }
    if f'.tags.isEmpty then s.owe [f'.go] else s
  | _ => s

/-- Writes of an engine in ascending pieces of 16 bytes; stops at the first that cannot be made (R194, R419). -/
def State.engineWriteAll (s : State) (gk sp : Nat) : List (Nat × List Byte) → Wrote
  | [] => .ok s
  | (a, b) :: r =>
    match s.engineWrite gk sp (BitVec.ofNat 72 a) b with
    | .ok s' => s'.engineWriteAll gk sp r
    | x => x

/-- The state after those writes that are made before the first that cannot be. -/
def State.engineWriteSome (s : State) (gk sp : Nat) : List (Nat × List Byte) → State
  | [] => s
  | (a, b) :: r =>
    match s.engineWrite gk sp (BitVec.ofNat 72 a) b with
    | .ok s' => s'.engineWriteSome gk sp r
    | _ => s

/-- Bytes at an address, cut at 16-byte boundaries. -/
def units16 (a : Nat) (b : List Byte) : List (Nat × List Byte) :=
  (List.range ((a % 16 + b.length + 15) / 16)).map fun i =>
    let lo := max a (a / 16 * 16 + 16 * i)
    let hi := min (a + b.length) (a / 16 * 16 + 16 * (i + 1))
    (lo, (b.drop (lo - a)).take (hi - lo))

end Sys2Proof.Machine
end

