-- ==== Sys2Proof/Machine/Float.lean ====
section
/-! DEFINITION. Floating-point instructions (R127 to R136), IDOT4, and the conversions CVT, QPACK and QUNPK (R44 to R46,
R55, R56, R137 to R139). -/

namespace Sys2Proof.Machine

/-! ## Typed operands (R76, R127) -/

/-- Element format of TY: F32, F16, BF16, F16X2, BF16X2. -/
def tyFmt (ty : Nat) : FFmt :=
  match ty with
  | 0 => fmtF32
  | 1 => fmtF16
  | 3 => fmtF16
  | _ => fmtBF16

/-- An element operation on a register value: once, or on both halves of a packed type (R127). -/
def onElems (ty : Nat) (op : Nat → Nat → Nat → Nat × DWord) (a b c : DWord) : LaneOut :=
  if ty < 3 then
    let r := op a.toNat b.toNat c.toNat
    { val := BitVec.ofNat 64 r.1, flags := r.2 }
  else
    let lo := op a.toNat b.toNat c.toNat
    let hi := op (a.toNat / 65536) (b.toNat / 65536) (c.toNat / 65536)
    { val := BitVec.ofNat 64 (lo.1 + 65536 * hi.1), flags := lo.2 ||| hi.2 }

/-- A class-A floating-point form; `nb`, `nc` tell whether B and C are read. A rounding code above 3 is check 8 (R48). -/
def State.floatA (s : State) (f : ClassA) (nb nc : Bool) (op : DWord → DWord → DWord → LaneOut) : State :=
  let bad := 4 ≤ f.rnd.toNat
  if f.h.g then
    s.aluGroup f.h f.d ([f.a.toNat] ++ (if nb then [f.b.toNat] else []) ++ (if nc then [f.c.toNat] else [])) bad fun g =>
      op (g.gsrc f.a false) (g.gsrc f.b false) (g.gsrc f.c false)
  else
    let srcs := [Use.of f.a false] ++ (if nb && !f.bcast then [Use.of f.b false] else []) ++
      (if nc then [Use.of f.c false] else [])
    if nb && f.bcast && s.gang.busyG f.b.toNat then s
    else s.aluLane f.h f.d false srcs bad fun g l => op (g.src f.a false l) (g.srcB f false l) (g.src f.c false l)

/-- A two-source operation. -/
def State.float2 (s : State) (f : ClassA) (op : FFmt → RMode → Nat → Nat → Nat × DWord) : State :=
  s.floatA f true false (onElems f.ty.toNat fun a b _ => op (tyFmt f.ty.toNat) (RMode.of f.rnd.toNat) a b)

/-- A one-source operation. -/
def State.float1 (s : State) (f : ClassA) (op : FFmt → RMode → Nat → Nat × DWord) : State :=
  s.floatA f false false (onElems f.ty.toNat fun a _ _ => op (tyFmt f.ty.toNat) (RMode.of f.rnd.toNat) a)

def execFadd (f : ClassA) (s : State) : Res := .next (s.float2 f FFmt.add)
def execFsub (f : ClassA) (s : State) : Res := .next (s.float2 f FFmt.sub)
def execFmul (f : ClassA) (s : State) : Res := .next (s.float2 f FFmt.mul)

def execFfma (f : ClassA) (s : State) : Res :=
  .next (s.floatA f true true (onElems f.ty.toNat fun a b c => (tyFmt f.ty.toNat).fma (RMode.of f.rnd.toNat) a b c))

def execFmin (f : ClassA) (s : State) : Res := .next (s.float2 f fun t _ a b => t.minMax false a b)
def execFmax (f : ClassA) (s : State) : Res := .next (s.float2 f fun t _ a b => t.minMax true a b)

def execFcmp (f : ClassA) (s : State) : Res :=
  let t := tyFmt f.ty.toNat
  let u := f.mod.getLsbD 3
  let cmp := fun a b : DWord => t.compare f.condBits.toNat u a.toNat b.toNat
  let bad := 4 ≤ f.rnd.toNat
  .next <|
    if f.h.g then s.predGroup f.h f.d [f.a.toNat, f.b.toNat] bad fun g => cmp (g.gsrc f.a false) (g.gsrc f.b false)
    else if f.bcast && s.gang.busyG f.b.toNat then s
    else
      s.predLane f.h f.d ([Use.of f.a false] ++ (if f.bcast then [] else [Use.of f.b false])) bad fun g l =>
        cmp (g.src f.a false l) (g.srcB f false l)

def execFrnd (f : ClassA) (s : State) : Res := .next (s.float1 f FFmt.integral)
def execFclass (f : ClassA) (s : State) : Res := .next (s.float1 f fun t _ a => (t.classify a, 0#64))
def execFrcp (f : ClassA) (s : State) : Res := .next (s.float1 f FFmt.rcp)
def execFrsq (f : ClassA) (s : State) : Res := .next (s.float1 f FFmt.rsqrt)
def execFsqrt (f : ClassA) (s : State) : Res := .next (s.float1 f FFmt.sqrt)
def execFexp2 (f : ClassA) (s : State) : Res := .next (s.float1 f FFmt.exp2)
def execFlog2 (f : ClassA) (s : State) : Res := .next (s.float1 f FFmt.log2)

/-- FSIN and FCOS: the sign of a zero the spec gives none comes from a free value, one bit a lane (log entry 25, DESIGN CHOICE). -/
def State.turnA (s : State) (f : ClassA) (cosine : Bool) : State :=
  let p := s.freeVal
  let t := tyFmt f.ty.toNat
  let bad := 4 ≤ f.rnd.toNat
  let op := fun (l : Nat) => onElems f.ty.toNat fun a _ _ => t.turn (RMode.of f.rnd.toNat) cosine (p.1.getLsbD l) a
  if f.h.g then p.2.aluGroup f.h f.d [f.a.toNat] bad fun g => op 32 (g.gsrc f.a false) 0#64 0#64
  else p.2.aluLane f.h f.d false [Use.of f.a false] bad fun g l => op l (g.src f.a false l) 0#64 0#64

def execFsin (f : ClassA) (s : State) : Res := .next (s.turnA f false)
def execFcos (f : ClassA) (s : State) : Res := .next (s.turnA f true)

def execFdiv (f : ClassA) (s : State) : Res := .next (s.float2 f FFmt.div)

def execFdot2 (f : ClassA) (s : State) : Res :=
  .next (s.floatA f true true fun a b c =>
    let r := dot2 (tyFmt f.ty.toNat) (RMode.of f.rnd.toNat) a.toNat b.toNat c.toNat
    { val := BitVec.ofNat 64 r.1, flags := r.2 })

/-- The sum of IDOT4 (R135). -/
def idot4 (sa sb : Bool) (a b c : Nat) : Nat :=
  let p := fun i => asInt sa 8 (a / 256 ^ i) * asInt sb 8 (b / 256 ^ i)
  wrap 32 (p 0 + p 1 + p 2 + p 3 + c)

def execIdot4 (f : ClassA) (s : State) : Res :=
  let op := fun a b c : DWord => { val := BitVec.ofNat 64 (idot4 (f.mod.getLsbD 1) (f.mod.getLsbD 0) a.toNat b.toNat c.toNat) : LaneOut }
  .next <|
    if f.h.g then
      s.aluGroup f.h f.d [f.a.toNat, f.b.toNat, f.c.toNat] false fun g =>
        op (g.gsrc f.a false) (g.gsrc f.b false) (g.gsrc f.c false)
    else if f.bcast && s.gang.busyG f.b.toNat then s
    else
      s.aluLane f.h f.d false
        ([Use.of f.a false] ++ (if f.bcast then [] else [Use.of f.b false]) ++ [Use.of f.c false]) false fun g l =>
        op (g.src f.a false l) (g.srcB f false l) (g.src f.c false l)

/-! ## Format slots (R61, R62) -/

/-- A format slot's fields. -/
structure FSlot where
  fmt : Nat
  rnd : Nat
  sat : Bool
  sch : Nat
  blk : Nat
  top : Nat
  deriving DecidableEq, Repr

def fslot (v : Word) : FSlot :=
  let x := v.toNat
  { fmt := bitsOf x 0 5, rnd := bitsOf x 5 3, sat := x.testBit 8, sch := bitsOf x 9 2, blk := bitsOf x 11 3, top := x / 2 ^ 14 }

def FSlot.isZb (f : FSlot) : Bool := 18 ≤ f.fmt && f.fmt ≤ 24

/-- Mantissa width of a ZB format. -/
def FSlot.b (f : FSlot) : Nat := f.fmt - 16

/-- R62, but for its last line. -/
def FSlot.ok (f : FSlot) : Bool :=
  (f.fmt < 9 || f.isZb) && f.rnd < 5 && f.sch < 3 && (f.blk == 0 || f.blk == 5) && f.top == 0 &&
    (if f.isZb then f.sch != 0 && f.blk == 5 else f.sch == 0 && f.blk == 0)

/-- The slot of the issuing gang's launch. -/
def State.fs (s : State) (n : BitVec 3) : FSlot := fslot (s.launch.fs.getD n.toNat 0#32)

/-- The mode of a slot, with the draw of a state word for SR, and the word after it (R49). -/
def FSlot.draw (f : FSlot) (sr : Word) : RMode × Option Word :=
  if f.rnd = 4 then (.sr (xorShift sr % 65536#32).toNat, some (xorShift sr)) else (RMode.of f.rnd, none)

/-! ## CVT (R137) -/

/-- One conversion. `reg`: width of the destination register. -/
def cvtOne (f : FSlot) (srcFmt sel reg : Nat) (sr : Word) (a : DWord) : LaneOut :=
  let src := NFmt.of srcFmt
  let dst := NFmt.of f.fmt
  let d := f.draw sr
  let r := dst.convert d.1 f.sat src.isInt (src.decode (a.toNat / 2 ^ (src.width * sel)))
  let v := match dst with
    | .int true w => wrap reg (asInt true w r.1)
    | _ => r.1
  { val := BitVec.ofNat 64 v, flags := r.2, sr := d.2 }

def execCvt (f : ClassE) (s : State) : Res :=
  let fs := s.fs f.fs
  let bad := !fs.ok || fs.isZb
  .next <|
    if f.h.g then
      s.aluGroup f.h f.d [f.a.toNat] bad fun g =>
        cvtOne fs (f.bits 5 0) (f.bits 2 5) 64 (g.srstateAt ((lowest (g.active s.pt)).getD 0)) (g.gsrc f.a false)
    else
      s.aluLane f.h f.d false [Use.of f.a false] bad fun g l =>
        cvtOne fs (f.bits 5 0) (f.bits 2 5) 32 (g.srstateAt l) (g.src f.a false l)

/-! ## ZB blocks (R44 to R46, R55, R56) -/

/-- What a scale word decodes to (R44). A normal scale is k × 2^e. -/
inductive ZbScale where
  | zero
  | invalid
  | nan
  | normal (k : Nat) (e : Int)
  deriving DecidableEq, Repr

def zbScale (w : Nat) : ZbScale :=
  let e := w / 256 % 256
  let f := w % 256
  if e = 0 then (if f = 0 then .zero else .invalid)
  else if e = 255 then .nan
  else .normal (256 + f) ((e : Int) - 127 - 8)

/-- The value of an element of a block (R44, R46). -/
def zbValue (scale : Nat) (b m : Nat) : FVal :=
  match zbScale scale with
  | .zero => .num false 0 0
  | .invalid => .bad
  | .nan => .bad
  | .normal k e =>
    let i := asInt true b m
    .num (decide (i < 0)) (i.natAbs * k) (e - ((b : Int) - 1))

/-- Element i of a block's data (R45). -/
def zbElem (b data i : Nat) : Nat := data / 2 ^ (b * i) % 2 ^ b

/-- |x| ≤ S × (2^(b-1) - 1) / 2^(b-1) for the scale E, F, both sides exact. -/
def zbCovers (b E F : Nat) (v : FVal) : Bool :=
  (FVal.num false ((256 + F) * (2 ^ (b - 1) - 1)) ((E : Int) - 135 - ((b : Int) - 1))).cmp false
    (match v with
      | .num _ m e => .num false m e
      | x => x) != -1

/-- The smallest scale that covers a magnitude, as 256 E + F (R55). -/
def zbFind (b : Nat) (v : FVal) : Option Nat :=
  match (List.range 254).find? fun i => zbCovers b (i + 1) 255 v with
  | none => none
  | some i => ((List.range 256).find? fun F => zbCovers b (i + 1) F v).map fun F => 256 * (i + 1) + F

/-- A packed block: its scale word, its mantissas, and the flags (R55, R56). -/
structure ZbBlock where
  scale : Nat
  mants : List Nat
  flags : DWord
  deriving DecidableEq, Repr

def zbZeros : List Nat := List.replicate 32 0

def zbNanBlock (fl : DWord) : ZbBlock := { scale := 0xFF00, mants := zbZeros, flags := fl }

/-- Mantissas of the elements for a normal scale: rounded, with whether a value was out of range, and whether some element
is not exact (R55 step 4). -/
def zbMants (b k : Nat) (e : Int) (modes : List RMode) (xs : List FVal) : List Nat × Bool × Bool :=
  let lo : Int := -(2 ^ (b - 1) : Int)
  let hi : Int := 2 ^ (b - 1) - 1
  let one := fun (x : FVal) (m : RMode) =>
    match x with
    | .num n mm ee =>
      -- x × 2^(b-1) / S, exact quotient with a sticky bit
      match quotient n mm k (ee + ((b : Int) - 1) - e) with
      | .num n q qe =>
        let r := (roundInt m n q qe).1
        let i : Int := if n then -(r : Int) else r
        let c := max lo (min i hi)
        let v := FVal.num (decide (c < 0)) (c.natAbs * k) (e - ((b : Int) - 1))
        (wrap b c, c != i, v.cmp false x != 0)
      | _ => (0, false, false)
    | _ => (0, false, false)
  let l := (xs.zip modes).map fun p => one p.1 p.2
  (l.map (·.1), l.any (·.2.1), l.any (·.2.2))

/-- Pack under COMPUTE (R55). -/
def zbCompute (b : Nat) (sat : Bool) (modes : List RMode) (xs : List FVal) : ZbBlock :=
  let mag := fun (v : FVal) => match v with
    | .num _ m e => FVal.num false m e
    | x => x
  let big := xs.foldl (fun a x => if a.cmp false (mag x) = -1 then mag x else a) (.num false 0 0)
  if xs.any fun x => x.isNan || x.isInf then zbNanBlock flagNV
  else if big.isZero then { scale := 0, mants := zbZeros, flags := 0#64 }
  else
    let pack := fun (w : Nat) (fl : DWord) =>
      match zbScale w with
      | .normal k e =>
        let r := zbMants b k e modes xs
        { scale := w, mants := r.1, flags := fl ||| flagIf r.2.2 flagNX : ZbBlock }
      | _ => zbNanBlock 0#64
    match zbFind b big with
    | some w => pack w 0#64
    | none => if sat then pack 0xFEFF flagSV else zbNanBlock flagOF

/-- Pack under a given scale (R56). The given word is left unchanged, also where it makes the block a NaN block (log entry
26, DEDUCED); a NaN or infinite element makes a NaN block as in step 1 of R55, whatever the scale (R52). -/
def zbGiven (b : Nat) (sat : Bool) (w : Nat) (modes : List RMode) (xs : List FVal) : ZbBlock :=
  match zbScale w with
  | .nan => { scale := w, mants := zbZeros, flags := 0#64 }
  | .invalid => { scale := w, mants := zbZeros, flags := flagZBI }
  | .zero =>
    if xs.any fun x => x.isNan || x.isInf then zbNanBlock flagNV
    else { scale := w, mants := zbZeros, flags := flagIf (xs.any fun x => !x.isZero) flagNX }
  | .normal k e =>
    if xs.any fun x => x.isNan || x.isInf then zbNanBlock flagNV
    else
      let r := zbMants b k e modes xs
      if r.2.1 && !sat then zbNanBlock flagOF
      else { scale := w, mants := r.1, flags := flagIf r.2.1 flagSV ||| flagIf r.2.2 flagNX }

/-- A block's data as one number (R45). -/
def zbData (b : Nat) (mants : List Nat) : Nat := (mants.zipIdx.map fun p => p.1 * 2 ^ (b * p.2)).sum

/-- The format of QPACK's source and QUNPK's destination: F32, F16, BF16. -/
def packFmt (code : Nat) : FFmt := tyFmt code

/-- What every exchange instruction waits for: no lane has a load outstanding into a source register (R140). A source
of other lanes: absent lanes read zero. A loop queue that is named in a lane without an effect, which pops nothing, gives its
head, or 0 where it is empty (log entry 100, DESIGN CHOICE). -/
def Gang.anyLane (g : Gang) (x : BitVec 6) (wide : Bool) (l : Nat) : DWord := if g.present l then g.src x wide l else 0#64

/-- The draws of SR over the 32 elements, in element order; absent lanes step nothing (R138). -/
def packDraws (g : Gang) (fs : FSlot) : List (RMode × Option Word) :=
  lanes.map fun l => if g.present l then fs.draw (g.srstateAt l) else (if fs.rnd = 4 then (.sr 0, none) else (RMode.of fs.rnd, none))

/-- The block that QPACK packs from the 32 lanes (R55, R56, R138). -/
def packOf (f : ClassE) (fs : FSlot) (g : Gang) : ZbBlock :=
  let t := packFmt (f.bits 5 0)
  let xs := lanes.map fun l => t.decode (g.anyLane f.a false l).toNat
  let modes := (packDraws g fs).map (·.1)
  if fs.sch = 1 then zbCompute fs.b fs.sat modes xs 
  else zbGiven fs.b fs.sat ((g.vAt (f.bits 6 5) 0).toNat % 65536) modes xs

/-- What QPACK gives lane `l`: word `l` of the block's data, and the scale above it (R138). -/
def packLane (fs : FSlot) (blk : ZbBlock) (l : Nat) : LaneOut :=
  { val := BitVec.ofNat 64 ((if l < fs.b then zbData fs.b blk.mants / 2 ^ (32 * l) % 2 ^ 32 else 0) + blk.scale * 2 ^ 32)
    flags := blk.flags }

/-- Every present lane's draw is written, whether or not it has an effect (R138). -/
def Gang.packDraw (g : Gang) (ds : List (RMode × Option Word)) : Gang :=
  (lanes.zip ds).foldl (fun g p => match p.2.2 with
    | some x => g.setSrstate p.1 x
    | none => g) g

/-- QPACK's fields break R138 under the slot that FS names: check 3, a ZB slot of another scale handling included. -/
def qpackBad (f : ClassE) (fs : FSlot) : Bool :=
  let given := f.bits 6 5
  fs.isZb && (if fs.sch = 1 then given != 0 else fs.sch != 2 || 48 ≤ given)

def execQpack (f : ClassE) (s : State) : Res :=
  let fs := s.fs f.fs
  let given := f.bits 6 5
  let g := s.gang
  let srcs : List Use := [{ f := f.a }] ++ (if fs.sch = 2 then [{ f := BitVec.ofNat 6 given }] else [])
  .next <|
    if qpackBad f fs then s.illegal 3
    else
      match s.laneGate f.h srcs (if f.h.t then [] else [{ f := f.d, n := 2, a := 2 }]) (!fs.ok || !fs.isZb) false with
      | some s' => s'
      | none =>
        let res := (g.effLanes s.pt f.h).map fun l => (l, packLane fs (packOf f fs g) l)
        s.done (s.setGang ((g.finish s.pt f.h.t f.d true (popped srcs) res).packDraw (packDraws g fs)))

/-- The block's scale word that QUNPK reads: bits [47:32] of lane 0's pair (R139). -/
def unpackScale (f : ClassE) (g : Gang) : Nat := (g.anyLane f.a true 0).toNat / 2 ^ 32 % 65536

/-- What QUNPK gives lane `l` (R44, R46, R139). -/
def unpackOf (f : ClassE) (fs : FSlot) (g : Gang) (l : Nat) : LaneOut :=
  let data := ((List.range fs.b).map fun l => (g.anyLane f.a true l).toNat % 2 ^ 32 * 2 ^ (32 * l)).sum
  let scale := unpackScale f g
  let t := packFmt (f.bits 5 0)
  let d := fs.draw (g.srstateAt l)
  let r := match zbValue scale fs.b (zbElem fs.b data l) with
    | .nan .. => (t.nan, 0#64)
    | v => t.convert d.1 fs.sat v
  { val := BitVec.ofNat 64 r.1, flags := r.2 ||| flagIf (zbScale scale == .invalid) flagZBI, sr := d.2 }

def execQunpk (f : ClassE) (s : State) : Res :=
  let fs := s.fs f.fs
  .next (s.aluLane f.h f.d false [Use.of f.a true] (!fs.ok || !fs.isZb) fun g l => unpackOf f fs g l)

end Sys2Proof.Machine
end

