-- ==== Sys2Proof/Machine/Matrix.lean ====
section
/-! DEFINITION. Matrix instructions of the lintel core (R180 to R198): tile descriptors, the queue of the matrix engine, its
operations at their completion, redundant mode and its comparison. -/

namespace Sys2Proof.Machine

/-! ## Tile descriptors (R182, R183, R185) -/

def tdBase (d : TileDesc) : VAddr := d.extractLsb' 0 72
def tdScale (d : TileDesc) : VAddr := d.extractLsb' 72 72
def tdRows (d : TileDesc) : Nat := (d.extractLsb' 144 16).toNat + 1
def tdCols (d : TileDesc) : Nat := (d.extractLsb' 160 16).toNat + 1
def tdStride (d : TileDesc) : Nat := (d.extractLsb' 176 32).toNat
def tdSlot (d : TileDesc) : BitVec 3 := d.extractLsb' 208 3
def tdInC (d : TileDesc) : Bool := d.getLsbD 211
def tdSv (d : TileDesc) : Bool := d.getLsbD 212

/-- The space of a tile as an access space. -/
def tdSp (d : TileDesc) : Nat := if tdInC d then 2 else 0

/-- A descriptor from its fields. -/
def mkTd (base scale : VAddr) (rowsM1 colsM1 : BitVec 16) (stride : Word) (slot : BitVec 3) (c sv : Bool) : TileDesc :=
  (0#43 ++ BitVec.ofBool sv ++ BitVec.ofBool c ++ slot ++ stride ++ colsM1 ++ rowsM1 ++ scale ++ base : BitVec 256)

/-- Bytes of an element of a format that is no ZB format. -/
def FSlot.elemBytes (x : FSlot) : Nat := (NFmt.of x.fmt).width / 8

/-- ROWB (R182). -/
def rowBytes (x : FSlot) (d : TileDesc) : Nat := if x.isZb then tdCols d * x.b / 8 else tdCols d * x.elemBytes

/-- What a role asks of a descriptor, beyond R185's own conditions. -/
structure Role where
  /-- a drain to G: 32-byte alignment -/
  drainG : Bool := false
  /-- the shape is beyond the role's limit -/
  shape  : Bool := false
  fmtOk  : Bool := true
  spaceOk : Bool := true
  deriving DecidableEq, Repr

/-- The reason of the descriptor trap, the lowest that holds (R185). -/
def descReason (x : FSlot) (d : TileDesc) (r : Role) : Option Nat :=
  let al := if r.drainG then 32 else 16
  let odd := (tdBase d).toNat % al != 0 || (tdScale d).toNat % 16 != 0 || tdStride d % al != 0 ||
    (r.drainG && rowBytes x d % 32 != 0)
  let high := tdInC d && ((tdBase d).toNat / 2 ^ 24 != 0 || (tdScale d).toNat / 2 ^ 24 != 0)
  ([(odd, 1), (1 < tdRows d && tdStride d < rowBytes x d, 2), (r.shape, 3), (!r.fmtOk, 4),
    (x.isZb && (tdCols d % 32 != 0 || !tdSv d), 6), (!r.spaceOk || high, 7)].find? (·.1)).map (·.2)

/-- The descriptor trap (R185). -/
def State.descTrap (s : State) (n reason : Nat) : State := s.trap 21 (BitVec.ofNat 64 (n + 256 * reason))

/-- TDSET after its gate: the new contents are checked, then written whole (R183). -/
def State.tdset (s : State) (f : ClassE) (rowsM1 colsM1 : BitVec 16) (stride : Word) : State :=
  let g := s.gang
  let x := s.fs f.fs
  let sv := f.h.fx.getLsbD 1
  let d := mkTd (g.adAt f.ta.toNat) (if sv then g.adAt f.tc.toNat else 0#72) rowsM1 colsM1 stride f.fs (f.mod.getLsbD 23) sv
  if s.stops then s.halt
  else if s.barred then s.trap 14 0#64
  else
    match descReason x d { fmtOk := !sv || x.isZb || x.fmt == 0 || x.fmt == 1 || x.fmt == 6 } with
    | some r => s.descTrap f.d.toNat r
    | none => s.done (s.setGang { g with td := KMap.set 0#256 g.td f.d.toNat d })

def execTdsetImm (f : ClassE) (s : State) : Res :=
  .next <|
    match s.groupGate f.h [] (!(s.fs f.fs).ok) false with
    | some s' => s'
    | none =>
      s.tdset f ((f.mod.extractLsb' 14 9).setWidth 16) ((f.mod.extractLsb' 4 10).setWidth 16)
        (BitVec.ofNat 32 (16 * (f.a.toNat * 16 + f.bits 4 0)))

def execTdsetReg (f : ClassE) (s : State) : Res :=
  .next <|
    match s.groupGate f.h [f.a.toNat] (!(s.fs f.fs).ok) false with
    | some s' => s'
    | none =>
      let v := s.gang.gAt f.a.toNat
      s.tdset f (v.extractLsb' 0 16) (v.extractLsb' 16 16) (v.extractLsb' 32 32)

/-- What TDGET reads (R184). -/
def tdSelect (d : TileDesc) (sel : Nat) : DWord :=
  match sel with
  | 0 => d.extractLsb' 0 64
  | 1 => (d.extractLsb' 64 8).setWidth 64
  | 2 => d.extractLsb' 72 64
  | 3 => (d.extractLsb' 136 8).setWidth 64
  | 4 => (d.extractLsb' 176 32 ++ d.extractLsb' 160 16 ++ d.extractLsb' 144 16 : BitVec 64)
  | _ => (d.extractLsb' 208 5).setWidth 64

def execTdget (f : ClassE) (s : State) : Res :=
  .next (s.groupDo f.h [f.d.toNat] fun g => g.setG f.d.toNat (tdSelect (g.tdAt f.ta.toNat) (f.bits 3 0)))

/-! ## Tiles as ranges and as elements (R182) -/

/-- Start and bytes of each row. -/
def tileRows (x : FSlot) (d : TileDesc) : List (Nat × Nat) :=
  (List.range (tdRows d)).map fun i => (((tdBase d).toNat + i * tdStride d) % 2 ^ 72, rowBytes x d)

/-- The scale plane of a ZB tile. -/
def tileScales (x : FSlot) (d : TileDesc) : List (Nat × Nat) :=
  if x.isZb then [((tdScale d).toNat, tdRows d * tdCols d / 16)] else []

def asRange (sp : Nat) (nd : Need) (swing : Bool) (r : Nat × Nat) : Range :=
  { sp := sp, a := BitVec.ofNat 72 r.1, n := r.2, need := nd, swing := swing }

/-- A tile that is read. -/
def readRanges (x : FSlot) (d : TileDesc) : List Range :=
  (tileRows x d ++ tileScales x d).map (asRange (tdSp d) { r := true } false)

/-- The pattern of element (i, k) of a tile that is no ZB tile. -/
def tilePat (x : FSlot) (d : TileDesc) (l : List (Nat × List Byte)) (i k : Nat) : Nat :=
  pieceNat l (((tdBase d).toNat + i * tdStride d) % 2 ^ 72 + k * x.elemBytes) x.elemBytes

/-- Its value. -/
def tileVal (x : FSlot) (d : TileDesc) (l : List (Nat × List Byte)) (i k : Nat) : FVal :=
  (NFmt.of x.fmt).decode (tilePat x d l i k)

/-- The scale word of block j of row i (R182). -/
def tileScale (d : TileDesc) (l : List (Nat × List Byte)) (i j : Nat) : Nat :=
  pieceNat l ((tdScale d).toNat + 2 * (tdCols d / 32 * i + j)) 2

/-- The mantissas of block j of row i as integers. -/
def tileMants (x : FSlot) (d : TileDesc) (l : List (Nat × List Byte)) (i j : Nat) : List Int :=
  let data := pieceNat l (((tdBase d).toNat + i * tdStride d) % 2 ^ 72 + 4 * x.b * j) (4 * x.b)
  (List.range 32).map fun n => asInt true x.b (zbElem x.b data n)

/-! ## The queue (R187, R190, R197) -/

/-- The engine of the issuing lintel program. -/
def State.engine (s : State) : Mx := s.mxAt (s.clusterOfGang s.gk)

/-- The reason of the lintel-engine trap (R197). `needs` is the kind the accumulator must have, `valid` that it must hold
values. -/
def Mx.engineReason (m : Mx) (acc : Nat) (valid : Bool) (needs : Option Bool) : Option Nat :=
  if m.red && 4 ≤ acc then some 3
  else if valid && !m.valid.getLsbD acc then some 1
  else
    match needs with
    | some k => if m.kind.getLsbD acc != k then some 2 else none
    | none => none

/-- Issue checks in the order of R190: R87, the descriptors, the ranges, the engine; then room in the queue. -/
def State.mxGate (s : State) (f : ClassE) (gs : List Nat) (bad8 : Bool) (desc : Option (Nat × Nat)) (rs : List Range)
    (apart : Option VAddr) (eng : Option Nat) : Option State :=
  match s.groupGate f.h gs bad8 false with
  | some s' => some s'
  | none =>
    match desc with
    | some (n, r) => some (s.descTrap n r)
    | none =>
      match s.rangeTrap s.gang rs, apart with
      | some (c, a), _ => some (s.rangeRaise c a)
      | none, some a => some (s.rangeRaise 20 a)
      | none, none =>
        match eng with
        | some r => some (s.trap 23 (BitVec.ofNat 64 (f.d.toNat + 256 * r)))
        | none =>
          if s.accWaits || s.gang.loadsOut || 8 ≤ s.engine.ops.length then some s else none

/-- An operation enters the queue with what it sets at issue. -/
def State.mxIssue (s : State) (op : MxOp) (upd : Mx → Mx) : State :=
  let c := s.clusterOfGang s.gk
  let m := s.mxAt c
  let id := s.nextId
  (({ s with nextId := id + 1 }).setMxAt c { upd m with ops := m.ops ++ [{ op with id := id, int := m.kind.getLsbD op.acc }] }).owe [.mxOpComplete c id]

/-- VALID set, KIND as given. -/
def Mx.mark (m : Mx) (acc : Nat) (int : Bool) : Mx :=
  let b := 1#8 <<< acc
  { m with valid := m.valid ||| b, kind := if int then m.kind ||| b else m.kind &&& ~~~b }

/-- The slot of a descriptor, and whether R62 admits it; `drain` may use SR. -/
def State.tdFs (s : State) (d : TileDesc) : FSlot := s.fs (tdSlot d)
def FSlot.badTile (x : FSlot) (drain : Bool) : Bool := !x.ok || (!drain && x.rnd == 4)

def execMxzero (f : ClassE) (s : State) : Res :=
  let int := f.mod.getLsbD 0
  let acc := f.d.toNat
  .next <|
    match s.mxGate f [] false none [] none (s.engine.engineReason acc false none) with
    | some s' => s'
    | none => s.done (s.mxIssue { id := 0, kind := .zero int, acc := acc } fun m => m.mark acc int)

def execMxldacc (f : ClassE) (s : State) : Res :=
  let acc := f.d.toNat
  let d := s.gang.tdAt f.ta.toNat
  let x := s.tdFs d
  let r := descReason x d { shape := 128 < tdRows d || 128 < tdCols d, fmtOk := !x.isZb }
  .next <|
    match s.mxGate f [] (x.badTile false) (r.map fun n => (f.ta.toNat, n)) (readRanges x d) none
        (s.engine.engineReason acc false none) with
    | some s' => s'
    | none =>
      s.done (s.mxIssue { id := 0, kind := .ldacc, acc := acc, da := d } fun m => m.mark acc (NFmt.of x.fmt).isInt)

/-! ## MXMMA (R192) -/

/-- Groups of formats that R192's table pairs: F32, F16, BF16, FP8, INT8, ZB; none where a format takes no part. -/
def mmaGroup (x : FSlot) : Option Nat :=
  if x.isZb then some 5
  else
    match x.fmt with
    | 0 => some 0
    | 1 => some 1
    | 2 => some 2
    | 3 => some 3
    | 4 => some 3
    | 5 => some 4
    | 6 => some 4
    | _ => none

/-- The pair multiplies integers. -/
def mmaInt (x : FSlot) : Bool := mmaGroup x == some 4

/-- N and K of the second operand. -/
def mmaN (bt : Bool) (d : TileDesc) : Nat := if bt then tdRows d else tdCols d
def mmaK (bt : Bool) (d : TileDesc) : Nat := if bt then tdCols d else tdRows d

/-- The descriptor trap of MXMMA: A, then B, then the pair and the K extents. -/
def State.mmaReason (s : State) (f : ClassE) : Option (Nat × Nat) :=
  let a := s.gang.tdAt f.ta.toNat
  let b := s.gang.tdAt f.tb.toNat
  let x := s.tdFs a
  let y := s.tdFs b
  let bt := f.mod.getLsbD 0
  match descReason x a { shape := 128 < tdRows a, fmtOk := (mmaGroup x).isSome, spaceOk := !tdInC a },
        descReason y b { shape := 128 < mmaN bt b, fmtOk := (mmaGroup y).isSome, spaceOk := !tdInC b } with
  | some r, _ => some (f.ta.toNat, r)
  | none, some r => some (f.tb.toNat, r)
  | none, none =>
    if mmaGroup x != mmaGroup y || (y.isZb && !bt) then some (f.tb.toNat, 4)
    else if tdCols a ≠ mmaK bt b then some (f.tb.toNat, 5)
    else none

def execMxmma (f : ClassE) (s : State) : Res :=
  let acc := f.d.toNat
  let a := s.gang.tdAt f.ta.toNat
  let b := s.gang.tdAt f.tb.toNat
  let x := s.tdFs a
  let y := s.tdFs b
  .next <|
    match s.mxGate f [] (x.badTile false || y.badTile false) (s.mmaReason f) (readRanges x a ++ readRanges y b) none
        (s.engine.engineReason acc true (some (mmaInt x))) with
    | some s' => s'
    | none => s.done (s.mxIssue { id := 0, kind := .mma (f.mod.getLsbD 0), acc := acc, da := a, db := b } id)

/-! ## MXSCALE (R193) -/

def execMxscale (f : ClassE) (s : State) : Res :=
  let acc := f.d.toNat
  .next <|
    match s.mxGate f [f.a.toNat] false none [] none (s.engine.engineReason acc true none) with
    | some s' => s'
    | none => s.done (s.mxIssue { id := 0, kind := .scale ((s.gang.gAt f.a.toNat).setWidth 32), acc := acc } id)

/-- MXSCALE by a vector of 128. -/
def State.scaleVec (s : State) (f : ClassE) (k : MxKind) : State :=
  let acc := f.d.toNat
  let d := s.gang.tdAt f.ta.toNat
  let x := s.tdFs d
  let want := if s.engine.kind.getLsbD acc then 7 else 0
  let r := descReason x d { shape := tdRows d ≠ 1 || tdCols d ≠ 128, fmtOk := x.fmt == want, spaceOk := !tdInC d }
  match s.mxGate f [] (x.badTile false) (r.map fun n => (f.ta.toNat, n)) (readRanges x d) none
      (s.engine.engineReason acc true none) with
  | some s' => s'
  | none => s.done (s.mxIssue { id := 0, kind := k, acc := acc, da := d } id)

def execMxscaleRow (f : ClassE) (s : State) : Res := .next (s.scaleVec f .scaleRow)
def execMxscaleCol (f : ClassE) (s : State) : Res := .next (s.scaleVec f .scaleCol)

/-! ## MXDRAIN at issue (R194, R197) -/

/-- Bytes(d) (R194). -/
def drainBytes (x : FSlot) (d : TileDesc) : Nat :=
  tdRows d * rowBytes x d + (if x.isZb && x.sch == 1 then 2 * tdRows d * tdCols d / 32 else 0)

/-- The ranges of a drain: the data, and the scales written (SCH = 1) or read (SCH = 2). -/
def drainRanges (x : FSlot) (d : TileDesc) : List Range :=
  (tileRows x d).map (asRange (tdSp d) { w := true } (!tdInC d)) ++
    (tileScales x d).map (if x.sch = 1 then asRange (tdSp d) { w := true } (!tdInC d) else asRange (tdSp d) { r := true } false)

/-- A G destination spreads over two swing buffers (R194). -/
def State.drainApart (s : State) (x : FSlot) (d : TileDesc) : Option VAddr :=
  if tdInC d then none
  else
    let xl := s.xlOf s.gang.team
    let b0 := xl.swingOf (tdBase d).toNat
    if (tileRows x d).all fun r => xl.swingOf r.1 == b0 then none else some (tdBase d)

/-- The draws of a drain under SR, one per element (R49, R194). -/
def drawList (sr : Word) : Nat → List Word
  | 0 => []
  | n + 1 => xorShift sr :: drawList (xorShift sr) n

/-- An earlier operation on the accumulator is in the queue. -/
def Mx.busyAcc (m : Mx) (acc : Nat) : Bool := m.ops.any fun o => o.acc == acc

def execMxdrain (f : ClassE) (s : State) : Res :=
  let acc := f.d.toNat
  let g := s.gang
  let d := g.tdAt f.ta.toNat
  let x := s.tdFs d
  let row0 := f.bits 7 0
  let col0 := f.bits 7 8
  let bar := g.barOf f
  let r := descReason x d { drainG := !tdInC d, shape := 128 < row0 + tdRows d || 128 < col0 + tdCols d }
  .next <|
    match s.mxGate f [] (x.badTile true) (r.map fun n => (f.ta.toNat, n)) (drainRanges x d ++ barRange bar) (s.drainApart x d)
        (s.engine.engineReason acc true none) with
    | some s' => s'
    | none =>
      if s.engine.red && g.hold != .compared then
        (s.setGang { g with hold := .compare }).owe [.mxdrainCompareDone (s.clusterOfGang s.gk)]
      else
        let draws := if x.rnd = 4 then drawList (g.srstateAt 0) (tdRows d * tdCols d) else []
        let g := { g with hold := .no }
        let g := match draws.getLast? with
          | some w => g.setSrstate 0 w
          | none => g
        let s1 := (s.setGang g).barPend s.gk bar (drainBytes x d)
        s.done (s1.mxIssue { id := 0, kind := .drain row0 col0 bar, acc := acc, da := d, draws := draws } id)

/-- Canon (R197). -/
def canonXf (int : Bool) (v : XWord) : XWord := if !int && (fmtXF.decode v.toNat).isNan then 0x1FFC00000#34 else v

/-- The elements of a region that differ between the halves, row-major, relative to the region. -/
def Mx.mismatches (m : Mx) (acc row0 col0 rows cols : Nat) : List (Nat × Nat) :=
  let int := m.kind.getLsbD acc
  (List.range rows).flatMap fun i => (List.range cols).filterMap fun j =>
    let k := 16384 * acc + 128 * (row0 + i) + col0 + j
    if canonXf int (KMap.get 0#34 m.h0 k) != canonXf int (KMap.get 0#34 m.h1 k) then some (i, j) else none

/-- MXDRAIN_COMPARE_DONE: the word issues again with its comparison passed, or the redundant-mismatch trap is taken at it;
the die's event log takes an entry of kind 6, and a cluster pass is asked for (R197, R393, R397). -/
def execMxdrainCompareDone (cluster : Nat) (s : State) : Res :=
  let m := s.mxAt cluster
  .next <|
    match m.prog with
    | none => s
    | some k =>
      let g := s.gangAt k
      if g.hold != .compare then s
      else
        match decode .lintel (m.im.word (g.pcOf 0)) with
        | .ok (.mxdrain f) =>
          let acc := f.d.toNat
          let d := g.tdAt f.ta.toNat
          if m.busyAcc acc then s.owe [.mxdrainCompareDone cluster]
          else
            match m.mismatches acc (f.bits 7 0) (f.bits 7 8) (tdRows d) (tdCols d) with
            | [] => s.setGangAt k { g with hold := .compared }
            | (i, j) :: r =>
              let info := acc + 2 ^ 8 * i + 2 ^ 16 * j + 2 ^ 32 * (r.length + 1)
              let s := s.logEvent (cluster / 12) 6 (8 * cluster) 2 info 0
              let d := s.dieAt (cluster / 12)
              let s := s.setDieAt (cluster / 12) { d with clusAsk := d.clusAsk ++ [cluster] }
              (s.setGangAt k { g with hold := .no }).asPart k 0 fun s => s.trap 19 (BitVec.ofNat 64 info)
        | _ => s.setGangAt k { g with hold := .no }

/-! ## MXWAIT and MXMODE (R195, R196) -/

def execMxwait (f : ClassB) (s : State) : Res :=
  .next <|
    match s.groupGate f.h [] false false with
    | some s' => s'
    | none => if s.engine.ops.isEmpty then s.done s else s

def execMxwaitAcc (f : ClassB) (s : State) : Res :=
  .next <|
    match s.groupGate f.h [] false false with
    | some s' => s'
    | none =>
      let acc := (f.aux12.extractLsb' 0 3).toNat
      match s.engine.engineReason acc false none with
      | some r => s.trap 23 (BitVec.ofNat 64 (acc + 256 * r))
      | none => if s.engine.busyAcc acc then s else s.done s

/-- MXMODE: after the wait, a change of mode clears every VALID bit. -/
def State.mxmode (s : State) (f : ClassE) (red : Bool) : State :=
  match s.groupGate f.h [] false false with
  | some s' => s'
  | none =>
    let m := s.engine
    if !m.ops.isEmpty then s
    else if m.red == red then s.done s
    else s.done (s.setMxAt (s.clusterOfGang s.gk) { m with red := red, valid := 0#8 })

def execMxmodeNorm (f : ClassE) (s : State) : Res := .next (s.mxmode f false)
def execMxmodeRed (f : ClassE) (s : State) : Res := .next (s.mxmode f true)

/-! ## Operations at completion (R59, R64, R65, R187, R191 to R194) -/

/-- RoundXF: the value, and OF or NV (R59, R64). -/
def roundXf (v : FVal) : FVal × DWord :=
  let r := fmtXF.arith .rn [] v
  (fmtXF.decode r.1, r.2 &&& (flagNV ||| flagOF))

/-- One addition of the chain. -/
def xfPlus (x y : FVal) : FVal × DWord :=
  let r := fmtXF.arith .rn [x, y] (sumVals false [x, y])
  (fmtXF.decode r.1, r.2 &&& (flagNV ||| flagOF))

/-- An exact product with its flags (R40, R41). -/
def xfTimes (x y : FVal) : FVal × DWord :=
  if x.isNan || y.isNan then (.bad, snanFlag [x, y])
  else
    let p := x.mul y
    (p, flagIf p.isNan flagNV)

/-- One level of the pairwise tree. -/
def pairUp : List FVal → List FVal × DWord
  | x :: y :: r =>
    let p := xfPlus x y
    let q := pairUp r
    (p.1 :: q.1, p.2 ||| q.2)
  | l => (l, 0#64)

/-- Five levels: 32 products become one. -/
def treeUp : Nat → List FVal → List FVal × DWord
  | 0, l => (l, 0#64)
  | n + 1, l =>
    let p := pairUp l
    let q := treeUp n p.1
    (q.1, p.2 ||| q.2)

/-- The sum of one K-block of 32 products (R64). -/
def blockSum (ps : List (FVal × DWord)) : FVal × DWord :=
  let t := treeUp 5 (ps.map (·.1))
  (t.1.headD (.num false 0 0), ps.foldl (fun f p => f ||| p.2) t.2)

/-- The sum of one K-block of ZB operands (R65). -/
def zbBlockSum (ba bb sa sb : Nat) (ma mb : List Int) : FVal × DWord :=
  let zbi := flagIf (zbScale sa == .invalid || zbScale sb == .invalid) flagZBI
  match zbScale sa, zbScale sb with
  | .normal ka ea, .normal kb eb =>
    let t := ((ma.zip mb).map fun p => p.1 * p.2).sum
    roundXf (.num (decide (t < 0)) (t.natAbs * ka * kb) (ea + eb - ((ba : Int) + bb - 2)))
  | .zero, .normal .. => (.num false 0 0, 0#64)
  | .normal .., .zero => (.num false 0 0, 0#64)
  | .zero, .zero => (.num false 0 0, 0#64)
  | _, _ => (.bad, zbi)

/-- The chain over the K-blocks, in XF (R64). -/
def chain (acc : FVal) (n : Nat) (blk : Nat → FVal × DWord) : FVal × DWord :=
  (List.range n).foldl (fun (p : FVal × DWord) j =>
    let b := blk j
    let q := xfPlus p.1 b.1
    (q.1, p.2 ||| b.2 ||| q.2)) (acc, 0#64)

/-- A value of the chain as an XF pattern. -/
def toPat (v : FVal) : XWord := BitVec.ofNat 34 (fmtXF.arith .rn [v] v).1

/-- The new element (i, j) of MXMMA and its flags. -/
def mmaElem (x y : FSlot) (a b : TileDesc) (bt : Bool) (la lb : List (Nat × List Byte)) (old : XWord) (i j : Nat) :
    XWord × DWord :=
  let K := tdCols a
  if x.isZb then
    let r := chain (fmtXF.decode old.toNat) (K / 32) fun n =>
      zbBlockSum x.b y.b (tileScale a la i n) (tileScale b lb j n) (tileMants x a la i n) (tileMants y b lb j n)
    (toPat r.1, r.2)
  else
    let ea := fun k => tileVal x a la i k
    let eb := fun k => if bt then tileVal y b lb j k else tileVal y b lb k j
    if mmaInt x then
      let t := ((List.range K).map fun k => (ea k).scaled 0 * (eb k).scaled 0).sum
      (BitVec.ofNat 34 (wrap 32 (asInt true 32 old.toNat + t)), 0#64)
    else
      let r := chain (fmtXF.decode old.toNat) ((K + 31) / 32) fun n =>
        blockSum ((List.range 32).map fun w =>
          let k := 32 * n + w
          if k < K then xfTimes (ea k) (eb k) else (.num false 0 0, 0#64))
      (toPat r.1, r.2)

/-- One element scaled (R193). -/
def scaleElem (int : Bool) (old : XWord) (s : Nat) : XWord × DWord :=
  if int then (BitVec.ofNat 34 (wrap 32 (asInt true 32 old.toNat * asInt true 32 s)), 0#64)
  else
    let p := xfTimes (fmtXF.decode old.toNat) (fmtF32.decode s)
    if p.1.isNan then (0x1FFC00000#34, p.2)
    else
      let r := roundXf p.1
      (toPat r.1, p.2 ||| r.2)

/-- The positions of a region of an accumulator. -/
def grid (rows cols : Nat) : List (Nat × Nat) :=
  (List.range rows).flatMap fun i => (List.range cols).map fun j => (i, j)

def accKey (acc i j : Nat) : Nat := 16384 * acc + 128 * i + j

/-- New values of a region of one half. -/
def Mx.updHalf (h : KMap XWord) (acc rows cols : Nat) (f : Nat → Nat → XWord → XWord × DWord) : KMap XWord × DWord :=
  (grid rows cols).foldl (fun (p : KMap XWord × DWord) q =>
    let k := accKey acc q.1 q.2
    let r := f q.1 q.2 (KMap.get 0#34 p.1 k)
    (KMap.set 0#34 p.1 k r.1, p.2 ||| r.2)) (h, 0#64)

/-- The same in every copy the mode keeps (R186). -/
def Mx.upd (m : Mx) (acc rows cols : Nat) (f : Nat → Nat → XWord → XWord × DWord) : Mx × DWord :=
  let a := Mx.updHalf m.h0 acc rows cols f
  if m.red then
    let b := Mx.updHalf m.h1 acc rows cols f
    ({ m with h0 := a.1, h1 := b.1 }, a.2 ||| b.2)
  else ({ m with h0 := a.1 }, a.2)

/-- How an operation ends. -/
inductive MxEnd where
  /-- the engine after it, and the flags -/
  | ok (s : State) (m : Mx) (fl : DWord)
  | absent (va : VAddr) (acc : Nat)
  /-- abandoned at `va`, with the effects before it -/
  | bad (s : State) (va : VAddr)
  | wait (s : State)

/-- Reads of an operation, then what it does with them. -/
def State.mxRead (s : State) (k id : Nat) (go : Instr) (sp : Nat) (rs : List (Nat × Nat))
    (f : List (Nat × List Byte) → State → MxEnd) : MxEnd :=
  match s.gather k sp id go rs with
  | .ok l s' => f l s'
  | .absent va => .absent va 0
  | .bad va => .bad s va
  | .wait s' => .wait s'

/-- The converted rows of a drain: writes by address, and the flags (R194). `l` holds the scale plane under SCH = 2. -/
def drainRow (x : FSlot) (d : TileDesc) (int : Bool) (l : List (Nat × List Byte)) (xs : List FVal) (modes : List RMode) (i : Nat) :
    List (Nat × List Byte) × List (Nat × List Byte) × DWord :=
  let a := ((tdBase d).toNat + i * tdStride d) % 2 ^ 72
  if x.isZb then
    let blks := (List.range (tdCols d / 32)).map fun j =>
      let vs := (xs.drop (32 * j)).take 32
      let ms := (modes.drop (32 * j)).take 32
      let sa := (tdScale d).toNat + 2 * (tdCols d / 32 * i + j)
      let given := pieceNat l sa 2
      let b := if x.sch = 1 then zbCompute x.b x.sat ms vs else zbGiven x.b x.sat given ms vs
      let sc : List (Nat × List Byte) :=
        if x.sch = 1 || b.scale ≠ given then [(sa, leBytes 2 b.scale)] else []
      (leBytes (4 * x.b) (zbData x.b b.mants), sc, b.flags)
    (units16 a (blks.flatMap (·.1)), blks.flatMap (·.2.1), blks.foldl (fun f b => f ||| b.2.2) 0#64)
  else
    let cs := (xs.zip modes).map fun p => (NFmt.of x.fmt).convert p.2 x.sat int p.1
    (units16 a (cs.flatMap fun c => leBytes x.elemBytes c.1), [], cs.foldl (fun f c => f ||| c.2) 0#64)

/-- The whole of a drain's conversion. -/
def drainAll (x : FSlot) (m : Mx) (op : MxOp) (row0 col0 : Nat) (l : List (Nat × List Byte)) :
    List (Nat × List Byte) × List (Nat × List Byte) × DWord :=
  let d := op.da
  let int := op.int
  let el := fun i j =>
    let v := (KMap.get 0#34 m.h0 (accKey op.acc (row0 + i) (col0 + j))).toNat
    if int then FVal.ofInt (asInt true 32 v) else fmtXF.decode v
  let mode := fun n => match op.draws[n]? with
    | some w => RMode.sr (w.toNat % 65536)
    | none => RMode.of x.rnd
  let cols := List.range (tdCols d)
  let rows := (List.range (tdRows d)).map fun i =>
    drainRow x d int l (cols.map (el i)) (cols.map fun j => mode (tdCols d * i + j)) i
  (rows.flatMap (·.1), rows.flatMap (·.2.1), rows.foldl (fun f r => f ||| r.2.2) 0#64)

/-- What an operation does at its completion. -/
def State.mxPerform (s : State) (k cluster : Nat) (op : MxOp) : MxEnd :=
  let m := s.mxAt cluster
  let go : Instr := .mxOpComplete cluster op.id
  let fs := fun (d : TileDesc) => fslot ((s.launchOf (s.gangAt k).team).fs.getD (tdSlot d).toNat 0#32)
  match op.kind with
  | .zero _ =>
    let r := m.upd op.acc 128 128 fun _ _ _ => (0#34, 0#64)
    .ok s r.1 0#64
  | .ldacc =>
    let d := op.da
    let x := fs d
    s.mxRead k op.id go (tdSp d) (tileRows x d) fun l s =>
      let conv := fun i j =>
        if (NFmt.of x.fmt).isInt then (BitVec.ofNat 34 (wrap 32 ((tileVal x d l i j).scaled 0)), 0#64)
        else
          let r := fmtXF.convert .rn false (tileVal x d l i j)
          ((BitVec.ofNat 34 r.1, r.2) : XWord × DWord)
      let r := m.upd op.acc 128 128 fun i j _ => if i < tdRows d && j < tdCols d then conv i j else (0#34, 0#64)
      .ok s r.1 r.2
  | .mma bt =>
    let a := op.da
    let b := op.db
    let x := fs a
    let y := fs b
    s.mxRead k op.id go 0 (tileRows x a ++ tileScales x a ++ tileRows y b ++ tileScales y b) fun l s =>
      let r := m.upd op.acc (tdRows a) (mmaN bt b) fun i j old => mmaElem x y a b bt l l old i j
      .ok s r.1 r.2
  | .scale v =>
    let r := m.upd op.acc 128 128 fun _ _ old => scaleElem op.int old v.toNat
    .ok s r.1 r.2
  | .scaleRow =>
    let x := fs op.da
    s.mxRead k op.id go 0 (tileRows x op.da) fun l s =>
      let r := m.upd op.acc 128 128 fun i _ old => scaleElem op.int old (tilePat x op.da l 0 i)
      .ok s r.1 r.2
  | .scaleCol =>
    let x := fs op.da
    s.mxRead k op.id go 0 (tileRows x op.da) fun l s =>
      let r := m.upd op.acc 128 128 fun _ j old => scaleElem op.int old (tilePat x op.da l 0 j)
      .ok s r.1 r.2
  | .drain row0 col0 bar =>
    let x := fs op.da
    let sp := tdSp op.da
    s.mxRead k op.id go sp (if x.sch = 2 then tileScales x op.da else []) fun l s =>
      let r := drainAll x m op row0 col0 l
      let ws := r.1 ++ (if x.sch = 1 then r.2.1 else [])
      match s.engineWriteAll k sp ws with
      | .absent va => .absent va 1
      | .bad va => .bad (s.engineWriteSome k sp ws) va
      | .locked => .wait (s.owe [go])
      | .ok s1 =>
        -- the 0xFF00 of a NaN block under SCH = 2; where it may not be written the drain is abandoned (log entry 26, DEDUCED)
        match (if x.sch = 1 then Wrote.ok s1 else s1.engineWriteAll k sp r.2.1) with
        | .absent va => .absent va 1
        | .locked => .wait (s.owe [go])
        | .bad va => .bad (s1.engineWriteSome k sp r.2.1) va
        | .ok s2 => .ok (s2.barArrive k bar (drainBytes x op.da)) m r.2.2

/-- An operation that meets a page it may not use is abandoned: it has no further effect, its barrier's PEND keeps its bytes, and
the lintel program takes the trap (R419). It leaves the engine's queue (log entry 114, DEDUCED). -/
def State.mxAbandon (s : State) (cluster id : Nat) (va : VAddr) : State :=
  let m := s.mxAt cluster
  match m.prog with
  | some k =>
    ((s.setMxAt cluster { m with ops := m.ops.filter fun o => o.id != id }).lintelTrap k
      { cause := 20, lanes := 0#32, info := va.setWidth 64, pc := (s.gangAt k).pcOf 0 }).endCheck k
  | none => s

/-- MX_OP_COMPLETE (R187, R342, R419): operations on one accumulator complete in issue order. -/
def execMxOpComplete (cluster id : Nat) (s : State) : Res :=
  let m := s.mxAt cluster
  .next <|
    match m.prog, m.ops.find? fun o => o.id == id with
    | some k, some op =>
      if (m.ops.find? fun o => o.acc == op.acc).map (·.id) != some id then s.owe [.mxOpComplete cluster id]
      else
        match s.mxPerform k cluster op with
        | .ok s1 m1 fl =>
          let s2 := s1.setMxAt cluster { m1 with ops := m1.ops.filter fun o => o.id != id }
          (s2.setGangAt k ((s2.gangAt k).orMstat fl)).endCheck k
        | .absent va acc =>
          s.engineFault k (s.cohortAt (s.teamAt (s.gangAt k).team).cohort).queue va acc (.mxOpComplete cluster id)
        | .bad s1 va => s1.mxAbandon cluster id va
        | .wait s1 => s1
    | _, _ => s

end Sys2Proof.Machine
end

