-- ==== Sys2Proof/Machine/Tiles.lean ====
section
/-! DEFINITION. Image tiles of 4×4 pixels (R258, R284 to R286): channels, decoding, the identity tile, merging pixels, and the
encoding of a destination tile. -/

namespace Sys2Proof.Machine

/-- A channel of a pixel. -/
inductive Chan where
  /-- an integer of `w` bits -/
  | int (w : Nat)
  | f16
  | f32
  deriving DecidableEq, Repr

def Chan.width : Chan → Nat
  | .int w => w
  | .f16 => 16
  | .f32 => 32

/-- Its float format, for F16 and F32. -/
def Chan.fmt : Chan → Option FFmt
  | .int _ => none
  | .f16 => some fmtF16
  | .f32 => some fmtF32

/-- A composite's modes (R284). -/
inductive CompMode where
  | depth
  | alpha
  | count
  deriving DecidableEq, Repr

def CompMode.of (code : Nat) : CompMode :=
  match code with
  | 0 => .depth
  | 1 => .alpha
  | _ => .count

/-- The colour channel of a slot format: 6 RGBA8, 1 RGBA16F, 0 RGBA32F (R284). -/
def colourChan (fmt : Nat) : Chan :=
  match fmt with
  | 6 => .int 8
  | 1 => .f16
  | _ => .f32

/-- Channels of a pixel, lowest address first. -/
def CompMode.chans (m : CompMode) (fmt : Nat) : List Chan :=
  List.replicate 4 (colourChan fmt) ++ (match m with
    | .depth => [.f32]
    | .alpha => []
    | .count => [.int 32])

/-- Pixel bytes. -/
def pixelBytes (cs : List Chan) : Nat := (cs.map fun c => c.width / 8).sum

/-- Channel patterns of a pixel from its number. -/
def splitPixel : List Chan → Nat → List Nat
  | [], _ => []
  | c :: r, n => n % 2 ^ c.width :: splitPixel r (n / 2 ^ c.width)

/-- The number of a pixel. -/
def joinPixel : List Chan → List Nat → Nat
  | c :: r, x :: y => x % 2 ^ c.width + 2 ^ c.width * joinPixel r y
  | _, _ => 0

/-! ## Decoding (R258) -/

/-- A tile: whether it counts as invalid, the base pixel with DX and DY when it is a PLANE tile, and its 16 pixels. -/
structure Tile where
  bad    : Bool := false
  plane  : Option (List Nat × List Nat × List Nat) := none
  pixels : List (List Nat)
  deriving DecidableEq, Repr

/-- n × v as an exact value. -/
def scaleVal (n : Nat) (v : FVal) : FVal :=
  if n = 0 then (match v with
    | .num s _ e => .num s 0 e
    | _ => .bad) else v.mul (.num false n 0)

/-- A channel of pixel (x, y) of a PLANE tile. -/
def planeChan (c : Chan) (b dx dy x y : Nat) : Nat :=
  match c.fmt with
  | none => (b + x * dx + y * dy) % 2 ^ c.width
  | some f =>
    (f.arith .rn [f.decode b, f.decode dx, f.decode dy]
      (sumVals false [f.decode b, scaleVal x (f.decode dx), scaleVal y (f.decode dy)])).1

/-- Pixels of a PLANE tile. -/
def planePixels (cs : List Chan) (p : List Nat × List Nat × List Nat) : List (List Nat) :=
  (List.range 16).map fun i => cs.zipIdx.map fun c =>
    planeChan c.1 (p.1.getD c.2 0) (p.2.1.getD c.2 0) (p.2.2.getD c.2 0) (i % 4) (i / 4)

/-- Signed w-bit delta number `k` of a payload. -/
def deltaAt (w payload k : Nat) : Int :=
  let v := (payload >>> (w * k)) % 2 ^ w
  if 2 ^ (w - 1) ≤ v then (v : Int) - 2 ^ w else v

/-- The tile of a header and payload, with the base pixel of its table segment; none where the header is invalid. -/
def decodeTile (cs : List Chan) (mode len payload : Nat) (base : Option (List Nat)) (basei : Nat) : Option Tile :=
  let p := pixelBytes cs
  let n := cs.length
  match mode with
  | 0 =>
    if len = 16 * p && basei = 0 then
      some { pixels := (List.range 16).map fun i => splitPixel cs (payload >>> (8 * p * i) % 2 ^ (8 * p)) }
    else none
  | 1 => if len = 0 then base.map fun b => { pixels := List.replicate 16 b } else none
  | 2 =>
    if len = 2 * p then
      base.map fun b =>
        let pl := (b, splitPixel cs (payload % 2 ^ (8 * p)), splitPixel cs (payload >>> (8 * p)))
        { plane := some pl, pixels := planePixels cs pl }
    else none
  | _ =>
    match [4, 8, 16].find? fun w => len = 2 * n * w with
    | none => none
    | some w => base.map fun b =>
      { pixels := (List.range 16).map fun i => cs.zipIdx.map fun c =>
          (((b.getD c.2 0 : Int) + deltaAt w payload (n * i + c.2)) % (2 ^ c.1.width : Int)).toNat }

/-- The identity tile that an invalid one stands for (R285). -/
def identityTile (m : CompMode) : Tile :=
  { bad := true, pixels := List.replicate 16 ([0, 0, 0, 0] ++ (match m with
      | .depth => [0x7F800000]
      | .alpha => []
      | .count => [0])) }

/-! ## Encoding (R286) -/

/-- The signed difference of two patterns modulo the channel width. -/
def chanDelta (c : Chan) (x b : Nat) : Int :=
  let v := (x + 2 ^ c.width - b % 2 ^ c.width) % 2 ^ c.width
  if 2 ^ (c.width - 1) ≤ v then (v : Int) - 2 ^ c.width else v

/-- Every channel of every pixel is within w bits of the base pixel. -/
def deltaFits (cs : List Chan) (t : List (List Nat)) (b : List Nat) (w : Nat) : Bool :=
  t.all fun px => cs.zipIdx.all fun c =>
    let d := chanDelta c.1 (px.getD c.2 0) (b.getD c.2 0)
    decide (-(2 ^ (w - 1) : Int) ≤ d && d < 2 ^ (w - 1))

/-- MODE, base value and payload of a destination tile: the first encoding that fits. -/
def encodeTile (cs : List Chan) (m : CompMode) (t : Tile) : Nat × List Nat × List Byte :=
  let p := pixelBytes cs
  let b := t.pixels.headD []
  let raw := (0, ([] : List Nat), t.pixels.flatMap fun px => leBytes p (joinPixel cs px))
  if t.pixels.all (· == b) then (1, b, [])
  else
    match (if m = .depth then t.plane else none) with
    | some pl => (2, pl.1, leBytes p (joinPixel cs pl.2.1) ++ leBytes p (joinPixel cs pl.2.2))
    | none =>
      match [4, 8, 16].find? fun w => decide (2 * cs.length * w < 16 * p) && deltaFits cs t.pixels b w with
      | none => raw
      | some w =>
        let ds := t.pixels.flatMap fun px => cs.zipIdx.map fun c =>
          (chanDelta c.1 (px.getD c.2 0) (b.getD c.2 0) % (2 ^ w : Int)).toNat
        let v := (ds.zipIdx.map fun d => d.1 * 2 ^ (w * d.2)).sum
        (3, b, leBytes (2 * cs.length * w) v)

end Sys2Proof.Machine
end

