-- ==== Sys2Proof/Machine/Votes.lean ====
section
/-! DEFINITION. The collective branch and the vote tree (R108 to R112, R290, R291, R293): CBR, the delivery of a result, and
the frames, timer and request of the tree. -/

namespace Sys2Proof.Machine

/-! ## Nodes of the tree (R290, R291) -/

/-- The module of a group's domain root. -/
def State.voteRoot (s : State) (gk : Nat) : Nat := (s.groupAt gk).rootm

/-- Gangs of the members on this module. -/
def State.memberGangs (s : State) (gk : Nat) : List Nat :=
  ((s.groupAt gk).members.filterMap fun m => s.memberTeam gk m).flatMap fun t => (s.teamAt t).gangs

/-- Number of member gangs of a group: every member is a team of shape RCLS (R290, R315). -/
def State.groupSize (s : State) (gk : Nat) : Nat :=
  match s.launchQueue (gk / 256) with
  | some k =>
    let l := (s.queueAt k).launch
    (s.groupAt gk).members.length * (s.shape k l l.rcls).gangs
  | none => 0

/-- A gang's vote counter for a group. -/
def State.voteCount (s : State) (k gk : Nat) : Nat :=
  match s.slotsOf (s.gangAt k).team gk with
  | i :: _ => (KMap.get 0#16 (s.gangAt k).vcnt i).toNat
  | [] => 0

/-- A gang whose vote counter is `count` has not cast vote `num`: the counter stands at the number or before it, modulo 2^16. -/
def uncast (count num : Nat) : Bool := (num + 65536 - count) % 65536 < 32768
def State.notCast (s : State) (k gk num : Nat) : Bool := uncast (s.voteCount k gk) num

/-- Ended gangs, of this module and of others, that have not cast a vote: they count with the identity (R109). -/
def State.endedVotes (s : State) (gk num : Nat) : Nat :=
  ((s.memberGangs gk).filter fun k => (s.gangAt k).ended && s.notCast k gk num).length +
    ((s.groupAt gk).gone.filter fun c => uncast c num).length

/-- The reduction of two values. -/
def votePlus (all a b : Bool) : Bool := if all then a && b else a || b

/-- A partial with votes added; a new one starts from the identity. -/
def Partial.plus (p : Partial) (all : Bool) (count : Nat) (val : Bool) : Partial :=
  if count = 0 then { p with all := if p.count = 0 then all else p.all }
  else if p.count = 0 then { count := count, val := val, all := all }
  else { p with count := p.count + count, val := votePlus all p.val val }

/-- The fields of a vote frame (log entry 23, DESIGN CHOICE): [31:0] count, [32] value, [33] ALL, [34] a result request, [35] it goes to
the root, [36] results taken, [37] a gang has ended, its vote counter the number. -/
def voteWord (count : Nat) (val all req : Bool) : Nat :=
  count % 2 ^ 32 + boolNat val * 2 ^ 32 + boolNat all * 2 ^ 33 + boolNat req * 2 ^ 34

/-- What a node has gathered of a number goes up the tree: from a die node to the module node, from that (`die` 4) to the root (R290). -/
def State.sendPartial (s : State) (die gk num : Nat) : State :=
  let g := s.groupAt gk
  let p := KMap.get {} g.nodes (65536 * die + num)
  if p.count = 0 then s
  else
    let w := voteWord p.count p.val p.all false
    let f :=
      if die = 4 then groupFrame 10 s.modn (s.voteRoot gk) gk num (w + 2 ^ 35) 0
      else { groupFrame 10 s.modn s.modn gk num w 0 with sdie := die }
    (s.setGroupAt gk { g with nodes := KMap.set {} g.nodes (65536 * die + num) {} }).sendFrame f

/-- Gangs of a group that are resident on a die. -/
def State.dieVoters (s : State) (die gk : Nat) : List Nat :=
  (s.memberGangs gk).filter fun k =>
    !(s.gangAt k).ended && s.dieOfGang k == die && (s.teamAt (s.gangAt k).team).status == .running

/-- A vote reaches its die node; the partial goes up once every resident member gang has cast that vote, and 100 ns after
the first at the latest. -/
def State.castVote (s : State) (die gk num : Nat) (all val : Bool) : State :=
  let g := s.groupAt gk
  let p := KMap.get {} g.nodes (65536 * die + num)
  let s := s.setGroupAt gk { g with nodes := KMap.set {} g.nodes (65536 * die + num) (p.plus all 1 val) }
  if (s.dieVoters die gk).all fun k => !s.notCast k gk num then s.sendPartial die gk num
  else if p.count = 0 then s.owe [.votePartialTimeout die gk num] else s

/-- The die holds, or held, a member of the group. -/
def State.heldMember (s : State) (die gk : Nat) : Bool :=
  (s.memberGangs gk).any fun k => s.dieOfGang k == die

/-- A die node takes a result: it keeps the four newest, and its waiting gangs are served. -/
def State.keepResult (s : State) (die gk num : Nat) (val : Bool) : State :=
  let g := s.groupAt gk
  let l := (num, val) :: (KMap.get [] g.kept die).filter fun x => x.1 != num
  let s := s.setGroupAt gk { g with kept := KMap.set [] g.kept die (l.take 4) }
  let ks := s.gangs.filterMap fun p => match p.2.vcast with
    | some v => if v.grp = gk && v.num = num && !p.2.ended && s.dieOfGang p.1 == die then some p.1 else none
    | none => none
  s.owe (ks.map fun k => .voteResultDelivery k)

/-- A result at the root returns down the tree (R290). -/
def State.returnResult (s : State) (gk num : Nat) (val : Bool) (mods : List Nat) : State :=
  mods.foldl (fun s m => s.sendFrame (groupFrame 11 s.modn m gk num (boolNat val * 2 ^ 32) 0)) s

/-- The module node passes requests and reports on; it adds a partial to what it holds of the number, and sends that up unless a die
node of its module has votes of the number too. -/
def State.moduleVote (s : State) (gk num w : Nat) : State :=
  let g := s.groupAt gk
  if w.testBit 34 || w.testBit 36 then s.sendFrame (groupFrame 10 s.modn (s.voteRoot gk) gk num (w + 2 ^ 35) 0)
  else
    let p := (KMap.get {} g.nodes (65536 * 4 + num)).plus (w.testBit 33) (w % 2 ^ 32) (w.testBit 32)
    let s := s.setGroupAt gk { g with nodes := KMap.set {} g.nodes (65536 * 4 + num) p }
    if (List.range 4).any fun d => (KMap.get {} g.nodes (65536 * d + num)).count != 0 then s else s.sendPartial 4 gk num

/-- The root forgets a result that every member gang that has not ended has taken (R291). -/
def State.forgetResult (s : State) (gk num : Nat) : State :=
  let g := s.groupAt gk
  match KMap.get none g.results num with
  | some r => if r.2 + s.endedVotes gk num < s.groupSize gk then s
    else s.setGroupAt gk { g with results := KMap.set none g.results num none }
  | none => s

/-- A partial at the root: the result is known once every member gang has voted or ended, and returns (R290). -/
def State.rootPartial (s : State) (gk num w : Nat) : State :=
  let g := s.groupAt gk
  let p := (KMap.get {} g.root num).plus (w.testBit 33) (w % 2 ^ 32) (w.testBit 32)
  if p.count = 0 then s.forgetResult gk num
  else if p.count + s.endedVotes gk num < s.groupSize gk then s.setGroupAt gk { g with root := KMap.set {} g.root num p }
  else
    (s.setGroupAt gk { g with
      root := KMap.set {} g.root num {}, results := KMap.set none [] num (some (p.val, 0)) }).returnResult gk num p.val
      (s.groupModules gk)

/-- What reaches the root: a request is answered, takings are counted, an ended gang is noted, a partial is added. -/
def State.rootVote (s : State) (gk num w src : Nat) : State :=
  let g := s.groupAt gk
  if w.testBit 34 then
    match KMap.get none g.results num with
    | some r => s.returnResult gk num r.1 [src]
    | none => s
  else if w.testBit 36 then
    match KMap.get none g.results num with
    | some r =>
      (s.setGroupAt gk { g with results := KMap.set none g.results num (some (r.1, r.2 + w % 2 ^ 32)) }).forgetResult gk num
    | none => s
  else if w.testBit 37 then (s.setGroupAt gk { g with gone := g.gone ++ [num] }).relook gk
  else s.rootPartial gk num w

/-- FRAME_VOTE: a partial, a request or a report reaches the module node or the root (R290, R291). -/
def execFrameVote (f : Frame) (s : State) : Res :=
  .next (s.receive f fun f s =>
    let gk := frameGkey f
    let g := s.groupAt gk
    if g.broken || g.members.isEmpty then s
    else if (frameWord f).testBit 35 then s.rootVote gk (frameNum f) (frameWord f) f.srcm
    else s.moduleVote gk (frameNum f) (frameWord f))

/-- FRAME_VOTE_RESULT: the result reaches the dies that hold, or held, a member, and the dies that have asked for it; or the group has
broken elsewhere. -/
def execFrameVoteResult (f : Frame) (s : State) : Res :=
  .next (s.receive f fun f s =>
    let gk := frameGkey f
    if (frameWord f).testBit 33 then if (s.groupAt gk).broken then s else s.breakHere gk []
    else
      (List.range 4).foldl (fun s d =>
        let asks := s.gangs.any fun p => match p.2.vcast with
          | some v => v.grp = gk && v.num = frameNum f && s.dieOfGang p.1 == d
          | none => false
        if s.heldMember d gk || asks then s.keepResult d gk (frameNum f) ((frameWord f).testBit 32) else s) s)

/-- VOTE_PARTIAL_TIMEOUT (R290). -/
def execVotePartialTimeout (die grp num : Nat) (s : State) : Res := .next (s.sendPartial die grp num)

/-- VOTE_RESULT_REQUEST: a die node without the result asks for it through its module node (R291). -/
def execVoteResultRequest (die grp num : Nat) (s : State) : Res :=
  let g := s.groupAt grp
  .next <|
    match (KMap.get [] g.kept die).find? fun x => x.1 == num with
    | some x => s.keepResult die grp num x.2
    | none =>
      s.sendFrame { groupFrame 10 s.modn s.modn grp num (voteWord 0 false false true) 0 with sdie := die }

/-! ## CBR (R108 to R112) -/

/-- Votes a die node holds: those cast there and not yet resolved. -/
def State.pendingVotes (s : State) (die : Nat) : Nat :=
  (s.gangs.filter fun p => p.2.vcast.isSome && !p.2.ended && s.dieOfGang p.1 == die).length

/-- The run-ahead that starts at a CBR. -/
def Gang.snapshot (g : Gang) (cbr other : IAddr) (taken : Bool) (window : Nat) : Ahead :=
  { cbr := cbr, other := other, taken := taken, left := window + 1, regs := g.r, cnt := g.cnt, slices := g.slices, ret := g.ret }

/-- After a vote the gang runs ahead on the hinted path, or waits with no window (R110). A fall-through off the last word
of a slot would trap, so it waits too. -/
def State.runAhead (s : State) (f : ClassB) : State :=
  let g := s.gang
  let t := relTarget s.pc f.disp
  let taken := f.aux4.getLsbD 1
  let n := f.aux12.toNat
  if n = 0 || (!taken && lastWord s.pc) then s.setGang { g with hold := .vote }
  else
    let a := g.snapshot s.pc (if taken then nextPc s.pc else t) taken n
    let s' := s.setGang { g with ahead := some a, r := { g.r with undo := some [] } }
    if taken then s'.jumpTo s' (g.partSlices s.pt) t else s'.advance

/-- The gang's recorded vote: its die node delivers the result, or asks for it (R112, R291). -/
def State.awaitVote (s : State) (k : Nat) : State :=
  match (s.gangAt k).vcast with
  | none => s
  | some v =>
    let die := s.dieOfGang k
    let s := s.setGangAt k { s.gangAt k with hold := .vote }
    if (KMap.get [] (s.groupAt v.grp).kept die).any fun x => x.1 == v.num then s.owe [.voteResultDelivery k]
    else s.owe [.voteResultRequest die v.grp v.num]

/-- CBR. Where several of its own traps hold, the region trap comes first, then the collective trap, the collective-broken trap, and the
segment-cross trap (log entry 109, DESIGN CHOICE). -/
def execCbr (f : ClassB) (s : State) : Res :=
  let g := s.gang
  let grp := f.aux8.toNat
  let t := relTarget s.pc f.disp
  .next <|
    if !g.anyActive s.pt then s.done s
    else
      match s.engineGate with
      | some s' => s'
      | none =>
        match s.team.grpSlot grp with
        | none => s.trap 15 (BitVec.ofNat 64 grp)
        | some slot =>
          let gk := s.groupKey g.team grp
          if !g.whole then s.trap 15 (BitVec.ofNat 64 grp)
          else if (s.groupAt gk).broken then s.trap 16 (BitVec.ofNat 64 grp)
          else if crosses s.pc f.disp then s.segTrap 11 t
          else if g.vcast.isSome then s.awaitVote s.gk
          else if 4096 ≤ s.pendingVotes s.die then s
          else
            let num := (KMap.get 0#16 g.vcnt slot).toNat
            let val := g.gpAt f.h.pi.toNat != f.h.pn
            let g1 := { g with
              vcnt := KMap.set 0#16 g.vcnt slot (BitVec.ofNat 16 (num + 1)), vcast := some { grp := gk, slot := slot, num := num } }
            ((s.setGang g1).castVote s.die gk num (f.aux4.getLsbD 0) val).runAhead f

/-- The gang takes the resolved path from its CBR (R111). -/
def State.takePath (s : State) (k : Nat) (taken : Bool) (target : IAddr) : State :=
  let g := s.gangAt k
  let p := g.parts.headD 0
  s.asPart k p fun s =>
    if taken then s.setGang (s.gang.jump (s.gang.partSlices p) target) else s.advance

/-- The die node reports that a gang has taken its result (R291). -/
def State.reportTaken (s : State) (k : Nat) (v : Cast) : State :=
  s.sendFrame { groupFrame 10 s.modn s.modn v.grp v.num (1 + 2 ^ 36) 0 with sdie := s.dieOfGang k }

/-- VOTE_RESULT_DELIVERY: held stores commit on a match, the gang is restored and goes the other way on a mismatch; a gang
that waits at its CBR takes the resolved path (R111, R112, R291). -/
def execVoteResultDelivery (gang : Nat) (s : State) : Res :=
  let g := s.gangAt gang
  .next <|
    match g.vcast with
    | none => s
    | some v =>
      if g.ended || (s.teamAt g.team).status != .running || (s.cohortAt (s.teamAt g.team).cohort).status != .running then s
      else
        match (KMap.get [] (s.groupAt v.grp).kept (s.dieOfGang gang)).find? fun x => x.1 == v.num with
        | none => s
        | some r =>
          match g.ahead with
          | some a =>
            if r.2 == a.taken then
              let g1 := { g with
                ahead := none, vcast := none, r := { g.r with undo := none }, loads := g.loads.map fun p => { p with ahead := false }, starved := false }
              ((s.reportTaken gang v).setGangAt gang g1).commit gang a.held
            else
              let s1 := (s.reportTaken gang v).setGangAt gang { g.rewind with vcast := none }
              s1.takePath gang (!a.taken) a.other
          | none =>
            if g.hold != .vote then s
            else
              let pc := g.pcOf (g.parts.headD 0)
              let im := s.imemOf gang
              match (im.slotAt (slotOf pc)).st, decode g.kind (im.word pc) with
              | .landed, .ok (.cbr f) =>
                ((s.reportTaken gang v).setGangAt gang { g with vcast := none, hold := .no }).takePath gang r.2 (relTarget pc f.disp)
              | .fetching, _ => s.owe [.voteResultDelivery gang]
              | _, _ => s

end Sys2Proof.Machine
end

