-- ==== Sys2Proof/Machine/Collective.lean ====
section
/-! DEFINITION. Collectives and compositing (R209 to R211, R278 to R288): issue, the ring and the binary swap unit by unit, the
frames they travel in, and the completion at a member. -/

namespace Sys2Proof.Machine

/-! ## What an operation is (R209, R279, R282) -/

/-- COMP, from the opcode of its word. -/
def CollOp.comp (o : CollOp) : Bool := o.word.toNat / 2 ^ 56 == 0xD8

/-- MOD[12:8]: operation and schedule. -/
def CollOp.sub (o : CollOp) : Nat := o.word.toNat / 2 ^ 8 % 32

/-- COLL's operation: 0 ADD, 1 MAX, 2 MIN, 3 BCAST. -/
def CollOp.red (o : CollOp) : Nat := o.sub % 8

/-- COMP's mode, and GATHER. -/
def CollOp.mode (o : CollOp) : CompMode := CompMode.of (o.sub % 4)
def CollOp.gather (o : CollOp) : Bool := o.sub / 16 == 1

/-- Format of COLL elements. -/
def CollOp.elem (o : CollOp) : FFmt := if o.fmt = 2 then fmtBF16 else fmtF32

def CollOp.chans (o : CollOp) : List Chan := o.mode.chans o.fmt

/-- Fields of a unit's partial, and of a final unit. -/
def CollOp.partFields (o : CollOp) : Nat :=
  if o.comp then
    match o.mode with
    | .depth => 2 + 1 + 15 + 16 * 6
    | .alpha => 2 + 2 + 128
    | .count => 2 + 80
  else 2

def CollOp.finFields (o : CollOp) : Nat := if o.comp then 2 + 19 * o.chans.length else 1

/-- Chunk of a unit (R279). -/
def CollOp.chunk (o : CollOp) (u : Nat) : Nat := ((u + 1) * o.members - 1) / o.units

/-- The region of a rank before round k of the swap (R279, R281). -/
def regionOf (rank units : Nat) : Nat → Nat × Nat
  | 0 => (0, units)
  | k + 1 =>
    let r := regionOf rank units k
    let mid := r.1 + (r.2 - r.1) / 2
    if rank.testBit k then (mid, r.2) else (r.1, mid)

/-- Rounds of the swap. -/
def CollOp.rounds (o : CollOp) : Nat := o.members.log2

/-- The units a member ends with by merging. -/
def CollOp.share (o : CollOp) : List Nat :=
  if o.ring then (List.range o.units).filter fun u => o.chunk u == o.rank
  else
    let r := regionOf o.rank o.units o.rounds
    (List.range (r.2 - r.1)).map (r.1 + ·)

/-- Units a member needs before its destination is complete. -/
def CollOp.needed (o : CollOp) : Nat :=
  if o.comp && !(o.gather && o.rank == 0) then o.share.length else o.units

def CollOp.complete (o : CollOp) : Bool := o.needed ≤ o.fin.length

/-- No unit has still to pass through the member. -/
def CollOp.idle (o : CollOp) : Bool := o.cur.isEmpty && o.inbox.isEmpty

/-- A member that completes when the network has acknowledged what it sent (R300). -/
def CollOp.sends (o : CollOp) : Bool := o.comp && o.gather && o.rank != 0

/-! ## Partials (R283 to R285) -/

/-- COLL's own partial of an element. -/
def CollOp.ownElem (o : CollOp) (x : Nat) : List Nat :=
  if o.red = 0 then
    let r := toXf o.elem x
    [r.2.toNat, r.1]
  else [0, x]

/-- A colour channel as F32, and NV for a signalling NaN of F16 (R40, R255, R284). -/
def chanF32 (c : Chan) (x : Nat) : Nat × DWord :=
  match c with
  | .int _ => ((fmtF32.result .rn (quotient false x 255 0)).1, 0#64)
  | .f16 => fmtF32.convert .rn false (fmtF16.decode x)
  | .f32 => (x, 0#64)

/-- COMP's own partial of a tile: the flags, BAD, then what the mode carries. -/
def CollOp.ownTile (o : CollOp) (u : Nat) (t : Tile) : List Nat :=
  let cs := o.chans
  match o.mode with
  | .depth =>
    let z := List.replicate 5 0
    let pl := t.plane.getD (z, z, z)
    [0, boolNat t.bad, boolNat t.plane.isSome] ++ pl.1 ++ pl.2.1 ++ pl.2.2 ++ t.pixels.flatMap fun px => px ++ [o.rank]
  | .alpha =>
    let cv := t.pixels.flatMap fun px => px.map (chanF32 (cs.headD .f32))
    let px := cv.map (·.1)
    let fl := cv.foldl (fun m x => m ||| x.2) (0#64 : DWord)
    let z := List.replicate 64 0
    let back := o.ring && o.chunk u < o.rank
    [fl.toNat, boolNat t.bad, boolNat back, boolNat (!back)] ++ (if back then px ++ z else z ++ px)
  | .count =>
    let f := (cs.headD .f32).fmt.getD fmtF32
    let fl := t.pixels.foldl (fun m px => (px.take 4).foldl (fun m x => m ||| (toXf f x).2) m) (0#64 : DWord)
    [fl.toNat, boolNat t.bad] ++ t.pixels.flatMap fun px => (px.take 4).map (fun x => (toXf f x).1) ++ px.drop 4

/-- Consecutive groups of n. -/
def groupsOf (n : Nat) : Nat → List Nat → List (List Nat)
  | 0, _ => []
  | k + 1, l => l.take n :: groupsOf n k (l.drop n)

/-- The depth test of two pixels with their ranks: the first wins (R284). -/
def depthFirst (a b : List Nat) : Bool :=
  let x := fmtF32.decode (a.getD 4 0)
  let y := fmtF32.decode (b.getD 4 0)
  match x.isNan, y.isNan with
  | true, true => decide (a.getD 5 0 < b.getD 5 0)
  | true, false => false
  | false, true => true
  | false, false =>
    let c := x.cmp false y
    decide (c < 0) || (decide (c = 0) && decide (a.getD 5 0 < b.getD 5 0))

/-- Front over back of four F32 channels: an invalid operation or a signalling NaN sets NV, an overflow OF (R59, R284). -/
def overPixel (f b : List Nat) : List Nat × DWord :=
  let af := fmtF32.decode (f.getD 3 0)
  let one := sumVals false [.num false 1 0, af.negate]
  let rs := (List.range 4).map fun i =>
    let cf := fmtF32.decode (f.getD i 0)
    let cb := fmtF32.decode (b.getD i 0)
    let p := cb.mul one
    let nv := flagIf (!af.isNan && zeroTimesInf cb one) flagNV
    let r := fmtF32.arith .rn [af, cf, cb] (if p.isNan then p else sumVals false [cf, p])
    (r.1, (r.2 &&& (flagNV ||| flagOF)) ||| nv)
  (rs.map (·.1), rs.foldl (fun m r => m ||| r.2) 0#64)

/-- Overs of 16 pixels. -/
def overTile (f b : List Nat) : List Nat × DWord :=
  let rs := ((groupsOf 4 16 f).zip (groupsOf 4 16 b)).map fun p => overPixel p.1 p.2
  (rs.flatMap (·.1), rs.foldl (fun m r => m ||| r.2) 0#64)

/-- Overs where both sides are there. -/
def overParts (hf hb : Nat) (f b : List Nat) : Nat × List Nat × DWord :=
  match hf, hb with
  | 0, _ => (hb, b, 0#64)
  | _, 0 => (hf, f, 0#64)
  | _, _ =>
    let r := overTile f b
    (1, r.1, r.2)

/-- Two DEPTH partials, pixel by pixel. -/
def plusDepth (a b : List Nat) : List Nat :=
  let pa := groupsOf 6 16 (a.drop 18)
  let pb := groupsOf 6 16 (b.drop 18)
  let px := (pa.zip pb).map fun p => if depthFirst p.1 p.2 then p.1 else p.2
  let one := fun (l : List (List Nat)) => match l with
    | [] => none
    | x :: r => if r.all fun y => y.getD 5 0 == x.getD 5 0 then some (x.getD 5 0) else none
  let from_ := one px
  let hd :=
    if from_.isSome && one pa == from_ then a.drop 2 |>.take 16
    else if from_.isSome && one pb == from_ then b.drop 2 |>.take 16
    else List.replicate 16 0
  [a.getD 0 0, a.getD 1 0 ||| b.getD 1 0] ++ hd ++ px.flatten

/-- Two partials combined, the first operand first; `first`: a broadcast keeps it (R283, R284). -/
def CollOp.plus (o : CollOp) (a b : List Nat) (first : Bool) : List Nat :=
  let fl := a.getD 0 0 ||| b.getD 0 0
  if !o.comp then
    let x := a.getD 1 0
    let y := b.getD 1 0
    match o.red with
    | 0 => let r := xfAdd x y; [fl ||| r.2.toNat, r.1]
    | 1 => let r := o.elem.minMax true x y; [fl ||| r.2.toNat, r.1]
    | 2 => let r := o.elem.minMax false x y; [fl ||| r.2.toNat, r.1]
    | _ => [fl, if first then x else y]
  else
    let bad := a.getD 1 0 ||| b.getD 1 0
    match o.mode with
    | .depth => plusDepth a b
    | .alpha =>
      let back := overParts (a.getD 2 0) (b.getD 2 0) (a.drop 4 |>.take 64) (b.drop 4 |>.take 64)
      let front := overParts (a.getD 3 0) (b.getD 3 0) (a.drop 68) (b.drop 68)
      [fl ||| (back.2.2 ||| front.2.2).toNat, bad, back.1, front.1] ++ back.2.1 ++ front.2.1
    | .count =>
      let pairs := (groupsOf 5 16 (a.drop 2)).zip (groupsOf 5 16 (b.drop 2))
      let rs := pairs.map fun p =>
        let cs := (List.range 4).map fun i => xfAdd (p.1.getD i 0) (p.2.getD i 0)
        (cs.map (·.1) ++ [(p.1.getD 4 0 + p.2.getD 4 0) % 2 ^ 32], cs.foldl (fun m c => m ||| c.2) (0#64 : DWord))
      [fl ||| (rs.foldl (fun m r => m ||| r.2) (0#64 : DWord)).toNat, bad] ++ rs.flatMap (·.1)

/-- A channel's final conversion from F32: RGBA8 after clamping to [0, 1] and scaling by 255 (R255, R284). -/
def storeChan (c : Chan) (v : FVal) : Nat × DWord :=
  match c with
  | .f16 => fmtF16.convert .rn false v
  | .f32 => fmtF32.convert .rn false v
  | .int _ =>
    if v.isNan then (0, flagNV)
    else
      let w := if v.neg then FVal.num false 0 0
        else if decide (0 ≤ v.cmp false (.num false 1 0)) then FVal.num false 1 0 else v
      convertInt false 8 .rn true false (w.mul (.num false 255 0))

/-- The final unit and its flags (R283, R284). -/
def CollOp.finish (o : CollOp) (p : List Nat) : List Nat × DWord :=
  let fl := BitVec.ofNat 64 (p.getD 0 0)
  if !o.comp then
    if o.red = 0 then
      let r := o.elem.convert .rn false (fmtXF.decode (p.getD 1 0))
      ([r.1], fl ||| r.2)
    else ([p.getD 1 0], fl)
  else
    let cs := o.chans
    let c0 := cs.headD .f32
    let bad := p.getD 1 0
    let z := List.replicate (3 * cs.length) 0
    match o.mode with
    | .depth =>
      ([bad, p.getD 2 0] ++ (p.drop 3 |>.take 15) ++ (groupsOf 6 16 (p.drop 18)).flatMap fun px => px.take 5, fl)
    | .alpha =>
      let r := overParts (p.getD 3 0) (p.getD 2 0) (p.drop 68) (p.drop 4 |>.take 64)
      let cv := r.2.1.map fun x => storeChan c0 (fmtF32.decode x)
      ([bad, 0] ++ z ++ cv.map (·.1), fl ||| r.2.2 ||| cv.foldl (fun m c => m ||| c.2) 0#64)
    | .count =>
      let f := c0.fmt.getD fmtF32
      let px := (groupsOf 5 16 (p.drop 2)).map fun l =>
        let cv := (l.take 4).map fun x => f.convert .rn false (fmtXF.decode x)
        (cv.map (·.1) ++ l.drop 4, cv.foldl (fun m c => m ||| c.2) (0#64 : DWord))
      ([bad, 0] ++ z ++ px.flatMap (·.1), fl ||| px.foldl (fun m c => m ||| c.2) 0#64)

/-! ## The schedules, unit by unit (R280, R281) -/

/-- A unit on its way: 0 ring reduce, 1 ring share, 2 swap round, 3 swap reversed, 4 gather. -/
structure Hop where
  dest    : Nat
  phase : Nat
  round : Nat
  unit  : Nat
  vals  : List Nat
  deriving DecidableEq, Repr

/-- A final unit of a member's own merging, and where it goes from there. -/
def CollOp.final (o : CollOp) (u : Nat) (p : List Nat) : CollOp × List Hop :=
  let r := o.finish p
  let o' := { o with fin := KMap.set [] o.fin u r.1, flags := o.flags ||| r.2, cur := KMap.set [] o.cur u [] }
  let hops : List Hop :=
    if o.comp then
      if o.gather && o.rank != 0 then [{ dest := 0, phase := 4, round := 0, unit := u, vals := r.1 }] else []
    else if o.members = 1 then []
    else if o.ring then [{ dest := (o.rank + 1) % o.members, phase := 1, round := 0, unit := u, vals := r.1 }]
    else (List.range o.rounds).reverse.map fun j =>
      { dest := o.rank ^^^ 2 ^ j, phase := 3, round := j, unit := u, vals := r.1 }
  (o', hops)

/-- A unit that has passed k rounds of the swap: it goes to the partner, waits, or is final. Fuel: the rounds left. -/
def CollOp.swapOn (o : CollOp) (u k : Nat) (p : List Nat) : Nat → CollOp × List Hop
  | 0 => o.final u p
  | n + 1 =>
    let r := regionOf o.rank o.units (k + 1)
    if r.1 ≤ u && u < r.2 then
      match o.inbox.find? fun x => x.1 == u && x.2.1 == k with
      | some x =>
        let o := { o with inbox := o.inbox.filter fun y => !(y.1 == u && y.2.1 == k) }
        let q := if o.rank.testBit k then o.plus x.2.2 p true else o.plus p x.2.2 true
        o.swapOn u (k + 1) q n
      | none => ({ o with cur := KMap.set [] o.cur u p, rnd := KMap.set 0 o.rnd u k }, [])
    else ({ o with cur := KMap.set [] o.cur u [] }, [{ dest := o.rank ^^^ 2 ^ k, phase := 2, round := k, unit := u, vals := p }])

/-- A unit arrives. -/
def CollOp.take (o : CollOp) (h : Hop) : CollOp × List Hop :=
  match h.phase with
  | 0 =>
    let q := o.plus h.vals (KMap.get [] o.cur h.unit) (o.rank != 0)
    if o.chunk h.unit = o.rank then o.final h.unit q
    else
      ({ o with cur := KMap.set [] o.cur h.unit [] },
       [{ dest := (o.rank + 1) % o.members, phase := 0, round := 0, unit := h.unit, vals := q }])
  | 1 =>
    let nxt := (o.rank + 1) % o.members
    ({ o with fin := KMap.set [] o.fin h.unit h.vals }, if nxt = o.chunk h.unit then [] else [{ h with dest := nxt }])
  | 2 =>
    if KMap.get 0 o.rnd h.unit = h.round && KMap.get [] o.cur h.unit ≠ [] then
      let p := KMap.get [] o.cur h.unit
      let q := if o.rank.testBit h.round then o.plus h.vals p true else o.plus p h.vals true
      o.swapOn h.unit (h.round + 1) q (o.rounds - (h.round + 1))
    else ({ o with inbox := o.inbox ++ [(h.unit, h.round, h.vals)] }, [])
  | 3 =>
    ({ o with fin := KMap.set [] o.fin h.unit h.vals },
     (List.range h.round).reverse.map fun j => { h with dest := o.rank ^^^ 2 ^ j, round := j })
  | _ => ({ o with fin := KMap.set [] o.fin h.unit h.vals }, [])

/-- The member's own data starts on its way. -/
def CollOp.begin (o : CollOp) (own : Nat → List Nat) : CollOp × List Hop :=
  (List.range o.units).foldl (fun (a : CollOp × List Hop) u =>
    let o := a.1
    let r :=
      if o.members = 1 then o.final u (own u)
      else if o.ring then
        if o.chunk u = (o.rank + o.members - 1) % o.members then
          (o, [({ dest := (o.rank + 1) % o.members, phase := 0, round := 0, unit := u, vals := own u } : Hop)])
        else ({ o with cur := KMap.set [] o.cur u (own u) }, [])
      else o.swapOn u 0 (own u) o.rounds
    (r.1, a.2 ++ r.2)) (o, [])

/-- Several units arrive. -/
def CollOp.takeAll (o : CollOp) (l : List Hop) : CollOp × List Hop :=
  l.foldl (fun (a : CollOp × List Hop) h =>
    let r := a.1.take h
    (r.1, a.2 ++ r.2)) (o, [])

/-! ## Frames (R287; log entry 23, DESIGN CHOICE) -/

/-- What members compare: operation, schedule, format, opcode (R211). -/
def CollOp.summary (o : CollOp) : Nat := o.sub + boolNat o.comp * 32 + o.fmt % 32 * 256

/-- The frame carries a partial; a final unit otherwise. -/
def partPhase (phase : Nat) : Bool := phase == 0 || phase == 2

/-- Bytes of the values of a unit in flight: partial sums and the flags with them in 40-bit fields, elements of COLL in their format
otherwise (R283). -/
def CollOp.widths (o : CollOp) (phase : Nat) : List Nat :=
  let e := if o.fmt = 2 then 2 else 4
  if o.comp then List.replicate (if partPhase phase then o.partFields else o.finFields) 5
  else if partPhase phase then [5, if o.red = 0 then 5 else e] else [e]

/-- Fields of some widths as bytes, and back. -/
def joinFields (ws vals : List Nat) : List Byte := (ws.zip vals).flatMap fun p => leBytes p.1 p.2
def splitFields : List Nat → List Byte → List Nat
  | [], _ => []
  | w :: r, b => leNat (b.take w) :: splitFields r (b.drop w)

/-- One frame for one unit: the byte count, then the unit's fields, in whole beats. -/
def hopFrame (s : State) (gk : Nat) (o : CollOp) (h : Hop) : Frame :=
  let b := leBytes 8 o.bytes ++ joinFields (o.widths h.phase) h.vals
  { groupFrame (if o.comp then 9 else 8) s.modn (s.rankMod gk h.dest) gk o.num (h.unit % 2 ^ 32 + h.phase * 2 ^ 32 + h.round * 2 ^ 36)
      (o.rank + h.dest * 2 ^ 16 + o.summary * 2 ^ 32) with
    sdie := dieOf (s.teamAt o.team).core, ddie := s.rankDie gk h.dest, len := beatsOf b, body := padBeats b }

/-- A unit of a frame. -/
def frameHop (o : CollOp) (f : Frame) : Hop :=
  let phase := frameWord f / 2 ^ 32 % 16
  { dest := frameExtra f / 2 ^ 16 % 2 ^ 16, phase := phase, round := frameWord f / 2 ^ 36 % 2 ^ 10, unit := frameWord f % 2 ^ 32
    vals := splitFields (o.widths phase) (f.body.drop 8) }

/-- A frame's summary is the operation's own. -/
def CollOp.agrees (o : CollOp) (f : Frame) : Bool :=
  frameExtra f / 2 ^ 32 % 2 ^ 16 == o.summary && leNat (f.body.take 8) == o.bytes

/-- Key of a member's operation in its group. -/
def opKey (num rank : Nat) : Nat := 512 * num + rank

/-- Units go to their members. -/
def State.sendHops (s : State) (gk : Nat) (o : CollOp) (l : List Hop) : State :=
  l.foldl (fun s h => s.sendFrame (hopFrame s gk o h)) s

/-- Frames of a member's operation whose acknowledgements have not come (R300). -/
def State.unacked (s : State) (gk : Nat) (o : CollOp) : Bool :=
  s.net.any fun p => (p.1.cls == 8 || p.1.cls == 9) && frameGkey p.1 == gk && frameNum p.1 == o.num && frameExtra p.1 % 2 ^ 16 == o.rank

/-- What a member waits for before the event of R210 step 5: its last unit; where it only sends, that all it had to send has been
acknowledged (R300). -/
def State.opDone (s : State) (gk : Nat) (o : CollOp) : Bool :=
  !o.passed && o.complete && (!o.sends || (o.idle && !s.unacked gk o))

/-- An operation after units have moved: one that has completed is forgotten when nothing passes through it any more. -/
def State.putOp (s : State) (gk : Nat) (was : Bool) (r : CollOp × List Hop) : State :=
  let g := s.groupAt gk
  let o := r.1
  let s := s.setGroupAt gk { g with ops := KMap.set none g.ops (opKey o.num o.rank) (if o.passed && o.idle then none else some o) }
  let s := s.sendHops gk o r.2
  if s.opDone gk o && !was then s.owe [.collComplete o.team gk o.num] else s

/-- Where a partial is staged in the member's staging area, when the launch names one: in one of its pages, which the spec leaves open
(R288; log entry 112, DESIGN CHOICE). -/
def State.stagePage (s : State) (team : Nat) : Option (Xl × Nat) × State :=
  let l := s.launchOf team
  if l.stage = 0 then (none, s)
  else
    let t := s.teamAt team
    let qk := (s.cohortAt t.cohort).queue
    let i := (s.cohortAt t.cohort).cohid.toNat * (s.shape qk l l.rcls).teams + t.teamid
    let a := l.stage + l.stgsz * i
    let n := (a % 131072 + l.stgsz + 131071) / 131072
    if n ≤ 1 then (some (s.xlQueue qk, a), s)
    else
      let p := s.freePick n
      (some (s.xlQueue qk, if p.1 = 0 then a else (a / 131072 + p.1) * 131072), p.2)

/-- The park buffer of a frame's die has no room for it (R288). -/
def State.parkFull (s : State) (f : Frame) : Bool :=
  decide (1048576 < ((s.parked.filter fun p => p.ddie == f.ddie).map fun p => 32 + 64 * p.len).sum + 32 + 64 * f.len)

/-- A frame that is refused: its sender, on another module or on this one, sends it again (R288). -/
def State.retryFrame (s : State) (f : Frame) : State :=
  if f.psn = 0 then s.owe (frameEvent f) else { s with away := s.away ++ [.retry f.srcm f.psn] }

/-- A unit that an operation's member has received is merged, once; a summary that differs breaks the group (R211, R287). -/
def State.mergeFrame (s : State) (gk : Nat) (o : CollOp) (f : Frame) : State :=
  if o.agrees f then s.putOp gk (s.opDone gk o) (o.take (frameHop o f)) else s.breakGroup gk []

/-- FRAME_COLLECTIVE_DATA and FRAME_IMAGE_TILES: merged once; kept while the member has not started; parked while its
staging page is fetched, or refused with a retry response when the park buffer is full (R287, R288). -/
def State.takeFrame (s : State) (f : Frame) : State :=
  let gk := frameGkey f
  let g := s.groupAt gk
  let dest := frameExtra f / 2 ^ 16 % 2 ^ 16
  let s := { s with parked := s.parked.filter (· != f) }
  if g.broken || g.members.isEmpty || (KMap.get [] s.pseen f.srcm).contains f.psn then s.receive f fun _ s => s
  else
    match KMap.get none g.ops (opKey (frameNum f) dest) with
    | none => s.receive f fun f s => s.setGroupAt gk { g with early := g.early ++ [f] }
    | some o =>
      match s.stagePage o.team with
      | (none, s) => s.receive f fun f s => s.mergeFrame gk o f
      | (some (x, a), s) =>
        match (s.lookup x a).1 with
        | .absent =>
          if s.parkFull f then s.retryFrame f
          else s.receive f fun f s => { s with parked := s.parked ++ [f] }.engineFault
            ((o.gangs.head?.map fun (q : Nat × Nat) => q.1).getD 0) x.queue (BitVec.ofNat 72 a) 3
            (if f.cls = 9 then .frameImageTiles f else .frameCollectiveData f)
        | .unmapped => s.receive f fun _ s => s.breakGroup gk []
        | _ => s.receive f fun f s => s.mergeFrame gk o f

def execFrameCollectiveData (f : Frame) (s : State) : Res := .next (s.takeFrame f)
def execFrameImageTiles (f : Frame) (s : State) : Res := .next (s.takeFrame f)

/-! ## Issue (R209, R210) -/

/-- n is a power of two. -/
def isPow2 (n : Nat) : Bool := n == 2 ^ n.log2

/-- The lowest reason of COLL's descriptors: source, then destination. -/
def State.collReason (s : State) (f : ClassE) (a b : TileDesc) : Option (Nat × Nat) :=
  let x := s.tdFs a
  let y := s.tdFs b
  let ok := fun (x : FSlot) => !x.isZb && (x.fmt == 0 || x.fmt == 2)
  match descReason x a { fmtOk := ok x },
    descReason y b { fmtOk := ok y && tdSlot a == tdSlot b, shape := tdRows a ≠ tdRows b || tdCols a ≠ tdCols b } with
  | some r, _ => some (f.ta.toNat, r)
  | none, some r => some (f.tb.toNat, r)
  | none, none => none

/-- The same for COMP (R284, R285). -/
def State.compReason (s : State) (f : ClassE) (m : CompMode) (a b : TileDesc) : Option (Nat × Nat) :=
  let x := s.tdFs a
  let y := s.tdFs b
  let ok := fun (x : FSlot) (d : TileDesc) =>
    !x.isZb && (x.fmt == 0 || x.fmt == 1 || (x.fmt == 6 && m != .count)) && tdSv d
  let p := fun (x : FSlot) => pixelBytes (m.chans x.fmt)
  let shape := fun (x : FSlot) (d : TileDesc) =>
    let t := tdRows d * tdCols d / 16
    decide (tdRows d % 4 ≠ 0 || tdCols d % 4 ≠ 0 || 16384 < tdRows d || 16384 < tdCols d || tdStride d < 4 * t + t * (4 + 16 * p x))
  match descReason x a { fmtOk := ok x a, shape := shape x a },
    descReason y b { fmtOk := ok y b && tdSlot a == tdSlot b, shape := shape y b || tdRows a ≠ tdRows b || tdCols a ≠ tdCols b } with
  | some r, _ => some (f.ta.toNat, r)
  | none, some r => some (f.tb.toNat, r)
  | none, none => none

/-- An image as ranges: directory and tiles, then the base-value table (R285). -/
def imageRanges (p : Nat) (d : TileDesc) : List (Nat × Nat) :=
  [((tdBase d).toNat, tdStride d), ((tdScale d).toNat, tdRows d / 4 * (tdCols d / 4) * p)]

/-- The ranges of an operation: source read, destination written, barrier. -/
def collRanges (comp : Bool) (m : CompMode) (x : FSlot) (a b : TileDesc) (bar : Option VAddr) : List Range :=
  let p := pixelBytes (m.chans x.fmt)
  let src := if comp then imageRanges p a else tileRows x a
  let dst := if comp then imageRanges p b else tileRows x b
  src.map (asRange (tdSp a) { r := true } false) ++ dst.map (asRange (tdSp b) { w := true } (!tdInC b)) ++ barRange bar

/-- A G destination spreads over two swing buffers. -/
def State.collApart (s : State) (comp : Bool) (m : CompMode) (x : FSlot) (b : TileDesc) : Bool :=
  !tdInC b &&
    (let xl := s.xlOf s.gang.team
     let b0 := xl.swingOf (tdBase b).toNat
     let rs := if comp then imageRanges (pixelBytes (m.chans x.fmt)) b else tileRows x b
     rs.any fun r => xl.swingOf r.1 != b0)

/-- The ring, or the binary swap (R282). -/
def collRing (f : ClassE) (comp : Bool) (n bytes : Nat) : Bool :=
  if comp then f.mod.getLsbD 11
  else
    match f.bits 2 11 with
    | 0 => !(isPow2 n && bytes ≤ 1048576)
    | 1 => true
    | _ => false

/-- The team's operation is issued by one more gang (R210). -/
def State.collJoin (s : State) (gk slot : Nat) (word : DWord) (a b : TileDesc) (bar : Option VAddr) (bytes : Nat) : State :=
  let g := s.gang
  let t := s.team
  let num := (KMap.get 0#16 g.ocnt slot).toNat
  let id := s.nextId
  let mine := fun (c : CollIssue) => c.grp == gk && c.num == num
  let go := fun (s : State) (l : List CollIssue) =>
    let s := ({ s with nextId := id + 1 }).setTeam { s.team with colls := l }
    let g := s.gang
    let s := s.setGang { g with nets := g.nets ++ [id], ocnt := KMap.set 0#16 g.ocnt slot (BitVec.ofNat 16 (num + 1)) }
    s.done (s.collTry s.gang.team)
  match t.colls.find? mine with
  | none =>
    let c : CollIssue := { grp := gk, num := num, word := word, src := a, dst := b, bar := bar, gangs := [(s.gk, id)] }
    let s := s.barPend s.gk bar bytes
    go s (s.team.colls ++ [c])
  | some c =>
    if c.word != word || c.src != a || c.dst != b || c.bar != bar then s.trap 15 (BitVec.ofNat 64 (gk % 256))
    else go s (t.colls.map fun c => if mine c then { c with gangs := c.gangs ++ [(s.gk, id)] } else c)

/-- COLL and COMP. -/
def State.collOp (s : State) (f : ClassE) (comp : Bool) (word : DWord) : State :=
  let g := s.gang
  let a := g.tdAt f.ta.toNat
  let b := g.tdAt f.tb.toNat
  let x := s.tdFs a
  let y := s.tdFs b
  let m := CompMode.of (f.bits 2 8)
  let grp := f.bits 8 0
  let bad8 := x.badTile false || y.badTile false
  match s.groupGate f.h [] bad8 false with
  | some s' => s'
  | none =>
    match s.engineGate with
    | some s' => s'
    | none =>
      match s.team.grpSlot grp with
      | none => s.trap 15 (BitVec.ofNat 64 grp)
      | some slot =>
        let gk := s.groupKey g.team grp
        let n := (s.groupAt gk).members.length
        if (s.groupAt gk).broken then s.trap 16 (BitVec.ofNat 64 grp)
        else
          match (if comp then s.compReason f m a b else s.collReason f a b) with
          | some (d, r) => s.descTrap d r
          | none =>
            let bar := g.barOf f
            match s.rangeTrap g (collRanges comp m x a b bar) with
            | some (c, v) => s.rangeRaise c v
            | none =>
              if s.collApart comp m x b then s.rangeRaise 20 (tdBase b)
              else
                let bytes := if comp then tdStride b else tdRows a * rowBytes x a
                if 512 < n || n = 0 || (!collRing f comp n bytes && !isPow2 n) then s.trap 15 (BitVec.ofNat 64 grp)
                else if s.accWaits || g.loadsOut || 4095 ≤ g.nets.length then s
                else s.collJoin gk slot word a b bar bytes

def execColl (f : ClassE) (s : State) : Res := .next (s.collOp f false (wordOf (.coll f)))
def execComp (f : ClassE) (s : State) : Res := .next (s.collOp f true (wordOf (.comp f)))

/-! ## Start and completion at a member (R210, R285, R286) -/

/-- Element u of a COLL source. -/
def collElem (x : FSlot) (d : TileDesc) (l : List (Nat × List Byte)) (u : Nat) : Nat := tilePat x d l (u / tdCols d) (u % tdCols d)

/-- Tile u of an image: the identity where it counts as invalid (R285). -/
def imageTile (m : CompMode) (fmt : Nat) (d : TileDesc) (l : List (Nat × List Byte)) (u : Nat) : Tile :=
  let cs := m.chans fmt
  let p := pixelBytes cs
  let base := (tdBase d).toNat
  let ent := pieceNat l (base + 4 * u) 4
  let off := ent % 2 ^ 31
  let across := tdCols d / 4
  if ent = 0xFFFFFFFF || off % 4 ≠ 0 || tdStride d < off + 4 then identityTile m
  else
    let h := pieceNat l (base + off) 4
    let len := h / 4 % 2 ^ 14
    let bi := h / 2 ^ 16
    let bp := splitPixel cs (pieceNat l ((tdScale d).toNat + u / across * across * p + bi * p) p)
    if tdStride d < off + 4 + len || across ≤ bi then identityTile m
    else (decodeTile cs (h % 4) len (pieceNat l (base + off + 4) len) (some bp) bi).getD (identityTile m)

/-- The operation a team starts. -/
def State.newOp (s : State) (team gk rank : Nat) (c : CollIssue) : CollOp :=
  let l := s.launchOf team
  let x := fslot (l.fs.getD (tdSlot c.src).toNat 0#32)
  let o : CollOp :=
    { rank := rank, num := c.num, team := team, word := c.word, src := c.src, dst := c.dst, bar := c.bar, gangs := c.gangs
      members := (s.groupAt gk).members.length, ring := true, units := 0, fmt := x.fmt }
  let bytes := if o.comp then tdStride c.dst else tdRows c.src * rowBytes x c.src
  let units := if o.comp then tdRows c.src * tdCols c.src / 16 else tdRows c.src * tdCols c.src
  let sched := o.sub / 8 % 4
  let ring :=
    if o.comp then sched % 2 == 1
    else if sched = 0 then !(isPow2 o.members && bytes ≤ 1048576) else sched == 1
  { o with bytes := bytes, units := units, ring := ring }

/-- Bytes of a held tile's header, and of its payload, with its base value. -/
def imageBytes (o : CollOp) (u : Nat) (v : List Nat) : Nat × List Nat × List Byte :=
  let cs := o.chans
  let n := cs.length
  let pl := if v.getD 1 0 = 1 then some (v.drop 2 |>.take n, v.drop (2 + n) |>.take n, v.drop (2 + 2 * n) |>.take n) else none
  let t : Tile := { bad := v.getD 0 0 = 1, plane := pl, pixels := groupsOf n 16 (v.drop (2 + 3 * n)) }
  let e := encodeTile cs o.mode t
  let tx := u % (tdCols o.dst / 4)
  let h := e.1 + e.2.2.length * 4 + (if e.1 = 0 then 0 else tx) * 2 ^ 16
  (boolNat t.bad, e.2.1, leBytes 4 h ++ e.2.2)

/-- What a destination receives: writes by address (R286). -/
def CollOp.writes (o : CollOp) : List (Nat × List Byte) :=
  let d := o.dst
  let base := (tdBase d).toNat
  if o.comp then
    if o.gather && o.rank != 0 then []
    else
      let p := pixelBytes o.chans
      let across := tdCols d / 4
      let held := o.fin.map fun q => (q.1, imageBytes o q.1 q.2)
      let placed := held.foldl (fun (a : List (Nat × Nat) × Nat) q => (a.1 ++ [(q.1, a.2)], a.2 + q.2.2.2.length)) ([], 4 * o.units)
      let dir := (List.range o.units).flatMap fun u =>
        match held.find? (fun q => q.1 == u), placed.1.find? (fun q => q.1 == u) with
        | some q, some a => leBytes 4 (a.2 + q.2.1 * 2 ^ 31)
        | _, _ => leBytes 4 0xFFFFFFFF
      let bases := held.filterMap fun q => if q.2.2.1.isEmpty then none
        else some ((tdScale d).toNat + (q.1 / across * across + q.1 % across) * p, leBytes p (joinPixel o.chans q.2.2.1))
      units16 base (dir ++ held.flatMap fun q => q.2.2.2) ++ bases.flatMap fun (q : Nat × List Byte) => units16 q.1 q.2
  else
    let n := if o.fmt = 2 then 2 else 4
    (List.range (tdRows d)).flatMap fun i =>
      units16 ((base + i * tdStride d) % 2 ^ 72)
        ((List.range (tdCols d)).flatMap fun j => leBytes n ((KMap.get [] o.fin (tdCols d * i + j)).headD 0))

/-- The destination has landed: PEND moves to ARR, the flags reach every issuing gang, and their net counts end. -/
def State.collDone (s : State) (gk : Nat) (o : CollOp) : State :=
  let g := s.groupAt gk
  let s := s.setGroupAt gk { g with
    ops := KMap.set none g.ops (opKey o.num o.rank) (if o.idle then none else some { o with passed := true }) }
  let t := s.teamAt o.team
  let s := s.setTeamAt o.team { t with colls := t.colls.filter fun c => !(c.grp == gk && c.num == o.num) }
  let s := match o.gangs with
    | [] => s
    | p :: _ => s.barArrive p.1 o.bar o.bytes
  o.gangs.foldl (fun s p =>
    let g := s.gangAt p.1
    (s.setGangAt p.1 { g with
      nets := g.nets.filter (· != p.2), r := { g.r with mstat := g.r.mstat ||| o.flags } }).endCheck p.1) s

/-- The member's contribution starts: its sources are read, and units that came before it are taken. -/
def State.collStart (s : State) (team gk rank : Nat) (c : CollIssue) : State :=
  let o := s.newOp team gk rank c
  let k := (c.gangs.head?.map (·.1)).getD 0
  let id := (c.gangs.head?.map (·.2)).getD 0
  let qk := (s.cohortAt (s.teamAt team).cohort).queue
  let x := fslot ((s.launchOf team).fs.getD (tdSlot c.src).toNat 0#32)
  let go : Instr := .collComplete team gk c.num
  match s.gather k (tdSp c.src) id go (if o.comp then imageRanges (pixelBytes o.chans) c.src else tileRows x c.src) with
  | .absent va => s.engineFault k qk va 0 go
  | .bad _ => s.breakGroup gk []
  | .wait s => s
  | .ok l s =>
    let own := fun u =>
      if o.comp then o.ownTile u (imageTile o.mode o.fmt c.src l u) else o.ownElem (collElem x c.src l u)
    let g := s.groupAt gk
    let mine := g.early.filter fun f => frameNum f == o.num && frameExtra f / 2 ^ 16 % 2 ^ 16 == rank
    let s := s.setGroupAt gk { g with early := g.early.filter fun f => !mine.contains f }
    if mine.all o.agrees then
      let b := o.begin own
      let r := b.1.takeAll (mine.map (frameHop o))
      s.putOp gk false (r.1, b.2 ++ r.2)
    else s.breakGroup gk []

/-- COLL_COMPLETE: the member's operation starts, and when its destination has its last unit it lands and completes
(R210, R342, R419). -/
def execCollComplete (team grp op : Nat) (s : State) : Res :=
  let t := s.teamAt team
  let g := s.groupAt grp
  .next <|
    match t.colls.find? (fun c => c.grp == grp && c.num == op && c.started), s.rankOf team g with
    | some c, some rank =>
      if g.broken then s
      else
        match KMap.get none g.ops (opKey op rank) with
        | none => s.collStart team grp rank c
        | some o =>
          if !s.opDone grp o then s
          else
            let k := (o.gangs.head?.map (·.1)).getD 0
            match s.engineWriteAll k (tdSp o.dst) o.writes with
            | .absent va => s.engineFault k (s.cohortAt t.cohort).queue va 1 (.collComplete team grp op)
            | .bad _ => s.breakGroup grp []
            | .locked => s.owe [.collComplete team grp op]
            | .ok s => s.collDone grp o
    | _, _ => s

end Sys2Proof.Machine
end

