-- ==== Sys2Proof/Machine/Fabric.lean ====
section
/-! DEFINITION. Frames between modules (R211, R271 to R277, R338): remote reads, writes and atomics at their destination and
their answers, work records and slot updates, acknowledgements, the retransmission timer, and the loss of a peer. -/

namespace Sys2Proof.Machine

/-- A team stops because an address cannot be provided: TCAUSE 20, TINFO the address (R338, R344). -/
def State.stopFault (s : State) (team : Nat) (va : VAddr) : State :=
  let s := (s.teamAt team).gangs.foldl (fun s k =>
    let g := s.gangAt k
    let pc := match g.liveSlices with
      | n :: _ => (g.sliceAt n).pc
      | [] => 0#18
    s.setGangAt k (g.record { cause := 20, lanes := 0#32, info := va.setWidth 64, pc := pc })) s
  s.stopTeam team ((s.gangAt ((s.teamAt team).gangs.headD 0)).tcause)

/-! ## The destination of a remote access (R273, R338; log entry 23, DESIGN CHOICE) -/

/-- The context number an access frame names. -/
def frameCtx (f : Frame) : Nat :=
  match f.cls with
  | 2 => f.aux / 2 ^ 64 % 2 ^ 16
  | 4 => leNat (f.body.take 2)
  | _ => f.aux % 2 ^ 16

/-- The lowest bound queue whose block has this context number. -/
def State.queueWith (s : State) (ctxn : Nat) : Option Nat :=
  (s.queues.find? fun p => p.2.bound && p.2.ctx.ctxn == ctxn).map (·.1)

/-- The answer to an access frame. -/
def State.respond (s : State) (f : Frame) (cls die aux : Nat) (body : List Byte) : State :=
  s.sendFrame { f with
    cls := cls, srcm := s.modn, dstm := f.srcm, sdie := die, ddie := f.sdie, len := beatsOf body, aux := aux, body := padBeats body }

/-- The refusal of an access: AUX bit 0. Poisoned data has AUX bit 4. -/
def State.refuse (s : State) (f : Frame) (cls : Nat) : State := s.respond f cls f.ddie 1 []

/-- The answer with data, each part in whole beats: the bytes, where partition 7 of the reader takes it the line that holds them (AUX bit 5),
and the releases that were read (AUX [15:8]: how many; [47:32]: context; [63:48]: bytes of data). -/
def State.respondWith (s : State) (f : Frame) (cls die : Nat) (data : List Byte) (line : Option (List Byte)) (ts : List Tag) : State :=
  s.respond f cls die
    ((if line.isSome then 32 else 0) + ts.length % 256 * 2 ^ 8 + frameCtx f % 2 ^ 16 * 2 ^ 32 + data.length % 2 ^ 16 * 2 ^ 48)
    (padBeats data ++ line.getD [] ++ ts.flatMap Tag.wire)

/-- Where an access frame lands in window 0 of its context: the physical address and its leaf, or what comes of it otherwise. It waits for
a held atomic that locks its bytes (R110). -/
def State.landFrame (s : State) (f : Frame) (nd : Need) (cls : Nat) (go : Instr) (span : Nat → List Nat)
    (act : State → Nat → DWord → State) : State :=
  match s.queueWith (frameCtx f) with
  | none => s.refuse f cls
  | some k =>
    let va := BitVec.ofNat 72 (f.addr % 2 ^ 64)
    let c := s.checkG { s.xlQueue k with hlimit := 0, wmax := 0 } nd va
    match c.1 with
    | .ok (.mem pa leaf) => if c.2.lockedPas (span pa) then c.2.owe [go] else act c.2 pa leaf
    | .absent => c.2.engineFault 0 k va ((if nd.w then 1 else 0) + (if nd.w && nd.r then 2 else 0)) go
    | _ => c.2.refuse f cls

/-- The release that a frame's write is: its last beat. -/
def frameTag (f : Frame) : List Tag :=
  if f.ord = 2 || f.ord = 3 then [tagOfWire (f.body.drop (f.body.length - 64))] else []

/-- The line of a read, where partition 7 of the reader's die takes it: the leaf names it, and the policy under CH fills (R155, R248). -/
def State.lineFor (s : State) (f : Frame) (pa : Nat) (leaf : DWord) : Option (List Byte) :=
  let ch := f.aux / 2 ^ 24 % 4
  if entPart leaf = 7 && (if ch = 0 then entPol leaf else ch) != 3 then
    some ((List.range 128).map fun i => s.byteHome (pa / 128 * 128 + i))
  else none

def execFrameRead (f : Frame) (s : State) : Res :=
  let n := f.aux / 2 ^ 16 % 128
  let span := fun (pa : Nat) => (List.range n).map (pa + ·)
  .next (s.receive f fun f s => s.landFrame f { r := true } 1 (.frameRead f) span fun s pa leaf =>
    let d := homeDie pa
    if s.portDown pa then (s.owe [.uncorrectableErrorConsumed 0 (.frame pa)]).respond f 1 d 16 []
    else
      let l := Loc.mem pa leaf
      let s := s.p7Pick d n [Acc.mk 32 (BitVec.ofNat 72 f.addr) l] fun s => s.byteHome
      let old := (List.range n).any fun i => (s.p7Byte d l i).any fun b => b != s.byteHome (pa + i)
      s.respondWith f 1 d ((List.range n).map fun i => (s.p7Byte d l i).getD (s.byteHome (pa + i))) (s.lineFor f pa leaf)
        (if old then [] else s.tagsHome (span pa)))

/-- The bytes that a write frame's mask names, by physical address. -/
def frameBytesAt (f : Frame) (pa : Nat) : List (Nat × Byte) :=
  (List.range 64).filterMap fun i => if (f.aux % 2 ^ 64).testBit i then some (pa / 64 * 64 + i, f.body.getD i 0#8) else none

def execFrameWrite (f : Frame) (s : State) : Res :=
  .next (s.receive f fun f s => s.landFrame f { w := true } 3 (.frameWrite f) (fun pa => (frameBytesAt f pa).map (·.1)) fun s pa _ =>
    ((s.logDown [pa]).writeNow (homeDie pa) (frameBytesAt f pa) (frameTag f)).respond f 3 (homeDie pa) 0 [])

/-- The operands of an atomic frame's lanes, lowest lane first. -/
def frameOps (f : Frame) : List (Nat × Nat) :=
  (f.aux % 2 ^ 64, f.aux / 2 ^ 64) :: (List.range (leNat ((f.body.drop 3).take 1) - 1)).map fun i =>
    (leNat ((f.body.drop (8 + 16 * i)).take 8), leNat ((f.body.drop (16 + 16 * i)).take 8))

/-- The atomics of a frame, one after another in one instant at their home (R166, R221): the old values, and the state after them. -/
def State.atomFrame (s : State) (code n pa : Nat) (tags : List Tag) : List (Nat × Nat) → List Nat × State
  | [] => ([], s)
  | o :: r =>
    let old := s.homeNat pa n
    let v := atomNew code (8 * n) old o.1 o.2
    let q := (s.writeNow (homeDie pa) (((List.range n).map (pa + ·)).zip (leBytes n v.1)) tags).atomFrame code n pa tags r
    (old :: q.1, q.2)

def execFrameAtomic (f : Frame) (s : State) : Res :=
  let w := leNat (f.body.take 3)
  let n := w / 2 ^ 20 % 16
  let span := fun (pa : Nat) => (List.range n).map (pa + ·)
  .next (s.receive f fun f s => s.landFrame f { r := true, w := true } 5 (.frameAtomic f) span fun s pa _ =>
    let d := homeDie pa
    if s.portDown pa then (s.owe [.uncorrectableErrorConsumed 0 (.frame pa)]).respond f 5 d 16 []
    else
      let ts := s.tagsHome (span pa)
      let r := (s.homeRead d (span pa)).atomFrame (w / 2 ^ 16 % 16) n pa (frameTag f ++ ts).eraseDups (frameOps f)
      r.2.respondWith f 5 d (r.1.flatMap (leBytes 8)) none ts)

/-! ## Answers (R273, R338) -/

/-- The gang whose load awaits a tag. -/
def State.awaits (s : State) (tag : Nat) : Option (Nat × PendLoad) :=
  s.gangs.findSome? fun x => (x.2.loads.find? fun p => p.await.any fun a => a.1 == tag).map fun p => (x.1, p)

/-- The parts of a response: the bytes, the line, the releases that were read. -/
def frameData (f : Frame) : List Byte := f.body.take (f.aux / 2 ^ 48 % 2 ^ 16)
def frameLine (f : Frame) : List Byte := (f.body.drop (64 * beatsOf (frameData f))).take 128
def frameTags (f : Frame) : List Tag :=
  let n := f.aux / 2 ^ 8 % 256
  (List.range n).map fun i => tagOfWire (f.body.drop (f.body.length - 64 * (n - i)) |>.take 64)

/-- The releases that a response carries are checked or remembered by the gang that reads them (R227). -/
def State.readRelease (s : State) (f : Frame) : State :=
  let ts := frameTags f
  if ts.isEmpty then s
  else
    match s.awaits f.tag with
    | some (k, p) =>
      let g := s.gangAt k
      if p.probe && !p.words.isEmpty then
        let ws := (p.await.filter fun a => a.1 == f.tag).map fun a => p.words.getD a.2 0
        s.setGangAt k { g with farTags := ws.foldl (fun m w => KMap.set [] m w ts) g.farTags }
      else if p.probe then s.setGangAt k { g with ptags := g.ptags ++ ts }
      else s.syncTags k f.scp f.ord ts
    | none => s

/-- A line of another module joins partition 7 of the die that read it (R246 to R248). -/
def State.takeLine (s : State) (f : Frame) : State :=
  if f.aux / 2 ^ 5 % 2 = 1 && s.p7Room f.ddie f.addr then
    s.putP7 f.ddie (farName f.srcm (f.aux / 2 ^ 32 % 2 ^ 16) (f.addr / 128 * 128)) fun i => (frameLine f).getD i 0#8
  else s

/-- The gang for which a tag is out: that of a load, of an engine's read, or of a copy's. -/
def State.askerOf (s : State) (tag : Nat) : Option Nat :=
  match s.awaits tag, s.copies.find? (fun c => c.wait == some tag) with
  | some x, _ => some x.1
  | none, some c => some c.gang
  | none, none =>
    (s.fetches.find? fun p => match p.2 with
      | some f => f.tags.any fun t => t.1 == tag
      | none => false).bind fun p =>
        (s.gangs.find? fun g => g.2.nets.contains p.1 || g.2.engs.contains p.1 || g.2.meshes.contains p.1).map (·.1) |>.or
          ((s.mx.findSome? fun m => if m.2.ops.any fun o => o.id == p.1 then m.2.prog else none))

/-- The team for which an access was refused stops (R338). -/
def State.refused (s : State) (gk addr : Nat) : State :=
  let g := s.gangAt gk
  if g.ended then s else s.stopFault g.team (BitVec.ofNat 72 addr)

/-- A read response: a load takes its value, an engine's read its piece, a copy its unit. -/
def State.takeResponse (s : State) (f : Frame) : State :=
  if f.aux % 2 = 1 then
    match s.askerOf f.tag with
    | some k => s.refused k f.addr
    | none => s
  else if f.aux / 16 % 2 = 1 then
    match s.askerOf f.tag with
    | some k => s.dataKill (s.ownerCohort (s.gangAt k).team) (96 * homeDie f.addr, 6, f.addr)
    | none => s
  else
    let s := (((s.takeLine f).readRelease f).answer f.tag (frameData f)).answerFetch f.tag (frameData f)
    match s.copies.find? fun c => c.wait == some f.tag with
    | some c => s.landUnit c ((frameData f).take c.unit.2.2)
    | none => s

def execFrameReadResponse (f : Frame) (s : State) : Res := .next (s.receive f fun f s => s.takeResponse f)
def execFrameAtomicResponse (f : Frame) (s : State) : Res := .next (s.receive f fun f s => s.takeResponse f)

/-- FRAME_WRITE_ACK: the store is performed, or refused. -/
def execFrameWriteAck (f : Frame) (s : State) : Res :=
  .next <| s.receive f fun f s =>
    match s.gangs.findSome? fun x => (x.2.stores.find? fun i => i % 2 ^ 20 == f.tag).map fun i => (x.1, i) with
    | none => s
    | some (k, i) => if f.aux % 2 = 1 then s.refused k f.addr else s.owe [.storePerformed k i]

/-! ## Work records and slots (R275, R276) -/

def noMember : Member := { cohid := 0, teamid := 0, rlist := 0, rarea := 0 }

/-- The slot of a record is released: its bit is set and its count of releases turns over, and the sender is told. -/
def State.releaseSlot (s : State) (gk dst src slot : Nat) : State :=
  let g := s.groupAt gk
  let t := KMap.get (0, 0) g.taken (65536 * dst + src)
  let q := KMap.get {} s.qdt (gk / 256)
  let s := s.setGroupAt gk { g with
    taken := KMap.set (0, 0) g.taken (65536 * dst + src) (if t.1.testBit slot then t.1 - 2 ^ slot else t.1, t.2)
    rels := KMap.set 0 g.rels (65536 * dst + src) (KMap.get 0 g.rels (65536 * dst + src) ^^^ 2 ^ slot) }
  { s with qdt := KMap.set {} s.qdt (gk / 256) { q with rcvd := q.rcvd + 1, zero := false } }.oweOnce (.slotUpdateSend gk dst src)

/-- FRAME_WORK_RECORD: the record is written into its slot and appended to the receive list; with the list full it stays in
its slot, and while this module knows no queue of the launch the frame waits (R275, R277). -/
def State.workRecord (s : State) (f : Frame) : State :=
  let gk := frameGkey f
  let g := s.groupAt gk
  let src := frameExtra f % 2 ^ 16
  let dst := frameExtra f / 2 ^ 16 % 2 ^ 16
  let slot := frameWord f - src * g.nsl
  let m := g.members.getD dst noMember
  match s.launchQueue (gk / 256) with
  | none => s.owe [.frameWorkRecord f]
  | some qk =>
    let x := s.xlQueue qk
    let a := m.rarea + 64 * frameWord f
    match (s.lookup x a).1 with
    | .absent => s.engineFault 0 qk (BitVec.ofNat 72 a) 1 (.frameWorkRecord f)
    | _ =>
      let v := leNat (f.body.take 64)
      let s := s.vaWrite x a 64 v
      let t := KMap.get (0, 0) g.taken (65536 * dst + src)
      let s := s.setGroupAt gk { g with taken := KMap.set (0, 0) g.taken (65536 * dst + src) (t.1 ||| 2 ^ slot, t.2) }
      let tab := (s.queueAt qk).launch.wltab
      if (s.wlist qk tab m.rlist).full then { s with slotted := s.slotted ++ [f] }
      else
        let h := s.listQueue qk tab m.rlist
        ((s.appendItem h tab m.rlist v).wlcTry h tab m.rlist false 4).releaseSlot gk dst src slot

def execFrameWorkRecord (f : Frame) (s : State) : Res := .next (s.receive f fun f s => s.workRecord f)

/-- SLOT_UPDATE_SEND: the sender's range of the bitmap of released slots, with the next sequence number; beside the range the frame
says how often each slot has been released, modulo 2, so that a copy never shows a slot free before its release (R276; log entry 78,
DESIGN CHOICE). -/
def execSlotUpdateSend (grp member sender : Nat) (s : State) : Res :=
  let g := s.groupAt grp
  let key := 65536 * member + sender
  let t := KMap.get (0, 0) g.taken key
  let seq := (t.2 + 1) % 2 ^ 32
  let free := (List.range g.nsl).foldl (fun m i => if t.1.testBit i then m else m + 2 ^ i) 0
  let f := { groupFrame 7 s.modn (s.rankMod grp sender) grp member (seq + sender * 2 ^ 32) 0 with
    sdie := s.rankDie grp member, ddie := s.rankDie grp sender, len := 1
    body := padBeats (leBytes 8 free ++ leBytes 8 (KMap.get 0 g.rels key)) }
  .next ((s.setGroupAt grp { g with taken := KMap.set (0, 0) g.taken key (t.1, seq) }).sendFrame f)

/-- FRAME_SLOT_UPDATE: a newer range replaces the sender's copy, in which a slot whose record the range does not know stays in use; the
records whose slots have been released leave the net counts. -/
def State.slotUpdate (s : State) (f : Frame) : State :=
  let gk := frameGkey f
  let g := s.groupAt gk
  let dst := frameNum f
  let seq := frameWord f % 2 ^ 32
  let src := frameWord f / 2 ^ 32
  let key := 65536 * src + dst
  let u := KMap.get (0, 0) g.used key
  let d := (seq + 2 ^ 32 - u.2) % 2 ^ 32
  if d = 0 || 2 ^ 31 ≤ d then s
  else
    let free := leNat (f.body.take 8)
    let rels := leNat ((f.body.drop 8).take 8)
    let out := fun i => u.1.testBit i && rels.testBit i == (KMap.get 0 g.heard key).testBit i
    let used := (List.range g.nsl).foldl (fun m i => if free.testBit i && !out i then m else m + 2 ^ i) 0
    let freed := s.sent.filter fun r => r.grp == gk && r.src == src && r.dst == dst && r.slot < g.nsl && !used.testBit r.slot
    let s := s.setGroupAt gk { g with used := KMap.set (0, 0) g.used key (used, seq), heard := KMap.set 0 g.heard key rels }
    let s := { s with sent := s.sent.filter fun r => !freed.contains r }
    freed.foldl (fun s r =>
      let x := s.gangAt r.gang
      (s.setGangAt r.gang { x with nets := x.nets.filter (· != r.id) }).endCheck r.gang) s

def execFrameSlotUpdate (f : Frame) (s : State) : Res := .next (s.receive f fun f s => s.slotUpdate f)

/-! ## Packets and peers (R211, R271) -/

/-- The operation whose last frame has been acknowledged, where its member waited for that, completes (R300). -/
def State.ackedOp (s : State) (f : Frame) : State :=
  let gk := frameGkey f
  match KMap.get none (s.groupAt gk).ops (opKey (frameNum f) (frameExtra f % 2 ^ 16)) with
  | some o => if f.cls = 9 && o.sends && s.opDone gk o then s.owe [.collComplete o.team gk o.num] else s
  | none => s

def execPacketAck (psn : Nat) (s : State) : Res :=
  let t := { s with net := s.net.filter fun p => p.1.psn != psn }
  .next <| match s.net.find? fun p => p.1.psn == psn with
    | some p => t.ackedOp p.1
    | none => t

/-- RETRANSMIT_TIMER: the packet goes out again, and its timer starts again. -/
def execRetransmitTimer (psn : Nat) (s : State) : Res :=
  .next { s with net := s.net.map fun p => if p.1.psn = psn then (p.1, s.clock) else p }

/-- PEER_LOSS: what was sent to the module is given up, groups with a member there break, firmware is told. -/
def execPeerLoss (module : Nat) (s : State) : Res :=
  let s := { s with net := s.net.filter fun p => p.1.dstm != module, away := s.away ++ [Away.lost module] }
  .next ((s.groups.filter fun (p : Nat × Group) => (s.groupModules p.1).contains module).foldl (fun (s : State) (p : Nat × Group) => s.breakGroup p.1 []) s)

end Sys2Proof.Machine
end

