-- ==== Sys2Proof/Machine/Raster.lean ====
section
/-! DEFINITION. The raster unit's arithmetic (R250 to R252, R255): view entries, transform, clip, snap, cover, interpolation,
depth test and blend. Everything is exact until the one rounding each rule names. -/

namespace Sys2Proof.Machine

/-! ## View entries (R251) -/

structure View where
  mvp   : List Nat
  w     : Nat
  h     : Nat
  zf    : Nat
  zw    : Bool
  bl    : Nat
  cf    : Nat
  cbase : Nat
  zbase : Nat
  dstr  : Nat
  deriving DecidableEq, Repr

/-- A view entry from its 128 bytes. -/
def View.of (b : List Byte) : View :=
  let n := fun off len => leNat ((b.drop off).take len)
  let c := n 68 1
  { mvp := (List.range 16).map fun i => n (4 * i) 4, w := n 64 2, h := n 66 2, zf := c % 8, zw := c.testBit 3, bl := c / 16 % 4,
    cf := c / 64, cbase := n 72 8, zbase := n 80 8, dstr := n 88 8 }

/-- An entry that draws nothing: W or H out of range, or a reserved value. -/
def View.off (v : View) : Bool := v.w = 0 || 16384 < v.w || v.h = 0 || 16384 < v.h || v.zf = 7 || v.bl = 3 || v.cf = 3

/-- Bytes of a colour. -/
def View.cs (v : View) : Nat := 4 * 2 ^ v.cf

/-! ## Exact numbers -/

/-- A finite value as a rational number. -/
def FVal.rat : FVal → Option Rat
  | .num n m e =>
    let x : Rat := if 0 ≤ e then ((m * 2 ^ e.toNat : Nat) : Rat) else (m : Rat) / ((2 ^ (-e).toNat : Nat) : Rat)
    some (if n then -x else x)
  | _ => none

/-- A rational number as a value, sticky below the precision of every format. -/
def ofRat (r : Rat) : FVal := quotient (decide (r < 0)) r.num.natAbs r.den 0

/-- Rounded once to F32 under RN. -/
def ratF32 (r : Rat) : Nat := (fmtF32.result .rn (ofRat r)).1

/-! ## Transform and clip (R252 steps 1, 2) -/

/-- A clip-space vertex with its weights over the three vertices of its triangle. -/
structure ClipV where
  x : Rat
  y : Rat
  z : Rat
  w : Rat
  b : List Rat
  deriving DecidableEq, Repr

/-- Component i of MVP × vertex, rounded once. -/
def transform (v : View) (p : List Nat) (i : Nat) : Nat :=
  let xs := (List.range 4).map fun j => ((fmtF32.decode (v.mvp.getD (4 * i + j) 0)), fmtF32.decode (p.getD j 0))
  let vals := xs.flatMap fun q => [q.1, q.2]
  (fmtF32.arith .rn vals (sumVals false (xs.map fun q => q.1.mul q.2))).1

/-- The three clip-space vertices of a triangle; none where a component is NaN or infinite. -/
def clipTri (v : View) (ps : List (List Nat)) : Option (List ClipV) :=
  ps.zipIdx.mapM fun p => do
    let c := fun i => (fmtF32.decode (transform v p.1 i)).rat
    let x ← c 0
    let y ← c 1
    let z ← c 2
    let w ← c 3
    some { x := x, y := y, z := z, w := w, b := (List.range 3).map fun i => if i = p.2 then 1 else 0 }

/-- The point where an edge meets a plane, from the signed distances of its ends. -/
def ClipV.cut (p q : ClipV) (dp dq : Rat) : ClipV :=
  let t := dp / (dp - dq)
  let m := fun (a b : Rat) => a + t * (b - a)
  { x := m p.x q.x, y := m p.y q.y, z := m p.z q.z, w := m p.w q.w, b := (p.b.zip q.b).map fun c => m c.1 c.2 }

/-- The part of a polygon where a distance is not negative. -/
def clipBy (d : ClipV → Rat) (l : List ClipV) : List ClipV :=
  match l with
  | [] => []
  | a :: _ =>
    (l.zip (l.drop 1 ++ [a])).flatMap fun e =>
      let dp := d e.1
      let dq := d e.2
      (if 0 ≤ dp then [e.1] else []) ++ (if (0 ≤ dp) != (0 ≤ dq) then [e.1.cut e.2 dp dq] else [])

/-- 0 ≤ z ≤ w, |x| ≤ 16 w, |y| ≤ 16 w. -/
def clipAll (l : List ClipV) : List ClipV :=
  [fun p : ClipV => p.z, fun p => p.w - p.z, fun p => 16 * p.w - p.x, fun p => 16 * p.w + p.x, fun p => 16 * p.w - p.y,
   fun p => 16 * p.w + p.y].foldl (fun l d => clipBy d l) l

/-- The triangles of a convex polygon, fanned from its first vertex. -/
def fanFrom (a : ClipV) : List ClipV → List (List ClipV)
  | b :: c :: r => [a, b, c] :: fanFrom a (c :: r)
  | _ => []

def fan : List ClipV → List (List ClipV)
  | a :: r => fanFrom a r
  | [] => []

/-! ## Snap, cull and cover (R252 steps 3 to 5) -/

/-- Rounded to an integer under RN. -/
def ratRound (r : Rat) : Int :=
  let f := r.floor
  let d := r - (f : Rat)
  if d < 1 / 2 then f else if 1 / 2 < d then f + 1 else if f % 2 = 0 then f else f + 1

/-- Screen position in 1/256 pixel. -/
def snap (v : View) (p : ClipV) : Int × Int :=
  (ratRound (256 * ((p.x / p.w / 2 + 1 / 2) * (v.w : Rat))), ratRound (256 * ((1 / 2 - p.y / p.w / 2) * (v.h : Rat))))

/-- Twice the area that a, b, c span on a screen whose y axis points down: positive when counter-clockwise on screen. -/
def area2 (a b c : Int × Int) : Int := (c.1 - a.1) * (b.2 - a.2) - (b.1 - a.1) * (c.2 - a.2)

/-- The edge from a to b, with c on the inner side, is a top edge or a left edge. -/
def topLeft (a b c : Int × Int) : Bool :=
  if a.2 = b.2 then decide (a.2 < c.2)
  else
    -- the edge's x at c's y lies left of c
    let n := (c.2 - a.2) * (b.1 - a.1) - (c.1 - a.1) * (b.2 - a.2)
    if a.2 < b.2 then decide (n < 0) else decide (0 < n)

/-- A centre is inside an edge, or on it where the edge covers. -/
def edgeCovers (a b c p : Int × Int) : Bool :=
  let e := area2 a b p
  let s := area2 a b c
  if e = 0 then topLeft a b c else decide (0 < e) == decide (0 < s)

/-- The pixel centre in 1/256 pixel. -/
def centre (x y : Nat) : Int × Int := (256 * (x : Int) + 128, 256 * (y : Int) + 128)

/-- A snapped triangle with its clip-space vertices. -/
structure Tri where
  p : Int × Int
  q : Int × Int
  r : Int × Int
  v : List ClipV
  deriving DecidableEq, Repr

def Tri.area (t : Tri) : Int := area2 t.p t.q t.r

def Tri.covers (t : Tri) (x y : Nat) : Bool :=
  let c := centre x y
  edgeCovers t.p t.q t.r c && edgeCovers t.q t.r t.p c && edgeCovers t.r t.p t.q c

/-- Screen-space weights of a pixel centre. -/
def Tri.weights (t : Tri) (x y : Nat) : List Rat :=
  let c := centre x y
  let a : Rat := (t.area : Int)
  [((area2 t.q t.r c : Int) : Rat) / a, ((area2 t.r t.p c : Int) : Rat) / a, ((area2 t.p t.q c : Int) : Rat) / a]

/-- Depth at a pixel centre: z/w, linear in screen space. -/
def Tri.depth (t : Tri) (x y : Nat) : Nat :=
  ratF32 ((((t.weights x y).zip t.v).map fun p => p.1 * (p.2.z / p.2.w)).sum)

/-- Perspective-correct weights over the triangle's own three vertices. -/
def Tri.persp (t : Tri) (x y : Nat) : List Rat :=
  let ws := ((t.weights x y).zip t.v).map fun p => p.1 / p.2.w
  let s := ws.sum
  (List.range 3).map fun j => ((ws.zip t.v).map fun p => p.1 / s * p.2.b.getD j 0).sum

/-- An attribute at a pixel centre, rounded once; a NaN or an infinity among the three gives a NaN (log entry 35, DEDUCED). -/
def Tri.attr (t : Tri) (x y : Nat) (a : List Nat) : Nat :=
  match a.mapM fun v => (fmtF32.decode v).rat with
  | none => fmtF32.nan
  | some rs => ratF32 (((t.persp x y).zip rs).map fun p => p.1 * p.2).sum

/-- The snapped triangles that a triangle leaves in a view after culling: mode 1 drops back faces, 2 front faces. -/
def trisOf (v : View) (cull : Nat) (ps : List (List Nat)) : List Tri :=
  match clipTri v ps with
  | none => []
  | some cv =>
    ((fan (clipAll cv)).filterMap fun l =>
      if l.any fun p => p.w = 0 then none
      else
        match l.map (snap v) with
        | [p, q, r] => some { p := p, q := q, r := r, v := l }
        | _ => none).filter fun t =>
      t.area ≠ 0 && !(cull = 1 && t.area < 0) && !(cull = 2 && 0 < t.area)

/-- Pixels of a span of screen coordinates, as even quad origins below `lim`. -/
def quadSpan (lo hi : Int) (lim : Nat) : List Nat :=
  let a := (max 0 (lo / 256)).toNat / 2
  let b := (max 0 (hi / 256 + 1)).toNat
  ((List.range (min b lim + 1 - 2 * a)).filter (· % 2 = 0)).map (2 * a + ·) |>.filter (· < lim)

/-- Quads of a triangle with at least one covered pixel of the view: origin and cover bits. -/
def Tri.quads (t : Tri) (v : View) : List (Nat × Nat × Nat) :=
  let xs := [t.p.1, t.q.1, t.r.1]
  let ys := [t.p.2, t.q.2, t.r.2]
  let lo := fun (l : List Int) => l.min?.getD 0
  let hi := fun (l : List Int) => l.max?.getD 0
  (quadSpan (lo ys) (hi ys) v.h).flatMap fun y => (quadSpan (lo xs) (hi xs) v.w).filterMap fun x =>
    let c := ((List.range 4).map fun j =>
      let px := x + j % 2
      let py := y + j / 2
      if px < v.w && py < v.h && t.covers px py then 2 ^ j else 0).sum
    if c = 0 then none else some (x, y, c)

/-! ## Test and blend (R255) -/

/-- The depth test of a fragment f against d. -/
def depthPass (zf f d : Nat) : Bool :=
  let x := fmtF32.decode f
  let y := fmtF32.decode d
  if zf = 0 then true
  else if x.isNan || y.isNan then false
  else
    let c := x.cmp false y
    match zf with
    | 1 => decide (c < 0)
    | 2 => decide (c ≤ 0)
    | 3 => decide (0 < c)
    | 4 => decide (0 ≤ c)
    | 5 => decide (c = 0)
    | _ => false

/-- A channel of the result, exact: 0 REPLACE, 1 OVER, 2 ADD. -/
def blendChan (bl : Nat) (s c a : FVal) : FVal :=
  match bl with
  | 0 => s
  | 1 =>
    if s.isNan || c.isNan || a.isNan then .bad
    else
      let p := c.mul (sumVals false [.num false 1 0, a.negate])
      if p.isNan then .bad else sumVals false [s, p]
  | _ => if s.isNan || c.isNan then .bad else sumVals false [s, c]

end Sys2Proof.Machine
end

