-- ==== Sys2Proof/Machine/Graphics.lean ====
section
/-! DEFINITION. Meshlets, pixel continuations and fragments (R213, R250 to R257). -/

namespace Sys2Proof.Machine

/-! ## MESH (R213, R250) -/

/-- Bytes of a meshlet record. -/
def meshBytes (nv nt nattr : Nat) : Nat := 32 + 16 * nv + 4 * nv * nattr + 3 * nt

/-- A range operand of MESH: S, read. -/
def meshRange (a : VAddr) (n : Nat) : Range := { sp := 1, a := a, n := n, need := { r := true } }

/-- A meshlet is handed to the raster unit: the eng counter and the team count it. -/
def State.handMesh (s : State) (off mask cull : Nat) : State :=
  let g := s.gang
  let id := s.nextId
  let op : MeshOp := { id := id, gang := s.gk, team := g.team, off := off, mask := mask, cull := cull, hdr := s.spadBytes g.team off 32 }
  let s := { s with nextId := id + 1, meshq := s.meshq ++ [op] }
  let s := s.setGang { g with engs := g.engs ++ [id], meshes := g.meshes ++ [id] }
  (s.setTeam { s.team with pixels := s.team.pixels + 1 }).owe [.meshRaster id]

def execMesh (f : ClassE) (s : State) : Res :=
  .next (s.engineE f.h [] fun s =>
    let g := s.gang
    let rec_ := g.adAt f.ta.toNat
    let mk := g.adAt f.tb.toNat
    if s.accWaits || g.loadsOut || 4095 ≤ g.engs.length then s
    else
      match s.rangeTrap g [meshRange rec_ 32, meshRange mk 16] with
      | some (c, a) => s.rangeRaise c a
      | none =>
        let o := rec_.toNat
        let h := fun off n => leNat (s.spadBytes g.team (o + off) n)
        let nv := h 0 2
        let nt := h 2 2
        if 128 < nv || 256 < nt then s.trap 21 (BitVec.ofNat 64 (8 * 256))
        else
          match s.rangeTrap g [meshRange rec_ (meshBytes nv nt (h 4 1 % 16)), meshRange mk 16] with
          | some (c, a) => s.rangeRaise c a
          | none =>
            let mask := leNat (s.spadBytes g.team mk.toNat 16)
            if mask / 2 ^ (s.launchOf g.team).nview ≠ 0 then s.trap 21 (BitVec.ofNat 64 (9 * 256))
            else s.done (s.handMesh o mask (f.bits 2 0)))

/-! ## MESH_RASTER (R250 to R253) -/

/-- A meshlet record as the raster unit reads it. -/
structure Mesh where
  nattr  : Nat
  pent   : Nat
  pframe : Nat
  pos    : List (List Nat)
  attrs  : List (List Nat)
  /-- triangles by index, each with three vertices that exist -/
  tris   : List (Nat × List Nat)
  deriving DecidableEq, Repr

/-- The record of a meshlet: the header as MESH read it, the rest from S; none when it draws nothing. -/
def State.readMesh (s : State) (op : MeshOp) : Option Mesh :=
  let hd := fun off n => leNat ((op.hdr.drop off).take n)
  let h := fun off n => leNat (s.spadBytes op.team (op.off + off) n)
  let nv := hd 0 2
  let nt := hd 2 2
  let na := hd 4 1 % 16
  let pent := hd 8 8
  if nv = 0 || nt = 0 || pent % 8 ≠ 0 then none
  else
    let at_ := 32 + 16 * nv
    let it := at_ + 4 * nv * na
    some {
      nattr := na, pent := pent, pframe := hd 16 8
      pos := (List.range nv).map fun i => (List.range 4).map fun j => h (32 + 16 * i + 4 * j) 4
      attrs := (List.range nv).map fun i => (List.range na).map fun j => h (at_ + 4 * (na * i + j)) 4
      tris := ((List.range nt).map fun i => (i, (List.range 3).map fun j => h (it + 3 * i + j) 1)).filter fun p =>
        p.2.all (· < nv) }

/-- The owner of a tile: the core of its number, or the next one in service (R253, R392). -/
def State.tileOwner (s : State) (own : List Nat) (tx ty v : Nat) : Option Nat :=
  let n := own.length
  if n = 0 then none
  else
    let i := (tx + 3 * ty + 5 * v) % n
    (own.drop i ++ own.take i).find? fun c => !(KMap.get {} s.cores c).shut

/-- The quads of one triangle in one view. -/
def State.triQuads (s : State) (op : MeshOp) (own : List Nat) (m : Mesh) (v : Nat) (w : View) (t : Nat × List Nat) : List Quad :=
  (trisOf w op.cull (t.2.map fun i => m.pos.getD i [])).flatMap fun x =>
    (x.quads w).filterMap fun q =>
      (s.tileOwner own (q.1 / 64) (q.2.1 / 64) v).map fun o =>
        let px := fun (j : Nat) => (q.1 + j % 2, q.2.1 + j / 2)
        { owner := o, mesh := op.id, gang := op.gang, team := op.team, view := v, tri := t.1, x := q.1, y := q.2.1,
          cover := q.2.2, front := decide (0 < x.area), depth := (List.range 4).map fun j => x.depth (px j).1 (px j).2
          attrs := (List.range m.nattr).map fun a =>
            (List.range 4).map fun j => x.attr (px j).1 (px j).2 (t.2.map fun i => (m.attrs.getD i []).getD a 0)
          pent := m.pent, pframe := m.pframe }

/-- What the raster unit finds of a view entry. -/
inductive ViewRead where
  | ok (v : View)
  | absent (va : Nat)
  | none

def State.readView (s : State) (qk v : Nat) : ViewRead :=
  let x := s.xlQueue qk
  let a := (s.queueAt qk).launch.viewt + 128 * v
  match (List.range 128).find? fun i => (s.lookup x (a + i)).1 == .absent with
  | some i => .absent (a + i)
  | Option.none =>
    match s.vaBytes x a 128 with
    | some b => if (View.of b).off then .none else .ok (View.of b)
    | Option.none => .none

/-- The meshlet is read: its gang no longer counts it. -/
def State.meshRead (s : State) (op : MeshOp) : State :=
  let g := s.gangAt op.gang
  let s := { s with meshq := s.meshq.filter fun o => o.id != op.id }
  s.setGangAt op.gang { g with engs := g.engs.filter (· != op.id), meshes := g.meshes.filter (· != op.id) }

/-- Quads wait at their owners, each of which is owed a start. -/
def State.sendQuads (s : State) (team : Nat) (qs : List Quad) : State :=
  let t := s.teamAt team
  let s := s.setTeamAt team { t with pixels := t.pixels - 1 + qs.length }
  ({ s with quads := s.quads ++ qs }).owe ((qs.map fun (q : Quad) => q.owner).eraseDups.map .pixelTeamStart)

def execMeshRaster (id : Nat) (s : State) : Res :=
  .next <|
    match s.meshq.find? fun o => o.id == id with
    | none => s
    | some op =>
      -- the meshlets of one gang are read in issue order
      if (s.meshq.find? fun o => o.gang == op.gang).any fun o => o.id != id then s.owe [.meshRaster id]
      else
      let qk := (s.cohortAt (s.teamAt op.team).cohort).queue
      let views := ((List.range 128).filter fun v => op.mask.testBit v).map fun v => (v, s.readView qk v)
      match views.findSome? fun (p : Nat × ViewRead) => match p.2 with
        | .absent va => some va
        | _ => none with
      | some va => s.engineFault op.gang qk (BitVec.ofNat 72 va) 0 (.meshRaster id)
      | none =>
        let own := (s.queueAt qk).owners
        let qs := match s.readMesh op with
          | none => []
          | some m => m.tris.flatMap fun t => views.flatMap fun (p : Nat × ViewRead) => match p.2 with
            | .ok w => s.triQuads op own m p.1 w t
            | _ => []
        let s := (s.meshRead op).sendQuads op.team qs
        (s.endCheck op.gang).cohortEnd (s.teamAt op.team).cohort

/-! ## PIXEL_TEAM_START (R254) -/

/-- The quads that the owner packs next: up to eight of one meshlet and one view, oldest first. -/
def State.packQuads (s : State) (core : Nat) : List Quad :=
  let mine := s.quads.filter fun q => q.owner == core
  match mine with
  | [] => []
  | a :: _ => (mine.filter fun q => q.mesh == a.mesh && q.view == a.view).take 8

/-- A list without the first occurrence of each of some elements. -/
def without {α : Type} [DecidableEq α] (l : List α) (r : List α) : List α := r.foldl (fun l a => l.erase a) l

/-- The registers of a pixel gang at its start. -/
def pixelRegs (qs : List Quad) (sr : KMap Word) : Regs :=
  let w := BitVec.ofNat 32
  let per := fun (i : Nat) (q : Quad) => (List.range 4).flatMap fun j =>
    let l := 4 * i + j
    [(l, w ((q.x + j % 2) + (q.y + j / 2) * 2 ^ 16)), (32 + l, w (q.depth.getD j 0)),
     (64 + l, w (q.view + boolNat q.front * 2 ^ 8)), (96 + l, w q.tri)] ++
      q.attrs.zipIdx.map fun a => (32 * (4 + a.2) + l, w (a.1.getD j 0))
  let cover := maskOf fun l => match qs[l / 4]? with
    | some q => q.cover.testBit (l % 4)
    | none => false
  { v := KMap.setAll 0#32 [] (qs.zipIdx.flatMap fun p => per p.2 p.1)
    k := KMap.setAll 0#32 [] [(0, cover), (1, 0xFFFFFFFF#32)], srstate := sr }

/-- A pixel gang of the core has not ended, or its fragments are not applied: fragments keep the order of R256. -/
def State.pixelBusy (s : State) (core : Nat) : Bool :=
  s.gangs.any fun p => !p.2.quads.isEmpty && (s.teamAt p.2.team).core == core

def execPixelTeamStart (core : Nat) (s : State) : Res :=
  let qs := s.packQuads core
  .next <|
    match qs with
    | [] => s
    | a :: _ =>
      let src := s.teamAt a.team
      let co := s.cohortAt src.cohort
      let need : TeamNeed := { gangs := 1, storage := 6656, reserve := 0, nseg := src.im.nseg }
      if s.pixelBusy core || (KMap.get {} s.cores core).drained || !s.coreFits core true need then
        s.oweOnce (.pixelTeamStart core)
      else
        let l := s.launchOf a.team
        let c := s.nextId
        let t := c + 1
        let k := c + 2
        let slot := (s.pickSlots core 1).headD 0
        let team := s.startTeam co.queue c 0 core 0 src.im.nseg a.pent a.pframe 0 [k] 0#64
        let g := startGang l co.cohid t 0 0 slot qs.length 6 0 0 (a.pent % 4096)
        let s := { s with nextId := c + 3, runq := s.runq ++ [k], quads := without s.quads qs }
        let s := s.setCohortAt c { cohid := co.cohid, cluster := clusterOf core, queue := co.queue, teams := [t], pixel := true }
        let s := s.setTeamAt t team
        (s.setGangAt k { g with r := pixelRegs qs g.r.srstate, quads := qs, stklim := 0#32, ssize := 0 }).owe [.segmentLanded t 0]

/-! ## FRAGMENT_BLEND (R255 to R257) -/

/-- One fragment: its view, pixel, and what the lane left. -/
structure Fragment where
  view  : Nat
  x     : Nat
  y     : Nat
  depth : Nat
  color : List Nat
  deriving DecidableEq, Repr

/-- The fragments of an ended pixel gang, in slice order: v1, v40 to v43, and the lanes that keep. -/
def Gang.fragments (g : Gang) : List Fragment :=
  g.quads.zipIdx.flatMap fun p => (List.range 4).filterMap fun j =>
    let l := 4 * p.2 + j
    if g.kAt 0 l && g.kAt 1 l then
      some { view := p.1.view, x := p.1.x + j % 2, y := p.1.y + j / 2, depth := (g.vAt 1 l).toNat,
             color := (List.range 4).map fun i => (g.vAt (40 + i) l).toNat }
    else none

/-- Depth and colour addresses of a pixel on a die (R251). -/
def View.depthAt (v : View) (die x y : Nat) : Nat := v.zbase + die * v.dstr + (y * v.w + x) * 4
def View.colorAt (v : View) (die x y : Nat) : Nat := v.cbase + die * v.dstr + (y * v.w + x) * v.cs

/-- Channels of a colour format. -/
def View.chan (v : View) : Chan :=
  match v.cf with
  | 0 => .int 8
  | 1 => .f16
  | _ => .f32

/-- Bytes of one channel. -/
def View.chanBytes (v : View) : Nat := v.cs / 4

/-- The new colour of a fragment, by channels (R255). -/
def View.blend (v : View) (f : Fragment) (old : List Nat) : List Nat :=
  let s := f.color.map fmtF32.decode
  let a := s.getD 3 .bad
  (s.zip old).map fun p =>
    (storeChan v.chan (blendChan v.bl p.1 (fmtF32.decode (chanF32 v.chan p.2).1) a)).1

/-- An address range that a fragment touches, and the first byte of it that is absent or cannot be used. -/
inductive Touch where
  | ok
  | absent (va : Nat)
  | bad (va : Nat)
  deriving DecidableEq, Repr

def State.touch (s : State) (x : Xl) (a n : Nat) : Touch :=
  match [a, a + n - 1].findSome? fun va => match (s.lookup x va).1 with
    | .page _ leaf => if entR leaf && entW leaf && entPart leaf != 7 then none else some (Touch.bad va)
    | .absent => some (Touch.absent va)
    | _ => some (Touch.bad va) with
  | some t => t
  | none => .ok

/-- One fragment is tested and blended, in one instant at its pixel (R256). -/
def State.fragment (s : State) (x : Xl) (die : Nat) (v : View) (f : Fragment) : State :=
  let za := v.depthAt die f.x f.y
  let ca := v.colorAt die f.x f.y
  let d := (s.vaNat x za 4).getD 0
  if v.zbase = 0 || depthPass v.zf f.depth d then
    let s := if v.zw && v.zbase ≠ 0 then s.vaWrite x za 4 f.depth else s
    let n := v.chanBytes
    let c := (s.vaNat x ca v.cs).getD 0
    let old := (List.range 4).map fun i => bitsOf c (8 * n * i) (8 * n)
    let new := v.blend f old
    s.vaWrite x ca v.cs ((new.zipIdx.map fun p => p.1 * 2 ^ (8 * n * p.2)).sum)
  else s

/-- The team of the pixel gang has ended with its fragments applied or given up. -/
def State.pixelEnd (s : State) (gang : Nat) : State :=
  let g := s.gangAt gang
  let core := (s.teamAt g.team).core
  let s := s.setGangAt gang { g with quads := [], ended := true }
  let s := s.cohortEnd (s.teamAt g.team).cohort
  match g.quads with
  | [] => s
  | a :: _ =>
    let t := s.teamAt a.team
    let s := s.setTeamAt a.team { t with pixels := t.pixels - g.quads.length }
    let s := if s.quads.any fun q => q.owner == core then s.oweOnce (.pixelTeamStart core) else s
    s.cohortEnd t.cohort

def execFragmentBlend (gang : Nat) (s : State) : Res :=
  let g := s.gangAt gang
  .next <|
    match g.quads with
    | [] => s
    | a :: _ =>
      if !g.ended then s
      else
        let qk := (s.cohortAt (s.teamAt a.team).cohort).queue
        let die := qk / 64
        let x := s.xlQueue qk
        match s.readView qk a.view with
        | .absent va => s.engineFault a.gang qk (BitVec.ofNat 72 va) 0 (.fragmentBlend gang)
        | .none => s.pixelEnd gang
        | .ok v =>
          let fs := g.fragments
          let ts := fs.flatMap fun f =>
            (if v.zbase = 0 then [] else [s.touch x (v.depthAt die f.x f.y) 4]) ++ [s.touch x (v.colorAt die f.x f.y) v.cs]
          let absent := ts.findSome? fun t => match t with
            | .absent va => some va
            | _ => none
          let bad := ts.findSome? fun t => match t with
            | .bad va => some va
            | _ => none
          match absent, bad with
          | some va, _ => s.engineFault a.gang qk (BitVec.ofNat 72 va) 3 (.fragmentBlend gang)
          | none, some va => (s.abandon a.gang (BitVec.ofNat 72 va)).pixelEnd gang
          | none, none => (fs.foldl (fun s f => s.fragment x die v f) s).pixelEnd gang

end Sys2Proof.Machine
end

