-- ==== Sys2Proof/Machine/Lod.lean ====
section
/-! DEFINITION. Level-of-detail accesses: LDLOD and SMPL, the residency caches and the feedback ring (R157 to R161, R264 to
R270). -/

namespace Sys2Proof.Machine

/-! ## Views of memory -/

/-- The issuing gang wants the 8-byte word of an address. -/
def State.wantWord (s : State) (a : Nat) : State :=
  let g := s.gang
  if g.asks.contains (a / 8) then s else s.setGang { g with asks := g.asks ++ [a / 8] }

/-- The byte of another module at an address: a held one, one that partition 7 holds, or one that has come. -/
def State.farByte (s : State) (x : Xl) (m c a : Nat) : Option Byte :=
  ((s.gang.heldByte (0, a)).or (s.p7Byte x.die (.far m c (a % 2 ^ 64)) 0)).or
    ((KMap.get none s.gang.far (a / 8)).map fun w => BitVec.ofNat 8 (w.toNat >>> (8 * (a % 8))))

/-- The places of bytes that partition 7 may hold. -/
def State.p7Places (s : State) (x : Xl) (va n : Nat) : List Acc :=
  (List.range n).filterMap fun i =>
    let a := va + i
    match (s.lookup x (s.published x a)).1 with
    | .page pa leaf => if entPart leaf = 7 then some (Acc.mk 32 (BitVec.ofNat 72 a) (.mem pa leaf)) else none
    | .far m c _ => some (Acc.mk 32 (BitVec.ofNat 72 a) (.far m c (a % 2 ^ 64)))
    | _ => none

/-- What the issuing gang sees at an address, as its loads under `ch` do: its own held bytes, partition 7, bytes of this module, or words
that have come from another one. None where a byte is not mapped, resident and readable, or has still to be asked for, or is locked: the
gang then wants its word. The die merges the clocks of the stores it returns (R105, R154, R224, R248). -/
def State.seeCh (s : State) (x : Xl) (ch va n : Nat) : Option (List Byte) × State :=
  let l := s.p7Places x va n
  let s := s.p7Pick x.die 1 l
  let r := (List.range n).foldl (fun (p : Option (List Byte) × List Nat × State) i =>
    let a := va + i
    match (p.2.2.lookup x (p.2.2.published x a)).1 with
    | .page pa leaf =>
      if p.2.2.portDown pa then (none, p.2.1, if p.2.2.due.isEmpty || p.1.isSome then p.2.2.consume p.2.2.gk pa else p.2.2)
      else if !entR leaf then (none, p.2)
      else if p.2.2.lockedFor p.2.2.gk (.mem pa leaf) then (none, p.2.1, p.2.2.wantWord a)
      else (p.1.map fun l => l ++ [p.2.2.seenByte p.2.2.gk (0, a) (.mem pa leaf) a 0], pa :: p.2.1, p.2.2)
    | .far m c leaf =>
      if !entR leaf then (none, p.2)
      else
        match p.2.2.farByte x m c a with
        | some b => (p.1.map fun l => l ++ [b], p.2)
        | none => (none, p.2.1, p.2.2.wantWord a)
    | _ => (none, p.2)) (some [], [], s)
  (r.1, (r.2.2.fillP7 s.gk ch l).noteRead x.die r.2.1)

def State.see (s : State) (x : Xl) (va n : Nat) : Option (List Byte) × State := s.seeCh x 0 va n

/-- The releases that those bytes are (R227). -/
def State.seeTags (s : State) (x : Xl) (va n : Nat) : List Tag :=
  ((List.range n).flatMap fun i =>
    let a := va + i
    match (s.lookup x (s.published x a)).1 with
    | .page pa leaf => if s.newest 0 1 (Acc.mk 32 (BitVec.ofNat 72 a) (.mem pa leaf)) then s.tagsSeen x.die [pa] else []
    | .far .. => KMap.get [] s.gang.farTags (a / 8)
    | _ => []).eraseDups

/-! ## The resource header (R264) -/

/-- What the checks of R158 make of a header. -/
inductive Header256 where
  /-- check 1 fails -/
  | bad
  /-- check 3: not resident -/
  | absent
  /-- its bytes come from another module -/
  | wait
  | ok (b : List Byte)

/-- A field of the header. -/
def hdrNat (b : List Byte) (off n : Nat) : Nat := leNat ((b.drop off).take n)

def hdrNlev (b : List Byte) : Nat := hdrNat b 0 1 % 16
def hdrKind (b : List Byte) : Nat := hdrNat b 0 1 / 16
def hdrTfmt (b : List Byte) : Nat := hdrNat b 1 1 % 16
def hdrN0 (b : List Byte) : Nat := hdrNat b 4 4
def hdrW0 (b : List Byte) : Nat := hdrNat b 4 2
def hdrH0 (b : List Byte) : Nat := hdrNat b 6 2
def hdrMapb (b : List Byte) : Nat := hdrNat b 8 8
def hdrLbase (b : List Byte) (k : Nat) : Nat := hdrNat b (16 * k + 16) 8
def hdrMoff (b : List Byte) (k : Nat) : Nat := hdrNat b (16 * k + 24) 4
def hdrNpg (b : List Byte) (k : Nat) : Nat := hdrNat b (16 * k + 28) 4

/-- The header at `h` as the issuing gang reads it; none where its words have still to come. -/
def State.lodHeader (s : State) (h : VAddr) : Header256 × State :=
  let x := s.xlOf s.gang.team
  let cs := [0, 64, 128, 192].map fun (o : Nat) => (s.checkG x { r := true } (h + BitVec.ofNat 72 o)).1
  if h.toNat % 64 ≠ 0 || cs.any (fun c => c == .perm) then (.bad, s)
  else if cs.any (fun c => c == .absent) then (.absent, s)
  else
    let r := s.see x h.toNat 256
    (match r.1 with
      | some b => .ok b
      | none => .wait, r.2)

/-- The word waits: for the words of other modules that its header wants, else for the data error that the read of the header has met
(R377); `t` is the state after that read. -/
def State.waitWords (s t : State) : State := if t.gang.asks.isEmpty then t else s.sendAsks t.gang.asks

/-! ## Map bits and pages (R265, R266) -/

/-- The name of a map word in the residency caches: its physical address, or that of a word of another module (R266). -/
def State.wordName (s : State) (x : Xl) (va : Nat) : Option Nat :=
  match (s.lookup x (s.published x va)).1 with
  | .page pa _ => some pa
  | .far m c _ => some (farName m c (va % 2 ^ 64))
  | _ => none

/-- The bit of page p of level k, through the core's residency cache; a word that cannot be read gives 0 (R158, R266). -/
def State.mapBit (s : State) (core : Nat) (x : Xl) (b : List Byte) (k p : Nat) : Bool × State :=
  let bit := hdrMoff b k + p
  let byte := x.win + hdrMapb b + bit / 8
  let w := byte / 8 * 8
  let i := (byte - w) * 8 + bit % 8
  let c := s.coreAt core
  match s.wordName x w with
  | none => (false, s)
  | some key =>
    match c.resid.find? fun e => e.1 == key with
    | some e => (e.2.getLsbD i, s)
    | none =>
      match s.see x w 8 with
      | (none, s) => (false, s)
      | (some bs, s) =>
        let v := BitVec.ofNat 64 (leNat bs)
        (v.getLsbD i, s.setCoreAt core { c with resid := ((key, v) :: c.resid).take 256 })

/-- The page table entry at an address is valid and permits reading. -/
def State.pteValid (s : State) (x : Xl) (va : Nat) : Bool :=
  match (s.lookup x (s.published x va)).1 with
  | .page _ leaf => entR leaf
  | .far _ _ leaf => entR leaf
  | _ => false

/-! ## Feedback (R268 to R270) -/

/-- One offer through the repeat filter to the ring of the gang's queue. -/
def State.offer (s : State) (src : Nat) (h : VAddr) (level page : Nat) : State :=
  let core := s.team.core
  let qk := s.cohort.queue
  let key := (qk, h.toNat, level, page)
  let c := s.coreAt core
  if c.filter.contains key then s
  else
    let s := s.setCoreAt core { c with filter := (key :: c.filter).take 64 }
    let x := s.xlQueue qk
    let hdr := (s.queueAt qk).fbring
    let base := (s.vaNat x hdr 8).getD 1
    let size := (s.vaNat x (hdr + 8) 1).getD 0 % 32
    if base % 64 ≠ 0 || size < 4 || 20 < size then s
    else
      let entry := h.toNat + level % 16 * 2 ^ 72 + src * 2 ^ 76 + page % 2 ^ 32 * 2 ^ 80 + core % 512 * 2 ^ 112
      match s.ringAppend x hdr 16 entry with
      | some s => s
      | none => s.ringDrop x hdr

def State.offers (s : State) (src : Nat) (h : VAddr) (l : List (Nat × Nat)) : State :=
  l.eraseDups.foldl (fun s p => s.offer src h p.1 p.2) s

/-! ## LDLOD (R158, R159) -/

/-- A lane's delivery: value, status, pages to report. -/
structure LodOut where
  val    : DWord := 0#64
  status : Nat
  log    : List (Nat × Nat) := []
  /-- the releases that its element is (R227) -/
  tags   : List Tag := []
  deriving DecidableEq, Repr

/-- Count(k) (R158). -/
def lodCount (b : List Byte) (k : Nat) : Nat := max 1 (hdrN0 b / 2 ^ k)

/-- The levels from the requested one on: status so far, and the delivered level with its element's address. -/
def State.lodWalk (s : State) (core : Nat) (x : Xl) (b : List Byte) (n i L : Nat) (status : Nat) :
    List Nat → Nat × Option (Nat × Nat) × State
  | [] => (status, none, s)
  | k :: r =>
    let j := min (i / 2 ^ (k - L)) (lodCount b k - 1)
    let va := x.win + hdrLbase b k + j * n
    let m := s.mapBit core x b k (j * n / 131072)
    if !m.1 then m.2.lodWalk core x b n i L status r
    else if m.2.pteValid x va then (status, some (k, va), m.2)
    else m.2.lodWalk core x b n i L (status ||| 0x20) r

/-- One lane of LDLOD from index `i`; the element is read as LD reads it, under `ch`. -/
def State.ldlodLane (s : State) (x : Xl) (b : List Byte) (sz L ch i : Nat) : LodOut × State :=
  let n := szBytes sz
  if hdrKind b ≠ 0 || hdrNlev b ≤ L || lodCount b L ≤ i then ({ status := 0x90 ||| L }, s)
  else
    let r := s.lodWalk s.team.core x b n i L 0 ((List.range (hdrNlev b)).drop L)
    let log := [(L, i * n / 131072)]
    match r.2.1 with
    | none => ({ status := r.1 ||| 0x5F, log := log }, r.2.2)
    | some (k, va) =>
      let v := r.2.2.seeCh x ch va n
      ({ val := szExtend sz (leNat (v.1.getD [])), status := if k = L then r.1 else r.1 ||| 0x10 ||| k,
         log := if k = L then [] else log, tags := v.2.seeTags x va n }, v.2)

/-- Lanes in turn. -/
def State.ldlodLanes (s : State) (x : Xl) (b : List Byte) (sz L ch : Nat) (idx : Nat → Nat) :
    List Nat → List (Nat × LodOut) × State
  | [] => ([], s)
  | l :: r =>
    let o := s.ldlodLane x b sz L ch (idx l)
    let p := o.2.ldlodLanes x b sz L ch idx r
    ((l, o.1) :: p.1, p.2)

/-- The requested level of LDLOD (R152). -/
def lodLevel (f : ClassM) : Nat := f.level.toNat

/-- A trap 20 with the lanes and the address of a check of R158. -/
def State.lodTrap (s : State) (ls : List Nat) (info : VAddr) : State :=
  s.trapLanes 20 (maskOf fun l => ls.contains l) (info.setWidth 64)

/-- Loads of lane registers that return at once. -/
def State.addLaneLoad (s : State) (vregs : List Nat) (vals : List (Nat × Word)) (flags : DWord) : State :=
  let id := s.nextId
  ({ s with nextId := id + 1 }).addLoad
    { id := id, vregs := vregs, vals := vals, flags := flags, ahead := s.gang.ahead.isSome }

def execLdlod (f : ClassM) (s : State) : Res :=
  let sz := f.sz.toNat
  let n := szBytes sz
  let d := f.d.toNat
  let L := lodLevel f
  .next <|
    match s.memGate f [] [{ f := f.d, n := 2, a := 2 }] [] with
    | some s' => s'
    | none =>
      if s.accWaits || 4095 ≤ s.gang.loads.length then s
      else
        let g := s.gang
        let h := g.adAt f.adr.toNat
        let ls := g.effLanes s.pt f.h
        let rel := fun (l : Nat) => (g.effAddr f l - h).toNat
        let vregs := if 48 ≤ d then [] else [d, d + 1]
        let put := fun (l : Nat) (v : DWord) (st : Nat) =>
          laneVals d false l v ++ laneVals (d + 1) false l (BitVec.ofNat 64 st)
        let x := { s.xlOf g.team with win := h.toNat / 2 ^ 64 * 2 ^ 64 }
        let hd := s.lodHeader h
        let odd := ls.filter fun l => rel l % n != 0
        match hd.1, odd with
        | .bad, _ => s.lodTrap ls h
        | .wait, _ => s.waitWords hd.2
        | _, l :: r => s.lodTrap (l :: r) (g.effAddr f l)
        | .absent, [] => s.done (s.addLaneLoad vregs (ls.flatMap fun l => put l 0#64 (0x90 ||| L)) 0#64)
        | .ok b, [] =>
          let r := s.ldlodLanes x b sz L f.ch.toNat (fun l => rel l / n) ls
          if !r.2.gang.asks.isEmpty then s.sendAsks r.2.gang.asks
          else
          let s2 := (r.2.forgetFar.offers 0 h (r.1.flatMap (·.2.log))).syncTags s.gk f.scp.toNat f.ord.toNat
            (r.1.flatMap (·.2.tags)).eraseDups
          s.done (s2.addLaneLoad vregs (r.1.flatMap fun o => put o.1 o.2.val o.2.status) 0#64)

/-! ## SMPL (R160, R161) -/

/-- An exact real number num × 2^e as an integer part, and 8 fraction bits below it, truncated. -/
def floor8 (v : Int) (e : Int) : Int × Nat :=
  -- v × 2^(e+8), floored
  let x : Int := if 0 ≤ e + 8 then v * 2 ^ (e + 8).toNat else v / 2 ^ (-(e + 8)).toNat
  (x / 256, (x % 256).toNat)

/-- A coordinate: NaN and infinities read as 0. Mantissa and exponent. -/
def coordOf (x : Nat) : Int × Int :=
  match fmtF32.decode x with
  | .num n m e => (if n then -(m : Int) else m, e)
  | _ => (0, 0)

/-- Texel position of one axis with its fraction: POINT floors u × W; LINEAR floors u × W - 1/2. -/
def texelPos (linear : Bool) (u : Nat) (W : Nat) : Int × Nat :=
  let c := coordOf u
  if !linear then ((floor8 (c.1 * W) c.2).1, 0)
  else
    -- u × W - 1/2 = (2^k v W - 2^(k+e') ) with both terms in units of 2^u
    let e := min c.2 (-1)
    let v := c.1 * W * 2 ^ (c.2 - e).toNat - 2 ^ (-1 - e).toNat
    floor8 v e

/-- WRAP, CLAMP or MIRROR (R161). -/
def wrapCoord (mode : Nat) (x : Int) (W : Nat) : Nat :=
  match mode with
  | 0 => (x % W).toNat
  | 1 => (max 0 (min x (W - 1))).toNat
  | _ =>
    let m := (x % (2 * W)).toNat
    if m < W then m else 2 * W - 1 - m

/-- Bytes of a texel; tile width and height (R264, R265). -/
def texelBytes (tfmt : Nat) : Nat :=
  match tfmt with
  | 0 => 4 | 1 => 4 | 2 => 8 | 3 => 8 | _ => 16

def tileDims (n : Nat) : Nat × Nat :=
  match n with
  | 4 => (256, 128) | 8 => (128, 128) | _ => (128, 64)

/-- Page and byte offset of a texel within its level (R265). -/
def texelPlace (n Wk x y : Nat) : Nat × Nat :=
  let t := tileDims n
  let per := (Wk + t.1 - 1) / t.1
  let p := y / t.2 * per + x / t.1
  (p, 131072 * p + (y % t.2 * t.1 + x % t.1) * n)

/-- The texels of one sample at level k with their weights in 1/65536, weight 0 left out. -/
def sampleTexels (b : List Byte) (linear : Bool) (mode k u v : Nat) : List (Nat × Nat × Nat) :=
  let Wk := max 1 (hdrW0 b / 2 ^ k)
  let Hk := max 1 (hdrH0 b / 2 ^ k)
  let px := texelPos linear u Wk
  let py := texelPos linear v Hk
  let at_ := fun (dx dy : Int) (w : Nat) => (wrapCoord mode (px.1 + dx) Wk, wrapCoord mode (py.1 + dy) Hk, w)
  let l :=
    if linear then
      [at_ 0 0 ((256 - px.2) * (256 - py.2)), at_ 1 0 (px.2 * (256 - py.2)), at_ 0 1 ((256 - px.2) * py.2),
       at_ 1 1 (px.2 * py.2)]
    else [at_ 0 0 65536]
  l.filter fun t => t.2.2 != 0

/-- The levels of SMPL from the requested one on (R161). -/
def State.smplWalk (s : State) (core : Nat) (x : Xl) (b : List Byte) (tex : Nat → List (Nat × Nat × Nat)) (status : Nat) :
    List Nat → Nat × Option Nat × State
  | [] => (status, none, s)
  | k :: r =>
    let n := texelBytes (hdrTfmt b)
    let Wk := max 1 (hdrW0 b / 2 ^ k)
    let ps := (tex k).map fun t => texelPlace n Wk t.1 t.2.1
    let q := ps.foldl (fun (a : Bool × Bool × State) p =>
      let m := a.2.2.mapBit core x b k p.1
      let v := m.2.pteValid x (x.win + hdrLbase b k + p.2)
      (a.1 && m.1 && v, a.2.1 || (m.1 && !v), m.2)) (true, false, s)
    let status := if q.2.1 then status ||| 0x20 else status
    if q.1 then (status, some k, q.2.2) else q.2.2.smplWalk core x b tex status r

/-- Channel c of a texel: its exact value over a denominator of 1 or 255; a channel that the format lacks is 0, alpha 1. -/
def texelChannel (tfmt : Nat) (t : List Byte) (c : Nat) : FVal :=
  let f32 := fun i => fmtF32.decode (leNat ((t.drop (4 * i)).take 4))
  match tfmt with
  | 0 => .num false (leNat ((t.drop c).take 1)) 0
  | 1 => if c = 0 then f32 0 else .num false (if c = 3 then 1 else 0) 0
  | 2 => fmtF16.decode (leNat ((t.drop (2 * c)).take 2))
  | 3 => if c < 2 then f32 c else .num false (if c = 3 then 1 else 0) 0
  | _ => f32 c

/-- Σ weight × channel, rounded once to F32 (R161). Weights are in 1/65536; `unorm`: channel values are over 255. -/
def channelSum (unorm : Bool) (l : List (Nat × FVal)) : Nat × DWord :=
  if l.any fun p => p.2.isNan then (fmtF32.nan, 0#64)
  else
    let s := sumVals false (l.map fun p => p.2.mul (.num false p.1 (-16)))
    match s with
    | .num n m e => fmtF32.result .rn (if unorm then quotient n m 255 e else .num n m e)
    | .inf n => (fmtF32.signed n fmtF32.infMag, 0#64)
    | _ => (fmtF32.nan, 0#64)

/-- One lane of SMPL: the four channels with their flags. -/
def State.smplLane (s : State) (x : Xl) (b : List Byte) (L : Nat) (linear : Bool) (mode u v : Nat) :
    List Nat × DWord × LodOut × State :=
  let zero := [0, 0, 0, 0]
  if hdrKind b ≠ 1 || hdrNlev b ≤ L || 4 < hdrTfmt b then (zero, 0#64, { status := 0x90 ||| L }, s)
  else
    let core := s.team.core
    let n := texelBytes (hdrTfmt b)
    let tex := fun k => sampleTexels b linear mode k u v
    let r := s.smplWalk core x b tex 0 ((List.range (hdrNlev b)).drop L)
    -- the absent pages of level L
    let WL := max 1 (hdrW0 b / 2 ^ L)
    let pl := (tex L).map fun t => texelPlace n WL t.1 t.2.1
    let log := (pl.filter fun p =>
      !((r.2.2.mapBit core x b L p.1).1 && r.2.2.pteValid x (x.win + hdrLbase b L + p.2))).map fun p => (L, p.1)
    match r.2.1 with
    | none => (zero, 0#64, { status := r.1 ||| 0x5F, log := log }, r.2.2)
    | some k =>
      let Wk := max 1 (hdrW0 b / 2 ^ k)
      let rd := (tex k).foldl (fun (p : List (Nat × List Byte) × State) t =>
        let v := p.2.see x (x.win + hdrLbase b k + (texelPlace n Wk t.1 t.2.1).2) n
        (p.1 ++ [(t.2.2, v.1.getD [])], v.2)) ([], r.2.2)
      let ts := rd.1
      let ch := (List.range 4).map fun c =>
        channelSum (hdrTfmt b == 0) (ts.map fun t => (t.1, texelChannel (hdrTfmt b) t.2 c))
      (ch.map (·.1), ch.foldl (fun m c => m ||| (c.2 &&& flagNX)) 0#64,
        { status := if k = L then r.1 else r.1 ||| 0x10 ||| k, log := if k = L then [] else log }, rd.2)

def State.smplLanes (s : State) (x : Xl) (b : List Byte) (L : Nat) (linear : Bool) (mode : Nat) (uv : Nat → Nat × Nat) :
    List Nat → List (Nat × List Nat × DWord × LodOut) × State
  | [] => ([], s)
  | l :: r =>
    let o := s.smplLane x b L linear mode (uv l).1 (uv l).2
    let p := o.2.2.2.smplLanes x b L linear mode uv r
    ((l, o.1, o.2.1, o.2.2.1) :: p.1, p.2)

def execSmpl (f : ClassE) (s : State) : Res :=
  let d := f.d.toNat
  let L := f.bits 4 0
  let linear := f.bits 1 4 == 1
  let srcs := [Use.of f.a true]
  .next <|
    if 40 < d then s.illegal 7
    else
      match s.laneGate f.h srcs [{ f := f.d, n := 5, a := 4 }] false false with
      | some s' => s'
      | none =>
        if s.accWaits || 4095 ≤ s.gang.loads.length then s
        else
          let g := s.gang
          let h := g.adAt f.ta.toNat
          let ls := g.effLanes s.pt f.h
          let vregs := (List.range 5).map (d + ·)
          let put := fun (l : Nat) (c : List Nat) (st : Nat) =>
            (c ++ [st]).zipIdx.flatMap fun p => laneVals (d + p.2) false l (BitVec.ofNat 64 p.1)
          let x := { s.xlOf g.team with win := h.toNat / 2 ^ 64 * 2 ^ 64 }
          let hd := s.lodHeader h
          match hd.1 with
          | .bad => s.lodTrap ls h
          | .wait => s.waitWords hd.2
          | .absent => s.done (s.addLaneLoad vregs (ls.flatMap fun l => put l [0, 0, 0, 0] (0x90 ||| L)) 0#64)
          | .ok b =>
            let uv := fun l => ((g.src f.a true l).toNat % 2 ^ 32, (g.src f.a true l).toNat / 2 ^ 32)
            let r := s.smplLanes x b L linear (f.bits 2 5) uv ls
            if !r.2.gang.asks.isEmpty then s.sendAsks r.2.gang.asks
            else
            let s2 := r.2.forgetFar.offers 1 h (r.1.flatMap (·.2.2.2.log))
            s.done (s2.addLaneLoad vregs (r.1.flatMap fun o => put o.1 o.2.1 o.2.2.2.status)
              (r.1.foldl (fun m o => m ||| o.2.2.1) 0#64))

end Sys2Proof.Machine
end

