-- ==== Sys2Proof/Machine/Rays.lean ====
section
/-! DEFINITION. Rays (R214, R215, R259 to R263, R351). Every intersection is computed exactly over the rational numbers and
rounded where R260 rounds. -/

namespace Sys2Proof.Machine

/-! ## Exact vectors -/

abbrev Vec3 := List Rat

def vget (a : Vec3) (i : Nat) : Rat := a.getD i 0
def vsub (a b : Vec3) : Vec3 := (List.range 3).map fun i => vget a i - vget b i
def vdot (a b : Vec3) : Rat := ((List.range 3).map fun i => vget a i * vget b i).sum
def vcross (a b : Vec3) : Vec3 :=
  [vget a 1 * vget b 2 - vget a 2 * vget b 1, vget a 2 * vget b 0 - vget a 0 * vget b 2, vget a 0 * vget b 1 - vget a 1 * vget b 0]

/-- F32 patterns as numbers; none where one is NaN or infinite. -/
def ratsOf (l : List Nat) : Option (List Rat) := l.mapM fun x => (fmtF32.decode x).rat

/-! ## Rays and intervals -/

/-- A bound of an interval: an end at infinity bounds nothing. -/
inductive Bound where
  | free
  | at_ (r : Rat)
  | never
  deriving DecidableEq, Repr

/-- A ray with its interval. -/
structure Ray where
  o    : Vec3
  d    : Vec3
  lo   : Bound
  hi   : Bound
  deriving DecidableEq, Repr

/-- The eight registers of a ray: origin, tmin, direction, tmax (R207). None for a ray that misses by its own values: a NaN,
a zero direction, an origin or a direction at infinity. -/
def Ray.of (w : List Nat) : Option Ray := do
  let f := fun i => fmtF32.decode (w.getD i 0)
  let o ← ratsOf [w.getD 0 0, w.getD 1 0, w.getD 2 0]
  let d ← ratsOf [w.getD 4 0, w.getD 5 0, w.getD 6 0]
  let bound := fun (v : FVal) (low : Bool) =>
    match v with
    | .inf n => if n == low then Bound.free else .never
    | v => match v.rat with
      | some r => .at_ r
      | none => .never
  if d.all (· = 0) then none else some { o := o, d := d, lo := bound (f 3) true, hi := bound (f 7) false }

/-- The parameter lies in the interval. -/
def Ray.holds (r : Ray) (t : Rat) : Bool :=
  (match r.lo with
    | .free => true
    | .at_ a => decide (a ≤ t)
    | .never => false) &&
  (match r.hi with
    | .free => true
    | .at_ b => decide (t ≤ b)
    | .never => false)

/-- An interval narrowed to t ≥ a or t ≤ a. -/
def Bound.raise (b : Bound) (a : Rat) : Bound :=
  match b with
  | .free => .at_ a
  | .at_ x => .at_ (max x a)
  | .never => .never

def Bound.lower (b : Bound) (a : Rat) : Bound :=
  match b with
  | .free => .at_ a
  | .at_ x => .at_ (min x a)
  | .never => .never

/-- One side of a box on one axis: o + t d ≥ p, or ≤ p when `upper`. -/
def clipSide (o d : Rat) (p : FVal) (upper : Bool) (iv : Bound × Bound) : Bound × Bound :=
  match p with
  | .nan .. => (.never, .never)
  | .inf n => if n == !upper then iv else (.never, .never)
  | p =>
    match p.rat with
    | none => (.never, .never)
    | some a =>
      if d = 0 then (if (if upper then o ≤ a else a ≤ o) then iv else (.never, .never))
      else
        let t := (a - o) / d
        if decide (0 < d) != upper then (iv.1.raise t, iv.2) else (iv.1, iv.2.lower t)

/-- The ray's interval meets a box: min x, y, z, max x, y, z. -/
def Ray.meets (r : Ray) (box : List Nat) : Bool :=
  let iv := (List.range 3).foldl (fun iv i =>
    clipSide (vget r.o i) (vget r.d i) (fmtF32.decode (box.getD (3 + i) 0)) true
      (clipSide (vget r.o i) (vget r.d i) (fmtF32.decode (box.getD i 0)) false iv)) (r.lo, r.hi)
  match iv with
  | (.never, _) => false
  | (_, .never) => false
  | (.at_ a, .at_ b) => decide (a ≤ b)
  | _ => true

/-- A hit on a triangle: t, u, v, and whether its front faces the origin: its vertices run counter-clockwise from there. -/
def Ray.tri (r : Ray) (v : List Nat) (cull : Bool) : Option (Rat × Rat × Rat × Bool) := do
  let p ← ratsOf v
  let p0 := p.take 3
  let e1 := vsub ((p.drop 3).take 3) p0
  let e2 := vsub ((p.drop 6).take 3) p0
  let q := vcross r.d e2
  let det := vdot e1 q
  if det = 0 then none
  else
    let s := vsub r.o p0
    let u := vdot s q / det
    let x := vcross s e1
    let w := vdot r.d x / det
    let t := vdot e2 x / det
    if 0 ≤ u && 0 ≤ w && u + w ≤ 1 && r.holds t && !(cull && det < 0) then some (t, u, w, decide (0 < det)) else none

/-! ## Structures in memory (R259) -/

/-- The header at ad[TA]. -/
structure RayHeader where
  root  : Nat
  ninst : Nat
  maxd  : Nat
  inst  : Nat
  deriving DecidableEq, Repr

def RayHeader.of (b : List Byte) : RayHeader :=
  { root := hdrNat b 0 8, ninst := hdrNat b 8 4, maxd := hdrNat b 12 1, inst := hdrNat b 16 8 }

/-- The header, where it can be read and MAXD is in range. -/
def State.rayHeader (s : State) (x : Xl) (h : VAddr) : Option RayHeader × State :=
  match s.see x h.toNat 64 with
  | (some b, s) =>
    let r := RayHeader.of b
    (if r.maxd = 0 || 64 < r.maxd then none else some r, s)
  | (none, s) => (none, s)

/-- One child of a node: its box and its reference. -/
def nodeBox (b : List Byte) (i : Nat) : List Nat := (List.range 6).map fun j => hdrNat b (24 * i + 4 * j) 4
def nodeRef (b : List Byte) (i : Nat) : Nat := hdrNat b (96 + 8 * i) 8

def refKind (r : Nat) : Nat := r % 4
def refCount (r : Nat) : Nat := r / 4 % 32
def refAddr (r : Nat) : Nat := r / 128 * 128

/-- A triangle record's vertices, primitive and geometry. -/
def triVerts (b : List Byte) : List Nat := (List.range 9).map fun j => hdrNat b (4 * j) 4
def triPrim (b : List Byte) : Nat := hdrNat b 36 4
def triGeom (b : List Byte) : Nat := hdrNat b 40 4

/-- A hit as the ray unit reports it. -/
structure Hit where
  t      : Rat
  u      : Rat
  v      : Rat
  prim   : Nat
  inst   : Nat
  geom   : Nat
  front  : Bool
  status : Nat
  deriving DecidableEq, Repr

/-- What a traversal of one level has come to. -/
structure Walk where
  s      : State
  hits   : List Hit := []
  /-- an absent page was met; its number, where it is one of the level -/
  absent : Bool := false
  page   : Option Nat := none
  /-- a map bit was set for a page that is not there -/
  dis    : Bool := false
  /-- the structure is deeper than MAXD -/
  spent   : Bool := false
  /-- bytes that could not be read: address and number -/
  stuck  : Option (Nat × Nat) := none

/-- How a traversal reads n bytes at an address. -/
abbrev Reader := Nat → Nat → Walk → Option (List Byte) × Walk

/-- n bytes of level k of a bottom-level structure: none on an absent page (R158, R260, R265). -/
def blasBytes (core : Nat) (x : Xl) (b : List Byte) (k : Nat) : Reader := fun a n w =>
  let s := w.s
  let base := hdrLbase b k
  if a < base || base + 131072 * hdrNpg b k < a + n then (none, { w with s := s, absent := true })
  else
    let p := (a - base) / 131072
    let m := s.mapBit core x b k p
    let v := m.2.pteValid x (x.win + base + 131072 * p)
    if !(m.1 && v) then (none, { w with s := m.2, absent := true, page := w.page.or (some p), dis := w.dis || m.1 })
    else
      match m.2.see x (x.win + a) n with
      | (some l, s) => (some l, { w with s := s })
      | (none, s) => (none, { w with s := s, absent := true })

/-- n bytes as an ordinary load reads them (R151, R215). -/
def plainBytes (x : Xl) : Reader := fun a n w =>
  match w.s.see x (x.win + a) n with
  | (some l, s) => (some l, { w with s := s })
  | (none, s) => (none, { w with s := s, absent := true, stuck := w.stuck.or (some (x.win + a, n)) })

/-- What a traversal does with a child and with a triangle. -/
structure Visit where
  enter : List Nat → Bool
  leaf  : List Byte → Option Hit

/-- The triangles of a leaf. -/
def Walk.leaf (w : Walk) (rd : Reader) (a : Nat) (vis : Visit) : Nat → Walk
  | 0 => w
  | n + 1 =>
    if w.absent then w
    else
      match rd a 48 w with
      | (none, w) => w
      | (some t, w) =>
        ({ w with hits := w.hits ++ (vis.leaf t).toList }).leaf rd (a + 48) vis n

/-- A node of a level and what is below it; it ends at an absent page. -/
def Walk.node (rd : Reader) (vis : Visit) : Nat → Nat → Walk → Walk
  | 0, _, w => { w with spent := true }
  | fuel + 1, a, w =>
    if w.absent then w
    else
      match rd a 128 w with
      | (none, w) => w
      | (some nb, w) =>
        (List.range 4).foldl (fun w i =>
          let r := nodeRef nb i
          if w.absent || !vis.enter (nodeBox nb i) then w
          else
            match refKind r with
            | 1 => Walk.node rd vis fuel (refAddr r) w
            | 2 => w.leaf rd (refAddr r) vis (refCount r)
            | _ => w) w

/-! ## One ray in one instance (R260) -/

/-- What an instance gives a ray. -/
structure InstOut where
  hits   : List Hit := []
  status : Nat
  /-- the level used, where one was -/
  level  : Option Nat := none
  /-- pages of level L that were absent -/
  log    : List Nat := []
  spent   : Bool := false
  deriving DecidableEq, Repr

/-- Levels from the requested one on: the first whose structure is traversed with no absent page. -/
def State.instWalk (s : State) (core : Nat) (x : Xl) (b : List Byte) (maxd L : Nat) (vis : Visit) (o : InstOut) :
    List Nat → InstOut × State
  | [] => ({ o with status := o.status ||| 0x5F, hits := [] }, s)
  | k :: r =>
    let w := Walk.node (blasBytes core x b k) vis maxd (hdrLbase b k) { s := s }
    let o := { o with
      status := if w.dis then o.status ||| 0x20 else o.status
      log := if k = L then o.log ++ w.page.toList else o.log }
    if w.absent then w.s.instWalk core x b maxd L vis o r
    else
      let st := if k = L then o.status else o.status ||| 0x10 ||| k
      ({ o with status := st, level := some k, spent := w.spent, hits := w.hits.map fun h => { h with status := st } }, w.s)

/-- The ray in object space, every component rounded once to F32; none where one is no number. -/
def Ray.into (r : Ray) (xf : List Nat) : Option Ray := do
  let row := fun (i : Nat) => ratsOf ((xf.drop (4 * i)).take 4)
  let rows ← (List.range 3).mapM row
  let round := fun (q : Rat) => (fmtF32.decode (ratF32 q)).rat
  let o ← rows.mapM fun m => round (vdot m r.o + m.getD 3 0)
  let d ← rows.mapM fun m => round (vdot m r.d)
  some { r with o := o, d := d }

/-- What one ray has come to over the whole structure. -/
structure RayOut where
  s     : State
  hits  : List Hit := []
  /-- statuses of the instances tested, with the level used -/
  tested : List (Option Nat × Nat) := []
  /-- pages to report: header address, page -/
  log   : List (Nat × Nat) := []
  spent  : Bool := false
  /-- a header is not what R259 asks -/
  bad   : Bool := false

/-- The instance numbered `i` (R259, R260). -/
def RayOut.instance_ (w : RayOut) (core : Nat) (x : Xl) (h : RayHeader) (r : Ray) (L mask : Nat) (cull : Bool) (i : Nat) : RayOut :=
  if h.ninst ≤ i then w
  else
    match w.s.see x (x.win + h.inst + 64 * i) 64 with
    | (none, s) => { w with s := s }
    | (some e, s) =>
      let w := { w with s := s }
      if (hdrNat e 56 1) &&& mask = 0 then w
      else
        let bh := x.win + hdrNat e 48 8
        match s.see x bh 256 with
        | (none, s) => { w with s := s, tested := w.tested ++ [(none, 0x90 ||| L)] }
        | (some b, s) =>
          if hdrKind b ≠ 2 then { w with s := s, bad := true }
          else if hdrNlev b ≤ L then { w with s := s, tested := w.tested ++ [(none, 0x90 ||| L)] }
          else
            let xf := (List.range 12).map fun j => hdrNat e (4 * j) 4
            match r.into xf with
            | none => { w with s := s, tested := w.tested ++ [(some L, 0)] }
            | some o =>
              let vis : Visit :=
                { enter := o.meets
                  leaf := fun t => (o.tri (triVerts t) cull).map fun q =>
                    { t := q.1, u := q.2.1, v := q.2.2.1, prim := triPrim t, inst := i, geom := triGeom t, front := q.2.2.2, status := 0 } }
              let p := s.instWalk core x b h.maxd L vis { status := 0 } ((List.range (hdrNlev b)).drop L)
              { w with s := p.2, hits := w.hits ++ p.1.hits, tested := w.tested ++ [(p.1.level, p.1.status)], spent := w.spent || p.1.spent,
                       log := w.log ++ p.1.log.map fun g => (bh, g) }

/-- A node of the top level and what is below it. -/
def RayOut.node (core : Nat) (x : Xl) (h : RayHeader) (r : Ray) (L mask : Nat) (cull : Bool) : Nat → Nat → RayOut → RayOut
  | 0, _, w => { w with spent := true }
  | fuel + 1, a, w =>
    match w.s.see x (x.win + a) 128 with
    | (none, s) => { w with s := s }
    | (some nb, s) =>
      (List.range 4).foldl (fun (w : RayOut) i =>
        let rf := nodeRef nb i
        if !r.meets (nodeBox nb i) then w
        else
          match refKind rf with
          | 1 => RayOut.node core x h r L mask cull fuel (refAddr rf) w
          | 3 => w.instance_ core x h r L mask cull (rf / 2 ^ 32)
          | _ => w) { w with s := s }

/-! ## The result of a lane (R214) -/

/-- The closest hit: the least t, then instance, primitive and geometry. -/
def Hit.before (a b : Hit) : Bool :=
  decide (a.t < b.t) ||
    (a.t = b.t && (a.inst < b.inst || (a.inst = b.inst && (a.prim < b.prim || (a.prim = b.prim && a.geom < b.geom)))))

def closest : List Hit → Option Hit
  | [] => none
  | h :: r =>
    match closest r with
    | none => some h
    | some b => some (if b.before h then b else h)

/-- The status of a miss: that of the coarsest level used by any instance tested; a free value where none was tested
(log entry 37, DESIGN CHOICE). -/
def missStatus (l : List (Option Nat × Nat)) (free : Nat) : Nat :=
  match l with
  | [] => free % 256
  | a :: r =>
    let rank := fun (p : Option Nat × Nat) => match p.1 with
      | some k => k
      | none => 16
    (r.foldl (fun b p => if rank b < rank p then p else b) a).2

/-- The eight result registers. -/
def missRegs (status : Nat) : List Nat := [0x7F800000, 0, 0, 0xFFFFFFFF, 0xFFFFFFFF, 0xFFFFFFFF, status % 256, 0]

def Hit.regs (h : Hit) : List Nat :=
  [ratF32 h.t, ratF32 h.u, ratF32 h.v, h.prim, h.inst, h.geom, h.status % 256 + 256 + boolNat h.front * 512, 0]

/-- One lane: its registers, whether a header was bad, its pages, and the state after it. ANY takes any hit; a structure
deeper than MAXD gives any hit or a miss (R262). -/
def State.rayLane (s : State) (core : Nat) (x : Xl) (h : RayHeader) (L mask : Nat) (any cull : Bool) (w : List Nat) :
    List Nat × Bool × List (Nat × Nat) × State :=
  match Ray.of w with
  | none =>
    let f := s.freeVal
    (missRegs f.1.toNat, false, [], f.2)
  | some r =>
    let o := RayOut.node core x h r L mask cull h.maxd h.root { s := s }
    let miss := fun (s : State) =>
      if o.tested.isEmpty then
        let f := s.freeVal
        (missRegs f.1.toNat, f.2)
      else (missRegs (missStatus o.tested 0), s)
    let res :=
      if o.spent then
        let p := o.s.freePick (o.hits.length + 1)
        match o.hits[p.1]? with
        | some q => (q.regs, p.2)
        | none => miss p.2
      else if o.hits.isEmpty then miss o.s
      else if any then
        let p := o.s.freePick o.hits.length
        match o.hits[p.1]? with
        | some q => (q.regs, p.2)
        | none => miss p.2
      else
        match closest o.hits with
        | some q => (q.regs, o.s)
        | none => miss o.s
    (res.1, o.bad, o.log, res.2)

def State.rayLanes (s : State) (core : Nat) (x : Xl) (h : RayHeader) (L mask : Nat) (any cull : Bool) (w : Nat → List Nat) :
    List Nat → List (Nat × List Nat) × Bool × List (Nat × Nat) × State
  | [] => ([], false, [], s)
  | l :: r =>
    let o := s.rayLane core x h L mask any cull (w l)
    let p := o.2.2.2.rayLanes core x h L mask any cull w r
    ((l, o.1) :: p.1, o.2.1 || p.2.1, o.2.2.1 ++ p.2.2.1, p.2.2.2)

/-! ## RTRACE and RTRACE_COMPLETE -/

/-- A load of the result registers that a traversal will write. -/
def rayLoad (id d : Nat) : PendLoad := { id := id, vregs := (List.range 8).map (d + ·), ray := true }

/-- The traversals that a saved gang had outstanding start again (R263, R356). -/
def State.reissueRays (s : State) (k : Nat) : State :=
  let g := s.gangAt k
  let ls := g.rays.map fun (e : RayEntry) => rayLoad e.id (bitsOf e.word.toNat 42 6)
  (s.setGangAt k { g with loads := g.loads.filter (!·.ray) ++ ls }).owe (g.rays.map fun (e : RayEntry) => .rtraceComplete k e.id)

def execRtrace (f : ClassE) (s : State) : Res :=
  let d := f.d.toNat
  .next <|
    if 40 < d || 40 < f.a.toNat then s.illegal 7
    else
      match s.laneGate f.h [{ f := f.a, n := 8, a := 8 }] [{ f := f.d, n := 8, a := 8 }] false false with
      | some s' => s'
      | none =>
        match s.engineGate with
        | some s' => s'
        | none =>
          let g := s.gang
          let ls := g.effLanes s.pt f.h
          if g.stklim.toNat < 32768 then s.trapLanes 18 (maskOf fun l => ls.contains l) 0#64
          else if s.accWaits || 2 ≤ g.rays.length || 4095 ≤ g.loads.length then s
          else
            let id := s.nextId
            let e : RayEntry :=
              { id := id, word := (encode (.rtrace f)).getD 0#64, act := maskOf fun l => ls.contains l, ta := g.adAt f.ta.toNat,
                stklim := g.stklim.toNat
                rays := KMap.setAll 0#32 [] (ls.flatMap fun l => (List.range 8).map fun w => (32 * w + l, g.vAt (f.a.toNat + w) l)) }
            let g := { g with rays := g.rays ++ [e], loads := g.loads ++ [rayLoad id d] }
            s.done ((({ s with nextId := id + 1 }).setGang g).owe [.rtraceComplete s.gk id])

/-- Lines of a lane's traversal stack that were spilled go to the data stack; how many a lane spills is the ray unit's choice, and what they
hold is not defined: both are free (R261, R262; log entry 66, DESIGN CHOICE). -/
def State.raySpill (s : State) (e : RayEntry) (ls : List Nat) : State :=
  ls.foldl (fun s l =>
    let p := s.freePick 9
    let b := p.2.freeBytes (128 * p.1)
    let off := e.stklim - 32768 + 1024 * l
    (b.2.setGang (b.2.gang.putStack (b.1.zipIdx.map fun q => (off + q.2, q.1)))).spillPick s.gk) s

/-- The traversal of an entry, as the issuing gang. -/
def State.trace (s : State) (e : RayEntry) : State :=
  let g := s.gang
  let w := e.word.toNat
  -- MOD stands in the low bits of the word, D at bit 42 (R75)
  let field := fun lo n => bitsOf w lo n
  let ls := lanes.filter fun l => e.act.getLsbD l
  let x := { s.xlOf g.team with win := e.ta.toNat / 2 ^ 64 * 2 ^ 64 }
  let h := s.rayHeader x e.ta
  let ray := fun (l : Nat) => (List.range 8).map fun w => (KMap.get 0#32 e.rays (32 * w + l)).toNat
  let r := match h.1 with
    | none => ([], true, [], h.2)
    | some hd => h.2.rayLanes s.team.core x hd (field 0 4) (field 6 8) (field 4 1 == 1) (field 5 1 == 1) ray ls
  if !r.2.2.2.gang.asks.isEmpty then (s.sendAsks r.2.2.2.gang.asks).owe [.rtraceComplete s.gk e.id]
  else
    let out := if r.2.1 then ls.map fun l => (l, missRegs 0x80) else r.1
    let s1 := r.2.2.2.forgetFar.raySpill e ls
    let s1 := (r.2.2.1.eraseDups).foldl (fun (s : State) p => s.offer 2 (BitVec.ofNat 72 p.1) (field 0 4) p.2) s1
    let d := bitsOf w 42 6
    let g1 := s1.gang
    match g1.loads.find? fun p => p.id == e.id with
    | none => s
    | some p =>
      let vals := out.flatMap fun o => o.2.zipIdx.map fun q => (32 * (d + q.2) + o.1, BitVec.ofNat 32 q.1)
      let g2 := { g1 with rays := g1.rays.filter fun q => q.id != e.id }
      (s1.setGang (g2.land { p with vals := vals })).endCheck s.gk

/-- RTRACE_COMPLETE (R214, R260 to R263). An entry of a saved gang waits for its restore. -/
def execRtraceComplete (gang id : Nat) (s : State) : Res :=
  let g := s.gangAt gang
  .next <|
    match g.rays.find? fun e => e.id == id with
    | none => s
    | some e =>
      if g.ended || (s.teamAt g.team).status != .running || !(g.loads.any fun p => p.id == id) then s
      else s.asPart gang g.last fun s => s.trace e

/-! ## RHIT (R215) -/

/-- What RHIT finds of a lane's primitive: its vertices in each level that it may have come from, or bytes that cannot be read. -/
structure Found where
  verts : List (List Nat) := []
  stuck : Option (Nat × Nat) := none
  s     : State

/-- The vertices of the primitive that a block names. -/
def State.findPrim (s : State) (x : Xl) (h : RayHeader) (inst prim geom status : Nat) : Found :=
  if h.ninst ≤ inst then { s := s }
  else
    let ea := x.win + h.inst + 64 * inst
    match s.see x ea 64 with
    | (none, s) => { s := s, stuck := some (ea, 64) }
    | (some e, s) =>
      let ba := x.win + hdrNat e 48 8
      match s.see x ba 256 with
      | (none, s) => { s := s, stuck := some (ba, 256) }
      | (some b, s) =>
        let ks := (List.range (hdrNlev b)).filter fun k => !status.testBit 4 || k == status % 16
        ks.foldl (fun (p : Found) k =>
          -- the first match; its vertices travel in the field of the primitive
          let vs := Walk.node (plainBytes x)
            { enter := fun _ => true, leaf := fun t => if triPrim t = prim && triGeom t = geom then
                some { t := 0, u := 0, v := 0, prim := leNat (t.take 36), inst := 0, geom := 0, front := false, status := 0 } else none }
            h.maxd (hdrLbase b k) { s := p.s }
          match vs.hits with
          | q :: _ => { p with verts := p.verts ++ [(List.range 9).map fun j => q.prim / 2 ^ (32 * j) % 2 ^ 32], s := vs.s }
          | [] => { p with s := vs.s, stuck := p.stuck.or vs.stuck }) { s := s }

/-- NRM or POS from the vertices and the block's u and v. -/
def hitVec (pos : Bool) (v : List Nat) (u w : Nat) : List Nat :=
  match ratsOf v, ratsOf [u, w] with
  | some p, some b =>
    let p0 := p.take 3
    let e1 := vsub ((p.drop 3).take 3) p0
    let e2 := vsub ((p.drop 6).take 3) p0
    if pos then (List.range 3).map fun i => ratF32 (vget p0 i + b.getD 0 0 * vget e1 i + b.getD 1 0 * vget e2 i)
    else (vcross e1 e2).map ratF32
  | some p, none =>
    let p0 := p.take 3
    if pos then List.replicate 3 fmtF32.nan else (vcross (vsub ((p.drop 3).take 3) p0) (vsub ((p.drop 6).take 3) p0)).map ratF32
  | none, _ => List.replicate 3 fmtF32.nan

/-- One lane of RHIT: where several levels may hold the primitive the choice is free, and where none holds it the values
are (log entry 38, DESIGN CHOICE). The bytes that it could not read are given instead of values. -/
def State.rhitLane (s : State) (x : Xl) (h : Option RayHeader) (pos : Bool) (b : List Nat) : List Nat × Option (Nat × Nat) × State :=
  if !(b.getD 6 0).testBit 8 then ([0, 0, 0, 0], none, s)
  else
    let r : Found := match h with
      | none => { s := s }
      | some h => s.findPrim x h (b.getD 4 0) (b.getD 3 0) (b.getD 5 0) (b.getD 6 0 % 256)
    match r.verts, r.stuck with
    | [], some a => ([], some a, r.s)
    | [], none =>
      let f := r.s.freeVal
      let f2 := f.2.freeVal
      ([f.1.toNat % 2 ^ 32, f.1.toNat / 2 ^ 32, f2.1.toNat % 2 ^ 32, 0], none, f2.2)
    | v :: vs, _ =>
      let p := if vs.isEmpty then (0, r.s) else r.s.freePick (vs.length + 1)
      (hitVec pos ((v :: vs).getD p.1 v) (b.getD 1 0) (b.getD 2 0) ++ [0], none, p.2)

/-- Every lane in turn: its registers, or the bytes that it could not read. -/
def State.rhitLanes (s : State) (x : Xl) (h : Option RayHeader) (pos : Bool) (b : Nat → List Nat) :
    List Nat → List (Nat × List Nat) × List (Nat × Nat × Nat) × State
  | [] => ([], [], s)
  | l :: r =>
    let o := s.rhitLane x h pos (b l)
    let p := o.2.2.rhitLanes x h pos b r
    ((l, o.1) :: p.1, (o.2.1.map fun a => (l, a)).toList ++ p.2.1, p.2.2)

/-- Lanes that could not read their bytes: the trap of check 3, or the page fault (R151, R339, R342). -/
def State.readStuck (s : State) (x : Xl) (l : List (Nat × Nat × Nat)) : State :=
  let cs := l.map fun p =>
    let ends := [p.2.1, p.2.1 + p.2.2 - 1].map fun a => (a, (s.checkG x { r := true } (BitVec.ofNat 72 a)).1)
    (p.1, p.2.1, ends)
  match cs.filter (fun c => c.2.2.any fun e => e.2 != .absent && (match e.2 with
      | .ok _ => false
      | _ => true)) with
  | c :: r => s.trapLanes 20 (maskOf fun i => (c :: r).any (·.1 == i)) (BitVec.ofNat 64 c.2.1)
  | [] => s.cohortFault (cs.flatMap fun c => (c.2.2.filter (·.2 == .absent)).map fun e => (BitVec.ofNat 72 e.1, 0))

def execRhit (f : ClassE) (s : State) : Res :=
  let d := f.d.toNat
  .next <|
    if 47 < d || 40 < f.a.toNat then s.illegal 7
    else
      match s.laneGate f.h [{ f := f.a, n := 8, a := 8 }] [{ f := f.d, n := 4, a := 4 }] false false with
      | some s' => s'
      | none =>
        match s.engineGate with
        | some s' => s'
        | none =>
          if s.accWaits || 4095 ≤ s.gang.loads.length then s
          else
            let g := s.gang
            let h := g.adAt f.ta.toNat
            let ls := g.effLanes s.pt f.h
            let x := { s.xlOf g.team with win := h.toNat / 2 ^ 64 * 2 ^ 64 }
            let blk := fun (l : Nat) => (List.range 8).map fun w => (g.vAt (f.a.toNat + w) l).toNat
            let used := ls.filter fun l => ((blk l).getD 6 0).testBit 8
            let seen := if used.isEmpty then (none, s) else s.see x h.toNat 64
            let hd := s.rayHeader x h
            let r := (if used.isEmpty then s else hd.2).rhitLanes x hd.1 (f.bits 1 0 == 1) blk ls
            if !seen.2.gang.asks.isEmpty then s.sendAsks seen.2.gang.asks
            else if !used.isEmpty && seen.1.isNone then s.readStuck x (used.map fun l => (l, h.toNat, 64))
            else if !r.2.2.gang.asks.isEmpty then s.sendAsks r.2.2.gang.asks
            else if !r.2.1.isEmpty then s.readStuck x r.2.1
            else
              let vals := r.1.flatMap fun o => o.2.zipIdx.map fun q => (32 * (d + q.2) + o.1, BitVec.ofNat 32 q.1)
              s.done (r.2.2.forgetFar.addLaneLoad ((List.range 4).map (d + ·)) vals 0#64)

end Sys2Proof.Machine
end

