-- ==== Sys2Proof/Machine/Dispatcher.lean ====
section
/-! DEFINITION. The events of the dispatchers and of the translation units: placement (R321), the walk (R320), restores
(R356), answered faults (R343, R344, R419), migration (R323), the quiescence detector (R329), the flush timer (R325) and
shoot-downs (R341). -/

namespace Sys2Proof.Machine

/-! ## Ring heads (R319, R321) -/

/-- The record at a ring's own head. -/
def State.ringHead (s : State) (qk pri : Nat) : Option Nat :=
  let q := s.queueAt qk
  let hd := q.head.getD pri 0
  if q.tail.getD pri 0 = hd then none
  else some (q.recAt (s.qNat qk (q.ring.getD pri 0 + 4 * (hd % 2 ^ q.rs.getD pri 0)) 4))

/-- The saved cohort of a record. -/
def State.savedAt (s : State) (qk rec : Nat) : Option Nat :=
  (s.cohorts.find? fun p => p.2.status == .ready && p.2.queue == qk && p.2.crec.toNat == rec).map (·.1)

/-- The records that may stand at the head of ring `pri`, foremost first, each with the saved cohort it has, if any. -/
def State.headsOf (s : State) (qk pri : Nat) : List (Nat × Option Nat) :=
  (((s.queueAt qk).heads.filter fun h => h.1 == pri).map (·.2)) ++ ((s.ringHead qk pri).map fun r => (r, s.savedAt qk r)).toList

/-- The pinned record among them. -/
def State.pinnedOf (s : State) (qk pri : Nat) : Option (Nat × Option Nat) :=
  match (s.queueAt qk).pinned with
  | some i => (s.headsOf qk pri).find? fun h => (s.queueAt qk).index h.1 == i
  | none => none

/-- The record that is served at the head of ring `pri`: the pinned one before others (R321). -/
def State.headOf (s : State) (qk pri : Nat) : Option (Nat × Option Nat) := (s.pinnedOf qk pri).or (s.headsOf qk pri).head?

def priorities : List Nat := [0, 1, 2, 3]

/-- The queue has a ready record that may be placed. -/
def State.readyQueue (s : State) (qk : Nat) : Bool :=
  let q := s.queueAt qk
  q.bound && !q.suspended && !q.refused && priorities.any fun p => (s.headOf qk p).isSome

/-- The rotation of R321. -/
def rotation : List Nat := [0, 1, 0, 2, 0, 1, 0, 3, 0, 1, 0, 2, 0, 1, 0]

/-- The ring that is served next, and the rotation after it: the pinned record's, the first that has aged, or the next step of
the rotation with a record. -/
def State.pickRing (s : State) (qk : Nat) : Option (Nat × Nat) :=
  let q := s.queueAt qk
  let some_ := fun p => (s.headOf qk p).isSome
  let pinned := priorities.find? fun p => (s.pinnedOf qk p).isSome
  let aged := priorities.find? fun p => some_ p && q.headAt.getD p 0 + micros q.age ≤ s.clock
  match pinned, aged with
  | some p, _ => some (p, q.rot)
  | none, some p => some (p, q.rot)
  | none, none =>
    ((List.range 15).find? fun i => some_ (rotation.getD ((q.rot + i) % 15) 0)).map fun i =>
      (rotation.getD ((q.rot + i) % 15) 0, (q.rot + i + 1) % 15)

/-- A record at the head of a ring leaves it; another stands at the head from now on. -/
def State.takeHead (s : State) (qk pri rec : Nat) : State :=
  let q := s.queueAt qk
  let q := { q with headAt := setNth q.headAt pri s.clock }
  match q.heads.find? fun h => h.1 == pri && h.2.1 == rec with
  | some h => s.setQueueAt qk { q with heads := q.heads.erase h }
  | none =>
    if s.ringHead qk pri = some rec then s.setQueueAt qk { q with head := setNth q.head pri ((q.head.getD pri 0 + 1) % 2 ^ 32) } else s

/-- A record stands at the head of a ring, before the others (R321, R323). -/
def State.pushHead (s : State) (qk pri rec : Nat) (saved : Option Nat) : State :=
  let q := s.queueAt qk
  s.setQueueAt qk { q with heads := (pri, rec, saved) :: q.heads, headAt := setNth q.headAt pri s.clock }

/-- A record is passed over; the sixteenth time pins it. -/
def State.passOver (s : State) (qk rec : Nat) : State :=
  let q := s.queueAt qk
  let i := q.index rec
  let n := KMap.get 0 q.passed i + 1
  s.setQueueAt qk { q with passed := KMap.set 0 q.passed i n, pinned := if 16 ≤ n && q.pinned.isNone then some i else q.pinned }

/-- A record was placed or has left. -/
def State.unpin (s : State) (qk rec : Nat) : State :=
  let q := s.queueAt qk
  let i := q.index rec
  s.setQueueAt qk { q with passed := KMap.set 0 q.passed i 0, pinned := if q.pinned = some i then none else q.pinned }

/-! ## ROOT_RECORD_MAKE (R320) -/

/-- Free records of a pool, counted up to `fuel`. -/
def State.chain (s : State) (qk : Nat) : Nat → Nat → Nat
  | 0, _ => 0
  | n + 1, i => if i = 0xFFFFFFFF then 0 else 1 + s.chain qk n (s.qNat qk ((s.queueAt qk).recAt i + 0) 8 % 2 ^ 32)

/-- The walk may make a record. -/
def State.canMake (s : State) (qk : Nat) : Bool :=
  let q := s.queueAt qk
  let l := q.launch
  let quarter := 2 ^ q.ps / 4
  let used := (q.tail.getD l.rpri 0 + 2 ^ 32 - q.head.getD l.rpri 0) % 2 ^ 32
  q.bound && !q.refused && !q.closed && s.qNat qk (q.lrec + 224) 8 < l.cohorts &&
    (l.place = 0 || q.scan < l.cohorts) && 2 * used < 2 ^ q.rs.getD l.rpri 0 && !q.full l.rpri &&
    quarter < s.chain qk (quarter + 1) q.free

/-- The die may claim the cohort of a PLACE entry (R320, R322). -/
def placeMine (e modn die : Nat) : Bool :=
  !e.testBit 15 && (!e.testBit 12 || (e % 512 == modn && (!e.testBit 11 || e / 512 % 4 == die)))

/-- The first claimable entry from a scan position, and where the scan stands then. -/
def State.scanPlace (s : State) (qk : Nat) : Nat → Nat → Option Nat × Nat
  | 0, i => (none, i)
  | n + 1, i =>
    let l := (s.queueAt qk).launch
    if l.cohorts ≤ i then (none, i)
    else if placeMine (s.qNat qk (l.place + 8 * i) 8) s.modn (qk / 64) then (some i, i + 1)
    else s.scanPlace qk n (i + 1)

/-- The record of a claimed cohort: WALK counts it. -/
def State.makeRoot (s : State) (qk cohid : Nat) : State :=
  let q := s.queueAt qk
  let l := q.launch
  let walk := s.qNat qk (q.lrec + 224) 8
  let s := s.vaWrite (s.xlQueue qk) (q.lrec + 224) 8 (walk + 1)
  let s := s.makeRecord qk l.entry.toNat l.frame0.toNat 0 (l.rpri + l.rcls * 4 + 128) (BitVec.ofNat 64 cohid)
  s.oweOnce (.placementDecision (qk / 64))

def execRootRecordMake (die slot : Nat) (s : State) : Res :=
  let qk := 64 * die + slot
  let q := s.queueAt qk
  let l := q.launch
  .next <|
    if !s.canMake qk then s
    else
      let s1 :=
        if l.place = 0 then s.makeRoot qk (s.qNat qk (q.lrec + 224) 8)
        else
          let r := s.scanPlace qk 4096 q.scan
          let s := s.setQueueAt qk { q with scan := r.2 }
          match r.1 with
          | none => s
          | some i =>
            let a := l.place + 8 * i
            (s.vaWrite (s.xlQueue qk) a 8 (s.qNat qk a 8 ||| 0x8000)).makeRoot qk i
      if s1.canMake qk then s1.oweOnce (.rootRecordMake die slot) else s1

/-! ## PLACEMENT_DECISION (R321) -/

/-- The stack regions of a record: those it has, or free ones (R242). -/
def State.regionsFor (s : State) (qk rec n : Nat) : Option (List Nat) :=
  let h := s.queueAt (s.homeQueue qk rec)
  let mine := (h.regions.filter fun r => r.2 == h.index rec + 1).map (·.1)
  if n ≤ mine.length then some (mine.take n)
  else
    let l := s.freeRegions qk n
    if l.length = n then some l else none

/-- The record at the head of ring `pri` is placed, or passed over. -/
def State.placeRecord (s : State) (qk pri rec : Nat) : State :=
  let l := (s.queueAt qk).launch
  let ctl := s.recCtl qk rec
  let x := s.shape qk l (ctl / 4 % 16)
  let home := s.homeQueue qk rec
  let cohid := KMap.get 0#64 (s.queueAt home).cohids ((s.queueAt home).index rec)
  match s.regionsFor qk rec (x.teams * x.gangs), s.placeOn (qk / 64) l.fusel1 false (List.replicate x.teams x.need) with
  | some rs, some (c, cores) =>
    let code := s.qNat qk rec 8
    let frame := s.qNat qk (rec + 8) 8
    (((s.takeHead qk pri rec).unpin qk rec).startCohort qk rec c cores x code frame cohid (ctl.testBit 7) rs).wlcRetry qk
  | _, _ => s.passOver qk rec

/-- Slots of a die in the order of service: the highest priority, then round-robin after the slot served last. -/
def State.nextSlot (s : State) (die : Nat) : Option Nat :=
  let d := s.dieAt die
  let order := (List.range 64).map fun i => 64 * die + (d.last + 1 + i) % 64
  let rdy := order.filter s.readyQueue
  let top := rdy.foldl (fun m k => max m (s.queueAt k).qpri) 0
  rdy.find? fun k => (s.queueAt k).qpri == top

/-- Walks of the die that can make a record are owed their next one. -/
def State.oweRoots (s : State) (die : Nat) : State :=
  (List.range 64).foldl (fun s i => if s.canMake (64 * die + i) then s.oweOnce (.rootRecordMake die i) else s) s

def execPlacementDecision (die : Nat) (s : State) : Res :=
  .next <|
    match s.nextSlot die with
    | none => s.oweRoots die
    | some qk =>
      let s := s.setDieAt die { s.dieAt die with last := qk % 64 }
      let s1 :=
        match s.pickRing qk with
        | none => s
        | some (pri, rot) =>
          let s := s.setQueueAt qk { s.queueAt qk with rot := rot }
          match s.headOf qk pri with
          | some (_, some c) => s.oweOnce (.cohortRestore c)
          | some (rec, none) => s.placeRecord qk pri rec
          | none => s
      let s2 := s1.oweRoots die
      if (List.range 64).any fun i => s2.readyQueue (64 * die + i) then s2.oweOnce (.placementDecision die) else s2

/-! ## COHORT_RESTORE (R234, R353, R356, R357) -/

/-- What the restore waits for: the operations that the cohort issued before the save, and its stores (R234, R353). -/
def State.restoreWaits (s : State) (c : Nat) : Bool :=
  (s.cohortAt c).teams.any fun t =>
    ((s.teamAt t).colls.any (·.started)) || (s.teamAt t).gangs.any fun k => !(s.gangAt k).stores.isEmpty || !(s.gangAt k).pios.isEmpty

/-- What a gang that starts to issue again holds of its waits: they are issued again. -/
def Gang.resume (g : Gang) (slot : Nat) : Gang :=
  { g with
    slot := slot, probe := [], probed := false, ptags := [], far := [], farTags := [], asks := [], qans := none
    hold := match g.hold with
      | .exiting => .exiting
      | .sysc => .sysc
      | .vote => .vote
      | _ => .no }

/-- One gang is loaded; what it waits for outside itself is owed. -/
def State.resumeGang (s : State) (k slot : Nat) : State :=
  let g := (s.gangAt k).resume slot
  let s := (s.setGangAt k g).reissueRays k
  let s := if g.vcast.isSome then s.awaitVote k else s
  let s := if g.hold == .sysc && g.svent != 0#64 then s.owe [.syscAnswer k] else s
  if g.ended then s else { s with runq := s.runq ++ [k] }

/-- Slots recorded LANDED or FETCHING are fetched again (R91). -/
def Imem.refetch (m : Imem) : Imem :=
  { m with slots := m.slots.map fun p => if p.2.st == .landed then (p.1, { p.2 with st := .fetching }) else p }

/-- The segments owed to an IMEM window. -/
def Imem.oweList (m : Imem) (key : Nat) : List Instr :=
  m.slots.filterMap fun p => if p.2.st == .fetching then some (Instr.segmentLanded key p.1) else none

/-- One team is loaded on a core. -/
def State.resumeTeam (s : State) (t core : Nat) : State :=
  let tm := s.teamAt t
  let place := (freeRun (s.imemRuns core) tm.im.nseg).getD 0
  let slots := s.pickSlots core tm.gangs.length
  let im := { tm.im.refetch with place := place }
  let s := s.setTeamAt t { tm with status := .running, core := core, since := s.clock, im := im }
  let s := (tm.gangs.zipIdx).foldl (fun s p => s.resumeGang p.1 (slots.getD p.2 0)) s
  let s := s.setCoreAt core { s.coreAt core with resid := [] }
  let s := s.dropL1 (fun c => c == core || ((s.mxAt (clusterOf core)).fused && c == 8 * clusterOf core)) fun _ => true
  (s.logEvent (dieOf core) 0 core 0 tm.crec.toNat (s.cohortAt tm.cohort).cohid.toNat).owe (im.oweList t)

/-- The lintel section is restored (R352). -/
def State.resumeLintel (s : State) (c cluster : Nat) : State :=
  let co := s.cohortAt c
  match co.lintel with
  | none => s
  | some k =>
    let im := co.mxImem.refetch
    let s := s.setMxAt cluster { s.mxAt cluster with
      prog := some k, landing := none, valid := co.mxValid, kind := co.mxKind, red := co.mxRed, ops := [], h0 := co.mxAcc0, h1 := co.mxAcc1, im := im }
    let s := s.setGangAt k ((s.gangAt k).resume 0)
    let s := s.dropL1 (fun c => some c == s.l1Core k) fun _ => true
    { s with runq := s.runq ++ [k] }.owe (im.oweList (2 ^ 32 + cluster))

/-- The cohort's copies go on, in order (R355). -/
def State.resumeCopies (s : State) (ks : List Nat) : State :=
  let mine := ks.flatMap fun k => s.copies.filter fun c => c.gang == k && c.parked && !c.dead
  { s with copies := s.copies.map fun (c : Copy) => if ks.contains c.gang then { c with parked := false, wait := none } else c }.owe
    (mine.map fun (c : Copy) => .copyUnit c.id)

/-- What the cohort has observed and stored is performed everywhere before it goes on, and its new die has observed it
(R223, R224, R234). -/
def State.carryClock (s : State) (old new : Nat) : State :=
  if old = new then s
  else
    let c := s.clockOf old
    let s := s.force c
    s.setClock new ((List.range 4).map fun i => max (c.getD i 0) ((s.clockOf new).getD i 0))

/-- A saved cohort leaves its ring. -/
def State.leaveRing (s : State) (c : Nat) : State :=
  let co := s.cohortAt c
  match priorities.find? fun p => (s.headOf co.queue p).any fun h => h.2 == some c with
  | some p => s.takeHead co.queue p co.crec.toNat
  | none => s

/-- Where the cohort stands: at the head of a ring. -/
def State.atHead (s : State) (c : Nat) : Bool :=
  let co := s.cohortAt c
  priorities.any fun p => (s.headOf co.queue p).any fun h => h.2 == some c

def execCohortRestore (cohort : Nat) (s : State) : Res :=
  let co := s.cohortAt cohort
  let qk := co.queue
  .next <|
    if co.status != .ready || !(s.queueAt qk).bound || !s.atHead cohort then s
    else if s.restoreWaits cohort then s.oweOnce (.cohortRestore cohort)
    else
      match s.placeOn (qk / 64) (s.queueAt qk).launch.fusel1 co.lintel.isSome (co.teams.map s.needOf) with
      | none => (s.passOver qk co.crec.toNat).oweOnce (.placementDecision (qk / 64))
      | some (cl, cores) =>
        let s := ((s.leaveRing cohort).unpin qk co.crec.toNat).wlcRetry qk
        let s := s.carryClock (co.cluster / 12) (cl / 12)
        let s := s.setFused cl (s.queueAt qk).launch.fusel1
        let s := s.setCohortAt cohort { co with status := .running, cluster := cl, preempt := false, frames := [], dir := 0 }
        let s := (co.teams.zip cores).foldl (fun s p => s.resumeTeam p.1 p.2) s
        let s := s.resumeLintel cohort cl
        let s := s.resumeCopies (s.gangsOf cohort ++ co.lintel.toList)
        let s := s.poolFree (co.frames ++ [co.dir])
        let s := (s.gangsOf cohort ++ co.lintel.toList).foldl (fun s k => s.endCheck k) s
        s.cohortEnd cohort

/-! ## FAULT_ANSWERED and ENGINE_FAULT_ANSWERED (R343, R344, R419) -/

/-- ANS and ERR of a fault entry. -/
def State.entryAns (s : State) (die entry : Nat) : Bool × Bool :=
  let v := (s.vaNat (physXl die) (entry + 24) 1).getD 0
  (v.testBit 0, v.testBit 1)

/-- The team of a cohort that stood on the core a fault entry names. -/
def State.faultTeam (s : State) (c entry : Nat) : Nat :=
  let co := s.cohortAt c
  let core := (s.vaNat (physXl (queueDie co.queue)) (entry + 12) 2).getD 0 % 512
  (co.teams.find? fun t => (s.teamAt t).core == core).getD (co.teams.headD 0)

/-- All fault entries of a cohort are posted and answered. -/
def State.allAnswered (s : State) (c : Nat) : Bool :=
  let co := s.cohortAt c
  !co.posted.isEmpty && co.posted.all (fun p => (s.entryAns (queueDie co.queue) p.entry).1) && s.posts.all fun p => p.cohort != some c

/-- A cohort that stands on its cores goes on in place; a pre-emption that waited tries again (R347). -/
def State.goOn (s : State) (c : Nat) : State :=
  let co := s.cohortAt c
  let s := s.setCohortAt c { co with status := .running, posted := [] }
  let ks := (s.gangsOf c ++ co.lintel.toList).filter fun k => !(s.gangAt k).ended
  let s := ks.foldl (fun s k =>
    let s := s.setGangAt k ((s.gangAt k).resume (s.gangAt k).slot)
    let s := s.reissueRays k
    if (s.gangAt k).vcast.isSome then s.awaitVote k else s) s
  let s := ({ s with runq := s.runq ++ ks }).resumeCopies ks
  if co.preempt then s.save c else s

/-- KILN_DRAIN_TIMEOUT: a drain of 10 ms is given up; the unit returns untested and takes the next slot of the rotation. A cohort whose save
the drain began, and that still waits to be saved, goes on in place (R387; log entry 113, DEDUCED). -/
def State.undrainSaves (s : State) (cs : List Nat) : State :=
  cs.foldl (fun s c =>
    let co := s.cohortAt c
    if co.status == .saving && !co.preempt && co.pages.isEmpty && co.posted.isEmpty && s.posts.all fun p => p.cohort != some c then s.goOn c
    else s) s

def execKilnDrainTimeout (die : Nat) (matrix : Bool) (s : State) : Res :=
  let d := s.dieAt die
  .next <|
    match (if matrix then d.clusPass else d.corePass) with
    | none => s
    | some p =>
      if p.scanning || s.clock < p.start + micros 10000 then s
      else if matrix then
        let ask := if p.extra then d.clusAsk ++ [p.unit] else d.clusAsk
        let cs := (s.mxAt p.unit).prog.toList.map fun k => (s.teamAt (s.gangAt k).team).cohort
        (((s.setDieAt die { d with clusPass := none, clusAsk := ask }).undrainMx p.unit).undrainSaves cs).oweOnce (.placementDecision die)
      else
        let s := s.setDieAt die { d with corePass := none, coreRot := p.unit % 96 }
        let cores := s.passCores p.unit
        let cs := ((cores.flatMap s.teamsOn).map fun t => (s.teamAt t).cohort).eraseDups
        (((s.undrain cores).undrainSaves cs).kilnNext die).oweOnce (.placementDecision die)

def execFaultAnswered (cohort : Nat) (s : State) : Res :=
  let co := s.cohortAt cohort
  .next <|
    if !((co.status == .faulted || co.status == .saving) && s.allAnswered cohort) then s
    else
      match co.posted.find? fun p => (s.entryAns (queueDie co.queue) p.entry).2 with
      | some p =>
        let t := s.faultTeam cohort p.entry
        (s.setCohortAt cohort { co with posted := [] }).stopFault t p.va
      | none =>
        if co.frames.isEmpty then s.goOn cohort
        else
          let pri := s.recCtl co.queue co.crec.toNat % 4
          let s := s.setCohortAt cohort { co with status := .ready, posted := [] }
          (s.pushHead co.queue pri co.crec.toNat (some cohort)).oweOnce (.placementDecision (queueDie co.queue))

/-- An engine operation whose page cannot be provided is abandoned (R419). -/
def State.engineAbandon (s : State) (f : EngFault) : State :=
  match f.go with
  | .copyUnit id =>
    match s.copies.find? (·.id == id) with
    | some c => s.copyAbandon c f.va
    | none => s
  | .segmentLanded key slot =>
    let im := s.imemAt key
    let sl := im.slotAt slot
    let s := s.setImemAt key (im.setSlot slot { sl with st := .empty })
    if sl.by_ = 0 then s.stopTeam key (entryCause f.va) else s.abandon sl.by_ f.va
  | .lintelStart c =>
    match (s.mxAt c).landing with
    | some (k, word) => s.forkAbort c k word f.va
    | none => s
  | .mxOpComplete c id => s.mxAbandon c id f.va
  | .storePerformed k id =>
    -- a held store at its commit: the others are performed, then the gang takes the trap; or spilled lines
    let g := s.gangAt k
    if id = 0 then { s with spills := s.spills.filter fun p => p.2.1 / 131072 != f.va.toNat / 131072 }.abandon k f.va
    else
      let s := s.setGangAt k { g with commits := g.commits.filter fun (h : Held) => h.fault != some id }
      ((s.commitAll k g.commits.length).abandon k f.va).endCheck k
  | .collComplete _ grp _ => s.breakGroup grp []
  | .frameCollectiveData fr => s.breakGroup (frameGkey fr) []
  | .frameImageTiles fr => s.breakGroup (frameGkey fr) []
  | .meshRaster id =>
    match s.meshq.find? fun o => o.id == id with
    | some op =>
      let s := (s.meshRead op).sendQuads op.team []
      ((s.abandon op.gang f.va).endCheck op.gang).cohortEnd (s.teamAt op.team).cohort
    | none => s
  | .fragmentBlend k => (s.abandon f.gang f.va).pixelEnd k
  | .frameRead fr => s.refuse fr 1
  | .frameWrite fr => s.refuse fr 3
  | .frameAtomic fr => s.refuse fr 5
  | _ => s.abandon f.gang f.va

def execEngineFaultAnswered (id : Nat) (s : State) : Res :=
  .next <|
    match s.engFaults.find? fun f => f.id == id with
    | none => s
    | some f =>
      let a := s.entryAns (queueDie f.queue) f.entry
      if f.entry = 0 || !a.1 then s
      else
        let s := { s with engFaults := s.engFaults.filter fun x => x.id != id }
        if a.2 then s.engineAbandon f else s.owe [f.go]

/-! ## Advertisement and migration (R323) -/

def execFreeSlotAdvert (die : Nat) (far : Bool) (s : State) : Res :=
  let n := s.freeSlots die
  .next <|
    if far then
      { s with away := s.away ++ (s.queues.filterMap fun p =>
          if p.1 / 64 == die && p.2.bound && !p.2.refused then some (Away.advert p.2.lrec die n) else none) }
    else
      ((List.range 4).filter (· != die)).foldl (fun s e =>
        let d := s.dieAt e
        s.setDieAt e { d with advert := KMap.set 0 d.advert die n }) s

/-- Gangs of the cohort at a ring head. -/
def State.headGangs (s : State) (qk : Nat) (h : Nat × Option Nat) : Nat :=
  match h.2 with
  | some c => ((s.cohortAt c).teams.map fun t => (s.teamAt t).gangs.length).sum
  | none =>
    let x := s.shape qk (s.queueAt qk).launch (s.recCtl qk h.1 / 4 % 16)
    x.teams * x.gangs

/-- The queue instance of another die that a record would migrate to: that of the die advertising the most free slots, the
lowest-numbered of those that tie, among those that can hold the cohort. -/
def State.migrateTo (s : State) (qk n : Nat) : Option Nat :=
  let d := s.dieAt (qk / 64)
  let key := (s.queueAt qk).key
  let cands := (List.range 4).filterMap fun e =>
    let f := KMap.get 0 d.advert e
    if e == qk / 64 || f < n then none
    else (s.queues.find? fun p => p.1 / 64 == e && p.2.bound && !p.2.refused && p.2.key == key).map fun p => (f, p.1)
  (cands.foldl (fun (b : Option (Nat × Nat)) p => match b with
    | some x => if x.1 < p.1 then some p else b
    | none => some p) none).map (·.2)

/-- Queues of a launch. -/
def State.queuesOf (s : State) (key : Nat) : List Nat :=
  s.queues.filterMap fun p => if p.2.bound && !p.2.refused && p.2.key == key then some p.1 else none

/-- Records of a launch that live in the pools of this module. -/
def State.liveHere (s : State) (key : Nat) : Nat :=
  ((s.sameLaunch key).map fun p => 2 ^ p.2.ps - s.chain p.1 (2 ^ p.2.ps) p.2.free).sum

/-- Other modules take part in a launch: they hold records of it, or one of its groups has a member there. -/
def State.runsAway (s : State) (key : Nat) : Bool :=
  (s.queuesOf key).any fun k =>
    s.liveHere key < s.qNat k ((s.queueAt k).lrec + 232) 8 ||
      s.groups.any fun g => g.1 / 256 == key && g.2.places.any fun p => p.1 != s.modn

/-- The cohort of a record may leave the module: other modules run its launch, no team of it is a member of a group, and PLACE does not fix
where it runs (R323). -/
def State.mayLeave (s : State) (qk : Nat) (h : Nat × Option Nat) : Bool :=
  let q := s.queueAt qk
  let l := q.launch
  let home := s.queueAt (s.homeQueue qk h.1)
  let cohid := (KMap.get 0#64 home.cohids (home.index h.1)).toNat
  let root := (s.recCtl qk h.1).testBit 7
  s.runsAway q.key && !(root && (s.placeOf qk l cohid).isSome) &&
    match h.2 with
    | some c => (s.cohortAt c).teams.all fun t => (grpmList (s.teamAt t).grpm).isEmpty
    | none => !root || (List.range (s.shape qk l l.rcls).teams).all fun i => (grpmList (s.gmapAt qk l cohid i)).isEmpty

/-- A record leaves the ring of its queue for another module; what the die holds of a saved cohort goes with it (R323, R347). -/
def State.leaveModule (s : State) (qk pri : Nat) (h : Nat × Option Nat) : State :=
  let s := ((s.takeHead qk pri h.1).unpin qk h.1).wlcRetry qk
  match h.2 with
  | none => { s with away := s.away ++ [Away.record (s.queueAt qk).lrec h.1 []] }
  | some c =>
    let co := s.cohortAt c
    let s := { s with away := s.away ++ [Away.record (s.queueAt qk).lrec h.1 co.frames] }
    let s := s.poolFree (co.frames ++ (if co.dir = 0 then [] else [co.dir]))
    let s := co.teams.foldl (fun s t =>
      (s.teamAt t).gangs.foldl (fun s k => s.setGangAt k { s.gangAt k with ended := true })
        (s.setTeamAt t { s.teamAt t with status := .ended })) s
    s.setCohortAt c { co with status := .stopped, frames := [], dir := 0 }

/-- A record sets out for a queue instance of another die (R323). -/
def State.sendRecord (s : State) (qk dst : Nat) (h : Nat × Option Nat) : State :=
  { s with moving := s.moving ++ [(dst, h.1, qk)] }.owe [.migrationReceive (dst / 64) (dst % 64) h.1 h.2]

/-- The queue instance that an arriving record comes from, and the state in which it is under way no more. -/
def State.arrived (s : State) (qk record : Nat) : Nat × State :=
  match s.moving.find? fun m => m.1 == qk && m.2.1 == record with
  | some m => (m.2.2, { s with moving := s.moving.erase m })
  | none => (qk, s)

/-- MIGRATION_TRIGGER. What other modules have advertised this module does not know: whether one of them takes the record is free (log
entry 47, DESIGN CHOICE). -/
def execMigrationTrigger (die slot pri : Nat) (s : State) : Res :=
  let qk := 64 * die + slot
  let q := s.queueAt qk
  .next <|
    match s.headOf qk pri with
    | none => s
    | some h =>
      if !q.bound || s.clock < q.headAt.getD pri 0 + micros (s.dieAt die).migt then s
      else
        let away := if s.mayLeave qk h then s.freePick 2 else (0, s)
        let s := away.2
        if away.1 = 1 then s.leaveModule qk pri h
        else
        match s.migrateTo qk (s.headGangs qk h) with
        | none => s
        | some dst =>
          (((s.takeHead qk pri h.1).unpin qk h.1).wlcRetry qk).sendRecord qk dst h

/-- Room for one more entry at a priority. -/
def Queue.ringFull (q : Queue) (pri : Nat) : Bool :=
  (q.tail.getD pri 0 + 2 ^ 32 - q.head.getD pri 0) % 2 ^ 32 == 2 ^ q.rs.getD pri 0

/-- MIGRATION_RECEIVE: the record is appended, or the receiver is busy and it returns to the head of the sender's ring. -/
def execMigrationReceive (die slot record : Nat) (saved : Option Nat) (s : State) : Res :=
  let qk := 64 * die + slot
  let a := s.arrived qk record
  let sender := a.1
  let s := a.2
  let pri := s.recCtl sender record % 4
  let q := s.queueAt qk
  .next <|
    if !q.bound || q.key != (s.queueAt sender).key || q.ringFull pri then (s.pushHead sender pri record saved).oweOnce (.placementDecision (queueDie sender))
    else
      let s := match saved with
        | some c => s.setCohortAt c { s.cohortAt c with queue := qk }
        | none => s
      (s.enqueue qk (q.index record) pri).oweOnce (.placementDecision die)

/-! ## QDT_WAVE (R329; log entry 39, DEDUCED) -/

/-- Cohorts of a launch that keep it from being quiescent: those not ended that are not ready records, unless all their gangs
wait in QDONE. -/
def State.busyCohorts (s : State) (key : Nat) : Bool :=
  s.cohorts.any fun p =>
    (s.queueAt p.2.queue).key == key && p.2.status != .stopped && p.2.status != .ready &&
      !(p.2.status == .running && (s.gangsOf p.1).all fun k => (s.gangAt k).ended || (s.gangAt k).hold == .qdone)

/-- What a wave sees on this module: no running team outside QDONE, no ready record, and nothing in flight. -/
def State.zeroHere (s : State) (key : Nat) : Bool :=
  !s.busyCohorts key && (s.slotted.all fun f => f.aux % 2 ^ 80 != key) &&
    (s.queuesOf key).all fun k => priorities.all fun p => (s.headOf k p).isNone

/-- A wave over the module and over the others that run the launch: what these count, and the totals of records sent and received with
theirs, this module does not know: it is free (log entry 58, DESIGN CHOICE). -/
def State.waveZero (s : State) (key : Nat) : Bool × State :=
  let q := KMap.get {} s.qdt key
  if !s.zeroHere key then (false, s)
  else if s.runsAway key then
    let p := s.freePick 2
    (p.1 == 0, p.2)
  else (q.sent == q.rcvd, s)

/-- The gangs in QDONE of a launch's teams are answered with true (R208). -/
def State.answerQdone (s : State) (key : Nat) : State :=
  s.teams.foldl (fun s p =>
    if p.2.status == .running && (s.queueOf p.1).key == key then
      p.2.gangs.foldl (fun s k =>
        let g := s.gangAt k
        if g.hold == .qdone then s.setGangAt k { g with qans := some true } else s) s
    else s) s

/-- Lists of a launch that hold items: queue, table and number. -/
def State.fullLists (s : State) (key : Nat) : List (Nat × Nat × Nat) :=
  match s.queuesOf key with
  | [] => []
  | qk :: _ =>
    let tab := (s.queueAt qk).launch.wltab
    if tab = 0 then []
    else (List.range (s.qNat qk tab 2)).filterMap fun i =>
      if (s.wlist qk tab i).items = 0 then none else some (s.listQueue qk tab i, tab, i)

def execQdtWave (launch : Nat) (s : State) : Res :=
  let q := KMap.get {} s.qdt launch
  .next <|
    if (s.queuesOf launch).isEmpty then s
    else
    let w := s.waveZero launch
    let s := w.2
    if !w.1 then { s with qdt := KMap.set {} s.qdt launch { q with zero := false } }
    else if !q.zero then { s with qdt := KMap.set {} s.qdt launch { q with zero := true } }
    else
      let s := { s with qdt := KMap.set {} s.qdt launch { q with zero := false } }
      match s.fullLists launch with
      | [] => s.answerQdone launch
      | l => l.foldl (fun s p => (s.wlcTry p.1 p.2.1 p.2.2 true 256).oweOnce (.placementDecision (p.1 / 64))) s

/-! ## WLC_FLUSH_TIMER (R325) -/

def execWlcFlushTimer (die slot list : Nat) (s : State) : Res :=
  let qk := 64 * die + slot
  let tab := (s.queueAt qk).launch.wltab
  .next <|
    if tab = 0 then s
    else
      match KMap.get [] (s.queueAt qk).appended list with
      | [] => s
      | c :: _ =>
        if s.clock < c + (s.wlist qk tab list).flush then s
        else (s.wlcTry qk tab list true 256).oweOnce (.placementDecision die)

/-! ## SHOOTDOWN_REQUEST (R341) -/

/-- The entry meets the range; the whole context when it has no length. -/
def TlbEnt.meets (t : TlbEnt) (ctxn va len : Nat) : Bool :=
  t.ctxn == ctxn && (len == 0 || (t.base < va + len && va < t.base + 2 ^ t.bits))

def execShootdownRequest (die slot : Nat) (s : State) : Res :=
  let q := s.queueAt (64 * die + slot)
  let n := fun off len => (s.vaNat (physXl die) (q.ctx.blk + off) len).getD 0
  let seq := n 72 4
  .next <|
    if !q.bound || seq = n 76 4 then s
    else
      let s1 := (List.range 4).foldl (fun s e =>
        let d := s.dieAt e
        s.setDieAt e { d with tlb := d.tlb.filter fun t => !t.meets q.ctx.ctxn (n 48 9) (n 64 8) }) s
      -- every access that used an entry is performed at MOD
      let s2 := { s1 with log := s1.log.map fun (e : StoreEnt) => { e with seen := 15#4 } }.fold
      s2.vaRelease (physXl die) 6 (q.ctx.blk + 76) 4 seq

end Sys2Proof.Machine
end

