-- ==== Sys2Proof/Machine/Exchange.lean ====
section
/-! DEFINITION. Lane exchange and reduction (R63, R140 to R148). "Active lanes" here are the lanes with an effect. -/

namespace Sys2Proof.Machine

/-- The operand A of a lane, cut to `w` bits. -/
def Gang.laneN (g : Gang) (x : BitVec 6) (wide : Bool) (w l : Nat) : Nat := (g.src x wide l).toNat % 2 ^ w

/-! ## SHFL, SHFLX, BCAST (R142, R143) -/

/-- The lane SHFL reads (R142). -/
def shflLane (mode n l : Nat) : Nat :=
  match mode with
  | 0 => n % 32
  | 1 => if n ≤ l then l - n else l
  | 2 => if l + n ≤ 31 then l + n else l
  | _ => l ^^^ (n % 32)

/-- SHFL. The index is one 32-bit register whatever FX[49] says (log entry 107, DESIGN CHOICE). -/
def execShfl (f : ClassA) (s : State) : Res :=
  let w := f.h.fx.getLsbD 1
  .next <|
    if f.bcast && s.gang.busyG f.b.toNat then s
    else
      s.aluLane f.h f.d w ([Use.of f.a w] ++ (if f.bcast then [] else [Use.of f.b false])) false fun g l =>
        { val := (g.anyLane f.a w (shflLane (f.mod.extractLsb' 0 2).toNat (g.srcB f false l).toNat l)) }

/-- SHFLX. The index is one 32-bit register (log entry 107, DESIGN CHOICE). -/
def execShflx (f : ClassA) (s : State) : Res :=
  let w := f.h.fx.getLsbD 1
  .next (s.aluLane f.h f.d w [Use.of f.a w, Use.of f.b w, Use.of f.c false] false fun g l =>
    let n := (g.src f.c false l).toNat % 64
    { val := if n < 32 then g.anyLane f.a w n else g.anyLane f.b w (n - 32) })

def execBcast (f : ClassA) (s : State) : Res :=
  let w := f.h.fx.getLsbD 1
  .next (s.aluLane f.h f.d w [Use.of f.a w] false fun g _ => { val := g.anyLane f.a w (f.mod.extractLsb' 0 5).toNat })

/-! ## VOTE and MATCH (R144, R145) -/

/-- ANY, ALL, UNI over the lanes given. -/
def voteOf (mode : Nat) (ps : List Bool) : Bool :=
  match mode with
  | 1 => ps.any id
  | 2 => ps.all id
  | _ => ps.all id || ps.all (!·)

def execVote (f : ClassA) (s : State) : Res :=
  let mode := (f.mod.extractLsb' 0 2).toNat
  let ls := s.gang.effLanes s.pt f.h
  .next <|
    if mode = 0 then
      s.aluLane f.h f.d false [] false fun g _ =>
        { val := (maskOf fun l => ls.contains l && g.kAt f.a.toNat l).setWidth 64 }
    else
      s.predLane f.h f.d [] false fun g _ => (voteOf mode (ls.map (g.kAt f.a.toNat)), 0#64)

def execMatchLanes (f : ClassA) (s : State) : Res :=
  let w := f.h.fx.getLsbD 1
  let ls := s.gang.effLanes s.pt f.h
  .next (s.aluLane f.h f.d false [Use.of f.a w] false fun g l =>
    { val := (maskOf fun j => ls.contains j && g.src f.a w j == g.src f.a w l).setWidth 64 })

/-! ## RED, SCAN, REDIX (R63, R146 to R148) -/

/-- The float format of TYP: 2 F32, 3 F16, 4 BF16; none for an integer type. -/
def typFmt (typ : Nat) : Option FFmt :=
  match typ with
  | 2 => some fmtF32
  | 3 => some fmtF16
  | 4 => some fmtBF16
  | _ => none

/-- One integer combination (R146). -/
def intStep (opr : Nat) (signed : Bool) (w a b : Nat) : Nat :=
  match opr with
  | 0 => (a + b) % 2 ^ w
  | 1 => if asInt signed w a ≤ asInt signed w b then a else b
  | 2 => if asInt signed w a ≤ asInt signed w b then b else a
  | 3 => a &&& b
  | 4 => a ||| b
  | _ => a ^^^ b

/-- The identity of an integer operation (R147). -/
def intIdentity (opr : Nat) (signed : Bool) (w : Nat) : Nat :=
  match opr with
  | 1 => if signed then 2 ^ (w - 1) - 1 else 2 ^ w - 1
  | 2 => if signed then 2 ^ (w - 1) else 0
  | 3 => 2 ^ w - 1
  | _ => 0

def intFold (opr : Nat) (signed : Bool) (w : Nat) (l : List Nat) : Nat :=
  l.foldl (intStep opr signed w) (intIdentity opr signed w)

/-- MIN or MAX of float values: NaN operands lose, a result that is NaN is canonical (R41, R130, R146); the identity
for no operand is +∞ or -∞ (R147). -/
def floatMinMax (f : FFmt) (isMax : Bool) (l : List Nat) : Nat × DWord :=
  match l with
  | [] => (f.signed isMax f.infMag, 0#64)
  | x :: r =>
    let m := r.foldl (fun a b => (f.minMax isMax a b).1) x
    (if (f.decode m).isNan then f.nan else m, snanFlag (l.map f.decode))

/-- One level of the tree of R63: pairs are added, a node with one operand passes it up. -/
def treeLevel : List (Option Nat) → List (Option Nat) × DWord
  | a :: b :: r =>
    let p := treeLevel r
    match a, b with
    | some x, some y => (some (xfAdd x y).1 :: p.1, (xfAdd x y).2 ||| p.2)
    | some x, none => (some x :: p.1, p.2)
    | none, y => (y :: p.1, p.2)
  | l => (l, 0#64)

/-- n levels. -/
def tree : Nat → List (Option Nat) → List (Option Nat) × DWord
  | 0, l => (l, 0#64)
  | n + 1, l =>
    let p := treeLevel l
    let q := tree n p.1
    (q.1, p.2 ||| q.2)

/-- RED.ADD on a float type: `l` has an operand for every lane with an effect (R63, R146). -/
def redAdd (f : FFmt) (mode : RMode) (l : List (Option Nat)) : Nat × DWord :=
  let xs := l.map fun o => o.map (toXf f)
  let fl := xs.foldl (fun m o => m ||| (o.map (·.2)).getD 0#64) 0#64
  let t := tree 5 (xs.map fun o => o.map (·.1))
  match t.1 with
  | some x :: _ =>
    let r := fromXf f mode x
    (r.1, fl ||| t.2 ||| r.2)
  | _ => (0, fl ||| t.2)

/-- The result of RED over the lanes given (R63, R146). -/
def redOf (f : ClassA) (g : Gang) (ls : List Nat) : LaneOut :=
  let w := f.h.fx.getLsbD 1
  let r : Nat × DWord :=
    match typFmt f.typ.toNat with
    | none => (intFold f.opr.toNat (f.typ.toNat == 1) (if w then 64 else 32) (ls.map (g.laneN f.a w (if w then 64 else 32))), 0#64)
    | some t =>
      let vals := g.laneN f.a false t.width
      if f.opr.toNat = 0 then
        redAdd t (RMode.of f.redRnd.toNat) (lanes.map fun l => if ls.contains l then some (vals l) else none)
      else floatMinMax t (f.opr.toNat == 2) (ls.map vals)
  { val := BitVec.ofNat 64 r.1, flags := r.2 }

def execRed (f : ClassA) (s : State) : Res :=
  let w := f.h.fx.getLsbD 1
  let ls := s.gang.effLanes s.pt f.h
  .next (s.aluLane f.h f.d w [Use.of f.a w] (4 ≤ f.redRnd.toNat) fun g _ => redOf f g ls)

/-- Running XF sums after each operand, in order, with the flags so far (R63). -/
def runningSums (f : FFmt) : Option Nat → DWord → List Nat → List (Nat × DWord)
  | _, _, [] => []
  | acc, fl, x :: r =>
    let y := toXf f x
    let p := match acc with
      | none => (y.1, fl ||| y.2)
      | some a => ((xfAdd a y.1).1, fl ||| y.2 ||| (xfAdd a y.1).2)
    p :: runningSums f (some p.1) p.2 r

/-- A lane's output of SCAN from the operands in its range, in lane order (R147). -/
def scanOne (f : ClassA) (w : Bool) (vals : List Nat) : LaneOut :=
  let r : Nat × DWord :=
    match typFmt f.typ.toNat with
    | none => (intFold f.opr.toNat (f.typ.toNat == 1) (if w then 64 else 32) vals, 0#64)
    | some t =>
      if f.opr.toNat = 0 then
        match (runningSums t none 0#64 vals).getLast? with
        | none => (0, 0#64)
        | some x =>
          let y := fromXf t (RMode.of f.redRnd.toNat) x.1
          (y.1, x.2 ||| y.2)
      else floatMinMax t (f.opr.toNat == 2) vals
  { val := BitVec.ofNat 64 r.1, flags := r.2 }

/-- The result of SCAN in lane `l` over the lanes given (R147). -/
def scanOf (f : ClassA) (g : Gang) (ls : List Nat) (l : Nat) : LaneOut :=
  let w := f.h.fx.getLsbD 1
  let wd := match typFmt f.typ.toNat with
    | none => if w then 64 else 32
    | some t => t.width
  scanOne f w ((ls.filter fun j => if f.mod.getLsbD 7 then j < l else j ≤ l).map (g.laneN f.a w wd))

def execScan (f : ClassA) (s : State) : Res :=
  let w := f.h.fx.getLsbD 1
  let ls := s.gang.effLanes s.pt f.h
  .next (s.aluLane f.h f.d w [Use.of f.a w] (4 ≤ f.redRnd.toNat) fun g l => scanOf f g ls l)

/-- a ranks strictly above b: for MAX the larger, for MIN the smaller value (R42, R148). -/
def redixBeats (isMin isF32 signed : Bool) (a b : Nat) : Bool :=
  let c : Int :=
    if isF32 then (fmtF32.decode a).cmp true (fmtF32.decode b)
    else if asInt signed 32 a < asInt signed 32 b then -1
    else if asInt signed 32 b < asInt signed 32 a then 1
    else 0
  if isMin then decide (c < 0) else decide (0 < c)

/-- Value and lane index of REDIX (R148). -/
def redix (isMin isF32 signed : Bool) (vals : Nat → Nat) (ls : List Nat) : Nat × Nat × DWord :=
  match (if isF32 then ls.find? fun l => (fmtF32.decode (vals l)).isNan else none) with
  | some l => (fmtF32.nan, l, snanFlag (ls.map fun l => fmtF32.decode (vals l)))
  | none =>
    let best := ls.foldl (fun b l => if redixBeats isMin isF32 signed (vals l) (vals b) then l else b) (ls.headD 0)
    (vals best, best, 0#64)

/-- The pair that REDIX gives over the lanes given (R148). -/
def redixOf (f : ClassA) (g : Gang) (ls : List Nat) : LaneOut :=
  let r := redix (f.opr.toNat == 1) (f.typ.toNat == 2) (f.typ.toNat == 1) (g.laneN f.a false 32) ls
  { val := BitVec.ofNat 64 (r.1 + 2 ^ 32 * r.2.1), flags := r.2.2 }

def execRedix (f : ClassA) (s : State) : Res :=
  let ls := s.gang.effLanes s.pt f.h
  .next (s.aluLane f.h f.d true [Use.of f.a false] false fun g _ => redixOf f g ls)

end Sys2Proof.Machine
end

