-- ==== Sys2Proof/Machine/Integer.lean ====
section
/-! DEFINITION. Integer instructions (R118 to R126): lane and group forms of classes A and I, LEA, and the moves into and
out of the address registers. -/

namespace Sys2Proof.Machine

/-! ## Arithmetic on W bits (R120 to R122) -/

/-- W (R118). -/
def width (wide : Bool) : Nat := if wide then 64 else 32

/-- An operand of W bits as a number. -/
def opN (wide : Bool) (x : DWord) : Nat := x.toNat % 2 ^ width wide

/-- A number as a result of W bits. -/
def resN (wide : Bool) (n : Nat) : DWord := BitVec.ofNat 64 (n % 2 ^ width wide)

def resI (wide : Bool) (i : Int) : DWord := BitVec.ofNat 64 (wrap (width wide) i)

def addSat (sat signed wide : Bool) (a b : DWord) : LaneOut :=
  let w := width wide
  let i := asInt signed w a.toNat + asInt signed w b.toNat
  if sat then
    let r := saturate signed w i
    { val := BitVec.ofNat 64 r.1, flags := r.2 }
  else { val := resI wide i }

def subSat (sat signed wide : Bool) (a b : DWord) : LaneOut :=
  let w := width wide
  let i := asInt signed w a.toNat - asInt signed w b.toNat
  if sat then
    let r := saturate signed w i
    { val := BitVec.ofNat 64 r.1, flags := r.2 }
  else { val := resI wide i }

def mulLow (wide : Bool) (a b : DWord) : DWord := resN wide (opN wide a * opN wide b)

def mulHigh (signed wide : Bool) (a b : DWord) : DWord :=
  let w := width wide
  BitVec.ofNat 64 (wrap (2 * w) (asInt signed w a.toNat * asInt signed w b.toNat) / 2 ^ w)

def mulAdd (wide : Bool) (a b c : DWord) : DWord := resN wide (opN wide a * opN wide b + opN wide c)

/-- Quotient rounded toward zero; all ones for a zero divisor; the most negative number over -1 gives itself (R121). -/
def divQ (signed wide : Bool) (a b : DWord) : DWord :=
  let w := width wide
  if opN wide b = 0 then resN wide (2 ^ w - 1)
  else resI wide ((asInt signed w a.toNat).tdiv (asInt signed w b.toNat))

/-- a - b q; the dividend for a zero divisor (R121). -/
def divR (signed wide : Bool) (a b : DWord) : DWord :=
  let w := width wide
  if opN wide b = 0 then resN wide (opN wide a)
  else resI wide ((asInt signed w a.toNat).tmod (asInt signed w b.toNat))

def minOf (signed wide : Bool) (a b : DWord) : DWord :=
  if asInt signed (width wide) a.toNat ≤ asInt signed (width wide) b.toNat then resN wide a.toNat else resN wide b.toNat

def maxOf (signed wide : Bool) (a b : DWord) : DWord :=
  if asInt signed (width wide) a.toNat ≤ asInt signed (width wide) b.toNat then resN wide b.toNat else resN wide a.toNat

def shlOf (wide : Bool) (a b : DWord) : DWord :=
  if width wide ≤ opN wide b then 0#64 else resN wide (opN wide a <<< opN wide b)

def shrOf (wide : Bool) (a b : DWord) : DWord :=
  if width wide ≤ opN wide b then 0#64 else resN wide (opN wide a >>> opN wide b)

def sarOf (wide : Bool) (a b : DWord) : DWord :=
  let w := width wide
  resI wide (asInt true w a.toNat / 2 ^ min (opN wide b) w)

def rotOf (wide : Bool) (a b : DWord) : DWord :=
  let w := width wide
  let n := opN wide b % w
  resN wide ((opN wide a <<< n) ||| (opN wide a >>> (w - n)))

/-- BFE (R122). -/
def bfeOf (signed wide : Bool) (a b c : DWord) : DWord :=
  let w := width wide
  let o := min (b.toNat % 256) w
  let n := min (c.toNat % 256) (w - o)
  let f := (opN wide a >>> o) % 2 ^ n
  if signed && 0 < n then resI wide (asInt true n f) else resN wide f

/-- BFI (R122). -/
def bfiOf (wide : Bool) (a b c : DWord) : DWord :=
  let w := width wide
  let o := min (b.toNat % 256) w
  let n := min (b.toNat / 256 % 256) (w - o)
  let m := (2 ^ n - 1) <<< o
  resN wide ((opN wide c &&& (2 ^ w - 1 - m % 2 ^ w)) ||| ((opN wide a &&& (2 ^ n - 1)) <<< o))

/-- Comparison codes 0 EQ to 5 GE (R77). -/
def compareI (cond : Nat) (a b : Int) : Bool :=
  match cond with
  | 0 => a == b
  | 1 => a != b
  | 2 => decide (a < b)
  | 3 => decide (a ≤ b)
  | 4 => decide (b < a)
  | _ => decide (b ≤ a)

def absOfInt (wide : Bool) (a : DWord) : DWord :=
  let i := asInt true (width wide) a.toNat
  if 0 ≤ i then resI wide i else resI wide (-i)

def negOf (wide : Bool) (a : DWord) : DWord := resI wide (-(opN wide a : Int))
def notOf (wide : Bool) (a : DWord) : DWord := resN wide (2 ^ width wide - 1 - opN wide a)

def popcOf (wide : Bool) (a : DWord) : DWord :=
  BitVec.ofNat 64 (((List.range (width wide)).filter fun i => a.getLsbD i).length)

def clzOf (wide : Bool) (a : DWord) : DWord :=
  let w := width wide
  match (List.range w).find? fun i => a.getLsbD (w - 1 - i) with
  | some i => BitVec.ofNat 64 i
  | none => BitVec.ofNat 64 w

def ctzOf (wide : Bool) (a : DWord) : DWord :=
  let w := width wide
  match (List.range w).find? fun i => a.getLsbD i with
  | some i => BitVec.ofNat 64 i
  | none => BitVec.ofNat 64 w

def brevOf (wide : Bool) (a : DWord) : DWord :=
  let w := width wide
  (List.range w).foldl (fun m i => if a.getLsbD i then m ||| (1#64 <<< (w - 1 - i)) else m) 0#64

/-! ## Forms (R118, R119, R124) -/

/-- A group result of 32 bits is extended to 64 by FX[48] (R118). -/
def extendG (signed wide : Bool) (x : DWord) : DWord :=
  if wide then x else if signed then (x.truncate 32).signExtend 64 else (x.truncate 32).setWidth 64

def extendOut (h : Header) (o : LaneOut) : LaneOut := { o with val := extendG (h.fx.getLsbD 0) (h.fx.getLsbD 1) o.val }

/-- A class-A integer form of three sources; `nb`, `nc` tell whether B and C are read. -/
def State.intA (s : State) (f : ClassA) (nb nc : Bool) (op : DWord → DWord → DWord → LaneOut) : State :=
  let w := f.h.fx.getLsbD 1
  if f.h.g then
    s.aluGroup f.h f.d ([f.a.toNat] ++ (if nb then [f.b.toNat] else []) ++ (if nc then [f.c.toNat] else [])) false fun g =>
      extendOut f.h (op (g.gsrc f.a w) (g.gsrc f.b w) (g.gsrc f.c w))
  else
    let srcs := [Use.of f.a w] ++ (if nb && !f.bcast then [Use.of f.b w] else []) ++ (if nc then [Use.of f.c w] else [])
    if nb && f.bcast && s.gang.busyG f.b.toNat then s
    else s.aluLane f.h f.d w srcs false fun g l => op (g.src f.a w l) (g.srcB f w l) (g.src f.c w l)

/-- A result without flags. -/
def out (x : DWord) : LaneOut := { val := x }

/-- IMM32 extended to 64 bits by FX[48] (R77). -/
def immOf (f : ClassI) : DWord := if f.h.fx.getLsbD 0 then f.imm.signExtend 64 else f.imm.setWidth 64

/-- A class-I form (R124). -/
def State.intI (s : State) (f : ClassI) (op : DWord → DWord → LaneOut) : State :=
  let w := f.h.fx.getLsbD 1
  if f.h.g then s.aluGroup f.h f.d [f.a.toNat] false fun g => extendOut f.h (op (g.gsrc f.a w) (immOf f))
  else s.aluLane f.h f.d w [Use.of f.a w] false fun g l => op (g.src f.a w l) (immOf f)

def execIadd (f : ClassA) (s : State) : Res :=
  .next (s.intA f true false fun a b _ => addSat (f.mod.getLsbD 4) (f.h.fx.getLsbD 0) (f.h.fx.getLsbD 1) a b)

def execIsub (f : ClassA) (s : State) : Res :=
  .next (s.intA f true false fun a b _ => subSat (f.mod.getLsbD 4) (f.h.fx.getLsbD 0) (f.h.fx.getLsbD 1) a b)

def execImul (f : ClassA) (s : State) : Res :=
  .next (s.intA f true false fun a b _ => out (mulLow (f.h.fx.getLsbD 1) a b))

def execImulh (f : ClassA) (s : State) : Res :=
  .next (s.intA f true false fun a b _ => out (mulHigh (f.h.fx.getLsbD 0) (f.h.fx.getLsbD 1) a b))

def execImad (f : ClassA) (s : State) : Res :=
  .next (s.intA f true true fun a b c => out (mulAdd (f.h.fx.getLsbD 1) a b c))

def execIdiv (f : ClassA) (s : State) : Res :=
  .next (s.intA f true false fun a b _ => out (divQ (f.h.fx.getLsbD 0) (f.h.fx.getLsbD 1) a b))

def execIrem (f : ClassA) (s : State) : Res :=
  .next (s.intA f true false fun a b _ => out (divR (f.h.fx.getLsbD 0) (f.h.fx.getLsbD 1) a b))

def execImin (f : ClassA) (s : State) : Res :=
  .next (s.intA f true false fun a b _ => out (minOf (f.h.fx.getLsbD 0) (f.h.fx.getLsbD 1) a b))

def execImax (f : ClassA) (s : State) : Res :=
  .next (s.intA f true false fun a b _ => out (maxOf (f.h.fx.getLsbD 0) (f.h.fx.getLsbD 1) a b))

def execIand (f : ClassA) (s : State) : Res :=
  .next (s.intA f true false fun a b _ => out (a &&& b))

def execIor (f : ClassA) (s : State) : Res :=
  .next (s.intA f true false fun a b _ => out (a ||| b))

def execIxor (f : ClassA) (s : State) : Res :=
  .next (s.intA f true false fun a b _ => out (a ^^^ b))

def execIandn (f : ClassA) (s : State) : Res :=
  .next (s.intA f true false fun a b _ => out (a &&& ~~~b))

def execShl (f : ClassA) (s : State) : Res :=
  .next (s.intA f true false fun a b _ => out (shlOf (f.h.fx.getLsbD 1) a b))

def execShr (f : ClassA) (s : State) : Res :=
  .next (s.intA f true false fun a b _ => out (shrOf (f.h.fx.getLsbD 1) a b))

def execSar (f : ClassA) (s : State) : Res :=
  .next (s.intA f true false fun a b _ => out (sarOf (f.h.fx.getLsbD 1) a b))

def execRot (f : ClassA) (s : State) : Res :=
  .next (s.intA f true false fun a b _ => out (rotOf (f.h.fx.getLsbD 1) a b))

def execBfe (f : ClassA) (s : State) : Res :=
  .next (s.intA f true true fun a b c => out (bfeOf (f.h.fx.getLsbD 0) (f.h.fx.getLsbD 1) a b c))

def execBfi (f : ClassA) (s : State) : Res :=
  .next (s.intA f true true fun a b c => out (bfiOf (f.h.fx.getLsbD 1) a b c))

def execMov (f : ClassA) (s : State) : Res :=
  .next (s.intA f false false fun a _ _ => out a)

def execIabs (f : ClassA) (s : State) : Res :=
  .next (s.intA f false false fun a _ _ => out (absOfInt (f.h.fx.getLsbD 1) a))

def execIneg (f : ClassA) (s : State) : Res :=
  .next (s.intA f false false fun a _ _ => out (negOf (f.h.fx.getLsbD 1) a))

def execInot (f : ClassA) (s : State) : Res :=
  .next (s.intA f false false fun a _ _ => out (notOf (f.h.fx.getLsbD 1) a))

def execPopc (f : ClassA) (s : State) : Res :=
  .next (s.intA f false false fun a _ _ => out (popcOf (f.h.fx.getLsbD 1) a))

def execClz (f : ClassA) (s : State) : Res :=
  .next (s.intA f false false fun a _ _ => out (clzOf (f.h.fx.getLsbD 1) a))

def execCtz (f : ClassA) (s : State) : Res :=
  .next (s.intA f false false fun a _ _ => out (ctzOf (f.h.fx.getLsbD 1) a))

def execBrev (f : ClassA) (s : State) : Res :=
  .next (s.intA f false false fun a _ _ => out (brevOf (f.h.fx.getLsbD 1) a))

/-! ## Immediate forms (R124) -/

def execIaddImm (f : ClassI) (s : State) : Res := .next (s.intI f fun a b => addSat false (f.h.fx.getLsbD 0) (f.h.fx.getLsbD 1) a b)

def execIsubImm (f : ClassI) (s : State) : Res := .next (s.intI f fun a b => subSat false (f.h.fx.getLsbD 0) (f.h.fx.getLsbD 1) a b)

def execImulImm (f : ClassI) (s : State) : Res := .next (s.intI f fun a b => out (mulLow (f.h.fx.getLsbD 1) a b))

def execIminImm (f : ClassI) (s : State) : Res := .next (s.intI f fun a b => out (minOf (f.h.fx.getLsbD 0) (f.h.fx.getLsbD 1) a b))

def execImaxImm (f : ClassI) (s : State) : Res := .next (s.intI f fun a b => out (maxOf (f.h.fx.getLsbD 0) (f.h.fx.getLsbD 1) a b))

def execAndImm (f : ClassI) (s : State) : Res := .next (s.intI f fun a b => out (a &&& b))

def execOrImm (f : ClassI) (s : State) : Res := .next (s.intI f fun a b => out (a ||| b))

def execXorImm (f : ClassI) (s : State) : Res := .next (s.intI f fun a b => out (a ^^^ b))

def execAndnImm (f : ClassI) (s : State) : Res := .next (s.intI f fun a b => out (a &&& ~~~b))

def execShlImm (f : ClassI) (s : State) : Res := .next (s.intI f fun a b => out (shlOf (f.h.fx.getLsbD 1) a b))

def execShrImm (f : ClassI) (s : State) : Res := .next (s.intI f fun a b => out (shrOf (f.h.fx.getLsbD 1) a b))

def execSarImm (f : ClassI) (s : State) : Res := .next (s.intI f fun a b => out (sarOf (f.h.fx.getLsbD 1) a b))

def execRotImm (f : ClassI) (s : State) : Res := .next (s.intI f fun a b => out (rotOf (f.h.fx.getLsbD 1) a b))

/-! ## Comparison and selection (R123) -/

def execIcmp (f : ClassA) (s : State) : Res :=
  let w := f.h.fx.getLsbD 1
  let cmp := fun a b : DWord =>
    compareI f.condBits.toNat (asInt (f.h.fx.getLsbD 0) (width w) a.toNat) (asInt (f.h.fx.getLsbD 0) (width w) b.toNat)
  .next <|
    if f.h.g then s.predGroup f.h f.d [f.a.toNat, f.b.toNat] false fun g => (cmp (g.gsrc f.a w) (g.gsrc f.b w), 0#64)
    else if f.bcast && s.gang.busyG f.b.toNat then s
    else
      s.predLane f.h f.d ([Use.of f.a w] ++ (if f.bcast then [] else [Use.of f.b w])) false fun g l =>
        (cmp (g.src f.a w l) (g.srcB f w l), 0#64)

def execIcmpImm (f : ClassI) (s : State) : Res :=
  let w := f.h.fx.getLsbD 1
  let cmp := fun a : DWord =>
    compareI f.mod4.toNat (asInt (f.h.fx.getLsbD 0) (width w) a.toNat)
      (asInt (f.h.fx.getLsbD 0) (width w) (immOf f).toNat)
  .next <|
    if f.h.g then s.predGroup f.h f.d [f.a.toNat] false fun g => (cmp (g.gsrc f.a w), 0#64)
    else s.predLane f.h f.d [Use.of f.a w] false fun g l => (cmp (g.src f.a w l), 0#64)

def execSel (f : ClassA) (s : State) : Res :=
  let w := f.h.fx.getLsbD 1
  .next <|
    if f.h.g then
      s.aluGroup f.h f.d [f.a.toNat, f.b.toNat] false fun g =>
        extendOut f.h (out (if g.gpAt f.c.toNat then g.gsrc f.a w else g.gsrc f.b w))
    else if f.bcast && s.gang.busyG f.b.toNat then s
    else
      s.aluLane f.h f.d w ([Use.of f.a w] ++ (if f.bcast then [] else [Use.of f.b w])) false fun g l =>
        out (if g.kAt f.c.toNat l then g.src f.a w l else g.srcB f w l)

/-! ## MOVI and MOVH (R124) -/

def execMovi (f : ClassI) (s : State) : Res :=
  let w := f.h.fx.getLsbD 1
  .next <|
    if f.h.g then s.aluGroup f.h f.d [] false fun _ => extendOut f.h (out (immOf f))
    else s.aluLane f.h f.d w [] false fun _ _ => out (immOf f)

/-- D[63:32] := IMM32, D[31:0] is kept. -/
def movh (imm : Word) (x : DWord) : DWord := imm ++ x.truncate 32

def execMovh (f : ClassI) (s : State) : Res :=
  .next <|
    if f.h.g then s.aluGroup f.h f.d [f.d.toNat] false fun g => out (movh f.imm (g.gAt f.d.toNat))
    else s.aluLane f.h f.d true (if f.d.toNat < 48 then [Use.of f.d true] else []) false fun g l =>
      out (movh f.imm (if f.d.toNat < 48 then g.src f.d true l else 0#64))

/-! ## LEA (R125) -/

def execLea (f : ClassM) (s : State) : Res :=
  .next <|
    if f.h.g then s.aluGroup f.h f.d (indexG f) false fun g => out ((g.effAddr f 0).setWidth 64)
    else s.aluLane f.h f.d true (indexUse f) false fun g l => out ((g.effAddr f l).setWidth 64)

/-! ## Address registers (R84, R126) -/

/-- The kernel's data base (R84, R310). -/
def State.dataBase (s : State) : VAddr := s.launch.dbase.setWidth 72

def execAdsetImm (f : ClassI) (s : State) : Res :=
  let base := if f.mod4.getLsbD 3 then s.dataBase else 0#72
  .next (s.groupDo f.h [] fun g =>
    g.setAd f.d.toNat (base + (f.imm.setWidth 72 <<< (8 * (f.mod4.toNat % 8)))))

def execAdset (f : ClassA) (s : State) : Res :=
  .next (s.groupDo f.h [f.a.toNat] fun g => g.setAd f.d.toNat ((g.gAt f.a.toNat).setWidth 72))

def execAdsetW (f : ClassA) (s : State) : Res :=
  .next (s.groupDo f.h [f.a.toNat, f.b.toNat] fun g =>
    g.setAd f.d.toNat (((g.gAt f.b.toNat).truncate 8 : BitVec 8) ++ g.gAt f.a.toNat))

def execAdsetAdd (f : ClassA) (s : State) : Res :=
  .next (s.groupDo f.h [f.b.toNat] fun g => g.setAd f.d.toNat (g.adAt f.a.toNat + sext72 (g.gAt f.b.toNat)))

def execAdget (f : ClassA) (s : State) : Res :=
  .next (s.groupDo f.h [f.d.toNat] fun g => g.setG f.d.toNat ((g.adAt f.a.toNat).setWidth 64))

def execAdgetW (f : ClassA) (s : State) : Res :=
  .next (s.groupDo f.h [f.d.toNat] fun g => g.setG f.d.toNat ((g.adAt f.a.toNat >>> 64).setWidth 64))

end Sys2Proof.Machine
end

