-- ==== Sys2Proof/Machine/Dispatch.lean ====
section
/-! DEFINITION. One arm per constructor of `Instr`: a direct call of its meaning. -/

namespace Sys2Proof.Machine

def exec (i : Instr) (s : State) : Host.Outcome State Fault Refusal :=
  match i with
  | .nop f => Sys2Proof.Machine.execNop f s
  | .ifK f => Sys2Proof.Machine.execIfK f s
  | .elseK f => Sys2Proof.Machine.execElseK f s
  | .endif f => Sys2Proof.Machine.execEndif f s
  | .loop f => Sys2Proof.Machine.execLoop f s
  | .endloop f => Sys2Proof.Machine.execEndloop f s
  | .brk f => Sys2Proof.Machine.execBrk f s
  | .cont f => Sys2Proof.Machine.execCont f s
  | .bra f => Sys2Proof.Machine.execBra f s
  | .brx f => Sys2Proof.Machine.execBrx f s
  | .call f => Sys2Proof.Machine.execCall f s
  | .callx f => Sys2Proof.Machine.execCallx f s
  | .ret f => Sys2Proof.Machine.execRet f s
  | .regang f => Sys2Proof.Machine.execRegang f s
  | .jmpf f => Sys2Proof.Machine.execJmpf f s
  | .cfetch f => Sys2Proof.Machine.execCfetch f s
  | .segmentLanded team slot => Sys2Proof.Machine.execSegmentLanded team slot s
  | .cwait f => Sys2Proof.Machine.execCwait f s
  | .cwaitAll f => Sys2Proof.Machine.execCwaitAll f s
  | .exit f => Sys2Proof.Machine.execExit f s
  | .yield f => Sys2Proof.Machine.execYield f s
  | .yieldExpire gang => Sys2Proof.Machine.execYieldExpire gang s
  | .trap f => Sys2Proof.Machine.execTrap f s
  | .rgnb f => Sys2Proof.Machine.execRgnb f s
  | .rgne f => Sys2Proof.Machine.execRgne f s
  | .regionExhaustReplay core => Sys2Proof.Machine.execRegionExhaustReplay core s
  | .cbr f => Sys2Proof.Machine.execCbr f s
  | .voteResultDelivery gang => Sys2Proof.Machine.execVoteResultDelivery gang s
  | .bar f => Sys2Proof.Machine.execBar f s
  | .qcfg f => Sys2Proof.Machine.execQcfg f s
  | .iadd f => Sys2Proof.Machine.execIadd f s
  | .isub f => Sys2Proof.Machine.execIsub f s
  | .imul f => Sys2Proof.Machine.execImul f s
  | .imulh f => Sys2Proof.Machine.execImulh f s
  | .imad f => Sys2Proof.Machine.execImad f s
  | .idiv f => Sys2Proof.Machine.execIdiv f s
  | .irem f => Sys2Proof.Machine.execIrem f s
  | .imin f => Sys2Proof.Machine.execImin f s
  | .imax f => Sys2Proof.Machine.execImax f s
  | .iand f => Sys2Proof.Machine.execIand f s
  | .ior f => Sys2Proof.Machine.execIor f s
  | .ixor f => Sys2Proof.Machine.execIxor f s
  | .iandn f => Sys2Proof.Machine.execIandn f s
  | .shl f => Sys2Proof.Machine.execShl f s
  | .shr f => Sys2Proof.Machine.execShr f s
  | .sar f => Sys2Proof.Machine.execSar f s
  | .rot f => Sys2Proof.Machine.execRot f s
  | .bfe f => Sys2Proof.Machine.execBfe f s
  | .bfi f => Sys2Proof.Machine.execBfi f s
  | .icmp f => Sys2Proof.Machine.execIcmp f s
  | .sel f => Sys2Proof.Machine.execSel f s
  | .lea f => Sys2Proof.Machine.execLea f s
  | .mov f => Sys2Proof.Machine.execMov f s
  | .iabs f => Sys2Proof.Machine.execIabs f s
  | .ineg f => Sys2Proof.Machine.execIneg f s
  | .inot f => Sys2Proof.Machine.execInot f s
  | .popc f => Sys2Proof.Machine.execPopc f s
  | .clz f => Sys2Proof.Machine.execClz f s
  | .ctz f => Sys2Proof.Machine.execCtz f s
  | .brev f => Sys2Proof.Machine.execBrev f s
  | .iaddImm f => Sys2Proof.Machine.execIaddImm f s
  | .isubImm f => Sys2Proof.Machine.execIsubImm f s
  | .imulImm f => Sys2Proof.Machine.execImulImm f s
  | .iminImm f => Sys2Proof.Machine.execIminImm f s
  | .imaxImm f => Sys2Proof.Machine.execImaxImm f s
  | .andImm f => Sys2Proof.Machine.execAndImm f s
  | .orImm f => Sys2Proof.Machine.execOrImm f s
  | .xorImm f => Sys2Proof.Machine.execXorImm f s
  | .andnImm f => Sys2Proof.Machine.execAndnImm f s
  | .shlImm f => Sys2Proof.Machine.execShlImm f s
  | .shrImm f => Sys2Proof.Machine.execShrImm f s
  | .sarImm f => Sys2Proof.Machine.execSarImm f s
  | .rotImm f => Sys2Proof.Machine.execRotImm f s
  | .icmpImm f => Sys2Proof.Machine.execIcmpImm f s
  | .movi f => Sys2Proof.Machine.execMovi f s
  | .movh f => Sys2Proof.Machine.execMovh f s
  | .adsetImm f => Sys2Proof.Machine.execAdsetImm f s
  | .adset f => Sys2Proof.Machine.execAdset f s
  | .adsetW f => Sys2Proof.Machine.execAdsetW f s
  | .adsetAdd f => Sys2Proof.Machine.execAdsetAdd f s
  | .adget f => Sys2Proof.Machine.execAdget f s
  | .adgetW f => Sys2Proof.Machine.execAdgetW f s
  | .fadd f => Sys2Proof.Machine.execFadd f s
  | .fsub f => Sys2Proof.Machine.execFsub f s
  | .fmul f => Sys2Proof.Machine.execFmul f s
  | .ffma f => Sys2Proof.Machine.execFfma f s
  | .fmin f => Sys2Proof.Machine.execFmin f s
  | .fmax f => Sys2Proof.Machine.execFmax f s
  | .fcmp f => Sys2Proof.Machine.execFcmp f s
  | .frnd f => Sys2Proof.Machine.execFrnd f s
  | .fclass f => Sys2Proof.Machine.execFclass f s
  | .frcp f => Sys2Proof.Machine.execFrcp f s
  | .frsq f => Sys2Proof.Machine.execFrsq f s
  | .fsqrt f => Sys2Proof.Machine.execFsqrt f s
  | .fexp2 f => Sys2Proof.Machine.execFexp2 f s
  | .flog2 f => Sys2Proof.Machine.execFlog2 f s
  | .fsin f => Sys2Proof.Machine.execFsin f s
  | .fcos f => Sys2Proof.Machine.execFcos f s
  | .fdiv f => Sys2Proof.Machine.execFdiv f s
  | .fdot2 f => Sys2Proof.Machine.execFdot2 f s
  | .idot4 f => Sys2Proof.Machine.execIdot4 f s
  | .cvt f => Sys2Proof.Machine.execCvt f s
  | .qpack f => Sys2Proof.Machine.execQpack f s
  | .qunpk f => Sys2Proof.Machine.execQunpk f s
  | .shfl f => Sys2Proof.Machine.execShfl f s
  | .shflx f => Sys2Proof.Machine.execShflx f s
  | .bcast f => Sys2Proof.Machine.execBcast f s
  | .vote f => Sys2Proof.Machine.execVote f s
  | .red f => Sys2Proof.Machine.execRed f s
  | .redix f => Sys2Proof.Machine.execRedix f s
  | .scan f => Sys2Proof.Machine.execScan f s
  | .matchLanes f => Sys2Proof.Machine.execMatchLanes f s
  | .ld f => Sys2Proof.Machine.execLd f s
  | .loadReturn gang id => Sys2Proof.Machine.execLoadReturn gang id s
  | .st f => Sys2Proof.Machine.execSt f s
  | .storePerformed gang id => Sys2Proof.Machine.execStorePerformed gang id s
  | .causalDelivery die id => Sys2Proof.Machine.execCausalDelivery die id s
  | .ldlod f => Sys2Proof.Machine.execLdlod f s
  | .smpl f => Sys2Proof.Machine.execSmpl f s
  | .ldgen f => Sys2Proof.Machine.execLdgen f s
  | .pref f => Sys2Proof.Machine.execPref f s
  | .cinv f => Sys2Proof.Machine.execCinv f s
  | .cflush f => Sys2Proof.Machine.execCflush f s
  | .rinv f => Sys2Proof.Machine.execRinv f s
  | .rminv f => Sys2Proof.Machine.execRminv f s
  | .atom f => Sys2Proof.Machine.execAtom f s
  | .waitv f => Sys2Proof.Machine.execWaitv f s
  | .waitvReread gang => Sys2Proof.Machine.execWaitvReread gang s
  | .fence f => Sys2Proof.Machine.execFence f s
  | .cpy f => Sys2Proof.Machine.execCpy f s
  | .copyUnit id => Sys2Proof.Machine.execCopyUnit id s
  | .copyComplete id => Sys2Proof.Machine.execCopyComplete id s
  | .gth f => Sys2Proof.Machine.execGth f s
  | .bcommit f => Sys2Proof.Machine.execBcommit f s
  | .bwait f => Sys2Proof.Machine.execBwait f s
  | .bwaitG f => Sys2Proof.Machine.execBwaitG f s
  | .waitc f => Sys2Proof.Machine.execWaitc f s
  | .publ f => Sys2Proof.Machine.execPubl f s
  | .publSwing id => Sys2Proof.Machine.execPublSwing id s
  | .bcbarm f => Sys2Proof.Machine.execBcbarm f s
  | .bcbadd f => Sys2Proof.Machine.execBcbadd f s
  | .bcbwait f => Sys2Proof.Machine.execBcbwait f s
  | .tdsetImm f => Sys2Proof.Machine.execTdsetImm f s
  | .tdsetReg f => Sys2Proof.Machine.execTdsetReg f s
  | .tdget f => Sys2Proof.Machine.execTdget f s
  | .mxzero f => Sys2Proof.Machine.execMxzero f s
  | .mxldacc f => Sys2Proof.Machine.execMxldacc f s
  | .mxmma f => Sys2Proof.Machine.execMxmma f s
  | .mxdrain f => Sys2Proof.Machine.execMxdrain f s
  | .mxdrainCompareDone cluster => Sys2Proof.Machine.execMxdrainCompareDone cluster s
  | .mxOpComplete cluster id => Sys2Proof.Machine.execMxOpComplete cluster id s
  | .mxwait f => Sys2Proof.Machine.execMxwait f s
  | .mxwaitAcc f => Sys2Proof.Machine.execMxwaitAcc f s
  | .mxmodeNorm f => Sys2Proof.Machine.execMxmodeNorm f s
  | .mxmodeRed f => Sys2Proof.Machine.execMxmodeRed f s
  | .mxscale f => Sys2Proof.Machine.execMxscale f s
  | .mxscaleRow f => Sys2Proof.Machine.execMxscaleRow f s
  | .mxscaleCol f => Sys2Proof.Machine.execMxscaleCol f s
  | .fork f => Sys2Proof.Machine.execFork f s
  | .lintelStart cluster => Sys2Proof.Machine.execLintelStart cluster s
  | .rdv f => Sys2Proof.Machine.execRdv f s
  | .spawn f => Sys2Proof.Machine.execSpawn f s
  | .done f => Sys2Proof.Machine.execDone f s
  | .doneC f => Sys2Proof.Machine.execDoneC f s
  | .wlput f => Sys2Proof.Machine.execWlput f s
  | .wlget f => Sys2Proof.Machine.execWlget f s
  | .rbin f => Sys2Proof.Machine.execRbin f s
  | .qdone f => Sys2Proof.Machine.execQdone f s
  | .coll f => Sys2Proof.Machine.execColl f s
  | .comp f => Sys2Proof.Machine.execComp f s
  | .collComplete team grp op => Sys2Proof.Machine.execCollComplete team grp op s
  | .wsend f => Sys2Proof.Machine.execWsend f s
  | .mesh f => Sys2Proof.Machine.execMesh f s
  | .meshRaster id => Sys2Proof.Machine.execMeshRaster id s
  | .pixelTeamStart core => Sys2Proof.Machine.execPixelTeamStart core s
  | .fragmentBlend gang => Sys2Proof.Machine.execFragmentBlend gang s
  | .rtrace f => Sys2Proof.Machine.execRtrace f s
  | .rtraceComplete gang id => Sys2Proof.Machine.execRtraceComplete gang id s
  | .rhit f => Sys2Proof.Machine.execRhit f s
  | .srd f => Sys2Proof.Machine.execSrd f s
  | .swr f => Sys2Proof.Machine.execSwr f s
  | .qcfgWrite f => Sys2Proof.Machine.execQcfgWrite f s
  | .mstatClear f => Sys2Proof.Machine.execMstatClear f s
  | .srstateWrite f => Sys2Proof.Machine.execSrstateWrite f s
  | .stklimWrite f => Sys2Proof.Machine.execStklimWrite f s
  | .heapRegWrite f => Sys2Proof.Machine.execHeapRegWrite f s
  | .windowWrite f => Sys2Proof.Machine.execWindowWrite f s
  | .cceshareWrite f => Sys2Proof.Machine.execCceshareWrite f s
  | .grstWrite f => Sys2Proof.Machine.execGrstWrite f s
  | .plimWrite f => Sys2Proof.Machine.execPlimWrite f s
  | .time f => Sys2Proof.Machine.execTime f s
  | .sysc f => Sys2Proof.Machine.execSysc f s
  | .syscAnswer gang => Sys2Proof.Machine.execSyscAnswer gang s
  | .tret f => Sys2Proof.Machine.execTret f s
  | .tretSkip f => Sys2Proof.Machine.execTretSkip f s
  | .qmap f => Sys2Proof.Machine.execQmap f s
  | .qunmap f => Sys2Proof.Machine.execQunmap f s
  | .qswSuspend f => Sys2Proof.Machine.execQswSuspend f s
  | .qswResume f => Sys2Proof.Machine.execQswResume f s
  | .qswPreempt f => Sys2Proof.Machine.execQswPreempt f s
  | .qswKill f => Sys2Proof.Machine.execQswKill f s
  | .qswPrio f => Sys2Proof.Machine.execQswPrio f s
  | .asyncTrap gang cause info => Sys2Proof.Machine.execAsyncTrap gang cause info s
  | .placementDecision die => Sys2Proof.Machine.execPlacementDecision die s
  | .rootRecordMake die slot => Sys2Proof.Machine.execRootRecordMake die slot s
  | .cohortRestore cohort => Sys2Proof.Machine.execCohortRestore cohort s
  | .faultAnswered cohort => Sys2Proof.Machine.execFaultAnswered cohort s
  | .freeSlotAdvert die far => Sys2Proof.Machine.execFreeSlotAdvert die far s
  | .migrationTrigger die slot pri => Sys2Proof.Machine.execMigrationTrigger die slot pri s
  | .migrationReceive die slot record saved => Sys2Proof.Machine.execMigrationReceive die slot record saved s
  | .watchdogT1 team => Sys2Proof.Machine.execWatchdogT1 team s
  | .watchdogT2 team => Sys2Proof.Machine.execWatchdogT2 team s
  | .watchdogT3 team => Sys2Proof.Machine.execWatchdogT3 team s
  | .qdtWave launch => Sys2Proof.Machine.execQdtWave launch s
  | .wlcFlushTimer die slot list => Sys2Proof.Machine.execWlcFlushTimer die slot list s
  | .shootdownRequest die slot => Sys2Proof.Machine.execShootdownRequest die slot s
  | .frameRead f => Sys2Proof.Machine.execFrameRead f s
  | .frameReadResponse f => Sys2Proof.Machine.execFrameReadResponse f s
  | .frameWrite f => Sys2Proof.Machine.execFrameWrite f s
  | .frameWriteAck f => Sys2Proof.Machine.execFrameWriteAck f s
  | .frameAtomic f => Sys2Proof.Machine.execFrameAtomic f s
  | .frameAtomicResponse f => Sys2Proof.Machine.execFrameAtomicResponse f s
  | .frameWorkRecord f => Sys2Proof.Machine.execFrameWorkRecord f s
  | .frameSlotUpdate f => Sys2Proof.Machine.execFrameSlotUpdate f s
  | .slotUpdateSend grp member sender => Sys2Proof.Machine.execSlotUpdateSend grp member sender s
  | .frameCollectiveData f => Sys2Proof.Machine.execFrameCollectiveData f s
  | .frameImageTiles f => Sys2Proof.Machine.execFrameImageTiles f s
  | .frameVote f => Sys2Proof.Machine.execFrameVote f s
  | .frameVoteResult f => Sys2Proof.Machine.execFrameVoteResult f s
  | .votePartialTimeout die grp num => Sys2Proof.Machine.execVotePartialTimeout die grp num s
  | .voteResultRequest die grp num => Sys2Proof.Machine.execVoteResultRequest die grp num s
  | .retransmitTimer psn => Sys2Proof.Machine.execRetransmitTimer psn s
  | .hqEntryReread fn q => Sys2Proof.Machine.execHqEntryReread fn q s
  | .uncorrectableErrorConsumed cohort place => Sys2Proof.Machine.execUncorrectableErrorConsumed cohort place s
  | .engineFaultAnswered id => Sys2Proof.Machine.execEngineFaultAnswered id s
  | .kilnCoreTimer die => Sys2Proof.Machine.execKilnCoreTimer die s
  | .kilnClusterTimer die => Sys2Proof.Machine.execKilnClusterTimer die s
  | .kilnDrainComplete die matrix => Sys2Proof.Machine.execKilnDrainComplete die matrix s
  | .kilnDrainTimeout die matrix => Sys2Proof.Machine.execKilnDrainTimeout die matrix s
  | .kilnScanComplete die matrix pass => Sys2Proof.Machine.execKilnScanComplete die matrix pass s
  | .packetAck psn => Sys2Proof.Machine.execPacketAck psn s
  | .peerLoss module => Sys2Proof.Machine.execPeerLoss module s
  | .hqTailWrite fn q tail => Sys2Proof.Machine.execHqTailWrite fn q tail s
  | .hqStatusClear fn q bits => Sys2Proof.Machine.execHqStatusClear fn q bits s
  | .hqQlogWrite fn q value => Sys2Proof.Machine.execHqQlogWrite fn q value s
  | .hqCompletion fn q addr body => Sys2Proof.Machine.execHqCompletion fn q addr body s
  | .inboundPostedWrite fn rid off body ro => Sys2Proof.Machine.execInboundPostedWrite fn rid off body ro s
  | .inboundRead fn off len => Sys2Proof.Machine.execInboundRead fn off len s
  | .inboundAtomic fn off => Sys2Proof.Machine.execInboundAtomic fn off s
  | .pReadCompletion gang id body => Sys2Proof.Machine.execPReadCompletion gang id body s
  | .cxlLinkDown die => Sys2Proof.Machine.execCxlLinkDown die s
  | .moduleReset copyA copyB => Sys2Proof.Machine.execModuleReset copyA copyB s
  | .bootStage1 image => Sys2Proof.Machine.execBootStage1 image s
  | .bootStage2 failed => Sys2Proof.Machine.execBootStage2 failed s
  | .bootStage3 => Sys2Proof.Machine.execBootStage3 s
  | .powerWindow watts => Sys2Proof.Machine.execPowerWindow watts s
  | .junctionThrottle => Sys2Proof.Machine.execJunctionThrottle s
  | .thermalTrip => Sys2Proof.Machine.execThermalTrip s
  | .electricalTrip => Sys2Proof.Machine.execElectricalTrip s
  | .junctionBelow100C => Sys2Proof.Machine.execJunctionBelow100C s

end Sys2Proof.Machine
end

