-- ==== Sys2Proof/Machine/Issue.lean ====
section
/-! DEFINITION. What a step chooses and fetches (R26, R32, R36, R91, log entry 3, DESIGN CHOICE), and how a program is placed for one step
(log entry 6, DESIGN CHOICE). -/

namespace Sys2Proof.Machine

/-- The module has stopped (R399, R402, R405). -/
def State.stopped (s : State) : Option Fault :=
  if s.boot.tripped then some .tripped else if s.boot.halted then some .halted else none

/-- One clock passes; posts, spills, committed stores and saves that waited go on. -/
def State.tickClock (s : State) : State :=
  let s := { s with clock := s.clock + 1 }
  let s := if s.posts.isEmpty then s else s.retryPosts
  let s := if s.spills.isEmpty then s else s.spillRest
  let s := if s.gangs.any fun p => !p.2.commits.isEmpty then s.commitRest else s
  if s.cohorts.any fun p => p.2.status == .saving then s.saveRest else s

/-- What a step does. -/
inductive Choice where
  | serve (e : Instr) (s : State)
  | issue (s : State)
  | idle (s : State)

/-- Events owed and gangs that issue take turns; each kind runs alone where the other has nothing. -/
def State.choose (s : State) : Choice :=
  match s.turn, s.due, s.runq with
  | true, e :: r, _ => .serve e { s with due := r, turn := false }
  | _, _, _ :: _ => .issue { s with turn := true }
  | _, e :: r, [] => .serve e { s with due := r, turn := false }
  | _, [], [] => .idle s

/-- A gang that no word of its own can move: it waits for an event, or for its committed stores (R111, R233). -/
def Gang.blocked (g : Gang) : Bool :=
  g.ended || !g.commits.isEmpty || (match g.hold with
    | .yield _ => true
    | .sysc => true
    | .waitv => true
    | .fork => true
    | .compare => true
    | _ => false) ||
  (match g.ahead with
    | some a => a.left == 0
    | none => g.hold == .vote)

/-- The next word of a part stands in the instruction buffer: it is one of the eight after the word issued last (R32). -/
def Gang.inBuffer (g : Gang) (p : Nat) : Bool :=
  match g.issued with
  | some a => (List.range 8).any fun i => a + BitVec.ofNat 18 (8 * (i + 1)) == g.pcOf p
  | none => false

/-- The parts in the order in which they may issue: those whose words stand in the buffer first; among equals the part that fell
through last, then those that fell through before it, then the others in slice order (R32; more than two parts: log entry 3,
DESIGN CHOICE). -/
def Gang.partOrder (g : Gang) : List Nat :=
  let byFall := (g.falls.filter g.parts.contains).eraseDups ++ g.parts.filter fun p => !g.falls.contains p
  byFall.filter g.inBuffer ++ byFall.filter fun p => !g.inBuffer p

/-- What a fetch gives. -/
inductive Fetched where
  | run (i : Instr) (s : State)
  | other (s : State)

/-- QPACK's check 3 under the slot its word names comes before the checks 4 to 6 of the word (R87, R138). -/
def State.malformed (s : State) (w : BitVec 64) (code : Nat) : Nat :=
  match pick w with
  | .ins (.qpack f) _ => if 3 < code && qpackBad f (s.fs f.fs) then 3 else code
  | _ => code

/-- The word at the PC of the issuing part is decoded and handed on: a segment trap where its slot cannot be issued from
(R91, R92), a wait where it is being fetched, the illegal-instruction trap where it is malformed (R86, R87). -/
def State.fetchAt (s : State) : Fetched :=
  let pc := s.pc
  let im := s.imemOf s.gk
  if im.nseg ≤ slotOf pc then .other (s.trap 12 (pc.setWidth 64))
  else
    match (KMap.get {} im.slots (slotOf pc)).st with
    | .empty => .other (s.trap 10 (pc.setWidth 64))
    | .fetching => .other s
    | .landed =>
      match decode s.gang.kind (im.word pc) with
      | .error code => .other (s.illegal (s.malformed (im.word pc) code))
      | .ok i => .run i s

/-! ## Quadrants (R35, R36) -/

/-- What issues one gang-instruction a clock: a quadrant of a core, or a lintel core (R35, R36). -/
def State.unitOf (s : State) (k : Nat) : Nat :=
  let g := s.gangAt k
  if g.kind == .lintel then 2 ^ 20 + s.clusterOfGang k else 4 * (s.teamAt g.team).core + g.slot % 4

/-- The address in its core's IMEM of a gang's PC: where gangs stand together, they share a fetch (R33). -/
def State.imemPlace (s : State) (k p : Nat) : Nat := 4096 * (s.imemOf k).place + ((s.gangAt k).pcOf p).toNat

/-- The gangs of the quadrant whose turn it is that no event holds up. -/
def State.issuers (s : State) : List Nat :=
  match s.runq with
  | [] => []
  | h :: _ => s.runq.filter fun k => s.unitOf k == s.unitOf h && !(s.gangAt k).blocked && !(s.gangAt k).parts.isEmpty

/-- The turn passes to the next quadrant: the gangs of the first go to the end. -/
def State.rotate (s : State) : State :=
  match s.runq with
  | [] => s
  | h :: _ => { s with runq := s.runq.filter (fun k => s.unitOf k != s.unitOf h) ++ s.runq.filter fun k => s.unitOf k == s.unitOf h }

/-- A gang issues a word of part `p`; the ready gangs beside it in `ready` have waited once more (R36). -/
def State.issueAs (s : State) (k p : Nat) (others ready : List Nat) : State :=
  let s := others.foldl (fun s j =>
    if j = k then s else s.setGangAt j { s.gangAt j with waited := if ready.contains j then (s.gangAt j).waited + 1 else 0 }) s
  let g := s.gangAt k
  { s with gk := k, pt := p, fused := KMap.set 0 s.fused (s.unitOf k) (s.imemPlace k p) }.setGang
    { g with last := p, issued := some (g.pcOf p), waited := 0 }

/-- The kind of core a word is for. -/
def kindFor (w : BitVec 64) : CoreKind :=
  match decode .vector w with
  | .ok i =>
    match i with
    | .qmap _ | .qunmap _ | .qswSuspend _ | .qswResume _ | .qswPreempt _ | .qswKill _ | .qswPrio _ | .cceshareWrite _
    | .grstWrite _ | .plimWrite _ => .firmware
    | .srd f => if f.sreg.toNat < 0x8000 then .vector else .firmware
    | .swr f => if f.sreg.toNat < 0x8000 then .vector else .firmware
    | _ => .vector
  | .error _ =>
    match decode .lintel w with
    | .ok _ => .lintel
    | .error _ => .vector

/-- Eight slices, one part, PC 0. -/
def eightSlices : KMap Slice := (List.range 8).map fun n => (n, { present := true })

/-- A one-word program at the head of the gangs that issue. A lintel program stands beside the gang that forked it. -/
def State.placeWord (s : State) (_nbits w : Nat) : State :=
  let word := BitVec.ofNat 64 w
  let kind := kindFor word
  let k := s.nextId
  let core := if kind == .firmware then 0 else 1
  let im : Imem :=
    { nseg := 16, slots := [(0, { st := .landed })],
      bytes := KMap.setAll 0#8 [] ((leBytes 8 w).zipIdx.map fun p => (p.2, p.1)) }
  let team : Team := { core := core, gangs := [k], spsz := 4096, im := im, wmax := 255#64 }
  let gang : Gang :=
    { kind := .vector, team := k, slices := eightSlices, qent := 64, waited := 2 ^ 32 }
  let s := { s with nextId := k + 2, runq := k :: s.runq, turn := false }
  let s := s.setTeamAt k team
  match kind with
  | .vector => s.setGangAt k gang
  | .firmware =>
    let s := s.setDieAt 0 { s.dieAt 0 with fwcore := some 0 }
    s.setGangAt k { gang with kind := .firmware }
  | .lintel =>
    let lin : Gang := { kind := .lintel, team := k, slices := [(0, { present := true })], partner := some (k + 1) }
    let s := s.setGangAt k lin
    let s := s.setGangAt (k + 1) { gang with partner := some k }
    let s := s.setTeamAt k { team with gangs := [k + 1] }
    s.setMxAt 0 { s.mxAt 0 with prog := some k, im := im }

end Sys2Proof.Machine
end

