-- ==== Sys2Proof/Machine/Pick.lean ====
section
/-! DEFINITION. The choice of the gang and the part that issue (R32, R33, R36). -/

namespace Sys2Proof.Machine

/-- The word of part `p` of gang `k` would do something now: the gang is ready in that part (R36). What it does is what it does when it
issues; a wait leaves the gang where it stands. -/
def State.moves (s : State) (k p : Nat) : Bool :=
  let c := { s with gk := k, pt := p }
  let r := match c.fetchAt with
    | .run i s => exec i s
    | .other s => .next s
  match r with
  | .next t =>
    c.nextId != t.nextId || c.fresh != t.fresh || c.due.length != t.due.length || c.runq != t.runq || c.gangAt k != t.gangAt k
  | _ => true

/-- The part a gang issues from: the first of its order that is ready (R32). -/
def State.readyPart (s : State) (k : Nat) : Option Nat := (s.gangAt k).partOrder.find? (s.moves k)

/-- The better of two ready gangs, each with its part: 48 issues waited before all else, then the fused set that issued last, then the
longer wait; ties to the lower slot (R36). -/
def State.better (s : State) (a b : Nat × Nat) : Nat × Nat :=
  let key := fun (x : Nat × Nat) =>
    let g := s.gangAt x.1
    let fus := s.imemPlace x.1 x.2 == KMap.get 0 s.fused (s.unitOf x.1)
    ((if 48 ≤ g.waited then 2 else if fus then 1 else 0), g.waited, g.slot)
  let x := key a
  let y := key b
  if x.1 != y.1 then (if x.1 < y.1 then b else a)
  else if x.2.1 != y.2.1 then (if x.2.1 < y.2.1 then b else a)
  else if y.2.2 < x.2.2 then b else a

/-- The gang and the part that issue, of the quadrant whose turn it is, and the gangs that are ready. -/
def State.pick (s : State) : Option (Nat × Nat) × List Nat :=
  match s.issuers with
  | [] => (none, [])
  | [k] => ((match (s.gangAt k).partOrder with
    | [p] => some (k, p)
    | _ => (s.readyPart k).map fun p => (k, p)), [k])
  | l =>
    let ready := l.filterMap fun k => (s.readyPart k).map fun p => (k, p)
    (match ready with
    | [] => none
    | x :: r => some (r.foldl s.better x), ready.map (·.1))

/-- The state in which the chosen word is fetched, with the turn passed on; none where no gang of the quadrant is ready. -/
def State.chosen (s : State) : Option State :=
  let r := s.pick
  r.1.map fun x => s.rotate.issueAs x.1 x.2 s.issuers r.2

end Sys2Proof.Machine
end

