-- ==== Sys2Proof/Machine/Timers.lean ====
section
/-! DEFINITION. What the device notices by itself as time passes: answers that have come, timers that have run out, drains that
are complete (R217, R271, R320 to R329, R341 to R344, R385 to R391; log entry 4, DESIGN CHOICE). -/

namespace Sys2Proof.Machine

/-- Answers of the service ring that are present (R217, R326). -/
def State.arisenSysc (s : State) : List Instr :=
  s.gangs.filterMap fun p =>
    if p.2.hold == .sysc && p.2.svent != 0#64 then
      let qk := (s.cohortAt (s.teamAt p.2.team).cohort).queue
      if (s.teamAt p.2.team).status == .running && s.qNat qk (p.2.svent.toNat + 56) 1 % 2 == 1 then some (.syscAnswer p.1) else none
    else none

/-- Answers of the fault rings (R343, R344, R419). -/
def State.arisenFaults (s : State) : List Instr :=
  (s.cohorts.filterMap fun p =>
    if !p.2.posted.isEmpty && (p.2.status == .faulted || p.2.status == .saving) && s.allAnswered p.1 then some (.faultAnswered p.1)
    else none) ++
  s.engFaults.filterMap fun f =>
    if f.entry != 0 && (s.entryAns (queueDie f.queue) f.entry).1 then some (.engineFaultAnswered f.id) else none

/-- A team of a bound queue has reached a limit of its watchdog (R328). -/
def State.arisenWatch (s : State) : List Instr :=
  s.teams.flatMap fun p =>
    if !(s.queueOf p.1).bound then []
    else
      let q := s.queueOf p.1
      (if s.heldFor p.1 q.t1 && (s.cohortAt p.2.cohort).status == .running then [Instr.watchdogT1 p.1] else []) ++
      (if s.heldFor p.1 q.t2 then [Instr.watchdogT2 p.1] else []) ++ (if s.heldFor p.1 q.t3 then [Instr.watchdogT3 p.1] else [])

/-- The timers of one bound queue: its lists' flush and its ring heads' migration (R323, R325). -/
def State.arisenQueue (s : State) (qk : Nat) (q : Queue) : List Instr :=
  let tab := q.launch.wltab
  (q.appended.filterMap fun p => match p.2 with
    | c :: _ => if c + (s.wlist qk tab p.1).flush ≤ s.clock then some (Instr.wlcFlushTimer (qk / 64) (qk % 64) p.1) else none
    | [] => none) ++
  (priorities.filterMap fun i => match s.headOf qk i with
    | some h =>
      if q.headAt.getD i 0 + micros (s.dieAt (qk / 64)).migt ≤ s.clock &&
          ((s.migrateTo qk (s.headGangs qk h)).isSome || s.mayLeave qk h) then
        some (Instr.migrationTrigger (qk / 64) (qk % 64) i) else none
    | none => none)

/-- A new SDSEQ in the block of a mapped queue (R341). -/
def State.arisenShoot (s : State) (qk : Nat) (q : Queue) : List Instr :=
  (if (s.vaNat (physXl (qk / 64)) (q.ctx.blk + 72) 4).getD 0 != (s.vaNat (physXl (qk / 64)) (q.ctx.blk + 76) 4).getD 0 then
    [Instr.shootdownRequest (qk / 64) (qk % 64)] else [])

def State.arisenQueues (s : State) : List Instr :=
  s.queues.flatMap fun p => if p.2.bound then (if p.2.refused then [] else s.arisenQueue p.1 p.2) ++ s.arisenShoot p.1 p.2 else []

/-- A period of `n` clocks ends now. -/
def State.every (s : State) (n : Nat) : Bool := n != 0 && s.clock % n == 0

/-- What runs at a fixed period: the counting wave, the free-slot messages, the kiln's timers, and placement where a record is
ready (R321, R323, R329, R385, R386). -/
def State.arisenPeriods (s : State) : List Instr :=
  (if s.every 1750 then ((s.queues.filterMap fun p => if p.2.bound && !p.2.refused then some p.2.key else none).eraseDups).map
    Instr.qdtWave else []) ++
  (if s.boot.stage = 4 then
    (List.range 4).flatMap fun d =>
      (if s.every (micros 10) then [Instr.freeSlotAdvert d false] else []) ++
      (if s.every (micros 100) then [Instr.freeSlotAdvert d true] else []) ++
      (if s.every (micros (1000 * (s.dieAt d).kilniv)) then [Instr.kilnCoreTimer d] else []) ++
      (if s.every (micros (1000 * (s.dieAt d).ckilniv)) then [Instr.kilnClusterTimer d] else [])
   else []) ++
  (if s.every 64 then ((s.queues.filterMap fun p => if s.readyQueue p.1 then some (p.1 / 64) else none).eraseDups).map
    Instr.placementDecision else [])

/-- Kiln drains that are complete, or given up (R385 to R387). -/
def State.arisenKiln (s : State) : List Instr :=
  s.dies.flatMap fun p =>
    let one := fun (matrix : Bool) (k : Option Kiln) => match k with
      | some k =>
        if k.scanning then []
        else if s.drainedEmpty matrix k then [Instr.kilnDrainComplete p.1 matrix]
        else if k.start + micros 10000 ≤ s.clock then [Instr.kilnDrainTimeout p.1 matrix] else []
      | none => []
    one false p.2.corePass ++ one true p.2.clusPass

/-- Packets whose timer has run out (R271). -/
def State.arisenNet (s : State) : List Instr :=
  s.net.filterMap fun p => if p.2 + micros s.rto ≤ s.clock then some (.retransmitTimer p.1.psn) else none

/-- Events whose cause has arisen are owed, each once. -/
def State.raise (s : State) : State :=
  (s.arisenSysc ++ s.arisenFaults ++ s.arisenWatch ++ s.arisenQueues ++ s.arisenPeriods ++ s.arisenKiln ++ s.arisenNet).foldl
    (fun s e => s.oweOnce e) s

/-- Units that firmware takes at once: cores to be shuttered that have emptied, cluster passes that a mismatch asks for (R391,
R397). -/
def State.settleKiln (s : State) : State :=
  let s := if s.cores.any fun p => p.2.leaving then s.shutLeaving else s
  s.dies.foldl (fun s p => if p.2.clusAsk.isEmpty then s else s.kilnNext p.1) s

/-- One clock passes. -/
def State.tick (s : State) : State := s.tickClock.settleKiln.raise

end Sys2Proof.Machine
end

