-- ==== Sys2Proof/Machine/Step.lean ====
section
/-! DEFINITION. One step of the module: an event owed, or one gang-instruction (log entry 3, DESIGN CHOICE). -/

namespace Sys2Proof.Machine

/-- One clock. `serve` performs the oldest event owed, `issue` fetches and runs one word of a ready gang of the quadrant whose turn it
is (R36); the two alternate where both are possible. -/
def step (s : State) : Host.Outcome State Fault Refusal :=
  match s.stopped with
  | some f => .fault f
  | none =>
    match s.tick.choose with
    | .serve e s => exec e s
    | .issue s =>
      match s.chosen with
      | none => .next s.rotate
      | some s =>
        match s.fetchAt with
        | .run i s => exec i s
        | .other s => .next s
    | .idle s => .next s

/-- A program of one instruction, as MODULE_RESET, the boot stages, QMAP, ROOT_RECORD_MAKE and PLACEMENT_DECISION leave
one: a gang of the core kind the word is for, in IMEM slot 0, at the head of the gangs that issue (log entry 6, DESIGN CHOICE). -/
def State.withFetchWord (s : State) (nbits w : Nat) : State := s.placeWord nbits w

end Sys2Proof.Machine
end

