-- ==== Sys2Proof/WellFormed.lean ====
section
/-! DEFINITION. Well-formed terms of the syntax: an instruction whose class record passes the static checks of R87 on
some core kind and whose sub-operation bits are those of its row, an event whose numbers lie in the ranges of R1, R6,
R220, R369 and R372. -/

namespace Sys2Proof

/-- The bits that tell rows of one opcode apart hold the row's own value (R83, R94, R126, R172, R183, R190, R195, R205,
R216, R218, R220). -/
def Instr.selects : Instr → Bool
  | .cwait f => !f.aux12.getLsbD 6
  | .cwaitAll f => f.aux12.getLsbD 6
  | .mov f => f.sub == 0#4
  | .iabs f => f.sub == 1#4
  | .ineg f => f.sub == 2#4
  | .inot f => f.sub == 3#4
  | .popc f => f.sub == 4#4
  | .clz f => f.sub == 5#4
  | .ctz f => f.sub == 6#4
  | .brev f => f.sub == 7#4
  | .iaddImm f => f.mod4 == 0#4
  | .isubImm f => f.mod4 == 1#4
  | .imulImm f => f.mod4 == 2#4
  | .iminImm f => f.mod4 == 3#4
  | .imaxImm f => f.mod4 == 4#4
  | .andImm f => f.mod4 == 5#4
  | .orImm f => f.mod4 == 6#4
  | .xorImm f => f.mod4 == 7#4
  | .andnImm f => f.mod4 == 8#4
  | .shlImm f => f.mod4 == 9#4
  | .shrImm f => f.mod4 == 10#4
  | .sarImm f => f.mod4 == 11#4
  | .rotImm f => f.mod4 == 12#4
  | .adset f => f.adForm == 0#2
  | .adsetW f => f.adForm == 1#2
  | .adsetAdd f => f.adForm == 2#2
  | .adget f => !f.mod.getLsbD 0
  | .adgetW f => f.mod.getLsbD 0
  | .bwait f => !f.aux4.getLsbD 0
  | .bwaitG f => f.aux4.getLsbD 0
  | .tdsetImm f => !f.h.fx.getLsbD 0
  | .tdsetReg f => f.h.fx.getLsbD 0
  | .mxwait f => !f.aux12.getLsbD 3
  | .mxwaitAcc f => f.aux12.getLsbD 3
  | .mxmodeNorm f => !f.mod.getLsbD 0
  | .mxmodeRed f => f.mod.getLsbD 0
  | .mxscale f => f.bits 2 0 == 0
  | .mxscaleRow f => f.bits 2 0 == 1
  | .mxscaleCol f => f.bits 2 0 == 2
  | .done f => !f.aux12.getLsbD 3
  | .doneC f => f.aux12.getLsbD 3
  | .tret f => !f.aux12.getLsbD 0
  | .tretSkip f => f.aux12.getLsbD 0
  | .qcfgWrite f => f.sreg == 0x10#16
  | .mstatClear f => f.sreg == 0x20#16
  | .srstateWrite f => f.sreg == 0x21#16
  | .stklimWrite f => f.sreg == 0x70#16
  | .heapRegWrite f => f.sreg == 0x80#16 || f.sreg == 0x81#16 || f.sreg == 0x82#16
  | .windowWrite f => f.sreg == 0x83#16
  | .cceshareWrite f => f.sreg == 0xA0#16
  | .grstWrite f => f.sreg == 0x8010#16
  | .plimWrite f => f.sreg == 0x8019#16
  | .swr f => !(f.sreg == 0x10#16 || f.sreg == 0x20#16 || f.sreg == 0x21#16 || f.sreg == 0x70#16 || f.sreg == 0x80#16 ||
      f.sreg == 0x81#16 || f.sreg == 0x82#16 || f.sreg == 0x83#16 || f.sreg == 0xA0#16 || f.sreg == 0x8010#16 ||
      f.sreg == 0x8019#16)
  | .qswSuspend f => f.mod == 0#26
  | .qswResume f => f.mod == 1#26
  | .qswPreempt f => f.mod == 2#26
  | .qswKill f => f.mod == 3#26
  | .qswPrio f => f.mod == 4#26
  | _ => true

/-- A frame of R272: every header field within its width, the payload as long as LEN says. -/
def Frame.wellFormed (f : Frame) : Bool :=
  f.cls < 12 && f.scp < 8 && f.ord < 4 && f.srcm < 512 && f.dstm < 512 && f.sdie < 4 && f.ddie < 4 && f.len ≤ 64 &&
    f.tag < 2 ^ 20 && f.addr < 2 ^ 64 && f.aux < 2 ^ 128 && f.body.length == 64 * f.len

/-- A place named by R394's table exists on the module (R1, R2, R332). -/
def ErrorPlace.wellFormed : ErrorPlace → Bool
  | .core c => c < 384
  | .cluster c => c < 48
  | .l2 slice set way => slice < 256 && set < 2048 && way < 16
  | .frame pa => pa < 2 ^ 58

/-- An event's numbers name units that exist (R1, R6, R220, R369, R372). -/
def Instr.eventOk : Instr → Bool
  | .segmentLanded _ slot => slot < 64
  | .regionExhaustReplay core => core < 384
  | .causalDelivery die _ => die < 4
  | .mxdrainCompareDone cluster => cluster < 48
  | .mxOpComplete cluster _ => cluster < 48
  | .lintelStart cluster => cluster < 48
  | .pixelTeamStart core => core < 384
  | .asyncTrap _ cause _ => cause == 16 || cause == 20 || (1 ≤ cause && cause < 24)
  | .placementDecision die => die < 4
  | .rootRecordMake die slot => die < 4 && slot < 64
  | .freeSlotAdvert die _ => die < 4
  | .migrationTrigger die slot pri => die < 4 && slot < 64 && pri < 4
  | .migrationReceive die slot _ _ => die < 4 && slot < 64
  | .wlcFlushTimer die slot list => die < 4 && slot < 64 && list < 256
  | .shootdownRequest die slot => die < 4 && slot < 64
  | .frameRead f => f.wellFormed && f.cls == 0
  | .frameReadResponse f => f.wellFormed && f.cls == 1
  | .frameWrite f => f.wellFormed && f.cls == 2
  | .frameWriteAck f => f.wellFormed && f.cls == 3
  | .frameAtomic f => f.wellFormed && f.cls == 4
  | .frameAtomicResponse f => f.wellFormed && f.cls == 5
  | .frameWorkRecord f => f.wellFormed && f.cls == 6
  | .frameSlotUpdate f => f.wellFormed && f.cls == 7
  | .frameCollectiveData f => f.wellFormed && f.cls == 8
  | .frameImageTiles f => f.wellFormed && f.cls == 9
  | .frameVote f => f.wellFormed && f.cls == 10
  | .frameVoteResult f => f.wellFormed && f.cls == 11
  | .votePartialTimeout die grp _ => die < 4 && grp < 256
  | .voteResultRequest die grp _ => die < 4 && grp < 256
  | .peerLoss m => m < 512
  | .hqTailWrite fn q _ => fn < 17 && q < 8
  | .hqEntryReread fn q => fn < 17 && q < 8
  | .hqStatusClear fn q _ => fn < 17 && q < 8
  | .hqQlogWrite fn q _ => fn < 17 && q < 8
  | .hqCompletion fn q _ _ => fn < 17 && q < 8
  | .inboundPostedWrite fn rid _ _ _ => fn < 17 && rid < 2 ^ 16
  | .inboundRead fn _ _ => fn < 17
  | .inboundAtomic fn _ => fn < 17
  | .cxlLinkDown die => die < 4
  | .uncorrectableErrorConsumed _ place => place.wellFormed
  | .kilnCoreTimer die => die < 4
  | .kilnClusterTimer die => die < 4
  | .kilnDrainComplete die _ => die < 4
  | .kilnScanComplete die _ _ => die < 4
  | .kilnDrainTimeout die _ => die < 4
  | _ => true

/-- The G bit agrees with the Forms column, and T is admitted where it is set (R71, R72). -/
def Checks.formOk (c : Checks) : Bool :=
  c.mbz && c.legal && !(c.h.pn && c.h.pi == 7#3) &&
    (match c.forms with
      | .l => !c.h.g
      | .g => c.h.g
      | .lg => true) &&
    (!c.h.t || (c.tOk && !c.h.g))

/-- A well-formed term. -/
def Instr.wellFormed (i : Instr) : Bool :=
  match i.checks with
  | some c => c.formOk && i.selects
  | none => i.eventOk

end Sys2Proof
end

