-- ==== Sys2Proof/Certificates/Slice0/Obligations.lean ====
section
/-! DEFINITION. The statements for the provers: `Obligations.<Name>`. Their vocabulary stands in `Sys2Proof.Claims`. -/

namespace Sys2Proof.Claims

open Sys2Proof.Machine

/-! ## What statements say about states -/

/-- The issuing gang runs neither ahead (R38) nor in a region (R105). -/
def Settled (s : State) : Prop := s.gang.ahead = none ∧ s.gang.rel = none

/-- The issuing word is not the last of its slot (R92). -/
def MidSlot (s : State) : Prop := lastWord s.pc = false

/-- `s` with the issuing part at address `a` and nothing else changed. -/
def movedTo (s : State) (a : IAddr) : State := s.setGang (s.gang.setPc (s.gang.partSlices s.pt) a)

/-- `s` with the issuing part at the next word and nothing else changed. -/
def movedOn (s : State) : State := movedTo s (nextPc s.pc)

/-- `t` is `s` with gang `g` in place of the issuing gang, and nothing else changed: no register, no byte of memory, no other
gang, no team, no engine. -/
def OnlyGang (s t : State) (g : Gang) : Prop :=
  t = { s with gangs := t.gangs } ∧ t.gang = g ∧ ∀ k, k ≠ s.gk → t.gangAt k = s.gangAt k

/-- A register value of `w` bits: the low half, or all of it. -/
def low (x : DWord) : Word := x.truncate 32
def high (x : DWord) : Word := (x >>> 32).truncate 32

/-! ## Lane forms (R23, R26, R27, R30, R57) -/

/-- A lane form: its header, destination, width, the lane fields and broadcast group registers it reads, its check 8, the
result of a lane, and how many free values it takes. -/
structure LaneForm where
  h     : Header
  d     : BitVec 6
  wide  : Bool
  srcs  : List Use
  gs    : List Nat := []
  bad8  : Bool := false
  res   : Gang → Nat → LaneOut
  takes : Nat := 0

/-- Nothing stops the form: every check of R87 passes, no register is awaited, some lane has an effect, and no bypass or
queue it names is empty or full. -/
def LaneForm.ready (F : LaneForm) (s : State) : Prop :=
  (F.gs.any s.gang.busyG) = false ∧
    s.laneGate F.h F.srcs (if F.h.t then [] else [Use.of F.d F.wide]) F.bad8 false = none

/-- The lane has an effect. -/
abbrev eff (s : State) (h : Header) (l : Nat) : Prop := l ∈ s.gang.effLanes s.pt h

/-- What stays of a gang under a lane form: all but lane registers, the bypass, loop queues, MSTAT and SRSTATE, and the undo entries of a
gang that runs ahead (R38). -/
def LaneFrame (g g' : Gang) : Prop :=
  g' = { g with
    r := { g.r with v := g'.r.v, mstat := g'.r.mstat, srstate := g'.r.srstate, undo := g'.r.undo }
    byp := g'.byp, bypFull := g'.bypFull, queues := g'.queues }

/-- A lane form has written what R23, R27, R30, R49 and R57 say, and nothing else. -/
def LaneEffect (F : LaneForm) (s : State) (g' : Gang) : Prop :=
  let g := s.gang
  let out := F.res g
  LaneFrame g g' ∧ (g.r.undo = none → g'.r.undo = none) ∧
  -- lane registers: D, and D + 1 for a pair, in the lanes with an effect
  (∀ n l, n < 48 → l < 32 →
    g'.vAt n l =
      if F.h.t = false ∧ eff s F.h l ∧ n = F.d.toNat then low (out l).val
      else if F.h.t = false ∧ eff s F.h l ∧ F.wide = true ∧ F.d.toNat < 48 ∧ n = F.d.toNat + 1 then high (out l).val
      else g.vAt n l) ∧
  -- queues: one pop for every queue named, one push at the destination queue
  (∀ q l, q < 8 → l < 32 →
    g'.queueAt q l =
      (if eff s F.h l ∧ q ∈ popped F.srcs then (g.queueAt q l).drop 1 else g.queueAt q l) ++
      (if F.h.t = false ∧ eff s F.h l ∧ F.d.toNat = 48 + q then [low (out l).val] else [])) ∧
  -- the bypass of the part shifts
  (∀ l, l < 32 →
    (KMap.get 0#64 g'.byp l =
      if eff s F.h l then (if F.wide then (out l).val else (low (out l).val).setWidth 64) else KMap.get 0#64 g.byp l) ∧
    (KMap.get 0#64 g'.byp (32 + l) = if g.inPart s.pt l then KMap.get 0#64 g.byp l else KMap.get 0#64 g.byp (32 + l)) ∧
    (KMap.get 0#64 g'.byp (64 + l) = if g.inPart s.pt l then KMap.get 0#64 g.byp (32 + l) else KMap.get 0#64 g.byp (64 + l))) ∧
  (∀ n, n < 8 →
    (g'.bypFullAt n 1 = ((g.bypFullAt n 1) || (s.gang.effLanes s.pt F.h).any fun l => l / 4 == n)) ∧
    (g'.bypFullAt n 2 = if n ∈ g.partSlices s.pt then g.bypFullAt n 1 else g.bypFullAt n 2) ∧
    (g'.bypFullAt n 3 = if n ∈ g.partSlices s.pt then g.bypFullAt n 2 else g.bypFullAt n 3)) ∧
  -- flags and draws
  (∀ b, g'.r.mstat.getLsbD b = (g.r.mstat.getLsbD b || (s.gang.effLanes s.pt F.h).any fun l => (out l).flags.getLsbD b)) ∧
  (∀ l, l < 32 → g'.srstateAt l = if eff s F.h l then ((out l).sr).getD (g.srstateAt l) else g.srstateAt l)

/-! ## Group forms (R23, R26, R118) -/

/-- A group form with a group-register result. -/
structure GroupForm where
  h    : Header
  d    : BitVec 6
  gs   : List Nat
  bad8 : Bool := false
  res  : Gang → LaneOut
  takes : Nat := 0

def GroupForm.ready (F : GroupForm) (s : State) : Prop := s.groupGate F.h (F.d.toNat :: F.gs) F.bad8 false = none

/-- A group form has written its register, flags and draw, and nothing else. -/
def GroupEffect (F : GroupForm) (s : State) (g' : Gang) : Prop :=
  let g := s.gang
  let out := F.res g
  g' = { g with r := { g.r with g := g'.r.g, mstat := g.r.mstat ||| out.flags, srstate := g'.r.srstate, undo := g'.r.undo } } ∧
  (g.r.undo = none → g'.r.undo = none) ∧
  (∀ n, n < 32 → g'.gAt n = if n = F.d.toNat then out.val else g.gAt n) ∧
  (∀ l, l < 32 → g'.srstateAt l =
    if lowest (g.active s.pt) = some l then (out.sr).getD (g.srstateAt l) else g.srstateAt l)

/-! ## The table of lane and group forms -/

/-- The width bit of an integer or exchange form (R118, R141). -/
def wd (f : ClassA) : Bool := f.h.fx.getLsbD 1

/-- A class-A form whose operands are A, B where `nb`, C where `nc`, all of one width (R76). -/
def lane3 (f : ClassA) (w nb nc bad : Bool) (op : DWord → DWord → DWord → LaneOut) : LaneForm :=
  { h := f.h, d := f.d, wide := w, bad8 := bad
    srcs := [Use.of f.a w] ++ (if nb && !f.bcast then [Use.of f.b w] else []) ++ (if nc then [Use.of f.c w] else [])
    gs := if nb && f.bcast then [f.b.toNat] else []
    res := fun g l => op (g.src f.a w l) (g.srcB f w l) (g.src f.c w l) }

def group3 (f : ClassA) (w nb nc bad : Bool) (op : DWord → DWord → DWord → LaneOut) : GroupForm :=
  { h := f.h, d := f.d, bad8 := bad
    gs := [f.a.toNat] ++ (if nb then [f.b.toNat] else []) ++ (if nc then [f.c.toNat] else [])
    res := fun g => op (g.gsrc f.a w) (g.gsrc f.b w) (g.gsrc f.c w) }

/-- The three-source integer operations of class A: the record, whether B and C are read, and the result (R120 to R122). -/
def intOp (i : Instr) : Option (ClassA × Bool × Bool × (DWord → DWord → DWord → LaneOut)) :=
  match i with
  | .iadd f => some (f, true, false, fun a b _ => addSat (f.mod.getLsbD 4) (f.h.fx.getLsbD 0) (wd f) a b)
  | .isub f => some (f, true, false, fun a b _ => subSat (f.mod.getLsbD 4) (f.h.fx.getLsbD 0) (wd f) a b)
  | .imul f => some (f, true, false, fun a b _ => out (mulLow (wd f) a b))
  | .imulh f => some (f, true, false, fun a b _ => out (mulHigh (f.h.fx.getLsbD 0) (wd f) a b))
  | .imad f => some (f, true, true, fun a b c => out (mulAdd (wd f) a b c))
  | .idiv f => some (f, true, false, fun a b _ => out (divQ (f.h.fx.getLsbD 0) (wd f) a b))
  | .irem f => some (f, true, false, fun a b _ => out (divR (f.h.fx.getLsbD 0) (wd f) a b))
  | .imin f => some (f, true, false, fun a b _ => out (minOf (f.h.fx.getLsbD 0) (wd f) a b))
  | .imax f => some (f, true, false, fun a b _ => out (maxOf (f.h.fx.getLsbD 0) (wd f) a b))
  | .iand f => some (f, true, false, fun a b _ => out (a &&& b))
  | .ior f => some (f, true, false, fun a b _ => out (a ||| b))
  | .ixor f => some (f, true, false, fun a b _ => out (a ^^^ b))
  | .iandn f => some (f, true, false, fun a b _ => out (a &&& ~~~b))
  | .shl f => some (f, true, false, fun a b _ => out (shlOf (wd f) a b))
  | .shr f => some (f, true, false, fun a b _ => out (shrOf (wd f) a b))
  | .sar f => some (f, true, false, fun a b _ => out (sarOf (wd f) a b))
  | .rot f => some (f, true, false, fun a b _ => out (rotOf (wd f) a b))
  | .bfe f => some (f, true, true, fun a b c => out (bfeOf (f.h.fx.getLsbD 0) (wd f) a b c))
  | .bfi f => some (f, true, true, fun a b c => out (bfiOf (wd f) a b c))
  | .mov f => some (f, false, false, fun a _ _ => out a)
  | .iabs f => some (f, false, false, fun a _ _ => out (absOfInt (wd f) a))
  | .ineg f => some (f, false, false, fun a _ _ => out (negOf (wd f) a))
  | .inot f => some (f, false, false, fun a _ _ => out (notOf (wd f) a))
  | .popc f => some (f, false, false, fun a _ _ => out (popcOf (wd f) a))
  | .clz f => some (f, false, false, fun a _ _ => out (clzOf (wd f) a))
  | .ctz f => some (f, false, false, fun a _ _ => out (ctzOf (wd f) a))
  | .brev f => some (f, false, false, fun a _ _ => out (brevOf (wd f) a))
  | _ => none

/-- The immediate integer operations: the record and the result of A and the extended immediate (R77, R124). -/
def immOp (i : Instr) : Option (ClassI × (DWord → DWord → LaneOut)) :=
  match i with
  | .iaddImm f => some (f, fun a b => addSat false (f.h.fx.getLsbD 0) (f.h.fx.getLsbD 1) a b)
  | .isubImm f => some (f, fun a b => subSat false (f.h.fx.getLsbD 0) (f.h.fx.getLsbD 1) a b)
  | .imulImm f => some (f, fun a b => out (mulLow (f.h.fx.getLsbD 1) a b))
  | .iminImm f => some (f, fun a b => out (minOf (f.h.fx.getLsbD 0) (f.h.fx.getLsbD 1) a b))
  | .imaxImm f => some (f, fun a b => out (maxOf (f.h.fx.getLsbD 0) (f.h.fx.getLsbD 1) a b))
  | .andImm f => some (f, fun a b => out (a &&& b))
  | .orImm f => some (f, fun a b => out (a ||| b))
  | .xorImm f => some (f, fun a b => out (a ^^^ b))
  | .andnImm f => some (f, fun a b => out (a &&& ~~~b))
  | .shlImm f => some (f, fun a b => out (shlOf (f.h.fx.getLsbD 1) a b))
  | .shrImm f => some (f, fun a b => out (shrOf (f.h.fx.getLsbD 1) a b))
  | .sarImm f => some (f, fun a b => out (sarOf (f.h.fx.getLsbD 1) a b))
  | .rotImm f => some (f, fun a b => out (rotOf (f.h.fx.getLsbD 1) a b))
  | _ => none

/-- The floating-point operations on typed operands (R127 to R134): element results by format and mode. -/
def floatOp (i : Instr) : Option (ClassA × Bool × Bool × (DWord → DWord → DWord → LaneOut)) :=
  let elems := fun (f : ClassA) (op : FFmt → RMode → Nat → Nat → Nat → Nat × DWord) =>
    onElems f.ty.toNat (op (tyFmt f.ty.toNat) (RMode.of f.rnd.toNat))
  match i with
  | .fadd f => some (f, true, false, elems f fun t m a b _ => t.add m a b)
  | .fsub f => some (f, true, false, elems f fun t m a b _ => t.sub m a b)
  | .fmul f => some (f, true, false, elems f fun t m a b _ => t.mul m a b)
  | .ffma f => some (f, true, true, elems f fun t m a b c => t.fma m a b c)
  | .fmin f => some (f, true, false, elems f fun t _ a b _ => t.minMax false a b)
  | .fmax f => some (f, true, false, elems f fun t _ a b _ => t.minMax true a b)
  | .fdiv f => some (f, true, false, elems f fun t m a b _ => t.div m a b)
  | .frnd f => some (f, false, false, elems f fun t m a _ _ => t.integral m a)
  | .fclass f => some (f, false, false, elems f fun t _ a _ _ => (t.classify a, 0#64))
  | .frcp f => some (f, false, false, elems f fun t m a _ _ => t.rcp m a)
  | .frsq f => some (f, false, false, elems f fun t m a _ _ => t.rsqrt m a)
  | .fsqrt f => some (f, false, false, elems f fun t m a _ _ => t.sqrt m a)
  | .fexp2 f => some (f, false, false, elems f fun t m a _ _ => t.exp2 m a)
  | .flog2 f => some (f, false, false, elems f fun t m a _ _ => t.log2 m a)
  | .fdot2 f => some (f, true, true, fun a b c =>
      let r := dot2 (tyFmt f.ty.toNat) (RMode.of f.rnd.toNat) a.toNat b.toNat c.toNat
      { val := BitVec.ofNat 64 r.1, flags := r.2 })
  | _ => none

/-- FSIN and FCOS: the sign of a zero that the spec does not state is a free bit of each lane (log entry 25, DESIGN CHOICE). -/
def turnOp (f : ClassA) (cosine : Bool) (free : DWord) (l : Nat) (a : DWord) : LaneOut :=
  onElems f.ty.toNat (fun x _ _ => (tyFmt f.ty.toNat).turn (RMode.of f.rnd.toNat) cosine (free.getLsbD l) x) a 0#64 0#64

def dotOp (f : ClassA) (a b c : DWord) : LaneOut :=
  { val := BitVec.ofNat 64 (idot4 (f.mod.getLsbD 1) (f.mod.getLsbD 0) a.toNat b.toNat c.toNat) }

/-- The lane form of an instruction in a state. -/
def laneForm (s : State) (i : Instr) : Option LaneForm :=
  let ls := fun (h : Header) => s.gang.effLanes s.pt h
  match intOp i, immOp i, floatOp i with
  | some (f, nb, nc, op), _, _ => if f.h.g then none else some (lane3 f (wd f) nb nc false op)
  | none, some (f, op), _ =>
    if f.h.g then none
    else some {
      h := f.h, d := f.d, wide := f.h.fx.getLsbD 1, srcs := [Use.of f.a (f.h.fx.getLsbD 1)]
      res := fun g l => op (g.src f.a (f.h.fx.getLsbD 1) l) (immOf f) }
  | none, none, some (f, nb, nc, op) => if f.h.g then none else some (lane3 f false nb nc (4 ≤ f.rnd.toNat) op)
  | none, none, none =>
    match i with
    | .sel f =>
      if f.h.g then none
      else some { lane3 f (wd f) true false false fun a _ _ => out a with
        res := fun g l => out (if g.kAt f.c.toNat l then g.src f.a (wd f) l else g.srcB f (wd f) l) }
    | .movi f =>
      if f.h.g then none
      else some { h := f.h, d := f.d, wide := f.h.fx.getLsbD 1, srcs := [], res := fun _ _ => out (immOf f) }
    | .movh f =>
      if f.h.g then none
      else some {
        h := f.h, d := f.d, wide := true, srcs := if f.d.toNat < 48 then [Use.of f.d true] else []
        res := fun g l => out (f.imm ++ (if f.d.toNat < 48 then g.vAt f.d.toNat l else 0#32)) }
    | .lea f =>
      if f.h.g then none
      else some { h := f.h, d := f.d, wide := true, srcs := indexUse f, res := fun g l => out ((g.effAddr f l).setWidth 64) }
    | .fsin f =>
      if f.h.g then none
      else some { h := f.h, d := f.d, wide := false, srcs := [Use.of f.a false], bad8 := 4 ≤ f.rnd.toNat, takes := 1
                  res := fun g l => turnOp f false (Config.freeValue s.fresh) l (g.src f.a false l) }
    | .fcos f =>
      if f.h.g then none
      else some { h := f.h, d := f.d, wide := false, srcs := [Use.of f.a false], bad8 := 4 ≤ f.rnd.toNat, takes := 1
                  res := fun g l => turnOp f true (Config.freeValue s.fresh) l (g.src f.a false l) }
    | .idot4 f => if f.h.g then none else some (lane3 f false true true false (dotOp f))
    | .cvt f =>
      let fs := s.fs f.fs
      if f.h.g then none
      else some { h := f.h, d := f.d, wide := false, srcs := [Use.of f.a false], bad8 := !fs.ok || fs.isZb
                  res := fun g l => cvtOne fs (f.bits 5 0) (f.bits 2 5) 32 (g.srstateAt l) (g.src f.a false l) }
    | .shfl f => some { lane3 f (wd f) true false false fun a _ _ => out a with
        srcs := [Use.of f.a (wd f)] ++ (if f.bcast then [] else [Use.of f.b false])
        res := fun g l => out (g.anyLane f.a (wd f) (shflLane (f.mod.extractLsb' 0 2).toNat (g.srcB f false l).toNat l)) }
    | .shflx f => some {
        h := f.h, d := f.d, wide := (wd f), srcs := [Use.of f.a (wd f), Use.of f.b (wd f), Use.of f.c false]
        res := fun g l =>
          let n := (g.src f.c false l).toNat % 64
          out (if n < 32 then g.anyLane f.a (wd f) n else g.anyLane f.b (wd f) (n - 32)) }
    | .bcast f => some {
        h := f.h, d := f.d, wide := (wd f), srcs := [Use.of f.a (wd f)]
        res := fun g _ => out (g.anyLane f.a (wd f) (f.mod.extractLsb' 0 5).toNat) }
    | .vote f =>
      if f.mod.extractLsb' 0 2 = 0#2 then
        some { h := f.h, d := f.d, wide := false, srcs := []
               res := fun g _ => out ((maskOf fun l => (ls f.h).contains l && g.kAt f.a.toNat l).setWidth 64) }
      else none
    | .matchLanes f => some {
        h := f.h, d := f.d, wide := false, srcs := [Use.of f.a (wd f)]
        res := fun g l => out ((maskOf fun j => (ls f.h).contains j && g.src f.a (wd f) j == g.src f.a (wd f) l).setWidth 64) }
    | .red f => some {
        h := f.h, d := f.d, wide := wd f, srcs := [Use.of f.a (wd f)], bad8 := 4 ≤ f.redRnd.toNat
        res := fun g _ => redOf f g (ls f.h) }
    | .scan f => some {
        h := f.h, d := f.d, wide := wd f, srcs := [Use.of f.a (wd f)], bad8 := 4 ≤ f.redRnd.toNat
        res := fun g l => scanOf f g (ls f.h) l }
    | .redix f => some {
        h := f.h, d := f.d, wide := true, srcs := [Use.of f.a false], res := fun g _ => redixOf f g (ls f.h) }
    | .qunpk f => some {
        h := f.h, d := f.d, wide := false, srcs := [Use.of f.a true], bad8 := !(s.fs f.fs).ok || !(s.fs f.fs).isZb
        res := fun g l => unpackOf f (s.fs f.fs) g l }
    | _ => none

/-- The group form of an instruction in a state. -/
def groupForm (s : State) (i : Instr) : Option GroupForm :=
  match intOp i, immOp i, floatOp i with
  | some (f, nb, nc, op), _, _ =>
    if f.h.g then some (group3 f (wd f) nb nc false fun a b c => extendOut f.h (op a b c)) else none
  | none, some (f, op), _ =>
    if f.h.g then
      some { h := f.h, d := f.d, gs := [f.a.toNat]
             res := fun g => extendOut f.h (op (g.gsrc f.a (f.h.fx.getLsbD 1)) (immOf f)) }
    else none
  | none, none, some (f, nb, nc, op) => if f.h.g then some (group3 f false nb nc (4 ≤ f.rnd.toNat) op) else none
  | none, none, none =>
    match i with
    | .sel f =>
      if f.h.g then
        some { h := f.h, d := f.d, gs := [f.a.toNat, f.b.toNat]
               res := fun g => extendOut f.h (out (if g.gpAt f.c.toNat then g.gsrc f.a (wd f) else g.gsrc f.b (wd f))) }
      else none
    | .movi f => if f.h.g then some { h := f.h, d := f.d, gs := [], res := fun _ => extendOut f.h (out (immOf f)) } else none
    | .movh f =>
      if f.h.g then some { h := f.h, d := f.d, gs := [f.d.toNat], res := fun g => out (f.imm ++ low (g.gAt f.d.toNat)) }
      else none
    | .lea f =>
      if f.h.g then some { h := f.h, d := f.d, gs := indexG f, res := fun g => out ((g.effAddr f 0).setWidth 64) } else none
    | .fsin f =>
      if f.h.g then
        some { h := f.h, d := f.d, gs := [f.a.toNat], bad8 := 4 ≤ f.rnd.toNat, takes := 1
               res := fun g => turnOp f false (Config.freeValue s.fresh) 32 (g.gsrc f.a false) }
      else none
    | .fcos f =>
      if f.h.g then
        some { h := f.h, d := f.d, gs := [f.a.toNat], bad8 := 4 ≤ f.rnd.toNat, takes := 1
               res := fun g => turnOp f true (Config.freeValue s.fresh) 32 (g.gsrc f.a false) }
      else none
    | .idot4 f => if f.h.g then some (group3 f false true true false (dotOp f)) else none
    | .cvt f =>
      let fs := s.fs f.fs
      if f.h.g then
        some { h := f.h, d := f.d, gs := [f.a.toNat], bad8 := !fs.ok || fs.isZb
               res := fun g => cvtOne fs (f.bits 5 0) (f.bits 2 5) 64 (g.srstateAt ((lowest (g.active s.pt)).getD 0))
                 (g.gsrc f.a false) }
      else none
    | _ => none

/-! ## Predicate results (R23, R123, R144) -/

/-- A lane form with a predicate result: everything but the destination predicate, and what it pops, is kept. -/
structure PredForm where
  h    : Header
  d    : BitVec 6
  srcs : List Use
  gs   : List Nat := []
  bad8 : Bool := false
  res  : Gang → Nat → Bool × DWord

def PredForm.ready (F : PredForm) (s : State) : Prop :=
  (F.gs.any s.gang.busyG) = false ∧ s.laneGate F.h F.srcs [] F.bad8 false = none

def PredEffect (F : PredForm) (s : State) (g' : Gang) : Prop :=
  let g := s.gang
  let out := F.res g
  g' = { g with r := { g.r with k := g'.r.k, mstat := g'.r.mstat, undo := g'.r.undo }, queues := g'.queues } ∧
  (g.r.undo = none → g'.r.undo = none) ∧
  (∀ n l, n < 7 → l < 32 → g'.kAt n l = if eff s F.h l ∧ n = F.d.toNat then (out l).1 else g.kAt n l) ∧
  (∀ q l, q < 8 → l < 32 →
    g'.queueAt q l = if eff s F.h l ∧ q ∈ popped F.srcs then (g.queueAt q l).drop 1 else g.queueAt q l) ∧
  (∀ b, g'.r.mstat.getLsbD b = (g.r.mstat.getLsbD b || (s.gang.effLanes s.pt F.h).any fun l => (out l).2.getLsbD b))

/-- The comparison of an integer form (R77, R118, R123). -/
def icmpOf (f : ClassA) (a b : DWord) : Bool :=
  compareI f.condBits.toNat (asInt (f.h.fx.getLsbD 0) (width (wd f)) a.toNat) (asInt (f.h.fx.getLsbD 0) (width (wd f)) b.toNat)

def icmpImmOf (f : ClassI) (a : DWord) : Bool :=
  compareI f.mod4.toNat (asInt (f.h.fx.getLsbD 0) (width (f.h.fx.getLsbD 1)) a.toNat)
    (asInt (f.h.fx.getLsbD 0) (width (f.h.fx.getLsbD 1)) (immOf f).toNat)

def fcmpOf (f : ClassA) (a b : DWord) : Bool × DWord :=
  (tyFmt f.ty.toNat).compare f.condBits.toNat (f.mod.getLsbD 3) a.toNat b.toNat

def predForm (s : State) (i : Instr) : Option PredForm :=
  match i with
  | .icmp f =>
    if f.h.g then none
    else some {
      h := f.h, d := f.d, srcs := [Use.of f.a (wd f)] ++ (if f.bcast then [] else [Use.of f.b (wd f)])
      gs := if f.bcast then [f.b.toNat] else [], res := fun g l => (icmpOf f (g.src f.a (wd f) l) (g.srcB f (wd f) l), 0#64) }
  | .icmpImm f =>
    if f.h.g then none
    else some {
      h := f.h, d := f.d, srcs := [Use.of f.a (f.h.fx.getLsbD 1)]
      res := fun g l => (icmpImmOf f (g.src f.a (f.h.fx.getLsbD 1) l), 0#64) }
  | .fcmp f =>
    if f.h.g then none
    else some {
      h := f.h, d := f.d, srcs := [Use.of f.a false] ++ (if f.bcast then [] else [Use.of f.b false])
      gs := if f.bcast then [f.b.toNat] else [], bad8 := 4 ≤ f.rnd.toNat
      res := fun g l => fcmpOf f (g.src f.a false l) (g.srcB f false l) }
  | .vote f =>
    if f.mod.extractLsb' 0 2 = 0#2 then none
    else some {
      h := f.h, d := f.d, srcs := []
      res := fun g _ =>
        (voteOf (f.mod.extractLsb' 0 2).toNat ((s.gang.effLanes s.pt f.h).map (g.kAt f.a.toNat)), 0#64) }
  | _ => none

/-- A group form with a predicate result: header, destination, group registers read, check 8, result. -/
def predGroupForm (i : Instr) : Option (Header × BitVec 6 × List Nat × Bool × (Gang → Bool × DWord)) :=
  match i with
  | .icmp f => if f.h.g then some (f.h, f.d, [f.a.toNat, f.b.toNat], false, fun g => (icmpOf f (g.gsrc f.a (wd f)) (g.gsrc f.b (wd f)), 0#64))
    else none
  | .icmpImm f =>
    if f.h.g then some (f.h, f.d, [f.a.toNat], false, fun g => (icmpImmOf f (g.gsrc f.a (f.h.fx.getLsbD 1)), 0#64)) else none
  | .fcmp f =>
    if f.h.g then some (f.h, f.d, [f.a.toNat, f.b.toNat], 4 ≤ f.rnd.toNat, fun g => fcmpOf f (g.gsrc f.a false) (g.gsrc f.b false))
    else none
  | _ => none

end Sys2Proof.Claims

section

open Sys2Proof Sys2Proof.Machine Sys2Proof.Claims

/-- Lane forms of the integer, immediate, floating-point, conversion and exchange instructions (R23, R26, R27, R30, R57):
where nothing stops the form it completes, writes its results in the lanes with an effect and nothing else, and goes on. The
sign of a zero result of FSIN and FCOS, which the spec does not state, is a free bit (the model's choice: log entry 25,
DESIGN CHOICE). -/
def Obligations.LaneFormsWriteTheirLanes : Prop :=
  ∀ (s : State) (i : Instr) (F : LaneForm), laneForm s i = some F → F.ready s →
    let s0 := { s with fresh := s.fresh + F.takes }
    ∃ g', exec i s = .next (s0.done (s0.setGang g')) ∧ LaneEffect F s g'

/-- Group forms of the same instructions. FSIN and FCOS: as for lane forms (the model's choice: log entry 25, DESIGN CHOICE). -/
def Obligations.GroupFormsWriteTheirRegister : Prop :=
  ∀ (s : State) (i : Instr) (F : GroupForm), groupForm s i = some F → F.ready s →
    let s0 := { s with fresh := s.fresh + F.takes }
    ∃ g', exec i s = .next (s0.done (s0.setGang g')) ∧ GroupEffect F s g'

/-- Comparisons and votes write one predicate (R23, R123, R144), and k7 and gp7 discard the write. -/
def Obligations.ComparisonsWritePredicates : Prop :=
  (∀ (s : State) (i : Instr) (F : PredForm), predForm s i = some F → F.ready s →
    ∃ g', exec i s = .next (s.done (s.setGang g')) ∧ PredEffect F s g' ∧ ∀ l, g'.kAt 7 l = true) ∧
  (∀ (s : State) (i : Instr) h d gs bad res, predGroupForm i = some (h, d, gs, bad, res) → s.groupGate h gs bad false = none →
    ∃ g', exec i s = .next (s.done (s.setGang g')) ∧
      g' = { s.gang with r := { s.gang.r with gp := g'.r.gp, mstat := s.gang.r.mstat ||| (res s.gang).2, undo := g'.r.undo } } ∧
      (∀ n, n < 7 → g'.gpAt n = if n = d.toNat then (res s.gang).1 else s.gang.gpAt n) ∧ g'.gpAt 7 = true)

end

namespace Sys2Proof.Claims

/-- The word passes checks 5 of R87 on a core of that kind. -/
def admittedOn (k : CoreKind) (i : Instr) : Prop := ∃ c, i.checks = some c ∧ c.admitted k = true

/-- The opcodes that R82 does not assign. -/
def reservedOpcode (n : Nat) : Bool :=
  (0x19 ≤ n && n ≤ 0x1F) || n == 0x37 || n == 0x3F || (0x53 ≤ n && n ≤ 0x5F) || (0x63 ≤ n && n ≤ 0x6F) ||
  (0x78 ≤ n && n ≤ 0x7F) || (0x8A ≤ n && n ≤ 0x9F) || (0xA3 ≤ n && n ≤ 0xAF) || (0xB9 ≤ n && n ≤ 0xBF) ||
  (0xC9 ≤ n && n ≤ 0xCF) || (0xDE ≤ n && n ≤ 0xDF) || 0xE8 ≤ n

/-- A header without a predicate prefix. -/
def plain : Header := { pn := false, pi := 7#3, g := false, t := false, fx := 0#2 }

/-- Words written out from R69 to R84: opcode, header, then the fields of the class, most significant first. -/
def sampleWords : List (BitVec 64 × Instr) := [
  -- NOP, the filler of R88: OP 0x00, PN 0, PI 7, G 0, T 0, FX 0, and 48 zero bits
  (0x00#8 ++ 0b0_111_0_0_00#8 ++ 0#48, .nop { h := plain, disp := 0#24, aux8 := 0#8, aux4 := 0#4, aux12 := 0#12 }),
  -- (k1) BREAK: OP 0x06, PI 1, DISP 2, AUX8 1
  (0x06#8 ++ 0b0_001_0_0_00#8 ++ 2#24 ++ 1#8 ++ 0#4 ++ 0#12,
    .brk { h := { plain with pi := 1#3 }, disp := 2#24, aux8 := 1#8, aux4 := 0#4, aux12 := 0#12 }),
  -- IADD v5, v3, v4: OP 0x20, D 5, A 3, B 4, C 0, MOD 0
  (0x20#8 ++ 0b0_111_0_0_00#8 ++ 5#6 ++ 3#6 ++ 4#6 ++ 0#6 ++ 0#24,
    .iadd { h := plain, d := 5#6, a := 3#6, b := 4#6, c := 0#6, mod := 0#12 }),
  -- IADD of opcode 0x38: D 5, A 3, MOD4 0, IMM32 0xFFFFFFFF, FX 01 (signed)
  (0x38#8 ++ 0b0_111_0_0_01#8 ++ 5#6 ++ 3#6 ++ 0#4 ++ 0xFFFFFFFF#32,
    .iaddImm { h := { plain with fx := 1#2 }, d := 5#6, a := 3#6, mod4 := 0#4, imm := 0xFFFFFFFF#32 }),
  -- FFMA.F32 v3, v1, v2, v4
  (0x43#8 ++ 0b0_111_0_0_00#8 ++ 3#6 ++ 1#6 ++ 2#6 ++ 4#6 ++ 0#24,
    .ffma { h := plain, d := 3#6, a := 1#6, b := 2#6, c := 4#6, mod := 0#12 }),
  -- BCAST v1, v2 from lane 9: MOD[16:12] = 9
  (0x72#8 ++ 0b0_111_0_0_00#8 ++ 1#6 ++ 2#6 ++ 0#6 ++ 0#6 ++ 9#12 ++ 0#12,
    .bcast { h := plain, d := 1#6, a := 2#6, b := 0#6, c := 0#6, mod := 9#12 }),
  -- LD v4, [ad2 + v7 << 2 + 16]: D 4, AD 2, X 7, SC 2, SZ 2, SP 0, SCP 0, ORD 0, CH 0, OFF 16
  (0x80#8 ++ 0b0_111_0_0_00#8 ++ 4#6 ++ 2#3 ++ 7#6 ++ 2#2 ++ 2#3 ++ 0#3 ++ 0#3 ++ 0#2 ++ 0#2 ++ 16#18,
    .ld { h := plain, d := 4#6, adr := 2#3, x := 7#6, sc := 2#2, sz := 2#3, sp := 0#3, scp := 0#3, ord := 0#2, ch := 0#2,
          off := 16#18 }),
  -- FENCE SCP 3, ORD 3 (G)
  (0xA2#8 ++ 0b0_111_1_0_00#8 ++ 0#6 ++ 0#3 ++ 0#6 ++ 0#2 ++ 0#3 ++ 0#3 ++ 3#3 ++ 3#2 ++ 0#2 ++ 0#18,
    .fence { h := { plain with g := true }, d := 0#6, adr := 0#3, x := 0#6, sc := 0#2, sz := 0#3, sp := 0#3, scp := 3#3,
             ord := 3#2, ch := 0#2, off := 0#18 }),
  -- RDV 5: OP 0xD1, G, AUX8 5
  (0xD1#8 ++ 0b0_111_1_0_00#8 ++ 0#24 ++ 5#8 ++ 0#4 ++ 0#12,
    .rdv { h := { plain with g := true }, disp := 0#24, aux8 := 5#8, aux4 := 0#4, aux12 := 0#12 }),
  -- SRD v3, SR 0x00: OP 0xE0, SREG 0, A 3, MOD 0
  (0xE0#8 ++ 0b0_111_0_0_00#8 ++ 0#16 ++ 3#6 ++ 0#26, .srd { h := plain, sreg := 0#16, a := 3#6, mod := 0#26 })]

end Sys2Proof.Claims

section

open Sys2Proof Sys2Proof.Machine Sys2Proof.Claims

/-- Encoding, then decoding, gives back every well-formed instruction, with every operand at every value that its encoding
admits, on every kind of core that admits it; and some kind does (R69 to R84, R87). -/
def Obligations.DecodeOfEncode : Prop :=
  ∀ (i : Instr) (w : BitVec 64), i.wellFormed = true → encode i = some w →
    (∀ k, admittedOn k i → decode k w = .ok i) ∧ ∃ k, decode k w = .ok i

/-- Every word that decodes is the encoding of the well-formed instruction it decodes to: each word has one reading. -/
def Obligations.EncodeOfDecode : Prop :=
  ∀ (k : CoreKind) (w : BitVec 64) (i : Instr), decode k w = .ok i →
    encode i = some w ∧ i.wellFormed = true ∧ admittedOn k i

/-- Words written out bit by bit decode to the instructions they stand for. -/
def Obligations.SampleWordsDecode : Prop := ∀ p ∈ sampleWords, decode .vector p.1 = .ok p.2

/-- R82, R87, R88: a reserved opcode fails check 1 on every core, whatever the other bits; the all-zero word and the
assembler's filler are NOPs. -/
def Sys2Proof.Claims.ReservedOpcodesFailCheckOne : Prop :=
  (∀ (k : CoreKind) (w : BitVec 64), reservedOpcode (w.toNat / 2 ^ 56) = true → decode k w = .error 1) ∧
  (∀ k : CoreKind, k ≠ .lintel →
    decode k 0#64 = .ok (.nop { h := { plain with pi := 0#3 }, disp := 0#24, aux8 := 0#8, aux4 := 0#4, aux12 := 0#12 }) ∧
    decode k 0x0070000000000000#64 = .ok (.nop { h := plain, disp := 0#24, aux8 := 0#8, aux4 := 0#4, aux12 := 0#12 })) ∧
  (∀ k : CoreKind, decode k 0xFFFFFFFFFFFFFFFF#64 = .error 1)

/-- R86, R87: a malformed word that is issued takes the illegal-instruction trap with the code of the check that failed; of QPACK, check 3
under the slot its word names comes before the checks 4 to 6 of the word (R138). -/
def Sys2Proof.Claims.MalformedWordTraps : Prop :=
  ∀ (s : State) (code : Nat), slotOf s.pc < (s.imemOf s.gk).nseg →
    (KMap.get {} (s.imemOf s.gk).slots (slotOf s.pc)).st = .landed →
    decode s.gang.kind ((s.imemOf s.gk).word s.pc) = .error code →
    s.fetchAt = .other (s.illegal (s.malformed ((s.imemOf s.gk).word s.pc) code))

/-- A step runs the decoded instruction: where the module issues and the bytes at the PC of the part chosen decode to `i` in
a slot that has landed, the step is `exec i`. The part chosen is a part of a gang of the quadrant whose turn it is; the only
gang there is, with one part, is chosen (R32, R36). The order in which gangs issue is the model's choice (log entry 3, DESIGN
CHOICE). -/
def Obligations.StepRunsDecodedInstruction : Prop :=
  ∀ (s : State) (i : Instr), s.stopped = none →
    let c := { s.tick with turn := true }
    s.tick.runq ≠ [] → (s.tick.turn = false ∨ s.tick.due = []) →
    (∀ t, c.chosen = some t → slotOf t.pc < (t.imemOf t.gk).nseg → (KMap.get {} (t.imemOf t.gk).slots (slotOf t.pc)).st = .landed →
      decode t.gang.kind ((t.imemOf t.gk).word t.pc) = .ok i → step s = exec i t) ∧
    (∀ t, c.chosen = some t → t.gk ∈ c.issuers ∧ t.pt ∈ (c.gangAt t.gk).parts) ∧
    (∀ k p, c.issuers = [k] → (c.gangAt k).parts = [p] → c.chosen = some (c.rotate.issueAs k p [k] [k]))

/-- A step performs the event owed longest, when it is the events' turn or no gang issues. The order of events is the model's
choice (log entry 3, DESIGN CHOICE). -/
def Obligations.StepPerformsOwedEvent : Prop :=
  ∀ (s : State) (e : Instr) (r : List Instr), s.stopped = none → s.tick.due = e :: r → (s.tick.turn = true ∨ s.tick.runq = []) →
    step s = exec e { s.tick with due := r, turn := false }

/-- R92: an instruction that goes on moves the PCs of the live slices of its part to the next word, and nothing else; at the
last word of a slot the segment-cross trap (cause 11) is taken after that, with TPC and TINFO at the next word, which
wraps at 2^18. `e` is the state with the instruction's effect. -/
def Obligations.GoingOn : Prop :=
  ∀ (s e : State), e.gang.ahead = none → e.gang.rel = none →
    (MidSlot e → s.done e = movedOn e) ∧
    (¬ MidSlot e → e.gang.kind = .vector → e.gang.hstate = false → (e.launchOf e.gang.team).hent ≠ 0#64 →
      OnlyGang e (s.done e)
        (((e.gang.setPc (e.gang.partSlices e.pt) (nextPc e.pc)).record
          { cause := 11, lanes := e.gang.trapLanes e.pt, info := (nextPc e.pc).setWidth 64, pc := nextPc e.pc }).enterHandler
            ((e.launchOf e.gang.team).hent.setWidth 18)))

end

namespace Sys2Proof.Claims

open Sys2Proof.Machine

/-- The issuing gang has trapped at its word and stands at its handler (R115, R218): the record, the shadow, H, one part of
its live slices at the handler with counters 0 and depth 0, an empty bypass; a SYSC that is out is kept for the return (log entry 104, DEDUCED);
nothing else of the device has changed. -/
def AtHandler (s t : State) (x : TrapInfo) : Prop :=
  OnlyGang s t t.gang ∧
  t.gang.tcause.toNat = x.cause % 256 + x.dcode % 16 * 256 + lowSlice x.lanes * 4096 + x.aux % 4096 * 65536 ∧
  t.gang.tpc = x.pc.setWidth 64 ∧ t.gang.tinfo = x.info ∧ t.gang.tlanes = x.lanes.setWidth 64 ∧
  t.gang.hstate = true ∧ t.gang.shadow = some { slices := s.gang.slices, cnt := s.gang.cnt } ∧
  t.gang.bypFull = 0#24 ∧ (∀ l, t.gang.cntAt l = 0#6) ∧
  (∀ n, s.gang.liveSlice n = false → t.gang.sliceAt n = s.gang.sliceAt n) ∧
  (∀ n, n < 8 → s.gang.liveSlice n = true → t.gang.sliceAt n =
    { present := true, pc := s.launch.hent.setWidth 18, depth := 0#8, part := s.gang.liveSlices.headD 0 }) ∧
  t.gang = { s.gang with
    slices := t.gang.slices, cnt := t.gang.cnt, hstate := true, shadow := t.gang.shadow, bypFull := 0#24
    tcause := t.gang.tcause, tpc := t.gang.tpc, tinfo := t.gang.tinfo, tlanes := t.gang.tlanes
    tslice := x.slice.getD (lowSlice x.lanes), sysn := 0, svent := 0#64
    sysOld := if s.gang.sysn = 0 then none else some (s.gang.sysn, s.gang.svent) }

/-- A gang of a vector core whose team has a handler and that is not in it, neither running ahead nor in a region. -/
def HasHandler (s : State) : Prop :=
  Settled s ∧ s.gang.kind = .vector ∧ s.gang.hstate = false ∧ s.launch.hent ≠ 0#64

/-- The checks of a lane form that R87 numbers 7 to 11, the wait for a register, and the form without an effect (R26):
what the gate answers, in their order. -/
def laneChecks (s : State) (h : Header) (srcs dst : List Use) (bad8 priv : Bool) : Option State :=
  let g := s.gang
  let uses := srcs ++ dst
  let queues := (popped srcs).isEmpty == false || dst.any Use.isQueue
  -- a register that a load will write: the word waits
  if ∃ u ∈ uses, g.busyV u then some s
  else if ∃ u ∈ uses, g.badUse u then some (s.illegal 7)
  else if bad8 then some (s.illegal 8)
  else if priv then some (s.trap 2 0#64)
  -- no lane has an effect: the word only goes on
  else if ∀ l ∈ lanes, g.eff s.pt h l = false then some (s.done s)
  -- bypass-empty: the active lanes of the slices whose position is empty
  else if g.bypEmptyLanes s.pt srcs ≠ 0#32 then some (s.trapLanes 3 (g.bypEmptyLanes s.pt srcs) 0#64)
  else if queues = false then none
  -- queues stop run-ahead (R110) and are barred from regions (R106)
  else if g.ahead ≠ none then some s.halt
  else if g.popEmpty s.pt h srcs ≠ 0#32 then some (s.trapLanes 4 (g.popEmpty s.pt h srcs) 0#64)
  else if (maskOf fun l => dst.any fun d => (g.pushFull s.pt h srcs d).getLsbD l) ≠ 0#32 then
    some (s.trapLanes 5 (maskOf fun l => dst.any fun d => (g.pushFull s.pt h srcs d).getLsbD l) 0#64)
  else if g.rel ≠ none then some (s.trap 14 0#64)
  else none

end Sys2Proof.Claims

section

open Sys2Proof Sys2Proof.Machine Sys2Proof.Claims

/-- R115, R117, R218: taking a trap writes the record of R115 and enters the handler as R218 says. -/
def Obligations.TrapEntersHandler : Prop :=
  ∀ (s : State) (x : TrapInfo), HasHandler s → AtHandler s (s.takeTrap x) x

/-- R87, R26: the checks of a lane form, in the order of the table; the first that fails alone decides. -/
def Sys2Proof.Claims.LaneChecksInOrder : Prop :=
  ∀ (s : State) (h : Header) (srcs dst : List Use) (bad8 priv : Bool),
    s.laneGate h srcs dst bad8 priv = laneChecks s h srcs dst bad8 priv

/-- The checks of a group form (R26, R87), which reads no bypass and no queue. -/
def Sys2Proof.Claims.GroupChecksInOrder : Prop :=
  ∀ (s : State) (h : Header) (gs : List Nat) (bad8 priv : Bool),
    s.groupGate h gs bad8 priv =
      if ∃ n ∈ gs, s.gang.busyG n then some s
      else if bad8 then some (s.illegal 8)
      else if priv then some (s.trap 2 0#64)
      else if (∀ l ∈ lanes, s.gang.active s.pt l = false) ∨ s.gang.gpAt h.pi.toNat = h.pn then some (s.done s)
      else none

end

namespace Sys2Proof.Claims

open Sys2Proof.Machine

/-- A binary integer operation is `o32` on the low halves and `o64` on whole registers. -/
def IsBinary (op : Bool → DWord → DWord → DWord) (o32 : Word → Word → Word) (o64 : DWord → DWord → DWord) : Prop :=
  ∀ a b : DWord, low (op false a b) = o32 (low a) (low b) ∧ op true a b = o64 a b

def IsUnary (op : Bool → DWord → DWord) (o32 : Word → Word) (o64 : DWord → DWord) : Prop :=
  ∀ a : DWord, low (op false a) = o32 (low a) ∧ op true a = o64 a

/-- W bits of a register as a number, unsigned or two's complement. -/
def uN (w : Nat) (x : DWord) : Nat := x.toNat % 2 ^ w
def sN (w : Nat) (x : DWord) : Int := if 2 ^ (w - 1) ≤ uN w x then (uN w x : Int) - 2 ^ w else uN w x

/-- The clamp of R120 with its flag: the nearer bound, and SV, for a result outside lo to hi. -/
def clamped (w : Nat) (lo hi x : Int) (r : LaneOut) : Prop :=
  (lo ≤ x ∧ x ≤ hi → r.flags = 0#64 ∧ (r.val.toNat : Int) % 2 ^ w = x % 2 ^ w) ∧
  (x < lo → r.flags = flagSV ∧ (r.val.toNat : Int) % 2 ^ w = lo % 2 ^ w) ∧
  (hi < x → r.flags = flagSV ∧ (r.val.toNat : Int) % 2 ^ w = hi % 2 ^ w)

/-- What QPACK does in a lane, without its draw. -/
def packForm (s : State) (f : ClassE) : LaneForm :=
  { h := f.h, d := f.d, wide := true, bad8 := !(s.fs f.fs).ok || !(s.fs f.fs).isZb
    srcs := [{ f := f.a }] ++ (if (s.fs f.fs).sch = 2 then [{ f := BitVec.ofNat 6 (f.bits 6 5) }] else [])
    res := fun g l => packLane (s.fs f.fs) (packOf f (s.fs f.fs) g) l }

end Sys2Proof.Claims

section

open Sys2Proof Sys2Proof.Machine Sys2Proof.Claims

/-- R120, R121, R122: what the integer operations compute, at 32 and at 64 bits. -/
def Sys2Proof.Claims.IntegerArithmetic : Prop :=
  (∀ sg, IsBinary (fun w a b => (addSat false sg w a b).val) (· + ·) (· + ·)) ∧
  (∀ sg, IsBinary (fun w a b => (subSat false sg w a b).val) (· - ·) (· - ·)) ∧
  IsBinary mulLow (· * ·) (· * ·) ∧
  IsBinary (mulHigh false) (fun a b => ((a.setWidth 64 * b.setWidth 64) >>> 32).truncate 32)
    (fun a b => ((a.setWidth 128 * b.setWidth 128) >>> 64).truncate 64) ∧
  IsBinary (mulHigh true) (fun a b => ((a.signExtend 64 * b.signExtend 64) >>> 32).truncate 32)
    (fun a b => ((a.signExtend 128 * b.signExtend 128) >>> 64).truncate 64) ∧
  (∀ c : DWord, IsBinary (fun w a b => mulAdd w a b c) (fun a b => a * b + low c) (fun a b => a * b + c)) ∧
  IsBinary (divQ false) (fun a b => if b = 0 then BitVec.allOnes 32 else a / b) (fun a b => if b = 0 then BitVec.allOnes 64 else a / b) ∧
  IsBinary (divQ true) (fun a b => if b = 0 then BitVec.allOnes 32 else a.sdiv b)
    (fun a b => if b = 0 then BitVec.allOnes 64 else a.sdiv b) ∧
  IsBinary (divR false) (fun a b => if b = 0 then a else a % b) (fun a b => if b = 0 then a else a % b) ∧
  IsBinary (divR true) (fun a b => if b = 0 then a else a.srem b) (fun a b => if b = 0 then a else a.srem b) ∧
  IsBinary (minOf false) (fun a b => if a ≤ b then a else b) (fun a b => if a ≤ b then a else b) ∧
  IsBinary (minOf true) (fun a b => if a.sle b then a else b) (fun a b => if a.sle b then a else b) ∧
  IsBinary (maxOf false) (fun a b => if a ≤ b then b else a) (fun a b => if a ≤ b then b else a) ∧
  IsBinary (maxOf true) (fun a b => if a.sle b then b else a) (fun a b => if a.sle b then b else a) ∧
  IsBinary shlOf (fun a b => if b.toNat < 32 then a <<< b.toNat else 0) (fun a b => if b.toNat < 64 then a <<< b.toNat else 0) ∧
  IsBinary shrOf (fun a b => if b.toNat < 32 then a >>> b.toNat else 0) (fun a b => if b.toNat < 64 then a >>> b.toNat else 0) ∧
  IsBinary sarOf (fun a b => a.sshiftRight (min b.toNat 31)) (fun a b => a.sshiftRight (min b.toNat 63)) ∧
  IsBinary rotOf (fun a b => a.rotateLeft (b.toNat % 32)) (fun a b => a.rotateLeft (b.toNat % 64)) ∧
  IsUnary absOfInt (fun a => if a.msb then -a else a) (fun a => if a.msb then -a else a) ∧
  IsUnary negOf (-·) (-·) ∧ IsUnary notOf (~~~·) (~~~·)

/-- R120: saturating sums and differences, signed and unsigned, at both widths. -/
def Sys2Proof.Claims.SaturationClamps : Prop :=
  ∀ (w : Bool) (a b : DWord),
    clamped (width w) (-(2 ^ (width w - 1))) (2 ^ (width w - 1) - 1) (sN (width w) a + sN (width w) b) (addSat true true w a b) ∧
    clamped (width w) (-(2 ^ (width w - 1))) (2 ^ (width w - 1) - 1) (sN (width w) a - sN (width w) b) (subSat true true w a b) ∧
    clamped (width w) 0 (2 ^ width w - 1) (uN (width w) a + uN (width w) b) (addSat true false w a b) ∧
    clamped (width w) 0 (2 ^ width w - 1) (uN (width w) a - uN (width w) b) (subSat true false w a b)

/-- R122: bit fields, bit counts and bit reversal, bit by bit. -/
def Sys2Proof.Claims.BitOperations : Prop :=
  ∀ (w sg : Bool) (a b c : DWord) (i : Nat), i < width w →
    let W := width w
    let o := min (b.toNat % 256) W
    let nE := min (c.toNat % 256) (W - o)
    let nI := min (b.toNat / 256 % 256) (W - o)
    ((bfeOf sg w a b c).getLsbD i = if i < nE then a.getLsbD (o + i) else sg && decide (0 < nE) && a.getLsbD (o + nE - 1)) ∧
    ((bfiOf w a b c).getLsbD i = if o ≤ i ∧ i < o + nI then a.getLsbD (i - o) else c.getLsbD i) ∧
    ((brevOf w a).getLsbD i = a.getLsbD (W - 1 - i)) ∧
    (popcOf w a).toNat = ((List.range W).map fun j => (a.getLsbD j).toNat).sum ∧
    ((clzOf w a).toNat = i ↔ a.getLsbD (W - 1 - i) = true ∧ ∀ j, W - 1 - i < j → j < W → a.getLsbD j = false) ∧
    ((ctzOf w a).toNat = i ↔ a.getLsbD i = true ∧ ∀ j, j < i → a.getLsbD j = false) ∧
    ((∀ j, j < W → a.getLsbD j = false) → (clzOf w a).toNat = W ∧ (ctzOf w a).toNat = W)

/-- R84, R126: the address registers. ADSET writes one of the eight, with the shifted immediate over the base 0 or the
kernel's data base, a group register, a window and a group register, or a sum mod 2^72; ADGET and ADGET.W write a group
register. Everything else of the gang is kept. -/
def Obligations.AddressRegisters : Prop :=
  ∀ s : State,
    (∀ (i : Instr) (h : Header) (gs : List Nat) (d : Nat) (v : VAddr),
      (match i with
        | .adsetImm f => some (f.h, [], f.d.toNat,
            (if f.mod4.getLsbD 3 then s.launch.dbase.setWidth 72 else 0#72) + (f.imm.setWidth 72 <<< (8 * (f.mod4.toNat % 8))))
        | .adset f => some (f.h, [f.a.toNat], f.d.toNat, (s.gang.gAt f.a.toNat).setWidth 72)
        | .adsetW f => some (f.h, [f.a.toNat, f.b.toNat], f.d.toNat,
            ((s.gang.gAt f.b.toNat).truncate 8 : BitVec 8) ++ s.gang.gAt f.a.toNat)
        | .adsetAdd f => some (f.h, [f.b.toNat], f.d.toNat, s.gang.adAt f.a.toNat + (s.gang.gAt f.b.toNat).signExtend 72)
        | _ => none) = some (h, gs, d, v) →
      s.groupGate h gs false false = none →
      ∃ g', exec i s = .next (s.done (s.setGang g')) ∧ g' = { s.gang with r := { s.gang.r with ad := g'.r.ad, undo := g'.r.undo } } ∧
        ∀ n, g'.adAt n = if n = d then v else s.gang.adAt n) ∧
    (∀ (i : Instr) (h : Header) (d : Nat) (v : DWord),
      (match i with
        | .adget f => some (f.h, f.d.toNat, (s.gang.adAt f.a.toNat).truncate 64)
        | .adgetW f => some (f.h, f.d.toNat, ((s.gang.adAt f.a.toNat).extractLsb' 64 8).setWidth 64)
        | _ => none) = some (h, d, v) →
      s.groupGate h [d] false false = none →
      ∃ g', exec i s = .next (s.done (s.setGang g')) ∧ g' = { s.gang with r := { s.gang.r with g := g'.r.g, undo := g'.r.undo } } ∧
        ∀ n, n < 32 → g'.gAt n = if n = d then v else s.gang.gAt n)

/-- R138: QPACK packs the 32 lanes into one block, gives every lane with an effect its word and the scale, and steps the
draw of every present lane when the slot rounds stochastically. Under a ZB slot that its fields do not go with it is illegal by check 3. -/
def Obligations.PackWritesItsBlock : Prop :=
  ∀ (s : State) (f : ClassE),
    let goes := ((s.fs f.fs).sch = 1 ∧ f.bits 6 5 = 0) ∨ ((s.fs f.fs).sch = 2 ∧ f.bits 6 5 < 48)
    ((s.fs f.fs).isZb = true → ¬ goes → exec (.qpack f) s = .next (s.illegal 3)) ∧
    ((packForm s f).ready s → goes →
    ∃ g', exec (.qpack f) s = .next (s.done (s.setGang g')) ∧
      LaneEffect (packForm s f) s { g' with r := { g'.r with srstate := s.gang.r.srstate } } ∧
      ∀ l, l < 32 → g'.srstateAt l =
        if s.gang.present l = true ∧ (s.fs f.fs).rnd = 4 then xorShift (s.gang.srstateAt l) else s.gang.srstateAt l)

end

namespace Sys2Proof.Claims

open Sys2Proof.Machine

/-! ## Control (R91 to R107, R113, R114) -/

/-- The new counter of a lane of P under a structured instruction (R97): lane, old counter. -/
def counterRule (i : Instr) (g : Gang) : Option (ClassB × (Nat → Nat → Nat)) :=
  match i with
  | .ifK f => some (f, fun l c => if 0 < c then c + 1 else if g.cond f.h l then 0 else 1)
  | .elseK f => some (f, fun _ c => if c = 0 then 1 else if c = 1 then 0 else c)
  | .endif f => some (f, fun _ c => c - 1)
  | .loop f => some (f, fun _ c => if 0 < c then c + 2 else 0)
  | .brk f => some (f, fun l c => if c = 0 ∧ g.cond f.h l then f.aux8.toNat + 2 else c)
  | .cont f => some (f, fun l c => if c = 0 ∧ g.cond f.h l then f.aux8.toNat + 1 else c)
  | _ => none

/-- `g'` is `g` with the counters of the lanes of P changed by the rule. -/
def Recounted (p : Nat) (g g' : Gang) (upd : Nat → Nat → Nat) : Prop :=
  g' = { g with cnt := g'.cnt } ∧
  ∀ l, l < 32 → (g'.cntAt l).toNat = if g.partLane p l then upd l (g.cntAt l).toNat else (g.cntAt l).toNat

/-- The issuing part has jumped to `a` from a gang `g`: its bypass is empty (R28). -/
def jumped (s : State) (g : Gang) (a : IAddr) : Gang := (g.setPc (g.partSlices s.pt) a).emptyBypass (g.partSlices s.pt)

/-- The target lies in the slot of the branch word (R92). -/
def SameSlot (pc : IAddr) (disp : BitVec 24) : Prop := ((pc.toNat : Int) + 8 * disp.toInt) / 4096 = (pc.toNat / 4096 : Nat)

/-- PC + 8 × DISP (R79). -/
def target (pc : IAddr) (disp : BitVec 24) : IAddr := pc + 8#18 * disp.signExtend 18

/-! ### Branches (R31, R99 to R101) -/

/-- Parts have names: a slice that names the part of a live slice is of that part itself (R31, R106). -/
def PartNames (g : Gang) : Prop := ∀ m ∈ g.liveSlices, (g.sliceAt (g.sliceAt m).part).part = (g.sliceAt m).part

/-- What a branch decides in each slice of the issuing part, and what it does to return stacks. -/
structure Branch where
  dec   : Nat → Decision
  /-- lanes that pop the queue that holds a target -/
  qs    : List Nat := []
  ls    : List Nat := []
  push  : Bool := false
  pop   : Bool := false

/-- Which slices of the part a RET returns from. -/
def retSlices (s : State) (f : ClassB) : List Nat :=
  let g := s.gang
  (g.partSlices s.pt).filter fun n =>
    (if f.h.g then (if g.geff s.pt f.h then Decision.go 0#18 else .stay) else g.decide_ s.pt f.h (fun _ => 0#18) n) == .go 0#18

/-- A branch with what it decides; RET's targets are those of its return entries once the missing ones are filled (R244). -/
def branchOf (s : State) (i : Instr) : Option Branch :=
  let g := s.gang
  let rel := fun (f : ClassB) (push : Bool) =>
    { dec := if f.h.g then (fun _ => if g.geff s.pt f.h then .go (target s.pc f.disp) else .stay)
        else g.decide_ s.pt f.h fun _ => target s.pc f.disp
      push := push : Branch }
  let ind := fun (f : ClassA) (push : Bool) =>
    if f.h.g then { dec := fun _ => .go ((g.gAt f.a.toNat).setWidth 18), push := push : Branch }
    else { dec := g.decide_ s.pt f.h fun l => (g.src f.a false l).setWidth 18
           qs := popped [Use.of f.a false], ls := g.effLanes s.pt f.h, push := push }
  match i with
  | .bra f => some (rel f false)
  | .call f => some (rel f true)
  | .brx f => some (ind f false)
  | .callx f => some (ind f true)
  | .ret f => some {
      dec := fun n =>
        match (if f.h.g then (if g.geff s.pt f.h then Decision.go 0#18 else .stay) else g.decide_ s.pt f.h (fun _ => 0#18) n) with
        | .go _ => .go ((s.fillRets (retSlices s f)).1.gang.retAddr n)
        | d => d
      pop := true }
  | _ => none

/-- The state in which the slices move: loop queues that held a target are popped, CALL and CALLX have pushed, RET has its entries. -/
def branchBase (s : State) (i : Instr) (b : Branch) : State :=
  let movers := (s.gang.partSlices s.pt).filter fun n => b.dec n != .stay
  let popped := s.setGang (s.gang.pop b.qs b.ls)
  match i with
  | .ret f => (s.fillRets (retSlices s f)).1
  | .brx _ => popped
  | .callx _ => (pushAct movers popped).2
  | .call _ => if movers.isEmpty then s else (pushAct movers s).2
  | _ => s

/-- A RET whose entries are all held, or can be filled. -/
def returns (s : State) (i : Instr) : Prop := ∀ f, i = .ret f → (s.fillRets (retSlices s f)).2 = false

/-- The checks of the branch's own operands (R79, R87, R92, R100). -/
def branchChecks (s : State) (i : Instr) (b : Branch) : Prop :=
  match i with
  | .bra f | .call f => (∃ n ∈ s.gang.partSlices s.pt, b.dec n ≠ .stay) → SameSlot s.pc f.disp
  | .brx f | .callx f =>
    (if f.h.g then s.groupGate f.h [f.a.toNat] false false = none else s.laneGate f.h [Use.of f.a false] [] false false = none) ∧
    ∀ n ∈ s.gang.partSlices s.pt, ∀ a, b.dec n = .go a → a.toNat % 8 = 0 ∧ s.targetTrap a = none
  | .ret _ => ∀ n ∈ s.gang.partSlices s.pt, ∀ a, b.dec n = .go a → a.toNat % 8 = 0 ∧ s.targetTrap a = none
  | _ => True

/-- The part has branched, from the gang `g` of `branchBase`: each slice stands at its own target or at the next word; slices that decided
alike are one part, named by its lowest slice; the bypass of slices that jumped, and of all when the part has parted, is empty (R28,
R31). -/
def Branched (s : State) (b : Branch) (g g' : Gang) : Prop :=
  let sl := s.gang.partSlices s.pt
  (∀ n ∈ sl,
    (g'.sliceAt n).pc = (match b.dec n with
      | .go a => a
      | _ => nextPc s.pc) ∧
    (g'.sliceAt n).part = (if ∀ m ∈ sl, b.dec m = b.dec n then (g.sliceAt n).part
      else (sl.find? fun m => b.dec m == b.dec n).getD 0) ∧
    (g'.sliceAt n).depth = (if b.dec n ≠ .stay ∧ b.pop then (g.sliceAt n).depth - 1#8 else (g.sliceAt n).depth) ∧
    (b.dec n ≠ .stay → b.pop = true → KMap.get none g'.ret (g.retKey n) = none)) ∧
  (∀ n, n ∉ sl → g'.sliceAt n = g.sliceAt n) ∧
  (∀ n p, n < 8 → 1 ≤ p → p ≤ 3 → g'.bypFullAt n p =
    (g.bypFullAt n p && decide (n ∉ sl ∨ (b.dec n = .stay ∧ ∀ m ∈ sl, b.dec m = .stay)))) ∧
  g' = { g with slices := g'.slices, bypFull := g'.bypFull, ret := g'.ret, falls := g'.falls } ∧
  (b.pop = false → g'.ret = g.ret) ∧ ((∀ n ∈ sl, ∀ m ∈ sl, b.dec n = b.dec m) → g'.falls = g.falls)

end Sys2Proof.Claims

section

open Sys2Proof Sys2Proof.Machine Sys2Proof.Claims

/-- R96, R97: IF, ELSE, ENDIF, LOOP, BREAK and CONT move the counters of the part's lanes; where every lane is left with a
counter above 0 the part skips to its target, else it goes on; a counter that would pass 63 traps and moves none. -/
def Sys2Proof.Claims.StructuredCounters : Prop :=
  ∀ (s : State) (i : Instr) (f : ClassB) (upd : Nat → Nat → Nat), counterRule i s.gang = some (f, upd) →
    ((∃ l, l < 32 ∧ s.gang.partLane s.pt l = true ∧ 63 < upd l (s.gang.cntAt l).toNat) →
      exec i s = .next (s.trapLanes 6 (maskOf fun l => s.gang.partLane s.pt l && 63 < upd l (s.gang.cntAt l).toNat) 0#64)) ∧
    ((∀ l, l < 32 → s.gang.partLane s.pt l = true → upd l (s.gang.cntAt l).toNat ≤ 63) →
      ∃ g', Recounted s.pt s.gang g' upd ∧
        (g'.anyActive s.pt = true → exec i s = .next (s.done (s.setGang g'))) ∧
        (g'.anyActive s.pt = false → SameSlot s.pc f.disp → Settled s →
          ∃ t, exec i s = .next t ∧ OnlyGang s t (jumped s g' (target s.pc f.disp))) ∧
        (g'.anyActive s.pt = false → ¬ SameSlot s.pc f.disp →
          exec i s = .next (s.trap 11 ((target s.pc f.disp).setWidth 64))))

/-- R97: ENDLOOP turns 1 into 0; where a lane is then at 0 the part goes back to its target, else every counter of 2 or
more falls by 2 and the part goes on. -/
def Sys2Proof.Claims.EndloopGoesRoundOrLeaves : Prop :=
  ∀ (s : State) (f : ClassB),
    ∃ g1, Recounted s.pt s.gang g1 (fun _ c => if c = 1 then 0 else c) ∧
      (g1.anyActive s.pt = true → SameSlot s.pc f.disp → Settled s →
        ∃ t, exec (.endloop f) s = .next t ∧ OnlyGang s t (jumped s g1 (target s.pc f.disp))) ∧
      (g1.anyActive s.pt = true → ¬ SameSlot s.pc f.disp →
        exec (.endloop f) s = .next (s.trap 11 ((target s.pc f.disp).setWidth 64))) ∧
      (g1.anyActive s.pt = false →
        ∃ g2, Recounted s.pt g1 g2 (fun _ c => if 2 ≤ c then c - 2 else c) ∧ exec (.endloop f) s = .next (s.done (s.setGang g2)))

/-- R31, R99 to R101: BRA, BRX, CALL, CALLX and RET move the slices of the part to where they decide, and part it where they
decide differently; RET pops. -/
def Sys2Proof.Claims.BranchesMoveSlices : Prop :=
  ∀ (s : State) (i : Instr) (b : Branch), branchOf s i = some b → branchChecks s i b → Settled s → PartNames s.gang →
    (∀ n ∈ s.gang.partSlices s.pt, b.dec n ≠ .split) →
    ((∃ n ∈ s.gang.partSlices s.pt, b.dec n = .stay) → MidSlot s) → s.gang.partSlices s.pt ≠ [] →
    (b.push = true → ∀ n ∈ s.gang.partSlices s.pt, b.dec n ≠ .stay → (s.gang.sliceAt n).depth ≠ 255#8) →
    (b.pop = true → ∀ n ∈ s.gang.partSlices s.pt, b.dec n ≠ .stay → (s.gang.sliceAt n).depth ≠ 0#8) → returns s i →
    let e := branchBase s i b
    ∃ t g', exec i s = .next t ∧ OnlyGang e t g' ∧ Branched s b e.gang g'

/-- R101, R244: a call pushes the next word's address in every slice that jumps, where the stack cache holds it; older entries and data lines
may be spilled, to memory as stores of the die. A return whose entries the cache does not hold takes them from the four bytes of each in
the region; where it holds them it takes nothing else. -/
def Sys2Proof.Claims.ReturnEntries : Prop :=
  (∀ (s : State) (sl : List Nat), (∀ n ∈ sl, n < 8 ∧ (s.gang.sliceAt n).depth ≠ 255#8) → sl.Nodup →
    let r := pushAct sl s
    r.1 = none ∧
    (∀ n, r.2.gang.sliceAt n = if n ∈ sl then { s.gang.sliceAt n with depth := (s.gang.sliceAt n).depth + 1#8 } else s.gang.sliceAt n) ∧
    (∀ n ∈ sl, KMap.get none r.2.gang.ret (256 * n + (s.gang.sliceAt n).depth.toNat) = some (nextPc s.pc)) ∧
    r.2.gang = { s.gang with slices := r.2.gang.slices, ret := r.2.gang.ret, kdata := r.2.gang.kdata, kdirty := r.2.gang.kdirty } ∧
    (∀ k, k ≠ s.gk → r.2.gangAt k = s.gangAt k) ∧
    r.2 = { s with
      gangs := r.2.gangs, log := r.2.log, vclock := r.2.vclock, nextId := r.2.nextId, due := r.2.due, fresh := r.2.fresh }) ∧
  (∀ (s : State) (sl : List Nat), (∀ n ∈ sl, (KMap.get none s.gang.ret (s.gang.retKey n)).isSome) → s.fillRets sl = (s, false)) ∧
  (∀ (s : State) (n pa : Nat) (leaf : DWord), KMap.get none s.gang.ret (s.gang.retKey n) = none →
    (s.lookup (s.xlOf s.gang.team) (s.gang.retVa (s.gang.retKey n))).1 = .page pa leaf → entR leaf = true → entW leaf = true →
    s.portDown pa = false →
    let r := s.fillRets [n]
    r.2 = false ∧ r.1 = { s with gangs := r.1.gangs, vclock := r.1.vclock } ∧
    r.1.gang.retAddr n = BitVec.ofNat 18 (leNat ((List.range 4).map fun i => s.byteAt s.die (pa + i))) ∧
    r.1.gang = { s.gang with ret := r.1.gang.ret } ∧ (∀ k, k ≠ s.gk → r.1.gangAt k = s.gangAt k))

/-- R31, R99, R101, R117: where a branch traps: lanes of one slice disagree (cause 7), a relative target leaves the slot
(cause 11), a call at depth 255 or a return at depth 0 (cause 9). -/
def Sys2Proof.Claims.BranchesTrap : Prop :=
  ∀ (s : State) (f : ClassB),
    let g := s.gang
    let sl := g.partSlices s.pt
    let t := target s.pc f.disp
    (f.h.g = false → (∃ n ∈ sl, g.decide_ s.pt f.h (fun _ => t) n = .split) →
      let m := maskOf fun l => g.active s.pt l && decide (l / 4 ∈ sl ∧ g.decide_ s.pt f.h (fun _ => t) (l / 4) = .split)
      exec (.bra f) s = .next (s.trapLanes 7 m 0#64) ∧ exec (.call f) s = .next (s.trapLanes 7 m 0#64)) ∧
    (f.h.g = true → g.geff s.pt f.h = true → ¬ SameSlot s.pc f.disp →
      exec (.bra f) s = .next (s.trap 11 (t.setWidth 64)) ∧ exec (.call f) s = .next (s.trap 11 (t.setWidth 64))) ∧
    (f.h.g = true → g.geff s.pt f.h = true → SameSlot s.pc f.disp → (∃ n ∈ sl, (g.sliceAt n).depth = 255#8) →
      exec (.call f) s = .next (s.trap 9 255#64)) ∧
    (f.h.g = true → g.geff s.pt f.h = true → (∃ n ∈ sl, (g.sliceAt n).depth = 0#8) →
      exec (.ret f) s = .next (s.trap 9 0#64))

/-- R34, R102: REGANG. Without an active lane it has no effect; a slice that waits at the same address at another depth is
the regang-depth trap; the part waits until every live slice waits, and then the slices at each address are one part,
past their REGANG. -/
def Sys2Proof.Claims.RegangMergesParts : Prop :=
  ∀ (s : State) (f : ClassB),
    let g := s.gang
    let sl := g.partSlices s.pt
    let clash := ∃ n ∈ g.liveSlices, (g.sliceAt n).atRegang = true ∧ (g.sliceAt n).pc = s.pc ∧ (g.sliceAt n).depth ≠ g.depthOf s.pt
    let here := ∀ n ∈ sl, (g.sliceAt n).atRegang = true
    let marks := if here then g.bypFull else (g.emptyBypass sl).bypFull
    (g.anyActive s.pt = false → exec (.regang f) s = .next (s.done s)) ∧
    (g.anyActive s.pt = true → clash → exec (.regang f) s = .next (s.trap 8 0#64)) ∧
    (g.anyActive s.pt = true → ¬ clash → (∃ n ∈ g.liveSlices, n ∉ sl ∧ (g.sliceAt n).atRegang = false) →
      ∃ g', exec (.regang f) s = .next (s.setGang g') ∧
        (∀ n, g'.sliceAt n = if n ∈ sl then { g.sliceAt n with atRegang := true } else g.sliceAt n) ∧
        g' = { g with slices := g'.slices, bypFull := marks, ahead := if here then g.ahead else g.tick.ahead }) ∧
    (g.anyActive s.pt = true → ¬ clash → (∀ n ∈ g.liveSlices, n ∈ sl ∨ (g.sliceAt n).atRegang = true) → Settled s →
      (∀ n ∈ g.liveSlices, lastWord (g.sliceAt n).pc = false) →
      ∃ g', exec (.regang f) s = .next (s.setGang g') ∧
        (∀ n ∈ g.liveSlices, g'.sliceAt n =
          { g.sliceAt n with
            pc := nextPc (g.sliceAt n).pc, atRegang := false, atBar := false
            part := (g.liveSlices.find? fun m => (g.sliceAt m).pc == (g.sliceAt n).pc).getD 0 }) ∧
        g' = { g with slices := g'.slices, bypFull := marks })

/-- R91 to R95: JMPF goes to its target's slot, and traps where the slot lies outside the window (12) or is empty (10);
CWAIT and CWAIT.ALL wait while a slot they name is being fetched. -/
def Sys2Proof.Claims.SegmentJumpsAndWaits : Prop :=
  ∀ (s : State) (f : ClassB),
    let im := s.imemOf s.gk
    let t := target s.pc f.disp
    let slot := (f.aux12.extractLsb' 0 6).toNat
    (s.gang.geff s.pt f.h = false →
      exec (.jmpf f) s = .next (s.done s) ∧ exec (.cwait f) s = .next (s.done s) ∧ exec (.cwaitAll f) s = .next (s.done s)) ∧
    (s.gang.geff s.pt f.h = true → t.toNat / 4096 < im.nseg → (im.slotAt (t.toNat / 4096)).st ≠ .empty → Settled s →
      ∃ u, exec (.jmpf f) s = .next u ∧ OnlyGang s u (jumped s s.gang t)) ∧
    (s.gang.geff s.pt f.h = true → im.nseg ≤ t.toNat / 4096 → exec (.jmpf f) s = .next (s.trap 12 (t.setWidth 64))) ∧
    (s.gang.geff s.pt f.h = true → t.toNat / 4096 < im.nseg → (im.slotAt (t.toNat / 4096)).st = .empty →
      exec (.jmpf f) s = .next (s.trap 10 (t.setWidth 64))) ∧
    (s.gang.geff s.pt f.h = true → slot < im.nseg →
      exec (.cwait f) s = .next (if (im.slotAt slot).st = .fetching then s else s.done s)) ∧
    (s.gang.geff s.pt f.h = true →
      exec (.cwaitAll f) s = .next (if ∃ n, n < im.nseg ∧ (im.slotAt n).st = .fetching then s else s.done s))

/-- R93: CFETCH of a mapped executable 4 KiB line marks its slot as being fetched and owes SEGMENT_LANDED, which puts the
bytes that the die sees there into the slot. -/
def Sys2Proof.Claims.SegmentsAreFetched : Prop :=
  (∀ (s : State) (f : ClassM), s.groupGate f.h (indexG f) false false = none → s.engineGate = none →
    let n := f.d.toNat
    let ea := s.gang.effAddr f 0
    let im := s.imemOf s.gk
    n < im.nseg → ea.toNat % 4096 = 0 → (∀ i ∈ s.gang.liveSlices, slotOf (s.gang.sliceAt i).pc ≠ n) →
    (∃ pa leaf, (s.lookup (s.xlOf s.gang.team) ea.toNat).1 = .page pa leaf ∧ entX leaf = true) →
    ∃ e, exec (.cfetch f) s = .next (s.done e) ∧ e = { s with teams := e.teams, mx := e.mx, due := e.due } ∧
      e.due = s.due ++ [.segmentLanded (s.imemKey s.gk) n] ∧
      e.imemOf s.gk = { im with slots := (e.imemOf s.gk).slots } ∧
      (∀ m, (e.imemOf s.gk).slotAt m = if m = n then { st := .fetching, src := ea, by_ := s.gk } else im.slotAt m)) ∧
  (∀ (s : State) (key slot pa : Nat) (leaf : DWord) (b : List Byte), slot < 64 →
    let im := s.imemAt key
    let team := if (im.slotAt slot).by_ = 0 then key else (s.gangAt (im.slotAt slot).by_).team
    (im.slotAt slot).st = .fetching → s.segment (s.xlOf team) (im.slotAt slot).src.toNat = .bytes b pa leaf →
    ∃ t, exec (.segmentLanded key slot) s = .next t ∧
      t = { s with teams := t.teams, mx := t.mx, dies := t.dies, vclock := t.vclock } ∧
      (∀ d, t.dieAt d = { s.dieAt d with p7 := (t.dieAt d).p7 }) ∧
      (∀ m, (t.imemAt key).slotAt m = if m = slot then { im.slotAt slot with st := .landed } else im.slotAt m) ∧
      (∀ a, KMap.get 0#8 (t.imemAt key).bytes a =
        if a / 4096 = slot then b.getD (a % 4096) 0#8 else KMap.get 0#8 im.bytes a))

/-- R104, R115: TRAP takes the software trap with its AUX12 in the lanes with an effect; YIELD saves the team
where a pre-emption is pending, else YIELD 0 goes on and YIELD n holds the gang until YIELD_EXPIRE, n clocks later. -/
def Sys2Proof.Claims.YieldAndSoftwareTrap : Prop :=
  ∀ (s : State) (f : ClassB),
    (s.gang.geff s.pt f.h = false → exec (.yield f) s = .next (s.done s)) ∧
    (s.gang.geff s.pt f.h = true → s.engineGate = none → s.cohort.preempt = true →
      exec (.yield f) s = .next (s.save s.team.cohort)) ∧
    (s.gang.geff s.pt f.h = true → s.engineGate = none → s.cohort.preempt = false → f.aux12 = 0#12 →
      exec (.yield f) s = .next (s.done s)) ∧
    (s.gang.geff s.pt f.h = true → s.engineGate = none → s.cohort.preempt = false → f.aux12 ≠ 0#12 →
      exec (.yield f) s = .next (s.done ((s.setGang { s.gang with hold := .yield (s.clock + f.aux12.toNat) }).owe [.yieldExpire s.gk]))) ∧
    (∀ k n, (s.gangAt k).hold = .yield n → n ≤ s.clock →
      exec (.yieldExpire k) s = .next (s.setGangAt k { s.gangAt k with hold := .no })) ∧
    (∀ k n, (s.gangAt k).hold = .yield n → s.clock < n → exec (.yieldExpire k) s = .next (s.owe [.yieldExpire k])) ∧
    (∀ k, (∀ n, (s.gangAt k).hold ≠ .yield n) → exec (.yieldExpire k) s = .next s) ∧
    (f.h.g = true → s.gang.geff s.pt f.h = true → exec (.trap f) s = .next (s.takeTrap
      { cause := 13, aux := f.aux12.toNat, lanes := maskOf (s.gang.active s.pt), pc := s.pc })) ∧
    (f.h.g = false → (∃ l, l < 32 ∧ s.gang.eff s.pt f.h l = true) → exec (.trap f) s = .next (s.takeTrap
      { cause := 13, aux := f.aux12.toNat, lanes := maskOf (s.gang.eff s.pt f.h), pc := s.pc })) ∧
    (f.h.g = false → (∀ l, l < 32 → s.gang.eff s.pt f.h l = false) → exec (.trap f) s = .next (s.done s))

/-- R105 to R107: RGNB opens a region with what a replay gives back; RGNE commits it; a region inside a region, RGNE without
one, and a parted gang are the region trap; REGION_EXHAUST_REPLAY replays the region opened last on the core. -/
def Obligations.IdempotentRegions : Prop :=
  (∀ (s : State) (f : ClassB), s.gang.anyActive s.pt = true → s.gang.ahead = none →
    (s.gang.rel ≠ none ∨ s.gang.whole = false → exec (.rgnb f) s = .next (s.trap 14 0#64)) ∧
    (s.gang.rel = none → s.gang.whole = true →
      let g := { s.gang with rel := some {
        pc := s.pc, cnt := s.gang.cnt, slices := s.gang.slices, mstat := s.gang.r.mstat, srstate := s.gang.r.srstate
        ret := s.gang.ret, order := s.nextId : Region } }
      exec (.rgnb f) s = .next (s.done ({ s with nextId := s.nextId + 1 }.setGang g))) ∧
    (s.gang.rel = none → exec (.rgne f) s = .next (s.trap 14 0#64)) ∧
    (∀ r, s.gang.rel = some r → (∀ p ∈ s.gang.loads, p.await = []) →
      exec (.rgne f) s = .next (s.done ((s.setGang { s.gang with rel := none }).commit s.gk r.held)))) ∧
  (∀ (s : State) (core k : Nat) (r : Region), (s.gangAt k).rel = some r → k ∈ s.gangs.map (·.1) →
    (∀ p ∈ s.gangs, s.gangAt p.1 = p.2) →
    let holds := fun j => j ∈ s.gangs.map (·.1) ∧ (s.gangAt j).ended = false ∧
      (s.teamAt (s.gangAt j).team).core = core ∧ (s.gangAt j).entries ≠ 0
    holds k → (∀ j, holds j → (s.gangAt j).starved = true ∧ (s.gangAt j).ahead = none) →
    (∀ j, holds j → j ≠ k → ∀ q, (s.gangAt j).rel = some q → q.order < r.order) →
    exec (.regionExhaustReplay core) s = .next (s.setGangAt k
      { s.gangAt k with
        slices := r.slices, cnt := r.cnt, ret := r.ret, r := { (s.gangAt k).r with mstat := r.mstat, srstate := r.srstate }
        bypFull := 0#24, rel := none, starved := false }))

/-- R29, R90, R114: QCFG with a value within its limits empties every queue and becomes the configuration; any other value is the
illegal-instruction trap with code 7, whatever the predicate. -/
def Obligations.QueueConfiguration : Prop :=
  ∀ (s : State) (f : ClassA), s.gang.busyG f.a.toNat = false →
    let v := s.gang.gAt f.a.toNat
    let depths := (List.range 8).map fun q => v.toNat / 2 ^ (5 * q) % 32
    let legal := v.toNat < 2 ^ 40 ∧ (∀ d ∈ depths, d ≤ 16) ∧ depths.sum ≤ 64 ∧ depths.sum ≤ s.gang.qent
    (¬ legal → exec (.qcfg f) s = .next (s.illegal 7)) ∧
    (legal → s.gang.geff s.pt f.h = false → exec (.qcfg f) s = .next (s.done s)) ∧
    (legal → s.gang.geff s.pt f.h = true → (∀ p ∈ s.gang.loads, ∀ r ∈ p.vregs, r < 48) → s.engineGate = none →
      exec (.qcfg f) s = .next (s.done (s.setGang { s.gang with qcfg := v, queues := [] })))

/-- R113, R228, R229: BAR. The part arrives once its gang's loads have their values and its stores outside the module are acknowledged; it
waits; when every part of every gang of the team waits at a BAR, or has ended, all go on. -/
def Sys2Proof.Claims.TeamBarrier : Prop :=
  ∀ (s : State) (f : ClassB),
    let sl := s.gang.partSlices s.pt
    let e := s.setGang (s.gang.onSlices sl fun x => { x with atBar := true })
    let met := ∀ k ∈ (e.teamAt s.gang.team).gangs, ∀ n ∈ (e.gangAt k).liveSlices, ((e.gangAt k).sliceAt n).atBar = true
    (∀ n ∈ sl, (s.gang.sliceAt n).atBar = false) →
    (s.gang.geff s.pt f.h = false → exec (.bar f) s = .next (s.done s)) ∧
    (s.gang.geff s.pt f.h = true → s.engineGate = none → (s.gang.loadsOut || s.farStores) = true → exec (.bar f) s = .next s) ∧
    (s.gang.geff s.pt f.h = true → s.engineGate = none → (s.gang.loadsOut || s.farStores) = false → ¬ met → exec (.bar f) s = .next e) ∧
    (s.gang.geff s.pt f.h = true → s.engineGate = none → (s.gang.loadsOut || s.farStores) = false → met → (e.teamAt s.gang.team).gangs = [s.gk] → s.gang.parts = [s.pt] →
      MidSlot s → Settled s → ∃ t g', exec (.bar f) s = .next t ∧ OnlyGang s t g' ∧ g' = { s.gang with slices := g'.slices } ∧
        ∀ n, g'.sliceAt n =
          if n ∈ sl then { s.gang.sliceAt n with pc := nextPc s.pc, atRegang := false, atBar := false } else s.gang.sliceAt n)

/-- Parts keep their names: a branch, a REGANG and the entry to a trap handler lead from a gang whose parts are named by a
slice of their own to such a gang, and a gang of one part as placement leaves it is one. -/
def Sys2Proof.Claims.PartNamesAreKept : Prop :=
  (∀ (s : State) (i : Instr) (b : Branch) (t : State), branchOf s i = some b → branchChecks s i b → Settled s →
    PartNames s.gang → (∀ n ∈ s.gang.partSlices s.pt, b.dec n ≠ .split) →
    ((∃ n ∈ s.gang.partSlices s.pt, b.dec n = .stay) → MidSlot s) → s.gang.partSlices s.pt ≠ [] →
    (b.push = true → ∀ n ∈ s.gang.partSlices s.pt, b.dec n ≠ .stay → (s.gang.sliceAt n).depth ≠ 255#8) →
    (b.pop = true → ∀ n ∈ s.gang.partSlices s.pt, b.dec n ≠ .stay → (s.gang.sliceAt n).depth ≠ 0#8) → returns s i →
    exec i s = .next t → PartNames t.gang) ∧
  (∀ g : Gang, PartNames g → PartNames g.regang) ∧
  (∀ (g : Gang) (hent : IAddr), PartNames (g.enterHandler hent)) ∧
  (∀ g : Gang, (∀ n, (g.sliceAt n).part = 0) → PartNames g)

/-- NOP only goes on. -/
def Sys2Proof.Claims.NopOnlyGoesOn : Prop := ∀ (s : State) (f : ClassB), exec (.nop f) s = .next (s.done s)

end

namespace Sys2Proof.Claims

open Sys2Proof.Machine

/-- The gang that CBR leaves after a cast, before run-ahead (R109). -/
def afterCast (g : Gang) (grp slot : Nat) : Gang :=
  { g with
    vcnt := KMap.set 0#16 g.vcnt slot (KMap.get 0#16 g.vcnt slot + 1#16)
    vcast := some { grp := grp, slot := slot, num := (KMap.get 0#16 g.vcnt slot).toNat } }

/-- Everything of a die node's vote before it is cast (R109): the CBR of a whole gang, in a live group that its team names,
with a target in its slot, no vote out, and room at the node. -/
def castReady (s : State) (f : ClassB) (slot : Nat) : Prop :=
  s.gang.anyActive s.pt = true ∧ s.engineGate = none ∧ s.team.grpSlot f.aux8.toNat = some slot ∧ s.gang.whole = true ∧
  (s.groupAt (s.groupKey s.gang.team f.aux8.toNat)).broken = false ∧ SameSlot s.pc f.disp ∧ s.gang.vcast = none ∧
  s.pendingVotes s.die < 4096

/-- A member gang of the group that is resident on the die has not cast vote `num`. -/
def someUncast (s : State) (die gk num : Nat) : Prop := ∃ k ∈ s.dieVoters die gk, s.notCast k gk num = true

end Sys2Proof.Claims

section

open Sys2Proof Sys2Proof.Machine Sys2Proof.Claims

/-- R26, R103: EXIT. The lanes with an effect (lane form), or every present lane, exit; the rest of the part goes on; a part
left with no lane ends; the gang whose last lane exits waits for its counters, and has ended once they are zero. -/
def Sys2Proof.Claims.ExitEndsLanes : Prop :=
  ∀ (s : State) (f : ClassB),
    let m := if f.h.g then (if s.gang.geff s.pt f.h then maskOf fun l => s.gang.present l else 0#32) else maskOf (s.gang.eff s.pt f.h)
    let g := { s.gang with exited := s.gang.exited ||| m }
    (m = 0#32 → exec (.exit f) s = .next (s.done s)) ∧
    (m ≠ 0#32 → s.engineGate = none → g.partSlices s.pt ≠ [] → exec (.exit f) s = .next (s.done (s.setGang g))) ∧
    (m ≠ 0#32 → s.engineGate = none → g.liveSlices ≠ [] → g.partSlices s.pt = [] → exec (.exit f) s = .next (s.setGang g)) ∧
    (m ≠ 0#32 → s.engineGate = none → g.liveSlices = [] → g.drained = false →
      exec (.exit f) s = .next (s.setGang { g with hold := .exiting })) ∧
    (m ≠ 0#32 → s.engineGate = none → g.liveSlices = [] → g.drained = true → g.ended = false → g.kind = .vector → g.quads = [] →
      g.kdirty = [] → g.ret = [] → (s.teamAt g.team).colls = [] → (s.queueOf g.team).bound = false →
      ∃ t, exec (.exit f) s = .next t ∧ t = { s with gangs := t.gangs, runq := s.runq.filter (· ≠ s.gk) } ∧
        t.gang = { g with ended := true, hold := .no } ∧ ∀ k, k ≠ s.gk → t.gangAt k = s.gangAt k)

/-- R109, R110: CBR casts the gang's vote at its die node, counts it, and waits at the word with window 0; the group must be
one that the team names and the gang whole (collective trap), and not broken (collective-broken trap). -/
def Sys2Proof.Claims.CollectiveBranchCasts : Prop :=
  ∀ (s : State) (f : ClassB),
    let gk := s.groupKey s.gang.team f.aux8.toNat
    (s.gang.anyActive s.pt = false → exec (.cbr f) s = .next (s.done s)) ∧
    (s.gang.anyActive s.pt = true → s.engineGate = none → (s.team.grpSlot f.aux8.toNat = none ∨ s.gang.whole = false) →
      exec (.cbr f) s = .next (s.trap 15 (f.aux8.setWidth 64))) ∧
    (∀ slot, s.gang.anyActive s.pt = true → s.engineGate = none → s.team.grpSlot f.aux8.toNat = some slot → s.gang.whole = true →
      (s.groupAt gk).broken = true → exec (.cbr f) s = .next (s.trap 16 (f.aux8.setWidth 64))) ∧
    (∀ slot, castReady s f slot → f.aux12 = 0#12 →
      ∃ t, exec (.cbr f) s = .next t ∧
        t = { s with gangs := t.gangs, groups := t.groups, due := t.due, net := t.net, psn := t.psn } ∧
        t.gang = { afterCast s.gang gk slot with hold := .vote } ∧ (∀ k, k ≠ s.gk → t.gangAt k = s.gangAt k)) ∧
    (∀ slot, castReady s f slot → f.aux12 ≠ 0#12 → f.aux4.getLsbD 1 = true →
      ∃ t, exec (.cbr f) s = .next t ∧
        t = { s with gangs := t.gangs, groups := t.groups, due := t.due, net := t.net, psn := t.psn } ∧
        (∀ n ∈ s.gang.partSlices s.pt, (t.gang.sliceAt n).pc = target s.pc f.disp) ∧
        t.gang.vcast = (afterCast s.gang gk slot).vcast ∧ t.gang.r = { s.gang.r with undo := some [] } ∧
        ∃ a, t.gang.ahead = some a ∧ a.cbr = s.pc ∧ a.other = nextPc s.pc ∧ a.taken = true ∧ a.left = f.aux12.toNat ∧
          a.regs = s.gang.r ∧ a.cnt = s.gang.cnt ∧ a.slices = s.gang.slices ∧ a.ret = s.gang.ret ∧ a.held = [])

/-- R290: a cast vote is gathered at the die node; while a resident member gang has not voted the node keeps it, and sends
what it has gathered to the module node when 100 ns have passed or all have voted. The module node adds a partial to what it holds, and
sends that to the root unless a die node has votes of the number too. -/
def Sys2Proof.Claims.VotesGatherAtTheDieNode : Prop :=
  (∀ (s : State) (die gk num : Nat) (all val : Bool),
    let p := KMap.get {} (s.groupAt gk).nodes (65536 * die + num)
    let v : Partial := if p.count = 0 then { count := 1, val := val, all := all }
      else { count := p.count + 1, all := p.all, val := if all then p.val && val else p.val || val }
    let e := s.setGroupAt gk { s.groupAt gk with nodes := KMap.set {} (s.groupAt gk).nodes (65536 * die + num) v }
    (someUncast e die gk num → s.castVote die gk num all val =
      if p.count = 0 then e.owe [.votePartialTimeout die gk num] else e) ∧
    (¬ someUncast e die gk num → s.castVote die gk num all val = e.sendPartial die gk num)) ∧
  (∀ (s : State) (die gk num : Nat),
    exec (.votePartialTimeout die gk num) s = .next (s.sendPartial die gk num) ∧
    let p := KMap.get {} (s.groupAt gk).nodes (65536 * die + num)
    (p.count = 0 → s.sendPartial die gk num = s) ∧
    (p.count ≠ 0 →
      ∃ t f, exec (.votePartialTimeout die gk num) s = .next t ∧
        t = (if die ≠ 4 ∨ s.voteRoot gk = s.modn then { s with groups := t.groups, due := s.due ++ [.frameVote f] }
          else { s with groups := t.groups, net := s.net ++ [(f, s.clock)], psn := s.psn + 1 }) ∧
        KMap.get {} (t.groupAt gk).nodes (65536 * die + num) = ({} : Partial) ∧
        f.srcm = s.modn ∧ f.dstm = (if die = 4 then s.voteRoot gk else s.modn) ∧ (die ≠ 4 → f.sdie = die) ∧
        frameGkey f = gk / 256 % 2 ^ 80 * 256 + gk % 256 ∧ frameNum f = num % 65536 ∧
        frameWord f % 2 ^ 32 = p.count % 2 ^ 32 ∧ (frameWord f).testBit 32 = p.val ∧ (frameWord f).testBit 33 = p.all ∧
        (frameWord f).testBit 34 = false ∧ (frameWord f).testBit 35 = decide (die = 4))) ∧
  (∀ (s : State) (f : Frame), f.psn = 0 →
    let gk := frameGkey f
    let num := frameNum f
    let g := s.groupAt gk
    let w := frameWord f
    let p := KMap.get {} g.nodes (65536 * 4 + num)
    let v : Partial := if p.count = 0 then { count := w % 2 ^ 32, val := w.testBit 32, all := w.testBit 33 }
      else { p with count := p.count + w % 2 ^ 32, val := if w.testBit 33 then p.val && w.testBit 32 else p.val || w.testBit 32 }
    let e := s.setGroupAt gk { g with nodes := KMap.set {} g.nodes (65536 * 4 + num) v }
    g.broken = false → g.members ≠ [] → w.testBit 34 = false → w.testBit 35 = false → w.testBit 36 = false → w % 2 ^ 32 ≠ 0 →
    exec (.frameVote f) s = .next
      (if (List.range 4).any fun d => (KMap.get {} g.nodes (65536 * d + num)).count ≠ 0 then e else e.sendPartial 4 gk num))

/-- R109, R290, R291: at the root the partials of a number are reduced; with the last of them the result is kept and goes to
every module that runs a member; a request for a known result is answered; a result that every gang has taken is forgotten; a die node
asks for one it lacks, and the module node passes requests and reports on. -/
def Sys2Proof.Claims.VoteRootReduces : Prop :=
  (∀ (s : State) (f : Frame),
    let gk := frameGkey f
    let num := frameNum f
    let g := s.groupAt gk
    let w := frameWord f
    let p0 := KMap.get {} g.root num
    let cnt := p0.count + w % 2 ^ 32
    f.psn = 0 → g.broken = false → g.members ≠ [] →
    (w.testBit 35 = false → (w.testBit 34 || w.testBit 36) = true →
      exec (.frameVote f) s = .next (s.sendFrame (groupFrame 10 s.modn (s.voteRoot gk) gk num (w + 2 ^ 35) 0))) ∧
    (w.testBit 35 = true → w.testBit 34 = false → w.testBit 36 = true → ∀ v n, KMap.get none g.results num = some (v, n) →
      ∃ t, exec (.frameVote f) s = .next t ∧ t = { s with groups := t.groups } ∧
        KMap.get none (t.groupAt gk).results num =
          if n + w % 2 ^ 32 + s.endedVotes gk num < s.groupSize gk then some (v, n + w % 2 ^ 32) else none) ∧
    (w.testBit 35 = true → w.testBit 34 = true → ∀ v n, KMap.get none g.results num = some (v, n) →
      exec (.frameVote f) s = .next (s.returnResult gk num v [f.srcm])) ∧
    (w.testBit 35 = true → w.testBit 34 = false → w.testBit 36 = false → w.testBit 37 = false → 0 < w % 2 ^ 32 →
      cnt + s.endedVotes gk num < s.groupSize gk →
      ∃ t, exec (.frameVote f) s = .next t ∧ t = { s with groups := t.groups } ∧
        (KMap.get {} (t.groupAt gk).root num).count = cnt ∧
        (0 < p0.count → (KMap.get {} (t.groupAt gk).root num).val =
          if w.testBit 33 then p0.val && w.testBit 32 else p0.val || w.testBit 32)) ∧
    (w.testBit 35 = true → w.testBit 34 = false → w.testBit 36 = false → w.testBit 37 = false → 0 < w % 2 ^ 32 →
      s.groupSize gk ≤ cnt + s.endedVotes gk num →
      ∃ e : State, exec (.frameVote f) s = .next (e.returnResult gk num
          (if p0.count = 0 then w.testBit 32 else if w.testBit 33 then p0.val && w.testBit 32 else p0.val || w.testBit 32)
          (s.groupModules gk)) ∧
        e = { s with groups := e.groups } ∧ KMap.get {} (e.groupAt gk).root num = ({} : Partial))) ∧
  (∀ (s : State) (die gk num : Nat),
    (∀ v, (num, v) ∈ (KMap.get [] (s.groupAt gk).kept die) → (∀ w, (num, w) ∈ KMap.get [] (s.groupAt gk).kept die → w = v) →
      exec (.voteResultRequest die gk num) s = .next (s.keepResult die gk num v)) ∧
    ((∀ x ∈ KMap.get [] (s.groupAt gk).kept die, x.1 ≠ num) →
      ∃ f, exec (.voteResultRequest die gk num) s = .next (s.owe [.frameVote f]) ∧ f.sdie = die ∧ f.dstm = s.modn ∧
        frameNum f = num % 65536 ∧ (frameWord f).testBit 34 = true ∧ (frameWord f).testBit 35 = false))

/-- R291, R293: a result that reaches a die with a member is kept there as its newest, at most four are kept, and each gang of the
die that waits for it is served. The news that the group has broken elsewhere breaks it here. -/
def Sys2Proof.Claims.VoteResultsAreKept : Prop :=
  (∀ (s : State) (f : Frame), f.psn = 0 → (frameWord f).testBit 33 = true → exec (.frameVoteResult f) s =
    .next (if (s.groupAt (frameGkey f)).broken then s else s.breakHere (frameGkey f) [])) ∧
  ∀ (s : State) (f : Frame), f.psn = 0 → (frameWord f).testBit 33 = false →
    (∀ d, d < 4 → d ≠ 0 → s.heldMember d (frameGkey f) = false) → s.heldMember 0 (frameGkey f) = true → (∀ p ∈ s.gangs, s.dieOfGang p.1 = 0) →
    let gk := frameGkey f
    let old := (KMap.get [] (s.groupAt gk).kept 0).filter fun x => x.1 ≠ frameNum f
    ∃ t, exec (.frameVoteResult f) s = .next t ∧ t = { s with groups := t.groups, due := t.due } ∧
      KMap.get [] (t.groupAt gk).kept 0 = ((frameNum f, (frameWord f).testBit 32) :: old).take 4 ∧
      (∀ k g v, (k, g) ∈ s.gangs → g.ended = false → g.vcast = some v → v.grp = gk → v.num = frameNum f →
        .voteResultDelivery k ∈ t.due)

/-- R111, R112: the delivery of a result. A gang that runs ahead keeps what it did when the result matches its hint, and is put
back to its CBR and sent the other way when it does not; a gang that waits at its CBR takes the resolved path. The die node reports
the taking. -/
def Sys2Proof.Claims.VoteResultResolves : Prop :=
  ∀ (s : State) (k : Nat) (v : Cast) (r : Bool), (s.gangAt k).vcast = some v → (s.gangAt k).ended = false →
    (s.teamAt (s.gangAt k).team).status = .running → (s.cohortAt (s.teamAt (s.gangAt k).team).cohort).status = .running →
    (KMap.get [] (s.groupAt v.grp).kept (s.dieOfGang k)).find? (fun x => x.1 == v.num) = some (v.num, r) →
    let g := s.gangAt k
    (∃ f, s.reportTaken k v = s.owe [.frameVote f] ∧ f.sdie = s.dieOfGang k ∧ f.dstm = s.modn ∧ frameNum f = v.num % 65536 ∧
      frameWord f = 1 + 2 ^ 36) ∧
    (∀ a, g.ahead = some a → a.taken = r →
      exec (.voteResultDelivery k) s = .next (((s.reportTaken k v).setGangAt k
        { g with ahead := none, vcast := none, r := { g.r with undo := none }, loads := g.loads.map fun p => { p with ahead := false }, starved := false }).commit k a.held)) ∧
    (∀ a, g.ahead = some a → a.taken = false → r = true → ∃ t, exec (.voteResultDelivery k) s = .next t ∧
      t = { s.reportTaken k v with gangs := t.gangs } ∧ (∀ j, j ≠ k → t.gangAt j = s.gangAt j) ∧
      (t.gangAt k).ahead = none ∧ (t.gangAt k).vcast = none ∧ (t.gangAt k).r = a.regs ∧ (t.gangAt k).cnt = a.cnt ∧
      (t.gangAt k).ret = a.ret ∧
      let b := { g with slices := a.slices }
      (∀ n, (t.gangAt k).sliceAt n =
        if n ∈ b.partSlices (b.parts.headD 0) then { b.sliceAt n with pc := a.other, atRegang := false, atBar := false }
        else b.sliceAt n)) ∧
    (∀ f, g.ahead = none → g.hold = .vote → r = true →
      let pc := g.pcOf (g.parts.headD 0)
      ((s.imemOf k).slotAt (slotOf pc)).st = .landed → decode g.kind ((s.imemOf k).word pc) = .ok (.cbr f) →
      ∃ t, exec (.voteResultDelivery k) s = .next t ∧ t = { s.reportTaken k v with gangs := t.gangs } ∧ (∀ j, j ≠ k → t.gangAt j = s.gangAt j) ∧
        (t.gangAt k).hold = .no ∧ (t.gangAt k).vcast = none ∧ (t.gangAt k).r = g.r ∧
        ∀ n ∈ g.partSlices (g.parts.headD 0), ((t.gangAt k).sliceAt n).pc = target pc f.disp)

end

namespace Sys2Proof.Claims

open Sys2Proof.Machine

/-! ## Memory (R150 to R168, R221 to R228, R236, R237) -/

/-- Every access of a plan is answered within the module. -/
def allHere (accs : List Acc) : Prop := ∀ a ∈ accs, a.loc.here = true

/-- The byte that the gang's die reads at a place of G, S, C or K, where the gang holds no store and its L1 no stale copy. -/
def placeByte (s : State) (gk : Nat) (l : Loc) (i : Nat) : Byte :=
  match l with
  | .mem pa _ => s.byteAt (s.dieOfGang gk) (pa + i)
  | .spad t off => (s.teamAt t).spadAt (off + i)
  | .stack off pa => (KMap.get none (s.gangAt gk).kdata (off + i)).getD (s.byteAt (s.dieOfGang gk) (pa + i))
  | _ => 0#8

/-- Everything that memory is made of, on every die: what each die reads, what stands at home, the scratchpads and stacks. -/
def SameMemory (s t : State) : Prop :=
  (∀ d pa, d < 4 → t.byteAt d pa = s.byteAt d pa) ∧ (∀ pa, t.byteHome pa = s.byteHome pa) ∧
  (∀ k, (t.teamAt k).spad = (s.teamAt k).spad) ∧ (∀ k, (t.gangAt k).kdata = (s.gangAt k).kdata)

/-- The outcome of one access under R151: the first check that fails. -/
def accessRule (s : State) (gk sp n : Nat) (nd : Need) (ea : VAddr) : Chk :=
  let g := s.gangAt gk
  let a := ea.toNat
  if sp = 0 then (if a % n = 0 then (s.checkG (s.xlOf g.team) nd ea).1 else .align)
  else if sp = 1 ∧ g.kind = .lintel then .perm
  else if sp = 1 then
    if (s.teamAt g.team).spsz < a + n then .range else if a % n = 0 then .ok (.spad g.team a) else .align
  else if sp = 2 then
    match (if 2 ^ 24 ≤ a then none else s.teamByC (s.teamAt g.team).cohort (a / 2 ^ 20)) with
    | none => .range
    | some t =>
      if (s.teamAt t).spsz < a % 2 ^ 20 + n then .range
      else if a % n = 0 then .ok (.spad t (a % 2 ^ 20)) else .align
  else if sp = 4 then (if a % n = 0 then s.checkPeer (s.xlOf g.team) nd n ea else .align)
  else .range

/-- An atomic's new value (R165), on w bits: old, operand, and CAS's new value. -/
def atomRule (code w old x y : Nat) : Nat :=
  match code with
  | 0 => x
  | 1 => (old + x) % 2 ^ w
  | 2 => (2 ^ w + old - x) % 2 ^ w
  | 3 => old &&& x
  | 4 => old ||| x
  | 5 => old ^^^ x
  | 6 => min old x
  | 7 => max old x
  | 8 => if (BitVec.ofNat w old).slt (BitVec.ofNat w x) then old else x
  | 9 => if (BitVec.ofNat w old).slt (BitVec.ofNat w x) then x else old
  | 10 => if old = x then y else old
  | _ => if x ≤ old then 0 else old + 1

/-- Nothing holds an access to memory back: registers are free, no acquire and no PUBL is out, the counter has room, and every place
answers at once: it is the module's, or partition 7 holds it. -/
def loadReady (s : State) (f : ClassM) (s1 : State) (accs : List Acc) : Prop :=
  s.memGate f [] [Use.of f.d (f.sz.toNat == 5)] [f.d.toNat] = none ∧ s.accWaits = false ∧ s.gang.loads.length < 4095 ∧
  f.sp.toNat ≠ 4 ∧ (∀ a ∈ accs, s1.near s1.die (szBytes f.sz.toNat) a = true) ∧
  ∃ s0, s.plan f.sp.toNat (szBytes f.sz.toNat) { r := true } f.h.g (s.accList f) = .go s0 accs ∧
    s1 = if f.sp.toNat = 0 then (s0.l1Pick (szBytes f.sz.toNat) accs).p7Pick s0.die (szBytes f.sz.toNat) accs else s0

def storeReady (s : State) (f : ClassM) (s1 : State) (accs : List Acc) : Prop :=
  s.memGate f [Use.of f.d (f.sz.toNat == 5)] [] [f.d.toNat] = none ∧ s.accWaits = false ∧
  (s.gang.holds = true ∨ s.gang.storeWaits f.scp.toNat f.ord.toNat = false) ∧ s.gang.stores.length < 4095 ∧
  f.sp.toNat ≠ 4 ∧ s.plan f.sp.toNat (szBytes f.sz.toNat) { w := true } f.h.g (s.accList f) = .go s1 accs ∧ allHere accs

end Sys2Proof.Claims

section

open Sys2Proof Sys2Proof.Machine Sys2Proof.Claims

/-- R150, R151, R237: the checks of one access in G, S, C and P, in their order: the allocation, the alignment, the
permission. -/
def Sys2Proof.Claims.AccessChecksInOrder : Prop :=
  ∀ (s : State) (gk sp n : Nat) (nd : Need) (ea : VAddr), sp ≠ 3 → sp < 5 → 0 < n → (s.checkAcc gk sp n nd ea).1 = accessRule s gk sp n nd ea

/-- R151, R117, R237: an instruction whose lanes fail a check traps with the lanes of the first check that any lane fails, before
it touches memory: cause 17 outside a scratchpad, 18 above the stack limit, 20 for alignment and for permission. -/
def Sys2Proof.Claims.AccessTraps : Prop :=
  ∀ (s : State) (sp n : Nat) (nd : Need) (l : List (Nat × VAddr)), s.gang.kind = .vector →
    let c := (s.checkAll s.gk sp n nd l).1
    let s1 := (s.checkAll s.gk sp n nd l).2
    let bad := fun (k : Chk) => c.filter fun p => p.2.2 == k
    let lanesOf := fun (k : Chk) => maskOf fun i => (bad k).any (·.1 == i)
    (∀ p r, bad .range = p :: r → s.plan sp n nd false l =
      .stop (s1.trapLanes (if sp = 3 then 18 else 17) (lanesOf .range) (p.2.1.setWidth 64))) ∧
    (∀ p r, bad .range = [] → bad .align = p :: r → s.plan sp n nd false l = .stop (s1.trapLanes 20 (lanesOf .align) (p.2.1.setWidth 64))) ∧
    (∀ p r, bad .range = [] → bad .align = [] → bad .perm = p :: r →
      s.plan sp n nd false l = .stop (s1.trapLanes 20 (lanesOf .perm) (p.2.1.setWidth 64)))

/-- R153, R9, R105: a load of places within the module joins the ld counter with the values of its lanes: the bytes at each
place, least significant first, extended as SZ says; its registers and every byte of memory are as before, and
LOAD_RETURN is owed. -/
def Sys2Proof.Claims.LoadsTakeTheirBytes : Prop :=
  ∀ (s s1 : State) (f : ClassM) (accs : List Acc) (i : Instr), (i = .ld f ∨ i = .ldgen f) → loadReady s f s1 accs →
    let n := szBytes f.sz.toNat
    let wide := f.sz.toNat == 5
    let val := fun (a : Acc) => szExtend f.sz.toNat (leNat (s1.readLoc s1.gk f.sp.toNat n a))
    ∃ e p, exec i s = .next (s.done e) ∧ e.gang.loads = s1.gang.loads ++ [p] ∧ e.due = s1.due ++ [.loadReturn s1.gk p.id] ∧
      p.id = s1.nextId ∧ e.nextId = s1.nextId + 1 ∧ p.await = [] ∧ (i = .ld f → p.lgen = []) ∧
      (i = .ldgen f → p.lgen = accs.map (·.ea.toNat)) ∧
      p.vregs = (if f.h.g ∨ 56 ≤ f.d.toNat then [] else if wide then [f.d.toNat, f.d.toNat + 1] else [f.d.toNat]) ∧
      p.gregs = (if f.h.g then [f.d.toNat] else []) ∧
      p.vals = (if f.h.g then [] else accs.flatMap fun a => laneVals f.d.toNat wide a.lane (val a)) ∧
      p.gvals = (if f.h.g then accs.map fun a => (f.d.toNat, val a) else []) ∧
      SameMemory s1 e ∧ e.gang.r.v = s1.gang.r.v ∧ e.gang.r.g = s1.gang.r.g ∧ e.gang.r.k = s1.gang.r.k ∧
      e.gang.r.ad = s1.gang.r.ad ∧ (∀ k, k ≠ s1.gk → e.gangAt k = s1.gangAt k) ∧ e.cohorts = s1.cohorts ∧ e.queues = s1.queues

/-- R9, R154, R224, R239, R248: what a place gives a gang that holds no store: the byte that partition 7 holds of it, else that of a copy
that a swing has left in its L1, else the byte its die reads; a free choice may drop such a copy first, and leaves memory and gangs as they
are (log entries 96 and 111, DESIGN CHOICE). How SZ extends the bytes (U8, S8, U16, S16, 32, 64). -/
def Sys2Proof.Claims.LoadedBytesAreThoseOfThePlace : Prop :=
  (∀ (s : State) (gk sp n i : Nat) (a : Acc), (s.gangAt gk).holds = false → i < n →
    (∀ b, s.p7Byte (s.dieOfGang gk) a.loc i = some b → (s.readLoc gk sp n a)[i]? = some b) ∧
    (s.p7Byte (s.dieOfGang gk) a.loc i = none →
    ((∀ pa leaf, a.loc = .mem pa leaf → s.staleByte gk (a.ea.toNat + i) = none) →
      (s.readLoc gk sp n a)[i]? = some (placeByte s gk a.loc i)) ∧
    (∀ pa leaf b, a.loc = .mem pa leaf → s.staleByte gk (a.ea.toNat + i) = some b → (s.readLoc gk sp n a)[i]? = some b))) ∧
  (∀ (s : State) (n : Nat) (l : List Acc), ∃ t, s.l1Pick n l = t ∧ t = { s with cores := t.cores, fresh := t.fresh } ∧
    ∀ va b, t.staleByte s.gk va = some b → s.staleByte s.gk va = some b) ∧
  (∀ (s : State) (die n : Nat) (l : List Acc), ∃ t, s.p7Pick die n l = t ∧ t = { s with dies := t.dies, fresh := t.fresh } ∧
    (∀ d, t.dieAt d = { s.dieAt d with p7 := (t.dieAt d).p7 }) ∧
    ∀ d k b, KMap.get none (t.dieAt d).p7 k = some b → KMap.get none (s.dieAt d).p7 k = some b) ∧
  (∀ (l : List Byte) (i : Nat), i < l.length → leNat l / 256 ^ i % 256 = (l.getD i 0#8).toNat) ∧
  (∀ v : Nat, szExtend 0 v = (BitVec.ofNat 8 v).setWidth 64 ∧ szExtend 1 v = (BitVec.ofNat 8 v).signExtend 64 ∧
    szExtend 2 v = (BitVec.ofNat 16 v).setWidth 64 ∧ szExtend 3 v = (BitVec.ofNat 16 v).signExtend 64 ∧
    szExtend 4 v = (BitVec.ofNat 32 v).setWidth 64 ∧ szExtend 5 v = BitVec.ofNat 64 v)

/-- R153, R164, R173, R231: LOAD_RETURN writes the registers that the operation holds values for, ORs its flags into MSTAT, takes it
off the ld counter, and changes nothing else; that of an LDGEN drops the stale copies of the buffer, whose generation
word it read, from the L1 of its gang. -/
def Sys2Proof.Claims.LoadReturnWritesRegisters : Prop :=
  ∀ (s : State) (k id : Nat) (p : PendLoad), (s.gangAt k).loads.find? (·.id == id) = some p → p.await = [] → p.probe = false →
    (s.gangAt k).hold ≠ .exiting → (s.gangAt k).ahead = none → (p.vals.map (·.1)).Nodup → (p.gvals.map (·.1)).Nodup →
    (∀ x ∈ p.vals, x.1 < 1536) → (∀ x ∈ p.gvals, x.1 < 32) →
    ∃ g' e, exec (.loadReturn k id) s = .next e ∧ e = { s.setGangAt k g' with cores := e.cores } ∧
      (p.lgen = [] → e.cores = s.cores) ∧
      (∀ a va key b, a ∈ p.lgen → b ∈ (s.xlOf (s.gangAt k).team).swings → b.gen ≤ a → a < b.gen + 8 → b.base ≤ va →
        va < b.base + 4096 * b.nblk → s.lineKey (s.xlOf (s.gangAt k).team) va = some key →
        s.lineKey (s.xlOf (s.gangAt k).team) (b.base + 4096 * ((va - b.base) / 4096)) = some (key / 4096 * 4096) →
        e.staleByte k va = none) ∧
      g' = { s.gangAt k with
        r := { (s.gangAt k).r with v := g'.r.v, g := g'.r.g, mstat := (s.gangAt k).r.mstat ||| p.flags, undo := g'.r.undo }
        loads := (s.gangAt k).loads.filter (·.id ≠ p.id) } ∧
      (∀ key x, (key, x) ∈ p.vals → KMap.get 0#32 g'.r.v key = x) ∧
      (∀ key, key ∉ p.vals.map (·.1) → KMap.get 0#32 g'.r.v key = KMap.get 0#32 (s.gangAt k).r.v key) ∧
      (∀ n x, (n, x) ∈ p.gvals → g'.gAt n = x) ∧ (∀ n, n ∉ p.gvals.map (·.1) → g'.gAt n = (s.gangAt k).gAt n)

/-- R154: a store of places within the module writes, for each of its lanes, the low bytes of D at the lane's place, and goes
on; while the gang runs ahead or is in a region the bytes are held instead. -/
def Sys2Proof.Claims.StoresGiveTheirBytes : Prop :=
  ∀ (s s1 : State) (f : ClassM) (accs : List Acc), storeReady s f s1 accs →
    let n := szBytes f.sz.toNat
    let wide := f.sz.toNat == 5
    let val := fun (a : Acc) => if f.h.g then s.gang.gAt f.d.toNat else s.gang.src f.d wide a.lane
    let data := accs.map fun a => (a, (List.range n).map fun i => (BitVec.ofNat 8 ((val a).toNat / 256 ^ i) : Byte))
    let s2 := if f.h.g then s1 else s1.setGang (s1.gang.pop (popped [Use.of f.d wide]) (accs.map (·.lane)))
    (s2.gang.holds = false → exec (.st f) s = .next (s.done (s2.storeAll s2.gk f.scp.toNat f.ord.toNat data))) ∧
    (s2.gang.holds = true → ∃ h, exec (.st f) s = .next (s.done (s2.setGang (s2.gang.putHeld h))) ∧
      h.scp = f.scp.toNat ∧ h.ord = f.ord.toNat ∧
      h.bytes = data.flatMap fun p => p.2.zipIdx.map fun b => ((s2.keyOf s2.gang f.sp.toNat (p.1.ea.toNat + b.2)).2, b.1))

/-- R154, R156, R224, R236, R242, R244: what the stores of one instruction, all in the stack cache or none, change: at G the bytes of its
places, at home and on the gang's own die; in scratchpads and on the stack the bytes of its places. Every other byte, and every register, is
kept, but that a store to the stack may spill lines of a cache that holds more than 1 KiB to their places in memory. -/
def Sys2Proof.Claims.StoresChangeOnlyTheirPlaces : Prop :=
  ∀ (s : State) (k scp ord : Nat) (l : List (Acc × List Byte)), (∀ p ∈ l, p.1.loc.here = true) →
    (∀ p ∈ l, ∀ t off, p.1.loc = .spad t off → (s.teamAt t).status ≠ .saved) → s.dieOfGang k < 4 →
    (∀ p ∈ l, ∀ pa leaf, p.1.loc = .mem pa leaf → ∀ i, i < p.2.length → s.portDown (pa + i) = false) →
    ((∀ p ∈ l, ∃ o pa, p.1.loc = .stack o pa) ∨ ∀ p ∈ l, ∀ o pa, p.1.loc ≠ .stack o pa) →
    let stack := l.flatMap fun p => match p.1.loc with
      | .stack o _ => p.2.zipIdx.map fun b => (o + b.2, b.1)
      | _ => []
    let c := (s.gangAt k).putStack stack
    let keeps := stack = [] ∨
      ((c.kdata.map fun p => c.stackLine p.1).eraseDups).length + ((c.ret.map fun p => c.retVa p.1 / 128).eraseDups).length ≤ 8
    let spilled := fun (pa : Nat) => ∃ p ∈ c.dirtyBytes, ∃ leaf, (s.lookup (s.xlOf (s.gangAt k).team) p.1).1 = .page pa leaf
    let g := l.flatMap fun p => match p.1.loc with
      | .mem pa _ => p.2.zipIdx.map fun b => (pa + b.2, b.1)
      | _ => []
    let t := s.storeAll k scp ord l
    (∀ pa, (keeps ∨ ¬ spilled pa) → t.byteAt (s.dieOfGang k) pa = (byteIn g pa).getD (s.byteAt (s.dieOfGang k) pa)) ∧
    (∀ pa, (keeps ∨ ¬ spilled pa) → t.byteHome pa = (byteIn g pa).getD (s.byteHome pa)) ∧
    (∀ d pa, d < 4 → d ≠ s.dieOfGang k → t.byteAt d pa = s.byteAt d pa) ∧
    (∀ tm off, (∀ p ∈ l, ∀ o, p.1.loc = .spad tm o → off < o ∨ o + p.2.length ≤ off) →
      (t.teamAt tm).spadAt off = (s.teamAt tm).spadAt off) ∧
    (∀ tm o i a b, l = [(a, b)] → a.loc = .spad tm o → i < b.length → (t.teamAt tm).spadAt (o + i) = b.getD i 0#8) ∧
    (∀ off, (∀ p ∈ l, ∀ o pa, p.1.loc = .stack o pa → off < o ∨ o + p.2.length ≤ off) →
      KMap.get none (t.gangAt k).kdata off = KMap.get none (s.gangAt k).kdata off ∨ (¬ keeps ∧ KMap.get none (t.gangAt k).kdata off = none)) ∧
    (∀ o pa i a b, l = [(a, b)] → a.loc = .stack o pa → i < b.length →
      KMap.get none (t.gangAt k).kdata (o + i) = some (b.getD i 0#8) ∨ (¬ keeps ∧ KMap.get none (t.gangAt k).kdata (o + i) = none)) ∧
    (t.gangAt k).r = (s.gangAt k).r ∧ ∀ j, j ≠ k → t.gangAt j = s.gangAt j

/-- R223, R224: a store of die `d` is at its home and on its own die at once, and on no other die before it is delivered there; no
byte outside the stored ones changes anywhere. -/
def Sys2Proof.Claims.StoresReachTheirOwnDieFirst : Prop :=
  ∀ (s : State) (d : Nat) (bytes : List (Nat × Byte)) (tags : List Tag), d < 4 → (∀ b ∈ bytes, s.portDown b.1 = false) →
    let t := (s.store d bytes tags).2
    (∀ pa, t.byteAt d pa = (byteIn bytes pa).getD (s.byteAt d pa)) ∧
    (∀ pa, t.byteHome pa = (byteIn bytes pa).getD (s.byteHome pa)) ∧
    (∀ d' pa, d' < 4 → d' ≠ d → t.byteAt d' pa = s.byteAt d' pa) ∧
    t.due = s.due ++ ((List.range 4).filter (· ≠ d)).map (fun x => .causalDelivery x (s.store d bytes tags).1) ∧
    t = { s with log := t.log, vclock := t.vclock, due := t.due, nextId := s.nextId + 1 }

/-- R224: CAUSAL_DELIVERY makes one store visible on one die once every store its clock names is visible there, and waits
otherwise; no other die reads anything new, and nothing changes at home. -/
def Sys2Proof.Claims.CausalDeliveryMakesVisible : Prop :=
  ∀ (s : State) (die id : Nat) (e : StoreEnt), die < 4 → s.log.find? (·.id == id) = some e → e.seen.getLsbD die = false →
    (s.deliverable die e = false → exec (.causalDelivery die id) s = .next (s.owe [.causalDelivery die id])) ∧
    (s.deliverable die e = true → ∃ t, exec (.causalDelivery die id) s = .next t ∧ t = { s with mem := t.mem, log := t.log, tags := t.tags } ∧
      (∀ pa, t.byteAt die pa = s.byteIf (fun x => x.seen.getLsbD die || x.id == id) pa) ∧
      (∀ d' pa, d' < 4 → d' ≠ die → t.byteAt d' pa = s.byteAt d' pa) ∧ (∀ pa, t.byteHome pa = s.byteHome pa))

/-- R221, R173: STORE_PERFORMED takes a store that every die sees off the st counter, and waits for one that some die does not
see. -/
def Sys2Proof.Claims.StorePerformedCounts : Prop :=
  ∀ (s : State) (k id : Nat),
    ((∃ e ∈ s.log, e.id = id) → exec (.storePerformed k id) s = .next (s.owe [.storePerformed k id])) ∧
    ((∀ e ∈ s.log, e.id ≠ id) → (s.gangAt k).commits = [] → (s.gangAt k).hold ≠ .exiting →
      exec (.storePerformed k id) s = .next (s.setGangAt k
        { s.gangAt k with stores := (s.gangAt k).stores.filter (· ≠ id), pios := (s.gangAt k).pios.filter (· ≠ id) }))

/-- R165, R166, R221: an atomic of one place of G in the group form: the old value, of all stores at the home, goes to the register that D
names, the new one to the place in the same instant, visible everywhere; no other byte of the home changes. -/
def Sys2Proof.Claims.AtomicsExchangeAtTheHome : Prop :=
  ∀ (s s1 : State) (f : ClassM) (ea : VAddr) (pa : Nat) (leaf : DWord),
    let n := szBytes f.sz.toNat
    let code := f.atomOp.toNat
    let ops := s.gang.atomOps f 32
    let old := s1.homeNat pa n
    f.h.g = true → f.sp = 0#3 → (f.sz = 4#3 ∨ f.sz = 5#3) → code < 12 → (code = 10 → f.sz = 4#3) →
    s.groupGate f.h ([f.d.toNat] ++ indexG f) false false = none → s.gang.rel = none → s.gang.ahead = none → s.accWaits = false →
    s.gang.storeWaits f.scp.toNat f.ord.toNat = false → s.gang.loads.length < 4095 → s1.portDown pa = false →
    (∀ i, i < n → s1.portDown (pa + i) = false) →
    s.plan 0 n { r := true, w := true } true (s.accList f) = .go s1 [{ lane := 32, ea := ea, loc := .mem pa leaf }] →
    ∃ e p, exec (.atom f) s = .next (s.done e) ∧ e.gang.loads = s1.gang.loads ++ [p] ∧ e.due = s1.due ++ [.loadReturn s1.gk p.id] ∧
      p.await = [] ∧ p.vals = [] ∧
      p.gvals = [(f.d.toNat, if code = 10 then high (s.gang.gAt f.d.toNat) ++ BitVec.ofNat 32 old else BitVec.ofNat 64 old)] ∧
      (∀ i, i < n → e.byteHome (pa + i) = BitVec.ofNat 8 (atomRule code (8 * n) old ops.1 ops.2 / 256 ^ i) ∧
        ∀ d, d < 4 → e.byteAt d (pa + i) = e.byteHome (pa + i)) ∧
      (∀ a, a < pa ∨ pa + n ≤ a → e.byteHome a = s1.byteHome a) ∧ e.gang.r.g = s1.gang.r.g

/-- R165: the operations of ATOM, integer and float. -/
def Sys2Proof.Claims.AtomicOperations : Prop :=
  (∀ code w old x y : Nat, code < 12 → 0 < w → old < 2 ^ w → x < 2 ^ w →
    (atomNew code w old x y).1 = atomRule code w old x y ∧ (atomNew code w old x y).2 = 0#64) ∧
  (∀ old x y : Nat, atomNew 12 32 old x y = fmtF32.add .rn old x ∧ atomNew 13 32 old x y = fmtF32.minMax false old x ∧
    atomNew 14 32 old x y = fmtF32.minMax true old x)

/-- R167: WAITV of one group place within the module: while the value does not meet the condition the gang waits for the line and
nothing is written; once it does, D takes the value and the gang goes on; WAITV_REREAD makes a waiting gang read again. -/
def Sys2Proof.Claims.WaitForValue : Prop :=
  (∀ (s : State) (f : ClassM) (ea : VAddr) (t off : Nat),
    let n := szBytes f.sz.toNat
    let v := leNat (s.readLoc s.gk 1 n { lane := 32, ea := ea, loc := .spad t off })
    let want := (s.gang.gAt f.d.toNat).toNat
    let met := waitCond f.waitCond.toNat (f.h.fx.getLsbD 1) (8 * n) v want
    f.h.g = true → f.sp = 1#3 → s.groupGate f.h ([f.d.toNat] ++ indexG f) false false = none → s.engineGate = none → s.accWaits = false →
    s.gang.ptags = [] → s.tagsAt s.die (.spad t off) n = [] →
    s.plan 1 n { r := true } true (s.accList f) = .go s [{ lane := 32, ea := ea, loc := .spad t off }] →
    (met = false → exec (.waitv f) s = .next ((s.setGang { s.gang.unprobe with hold := .waitv }).owe [.waitvReread s.gk])) ∧
    (met = true → ∃ e, exec (.waitv f) s = .next (s.done e) ∧
      OnlyGang s e ({ s.gang.unprobe with hold := .no }.setG f.d.toNat (BitVec.ofNat 64 v)))) ∧
  (∀ (s : State) (k : Nat),
    exec (.waitvReread k) s = .next (if (s.gangAt k).hold = .waitv then s.setGangAt k { s.gangAt k with hold := .no } else s))

/-- R167, R77: the conditions of WAITV, EQ, NE, LT, LE, GT, GE, unsigned or signed. -/
def Sys2Proof.Claims.WaitConditions : Prop :=
  ∀ (code w a b : Nat) (signed : Bool), code < 6 → 0 < w → a < 2 ^ w → b < 2 ^ w →
    let x : Int := if signed then (BitVec.ofNat w a).toInt else a
    let y : Int := if signed then (BitVec.ofNat w b).toInt else b
    (waitCond code signed w a b = true ↔
      (code = 0 ∧ x = y) ∨ (code = 1 ∧ x ≠ y) ∨ (code = 2 ∧ x < y) ∨ (code = 3 ∧ x ≤ y) ∨ (code = 4 ∧ y < x) ∨ (code = 5 ∧ y ≤ x))

/-- R168, R226 to R228: FENCE. A release fence makes the gang's later stores releases at its scope or a wider one; an acquire fence
checks the releases that earlier relaxed loads read (MSTAT.MSCOPE); it waits for loads, and at DOM or SYS for stores. -/
def Sys2Proof.Claims.FencesOrder : Prop :=
  ∀ (s : State) (f : ClassM), s.groupGate f.h [] false false = none → s.engineGate = none →
    let z := f.scp.toNat
    let rel := f.ord = 2#2 ∨ f.ord = 3#2
    let acq := f.ord = 1#2 ∨ f.ord = 3#2
    (s.gang.fenceWaits z f.ord.toNat = true → exec (.fence f) s = .next s) ∧
    (s.gang.fenceWaits z f.ord.toNat = false →
      ∃ e, exec (.fence f) s = .next (s.done e) ∧ OnlyGang s e
        { s.gang with
          r := { s.gang.r with mstat :=
            if acq ∧ ∃ t ∈ s.gang.seen, s.includes t s.gk z = false then s.gang.r.mstat ||| 0x100#64 else s.gang.r.mstat }
          relScp := if rel then some (max z (s.gang.relScp.getD 0)) else s.gang.relScp })

/-- R157, R178, R179, R248: maintenance. CINV drops the L1 copies of the range, on its own die or at module scope on all; RINV also what
way partition 7 holds of it; RMINV drops the range's residency words and the repeat filters, and takes no core in or
out of service, and words of other modules that level-of-detail accesses have fetched are forgotten; CFLUSH only goes on; no byte of memory
changes. PREF changes no value. -/
def Sys2Proof.Claims.CacheMaintenance : Prop :=
  ∀ (s : State) (f : ClassM), s.groupGate f.h (f.d.toNat :: indexG f) false false = none →
    let there := fun (c : Nat) => f.scp = 4#3 ∨ dieOf c = s.die
    let clean := fun (e : State) => ∀ c, (e.coreAt c).resid = (s.coreAt c).resid ∧ (e.coreAt c).shut = (s.coreAt c).shut ∧
      (there c → ∀ k b, s.inLines f k = true → KMap.get none (e.coreAt c).stale k ≠ some b) ∧ (¬ there c → e.coreAt c = s.coreAt c)
    exec (.cflush f) s = .next (s.done s) ∧ (∃ e, exec (.cinv f) s = .next (s.done e) ∧ e = { s with cores := e.cores } ∧ clean e) ∧
    (∃ e, exec (.rinv f) s = .next (s.done e) ∧ e = { s with dies := e.dies, cores := e.cores } ∧ clean e ∧
      ∀ d, d < 4 →
        let kept := (s.dieAt d).p7.filter fun p => !s.inLines f p.1
        e.dieAt d = { s.dieAt d with p7 := if f.scp = 4#3 ∨ d = s.die then kept else (s.dieAt d).p7 }) ∧
    (s.gang.ahead = none → s.gang.fenceWaits f.scp.toNat 3 = false → s.lodOut f = false → s.gang.seen = [] →
      ∃ e, exec (.rminv f) s = .next (s.done e) ∧ e = { s with gangs := e.gangs, cores := e.cores } ∧
        e.gang = { s.gang with
          relScp := some (max f.scp.toNat (s.gang.relScp.getD 0)), far := e.gang.far, farTags := e.gang.farTags } ∧
        (∀ k, k ≠ s.gk → e.gangAt k = { s.gangAt k with far := (e.gangAt k).far, farTags := (e.gangAt k).farTags }) ∧
        (∀ k, s.inScope f k = true → (e.gangAt k).far = []) ∧
        (∀ c, f.scp ≠ 3#3 ∨ dieOf c = s.die → (e.coreAt c).filter = [] ∧ ∀ x ∈ (e.coreAt c).resid, s.inLines f x.1 = false) ∧
        ∀ c, (e.coreAt c).shut = (s.coreAt c).shut ∧ (e.coreAt c).drained = (s.coreAt c).drained ∧ (e.coreAt c).stale = (s.coreAt c).stale) ∧
    (s.memGate f [] [] [] = none → ∃ e, exec (.pref f) s = .next (s.done e) ∧ e = { s with
        dies := e.dies, cores := e.cores, nextId := e.nextId, psn := e.psn, net := e.net, due := e.due } ∧ SameMemory s e)

end

namespace Sys2Proof.Claims

open Sys2Proof.Machine

/-! ## Copies, batches, publication, barriers (R162, R163, R169 to R176, R314) -/

/-- Settle of R174. -/
def settled (b : Bcb) : Bcb :=
  if b.exp ≠ 0#32 ∧ b.exp ≤ b.arr then { exp := 0#32, arr := b.arr - b.exp, phase := b.phase + 1#32, pend := b.pend } else b

/-- A class-E or class-B group form that nothing holds back. -/
def engineReady (s : State) (h : Header) (gs : List Nat) : Prop := s.groupGate h gs false false = none ∧ s.engineGate = none

/-- A signed offset of 9 bits, in units of 16 bytes. -/
def unit16 (o : BitVec 9) : VAddr := o.signExtend 72 <<< 4

/-- A new copy `c` has been started from `s`: it is the newest of the module and of the eng counter, its first unit is owed, and
its barrier, if it names one of a team that is not saved, has its bytes in PEND. -/
def CopyStarted (s e : State) (c : Copy) : Prop :=
  c.id = s.nextId ∧ c.gang = s.gk ∧ c.done = 0 ∧ c.batch = none ∧ c.buf = [] ∧ c.parked = false ∧ c.dead = false ∧ c.wait = none ∧
  e.copies = s.copies ++ [c] ∧ e.due = s.due ++ [.copyUnit c.id] ∧
  e.gang = { s.gang with engs := s.gang.engs ++ [c.id] } ∧ (∀ k, k ≠ s.gk → e.gangAt k = s.gangAt k) ∧
  (c.bar = none → e = { s with nextId := s.nextId + 1, copies := e.copies, gangs := e.gangs, due := e.due }) ∧
  (∀ a t off, c.bar = some a → s.barAt s.gk a = some (t, off) → (s.teamAt t).status ≠ .saved →
    e.bcb t off = { s.bcb t off with pend := (s.bcb t off).pend + BitVec.ofNat 32 c.len } ∧ e.mem = s.mem ∧ e.log = s.log ∧
    e.nextId = s.nextId + 1)

end Sys2Proof.Claims

section

open Sys2Proof Sys2Proof.Machine Sys2Proof.Claims

/-- R169, R170: CPY of a legal length starts a copy from AD[TB] + 16 × MOD[8:0] to AD[TA] + 16 × MOD[17:9]; a copy of nothing is
complete at once; a length in g[A] that is not a multiple of 16, or above 16 MiB, is the memory-access trap with
TINFO 0 (log entry 70, DEDUCED). -/
def Sys2Proof.Claims.CopiesStart : Prop :=
  ∀ (s : State) (f : ClassE),
    let reg := f.h.fx.getLsbD 0
    let n := (s.gang.gAt f.a.toNat).toNat % 2 ^ 32
    let len := if reg then n else 16 * (f.d.toNat * 64 + f.a.toNat + 1)
    let dst := s.gang.adAt f.ta.toNat + unit16 (f.mod.extractLsb' 9 9)
    let src := s.gang.adAt f.tb.toNat + unit16 (f.mod.extractLsb' 0 9)
    let bar := if f.h.fx.getLsbD 1 then some (s.gang.adAt f.tc.toNat) else none
    engineReady s f.h (if reg then [f.a.toNat] else []) → s.accWaits = false → s.gang.loadsOut = false → s.farStores = false → s.gang.engs.length < 4095 →
    (reg = true → (n % 16 ≠ 0 ∨ 16777216 < n) → s.gang.kind = .vector →
      exec (.cpy f) s = .next (s.trap 20 0#64)) ∧
    ((reg = true → n % 16 = 0 ∧ n ≤ 16777216) →
      s.rangeTrap s.gang ([{ sp := f.bits 3 21, a := dst, n := len, need := { w := true }, swing := f.bits 3 21 == 0 },
        { sp := f.bits 3 18, a := src, n := len, need := { r := true } }] ++ barRange bar) = none →
      (len = 0 → exec (.cpy f) s = .next (s.done s)) ∧
      (len ≠ 0 → ∃ e c, exec (.cpy f) s = .next (s.done e) ∧ CopyStarted s e c ∧ c.gth = false ∧ c.dsp = f.bits 3 21 ∧
        c.ssp = f.bits 3 18 ∧ c.dst = dst ∧ c.src = src ∧ c.len = len ∧ c.bar = bar))

/-- R171: GTH starts a gather of one element per lane with an effect, from AD[TB] + index × size to its lane's slot after
AD[TA] + 16 × MOD[14:6]. -/
def Sys2Proof.Claims.GathersStart : Prop :=
  ∀ (s : State) (f : ClassE),
    let ls := s.gang.effLanes s.pt f.h
    let n := szBytes (f.bits 3 15)
    let dst := s.gang.adAt f.ta.toNat + unit16 (f.mod.extractLsb' 6 9)
    let idx := fun l => (s.gang.src f.a false l).toNat
    let bar := if f.h.fx.getLsbD 1 then some (s.gang.adAt f.tc.toNat) else none
    s.laneGate f.h [{ f := f.a }] [] false false = none → s.engineGate = none → s.accWaits = false → s.gang.loadsOut = false →
    s.farStores = false → s.gang.engs.length < 4095 → s.gthDest s.gang (f.bits 3 21) n dst ls = none → s.rangeTrap s.gang (barRange bar) = none →
    (∀ p ∈ (s.checkAll s.gk 0 n { r := true } (ls.map fun l => (l, s.gang.adAt f.tb.toNat + BitVec.ofNat 72 (idx l * n)))).1,
      p.2.2 ≠ .align ∧ p.2.2 ≠ .perm) →
    ∃ e c, exec (.gth f) s = .next (s.done e) ∧ CopyStarted (s.setGang (s.gang.pop (popped [{ f := f.a }]) ls)) e c ∧
      c.gth = true ∧ c.dsp = f.bits 3 21 ∧ c.ssp = 0 ∧ c.dst = dst ∧ c.src = s.gang.adAt f.tb.toNat ∧ c.len = n * ls.length ∧ c.n = n ∧
      c.bar = bar ∧ (∀ l, l < 32 → c.act.getLsbD l = decide (l ∈ ls) ∧ c.idx.getD l 0 = idx l)

/-- R162, R170, R171, R419: COPY_UNIT moves one unit, 16 bytes of a CPY or one element of a GTH, and owes the next or the completion; a
unit of a CPY to G lands with the rest of its 32 bytes; a page that is not resident is asked for; an address that may not be read ends
the copy and is answered with the trap. -/
def Sys2Proof.Claims.CopyUnitsMoveBytes : Prop :=
  (∀ c : Copy, c.gth = false →
    c.unit = (c.src + BitVec.ofNat 72 (c.done + c.buf.length), c.dst + BitVec.ofNat 72 (c.done + c.buf.length), 16)) ∧
  (∀ (c : Copy) (l j : Nat), c.gth = true → 0 < c.n → c.done = j * c.n → ((lanes.filter fun x => c.act.getLsbD x)[j]?) = some l →
    c.unit = (c.src + BitVec.ofNat 72 (c.idx.getD l 0 * c.n), c.dst + BitVec.ofNat 72 (l * c.n), c.n)) ∧
  (∀ (s : State) (id : Nat) (c : Copy), s.copies.find? (·.id == id) = some c → c.parked = false → c.dead = false → c.wait = none →
    c.done < c.len →
    (∀ b pas, s.engineRead c.gang c.ssp c.unit.2.2 c.unit.1 = .bytes b pas →
      let s0 := (s.engineFill c.gang c.ssp c.unit.2.2 c.unit.1).noteRead (s.dieOfGang c.gang) pas
      let all := c.buf ++ b
      let more : Prop := c.dsp = 0 ∧ (c.dst.toNat + c.done + all.length) % 32 ≠ 0 ∧ c.done + all.length < c.len
      s0 = { s with dies := s0.dies, fresh := s0.fresh, vclock := s0.vclock } ∧
      (more → exec (.copyUnit id) s = .next ((s0.setCopy { c with buf := all }).owe [.copyUnit id])) ∧
      (¬ more → ∀ s1, s0.engineWrite c.gang c.dsp (if c.gth then c.unit.2.1 else c.dst + BitVec.ofNat 72 c.done) all = .ok s1 →
        exec (.copyUnit id) s = .next ((s1.setCopy { c with done := c.done + all.length, buf := [] }).owe
          [if c.len ≤ c.done + all.length then .copyComplete id else .copyUnit id]))) ∧
    (∀ va, s.engineRead c.gang c.ssp c.unit.2.2 c.unit.1 = .absent va → exec (.copyUnit id) s = .next (s.copyFault c va 0)) ∧
    (∀ va, s.engineRead c.gang c.ssp c.unit.2.2 c.unit.1 = .bad va → (s.gangAt c.gang).ended = false →
      exec (.copyUnit id) s = .next ((s.setCopy { c with dead := true }).owe [.asyncTrap c.gang 20 (va.setWidth 64)])))

/-- R162, R314: an engine's first write to a block of a swing buffer since the last PUBL copies the block from the published place to
the sagger's, then writes its bytes there; the published place is not written. -/
def Sys2Proof.Claims.EngineWritesGoToTheSagger : Prop :=
  ∀ (s : State) (k : Nat) (va : VAddr) (b : List Byte) (w : Swing) (sp pp : Nat) (leaf leaf' : DWord),
    let x := s.xlOf (s.gangAt k).team
    let blk := va.toNat / 4096 * 4096
    let o := va.toNat % 4096
    x.swingOf va.toNat = some w → (s.lookup x (s.saggerPlace x w blk)).1 = .page sp leaf →
    (s.lookup x (s.published x blk)).1 = .page pp leaf' → entW leaf = true → entPart leaf ≠ 7 →
    (∀ i, i < 4096 → s.portDown (sp + i) = false ∧ s.portDown (pp + i) = false) → (x.launch, blk) ∉ s.sagger →
    o + b.length ≤ 4096 →
    ∃ t, s.engineWriteG k va b = .ok t ∧ t.sagger = s.sagger ++ [(x.launch, blk)] ∧
      (∀ i, i < 4096 → t.byteHome (sp + i) = if o ≤ i ∧ i < o + b.length then b.getD (i - o) 0#8 else s.byteAt x.die (pp + i)) ∧
      (∀ a, a < sp ∨ sp + 4096 ≤ a → t.byteHome a = s.byteHome a) ∧ t.gangs = s.gangs ∧ t.teams = s.teams

/-- R170, R174: COPY_COMPLETE takes a copy whose last unit has landed off the eng counter and gives its bytes to its barrier: ARR gains
what PEND loses, and the barrier settles. -/
def Sys2Proof.Claims.CopyCompletionArrives : Prop :=
  ∀ (s : State) (id : Nat) (c : Copy), s.copies.find? (·.id == id) = some c → c.parked = false → c.dead = false → c.len ≤ c.done →
    (s.gangAt c.gang).hold ≠ .exiting →
    let g' := { s.gangAt c.gang with engs := (s.gangAt c.gang).engs.filter (· ≠ id) }
    ∃ t, exec (.copyComplete id) s = .next t ∧ t.copies = s.copies.filter (·.id ≠ id) ∧ t.gangAt c.gang = g' ∧
      (∀ k, k ≠ c.gang → t.gangAt k = s.gangAt k) ∧
      (c.bar = none → t = { s with copies := t.copies, gangs := t.gangs }) ∧
      (∀ a tm off, c.bar = some a → s.barAt c.gang a = some (tm, off) → (s.teamAt tm).status ≠ .saved →
        t.bcb tm off = settled { s.bcb tm off with
          arr := (s.bcb tm off).arr + BitVec.ofNat 32 c.len, pend := (s.bcb tm off).pend - BitVec.ofNat 32 c.len })

/-- R172, R173: BCOMMIT closes the batch of the gang's copies not yet in one and counts it; BWAIT and BWAIT.G wait while a copy of a
batch up to the one named runs; WAITC waits while a counter is above its limit. -/
def Sys2Proof.Claims.BatchesAndCounters : Prop :=
  ∀ (s : State) (f : ClassB),
    let running := fun (n : Nat) => ∃ c ∈ s.copies, c.gang = s.gk ∧ ∃ b, c.batch = some b ∧ (n + 2 ^ 32 - b) % 2 ^ 32 < 2 ^ 31
    let n := f.disp.toNat
    let a := f.aux12.toNat % 32
    let above := n / 2 ^ 18 % 64 < s.gang.loads.length ∨ n / 2 ^ 12 % 64 < s.gang.stores.length ∨ n / 2 ^ 6 % 64 < s.gang.engs.length ∨
      n % 64 < s.gang.pios.length + s.gang.nets.length
    (engineReady s f.h [] →
      (∃ e, exec (.bcommit f) s = .next (s.done e) ∧ e = { s with gangs := e.gangs, copies := e.copies } ∧
        e.gang = { s.gang with blast := s.gang.blast + 1#32 } ∧ (∀ k, k ≠ s.gk → e.gangAt k = s.gangAt k) ∧
        e.copies = s.copies.map fun c => if c.gang = s.gk ∧ c.batch = none then { c with batch := some (s.gang.blast + 1#32).toNat } else c) ∧
      (running n → exec (.bwait f) s = .next s) ∧ (¬ running n → exec (.bwait f) s = .next (s.done s)) ∧
      (above → exec (.waitc f) s = .next s) ∧ (¬ above → exec (.waitc f) s = .next (s.done s))) ∧
    (engineReady s f.h [a] →
      (running ((s.gang.gAt a).toNat % 2 ^ 32) → exec (.bwaitG f) s = .next s) ∧
      (¬ running ((s.gang.gAt a).toNat % 2 ^ 32) → exec (.bwaitG f) s = .next (s.done s)))

/-- R163: PUBL of the first address of a registered swing buffer joins the eng counter and the queue of swings with the operations it
comes after, and goes on; any other address is the swing-buffer trap; PUBL_SWING waits for those operations and for earlier PUBLs
of the buffer, then flips the selector bit of each written block, counts the generation word, and takes the PUBL off the eng counter; a
page that the swing needs is fetched first. -/
def Sys2Proof.Claims.PublicationSwings : Prop :=
  (∀ (s : State) (f : ClassM), s.groupGate f.h (indexG f) false false = none → s.engineGate = none → s.gang.engs.length < 4095 →
    let ea := s.gang.effAddr f 0
    let x := s.xlOf s.gang.team
    ((∀ b ∈ x.swings, b.base ≠ ea.toNat) → exec (.publ f) s = .next (s.trap 21 (ea.setWidth 64))) ∧
    (∀ b, x.swings.find? (fun b => b.base == ea.toNat) = some b →
      ∃ e p, exec (.publ f) s = .next (s.done e) ∧ (Settled s → MidSlot s → exec (.publ f) s = .next (movedOn e)) ∧
        e = { s with nextId := s.nextId + 1, publs := s.publs ++ [p], gangs := e.gangs, due := s.due ++ [.publSwing s.nextId] } ∧
        e.gang = { s.gang with engs := s.gang.engs ++ [s.nextId] } ∧ (∀ k, k ≠ s.gk → e.gangAt k = s.gangAt k) ∧
        p.id = s.nextId ∧ p.gang = s.gk ∧ p.base = b.base ∧ p.queue = x.queue ∧ p.launch = x.launch ∧
        p.scp = (if f.scp = 0#3 then b.scope else f.scp.toNat) ∧
        p.need = s.gang.loads.map (·.id) ++ s.gang.stores ++ s.gang.pios)) ∧
  (∀ (s : State) (id : Nat) (p : Publ), s.publs.find? (·.id == id) = some p →
    let g := s.gangAt p.gang
    let pending := (∃ i ∈ p.need, i ∈ g.stores ∨ i ∈ g.pios ∨ ∃ q ∈ g.loads, q.id = i) ∨ g.commits ≠ []
    let first := ∀ q, s.publs.find? (fun q => q.launch == p.launch && q.base == p.base) = some q → q.id = id
    let x := s.xlQueue p.queue
    (∀ b va, ¬ pending → first → x.swings.find? (fun b => b.base == p.base) = some b → s.swingAbsent x b = some va →
      exec (.publSwing id) s = .next (s.engineFault p.gang p.queue (BitVec.ofNat 72 va) 1 (.publSwing id))) ∧
    ((pending ∨ ¬ first) → exec (.publSwing id) s = .next (s.owe [.publSwing id])) ∧
    (¬ pending → first → (∀ b ∈ (s.xlQueue p.queue).swings, b.base ≠ p.base) → g.hold ≠ .exiting →
      ∃ t, exec (.publSwing id) s = .next t ∧ t = { s with publs := s.publs.filter (·.id ≠ id), gangs := t.gangs } ∧
        t.gangAt p.gang = { g with engs := g.engs.filter (· ≠ id) }) ∧
    (∀ b, ¬ pending → first → (s.xlQueue p.queue).swings.find? (fun b => b.base == p.base) = some b → g.hold ≠ .exiting →
      s.swingAbsent x b = none → s.written x b = [] →
      let gen := (s.vaNat (s.xlQueue p.queue) b.gen 8).getD 0
      ∃ t, exec (.publSwing id) s = .next t ∧ t.publs = s.publs.filter (·.id ≠ id) ∧
        (∀ i pa leaf, i < 8 → (s.lookup (s.xlQueue p.queue) (b.gen + i)).1 = .page pa leaf → s.portDown pa = false →
          (∀ j pa' leaf', j < 8 → j ≠ i → (s.lookup (s.xlQueue p.queue) (b.gen + j)).1 = .page pa' leaf' → pa' ≠ pa) →
          t.byteHome pa = BitVec.ofNat 8 ((gen + 1) % 2 ^ 64 / 256 ^ i))) ∧
    (∀ (b : Swing) (blk pas : Nat) (pal : List Nat) (leaf : DWord), ¬ pending → first → x.swings.find? (fun b => b.base == p.base) = some b → g.hold ≠ .exiting →
      s.swingAbsent x b = none → s.written x b = [(x.launch, blk)] →
      let i := (blk - b.base) / 4096
      let gen := (s.vaNat x b.gen 8).getD 0
      -- the places of the generation word and of the selector byte do not depend on the bytes written, and are apart
      (∀ m l, ({ s with mem := m, log := l }.lookup x (b.sel + i / 8)).1 = .page pas leaf) → entR leaf = true → pas ∉ pal →
      pal.length = 8 → pal.Nodup →
      (∀ j, j < 8 → ∀ m l, ∃ lf, ({ s with mem := m, log := l }.lookup x (b.gen + j)).1 = .page (pal.getD j 0) lf ∧ entR lf = true) →
      (∀ a, a = pas ∨ a ∈ pal → s.portDown a = false) →
      ∃ t, exec (.publSwing id) s = .next t ∧ t.publs = s.publs.filter (·.id ≠ id) ∧
        t.gangAt p.gang = { g with engs := g.engs.filter (· ≠ id) } ∧ (x.launch, blk) ∉ t.sagger ∧
        t.byteHome pas = s.byteHome pas ^^^ BitVec.ofNat 8 (2 ^ (i % 8)) ∧
        ∀ j, j < 8 → t.byteHome (pal.getD j 0) = BitVec.ofNat 8 ((gen + 1) % 2 ^ 64 / 256 ^ j)))

/-- R174 to R176, R227: byte-counting barriers in a scratchpad. BCB.ARM adds g[D] to EXP and BCB.ADD to ARR, and the barrier settles; BCB.ADD
records its release; BCB.WAIT goes on once the phase has passed its argument, and waits before. All wait for the gang's loads. -/
def Sys2Proof.Claims.ByteCountingBarriers : Prop :=
  ∀ (s : State) (f : ClassM) (t off : Nat),
    let ea := s.gang.effAddr f 0
    let k := low (s.gang.gAt f.d.toNat)
    let b := s.bcb t off
    s.groupGate f.h (f.d.toNat :: indexG f) false false = none → s.engineGate = none →
    s.rangeTrap s.gang [{ sp := f.sp.toNat, a := ea, n := 16, need := {} }] = none → s.spadLoc s.gang f.sp.toNat 16 ea = some (t, off) →
    (s.teamAt t).status ≠ .saved →
    (s.gang.loadsOut = true → exec (.bcbarm f) s = .next s ∧ exec (.bcbadd f) s = .next s ∧ exec (.bcbwait f) s = .next s) ∧
    (s.gang.loadsOut = false → ∃ e, exec (.bcbarm f) s = .next (s.done e) ∧ e = { s with teams := e.teams } ∧ e.bcb t off = settled { b with exp := b.exp + k } ∧
      (∀ o, o < off ∨ off + 16 ≤ o → (e.teamAt t).spadAt o = (s.teamAt t).spadAt o) ∧ ∀ t', t' ≠ t → e.teamAt t' = s.teamAt t') ∧
    (s.gang.loadsOut = false →
      ∃ e, exec (.bcbadd f) s = .next (s.done e) ∧ e = { s with teams := e.teams } ∧ e.bcb t off = settled { b with arr := b.arr + k } ∧
        KMap.get [] (e.teamAt t).adds off = KMap.get [] (s.teamAt t).adds off ++ [(b.phase.toNat, s.tagOf s.gk f.scp.toNat)] ∧
        (∀ o, o < off ∨ off + 16 ≤ o → (e.teamAt t).spadAt o = (s.teamAt t).spadAt o) ∧ ∀ t', t' ≠ t → e.teamAt t' = s.teamAt t') ∧
    (s.gang.loadsOut = false → (b.phase = k ∨ 2 ^ 31 ≤ (b.phase - k).toNat) → exec (.bcbwait f) s = .next s) ∧
    (s.gang.loadsOut = false → b.phase ≠ k → (b.phase - k).toNat < 2 ^ 31 → KMap.get [] (s.teamAt t).adds off = [] → exec (.bcbwait f) s = .next (s.done s))

end
namespace Sys2Proof.Claims

open Sys2Proof.Machine

/-! ## Levels of detail (R157 to R161) and matrices (R182 to R197) -/

/-- Level-of-detail accesses of the gang stay within the module, and nothing holds them back: no window is another module's, no held
atomic locks a place, every CXL link is up, and the 256 bytes of the header at `h` are readable. -/
def LodNear (s : State) (h : VAddr) : Prop :=
  let x := s.xlOf s.gang.team
  (∀ va m c leaf, (s.lookup x va).1 ≠ .far m c leaf) ∧ (∀ pa leaf, s.lockedFor s.gk (.mem pa leaf) = false) ∧
  (∀ pa, s.portDown pa = false) ∧ s.gang.asks = [] ∧ h.toNat % 64 = 0 ∧
  ∀ o ∈ [0, 64, 128, 192], ∃ pa leaf, (s.checkG x { r := true } (h + BitVec.ofNat 72 o)).1 = .ok (.mem pa leaf)

/-- From `s` the word has started a load of its `vregs` that returns at once with a value for each of these keys, and has gone on. -/
def Delivers (s : State) (i : Instr) (vregs keys : List Nat) : Prop :=
  ∃ e p, exec i s = .next (s.done e) ∧ (Settled s → MidSlot s → exec i s = .next (movedOn e)) ∧
    e.gang.loads = s.gang.loads ++ [p] ∧ p.vregs = vregs ∧ p.await = [] ∧ p.vals.map (·.1) = keys ∧
    .loadReturn s.gk p.id ∈ e.due ∧ e.gang.r.v = s.gang.r.v ∧ e.gang.r.g = s.gang.r.g ∧ ∀ k, k ≠ s.gk → e.gangAt k = s.gangAt k

/-- The fields of a descriptor (R182). -/
def TdIs (d : TileDesc) (base scale : VAddr) (rowsM1 colsM1 : BitVec 16) (stride : Word) (slot : BitVec 3) (c sv : Bool) : Prop :=
  d.extractLsb' 0 72 = base ∧ d.extractLsb' 72 72 = scale ∧ d.extractLsb' 144 16 = rowsM1 ∧ d.extractLsb' 160 16 = colsM1 ∧
  d.extractLsb' 176 32 = stride ∧ d.extractLsb' 208 3 = slot ∧ d.getLsbD 211 = c ∧ d.getLsbD 212 = sv ∧ d.extractLsb' 213 43 = 0#43

/-- Bytes of a row (R182). -/
def rowb (x : FSlot) (cols : Nat) : Nat := if x.isZb then cols * x.b / 8 else cols * x.elemBytes

/-- What reasons 1, 2, 6 and 7 of R185 ask of every descriptor; `al` is 32 for a drain to G. -/
def TdLegal (x : FSlot) (d : TileDesc) (al : Nat) : Prop :=
  (tdBase d).toNat % al = 0 ∧ (tdScale d).toNat % 16 = 0 ∧ tdStride d % al = 0 ∧ (al = 32 → rowb x (tdCols d) % 32 = 0) ∧
  (tdRows d = 1 ∨ rowb x (tdCols d) ≤ tdStride d) ∧ (x.isZb = true → tdCols d % 32 = 0 ∧ tdSv d = true) ∧
  (tdInC d = true → (tdBase d).toNat < 2 ^ 24 ∧ (tdScale d).toNat < 2 ^ 24)

/-- A slot of a tile operand: R62 admits it, and it does not round stochastically except for a drain. -/
def SlotOk (x : FSlot) (drain : Bool) : Prop := x.ok = true ∧ (drain = true ∨ x.rnd ≠ 4)

/-- An accumulator that exists in the mode, with values where they are needed (R186, R197). -/
def AccOk (m : Mx) (acc : Nat) (valid : Bool) : Prop := (m.red = true → acc < 4) ∧ (valid = true → m.valid.getLsbD acc = true)

/-- The group form issues, nothing of R190 holds it back, and the queue has room. -/
def mxReady (s : State) (h : Header) (gs : List Nat) : Prop :=
  s.groupGate h gs false false = none ∧ s.accWaits = false ∧ s.gang.loadsOut = false ∧ s.engine.ops.length < 8

/-- `e` is `s` with `op` as the newest operation of the issuing program's engine, its completion owed, and VALID and KIND of the
engine as given; every accumulator is as before. -/
def Queued (s e : State) (op : MxOp) (valid kind : BitVec 8) : Prop :=
  e = { s with nextId := s.nextId + 1, mx := e.mx, due := s.due ++ [.mxOpComplete (s.clusterOfGang s.gk) s.nextId] } ∧
  e.mxAt (s.clusterOfGang s.gk) = { s.engine with
    ops := s.engine.ops ++ [{ op with id := s.nextId, int := s.engine.kind.getLsbD op.acc }], valid := valid, kind := kind } ∧
  ∀ c, c ≠ s.clusterOfGang s.gk → e.mxAt c = s.mxAt c

/-- Bit `n` of an 8-bit register set or cleared. -/
def withBit (x : BitVec 8) (n : Nat) (b : Bool) : BitVec 8 := if b then x ||| (1#8 <<< n) else x &&& ~~~(1#8 <<< n)

/-- The formats that R192's table pairs, and whether the pair is of integers. -/
def MmaPair (x y : FSlot) (bt : Bool) (int : Bool) : Prop :=
  (x.isZb = true ∧ y.isZb = true ∧ bt = true ∧ int = false) ∨
  (x.isZb = false ∧ y.isZb = false ∧
    ((x.fmt = y.fmt ∧ x.fmt < 3 ∧ int = false) ∨ (3 ≤ x.fmt ∧ x.fmt ≤ 4 ∧ 3 ≤ y.fmt ∧ y.fmt ≤ 4 ∧ int = false) ∨
      (5 ≤ x.fmt ∧ x.fmt ≤ 6 ∧ 5 ≤ y.fmt ∧ y.fmt ≤ 6 ∧ int = true)))

/-- The region of an operation and the new value of element (i, j) from the old one, with its flags (R191 to R193). `l` holds the
bytes of the operands. -/
def mxResult (fs : TileDesc → FSlot) (op : MxOp) (l : List (Nat × List Byte)) : Option (Nat × Nat × (Nat → Nat → XWord → XWord × DWord)) :=
  let d := op.da
  let x := fs d
  match op.kind with
  | .zero _ => some (128, 128, fun _ _ _ => (0#34, 0#64))
  | .ldacc => some (128, 128, fun i j _ =>
      if i < tdRows d ∧ j < tdCols d then
        if (NFmt.of x.fmt).isInt then (BitVec.ofNat 34 (wrap 32 ((tileVal x d l i j).scaled 0)), 0#64)
        else (BitVec.ofNat 34 (fmtXF.convert .rn false (tileVal x d l i j)).1, (fmtXF.convert .rn false (tileVal x d l i j)).2)
      else (0#34, 0#64))
  | .mma bt => some (tdRows d, mmaN bt op.db, fun i j old => mmaElem x (fs op.db) d op.db bt l l old i j)
  | .scale v => some (128, 128, fun _ _ old => scaleElem op.int old v.toNat)
  | .scaleRow => some (128, 128, fun i _ old => scaleElem op.int old (tilePat x d l 0 i))
  | .scaleCol => some (128, 128, fun _ j old => scaleElem op.int old (tilePat x d l 0 j))
  | .drain .. => none

/-- What an operation reads: the space and the ranges. -/
def mxReads (fs : TileDesc → FSlot) (op : MxOp) : Option (Nat × List (Nat × Nat)) :=
  match op.kind with
  | .zero _ => none
  | .scale _ => none
  | .ldacc => some (if tdInC op.da then 2 else 0, tileRows (fs op.da) op.da)
  | .mma _ => some (0,
      tileRows (fs op.da) op.da ++ tileScales (fs op.da) op.da ++ tileRows (fs op.db) op.db ++ tileScales (fs op.db) op.db)
  | .drain .. => some (if tdInC op.da then 2 else 0, if (fs op.da).sch = 2 then tileScales (fs op.da) op.da else [])
  | _ => some (0, tileRows (fs op.da) op.da)

/-- A bit is set in the flags of some element of the region. -/
def FlagsOf (h : KMap XWord) (acc rows cols : Nat) (f : Nat → Nat → XWord → XWord × DWord) (b : Nat) : Prop :=
  ∃ i j, i < rows ∧ j < cols ∧ (f i j (KMap.get 0#34 h (16384 * acc + 128 * i + j))).2.getLsbD b = true

/-- Element (i, j) of the region differs between the halves (R197). -/
def Mismatch (m : Mx) (acc row0 col0 i j : Nat) : Prop :=
  let key := 16384 * acc + 128 * (row0 + i) + (col0 + j)
  canonXf (m.kind.getLsbD acc) (KMap.get 0#34 m.h0 key) ≠ canonXf (m.kind.getLsbD acc) (KMap.get 0#34 m.h1 key)

/-- The elements of one half after an operation. -/
def HalfIs (h h' : KMap XWord) (acc rows cols : Nat) (f : Nat → Nat → XWord → XWord) : Prop :=
  ∀ a i j, i < 128 → j < 128 → KMap.get 0#34 h' (16384 * a + 128 * i + j) =
    if a = acc ∧ i < rows ∧ j < cols then f i j (KMap.get 0#34 h (16384 * a + 128 * i + j))
    else KMap.get 0#34 h (16384 * a + 128 * i + j)

end Sys2Proof.Claims

section

open Sys2Proof Sys2Proof.Machine Sys2Proof.Claims

/-- R157, R158: a lane of LDLOD. A header that is no buffer, a level it lacks or an index beyond its count delivers 0 with the status
0x90 + level; a page of the requested level whose map bit is set and whose entry is valid delivers its element with
status 0; no resident level delivers status with 0x5F. LDLOD and SMPL complete, with a load that returns the values,
where their header is readable, and also where it is absent (zeros, status 0x90 + level), whatever the pages of the levels are: each lane
with an effect gets its values and its status; a header that is not 64-byte aligned is the memory-access trap. -/
def Obligations.LevelsOfDetail : Prop :=
  (∀ (s : State) (x : Xl) (b : List Byte) (sz L ch i : Nat),
    ((hdrKind b ≠ 0 ∨ hdrNlev b ≤ L ∨ lodCount b L ≤ i) → s.ldlodLane x b sz L ch i = ({ status := 0x90 ||| L }, s)) ∧
    (hdrKind b = 0 → L < hdrNlev b → i < lodCount b L →
      let va := x.win + hdrLbase b L + i * szBytes sz
      let m := s.mapBit s.team.core x b L (i * szBytes sz / 131072)
      m.1 = true → m.2.pteValid x va = true →
        (s.ldlodLane x b sz L ch i).1.val = szExtend sz (leNat ((m.2.seeCh x ch va (szBytes sz)).1.getD [])) ∧
        (s.ldlodLane x b sz L ch i).1.status = 0 ∧ (s.ldlodLane x b sz L ch i).1.log = [])) ∧
  (∀ (s : State) (f : ClassM),
    let d := f.d.toNat
    let g := s.gang
    let h := g.adAt f.adr.toNat
    let L := f.level.toNat
    let ls := g.effLanes s.pt f.h
    let rel := fun (l : Nat) => (g.effAddr f l - h).toNat
    let x := { s.xlOf g.team with win := h.toNat / 2 ^ 64 * 2 ^ 64 }
    let put := fun (l : Nat) (v : DWord) (st : Nat) => laneVals d false l v ++ laneVals (d + 1) false l (BitVec.ofNat 64 st)
    s.memGate f [] [{ f := f.d, n := 2, a := 2 }] [] = none → s.accWaits = false → g.loads.length < 4095 →
    (h.toNat % 64 ≠ 0 → exec (.ldlod f) s = .next (s.trapLanes 20 (maskOf fun l => ls.contains l) (h.setWidth 64))) ∧
    ((∀ l ∈ ls, rel l % szBytes f.sz.toNat = 0) → (s.lodHeader h).1 = .absent →
      exec (.ldlod f) s = .next (s.done (s.addLaneLoad (if 48 ≤ d then [] else [d, d + 1])
        (ls.flatMap fun l => put l 0#64 (0x90 ||| L)) 0#64))) ∧
    (∀ b, (∀ l ∈ ls, rel l % szBytes f.sz.toNat = 0) → (s.lodHeader h).1 = .ok b →
      let r := s.ldlodLanes x b f.sz.toNat L f.ch.toNat (fun l => rel l / szBytes f.sz.toNat) ls
      r.2.gang.asks = [] →
      ∃ e, exec (.ldlod f) s = .next (s.done (e.addLaneLoad (if 48 ≤ d then [] else [d, d + 1])
          (r.1.flatMap fun o => put o.1 o.2.val o.2.status) 0#64)) ∧
        e = (r.2.forgetFar.offers 0 h (r.1.flatMap (·.2.log))).syncTags s.gk f.scp.toNat f.ord.toNat (r.1.flatMap (·.2.tags)).eraseDups) ∧
    -- it completes wherever the words it reads are the module's: a value and a status for every lane with an effect
    (LodNear s h → (∀ l ∈ ls, rel l % szBytes f.sz.toNat = 0) → d < 48 →
      Delivers s (.ldlod f) [d, d + 1] (ls.flatMap fun l => [32 * d + l, 32 * (d + 1) + l]))) ∧
  (∀ (s : State) (f : ClassE),
    let d := f.d.toNat
    let g := s.gang
    let h := g.adAt f.ta.toNat
    let L := f.bits 4 0
    let ls := g.effLanes s.pt f.h
    let x := { s.xlOf g.team with win := h.toNat / 2 ^ 64 * 2 ^ 64 }
    let put := fun (l : Nat) (c : List Nat) (st : Nat) =>
      (c ++ [st]).zipIdx.flatMap fun p => laneVals (d + p.2) false l (BitVec.ofNat 64 p.1)
    d ≤ 40 → s.laneGate f.h [Use.of f.a true] [{ f := f.d, n := 5, a := 4 }] false false = none → s.accWaits = false →
    g.loads.length < 4095 →
    ((s.lodHeader h).1 = .absent → exec (.smpl f) s = .next (s.done (s.addLaneLoad ((List.range 5).map (d + ·))
        (ls.flatMap fun l => put l [0, 0, 0, 0] (0x90 ||| L)) 0#64))) ∧
    (∀ b, (s.lodHeader h).1 = .ok b →
      let r := s.smplLanes x b L (f.bits 1 4 == 1) (f.bits 2 5)
        (fun l => ((g.src f.a true l).toNat % 2 ^ 32, (g.src f.a true l).toNat / 2 ^ 32)) ls
      r.2.gang.asks = [] →
      ∃ e, exec (.smpl f) s = .next (s.done (e.addLaneLoad ((List.range 5).map (d + ·))
          (r.1.flatMap fun o => put o.1 o.2.1 o.2.2.2.status) (r.1.foldl (fun m o => m ||| o.2.2.1) 0#64))) ∧
        e = r.2.forgetFar.offers 1 h (r.1.flatMap (·.2.2.2.log))) ∧
    -- it completes wherever the words it reads are the module's: four channels and a status for every lane with an effect
    (LodNear s h → Delivers s (.smpl f) ((List.range 5).map (d + ·))
      (ls.flatMap fun l => (List.range 5).map fun j => 32 * (d + j) + l)))

/-- R182 to R185: TDSET writes one descriptor whole where its new contents are legal, and otherwise takes the descriptor trap with one of
the reasons 1, 2, 4, 6 and 7 and writes none; TDGET reads the selected part of a descriptor into a group register. -/
def Sys2Proof.Claims.TileDescriptors : Prop :=
  (∀ (s : State) (i : Instr) (f : ClassE) (gs : List Nat) (rowsM1 colsM1 : BitVec 16) (stride : Word),
    (match i with
      | .tdsetImm f => some (f, [], (f.mod.extractLsb' 14 9).setWidth 16, (f.mod.extractLsb' 4 10).setWidth 16,
          16#32 * (16#32 * f.a.setWidth 32 + (f.mod.extractLsb' 0 4).setWidth 32))
      | .tdsetReg f => some (f, [f.a.toNat], (s.gang.gAt f.a.toNat).extractLsb' 0 16, (s.gang.gAt f.a.toNat).extractLsb' 16 16,
          (s.gang.gAt f.a.toNat).extractLsb' 32 32)
      | _ => none) = some (f, gs, rowsM1, colsM1, stride) →
    s.groupGate f.h gs (!(s.fs f.fs).ok) false = none → Settled s →
    let x := s.fs f.fs
    let sv := f.h.fx.getLsbD 1
    ∃ d, TdIs d (s.gang.adAt f.ta.toNat) (if sv then s.gang.adAt f.tc.toNat else 0#72) rowsM1 colsM1 stride f.fs (f.mod.getLsbD 23) sv ∧
      let legal := TdLegal x d 16 ∧ (sv = true → x.isZb = true ∨ x.fmt = 0 ∨ x.fmt = 1 ∨ x.fmt = 6)
      (legal → ∃ g', exec i s = .next (s.done (s.setGang g')) ∧ g' = { s.gang with td := g'.td } ∧
        ∀ n, g'.tdAt n = if n = f.d.toNat then d else s.gang.tdAt n) ∧
      (¬ legal → ∃ r ∈ [1, 2, 4, 6, 7], exec i s = .next (s.trap 21 (BitVec.ofNat 64 (f.d.toNat + 256 * r))))) ∧
  (∀ (s : State) (f : ClassE), s.groupGate f.h [f.d.toNat] false false = none →
    let d := s.gang.tdAt f.ta.toNat
    let v : DWord := match f.bits 3 0 with
      | 0 => d.extractLsb' 0 64
      | 1 => (d.extractLsb' 64 8).setWidth 64
      | 2 => d.extractLsb' 72 64
      | 3 => (d.extractLsb' 136 8).setWidth 64
      | 4 => d.extractLsb' 144 64
      | _ => (d.extractLsb' 208 5).setWidth 64
    ∃ g', exec (.tdget f) s = .next (s.done (s.setGang g')) ∧ g' = { s.gang with r := { s.gang.r with g := g'.r.g, undo := g'.r.undo } } ∧
      ∀ n, n < 32 → g'.gAt n = if n = f.d.toNat then v else s.gang.gAt n)

/-- R186, R187, R190 to R194, R197: MXZERO, MXLDACC, MXMMA, MXSCALE and, outside redundant mode or once it has compared, MXDRAIN enter
the queue of the engine with the descriptors they name, and go on; MXZERO and MXLDACC set VALID and KIND, the others
leave them. An accumulator that must hold values and does not is the lintel-engine trap with reason 1. -/
def Obligations.MatrixOperationsEnterTheQueue : Prop :=
  ∀ (s : State) (f : ClassE),
    let acc := f.d.toNat
    let m := s.engine
    let da := s.gang.tdAt f.ta.toNat
    let db := s.gang.tdAt f.tb.toNat
    let x := s.fs (tdSlot da)
    let y := s.fs (tdSlot db)
    let bt := f.mod.getLsbD 0
    (mxReady s f.h [] →
      (AccOk m acc false → ∃ e, exec (.mxzero f) s = .next (s.done e) ∧
        Queued s e { id := 0, kind := .zero (f.mod.getLsbD 0), acc := acc } (withBit m.valid acc true) (withBit m.kind acc (f.mod.getLsbD 0))) ∧
      (AccOk m acc false → SlotOk x false → TdLegal x da 16 → x.isZb = false → tdRows da ≤ 128 → tdCols da ≤ 128 →
        s.rangeTrap s.gang (readRanges x da) = none → ∃ e, exec (.mxldacc f) s = .next (s.done e) ∧
          Queued s e { id := 0, kind := .ldacc, acc := acc, da := da } (withBit m.valid acc true) (withBit m.kind acc (NFmt.of x.fmt).isInt)) ∧
      (∀ int, AccOk m acc true → m.kind.getLsbD acc = int → SlotOk x false → SlotOk y false → TdLegal x da 16 → TdLegal y db 16 →
        MmaPair x y bt int → tdInC da = false → tdInC db = false → tdRows da ≤ 128 → (if bt then tdRows db else tdCols db) ≤ 128 →
        tdCols da = (if bt then tdCols db else tdRows db) → s.rangeTrap s.gang (readRanges x da ++ readRanges y db) = none →
        ∃ e, exec (.mxmma f) s = .next (s.done e) ∧ Queued s e { id := 0, kind := .mma bt, acc := acc, da := da, db := db } m.valid m.kind) ∧
      (∀ i k, ((i = .mxscaleRow f ∧ k = .scaleRow) ∨ (i = .mxscaleCol f ∧ k = .scaleCol)) → AccOk m acc true → SlotOk x false →
        TdLegal x da 16 → tdRows da = 1 → tdCols da = 128 → x.isZb = false → x.fmt = (if m.kind.getLsbD acc then 7 else 0) →
        tdInC da = false → s.rangeTrap s.gang (readRanges x da) = none →
        ∃ e, exec i s = .next (s.done e) ∧ Queued s e { id := 0, kind := k, acc := acc, da := da } m.valid m.kind) ∧
      (∀ i k, ((i = .mxzero f ∧ k = 3 ∧ m.red = true ∧ 4 ≤ acc) ∨
          (i = .mxscaleRow f ∧ k = 1 ∧ AccOk m acc false ∧ m.valid.getLsbD acc = false ∧ SlotOk x false ∧ TdLegal x da 16 ∧
            tdRows da = 1 ∧ tdCols da = 128 ∧ x.isZb = false ∧ x.fmt = (if m.kind.getLsbD acc then 7 else 0) ∧ tdInC da = false ∧
            s.rangeTrap s.gang (readRanges x da) = none)) →
        exec i s = .next (s.trap 23 (BitVec.ofNat 64 (acc + 256 * k))))) ∧
    (mxReady s f.h [f.a.toNat] → AccOk m acc true → ∃ e, exec (.mxscale f) s = .next (s.done e) ∧
      Queued s e { id := 0, kind := .scale (low (s.gang.gAt f.a.toNat)), acc := acc } m.valid m.kind) ∧
    (mxReady s f.h [] → AccOk m acc true → SlotOk x true → TdLegal x da (if tdInC da then 16 else 32) →
      f.bits 7 0 + tdRows da ≤ 128 → f.bits 7 8 + tdCols da ≤ 128 → s.drainApart x da = none →
      s.rangeTrap s.gang (drainRanges x da ++ barRange (s.gang.barOf f)) = none → (m.red = true → s.gang.hold = .compared) →
      (∀ a t off, s.gang.barOf f = some a → s.barAt s.gk a = some (t, off) → (s.teamAt t).status ≠ .saved) →
      ∃ e s1 draws, exec (.mxdrain f) s = .next (s.done e) ∧
        Queued s1 e { id := 0, kind := .drain (f.bits 7 0) (f.bits 7 8) (s.gang.barOf f), acc := acc, da := da, draws := draws } m.valid m.kind ∧
        s1 = { s with gangs := s1.gangs, teams := s1.teams } ∧ s1.gang = { s.gang with hold := .no, r := { s.gang.r with srstate := s1.gang.r.srstate } } ∧
        (s.gang.barOf f = none → s1.teams = s.teams) ∧
        (∀ a t off, s.gang.barOf f = some a → s.barAt s.gk a = some (t, off) →
          s1.bcb t off = { s.bcb t off with pend := (s.bcb t off).pend + BitVec.ofNat 32 (drainBytes x da) }) ∧
        (x.rnd ≠ 4 → draws = [] ∧ s1.gang.r.srstate = s.gang.r.srstate) ∧
        (x.rnd = 4 → draws.length = tdRows da * tdCols da ∧ draws[0]? = some (xorShift (s.gang.srstateAt 0)) ∧
          (∀ n a b, draws[n]? = some a → draws[n + 1]? = some b → b = xorShift a) ∧ some (s1.gang.srstateAt 0) = draws.getLast?)) ∧
    -- in redundant mode the word first waits for its comparison (R197)
    (mxReady s f.h [] → AccOk m acc true → SlotOk x true → TdLegal x da (if tdInC da then 16 else 32) →
      f.bits 7 0 + tdRows da ≤ 128 → f.bits 7 8 + tdCols da ≤ 128 → s.drainApart x da = none →
      s.rangeTrap s.gang (drainRanges x da ++ barRange (s.gang.barOf f)) = none → m.red = true → s.gang.hold ≠ .compared →
      exec (.mxdrain f) s = .next ((s.setGang { s.gang with hold := .compare }).owe [.mxdrainCompareDone (s.clusterOfGang s.gk)]))

/-- R64, R65, R187, R191 to R194: an operation whose turn it is on its accumulator completes: its region takes the new elements, in both
halves in redundant mode, every other element stays, its flags join the program's MSTAT, and it leaves the queue. A drain
changes no accumulator, writes the converted elements and settles its barrier. -/
def Obligations.MatrixOperationsComplete : Prop :=
  ∀ (s s' : State) (cluster id k : Nat) (op : MxOp) (l : List (Nat × List Byte)),
    let m := s.mxAt cluster
    let g := s.gangAt k
    let fs := fun (d : TileDesc) => fslot ((s.launchOf g.team).fs.getD (tdSlot d).toNat 0#32)
    m.prog = some k → m.ops.find? (·.id == id) = some op → (∀ o, m.ops.find? (·.acc == op.acc) = some o → o.id = id) →
    g.hold ≠ .exiting →
    (match mxReads fs op with
      | none => s' = s
      | some (sp, rs) => s.gather k sp id (.mxOpComplete cluster id) rs = .ok l s') →
    s'.gangAt k = g →
    (∀ rows cols f, mxResult fs op l = some (rows, cols, f) → rows ≤ 128 → cols ≤ 128 →
      ∃ t m', exec (.mxOpComplete cluster id) s = .next t ∧ t = { s' with mx := t.mx, gangs := t.gangs } ∧
        t.mxAt cluster = m' ∧ m' = { m with h0 := m'.h0, h1 := m'.h1, ops := m.ops.filter (·.id ≠ id) } ∧
        HalfIs m.h0 m'.h0 op.acc rows cols (fun i j old => (f i j old).1) ∧
        (m.red = true → HalfIs m.h1 m'.h1 op.acc rows cols (fun i j old => (f i j old).1)) ∧ (m.red = false → m'.h1 = m.h1) ∧
        ∃ fl, t.gangAt k = g.orMstat fl ∧
          ∀ b, fl.getLsbD b = true ↔ (FlagsOf m.h0 op.acc rows cols f b ∨ (m.red = true ∧ FlagsOf m.h1 op.acc rows cols f b))) ∧
    (∀ row0 col0 bar s1 s2 w, op.kind = .drain row0 col0 bar → drainAll (fs op.da) m op row0 col0 l = w →
      let sp := if tdInC op.da then 2 else 0
      s'.engineWriteAll k sp (w.1 ++ if (fs op.da).sch = 1 then w.2.1 else []) = .ok s1 →
      (if (fs op.da).sch = 1 then s2 = s1 else s1.engineWriteAll k sp w.2.1 = .ok s2) →
      (s2.barArrive k bar (drainBytes (fs op.da) op.da)).gangAt k = g →
      ∃ t, exec (.mxOpComplete cluster id) s = .next t ∧
        t = { s2.barArrive k bar (drainBytes (fs op.da) op.da) with mx := t.mx, gangs := t.gangs } ∧
        t.mxAt cluster = { m with ops := m.ops.filter (·.id ≠ id) } ∧ t.gangAt k = g.orMstat w.2.2)

/-- R195 to R197: MXWAIT waits for the whole queue or for one accumulator's operations, and traps with cause 23, reason 3, where RED = 1
and it names acc4 to acc7; MXMODE waits for the queue and clears VALID where it
changes the mode; a redundant comparison without a mismatch lets the MXDRAIN issue again. -/
def Sys2Proof.Claims.MatrixWaitsAndModes : Prop :=
  (∀ (s : State) (f : ClassB), s.groupGate f.h [] false false = none →
    let n := f.aux12.toNat % 8
    (s.engine.ops = [] → exec (.mxwait f) s = .next (s.done s)) ∧ (s.engine.ops ≠ [] → exec (.mxwait f) s = .next s) ∧
    (s.engine.red = true → 4 ≤ n → exec (.mxwaitAcc f) s = .next (s.trap 23 (BitVec.ofNat 64 (n + 768)))) ∧
    (¬(s.engine.red = true ∧ 4 ≤ n) → (∀ o ∈ s.engine.ops, o.acc ≠ n) → exec (.mxwaitAcc f) s = .next (s.done s)) ∧
    (¬(s.engine.red = true ∧ 4 ≤ n) → (∃ o ∈ s.engine.ops, o.acc = n) → exec (.mxwaitAcc f) s = .next s)) ∧
  (∀ (s : State) (f : ClassE) (i : Instr) (red : Bool), ((i = .mxmodeNorm f ∧ red = false) ∨ (i = .mxmodeRed f ∧ red = true)) →
    s.groupGate f.h [] false false = none →
    (s.engine.ops ≠ [] → exec i s = .next s) ∧
    (s.engine.ops = [] → s.engine.red = red → exec i s = .next (s.done s)) ∧
    (s.engine.ops = [] → s.engine.red ≠ red → ∃ e, exec i s = .next (s.done e) ∧ e = { s with mx := e.mx } ∧
      e.mxAt (s.clusterOfGang s.gk) = { s.engine with red := red, valid := 0#8 } ∧
      ∀ c, c ≠ s.clusterOfGang s.gk → e.mxAt c = s.mxAt c)) ∧
  (∀ (s : State) (cluster k : Nat) (f : ClassE),
    let m := s.mxAt cluster
    let g := s.gangAt k
    let d := g.tdAt f.ta.toNat
    m.prog = some k → g.hold = .compare → decode .lintel (m.im.word (g.pcOf 0)) = .ok (.mxdrain f) →
    ((∃ o ∈ m.ops, o.acc = f.d.toNat) → exec (.mxdrainCompareDone cluster) s = .next (s.owe [.mxdrainCompareDone cluster])) ∧
    ((∀ o ∈ m.ops, o.acc ≠ f.d.toNat) →
      let mism := Mismatch m f.d.toNat (f.bits 7 0) (f.bits 7 8)
      ((∀ i j, i < tdRows d → j < tdCols d → ¬ mism i j) →
        ∃ t, exec (.mxdrainCompareDone cluster) s = .next t ∧ t = { s with gangs := t.gangs } ∧
          t.gangAt k = { g with hold := .compared } ∧ ∀ q, q ≠ k → t.gangAt q = s.gangAt q) ∧
      (∀ i j, i < tdRows d → j < tdCols d → mism i j →
        (∀ i' j', i' < tdRows d → j' < tdCols d → (i' < i ∨ (i' = i ∧ j' < j)) → ¬ mism i' j') →
        ∃ (u : State) (n : Nat), exec (.mxdrainCompareDone cluster) s =
            .next (u.asPart k 0 fun s => s.trap 19 (BitVec.ofNat 64 (f.d.toNat + 2 ^ 8 * i + 2 ^ 16 * j + 2 ^ 32 * n))) ∧
          0 < n ∧ u.mx = s.mx ∧ u.teams = s.teams ∧ u.gangAt k = { g with hold := .no })))

end
namespace Sys2Proof.Claims

open Sys2Proof.Machine

/-! ## Special registers, system calls, returns, queue commands (R85, R216 to R220) -/

/-- `t` is `s` with gang `g` at `k`, and nothing else changed. -/
def OnlyGangAt (s t : State) (k : Nat) (g : Gang) : Prop :=
  t = { s with gangs := t.gangs } ∧ t.gangAt k = g ∧ ∀ j, j ≠ k → t.gangAt j = s.gangAt j

/-- Nothing holds an SWR back; `narrow`: the register has 32 bits; `free`: R106 and R110 admit the write everywhere. -/
def swrReady (s : State) (f : ClassS) (narrow free : Bool) : Prop :=
  (if f.h.g then s.groupGate f.h [f.a.toNat] false (s.srPriv f) = none
    else s.laneGate f.h [Use.of f.a (!narrow)] [] false (s.srPriv f) = none) ∧ (free = true ∨ s.engineGate = none)

/-- The state in which an SWR writes: its source queue is popped. -/
def swrFrom (s : State) (f : ClassS) (narrow : Bool) : State :=
  if f.h.g then s.setGang (s.gang.pop [] [])
  else s.setGang (s.gang.pop (popped [Use.of f.a (!narrow)]) (s.gang.effLanes s.pt f.h))

/-- The value written to a register of one value: g[A], or A of the lowest active lane (R26, R216; log entry 105, DEDUCED). -/
def swrVal (s : State) (f : ClassS) (narrow : Bool) : DWord :=
  if f.h.g then s.gang.gAt f.a.toNat else s.gang.src f.a (!narrow) ((lowest (s.gang.active s.pt)).getD 0)

/-- A value in a register's stated range, or a free one outside it (log entry 32, DESIGN CHOICE): the state it is written in, and the value. -/
def InRange (b : State) (lo hi v : Nat) (b' : State) (x : Nat) : Prop :=
  (lo ≤ v ∧ v ≤ hi → b' = b ∧ x = v) ∧
  (v < lo ∨ hi < v → b' = { b with fresh := b.fresh + 1 } ∧ x = (Config.freeValue b.fresh).toNat)

/-- A queue command issues on a firmware core. -/
def cmdReady (s : State) (f : ClassS) (gs : List Nat) : Prop :=
  s.gang.kind = .firmware ∧ s.groupGate f.h gs false false = none

end Sys2Proof.Claims

section

open Sys2Proof Sys2Proof.Machine Sys2Proof.Claims

/-- R21, R216: SRD reads a special register, per lane or for the group, and TIME the two counters; nothing else changes. -/
def Sys2Proof.Claims.SpecialRegisterReads : Prop :=
  (∀ (s : State) (f : ClassS), f.h.g = false →
    let wide := !sregNarrow f.sreg.toNat
    s.laneGate f.h [] [Use.of f.a wide] false (s.srPriv f) = none →
    ∃ g', exec (.srd f) s = .next (s.done (s.setGang g')) ∧
      g' = { s.gang with r := { s.gang.r with v := g'.r.v, undo := g'.r.undo }, queues := g'.queues } ∧
      (s.gang.r.undo = none → g'.r.undo = none) ∧
      (∀ n l, n < 48 → l < 32 → g'.vAt n l =
        if eff s f.h l ∧ n = f.a.toNat then low (s.sregVal f.sreg.toNat l)
        else if eff s f.h l ∧ wide = true ∧ f.a.toNat < 48 ∧ n = f.a.toNat + 1 then high (s.sregVal f.sreg.toNat l) else s.gang.vAt n l) ∧
      (∀ q l, q < 8 → l < 32 → g'.queueAt q l =
        s.gang.queueAt q l ++ if eff s f.h l ∧ f.a.toNat = 48 + q then [low (s.sregVal f.sreg.toNat l)] else [])) ∧
  (∀ (s : State) (i : Instr) (f : ClassS) (v : DWord),
    (match i with
      | .srd f => if f.h.g then some (f, s.sregVal f.sreg.toNat ((lowest (s.gang.active s.pt)).getD 0)) else none
      | .time f => some (f, BitVec.ofNat 64 (if f.sreg = 0#16 then s.time else s.clock))
      | _ => none) = some (f, v) →
    s.groupGate f.h [f.a.toNat] false false = none → s.srPriv f = false ∨ i = .time f →
    ∃ g', exec i s = .next (s.done (s.setGang g')) ∧ g' = { s.gang with r := { s.gang.r with g := g'.r.g, undo := g'.r.undo } } ∧
      (s.gang.r.undo = none → g'.r.undo = none) ∧
      ∀ n, n < 32 → g'.gAt n = if n = f.a.toNat then v else s.gang.gAt n) ∧
  -- the registers of R21 and R115
  (∀ (s : State) (l : Nat), s.gang.kind ≠ .lintel →
    s.sregVal 0x00 l = BitVec.ofNat 64 l ∧ s.sregVal 0x01 l = BitVec.ofNat 64 (l / 4) ∧ s.sregVal 0x02 l = BitVec.ofNat 64 s.gang.gid ∧
    s.sregVal 0x03 l = BitVec.ofNat 64 s.team.teamid ∧ s.sregVal 0x04 l = s.cohort.cohid ∧ s.sregVal 0x20 l = s.gang.r.mstat ∧
    s.sregVal 0x21 l = (s.gang.srstateAt l).setWidth 64 ∧ s.sregVal 0x30 l = s.gang.tcause ∧ s.sregVal 0x31 l = s.gang.tpc ∧
    s.sregVal 0x32 l = s.gang.tinfo ∧ s.sregVal 0x33 l = s.gang.tlanes ∧
    ∀ k, k < 8 → s.sregVal (0x28 + k) l = (s.launch.fs.getD k 0#32).setWidth 64)

/-- R29, R50, R57, R211, R216, R243, R289, R330, R333, R404: what SWR writes. Each write goes on, but for a QCFG value outside its limits
(illegal, code 7) and a GRST of a group that members still hold (memory-access trap). -/
def Sys2Proof.Claims.SpecialRegisterWrites : Prop :=
  ∀ (s : State) (f : ClassS),
    let v := swrVal s f false
    let b := swrFrom s f false
    let goes := fun (i : Instr) (e : State) => exec i s = .next (b.done e)
    (swrReady s f false true →
      goes (.mstatClear f) (b.setGang { b.gang with r := { b.gang.r with mstat := b.gang.r.mstat &&& ~~~(v &&& 0x17F#64) } })) ∧
    (swrReady s f true true → ∃ g', exec (.srstateWrite f) s = .next ((swrFrom s f true).done ((swrFrom s f true).setGang g')) ∧
      g' = { (swrFrom s f true).gang with r := { (swrFrom s f true).gang.r with srstate := g'.r.srstate } } ∧
      ∀ l, l < 32 → g'.srstateAt l =
        let x := if f.h.g then low (s.gang.gAt f.a.toNat) else low (s.gang.src f.a false l)
        if (if f.h.g then l = (if s.gang.kind = .lintel then 0 else (lowest (s.gang.active s.pt)).getD 0) else eff s f.h l) then
          (if x = 0#32 then 0x6D2B79F5#32 else x)
        else s.gang.srstateAt l) ∧
    (swrReady s f false false →
      goes (.stklimWrite f) (b.setGang { b.gang with stklim := BitVec.ofNat 32 (min (v.toNat % 2 ^ 32) b.gang.ssize / 16 * 16) }) ∧
      (let w := v &&& ~~~0x1FFFF#64
       goes (.heapRegWrite f) (b.setTeam (if f.sreg = 0x80#16 then { b.team with hbase := w }
         else if f.sreg = 0x81#16 then { b.team with hlimit := w } else { b.team with hoffs := w }))) ∧
      goes (.windowWrite f) (b.setTeam { b.team with
        wmax := BitVec.ofNat 64 (min (v.toNat % 2 ^ 8) (if b.queue.bound then b.queue.ctx.wmax else 255)) }) ∧
      goes (.cceshareWrite f) (b.setDieAt b.die { b.dieAt b.die with
        cceshare := BitVec.ofNat 64 (v.toNat % 2 ^ 32 + min (v.toNat / 2 ^ 32 % 2 ^ 7) 100 * 2 ^ 32) }) ∧
      goes (.plimWrite f) { b with plim := max 1500 (min (v.toNat % 2 ^ 16) 4000) } ∧
      ((∃ k ∈ b.dieGroups b.die (v.toNat % 256), b.groupHeld k = true) →
        exec (.grstWrite f) s = .next (b.trap 20 0#64)) ∧
      ((∀ k ∈ b.dieGroups b.die (v.toNat % 256), b.groupHeld k = false) →
        ∃ e, goes (.grstWrite f) e ∧ e = { b with groups := e.groups, gangs := e.gangs } ∧
          ∀ k ∈ b.dieGroups b.die (v.toNat % 256), (e.groupAt k).broken = false ∧ (e.groupAt k).results = [] ∧
            (e.groupAt k).members = (b.groupAt k).members) ∧
      (∀ k, f.sreg.toNat = 0x8000 + k → k < 8 →
        goes (.swr f) (b.setDieAt b.die { b.dieAt b.die with l2pm := setNth (b.dieAt b.die).l2pm k (BitVec.ofNat 16 v.toNat) })) ∧
      (f.sreg = 0x8014#16 → goes (.swr f) (b.setDieAt b.die { b.dieAt b.die with elog := v.toNat })) ∧
      (f.sreg = 0x8012#16 → ∃ b' x, InRange b 1 1000 v.toNat b' x ∧
        goes (.swr f) (b'.setDieAt b.die { b.dieAt b.die with migt := x })) ∧
      (f.sreg = 0x8015#16 → ∃ b' x, InRange b 10 10000 v.toNat b' x ∧
        goes (.swr f) (b'.setDieAt b.die { b.dieAt b.die with kilniv := x })) ∧
      (f.sreg = 0x8016#16 → ∃ b' x, InRange b 100 60000 v.toNat b' x ∧
        goes (.swr f) (b'.setDieAt b.die { b.dieAt b.die with ckilniv := x })) ∧
      (f.sreg = 0x8017#16 → ∃ b' x, InRange b 1 15 v.toNat b' x ∧
        goes (.swr f) (b'.setDieAt b.die { b.dieAt b.die with kretry := x }))) ∧
    -- QCFG: its value is checked first, whatever the predicate (R90)
    (let depths := (List.range 8).map fun q => v.toNat / 2 ^ (5 * q) % 32
     let legal := v.toNat < 2 ^ 40 ∧ (∀ d ∈ depths, d ≤ 16) ∧ depths.sum ≤ 64 ∧ depths.sum ≤ s.gang.qent
     let live := if f.h.g then s.gang.busyG f.a.toNat = false else s.laneGate f.h [Use.of f.a true] [] false false = none
     let asked := if f.h.g then s.gang.busyG f.a.toNat = false else s.gang.busyV (Use.of f.a true) = false ∧ s.gang.anyActive s.pt = true
     (asked → ¬ legal → exec (.qcfgWrite f) s = .next (s.illegal 7)) ∧
     (live →
       (legal → (f.h.g = true → s.gang.geff s.pt f.h = true) → (∀ p ∈ s.gang.loads, ∀ r ∈ p.vregs, r < 48) → s.engineGate = none →
         exec (.qcfgWrite f) s = .next (s.done (s.setGang { s.gang with qcfg := v, queues := [] }))) ∧
       (legal → f.h.g = true → s.gang.geff s.pt f.h = false → exec (.qcfgWrite f) s = .next (s.done s))))

/-- R85, R87: queue commands, and SRD and SWR of a firmware register, are the privileged-instruction trap off the firmware core, whatever
the predicate; the state is otherwise the trap's. -/
def Sys2Proof.Claims.PrivilegedWordsTrap : Prop :=
  ∀ (s : State) (f : ClassS), s.gang.kind ≠ .firmware → s.gang.busyG f.a.toNat = false →
    (∀ i ∈ [Instr.qmap f, .qunmap f, .qswSuspend f, .qswResume f, .qswPreempt f, .qswKill f, .qswPrio f],
      exec i s = .next (s.trap 2 0#64)) ∧
    (0x8000 ≤ f.sreg.toNat → f.h.g = true → ∀ i ∈ [Instr.srd f, .swr f, .plimWrite f], exec i s = .next (s.trap 2 0#64)) ∧
    (0x8000 ≤ f.sreg.toNat → f.h.g = false → s.gang.busyV (Use.of f.a true) = false → s.gang.badUse (Use.of f.a true) = false →
      ∀ i ∈ [Instr.srd f, .swr f, .plimWrite f], exec i s = .next (s.trap 2 0#64))

/-- R217, R326: SYSC posts an entry with its service number and g0 to g3, after its release at SYS, and waits; a gang whose entry has its
answer bit set takes the entry's four values into g0 to g3 with an acquire at SYS and goes on. -/
def Sys2Proof.Claims.SystemCalls : Prop :=
  (∀ (s : State) (f : ClassB), s.groupGate f.h [0, 1, 2, 3] false false = none → s.engineGate = none →
    let g := s.gang
    let e := svcEntry f.aux12.toNat 0 s.team.crec.toNat (g.gAt 0).toNat (g.gAt 1).toNat (g.gAt 2).toNat (g.gAt 3).toNat 0
    (g.sysn = 0 → g.fenceWaits 5 2 = true → exec (.sysc f) s = .next s) ∧
    (g.sysn = 0 → g.fenceWaits 5 2 = false → exec (.sysc f) s = .next
      (({ s with nextId := s.nextId + 1 }.setGang { g with hold := .sysc, sysn := s.nextId, svent := 0#64 }).post
        { fault := false, queue := s.cohort.queue, entry := e, gang := some s.gk, sysc := s.nextId })) ∧
    (g.sysn ≠ 0 → exec (.sysc f) s = .next ((s.setGang { g with hold := .sysc }).owe [.syscAnswer s.gk]))) ∧
  (∀ (s : State) (k : Nat),
    let g := s.gangAt k
    let c := (s.teamAt g.team).cohort
    let qk := (s.cohortAt c).queue
    let a := g.svent.toNat
    let pas := (List.range 64).filterMap fun i => match (s.lookup (s.xlQueue qk) (a + i)).1 with
      | .page pa _ => some pa
      | _ => none
    g.ended = false → g.svent ≠ 0#64 → g.hold = .sysc → (s.teamAt g.team).status = .running → (s.cohortAt c).status = .running →
    (s.qNat qk (a + 56) 1 % 2 = 0 → exec (.syscAnswer k) s = .next s) ∧
    (s.qNat qk (a + 56) 1 % 2 = 1 → ∃ g', exec (.syscAnswer k) s =
        .next ((((s.homeRead (s.dieOfGang k) pas).setGangAt k g').acquire k 6 (s.tagsHome pas)).asPart k g.last fun s => s.advance) ∧
      g' = { g with svent := 0#64, sysn := 0, hold := .no, r := { g.r with g := g'.r.g, undo := g'.r.undo } } ∧
      ∀ n, n < 32 → g'.gAt n = if n < 4 then BitVec.ofNat 64 (s.qNat qk (a + 16 + 8 * n) 8) else g.gAt n))

/-- R218: TRET in a handler brings back the slices and counters that the trap saved, clears H, leaves the bypass empty, and resumes the part
that holds TPC's slice at TPC, TRET.SKIP one word on; a SYSC that the trap interrupted is out again,
unless it is skipped (log entry 104, DEDUCED); outside a handler both only go on. -/
def Sys2Proof.Claims.ReturnsFromTraps : Prop :=
  ∀ (s : State) (f : ClassB) (i : Instr) (skip : Bool), ((i = .tret f ∧ skip = false) ∨ (i = .tretSkip f ∧ skip = true)) →
    s.groupGate f.h [] false false = none → s.gang.ahead = none →
    (s.gang.hstate = false → exec i s = .next (s.done s)) ∧
    (∀ sh, s.gang.hstate = true → s.gang.shadow = some sh →
      let back := { s.gang with slices := sh.slices }
      let p := (back.sliceAt s.gang.tslice).part
      ∃ g', exec i s = .next (s.setGang g') ∧
        g' = { s.gang with
          slices := g'.slices, cnt := sh.cnt, hstate := false, shadow := none, bypFull := 0#24, sysOld := none
          sysn := g'.sysn, svent := g'.svent } ∧
        (g'.sysn, g'.svent) = (if skip then (0, 0#64) else s.gang.sysOld.getD (0, 0#64)) ∧
        ∀ n, n < 8 → g'.sliceAt n = { back.sliceAt n with
          atRegang := false, atBar := false
          pc := if n ∈ back.partSlices p then s.gang.tpc.setWidth 18 + (if skip then 8#18 else 0#18) else (back.sliceAt n).pc })

/-- R219, R237: an asynchronous trap of a gang on its core ends what it waits for and is taken between two words, with TLANES 0 and TPC at
the word of the wait it ends, else at the next word of its lowest slice; a saved gang takes it once it is back; an ended one never does. -/
def Sys2Proof.Claims.AsynchronousTraps : Prop :=
  ∀ (s : State) (k cause : Nat) (info : DWord),
    let g := s.gangAt k
    let st := (s.teamAt g.team).status
    ((g.ended = true ∨ st = .ended ∨ st = .stopped) → exec (.asyncTrap k cause info) s = .next s) ∧
    (g.ended = false → st = .saved → exec (.asyncTrap k cause info) s = .next (s.owe [.asyncTrap k cause info])) ∧
    (g.ended = false → st = .running → (s.cohortAt (s.teamAt g.team).cohort).status ≠ .saving → g.kind = .vector → g.hstate = false →
      g.rel = none → g.ahead = none → (s.launchOf g.team).hent ≠ 0#64 → cause ≠ 16 →
      (cause = 20 → g.commits = []) → g.liveSlices ≠ [] →
      let n := ((if g.hold = Hold.no then [] else g.partSlices g.last) ++ g.liveSlices).headD 0
      ∃ t, exec (.asyncTrap k cause info) s = .next t ∧ OnlyGangAt s t k
        ((({ g with hold := if g.hold = Hold.exiting then Hold.exiting else Hold.no, starved := false, qans := none }.record
          { cause := cause, lanes := 0#32, info := info, pc := (g.sliceAt n).pc, slice := some n }).enterHandler
            ((s.launchOf g.team).hent.setWidth 18))))

/-- R220, R313, R318, R320: the queue commands of the firmware core. -/
def Sys2Proof.Claims.QueueCommands : Prop :=
  ∀ (s : State) (f : ClassS),
    let qk := 64 * s.die + f.sreg.toNat % 64
    let a := s.gang.gAt f.a.toNat
    let q := s.queueAt qk
    (cmdReady s f [f.a.toNat] →
      (s.descOk s.die a.toNat = false → exec (.qmap f) s = .next (s.trap 20 a)) ∧
      (s.descOk s.die a.toNat = true → q.bound = false → ∃ e, exec (.qmap f) s = .next (s.done e) ∧ e = s.bindQueue qk a.toNat ∧
        -- the module's first queue, with a launch that passes its checks
        (∀ q1, q1 = s.readQueue (qk / 64) a.toNat → (∀ p ∈ s.queues, p.2.bound = false ∧ p.2.parked = false) →
          let s1 := s.setQueueAt qk q1
          let l := s1.readLaunch qk q1.lrec
          let s2 := s1.setQueueAt qk { q1 with launch := l }
          s2.launchWhy qk l = none → s2.placeUnsure qk l = false →
            (e.queueAt qk).bound = true ∧ (e.queueAt qk).desc = a.toNat ∧ (e.queueAt qk).launch = l ∧ e.mem = s.mem ∧
            e.due = s.due ++ [.rootRecordMake (qk / 64) (qk % 64), .placementDecision (qk / 64)])) ∧
      (s.descOk s.die a.toNat = true → q.bound = true → (s.stopQueue qk).onCores qk ≠ [] →
        exec (.qmap f) s = .next (s.stopQueue qk)) ∧
      (∀ i b, ((i = .qswSuspend f ∧ b = true) ∨ (i = .qswResume f ∧ b = false)) → ∃ e, exec i s = .next (s.done e) ∧
        e = { s with queues := e.queues, due := e.due } ∧ e.due = s.due ++ (if b then [] else [.placementDecision (qk / 64)]) ∧
        (e.queueAt qk = if q.bound then { q with suspended := b } else q) ∧ ∀ k, k ≠ qk → e.queueAt k = s.queueAt k) ∧
      (∃ e, exec (.qswPrio f) s = .next (s.done e) ∧ e = { s with queues := e.queues } ∧
        (e.queueAt qk = if q.bound then { q with qpri := a.toNat % 4 } else q) ∧ ∀ k, k ≠ qk → e.queueAt k = s.queueAt k) ∧
      -- PREEMPT waits until the cohorts that ran are saved
      (let w := if s.gang.hold = .command then s else (s.preempt qk).setGang { (s.preempt qk).gang with hold := .command }
       ((∃ c ∈ w.onCores qk, (w.cohortAt c).preempt = true) → exec (.qswPreempt f) s = .next w) ∧
       ((∀ c ∈ w.onCores qk, (w.cohortAt c).preempt = false) →
         exec (.qswPreempt f) s = .next (w.done (w.setGang { w.gang with hold := .no })))) ∧
      (s.onCores qk = [] → s.preempt qk = s.owe [.placementDecision (qk / 64)]) ∧
      (s.cohortsNamed qk a = [] → (∀ p ∈ q.cohids, p.2 ≠ a) → exec (.qswKill f) s = .next (s.trap 20 0#64)) ∧
      (s.cohortsNamed qk a = [] → (∃ p ∈ q.cohids, p.2 = a) →
        exec (.qswKill f) s = .next (s.done (s.owe [.placementDecision (qk / 64)]))) ∧
      (∀ c, s.cohortsNamed qk a = [c] → exec (.qswKill f) s =
        .next (s.done ((s.kill c true none []).owe [.placementDecision (qk / 64)])))) ∧
    (cmdReady s f [] →
      (q.bound = false → exec (.qunmap f) s = .next (s.done s)) ∧
      (q.bound = true → (s.stopQueue qk).onCores qk ≠ [] → exec (.qunmap f) s = .next (s.stopQueue qk)) ∧
      (q.bound = true → (s.stopQueue qk).onCores qk = [] → ∃ e, exec (.qunmap f) s = .next (e.done e) ∧
        e = (s.stopQueue qk).unbindQueue qk ∧ e.queueAt qk = {} ∧
        -- what the dispatcher holds of it on chip is parked, with the entries that wait for its rings (R317, R326)
        (1 < e.nextId → (∀ p ∈ e.posts, p.queue ≠ qk) ∧ let p := e.queueAt (64 * (4 * (e.nextId - 1) + qk / 64))
          p.parked = true ∧ p.bound = false)))

end
namespace Sys2Proof.Claims

open Sys2Proof.Machine

/-! ## Engines (R201 to R212) and collectives (R209 to R211, R278 to R288) -/

/-- The lintel program that FORK starts for gang `k` at `t` (R202): a new gang, partner of `k`, at lane 0's seed of SRSTATE. -/
def lintelOf (s : State) (k : Nat) (t : IAddr) : Gang :=
  let g := s.gangAt k
  let tm := s.teamAt g.team
  { kind := .lintel, team := g.team, partner := some k
    r := { srstate := KMap.set 0#32 [] 0 (seedWord (s.launchOf g.team).lseed (s.cohortAt tm.cohort).cohid tm.teamid 0 0) }
    slices := [(0, { present := true, pc := BitVec.ofNat 18 (t.toNat % 65536) })] }

/-- Gang `k` has taken the lintel core of its cluster for a program at `t`; `word` is its FORK word. -/
def ForkTaken (s e : State) (k : Nat) (t word : IAddr) : Prop :=
  let c := s.clusterOfGang k
  let m := e.mxAt c
  m.prog = some s.nextId ∧ m.landing = some (k, word) ∧ m.valid = 0#8 ∧ m.red = false ∧ m.ops = [] ∧ m.h0 = [] ∧ m.h1 = [] ∧
  m.forks = (s.mxAt c).forks ∧ (m.im.slotAt (slotOf t % 16)).st = .fetching ∧
  (m.im.slotAt (slotOf t % 16)).src = ((s.imemOf k).slotAt (slotOf t)).src ∧
  e.gangAt s.nextId = lintelOf s k t ∧ e.gangAt k = { s.gangAt k with partner := some s.nextId } ∧
  (∀ j, j ≠ k → j ≠ s.nextId → e.gangAt j = s.gangAt j) ∧ e.due = s.due ++ [.lintelStart c] ∧
  e = { s with nextId := s.nextId + 1, gangs := e.gangs, cohorts := e.cohorts, mx := e.mx, due := e.due }

/-- The state of a WLPUT's or RBIN's structures allows it. -/
def listReady (s : State) (f : ClassE) (n : Nat) : Prop :=
  s.laneGate f.h [{ f := f.d }, { f := f.a, n := n, a := n }] [{ f := f.d }] false false = none ∧ s.engineGate = none ∧
  s.structGate (s.gang.adAt f.ta.toNat) 64 { r := true } = none ∧ s.handsOff = false

/-- The item of a lane, its first word lowest (R207). -/
def itemOf (g : Gang) (f : ClassE) (n l : Nat) : Nat := ((List.range n).map fun w => g.itemWord f.a n w l * 2 ^ (32 * w)).sum

/-- The items that WLGET hands out: those of `l` lanes from `first` on that the batch of `count` items has, 4 × n bytes each from `a` on. -/
def wlItems (a count first n l : Nat) : List (Nat × Nat × Need) :=
  (List.range l).filterMap fun p => if (first + p) % 2 ^ 32 < count then some (a + 4 * n * ((first + p) % 2 ^ 32), 4 * n, { r := true }) else none

/-- A packet that has not come before, or a frame of this module itself (R271). -/
def FreshPacket (s : State) (f : Frame) : Prop := f.psn = 0 ∨ (KMap.get [] s.pseen f.srcm).contains f.psn = false

/-- The state in which a frame acts: a packet of another module has been acknowledged, and its number is known (R271). -/
def tookPacket (s : State) (f : Frame) : State :=
  if f.psn = 0 then s
  else { s with
    away := s.away ++ [.ack f.srcm f.psn], pseen := KMap.set [] s.pseen f.srcm (f.psn :: KMap.get [] s.pseen f.srcm) }

/-- Everything of a COLL or COMP before it is issued (R209): slots, descriptors, ranges, group and schedule pass. -/
def collReadyNow (s : State) (f : ClassE) (comp : Bool) (slot : Nat) : Prop :=
  let g := s.gang
  let a := g.tdAt f.ta.toNat
  let b := g.tdAt f.tb.toNat
  let x := s.fs (tdSlot a)
  let y := s.fs (tdSlot b)
  let m := CompMode.of (f.bits 2 8)
  let gk := s.groupKey g.team (f.bits 8 0)
  let n := (s.groupAt gk).members.length
  engineReady s f.h [] ∧ SlotOk x false ∧ SlotOk y false ∧ s.team.grpSlot (f.bits 8 0) = some slot ∧ (s.groupAt gk).broken = false ∧
  (if comp then s.compReason f m a b else s.collReason f a b) = none ∧
  s.rangeTrap g (collRanges comp m x a b (g.barOf f)) = none ∧ s.collApart comp m x b = false ∧
  0 < n ∧ n ≤ 512 ∧ (collRing f comp n (if comp then tdStride b else tdRows a * rowBytes x a) = false → ∃ k, n = 2 ^ k) ∧
  s.accWaits = false ∧ g.loadsOut = false ∧ g.nets.length < 4095

end Sys2Proof.Claims

section

open Sys2Proof Sys2Proof.Machine Sys2Proof.Claims

/-- R202, R203, R419: FORK takes a free lintel core for a program whose entry segment has landed in the gang's own window, and goes on; it waits
where the core is taken, and is the engine trap (22) while the gang's last program runs. LINTEL_START starts the
program once its segment is there, or hands a free core to the oldest FORK. RDV with equal numbers lets both go on after
a FENCE.AR.COHORT each; without a partner it is the engine trap. -/
def Obligations.LintelPrograms : Prop :=
  (∀ (s : State) (f : ClassB), engineReady s f.h [] →
    let t := target s.pc f.disp
    let im := s.imemOf s.gk
    let m := s.mxAt (s.clusterOfGang s.gk)
    slotOf t ≤ 15 → slotOf t < im.nseg →
    ((im.slotAt (slotOf t)).st = .fetching → exec (.fork f) s = .next s) ∧
    ((im.slotAt (slotOf t)).st = .landed →
      (∀ p, s.gang.partner = some p → (s.gangAt p).ended = false → exec (.fork f) s = .next (s.trap 22 0#64)) ∧
      ((∀ p, s.gang.partner = some p → (s.gangAt p).ended = true) →
        (m.prog = none → m.drained = false → m.shut = false → m.forks = [] → s.nextId ≠ s.gk →
          ∃ e, exec (.fork f) s = .next (s.done e) ∧ ForkTaken s e s.gk t s.pc) ∧
        ((m.prog ≠ none ∨ m.drained = true ∨ m.shut = true ∨ m.forks ≠ []) →
          ∃ e, exec (.fork f) s = .next e ∧ e = { s with gangs := e.gangs, mx := e.mx } ∧ e.gang = { s.gang with hold := .fork } ∧
            e.mxAt (s.clusterOfGang s.gk) = { m with forks := m.forks.filter (fun x => x.1 != s.gk) ++ [(s.gk, t)] })))) ∧
  (∀ (s : State) (c : Nat),
    let m := s.mxAt c
    (∀ k word p b, m.landing = some (k, word) → m.prog = some p →
      let slot := slotOf ((s.gangAt p).pcOf 0)
      let src := (m.im.slotAt slot).src
      ∀ pa leaf, s.segment (s.xlOf (s.gangAt p).team) src.toNat = .bytes b pa leaf →
      let w := s.tookSegment k pa leaf
      ∃ t, exec (.lintelStart c) s = .next t ∧ t = { w with mx := t.mx, runq := t.runq } ∧ (t.mxAt c).landing = none ∧
        (t.mxAt c).prog = some p ∧ ((t.mxAt c).im.slotAt slot).st = .landed ∧
        t.runq = w.runq ++ if (w.cohortAt (w.teamAt (s.gangAt p).team).cohort).status = .running then [p] else []) ∧
    (∀ k t r, m.landing = none → m.prog = none → m.drained = false → m.shut = false → m.forks = (k, t) :: r → (s.gangAt k).ended = false →
      (s.gangAt k).hold = .fork →
      exec (.lintelStart c) s = .next (((s.setMxAt c { m with forks := r }).setGangAt k { s.gangAt k with hold := .no }).asPart k (s.gangAt k).last
        fun s => s.done (s.forkTake k t s.pc))) ∧
    (m.landing = none → (m.prog ≠ none ∨ m.forks = []) → exec (.lintelStart c) s = .next s)) ∧
  (∀ (s : State) (f : ClassB), engineReady s f.h [] → (∀ p ∈ s.publs, p.gang ≠ s.gk) → s.gang.loadsOut = false → s.farStores = false →
    let n := f.aux8.toNat
    (s.gang.partner = none → exec (.rdv f) s = .next ((s.setGang { s.gang with hold := .no }).trap 22 (BitVec.ofNat 64 n))) ∧
    (∀ p, s.gang.partner = some p → (s.gangAt p).ended = false →
      ((s.gangAt p).hold = .rdv n → p ≠ s.gk → ∃ u : State, exec (.rdv f) s = .next ((u.asPart p (s.gangAt p).last fun s => s.advance).advance) ∧
        u = { (s.fenceFor s.gk).fenceFor p with gangs := u.gangs } ∧
        (u.gangAt s.gk).hold = .no ∧ (u.gangAt p).hold = .no ∧ (u.gangAt s.gk).slices = s.gang.slices ∧ (u.gangAt p).slices = (s.gangAt p).slices) ∧
      ((∀ j, (s.gangAt p).hold ≠ .rdv j) → exec (.rdv f) s = .next (s.setGang { s.gang with hold := .rdv n }))))

/-- R204 to R206, R208: SPAWN makes and enqueues a record at its priority and sets its predicate, or clears it where the record area is full; an
entry address that is not 8-byte aligned or not in window 0 is the memory-access trap. DONE and DONE.C end every lane
of the gang, DONE.C leaving its continuation with the record. QDONE waits for its answer and writes it. -/
def Obligations.ContinuationsAndQuiescence : Prop :=
  (∀ (s : State) (f : ClassE), engineReady s f.h [] →
    let code := s.gang.adAt f.ta.toNat
    let par := s.gang.adAt f.tc.toNat
    let withParent := f.h.fx.getLsbD 1
    let pri := f.bits 2 0
    let qk := s.cohort.queue
    ((2 ^ 64 ≤ code.toNat ∨ code.toNat % 8 ≠ 0) → exec (.spawn f) s = .next (s.trap 20 (code.setWidth 64))) ∧
    (code.toNat < 2 ^ 64 → code.toNat % 8 = 0 → (withParent = true → par.toNat % 32 = 0) → s.handsOff = false →
      (s.queue.full pri = true → exec (.spawn f) s = .next (s.done (s.setGang (s.gang.setGp (f.d.toNat % 8) false)))) ∧
      (s.queue.full pri = false → ∃ u e, exec (.spawn f) s = .next (s.done e) ∧
        (withParent = false → u = s) ∧
        (withParent = true → let h := s.homeQueue qk (par.toNat % 2 ^ 64)
          u = s.vaWrite (s.xlQueue h) (par.toNat % 2 ^ 64 + 24) 4 (s.qNat h (par.toNat % 2 ^ 64 + 24) 4 + 1)) ∧
        let r := u.makeRecord qk code.toNat (s.gang.adAt f.tb.toNat).toNat (if withParent then par.toNat % 2 ^ 64 else 0)
          (pri + f.bits 4 2 * 4) s.cohort.cohid
        e = (r.setGang (r.gang.setGp (f.d.toNat % 8) true)).owe [.placementDecision (qk / 64)]))) ∧
  (∀ (s : State) (f : ClassB), engineReady s f.h [] →
    let g := { s.gang with exited := s.gang.exited ||| maskOf fun l => s.gang.present l }
    let a := s.gang.adAt (f.aux12.toNat % 8)
    (g.drained = false → exec (.done f) s = .next (s.setGang { g with hold := .exiting })) ∧
    (g.drained = true → g.ended = false → g.kind = .vector → g.quads = [] → g.kdirty = [] → g.ret = [] → (s.teamAt g.team).colls = [] →
      (s.queueOf g.team).bound = false → ∃ t, exec (.done f) s = .next t ∧ t = { s with gangs := t.gangs, runq := s.runq.filter (· ≠ s.gk) } ∧
        t.gang = { g with ended := true, hold := .no } ∧ ∀ k, k ≠ s.gk → t.gangAt k = s.gangAt k) ∧
    ((2 ^ 64 ≤ a.toNat ∨ a.toNat % 8 ≠ 0) → exec (.doneC f) s = .next (s.trap 20 (a.setWidth 64))) ∧
    (a.toNat < 2 ^ 64 → a.toNat % 8 = 0 → g.drained = false → ∃ t, exec (.doneC f) s = .next t ∧
      t = { s with gangs := t.gangs, cohorts := t.cohorts } ∧ t.gang = { g with hold := .exiting } ∧
      t.cohortAt s.team.cohort = { s.cohort with donec := some (a.setWidth 64) }) ∧
    (s.gang.qans = none → exec (.qdone f) s = .next (s.setGang { s.gang with hold := .qdone })) ∧
    (∀ b, s.gang.qans = some b → exec (.qdone f) s =
      .next (s.done (s.setGang ({ s.gang with hold := .no, qans := none }.setGp (f.aux12.toNat % 8) b)))))

/-- R207, R325: WLPUT and RBIN append one item per lane, in lane order, and leave in D the lane's status: 0 appended, 1 a full list, 2 a list that
the table lacks. WLGET hands the items of a batch to the lanes in order and tells each by a predicate whether it has one. -/
def Obligations.WorkLists : Prop :=
  (∀ (s : State) (qk tab i item : Nat),
    (s.qNat qk tab 2 ≤ i → s.wlAppend qk tab i item = (2, s)) ∧
    (i < s.qNat qk tab 2 → (s.wlist qk tab i).full = true → s.wlAppend qk tab i item = (1, s)) ∧
    (i < s.qNat qk tab 2 → (s.wlist qk tab i).full = false → (s.wlAppend qk tab i item).1 = 0 ∧
      (s.wlAppend qk tab i item).2 =
        (s.appendItem (s.listQueue qk tab i) tab i item).wlcTry (s.listQueue qk tab i) tab i false 4)) ∧
  (∀ (s : State) (f : ClassE) (i : Instr) (n : Nat) (list : Nat → Nat),
    ((i = .wlput f ∧ n = 2 ^ f.bits 2 0 ∧ list = fun l => (s.gang.src f.d false l).toNat) ∨
      (i = .rbin f ∧ n = 8 ∧ list = fun l =>
        rayKey (s.gang.src f.d false l).toNat (f.bits 4 0) (fun w => s.gang.itemWord f.a 8 w l) %
          s.qNat s.cohort.queue (s.gang.adAt f.ta.toNat).toNat 2)) →
    listReady s f n →
    let ls := s.gang.effLanes s.pt f.h
    let tab := (s.gang.adAt f.ta.toNat).toNat
    let reqs := ls.map fun l => (l, list l, itemOf s.gang f n l)
    s.structGates (s.wlPlaces s.cohort.queue tab reqs) = none →
    let r := s.release.wlAppends s.cohort.queue tab reqs
    ∃ g', exec i s = .next (s.done (r.2.setGang g')) ∧
      g' = { r.2.gang with r := { r.2.gang.r with v := g'.r.v, undo := g'.r.undo }, queues := g'.queues } ∧ r.1.map (·.1) = ls ∧
      ∀ p ∈ r.1, f.d.toNat < 48 → g'.vAt f.d.toNat p.1 = BitVec.ofNat 32 p.2) ∧
  (∀ (s : State) (f : ClassE),
    let n := 2 ^ f.bits 2 0
    let d := f.d.toNat
    let b := s.gang.adAt f.ta.toNat
    let x := s.xlOf s.gang.team
    let word := fun (off len : Nat) => (s.vaNat x (b.toNat + off) len).getD 0
    let ls := s.gang.effLanes s.pt f.h
    s.laneGate f.h [] [{ f := f.d, n := n, a := n }] false false = none → s.engineGate = none →
    s.structGate b 16 { r := true, w := true } = none →
    (word 10 1 ≠ f.bits 2 0 → exec (.wlget f) s = .next (s.trap 20 (b.setWidth 64))) ∧
    (word 10 1 = f.bits 2 0 → s.structGates (wlItems (b.toNat + 16) (word 0 4) (word 4 4) n ls.length) = none →
      let s1 := s.vaWrite x (b.toNat + 4) 4 (word 4 4 + ls.length)
      ∃ g', exec (.wlget f) s = .next (s.done (s1.setGang g')) ∧
        ∀ p l, ls[p]? = some l →
          let i := (word 4 4 + p) % 2 ^ 32
          (f.bits 3 2 < 7 → g'.kAt (f.bits 3 2) l = decide (i < word 0 4)) ∧
          (∀ w, d + n ≤ 48 → w < n → i < word 0 4 → g'.vAt (d + w) l = BitVec.ofNat 32 (word (16 + 4 * n * i + 4 * w) 4))))

/-- R212, R274: WSEND sends one 64-byte record per lane from the team's scratchpad to a member of a group that the team names, in lane order, and
leaves each lane's status in D: 0 sent, 1 no free slot, 2 no such member, 3 the sender itself. -/
def Obligations.RemoteRecords : Prop :=
  (∀ (s : State) (gk me off dst : Nat),
    let g := s.groupAt gk
    let u := KMap.get (0, 0) g.used (65536 * me + dst)
    (g.members.length ≤ dst → s.wsendLane gk me off dst = (2, s)) ∧
    (dst < g.members.length → dst = me → s.wsendLane gk me off dst = (3, s)) ∧
    (dst < g.members.length → dst ≠ me → (g.rwk = false ∨ ∀ i, i < g.nsl → u.1.testBit i = true) → s.wsendLane gk me off dst = (1, s)) ∧
    (∀ i, dst < g.members.length → dst ≠ me → g.rwk = true → i < g.nsl → u.1.testBit i = false → (∀ j, j < i → u.1.testBit j = true) →
      (s.wsendLane gk me off dst).1 = 0 ∧
      let t := (s.wsendLane gk me off dst).2
      t.sent = s.sent ++ [{ id := s.nextId, gang := s.gk, grp := gk, src := me, dst := dst, slot := i }] ∧ t.mem = s.mem ∧
      t.gang = { s.gang with nets := s.gang.nets ++ [s.nextId] } ∧
      (KMap.get (0, 0) (t.groupAt gk).used (65536 * me + dst)).1 = u.1 + 2 ^ i ∧ (t.groupAt gk).members = g.members ∧
      (s.rankMod gk dst = s.modn →
        ∃ fr, t.due = s.due ++ [.frameWorkRecord fr] ∧ fr.cls = 6 ∧ fr.body = s.spadBytes s.gang.team off 64))) ∧
  (∀ (s : State) (f : ClassE) (me : Nat),
    let g := s.gang
    let gk := s.groupKey g.team (f.bits 8 0)
    let ls := g.effLanes s.pt f.h
    let ea := fun (l : Nat) => g.adAt f.ta.toNat + BitVec.ofNat 72 (64 * l)
    s.laneGate f.h [{ f := f.d }] [{ f := f.d }] false false = none → s.engineGate = none →
    (s.team.grpSlot (f.bits 8 0) = none → exec (.wsend f) s = .next (s.trap 15 (BitVec.ofNat 64 (f.bits 8 0)))) ∧
    (s.team.grpSlot (f.bits 8 0) ≠ none → s.rankOf g.team (s.groupAt gk) = some me → (∀ l ∈ ls, s.spadLoc g 1 64 (ea l) ≠ none) →
      ((∃ l ∈ ls, (ea l).toNat % 64 ≠ 0) → ∃ m info, exec (.wsend f) s = .next (s.trapLanes 20 m info) ∧
        ∀ l, l < 32 → (m.getLsbD l = true ↔ l ∈ ls ∧ (ea l).toNat % 64 ≠ 0)) ∧
      ((∀ l ∈ ls, (ea l).toNat % 64 = 0) → s.handsOff = false → g.nets.length + 32 ≤ 4095 →
        let r := s.release.wsendLanes gk me (ls.map fun l => (l, (ea l).toNat, (g.src f.d false l).toNat % 65536))
        ∃ g', exec (.wsend f) s = .next (s.done (r.2.setGang g')) ∧
          g' = { r.2.gang with r := { r.2.gang.r with v := g'.r.v, undo := g'.r.undo }, queues := g'.queues } ∧ r.1.map (·.1) = ls ∧
          ∀ p ∈ r.1, f.d.toNat < 48 → g'.vAt f.d.toNat p.1 = BitVec.ofNat 32 p.2)))

/-- R209 to R211, R278, R287: COLL and COMP of a group that the team names join the team's operation of that number and go on; another word or
other descriptors than the first gang's are the collective trap (15), a broken group the collective-broken trap (16). A
unit that arrives before its member has started is kept, one that disagrees breaks the group, and a packet that came before is only
acknowledged; the member's last unit, or for a member that only sends the last acknowledgement, lands its destination, gives the bytes to its
barrier and the flags to its gangs. -/
def Obligations.Collectives : Prop :=
  (∀ (s : State) (f : ClassE) (i : Instr) (comp : Bool) (slot : Nat), ((i = .coll f ∧ comp = false) ∨ (i = .comp f ∧ comp = true)) →
    let g := s.gang
    let gk := s.groupKey g.team (f.bits 8 0)
    let num := KMap.get 0#16 g.ocnt slot
    let a := g.tdAt f.ta.toNat
    let b := g.tdAt f.tb.toNat
    let mine := fun (c : CollIssue) => c.grp == gk && c.num == num.toNat
    (engineReady s f.h [] → SlotOk (s.fs (tdSlot a)) false → SlotOk (s.fs (tdSlot b)) false →
      (s.team.grpSlot (f.bits 8 0) = none → exec i s = .next (s.trap 15 (BitVec.ofNat 64 (f.bits 8 0)))) ∧
      (s.team.grpSlot (f.bits 8 0) = some slot → (s.groupAt gk).broken = true →
        exec i s = .next (s.trap 16 (BitVec.ofNat 64 (f.bits 8 0))))) ∧
    (collReadyNow s f comp slot → g.barOf f = none → s.team.colls.find? mine = none →
      ∃ (u : State) (c : CollIssue), exec i s = .next (u.done (u.collTry g.team)) ∧ c.grp = gk ∧ c.num = num.toNat ∧ c.src = a ∧ c.dst = b ∧ c.bar = none ∧
        c.gangs = [(s.gk, s.nextId)] ∧ c.started = false ∧
        u = { s with nextId := s.nextId + 1, teams := u.teams, gangs := u.gangs } ∧ u.team = { s.team with colls := s.team.colls ++ [c] } ∧
        u.gang = { g with nets := g.nets ++ [s.nextId], ocnt := KMap.set 0#16 g.ocnt slot (num + 1#16) }) ∧
    (∀ c, collReadyNow s f comp slot → s.team.colls.find? mine = some c → (c.src ≠ a ∨ c.dst ≠ b ∨ c.bar ≠ g.barOf f) →
      exec i s = .next (s.trap 15 (BitVec.ofNat 64 (f.bits 8 0))))) ∧
  (∀ (s : State) (fr : Frame) (i : Instr), (i = .frameCollectiveData fr ∨ i = .frameImageTiles fr) →
    let gk := frameGkey fr
    let g := s.groupAt gk
    let key := 512 * frameNum fr + frameExtra fr / 2 ^ 16 % 2 ^ 16
    let s1 := { s with parked := s.parked.filter (· != fr) }
    let took := tookPacket s1 fr
    let f0 := { fr with psn := 0 }
    g.broken = false → g.members ≠ [] →
    ((KMap.get [] s.pseen fr.srcm).contains fr.psn = true → fr.psn ≠ 0 →
      exec i s = .next { s1 with away := s1.away ++ [.ack fr.srcm fr.psn] }) ∧
    ((KMap.get [] s.pseen fr.srcm).contains fr.psn = false →
      (KMap.get none g.ops key = none → exec i s = .next (took.setGroupAt gk { g with early := g.early ++ [f0] })) ∧
      (∀ o, KMap.get none g.ops key = some o → (s.launchOf o.team).stage = 0 →
        (o.agrees fr = true → exec i s = .next (took.putOp gk (took.opDone gk o) (o.take (frameHop o fr)))) ∧
        (o.agrees fr = false → exec i s = .next (took.breakGroup gk []))))) ∧
  (∀ (s s1 : State) (team grp op rank k id : Nat) (c : CollIssue) (o : CollOp),
    let t := s.teamAt team
    let g := s.groupAt grp
    t.colls.find? (fun c => c.grp == grp && c.num == op && c.started) = some c → s.rankOf team g = some rank → g.broken = false →
    KMap.get none g.ops (512 * op + rank) = some o → o.gangs = [(k, id)] → o.num = op → o.rank = rank →
    let sends := o.comp = true ∧ o.gather = true ∧ o.rank ≠ 0
    let ends := o.passed = false ∧ o.needed ≤ o.fin.length ∧ (sends → o.cur = [] ∧ o.inbox = [] ∧ s.unacked grp o = false)
    (¬ ends → exec (.collComplete team grp op) s = .next s) ∧
    (ends → s.engineWriteAll k (tdSp o.dst) o.writes = .ok s1 → (s1.gangAt k).hold ≠ .exiting → o.bar = none →
      ∃ u, exec (.collComplete team grp op) s = .next u ∧ u = { s1 with groups := u.groups, teams := u.teams, gangs := u.gangs } ∧
        -- a ring member through which units of others still have to pass is kept for them (R280, R300)
        KMap.get none (u.groupAt grp).ops (512 * op + rank) =
          (if o.cur = [] ∧ o.inbox = [] then none else some { o with passed := true }) ∧
        u.gangAt k = { s1.gangAt k with
          nets := (s1.gangAt k).nets.filter (· ≠ id), r := { (s1.gangAt k).r with mstat := (s1.gangAt k).r.mstat ||| o.flags } }))

end
namespace Sys2Proof.Claims

open Sys2Proof.Machine

/-! ## The fabric (R211, R271 to R277, R338) -/

/-- An answer to `f`: back to its module and die, with its tag. -/
def AnswerTo (s : State) (f r : Frame) (cls : Nat) : Prop :=
  r.cls = cls ∧ r.dstm = f.srcm ∧ r.srcm = s.modn ∧ r.tag = f.tag ∧ r.ddie = f.sdie

/-- Where an access frame lands: the page of its window-0 address in the context of the lowest bound queue with that number, under the
access needed; `u` is the state after the walk. No held atomic locks the bytes. -/
def LandsAt (s u : State) (f : Frame) (nd : Need) (pa : Nat) (leaf : DWord) (span : List Nat) : Prop :=
  u.lockedPas span = false ∧ ∃ k, s.queueWith (frameCtx f) = some k ∧
    s.checkG { s.xlQueue k with hlimit := 0, wmax := 0 } nd (BitVec.ofNat 72 (f.addr % 2 ^ 64)) = (.ok (.mem pa leaf), u)

/-- Atomics one after another at one place of n bytes: the old values, and what stands there after them. -/
def atomRun (code n : Nat) : List (Nat × Nat) → Nat → List Nat × Nat
  | [], x => ([], x)
  | o :: r, x =>
    let q := atomRun code n r ((atomNew code (8 * n) x o.1 o.2).1 % 256 ^ n)
    (x :: q.1, q.2)

/-- Bytes of data that a response carries. -/
def dataOf (f : Frame) : List Byte := f.body.take (f.aux / 2 ^ 48 % 2 ^ 16)

end Sys2Proof.Claims

section

open Sys2Proof Sys2Proof.Machine Sys2Proof.Claims

/-- R223, R226, R273, R338: a remote read is answered with the newest bytes at their home, or those of a partition-7 line of
the home die; a remote write changes exactly the masked bytes of its line and is acknowledged; the atomics of a frame
exchange at the home one after another and are answered with the old values. Without a queue of the context the access is
refused (AUX bit 0; log entry 23, DESIGN CHOICE), and a page that is not resident is asked for. The places of the refusal bit
and of the release in AUX are the model's choice (log entry 23, DESIGN CHOICE). -/
def Obligations.RemoteAccesses : Prop :=
  (∀ (s u : State) (f : Frame) (pa : Nat) (leaf : DWord),
    let n := f.aux / 2 ^ 16 % 128
    FreshPacket s f → LandsAt (tookPacket s f) u f { r := true } pa leaf ((List.range n).map (pa + ·)) → u.portDown pa = false →
    ∃ r e, exec (.frameRead f) s = .next (e.sendFrame r) ∧ AnswerTo u f r 1 ∧ r.aux % 2 = 0 ∧ r.aux / 2 ^ 48 % 2 ^ 16 = n ∧
      (entPart leaf ≠ 7 → e = u) ∧
      ∀ i, i < n → r.body.getD i 0#8 = ((e.p7Byte (homeDie pa) (.mem pa leaf) i).getD (e.byteHome (pa + i)))) ∧
  (∀ (s u : State) (f : Frame) (pa : Nat) (leaf : DWord),
    let base := pa / 64 * 64
    FreshPacket s f → LandsAt (tookPacket s f) u f { w := true } pa leaf
      (((List.range 64).filter fun i => (f.aux % 2 ^ 64).testBit i).map (base + ·)) →
    (∀ i, i < 64 → u.portDown (base + i) = false) →
    ∃ r e, exec (.frameWrite f) s = .next (e.sendFrame r) ∧ AnswerTo e f r 3 ∧ r.aux = 0 ∧ r.body = [] ∧
      ∀ a, e.byteHome a =
        if base ≤ a ∧ a < base + 64 ∧ (f.aux % 2 ^ 64).testBit (a - base) = true then f.body.getD (a - base) 0#8 else u.byteHome a) ∧
  (∀ (s u : State) (f : Frame) (pa : Nat) (leaf : DWord),
    let w := leNat (f.body.take 3)
    let n := w / 2 ^ 20 % 16
    let run := atomRun (w / 2 ^ 16 % 16) n (frameOps f) (u.homeNat pa n)
    FreshPacket s f → LandsAt (tookPacket s f) u f { r := true, w := true } pa leaf ((List.range n).map (pa + ·)) →
    u.portDown pa = false → (∀ i, i < n → u.portDown (pa + i) = false) → 0 < n → n ≤ 8 → (frameOps f).length ≤ 32 →
    ∃ r e, exec (.frameAtomic f) s = .next (e.sendFrame r) ∧ AnswerTo e f r 5 ∧ r.aux % 2 = 0 ∧
      (∀ j i, j < (frameOps f).length → i < 8 → r.body.getD (8 * j + i) 0#8 = BitVec.ofNat 8 (run.1.getD j 0 / 256 ^ i)) ∧
      ∀ a, e.byteHome a = if pa ≤ a ∧ a < pa + n then BitVec.ofNat 8 (run.2 / 256 ^ (a - pa)) else u.byteHome a) ∧
  (∀ (s : State) (f : Frame) (i j : Instr) (cls : Nat) (nd : Need), FreshPacket s f →
    let t := tookPacket s f
    let f0 := { f with psn := 0 }
    (i, j, cls, nd) ∈ [(Instr.frameRead f, Instr.frameRead f0, 1, ({ r := true } : Need)), (.frameWrite f, .frameWrite f0, 3, { w := true }),
      (.frameAtomic f, .frameAtomic f0, 5, { r := true, w := true })] →
    (t.queueWith (frameCtx f) = none → ∃ r, exec i s = .next (t.sendFrame r) ∧ AnswerTo t f r cls ∧ r.aux = 1 ∧ r.body = []) ∧
    (∀ k, t.queueWith (frameCtx f) = some k →
      let va := BitVec.ofNat 72 (f.addr % 2 ^ 64)
      let c := t.checkG { t.xlQueue k with hlimit := 0, wmax := 0 } nd va
      c.1 = .absent → exec i s =
        .next (c.2.engineFault 0 k va ((if nd.w then 1 else 0) + (if nd.w && nd.r then 2 else 0)) j)))

/-- R271, R273, R338: a response reaches the load that awaits its tag, whose last response owes its return; a refusal stops the team; an
acknowledgement makes a store performed; a packet that came before is acknowledged again and does nothing else; a packet that is
acknowledged is kept no longer, and ends a member's part of a gathering where it was the last one (R300); its timer restarts when it is
sent again; the loss of a peer breaks the groups with a member there and drops what was out to it. -/
def Sys2Proof.Claims.RemoteAnswers : Prop :=
  (∀ (s : State) (f : Frame) (i : Instr) (k : Nat) (g : Gang) (p : PendLoad) (a : Nat), FreshPacket s f →
    (i = .frameReadResponse f ∨ i = .frameAtomicResponse f) → f.aux % 2 ^ 16 = 0 → s.copies = [] → s.fetches = [] →
    s.gangs.find? (fun x => x.2.loads.any fun p => p.await.any fun a => a.1 == f.tag) = some (k, g) → g.loads = [p] →
    p.await = [(f.tag, a)] →
    ∃ t, exec i s = .next t ∧ t = { tookPacket s f with gangs := t.gangs, due := s.due ++ [.loadReturn k p.id] } ∧
      t.gangAt k = { g with loads := [{ p with await := [] }.answer g a (dataOf f)] } ∧ ∀ j, j ≠ k → t.gangAt j = s.gangAt j) ∧
  (∀ (s : State) (f : Frame) (i : Instr), FreshPacket s f → (i = .frameReadResponse f ∨ i = .frameAtomicResponse f) →
    (f.aux % 2 = 1 → exec i s = .next (match (tookPacket s f).askerOf f.tag with
      | some k => (tookPacket s f).refused k f.addr
      | none => tookPacket s f))) ∧
  (∀ (s : State) (f : Frame) (k j : Nat), FreshPacket s f →
    s.gangs.findSome? (fun x => (x.2.stores.find? fun i => i % 2 ^ 20 == f.tag).map fun i => (x.1, i)) = some (k, j) →
    (f.aux % 2 = 0 → exec (.frameWriteAck f) s = .next ((tookPacket s f).owe [.storePerformed k j])) ∧
    (f.aux % 2 = 1 → exec (.frameWriteAck f) s = .next ((tookPacket s f).refused k f.addr))) ∧
  (∀ (s : State) (f : Frame) (i : Instr), i ∈ [Instr.frameRead f, .frameReadResponse f, .frameWrite f, .frameWriteAck f, .frameAtomic f,
      .frameAtomicResponse f, .frameWorkRecord f, .frameSlotUpdate f, .frameVote f, .frameVoteResult f] → ¬ FreshPacket s f →
    exec i s = .next { s with away := s.away ++ [.ack f.srcm f.psn] }) ∧
  (∀ (s : State) (n : Nat),
    let t := { s with net := s.net.filter fun p => p.1.psn ≠ n }
    (∃ e, exec (.packetAck n) s = .next e ∧ e = { t with due := e.due } ∧ ((∀ p ∈ s.net, p.1.psn = n → p.1.cls ≠ 9) → e.due = s.due) ∧
      ∀ p o, s.net.find? (fun q => q.1.psn == n) = some p → p.1.cls = 9 → let gk := frameGkey p.1
        KMap.get none (s.groupAt gk).ops (512 * frameNum p.1 + frameExtra p.1 % 2 ^ 16) = some o →
        let last := o.comp = true ∧ o.gather = true ∧ o.rank ≠ 0 ∧ o.passed = false ∧ o.needed ≤ o.fin.length ∧ o.cur = [] ∧ o.inbox = [] ∧
          t.unacked gk o = false
        (last → e.due = s.due ++ [.collComplete o.team gk o.num]) ∧ (¬ last → e.due = s.due)) ∧
    exec (.retransmitTimer n) s = .next { s with net := s.net.map fun p => if p.1.psn = n then (p.1, s.clock) else p } ∧
    let s1 := { s with net := s.net.filter fun p => p.1.dstm ≠ n, away := s.away ++ [Away.lost n] }
    ∃ t, exec (.peerLoss n) s = .next t ∧ t = { s1 with groups := t.groups, due := t.due, net := t.net, psn := t.psn } ∧
      ∀ q ∈ s1.groups, (s1.groupModules q.1).contains n = true → (t.groupAt q.1).broken = true)

/-- R274 to R276: a work record is written into its slot and appended to the receive list, which releases the slot, or stays there while the
list is full; while the module knows no queue of the launch the frame waits. The bitmap of free slots goes to its sender with the next
sequence number, and with how often each slot has been released, modulo 2 (log entry 78, DESIGN CHOICE); a newer bitmap frees the sender's
slots that have been released since and ends the net count of their records, an older one changes nothing. -/
def Sys2Proof.Claims.WorkRecordsAndSlots : Prop :=
  (∀ (s0 : State) (f : Frame), FreshPacket s0 f →
    let s := tookPacket s0 f
    let f0 := { f with psn := 0 }
    let gk := frameGkey f
    let g := s.groupAt gk
    let src := frameExtra f % 2 ^ 16
    let dst := frameExtra f / 2 ^ 16 % 2 ^ 16
    let slot := frameWord f - src * g.nsl
    let m := g.members.getD dst noMember
    (s.launchQueue (gk / 256) = none → exec (.frameWorkRecord f) s0 = .next (s.owe [.frameWorkRecord f0])) ∧
    (∀ qk, s.launchQueue (gk / 256) = some qk →
      let x := s.xlQueue qk
      let a := m.rarea + 64 * frameWord f
      let u := s.vaWrite x a 64 (leNat (f.body.take 64))
      let t := KMap.get (0, 0) g.taken (65536 * dst + src)
      let w := u.setGroupAt gk { g with taken := KMap.set (0, 0) g.taken (65536 * dst + src) (t.1 ||| 2 ^ slot, t.2) }
      let tab := (w.queueAt qk).launch.wltab
      let h := w.listQueue qk tab m.rlist
      ((s.lookup x a).1 = .absent → exec (.frameWorkRecord f) s0 =
        .next (s.engineFault 0 qk (BitVec.ofNat 72 a) 1 (.frameWorkRecord f0))) ∧
      ((s.lookup x a).1 ≠ .absent → (w.wlist qk tab m.rlist).full = true →
        exec (.frameWorkRecord f) s0 = .next { w with slotted := w.slotted ++ [f0] }) ∧
      ((s.lookup x a).1 ≠ .absent → (w.wlist qk tab m.rlist).full = false →
        ∃ v, v = (w.appendItem h tab m.rlist (leNat (f.body.take 64))).wlcTry h tab m.rlist false 4 ∧
          ∃ e, exec (.frameWorkRecord f) s0 = .next e ∧ e = { v with groups := e.groups, qdt := e.qdt, due := e.due } ∧
            .slotUpdateSend gk dst src ∈ e.due ∧
            KMap.get 0 (e.groupAt gk).rels (65536 * dst + src) = KMap.get 0 (v.groupAt gk).rels (65536 * dst + src) ^^^ 2 ^ slot ∧
            (KMap.get (0, 0) (e.groupAt gk).taken (65536 * dst + src)).1 =
              (let m := (KMap.get (0, 0) (v.groupAt gk).taken (65536 * dst + src)).1
               if m.testBit slot then m - 2 ^ slot else m)))) ∧
  (∀ (s : State) (grp member sender : Nat),
    let g := s.groupAt grp
    let key := 65536 * member + sender
    let t := KMap.get (0, 0) g.taken key
    ∃ u f, exec (.slotUpdateSend grp member sender) s = .next (u.sendFrame f) ∧
      u = s.setGroupAt grp { g with taken := KMap.set (0, 0) g.taken key (t.1, (t.2 + 1) % 2 ^ 32) } ∧
      f.cls = 7 ∧ f.dstm = s.rankMod grp sender ∧ frameNum f = member % 2 ^ 16 ∧
      frameWord f = ((t.2 + 1) % 2 ^ 32 + sender * 2 ^ 32) % 2 ^ 60 ∧
      (∀ i, i < g.nsl → i < 64 → (leNat (f.body.take 8)).testBit i = !t.1.testBit i) ∧
      leNat ((f.body.drop 8).take 8) = KMap.get 0 g.rels key % 2 ^ 64) ∧
  (∀ (s0 : State) (f : Frame), FreshPacket s0 f →
    let s := tookPacket s0 f
    let gk := frameGkey f
    let g := s.groupAt gk
    let seq := frameWord f % 2 ^ 32
    let src := frameWord f / 2 ^ 32
    let dst := frameNum f
    let key := 65536 * src + dst
    let u := KMap.get (0, 0) g.used key
    let free := leNat (f.body.take 8)
    let rels := leNat ((f.body.drop 8).take 8)
    let newer := seq ≠ u.2 % 2 ^ 32 ∧ (seq + 2 ^ 32 - u.2) % 2 ^ 32 < 2 ^ 31
    -- in use here, and not released since the last bitmap
    let out := fun (i : Nat) => u.1.testBit i = true ∧ rels.testBit i = (KMap.get 0 g.heard key).testBit i
    let freed := fun (r : Sent) => r.grp = gk ∧ r.src = src ∧ r.dst = dst ∧ r.slot < g.nsl ∧ free.testBit r.slot = true ∧ ¬ out r.slot
    u.2 < 2 ^ 32 →
    (¬ newer → exec (.frameSlotUpdate f) s0 = .next s) ∧
    (newer → (∀ r ∈ s.sent, freed r → (s.gangAt r.gang).hold ≠ .exiting) →
      ∃ e, exec (.frameSlotUpdate f) s0 = .next e ∧ e = { s with groups := e.groups, sent := e.sent, gangs := e.gangs } ∧
        (∀ i, i < g.nsl → ((KMap.get (0, 0) (e.groupAt gk).used key).1.testBit i = false ↔ free.testBit i = true ∧ ¬ out i)) ∧
        (KMap.get (0, 0) (e.groupAt gk).used key).2 = seq ∧ KMap.get 0 (e.groupAt gk).heard key = rels ∧
        (∀ r, r ∈ e.sent ↔ r ∈ s.sent ∧ ¬ freed r) ∧
        ∀ k i, i ∈ (e.gangAt k).nets ↔ i ∈ (s.gangAt k).nets ∧ ¬ ∃ r ∈ s.sent, freed r ∧ r.gang = k ∧ r.id = i))

end
namespace Sys2Proof.Claims

open Sys2Proof.Machine

/-! ## Graphics (R213, R250 to R257) and rays (R214, R215, R258 to R263) -/

/-- A number of a meshlet record. -/
def meshNum (s : State) (rec_ : VAddr) (off n : Nat) : Nat := leNat (s.spadBytes s.gang.team (rec_.toNat + off) n)

/-- MESH issues, and its header and mask stand in the team's scratchpad. -/
def meshReady (s : State) (f : ClassE) : Prop :=
  engineReady s f.h [] ∧ s.accWaits = false ∧ s.gang.loadsOut = false ∧ s.gang.engs.length < 4095 ∧
  s.rangeTrap s.gang [meshRange (s.gang.adAt f.ta.toNat) 32, meshRange (s.gang.adAt f.tb.toNat) 16] = none

/-- A cohort in which a gang has not ended. -/
def CohortLives (s : State) (c : Nat) : Prop := ∃ t k, t ∈ (s.cohortAt c).teams ∧ k ∈ (s.teamAt t).gangs ∧ (s.gangAt k).ended = false

/-- The quads that a meshlet gives, triangle by triangle and view by view (R252). -/
def meshQuads (s : State) (op : MeshOp) (views : List (Nat × ViewRead)) : List Quad :=
  match s.readMesh op with
  | none => []
  | some m => m.tris.flatMap fun t => views.flatMap fun (p : Nat × ViewRead) => match p.2 with
    | .ok w => s.triQuads op (s.queueAt (s.cohortAt (s.teamAt op.team).cohort).queue).owners m p.1 w t
    | _ => []

/-- A lane form with blocks of registers that a ray instruction names. -/
def rayReady (s : State) (f : ClassE) (n : Nat) : Prop :=
  s.laneGate f.h [{ f := f.a, n := 8, a := 8 }] [{ f := f.d, n := n, a := n }] false false = none ∧ s.engineGate = none

end Sys2Proof.Claims

section

open Sys2Proof Sys2Proof.Machine Sys2Proof.Claims

/-- R213, R250: MESH hands the meshlet that AD[TA] names to the raster unit, counted by eng and by its team, and goes on; NV above 128 or
NT above 256 is the descriptor trap with reason 8, a mask bit of a view that the launch lacks reason 9. MESH_RASTER reads
the meshlets of a gang in issue order, and leaves their quads at the owners, each of which is owed a start. -/
def Sys2Proof.Claims.Meshlets : Prop :=
  (∀ (s : State) (f : ClassE), meshReady s f →
    let g := s.gang
    let rec_ := g.adAt f.ta.toNat
    let nv := meshNum s rec_ 0 2
    let nt := meshNum s rec_ 2 2
    let mask := leNat (s.spadBytes g.team (g.adAt f.tb.toNat).toNat 16)
    let whole := s.rangeTrap g [meshRange rec_ (32 + 16 * nv + 4 * nv * (meshNum s rec_ 4 1 % 16) + 3 * nt), meshRange (g.adAt f.tb.toNat) 16]
    ((128 < nv ∨ 256 < nt) → exec (.mesh f) s = .next (s.trap 21 (BitVec.ofNat 64 (8 * 256)))) ∧
    (nv ≤ 128 → nt ≤ 256 → whole = none → 2 ^ (s.launchOf g.team).nview ≤ mask →
      exec (.mesh f) s = .next (s.trap 21 (BitVec.ofNat 64 (9 * 256)))) ∧
    (nv ≤ 128 → nt ≤ 256 → whole = none → mask < 2 ^ (s.launchOf g.team).nview →
      ∃ e, exec (.mesh f) s = .next (s.done e) ∧
        e = { s with nextId := s.nextId + 1, meshq := e.meshq, gangs := e.gangs, teams := e.teams, due := s.due ++ [.meshRaster s.nextId] } ∧
        e.meshq = s.meshq ++ [{ id := s.nextId, gang := s.gk, team := g.team, off := rec_.toNat, mask := mask, cull := f.bits 2 0,
                                    hdr := s.spadBytes g.team rec_.toNat 32 }] ∧
        e.gang = { g with engs := g.engs ++ [s.nextId], meshes := g.meshes ++ [s.nextId] } ∧
        (∀ k, k ≠ s.gk → e.gangAt k = s.gangAt k) ∧ e.team = { s.team with pixels := s.team.pixels + 1 })) ∧
  (∀ (s : State) (id : Nat) (op : MeshOp), s.meshq.find? (·.id == id) = some op →
    let c := (s.teamAt op.team).cohort
    let views := ((List.range 128).filter fun v => op.mask.testBit v).map fun v => (v, s.readView (s.cohortAt c).queue v)
    let qs := meshQuads s op views
    (∀ o, s.meshq.find? (·.gang == op.gang) = some o → o.id ≠ id → exec (.meshRaster id) s = .next (s.owe [.meshRaster id])) ∧
    ((∀ o, s.meshq.find? (·.gang == op.gang) = some o → o.id = id) → (∀ p ∈ views, ∀ va, p.2 ≠ .absent va) →
      (s.gangAt op.gang).hold ≠ .exiting → CohortLives s c →
      ∃ t, exec (.meshRaster id) s = .next t ∧
        t = { s with meshq := s.meshq.filter (·.id ≠ id), gangs := t.gangs, teams := t.teams, quads := s.quads ++ qs
                     due := s.due ++ ((qs.map (·.owner)).eraseDups.map .pixelTeamStart) } ∧
        t.gangAt op.gang = { s.gangAt op.gang with
          engs := (s.gangAt op.gang).engs.filter (· ≠ id), meshes := (s.gangAt op.gang).meshes.filter (· ≠ id) } ∧
        t.teamAt op.team = { s.teamAt op.team with pixels := (s.teamAt op.team).pixels - 1 + qs.length }))

/-- R254 to R256: a core packs up to eight quads of one meshlet and view, oldest first, into a pixel gang, whose lanes start with their pixel,
depth, view and facing, triangle and cover; an ended pixel gang's fragments are tested and blended in slice order, each
at its pixel, and the team counts its quads no more. -/
def Sys2Proof.Claims.PixelsAndFragments : Prop :=
  (∀ (s : State) (core : Nat) (a : Quad) (r : List Quad), s.packQuads core = a :: r →
    let qs := s.packQuads core
    let busy := s.pixelBusy core = true ∨ (s.coreAt core).drained = true ∨
      s.coreFits core true { gangs := 1, storage := 6656, reserve := 0, nseg := (s.teamAt a.team).im.nseg } = false
    (busy → exec (.pixelTeamStart core) s = .next (s.oweOnce (.pixelTeamStart core))) ∧
    (¬ busy → ∃ t, exec (.pixelTeamStart core) s = .next t ∧
      let k := s.nextId + 2
      let g := t.gangAt k
      t = { s with nextId := s.nextId + 3, runq := s.runq ++ [k], quads := without s.quads qs, cohorts := t.cohorts, teams := t.teams
                   gangs := t.gangs, due := s.due ++ [.segmentLanded (s.nextId + 1) 0] } ∧
      (∀ j, j ≠ k → t.gangAt j = s.gangAt j) ∧ g.quads = qs ∧ g.team = s.nextId + 1 ∧ g.ended = false ∧
      (t.teamAt g.team).core = core ∧
      ∀ i j q, i < 8 → j < 4 → qs[i]? = some q →
        g.vAt 0 (4 * i + j) = BitVec.ofNat 32 ((q.x + j % 2) + (q.y + j / 2) * 2 ^ 16) ∧
        g.vAt 1 (4 * i + j) = BitVec.ofNat 32 (q.depth.getD j 0) ∧
        g.vAt 2 (4 * i + j) = BitVec.ofNat 32 (q.view + (if q.front then 2 ^ 8 else 0)) ∧
        g.vAt 3 (4 * i + j) = BitVec.ofNat 32 q.tri ∧ g.kAt 0 (4 * i + j) = q.cover.testBit j ∧ g.kAt 1 (4 * i + j) = true ∧
        ∀ n x, q.attrs[n]? = some x → g.vAt (4 + n) (4 * i + j) = BitVec.ofNat 32 (x.getD j 0))) ∧
  (∀ (s : State) (k : Nat) (a : Quad) (r : List Quad),
    let g := s.gangAt k
    let qk := (s.cohortAt (s.teamAt a.team).cohort).queue
    let x := s.xlQueue qk
    g.quads = a :: r → g.ended = true →
    (s.readView qk a.view = .none → exec (.fragmentBlend k) s = .next (s.pixelEnd k)) ∧
    (∀ v, s.readView qk a.view = .ok v →
      (∀ f ∈ g.fragments, (v.zbase ≠ 0 → s.touch x (v.depthAt (qk / 64) f.x f.y) 4 = .ok) ∧
        s.touch x (v.colorAt (qk / 64) f.x f.y) v.cs = .ok) →
      exec (.fragmentBlend k) s = .next ((g.fragments.foldl (fun s f => s.fragment x (qk / 64) v f) s).pixelEnd k))) ∧
  (∀ (s : State) (x : Xl) (die : Nat) (v : View) (f : Fragment),
    let d := (s.vaNat x (v.depthAt die f.x f.y) 4).getD 0
    (v.zbase ≠ 0 → depthPass v.zf f.depth d = false → s.fragment x die v f = s) ∧
    ((v.zbase = 0 ∨ depthPass v.zf f.depth d = true) → ∃ c,
      s.fragment x die v f = (if v.zw = true ∧ v.zbase ≠ 0 then s.vaWrite x (v.depthAt die f.x f.y) 4 f.depth else s).vaWrite x
        (v.colorAt die f.x f.y) v.cs c)) ∧
  (∀ f d : Nat, depthPass 0 f d = true ∧ (f < 0x7F800000 → d < 0x7F800000 →
    depthPass 1 f d = decide (f < d) ∧ depthPass 2 f d = decide (f ≤ d) ∧ depthPass 3 f d = decide (d < f) ∧
    depthPass 4 f d = decide (d ≤ f) ∧ depthPass 5 f d = decide (f = d) ∧ depthPass 6 f d = false)) ∧
  -- the two zeros are equal, as an F32 compare holds them (R131, R255)
  (∀ f d : Nat, f ∈ [0, 0x80000000] → d ∈ [0, 0x80000000] →
    depthPass 1 f d = false ∧ depthPass 2 f d = true ∧ depthPass 3 f d = false ∧ depthPass 4 f d = true ∧ depthPass 5 f d = true)

/-- R214, R215, R261: RTRACE takes the ray of each lane with an effect into the traversal unit and goes on; a stack that is
less than 32 KiB is the stack trap; the traversal writes eight registers per lane: those of the closest hit (the least t,
then instance, primitive and geometry), or of a miss; RHIT of a miss gives four zeros. A header that R259 rejects gives
misses with status 0x80; that one which cannot be read does the same is the model's reading (log entry 45, DEDUCED); the
choice among admitted hits is free (log entry 38, DESIGN CHOICE). -/
def Obligations.RaysAreTraced : Prop :=
  (∀ (s : State) (f : ClassE), f.d.toNat ≤ 40 → f.a.toNat ≤ 40 → rayReady s f 8 →
    let g := s.gang
    let ls := g.effLanes s.pt f.h
    (g.stklim.toNat < 32768 → exec (.rtrace f) s = .next (s.trapLanes 18 (maskOf fun l => ls.contains l) 0#64)) ∧
    (32768 ≤ g.stklim.toNat → s.accWaits = false → g.rays.length < 2 → g.loads.length < 4095 →
      ∃ e y, exec (.rtrace f) s = .next (s.done e) ∧
        e = { s with nextId := s.nextId + 1, gangs := e.gangs, due := s.due ++ [.rtraceComplete s.gk s.nextId] } ∧
        e.gang = { g with rays := g.rays ++ [y], loads := g.loads ++ [rayLoad s.nextId f.d.toNat] } ∧
        (∀ k, k ≠ s.gk → e.gangAt k = s.gangAt k) ∧
        y.id = s.nextId ∧ y.ta = g.adAt f.ta.toNat ∧ encode (.rtrace f) = some y.word ∧
        (∀ l, l < 32 → y.act.getLsbD l = decide (l ∈ ls)) ∧
        ∀ l w, l ∈ ls → w < 8 → KMap.get 0#32 y.rays (32 * w + l) = g.vAt (f.a.toNat + w) l)) ∧
  (∀ (s : State) (k id : Nat) (y : RayEntry),
    let g := s.gangAt k
    let c := { s with gk := k, pt := g.last }
    let w := y.word.toNat
    let field := fun (lo n : Nat) => w / 2 ^ lo % 2 ^ n
    let ls := lanes.filter fun l => y.act.getLsbD l
    let x := { c.xlOf g.team with win := y.ta.toNat / 2 ^ 64 * 2 ^ 64 }
    let h := c.rayHeader x y.ta
    g.rays.find? (·.id == id) = some y → g.ended = false → (s.teamAt g.team).status = .running → (∃ p ∈ g.loads, p.id = id) →
    (∀ p ∈ g.loads, p.id = id → p.probe = false) → field 42 6 ≤ 40 → g.hold ≠ .exiting → g.ahead = none →
    (h.1 = none → h.2.gang.asks = [] → ∃ t, exec (.rtraceComplete k id) s = .next t ∧
      (t.gangAt k).rays = g.rays.filter (·.id ≠ id) ∧ (t.gangAt k).loads = g.loads.filter (·.id ≠ id) ∧
      ∀ l i v, l ∈ ls → (missRegs 0x80)[i]? = some v → (t.gangAt k).vAt (field 42 6 + i) l = BitVec.ofNat 32 v) ∧
    (∀ hd, h.1 = some hd →
      let r := h.2.rayLanes c.team.core x hd (field 0 4) (field 6 8) (field 4 1 == 1) (field 5 1 == 1)
        (fun l => (List.range 8).map fun i => (KMap.get 0#32 y.rays (32 * i + l)).toNat) ls
      r.2.2.2.gang.asks = [] → r.2.1 = false → ∃ t, exec (.rtraceComplete k id) s = .next t ∧
        (t.gangAt k).rays = g.rays.filter (·.id ≠ id) ∧ (t.gangAt k).loads = g.loads.filter (·.id ≠ id) ∧
        r.1.map (·.1) = ls ∧ ∀ o ∈ r.1, ∀ i v, o.2[i]? = some v → (t.gangAt k).vAt (field 42 6 + i) o.1 = BitVec.ofNat 32 v)) ∧
  (∀ (l : List Hit) (b : Hit), closest l = some b → b ∈ l ∧ ∀ q ∈ l,
    b.t < q.t ∨ (b.t = q.t ∧ (b.inst < q.inst ∨ (b.inst = q.inst ∧ (b.prim < q.prim ∨ (b.prim = q.prim ∧ b.geom ≤ q.geom)))))) ∧
  (∀ (s : State) (f : ClassE), f.d.toNat ≤ 47 → f.a.toNat ≤ 40 → rayReady s f 4 → s.accWaits = false → s.gang.loads.length < 4095 →
    let g := s.gang
    let d := f.d.toNat
    let ls := g.effLanes s.pt f.h
    let x := { s.xlOf g.team with win := (g.adAt f.ta.toNat).toNat / 2 ^ 64 * 2 ^ 64 }
    let hd := s.rayHeader x (g.adAt f.ta.toNat)
    let seen := s.see x (g.adAt f.ta.toNat).toNat 64
    let used := ls.filter fun l => (g.vAt (f.a.toNat + 6) l).toNat.testBit 8
    let r := (if used = [] then s else hd.2).rhitLanes x hd.1 (f.bits 1 0 == 1)
      (fun l => (List.range 8).map fun w => (g.vAt (f.a.toNat + w) l).toNat) ls
    -- bytes that cannot be read are the trap or the page fault of a load (R151, R339)
    (used ≠ [] → seen.2.gang.asks = [] → seen.1 = none →
      exec (.rhit f) s = .next (s.readStuck x (used.map fun l => (l, (g.adAt f.ta.toNat).toNat, 64)))) ∧
    ((used = [] ∨ (seen.2.gang.asks = [] ∧ seen.1 ≠ none)) → r.2.2.gang.asks = [] →
      (r.2.1 ≠ [] → exec (.rhit f) s = .next (s.readStuck x r.2.1)) ∧
      (r.2.1 = [] → exec (.rhit f) s = .next (s.done (r.2.2.forgetFar.addLaneLoad ((List.range 4).map (d + ·))
        (r.1.flatMap fun o => o.2.zipIdx.map fun q => (32 * (d + q.2) + o.1, BitVec.ofNat 32 q.1)) 0#64)))) ∧
    r.1.map (·.1) = ls ∧ (∀ o ∈ r.1, (g.vAt (f.a.toNat + 6) o.1).getLsbD 8 = false → o.2 = [0, 0, 0, 0]))

end
section

open Sys2Proof Sys2Proof.Machine Sys2Proof.Claims

/-- R319 to R321: ROOT_RECORD_MAKE makes the record of the next cohort in order, or of the next one that PLACE lets the die claim; PLACEMENT_DECISION
serves the ready queue of the highest priority, round-robin, and the ring its rotation names, and places the record at
its head, restores its saved cohort, or passes it over; the sixteenth time pins the record. -/
def Obligations.PlacementAndWalk : Prop :=
  (∀ (s : State) (die slot : Nat),
    let qk := 64 * die + slot
    let q := s.queueAt qk
    let go := fun (u : State) => if u.canMake qk then u.oweOnce (.rootRecordMake die slot) else u
    (s.canMake qk = false → exec (.rootRecordMake die slot) s = .next s) ∧
    (s.canMake qk = true → q.launch.place = 0 →
      exec (.rootRecordMake die slot) s = .next (go (s.makeRoot qk (s.qNat qk (q.lrec + 224) 8)))) ∧
    (∀ i n, s.canMake qk = true → q.launch.place ≠ 0 → s.scanPlace qk 4096 q.scan = (some i, n) →
      let u := s.setQueueAt qk { q with scan := n }
      let a := q.launch.place + 8 * i
      exec (.rootRecordMake die slot) s = .next (go ((u.vaWrite (u.xlQueue qk) a 8 (u.qNat qk a 8 ||| 0x8000)).makeRoot qk i))) ∧
    (∀ n, s.canMake qk = true → q.launch.place ≠ 0 → s.scanPlace qk 4096 q.scan = (none, n) →
      exec (.rootRecordMake die slot) s = .next (go (s.setQueueAt qk { q with scan := n })))) ∧
  (∀ (s : State) (die : Nat),
    let go := fun (u : State) =>
      if (List.range 64).any (fun i => (u.oweRoots die).readyQueue (64 * die + i)) then (u.oweRoots die).oweOnce (.placementDecision die)
      else u.oweRoots die
    (s.nextSlot die = none → exec (.placementDecision die) s = .next (s.oweRoots die)) ∧
    (∀ qk, s.nextSlot die = some qk →
      let u := s.setDieAt die { s.dieAt die with last := qk % 64 }
      ∀ pri rot, u.pickRing qk = some (pri, rot) →
        let w := u.setQueueAt qk { u.queueAt qk with rot := rot }
        (∀ r c, w.headOf qk pri = some (r, some c) → exec (.placementDecision die) s = .next (go (w.oweOnce (.cohortRestore c)))) ∧
        (∀ r, w.headOf qk pri = some (r, none) → exec (.placementDecision die) s = .next (go (w.placeRecord qk pri r))))) ∧
  (∀ (s : State) (qk pri r : Nat),
    let q := s.queueAt qk
    let x := s.shape qk q.launch (s.recCtl qk r / 4 % 16)
    let there := s.placeOn (qk / 64) q.launch.fusel1 false (List.replicate x.teams x.need)
    let h := s.queueAt (s.homeQueue qk r)
    ((s.regionsFor qk r (x.teams * x.gangs) = none ∨ there = none) →
      ∃ e, s.placeRecord qk pri r = s.setQueueAt qk e ∧ e = { q with passed := e.passed, pinned := e.pinned } ∧
        KMap.get 0 e.passed (q.index r) = KMap.get 0 q.passed (q.index r) + 1 ∧
        e.pinned = (if 16 ≤ KMap.get 0 q.passed (q.index r) + 1 ∧ q.pinned = none then some (q.index r) else q.pinned)) ∧
    (∀ rs c cores, s.regionsFor qk r (x.teams * x.gangs) = some rs → there = some (c, cores) →
      s.placeRecord qk pri r = (((s.takeHead qk pri r).unpin qk r).startCohort qk r c cores x (s.qNat qk r 8) (s.qNat qk (r + 8) 8)
        (KMap.get 0#64 h.cohids (h.index r)) ((s.recCtl qk r).testBit 7) rs).wlcRetry qk)) ∧
  (∀ (s : State) (die qk : Nat), s.nextSlot die = some qk → s.readyQueue qk = true ∧
    ∀ k, 64 * die ≤ k → k < 64 * die + 64 → s.readyQueue k = true → (s.queueAt k).qpri ≤ (s.queueAt qk).qpri)

/-- R343, R344, R347, R356, R419: a saved cohort is restored, whole, on the cores found for it, once its stores are done; one
without room is passed over. A cohort whose fault entries all show ANS goes on in place, or becomes ready at the head of its
ring, and one with ERR stops; an engine operation goes on when its entry is answered, and is given up on ERR. The layout of
frames where the spec gives none is the model's choice (log entry 23, DESIGN CHOICE). -/
def Obligations.RestoresAndAnswers : Prop :=
  (∀ (s : State) (c : Nat),
    let co := s.cohortAt c
    let qk := co.queue
    let there := s.placeOn (qk / 64) (s.queueAt qk).launch.fusel1 co.lintel.isSome (co.teams.map s.needOf)
    ((co.status ≠ .ready ∨ (s.queueAt qk).bound = false ∨ s.atHead c = false) → exec (.cohortRestore c) s = .next s) ∧
    (co.status = .ready → (s.queueAt qk).bound = true → s.atHead c = true →
      (s.restoreWaits c = true → exec (.cohortRestore c) s = .next (s.oweOnce (.cohortRestore c))) ∧
      (s.restoreWaits c = false →
        (there = none → exec (.cohortRestore c) s = .next ((s.passOver qk co.crec.toNat).oweOnce (.placementDecision (qk / 64)))) ∧
        (∀ cl cores, there = some (cl, cores) → co.teams.Nodup → co.teams.length = cores.length →
          (∃ t k, t ∈ co.teams ∧ k ∈ (s.teamAt t).gangs ∧ (s.gangAt k).ended = false) →
          (∀ k ∈ s.gangsOf c ++ co.lintel.toList, (s.gangAt k).hold ≠ .exiting) →
          ∃ t, exec (.cohortRestore c) s = .next t ∧ (t.cohortAt c).status = .running ∧ (t.cohortAt c).cluster = cl ∧
            (t.cohortAt c).frames = [] ∧ ∀ p ∈ co.teams.zip cores, (t.teamAt p.1).status = .running ∧ (t.teamAt p.1).core = p.2)))) ∧
  (∀ (s : State) (c : Nat),
    let co := s.cohortAt c
    let open_ := (co.status = .faulted ∨ co.status = .saving) ∧ s.allAnswered c = true
    (¬ open_ → exec (.faultAnswered c) s = .next s) ∧
    (∀ p, open_ → co.posted.find? (fun p => (s.entryAns (queueDie co.queue) p.entry).2) = some p →
      exec (.faultAnswered c) s = .next ((s.setCohortAt c { co with posted := [] }).stopFault (s.faultTeam c p.entry) p.va)) ∧
    (open_ → (∀ p ∈ co.posted, (s.entryAns (queueDie co.queue) p.entry).2 = false) →
      (co.frames = [] → exec (.faultAnswered c) s = .next (s.goOn c)) ∧
      (co.frames ≠ [] → ∃ t, exec (.faultAnswered c) s = .next t ∧ t = { s with cohorts := t.cohorts, queues := t.queues, due := t.due } ∧
        t.cohortAt c = { co with status := .ready, posted := [] } ∧ .placementDecision (queueDie co.queue) ∈ t.due ∧
        (t.queueAt co.queue).heads =
          (s.recCtl co.queue co.crec.toNat % 4, co.crec.toNat, some c) :: (s.queueAt co.queue).heads))) ∧
  (∀ (s : State) (id : Nat) (f : EngFault), s.engFaults.find? (·.id == id) = some f →
    let a := s.entryAns (queueDie f.queue) f.entry
    let u := { s with engFaults := s.engFaults.filter (·.id ≠ id) }
    ((f.entry = 0 ∨ a.1 = false) → exec (.engineFaultAnswered id) s = .next s) ∧
    (f.entry ≠ 0 → a.1 = true → a.2 = false → exec (.engineFaultAnswered id) s = .next (u.owe [f.go])) ∧
    (f.entry ≠ 0 → a.1 = true → a.2 = true → exec (.engineFaultAnswered id) s = .next (u.engineAbandon f)))

/-- R323: a die tells the other dies its free team slots, and firmware those of its launches for other modules; a record that has waited MIGT at
the head of its ring leaves for the die that advertises the most; it is enqueued there, or goes back to the head it came from. Where it may
leave the module, whether another module takes it is free (log entry 47, DESIGN CHOICE). -/
def Sys2Proof.Claims.AdvertsAndMigration : Prop :=
  (∀ (s : State) (die : Nat),
    (∃ t, exec (.freeSlotAdvert die false) s = .next t ∧ t = { s with dies := t.dies } ∧
      ∀ e, e < 4 → e ≠ die → t.dieAt e = { s.dieAt e with advert := (t.dieAt e).advert } ∧
        KMap.get 0 (t.dieAt e).advert die = s.freeSlots die) ∧
    ∃ l, exec (.freeSlotAdvert die true) s = .next { s with away := s.away ++ l } ∧
      ∀ p ∈ s.queues, p.1 / 64 = die → p.2.bound = true → p.2.refused = false → Away.advert p.2.lrec die (s.freeSlots die) ∈ l) ∧
  (∀ (s : State) (die slot pri : Nat),
    let qk := 64 * die + slot
    let q := s.queueAt qk
    let due := q.bound = true ∧ q.headAt.getD pri 0 + micros (s.dieAt die).migt ≤ s.clock
    (s.headOf qk pri = none → exec (.migrationTrigger die slot pri) s = .next s) ∧
    (∀ h, s.headOf qk pri = some h →
      let stay := fun (u : State) => match u.migrateTo qk (u.headGangs qk h) with
        | none => u
        | some dst =>
          (((u.takeHead qk pri h.1).unpin qk h.1).wlcRetry qk).sendRecord qk dst h
      let u := { s with fresh := s.fresh + 1 }
      (¬ due → exec (.migrationTrigger die slot pri) s = .next s) ∧
      (due → s.mayLeave qk h = false → exec (.migrationTrigger die slot pri) s = .next (stay s)) ∧
      (due → s.mayLeave qk h = true → exec (.migrationTrigger die slot pri) s =
        .next (if Config.freeChoice s.fresh % 2 = 1 then u.leaveModule qk pri h else stay u))) ∧
    (∀ r, (∀ h ∈ q.heads, h.1 = pri → h.2.1 ≠ r) → s.ringHead qk pri = some r →
      ((s.takeHead qk pri r).queueAt qk).head = setNth q.head pri ((q.head.getD pri 0 + 1) % 2 ^ 32) ∧
      ((s.takeHead qk pri r).queueAt qk).headAt = setNth q.headAt pri s.clock)) ∧
  (∀ (s : State) (qk dst : Nat) (h : Nat × Option Nat),
    s.sendRecord qk dst h =
      { s with moving := s.moving ++ [(dst, h.1, qk)] }.owe [.migrationReceive (dst / 64) (dst % 64) h.1 h.2]) ∧
  (∀ (v : State) (die slot r sender : Nat) (saved : Option Nat),
    let qk := 64 * die + slot
    v.moving.find? (fun m => m.1 == qk && m.2.1 == r) = some (qk, r, sender) →
    let s := { v with moving := v.moving.erase (qk, r, sender) }
    let q := s.queueAt qk
    let pri := s.recCtl sender r % 4
    let room := q.bound = true ∧ q.key = (s.queueAt sender).key ∧ (q.tail.getD pri 0 + 2 ^ 32 - q.head.getD pri 0) % 2 ^ 32 ≠ 2 ^ q.rs.getD pri 0
    (¬ room → exec (.migrationReceive die slot r saved) v =
        .next ((s.pushHead sender pri r saved).oweOnce (.placementDecision (queueDie sender))) ∧
      ((s.pushHead sender pri r saved).queueAt sender).heads = (pri, r, saved) :: (s.queueAt sender).heads) ∧
    (room → ∃ u, exec (.migrationReceive die slot r saved) v =
        .next ((u.enqueue qk (q.index r) pri).oweOnce (.placementDecision die)) ∧
      (saved = none → u = s) ∧ ∀ c, saved = some c → u = s.setCohortAt c { s.cohortAt c with queue := qk }))

/-- R208, R325, R328, R329, R341: the watchdog acts on a team that has held its core for T1, T2 or T3; two quiescent waves in a row answer QDONE or
flush the lists that hold items; the flush timer launches a list whose oldest item has waited; a shoot-down removes the
context's entries in its range on every die, makes every store visible, and acknowledges its sequence number. -/
def Sys2Proof.Claims.DispatcherTimers : Prop :=
  (∀ (s : State) (t : Nat),
    let q := s.queueOf t
    let held := fun (n : Nat) => s.heldFor t n = true
    let qk := (s.cohortAt (s.teamAt t).cohort).queue
    (¬ held q.t1 → exec (.watchdogT1 t) s = .next s) ∧ (held q.t1 → exec (.watchdogT1 t) s = .next (s.preempt qk)) ∧
    (¬ held q.t2 → exec (.watchdogT2 t) s = .next s) ∧
    (held q.t2 → exec (.watchdogT2 t) s = .next (((s.kill (s.teamAt t).cohort true none []).post
      { fault := false, queue := qk, entry := svcEntry 0 4 (s.teamAt t).crec.toNat 0 0 0 0 0 }).oweOnce (.placementDecision (qk / 64)))) ∧
    (¬ held q.t3 → exec (.watchdogT3 t) s = .next s) ∧
    (held q.t3 → exec (.watchdogT3 t) s = .next ((s.watchKill t).retireCore (s.teamAt t).core)) ∧
    (∀ n, held n ↔ q.bound = true ∧ (s.teamAt t).status = .running ∧
      ((s.cohortAt (s.teamAt t).cohort).status = .running ∨ (s.cohortAt (s.teamAt t).cohort).status = .saving) ∧
      (s.cohortAt (s.teamAt t).cohort).pixel = false ∧ (s.teamAt t).since + 1750 * n ≤ s.clock)) ∧
  (∀ (s : State) (launch : Nat),
    let q := KMap.get {} s.qdt launch
    let w := s.waveZero launch
    let set := fun (b : Bool) => { w.2 with qdt := KMap.set {} s.qdt launch { q with zero := b } }
    -- what other modules count is free (log entry 58, DESIGN CHOICE)
    (s.zeroHere launch = false → w = (false, s)) ∧
    (s.zeroHere launch = true → s.runsAway launch = false → w = (q.sent == q.rcvd, s)) ∧
    (s.zeroHere launch = true → s.runsAway launch = true → w.2 = { s with fresh := s.fresh + 1 }) ∧
    (s.queuesOf launch = [] → exec (.qdtWave launch) s = .next s) ∧
    (s.queuesOf launch ≠ [] → w.1 = false → exec (.qdtWave launch) s = .next (set false)) ∧
    (s.queuesOf launch ≠ [] → w.1 = true → q.zero = false → exec (.qdtWave launch) s = .next (set true)) ∧
    (s.queuesOf launch ≠ [] → w.1 = true → q.zero = true →
      ((set false).fullLists launch = [] → exec (.qdtWave launch) s = .next ((set false).answerQdone launch)) ∧
      ((set false).fullLists launch ≠ [] → exec (.qdtWave launch) s = .next (((set false).fullLists launch).foldl
        (fun s p => (s.wlcTry p.1 p.2.1 p.2.2 true 256).oweOnce (.placementDecision (p.1 / 64))) (set false))))) ∧
  (∀ (s : State) (die slot list : Nat),
    let qk := 64 * die + slot
    let tab := (s.queueAt qk).launch.wltab
    ((tab = 0 ∨ KMap.get [] (s.queueAt qk).appended list = []) → exec (.wlcFlushTimer die slot list) s = .next s) ∧
    (∀ c r, tab ≠ 0 → KMap.get [] (s.queueAt qk).appended list = c :: r →
      (s.clock < c + (s.wlist qk tab list).flush → exec (.wlcFlushTimer die slot list) s = .next s) ∧
      (c + (s.wlist qk tab list).flush ≤ s.clock → exec (.wlcFlushTimer die slot list) s =
        .next ((s.wlcTry qk tab list true 256).oweOnce (.placementDecision die))))) ∧
  (∀ (s : State) (die slot : Nat),
    let q := s.queueAt (64 * die + slot)
    let n := fun (off len : Nat) => (s.vaNat (physXl die) (q.ctx.blk + off) len).getD 0
    ((q.bound = false ∨ n 72 4 = n 76 4) → exec (.shootdownRequest die slot) s = .next s) ∧
    (q.bound = true → n 72 4 ≠ n 76 4 → ∃ u : State, exec (.shootdownRequest die slot) s =
        .next (u.vaRelease (physXl die) 6 (q.ctx.blk + 76) 4 (n 72 4)) ∧ u.log = [] ∧ (∀ a, u.byteHome a = s.byteHome a) ∧
      ∀ e x, e < 4 → (x ∈ (u.dieAt e).tlb ↔ x ∈ (s.dieAt e).tlb ∧ ¬ (x.ctxn = q.ctx.ctxn ∧
        (n 64 8 = 0 ∨ (x.base < n 48 9 + n 64 8 ∧ n 48 9 < x.base + 2 ^ x.bits))))))

end
section

open Sys2Proof Sys2Proof.Machine Sys2Proof.Claims

/-- R385 to R391, R394, R397: the kiln's two timers drain the next unit in rotation; the scan starts at the drain instant,
and PASS becomes that instant when it passes; a unit that fails is shuttered; a drain of 10 ms is given up. A consumed error
kills and relaunches its consumer's cohort, and retires the failing function. Which of a cluster's three units failed is free
(log entry 87, DESIGN CHOICE). -/
def Obligations.KilnAndErrors : Prop :=
  (∀ (s : State) (die : Nat),
    let d := s.dieAt die
    (d.corePass = none → ∀ c, s.nextCore die = some c →
      ((∃ p, d.clusPass = some p ∧ p.unit = clusterOf c) → exec (.kilnCoreTimer die) s = .next (s.oweOnce (.kilnCoreTimer die))) ∧
      ((∀ p, d.clusPass = some p → p.unit ≠ clusterOf c) → exec (.kilnCoreTimer die) s =
        .next ((s.setDieAt die { d with corePass := some { unit := c, start := s.clock } }).drain (s.passCores c)))) ∧
    ((d.corePass ≠ none ∨ s.nextCore die = none) → exec (.kilnCoreTimer die) s = .next s) ∧
    exec (.kilnClusterTimer die) s = .next ((s.setDieAt die { d with clusDue := true }).kilnNext die)) ∧
  (∀ (s : State) (die : Nat) (matrix : Bool),
    let d := s.dieAt die
    let pass := if matrix then d.clusPass else d.corePass
    let put := fun (x : Option Kiln) => if matrix then { d with clusPass := x } else { d with corePass := x }
    (pass = none → exec (.kilnDrainComplete die matrix) s = .next s ∧ exec (.kilnDrainTimeout die matrix) s = .next s ∧
      ∀ ok, exec (.kilnScanComplete die matrix ok) s = .next s) ∧
    (∀ p, pass = some p →
      ((p.scanning = true ∨ s.drainedEmpty matrix p = false) → exec (.kilnDrainComplete die matrix) s = .next s) ∧
      (p.scanning = false → s.drainedEmpty matrix p = true → exec (.kilnDrainComplete die matrix) s =
        .next (s.setDieAt die (put (some { p with scanning := true, instant := s.time })))) ∧
      ((p.scanning = true ∨ s.clock < p.start + 17500000) → exec (.kilnDrainTimeout die matrix) s = .next s) ∧
      (p.scanning = false → p.start + 17500000 ≤ s.clock → ∃ u : State, exec (.kilnDrainTimeout die matrix) s =
          .next (u.oweOnce (.placementDecision die)) ∧
        -- a cohort whose save the drain began goes on in place (log entry 113, DEDUCED)
        (matrix = true → u = ((s.setDieAt die { d with
          clusPass := none, clusAsk := if p.extra then d.clusAsk ++ [p.unit] else d.clusAsk }).undrainMx p.unit).undrainSaves
            ((s.mxAt p.unit).prog.toList.map fun k => (s.teamAt (s.gangAt k).team).cohort)) ∧
        (matrix = false → let v := s.setDieAt die { d with corePass := none, coreRot := p.unit % 96 }
          u = ((v.undrain (v.passCores p.unit)).undrainSaves
            (((v.passCores p.unit).flatMap v.teamsOn).map fun t => (v.teamAt t).cohort).eraseDups).kilnNext die)) ∧
      (∀ ok, p.scanning = false → exec (.kilnScanComplete die matrix ok) s = .next s) ∧
      (p.scanning = true → matrix = false → exec (.kilnScanComplete die matrix true) s = .next
        ((((((s.setPass die (4 * p.unit) p.instant).logEvent die 2 p.unit 0 0 0).setCoreAt p.unit {}).dropL1
          (fun c => c == p.unit || ((s.passCores p.unit).length != 1 && c == 8 * clusterOf p.unit)) fun _ => true).undrain
          (s.passCores p.unit)).endPass die false p)) ∧
      (p.scanning = true → matrix = false → exec (.kilnScanComplete die matrix false) s = .next
        ((((s.logEvent die 3 p.unit 0 (s.passOf die (4 * p.unit)) 0).undrain ((s.passCores p.unit).filter (· ≠ p.unit))).shutCore
          p.unit).endPass die false p)) ∧
      (p.scanning = true → matrix = true → ∃ u : State, exec (.kilnScanComplete die matrix true) s =
        .next ((u.undrainMx p.unit).endPass die true p) ∧
          ∀ k, 1 ≤ k → k ≤ 3 → KMap.get 0 (u.dieAt die).passes (4 * (8 * p.unit) + k) = p.instant) ∧
      (p.scanning = true → matrix = true → ∃ (u : State) (k : Nat), k < 3 ∧ exec (.kilnScanComplete die matrix false) s =
        .next ((u.shutCluster p.unit (k + 1)).endPass die true p)))) ∧
  (∀ (s : State) (core : Nat), (s.coreAt core).shut = false →
    ∃ u, s.shutCore core = u ∧ (u.coreAt core).shut = true ∧ (u.coreAt core).drained = false ∧ u.kfail = (s.kfail + 1) % 2 ^ 32 ∧
      u.boot.shutNow = s.boot.shutNow ++ [core]) ∧
  (∀ (s : State) (c : Nat) (place : ErrorPlace),
    let co := s.cohortAt c
    -- which of a cluster's units has failed is free (log entry 87, DESIGN CHOICE)
    ∃ (k : Nat) (u : State), (∀ cl, place = .cluster cl → 1 ≤ k ∧ k ≤ 3 ∧ u = { s with fresh := s.fresh + 1 }) ∧
      ((∀ cl, place ≠ .cluster cl) → u = s) ∧
      let e := errorEntry place k
      ((s.queueAt co.queue).bound = true → co.teams ≠ [] → exec (.uncorrectableErrorConsumed c place) s =
        .next (((u.dataKill c e).retirePlace place k).oweOnce (.placementDecision (queueDie co.queue)))) ∧
      (((s.queueAt co.queue).bound = false ∨ co.teams = []) → exec (.uncorrectableErrorConsumed c place) s =
        .next ((u.logEvent (errorDie place) 5 e.1 e.2.1 e.2.2 0).retirePlace place k)))

/-- R369 to R379: host queues, BAR2, peer reads and the CXL link. A tail beyond the ring sets BADDB and stops the queue; a
stopped queue begins no entry; an entry whose phase bit is not the expected one is read 16 times and then sets STALE, with
the function's MSI-X message. A posted write that BAR2 admits changes exactly its bytes, any other is logged and changes
none; a read completes with the bytes or with Unsupported Request; an atomic is never supported. Bytes that the host reads
behind a link that is down are free (log entry 84, DESIGN CHOICE). -/
def Obligations.HostPort : Prop :=
  (∀ (s : State) (fn q tail : Nat),
    let h := s.hqAt fn q
    (h.qlog = 0 → exec (.hqTailWrite fn q tail) s = .next s) ∧
    (h.qlog ≠ 0 → 2 ^ h.qlog ≤ tail → exec (.hqTailWrite fn q tail) s = .next (s.setHq fn q { h with baddb := true })) ∧
    (h.qlog ≠ 0 → tail < 2 ^ h.qlog → (h.stale = true ∨ h.baddb = true) →
      exec (.hqTailWrite fn q tail) s = .next (s.setHq fn q { h with lt := tail })) ∧
    (h.qlog ≠ 0 → tail < 2 ^ h.qlog → h.stale = false → h.baddb = false →
      exec (.hqTailWrite fn q tail) s = .next ((s.setHq fn q { h with lt := tail }).hqGo fn q))) ∧
  (∀ (s : State) (fn q : Nat), s.hqGo fn q =
    if (s.hqAt fn q).reads = 0 ∧ s.boot.opened = true then s.hqDrain fn q (2 ^ (s.hqAt fn q).qlog + 1) else s) ∧
  (∀ (s : State) (fn q n : Nat),
    let h := s.hqAt fn q
    let e := s.hqEntry fn q
    (h.reads = 0 → (h.head = h.lt ∨ h.stale = true ∨ h.baddb = true) → s.hqDrain fn q n = s) ∧
    ((h.reads ≠ 0 ∨ h.head ≠ h.lt ∧ h.stale = false ∧ h.baddb = false) → 0 < n →
      ((e.1.headD 0#8).getLsbD 0 ≠ h.phase → h.reads < 15 → s.hqDrain fn q n =
        (e.2.setHq fn q { h with reads := h.reads + 1 }).owe [.hqEntryReread fn q]) ∧
      ((e.1.headD 0#8).getLsbD 0 ≠ h.phase → 15 ≤ h.reads → s.hqDrain fn q n =
        { e.2.setHq fn q { h with stale := true, reads := 0 } with hostOut := e.2.hostOut ++ [HostOut.queueError fn q h.head 1, HostOut.msix fn] }) ∧
      ((e.1.headD 0#8).getLsbD 0 = h.phase → s.hqDrain fn q n =
        State.hqDrain { e.2.setHq fn q { h with
          head := (h.head + 1) % 2 ^ h.qlog, phase := if (h.head + 1) % 2 ^ h.qlog = 0 then !h.phase else h.phase, reads := 0 } with
            cmds := e.2.cmds ++ [(fn, q, e.1)] } fn q (n - 1)))) ∧
  (∀ (s : State) (fn q x : Nat),
    let h := s.hqAt fn q
    (h.reads = 0 → exec (.hqEntryReread fn q) s = .next s) ∧
    (h.reads ≠ 0 → exec (.hqEntryReread fn q) s = .next (s.hqDrain fn q (2 ^ h.qlog + 1))) ∧
    (let k := { h with stale := h.stale && !x.testBit 0, baddb := h.baddb && !x.testBit 1 }
     ((k.stale = true ∨ k.baddb = true) → exec (.hqStatusClear fn q x) s = .next (s.setHq fn q k)) ∧
     (k.stale = false → k.baddb = false → exec (.hqStatusClear fn q x) s = .next ((s.setHq fn q k).hqGo fn q))) ∧
    -- a value that R372 does not give leaves a free one (log entry 32, DESIGN CHOICE)
    ((x % 32 = 0 ∨ 4 ≤ x % 32 ∧ x % 32 ≤ 16) →
      exec (.hqQlogWrite fn q x) s = .next (s.setHq fn q { h with qlog := x % 32, head := 0, lt := 0, phase := true, reads := 0 })) ∧
    (¬ (x % 32 = 0 ∨ 4 ≤ x % 32 ∧ x % 32 ≤ 16) → exec (.hqQlogWrite fn q x) s = .next ({ s with fresh := s.fresh + 1 }.setHq fn q
      { h with qlog := Config.freeChoice s.fresh % 32, head := 0, lt := 0, phase := true, reads := 0 })) ∧
    ∀ body, exec (.hqCompletion fn q x body) s = .next { s with hostOut := s.hostOut ++ [HostOut.completion fn q x body, HostOut.msix fn] }) ∧
  (∀ (s : State) (fn rid off : Nat) (body : List Byte) (ro : Bool),
    let e := Instr.inboundPostedWrite fn rid off body ro
    -- a write waits for bytes that a held atomic locks, and behind an earlier one of its requester that waits (R110, R371); with relaxed
    -- ordering, to pages that are not ordered-inbound, it may pass (R232)
    let behind := ∃ w, s.inbound.find? (fun w => requesterOf w == some rid) = some w ∧ w ≠ e
    let pas := s.barPas fn off body.length { w := true }
    let wait := fun (s : State) => { s with inbound := if e ∈ s.inbound then s.inbound else s.inbound ++ [e] }.owe [e]
    let may := ro = true ∧ s.barOi fn off body.length = false
    ((behind ∧ ¬ may ∨ ¬ behind ∧ ∃ l, pas = some l ∧ s.lockedPas l = true) → exec e s = .next (wait s)) ∧
    (behind → may → let u := { s with fresh := s.fresh + 1 }
      exec e s = .next (if Config.freeChoice s.fresh % 2 = 1 then u.inboundDo fn off body e else wait u)) ∧
    (¬ behind → pas = none → exec e s = .next ({ s with inbound := s.inbound.erase e }.hostError off)) ∧
    (∀ pas, ¬ behind → s.barPas fn off body.length { w := true } = some pas → s.lockedPas pas = false → pas.Nodup →
      (∀ a ∈ pas, s.portDown a = false) →
      ∃ t, exec (.inboundPostedWrite fn rid off body ro) s = .next t ∧ t.gangs = s.gangs ∧ t.inbound = s.inbound.erase e ∧
        (∀ (i a : Nat) (b : Byte), pas[i]? = some a → body[i]? = some b → t.byteHome a = b) ∧ ∀ a, a ∉ pas → t.byteHome a = s.byteHome a)) ∧
  (∀ (s : State) (fn off n : Nat),
    (s.barPas fn off n { r := true } = none → exec (.inboundRead fn off n) s =
      .next { s.hostError off with hostOut := s.hostOut ++ [HostOut.readDone fn off none] }) ∧
    (∀ pas, s.barPas fn off n { r := true } = some pas → (∀ a ∈ pas, s.portDown a = false) → exec (.inboundRead fn off n) s =
      .next { s with hostOut := s.hostOut ++ [HostOut.readDone fn off (some (pas.map s.byteHome))] }) ∧
    (∀ pas, s.barPas fn off n { r := true } = some pas → (∃ a ∈ pas, s.portDown a = true) → 
      let b := s.freeBytes n
      let out := s.hostOut ++ [HostOut.readDone fn off (some b.1)]
      b.1.length = n ∧ exec (.inboundRead fn off n) s = .next { b.2 with hostOut := out }) ∧
    exec (.inboundAtomic fn off) s = .next { s with hostOut := s.hostOut ++ [HostOut.unsupported fn off] } ∧
    exec (.cxlLinkDown n) s = .next (s.setDieAt n { s.dieAt n with cxlDown := true })) ∧
  (∀ (s : State) (k id : Nat),
    (∀ b, (∀ r ∈ s.pcieOut, r.id = id → r.gang ≠ k) → exec (.pReadCompletion k id b) s = .next s) ∧
    (∀ r b, s.pcieOut.find? (fun r => r.id == id && r.gang == k && r.body.isNone) = some r →
      let u := { s with pcieOut := s.pcieOut.filter (·.id ≠ id) }.setGangAt k { s.gangAt k with pios := (s.gangAt k).pios.filter (· ≠ id) }
      (∀ bs, b = some bs → exec (.pReadCompletion k id b) s = .next ((u.answer (id % 2 ^ 20) bs).endCheck k)) ∧
      (b = none → exec (.pReadCompletion k id b) s = .next (((u.hostError r.addr).answer (id % 2 ^ 20) (List.replicate r.len 0xFF#8)).endCheck k))))

/-- R394, R399 to R405: a module reset gives the state of reset with what stands in flash and at stage 1 with M0 extended by
the image that verifies, copy A before copy B, and halts when neither does; each later stage runs only in its turn and
extends its own register; power and heat set THR, and a trip stops the module. The digests of M2 and M3 are free (log entry
53, DESIGN CHOICE). -/
def Obligations.BootAndPower : Prop :=
  (∀ (s : State) (a b : Option (BitVec 384)),
    ∃ t, exec (.moduleReset a b) s = .next t ∧ t.mem = State.reset.mem ∧ t.gangs = [] ∧ t.teams = [] ∧ t.queues = State.reset.queues ∧
      t.clock = State.reset.clock ∧ t.boot.opened = false ∧ t.ways = s.ways ∧ t.boot.trips = s.boot.trips ∧ t.boot.before = s.boot.now ∧
      t.boot.shut1 = s.boot.shutNow ∧ t.boot.shut2 = s.boot.shut1 ∧ (∀ d, d < 4 → (t.dieAt d).fpool = (s.dieAt d).fpool) ∧
      (a = none → b = none → t.boot.halted = true ∧ t.boot.stage = 0) ∧
      (∀ d, (a = some d ∨ (a = none ∧ b = some d)) → t.boot.halted = false ∧ t.boot.stage = 1 ∧ t.boot.copyB = a.isNone ∧
        t.boot.meas[0]? = some (sha384 0#384 d))) ∧
  (∀ (s : State),
    (∀ a, (s.boot.stage ≠ 1 ∨ s.boot.halted = true) → exec (.bootStage1 a) s = .next s) ∧
    (∀ l, (s.boot.stage ≠ 2 ∨ s.boot.halted = true) → exec (.bootStage2 l) s = .next s) ∧
    ((s.boot.stage ≠ 3 ∨ s.boot.halted = true) → exec .bootStage3 s = .next s) ∧
    (s.boot.halted = false →
      (s.boot.stage = 1 → exec (.bootStage1 none) s = .next { s with boot := { s.boot with halted := true } } ∧
        ∀ d, exec (.bootStage1 (some d)) s = .next { s with boot := { s.boot.extend 1 d with stage := 2 } }) ∧
      (s.boot.stage = 2 → ∃ t, exec (.bootStage2 []) s = .next t ∧ t.mem = s.mem ∧ t.gangs = s.gangs ∧ t.queues = s.queues ∧
        t.boot.meas.length = s.boot.meas.length ∧ t.boot.halted = false ∧ t.boot.stage = 3 ∧
          ∀ d c, d < 4 → (t.dieAt d).fwcore = some c → 96 * d ≤ c ∧ c < 96 * d + 96 ∧ (t.coreAt c).shut = false) ∧
      (s.boot.stage = 3 → ∃ (t : State) (x : BitVec 384), exec .bootStage3 s = .next t.openQueues ∧ t = { s with fresh := t.fresh, boot := t.boot } ∧
        t.boot = { s.boot.extend 3 x with stage := 4, opened := true } ∧
        -- a queue whose latched tail stands at HEAD takes nothing
        ((∀ fn q, (s.hqAt fn q).reads = 0 ∧ (s.hqAt fn q).head = (s.hqAt fn q).lt) → t.openQueues = t)))) ∧
  (∀ (s : State) (w : Nat),
    exec (.powerWindow w) s = .next { s with pnow := w % 65536, thr := decide (s.plim < w) } ∧
    exec .junctionThrottle s = .next { s with hot := true } ∧ exec .junctionBelow100C s = .next { s with hot := false } ∧
    (∀ i ∈ [Instr.thermalTrip, .electricalTrip], ∃ t, exec i s = .next t ∧ t = { s with boot := t.boot } ∧
      t.boot = { s.boot with tripped := true, trips := s.boot.trips + 1 } ∧ step t = .fault .tripped))

end

namespace Sys2Proof.Claims

open Sys2Proof.Machine

/-! ## Rounding (R39, R40, R48, R53, R60) -/

/-- The number that sign, magnitude and exponent give. -/
def IsNum (n : Bool) (m : Nat) (e : Int) (x : ℝ) : Prop := x = (if n then -1 else 1) * (m : ℝ) * (2 : ℝ) ^ e

/-- The pattern is a finite value of the format (R39). -/
def IsValue (f : FFmt) (p : Nat) (x : ℝ) : Prop := ∃ n m e, f.decode p = .num n m e ∧ IsNum n m e x

/-- The largest finite value (R39) and the unit in its last place. -/
def IsLargest (f : FFmt) (big ulp : ℝ) : Prop :=
  ulp = (2 : ℝ) ^ ((f.top : Int) - 1 - f.bias - f.fb) ∧ big = (2 ^ (f.fb + 1) - 1) * ulp

/-- A pattern and flags are x rounded once under the mode (R48, R53, R60), in a format with infinities. -/
def Rounded (f : FFmt) (mode : RMode) (x : ℝ) (r : Nat × DWord) : Prop :=
  (f.decode r.1).isNan = false ∧ r.2.getLsbD 0 = false ∧ r.2.getLsbD 1 = false ∧
  -- a finite result is the value that the mode picks
  (∀ v, IsValue f r.1 v →
    0 ≤ v * x ∧ (r.2.getLsbD 4 = true ↔ v ≠ x) ∧
    match mode with
    | .rn => ∀ p w, IsValue f p w → |v - x| ≤ |w - x| ∧ (|w - x| = |v - x| → w ≠ v → r.1 % 2 = 0)
    | .rz => |v| ≤ |x| ∧ ∀ p w, IsValue f p w → |w| ≤ |x| → |w| ≤ |v|
    | .ru => x ≤ v ∧ ∀ p w, IsValue f p w → x ≤ w → v ≤ w
    | .rd => v ≤ x ∧ ∀ p w, IsValue f p w → w ≤ x → w ≤ v
    | .sr _ => True) ∧
  -- an infinite one overflows, and only where the mode says so
  (∀ big ulp, IsLargest f big ulp →
    ((∃ n, f.decode r.1 = .inf n) ↔
      match mode with
      | .rn => big + ulp / 2 ≤ |x|
      | .rz => False
      | .ru => big < x
      | .rd => x < -big
      | .sr _ => ∃ n, f.decode r.1 = .inf n)) ∧
  (∀ n, f.decode r.1 = .inf n → (n = true ↔ x < 0) ∧ r.2.getLsbD 2 = true ∧ r.2.getLsbD 4 = true)

/-- i is x rounded to an integer under the mode (R48). -/
def RoundedInt (mode : RMode) (x : ℝ) (i : Int) : Prop :=
  match mode with
  | .rn => |x - i| ≤ 1 / 2 ∧ (|x - i| = 1 / 2 → i % 2 = 0)
  | .rz => if 0 ≤ x then i = ⌊x⌋ else i = ⌈x⌉
  | .ru => i = ⌈x⌉
  | .rd => i = ⌊x⌋
  | .sr _ => i = ⌊x⌋ ∨ i = ⌈x⌉

/-- The formats of the vector core (R127). -/
def coreFmts : List FFmt := [fmtF32, fmtF16, fmtBF16]

end Sys2Proof.Claims

section

open Sys2Proof Sys2Proof.Machine Sys2Proof.Claims

/-- R39, R48, R53, R60, R129, R133 to R135: on finite operands the operations give the exact result, rounded once under the
mode. The series for FEXP2 is the model's choice (log entry 24, DEDUCED); only its exact powers are stated. -/
def Obligations.FloatResultsAreRounded : Prop :=
  (∀ f ∈ coreFmts, ∀ (mode : RMode) (a b c : Nat) (x y z : ℝ), IsValue f a x → IsValue f b y → IsValue f c z →
    Rounded f mode (x + y) (f.add mode a b) ∧ Rounded f mode (x - y) (f.sub mode a b) ∧ Rounded f mode (x * y) (f.mul mode a b) ∧
    Rounded f mode (x * y + z) (f.fma mode a b c) ∧ (y ≠ 0 → Rounded f mode (x / y) (f.div mode a b)) ∧
    (0 ≤ x → Rounded f mode (Real.sqrt x) (f.sqrt mode a)) ∧ (x ≠ 0 → Rounded f mode x⁻¹ (f.rcp mode a)) ∧
    (0 < x → Rounded f mode (Real.sqrt x)⁻¹ (f.rsqrt mode a)) ∧
    (∃ i : Int, RoundedInt mode x i ∧ IsValue f (f.integral mode a).1 i ∧
      (f.decode (f.integral mode a).1).neg = (f.decode a).neg ∧ (f.integral mode a).2 = flagIf (decide ((i : ℝ) ≠ x)) flagNX) ∧
    (∀ (i : Int) (p : Nat), x = i → IsValue f p ((2 : ℝ) ^ i) → f.exp2 mode a = (p % 2 ^ f.width, 0#64))) ∧
  (∀ f ∈ [fmtF16, fmtBF16], ∀ (mode : RMode) (a b c : Nat) (x0 x1 y0 y1 z : ℝ), IsValue f a x0 → IsValue f (a / 65536) x1 →
    IsValue f b y0 → IsValue f (b / 65536) y1 → IsValue fmtF32 c z → Rounded fmtF32 mode (x0 * y0 + x1 * y1 + z) (dot2 f mode a b c))

/-- R41, R129 to R132, R134: zeros, infinities and NaNs of the vector operations. -/
def FloatSpecials : Prop :=
  ∀ f ∈ coreFmts, ∀ (mode : RMode) (a b c : Nat),
    let x := f.decode a
    let y := f.decode b
    let z := f.decode c
    let bad := (f.nan, flagNV)
    -- NaN operands
    ((x.isNan = true ∨ y.isNan = true) → let r := (f.nan, flagIf (x.isSnan || y.isSnan) flagNV)
      f.add mode a b = r ∧ f.sub mode a b = r ∧ f.mul mode a b = r ∧ f.div mode a b = r) ∧
    ((x.isNan = true ∨ y.isNan = true ∨ z.isNan = true) → (f.fma mode a b c).1 = f.nan) ∧
    (x.isNan = true → let r := (f.nan, flagIf x.isSnan flagNV)
      f.rcp mode a = r ∧ f.rsqrt mode a = r ∧ f.sqrt mode a = r ∧ f.exp2 mode a = r ∧ f.log2 mode a = r ∧ f.integral mode a = r ∧
      ∀ cosine free, f.turn mode cosine free a = r) ∧
    -- invalid operations
    (∀ n, x = .inf n → y = .inf (!n) → f.add mode a b = bad) ∧ (∀ n, x = .inf n → y = .inf n → f.sub mode a b = bad) ∧
    (x.isZero = true → y.isInf = true → f.mul mode a b = bad ∧ f.mul mode b a = bad ∧
      (f.fma mode a b c).1 = f.nan ∧ (f.fma mode a b c).2.getLsbD 0 = true) ∧
    (x.isZero = true → y.isZero = true → f.div mode a b = bad) ∧ (x.isInf = true → y.isInf = true → f.div mode a b = bad) ∧
    (∀ m e, x = .num true m e → m ≠ 0 → f.sqrt mode a = bad ∧ f.rsqrt mode a = bad ∧ f.log2 mode a = bad) ∧
    -- zeros
    (∀ (n n' : Bool) (m m' : Nat) (e e' : Int), x = .num n m e → y = .num n' m' e' →
      (m = 0 → m' = 0 → f.add mode a b = (f.signed (if n = n' then n else mode == .rd) 0, 0#64)) ∧
      ((m = 0 ∨ m' = 0) → f.mul mode a b = (f.signed (n != n') 0, 0#64)) ∧
      (m = m' → m ≠ 0 → e = e' → n ≠ n' → f.add mode a b = (f.signed (mode == .rd) 0, 0#64)) ∧
      (m ≠ 0 → m' = 0 → f.div mode a b = (f.signed (n != n') f.infMag, flagDZ))) ∧
    -- the table of R134
    (∀ n e, x = .num n 0 e →
      f.rcp mode a = (f.signed n f.infMag, flagDZ) ∧ f.rsqrt mode a = (f.signed n f.infMag, flagDZ) ∧ f.sqrt mode a = (f.signed n 0, 0#64) ∧
      f.exp2 mode a = (f.bias * 2 ^ f.fb, 0#64) ∧ f.log2 mode a = (f.signed true f.infMag, flagDZ) ∧
      ∀ free, f.turn mode false free a = (f.signed n 0, 0#64) ∧ f.turn mode true free a = (f.bias * 2 ^ f.fb, 0#64)) ∧
    (∀ n, x = .inf n →
      f.rcp mode a = (f.signed n 0, 0#64) ∧ (∀ cosine free, f.turn mode cosine free a = bad) ∧
      f.rsqrt mode a = (if n then bad else (0, 0#64)) ∧ f.sqrt mode a = (if n then bad else (f.infMag, 0#64)) ∧
      f.exp2 mode a = (if n then 0 else f.infMag, 0#64) ∧ f.log2 mode a = (if n then bad else (f.infMag, 0#64))) ∧
    -- FMIN, FMAX, FCMP
    (x.isNan = false → y.isNan = true → f.minMax false a b = (a % 2 ^ f.width, flagIf y.isSnan flagNV) ∧
      f.minMax true a b = (a % 2 ^ f.width, flagIf y.isSnan flagNV)) ∧
    (x.isNan = true → y.isNan = true → ∀ k, f.minMax k a b = (f.nan, flagIf (x.isSnan || y.isSnan) flagNV)) ∧
    (∀ u v, IsValue f a u → IsValue f b v → u < v → f.minMax false a b = (a % 2 ^ f.width, 0#64) ∧ f.minMax true a b = (b % 2 ^ f.width, 0#64)) ∧
    (∀ e e', x = .num true 0 e → y = .num false 0 e' →
      f.minMax false a b = (a % 2 ^ f.width, 0#64) ∧ f.minMax true b a = (b % 2 ^ f.width, 0#64)) ∧
    ((x.isNan = true ∨ y.isNan = true) → ∀ k u, k < 6 → f.compare k u a b = (u || k == 1, flagIf (x.isSnan || y.isSnan) flagNV)) ∧
    (∀ u v, IsValue f a u → IsValue f b v → ∀ t,
      (u < v → f.compare 0 t a b = (false, 0#64) ∧ f.compare 1 t a b = (true, 0#64) ∧ f.compare 2 t a b = (true, 0#64) ∧
        f.compare 3 t a b = (true, 0#64) ∧ f.compare 4 t a b = (false, 0#64) ∧ f.compare 5 t a b = (false, 0#64)) ∧
      (u = v → f.compare 0 t a b = (true, 0#64) ∧ f.compare 1 t a b = (false, 0#64) ∧ f.compare 2 t a b = (false, 0#64) ∧
        f.compare 3 t a b = (true, 0#64) ∧ f.compare 4 t a b = (false, 0#64) ∧ f.compare 5 t a b = (true, 0#64)) ∧
      (v < u → f.compare 0 t a b = (false, 0#64) ∧ f.compare 1 t a b = (true, 0#64) ∧ f.compare 2 t a b = (false, 0#64) ∧
        f.compare 3 t a b = (false, 0#64) ∧ f.compare 4 t a b = (true, 0#64) ∧ f.compare 5 t a b = (true, 0#64))) ∧
    -- FCLASS
    (∃ k, k < 10 ∧ f.classify a = 2 ^ k ∧ (x.isNan = true ↔ 8 ≤ k) ∧ (x.isSnan = true ↔ k = 8) ∧ (x.isInf = true ↔ k = 0 ∨ k = 7) ∧
      (x.isZero = true ↔ k = 3 ∨ k = 4) ∧ (k < 8 → (x.neg = true ↔ k ≤ 3)))

/-- R51 to R54: conversions between the formats of R61, exact values rounded once. -/
def ConversionsRound : Prop :=
  (∀ f ∈ [fmtF32, fmtF16, fmtBF16, fmtE5M2], ∀ (mode : RMode) (n : Bool) (m : Nat) (e : Int) (x : ℝ), IsNum n m e x →
    Rounded f mode x (f.convert mode false (.num n m e)) ∧
    (∀ neg, f.convert mode false (.inf neg) = (f.signed neg f.infMag, 0#64))) ∧
  (∀ f ∈ [fmtF32, fmtF16, fmtBF16, fmtE5M2, fmtE4M3], ∀ (mode : RMode) (n : Bool) (m : Nat) (e : Int),
    let r := f.convert mode false (.num n m e)
    (r.2.getLsbD 2 = true → f.convert mode true (.num n m e) = (f.signed n f.maxMag, flagSV ||| flagNX)) ∧
    (r.2.getLsbD 2 = false → f.convert mode true (.num n m e) = r) ∧
    f.convert mode true (.inf n) = (f.signed n f.maxMag, flagSV)) ∧
  (∀ (mode : RMode) (n : Bool) (m : Nat) (e : Int),
    ((fmtE4M3.convert mode false (.num n m e)).2.getLsbD 2 = true → fmtE4M3.convert mode false (.num n m e) = (fmtE4M3.signed n 0x7F, flagOF)) ∧
    fmtE4M3.convert mode false (.inf n) = (fmtE4M3.signed n 0x7F, flagNV)) ∧
  (∀ f ∈ coreFmts, ∀ (mode : RMode) (sat n q : Bool) (p : Nat), p < 2 ^ 22 → ∃ k, k < 2 ^ (f.fb - 1) ∧
    f.convert mode sat (.nan n q p) = (f.signed n (f.nan + k), flagIf (!q) flagNV)) ∧
  (∀ (sg : Bool) (w : Nat) (mode : RMode) (n : Bool) (m : Nat) (e : Int) (x : ℝ), w = 8 ∨ w = 32 → IsNum n m e x →
    let lo : Int := if sg then -2 ^ (w - 1) else 0
    let hi : Int := if sg then 2 ^ (w - 1) - 1 else 2 ^ w - 1
    ∃ i, RoundedInt mode x i ∧
      (∀ src, ∃ fl, convertInt sg w mode true src (.num n m e) = (wrap w (max lo (min i hi)), fl) ∧
        (fl.getLsbD 5 = true ↔ i < lo ∨ hi < i) ∧ fl.getLsbD 0 = false ∧
        (fl.getLsbD 4 = true ↔ src = false ∧ ((max lo (min i hi) : Int) : ℝ) ≠ x)) ∧
      (∃ fl, convertInt sg w mode false false (.num n m e) = (if i.natAbs < 2 ^ 64 then wrap w i else 0, fl) ∧
        (fl.getLsbD 0 = true ↔ i < lo ∨ hi < i) ∧ fl.getLsbD 5 = false ∧
        (fl.getLsbD 4 = true ↔ ((asInt sg w (if i.natAbs < 2 ^ 64 then wrap w i else 0) : Int) : ℝ) ≠ x)) ∧
      convertInt sg w mode false true (.num n m e) = (wrap w i, 0#64)) ∧
  (∀ (sg : Bool) (w : Nat) (mode : RMode) (sat src n q : Bool) (p : Nat),
    convertInt sg w mode sat src (.nan n q p) = (0, flagNV) ∧ convertInt sg w mode false src (.inf n) = (0, flagNV))

/-- R41, R51 to R54, R129 to R132, R134: the values and flags of special operands, and of conversions. -/
def Obligations.FloatSpecialsAndConversions : Prop := FloatSpecials ∧ ConversionsRound

end

section

open Sys2Proof Sys2Proof.Machine Sys2Proof.Claims

/-- What a module reset leaves: R247's partition masks, R289's shares, the values of R330, R388, R389 and R404, the
measurement registers of R399, no gang, no team and no mapped slot, and memory with nothing listed (log entry 1, DESIGN
CHOICE), which is its canonical form. That an unwritten byte lists nothing and reads 0 is the model's choice (log entry 1,
DESIGN CHOICE). -/
def Obligations.ResetLeavesTheStatedValues : Prop :=
  State.reset.memWf = true ∧ State.reset.mem = [] ∧ State.reset.log = [] ∧ State.reset.gangs = [] ∧ State.reset.teams = [] ∧
  (∀ k, (State.reset.queueAt k).bound = false) ∧ State.reset.clock = 0 ∧ State.reset.kfail = 0 ∧ State.reset.plim = 4000 ∧
  State.reset.pnow = 0 ∧ State.reset.thr = false ∧ State.reset.boot.stage = 0 ∧ State.reset.boot.opened = false ∧
  State.reset.boot.meas = List.replicate 4 0#384 ∧
  ∀ die, let d := State.reset.dieAt die
    d.l2pm = List.replicate 7 0x3FFF#16 ++ [0xC000#16] ∧ d.cceshare = 0x01010101#64 ∧ d.migt = 50 ∧ d.elog = 0 ∧ d.kilniv = 100 ∧
      d.ckilniv = 2000 ∧ d.kretry = 3 ∧ d.fpool = 4

/-- Every step keeps memory in its canonical form: addresses rise strictly and no entry equals what an unlisted address reads
as, so that memories with the same bytes are the same data (log entry 1, DESIGN CHOICE). Only the stores that every die sees
become memory (R223, R224). What an unlisted address reads as is the model's choice (log entry 1, DESIGN CHOICE). -/
def Obligations.StepKeepsMemoryForm : Prop := ∀ s t : State, s.memWf = true → step s = .next t → t.memWf = true

end

namespace Sys2Proof.Claims

open Sys2Proof.Machine

/-- R121: quotient and remainder of W-bit registers, signed or unsigned, and the two special cases. -/
def Divides (sg : Bool) (W a b q r : Nat) : Prop :=
  let A := asInt sg W a
  let B := asInt sg W b
  let corner := sg = true ∧ A = -2 ^ (W - 1) ∧ B = -1
  (b % 2 ^ W = 0 → q = 2 ^ W - 1 ∧ r = a % 2 ^ W) ∧
  (corner → asInt sg W q = -2 ^ (W - 1) ∧ r = 0) ∧
  (b % 2 ^ W ≠ 0 → ¬ corner → asInt sg W q = A.tdiv B ∧ asInt sg W r = A - B * A.tdiv B)

/-- A lane register, or a pair, as a number. -/
def pairAt (g : Gang) (wide : Bool) (n l : Nat) : Nat := (g.vAt n l).toNat + if wide then 2 ^ 32 * (g.vAt (n + 1) l).toNat else 0

end Sys2Proof.Claims

section

open Sys2Proof Sys2Proof.Machine Sys2Proof.Claims

/-- R121: IDIV gives the quotient rounded toward zero and IREM the remainder, with their special cases, in every lane with an effect or in
the group register; neither traps, and neither sets a flag. -/
def Obligations.DivisionNeverTraps : Prop :=
  ∀ (s : State) (f : ClassA),
    let W := if wd f then 64 else 32
    let sg := f.h.fx.getLsbD 0
    (f.h.g = false → (lane3 f (wd f) true false false fun _ _ _ => out 0#64).ready s →
      ∃ gq gr : Gang, exec (.idiv f) s = .next (s.done (s.setGang gq)) ∧ exec (.irem f) s = .next (s.done (s.setGang gr)) ∧
        gq.r.mstat = s.gang.r.mstat ∧ gr.r.mstat = s.gang.r.mstat ∧
        (f.h.t = false → f.d.toNat + (if wd f then 1 else 0) < 48 → ∀ l, l < 32 → eff s f.h l →
          Divides sg W (s.gang.src f.a (wd f) l).toNat (s.gang.srcB f (wd f) l).toNat (pairAt gq (wd f) f.d.toNat l)
            (pairAt gr (wd f) f.d.toNat l))) ∧
    (f.h.g = true → f.d.toNat < 32 → (group3 f (wd f) true false false fun _ _ _ => out 0#64).ready s →
      ∃ gq gr : Gang, exec (.idiv f) s = .next (s.done (s.setGang gq)) ∧ exec (.irem f) s = .next (s.done (s.setGang gr)) ∧
        gq.r.mstat = s.gang.r.mstat ∧ gr.r.mstat = s.gang.r.mstat ∧
        Divides sg W (s.gang.gsrc f.a (wd f)).toNat (s.gang.gsrc f.b (wd f)).toNat ((gq.gAt f.d.toNat).toNat % 2 ^ W)
          ((gr.gAt f.d.toNat).toNat % 2 ^ W))

end

section

open Sys2Proof

/-- The zero word and the filler are NOPs, the all-ones word and reserved opcodes are illegal. -/
def Obligations.MalformedWords : Prop := Claims.ReservedOpcodesFailCheckOne ∧ Claims.MalformedWordTraps ∧ Claims.NopOnlyGoesOn

/-- The checks of lane and group forms, in the order of the table. -/
def Obligations.ChecksInOrder : Prop := Claims.LaneChecksInOrder ∧ Claims.GroupChecksInOrder

/-- What the integer operations compute, bit by bit and with their saturation. -/
def Obligations.IntegerOperations : Prop := Claims.IntegerArithmetic ∧ Claims.SaturationClamps ∧ Claims.BitOperations

/-- The structured instructions move the lane counters and skip or loop. -/
def Obligations.StructuredControl : Prop := Claims.StructuredCounters ∧ Claims.EndloopGoesRoundOrLeaves

/-- Branches, calls and returns move and part slices; REGANG merges parts; parts keep their names. -/
def Obligations.Branches : Prop := Claims.BranchesMoveSlices ∧ Claims.ReturnEntries ∧ Claims.BranchesTrap ∧ Claims.PartNamesAreKept ∧ Claims.RegangMergesParts

/-- JMPF, CFETCH, CWAIT and the landing of segments; YIELD and the software trap. -/
def Obligations.SegmentsAndYield : Prop := Claims.SegmentJumpsAndWaits ∧ Claims.SegmentsAreFetched ∧ Claims.YieldAndSoftwareTrap

/-- BAR waits for every part of the team; EXIT ends lanes, slices, parts and the gang. -/
def Obligations.BarriersAndExits : Prop := Claims.TeamBarrier ∧ Claims.ExitEndsLanes

/-- CBR casts the gang's vote and runs ahead; its result keeps or puts back what was done. -/
def Obligations.CollectiveBranches : Prop := Claims.CollectiveBranchCasts ∧ Claims.VoteResultResolves

/-- Votes are gathered at die nodes, reduced at the root, and their results kept and served. -/
def Obligations.Votes : Prop := Claims.VotesGatherAtTheDieNode ∧ Claims.VoteRootReduces ∧ Claims.VoteResultsAreKept

/-- Accesses are checked for allocation, alignment and permission, in this order, before memory is touched. -/
def Obligations.AccessesAreChecked : Prop := Claims.AccessChecksInOrder ∧ Claims.AccessTraps

/-- Loads take the bytes of their places, extended, and write their registers on return. What a swing leaves in an L1, and
which copies are still there, is a free choice by line (log entry 96, DESIGN CHOICE). -/
def Obligations.Loads : Prop := Claims.LoadsTakeTheirBytes ∧ Claims.LoadedBytesAreThoseOfThePlace ∧ Claims.LoadReturnWritesRegisters

/-- Stores write the low bytes of D at their lanes' places, and every other byte is kept. -/
def Obligations.StoresWriteTheirPlaces : Prop := Claims.StoresGiveTheirBytes ∧ Claims.StoresChangeOnlyTheirPlaces

/-- Stores are seen on their own die first, elsewhere in causal order, and are then performed. The instant of a delivery is
an event (log entry 3, DESIGN CHOICE). -/
def Obligations.StoresBecomeVisible : Prop := Claims.StoresReachTheirOwnDieFirst ∧ Claims.CausalDeliveryMakesVisible ∧ Claims.StorePerformedCounts

/-- ATOM exchanges at the home in one instant, with the operations of the table. -/
def Obligations.Atomics : Prop := Claims.AtomicsExchangeAtTheHome ∧ Claims.AtomicOperations

/-- WAITV waits until the value meets its condition, then takes it. -/
def Obligations.WaitsForValues : Prop := Claims.WaitForValue ∧ Claims.WaitConditions

/-- FENCE makes releases and checks acquires; cache maintenance changes no byte. -/
def Obligations.FencesAndCaches : Prop := Claims.FencesOrder ∧ Claims.CacheMaintenance

/-- CPY and GTH start, move unit by unit, and complete at their barriers. TINFO 0 for a bad length is the model's choice (log
entry 70, DEDUCED). -/
def Obligations.CopiesAndGathers : Prop := Claims.CopiesStart ∧ Claims.GathersStart ∧ Claims.CopyUnitsMoveBytes ∧ Claims.CopyCompletionArrives

/-- Engine writes go to the sagger's place; PUBL swings what was written. -/
def Obligations.SwingBuffers : Prop := Claims.EngineWritesGoToTheSagger ∧ Claims.PublicationSwings

/-- BCOMMIT, BWAIT and WAITC count; byte-counting barriers arm, add and wait. -/
def Obligations.CountersAndBarriers : Prop := Claims.BatchesAndCounters ∧ Claims.ByteCountingBarriers

/-- Tile descriptors are set whole or trap; MXWAIT waits; MXMODE changes the mode. Which of several reasons is reported is
the model's choice (log entry 42, DESIGN CHOICE). -/
def Obligations.MatrixDescriptorsAndModes : Prop := Claims.TileDescriptors ∧ Claims.MatrixWaitsAndModes

/-- SRD reads and SWR writes every special register the spec gives; all else is kept. A value outside a firmware register's
range leaves a free value (the model's choice: log entry 32, DESIGN CHOICE); the pair read by the lane form of a 64-bit
register is read from R23 (log entry 41, DEDUCED). -/
def Obligations.SpecialRegisters : Prop := Claims.SpecialRegisterReads ∧ Claims.SpecialRegisterWrites

/-- Privileged words trap off the firmware core; queue commands act on it. -/
def Obligations.PrivilegedWords : Prop := Claims.PrivilegedWordsTrap ∧ Claims.QueueCommands

/-- SYSC posts and takes its answer; TRET brings back what the trap saved; asynchronous traps. -/
def Obligations.SystemCallsAndTraps : Prop := Claims.SystemCalls ∧ Claims.ReturnsFromTraps ∧ Claims.AsynchronousTraps

/-- Responses reach what awaits them; work records and slot updates. -/
def Obligations.RemoteAnswersAndSlots : Prop := Claims.RemoteAnswers ∧ Claims.WorkRecordsAndSlots

/-- MESH hands meshlets to raster; quads become pixel gangs, fragments are blended in order. -/
def Obligations.GraphicsPipeline : Prop := Claims.Meshlets ∧ Claims.PixelsAndFragments

/-- Migration, the watchdog, quiescence waves, flushes and shoot-downs. -/
def Obligations.DispatcherTimersAndMigration : Prop := Claims.AdvertsAndMigration ∧ Claims.DispatcherTimers

end
end

