-- ==== Sys2Proof/Machine/AsmText.lean ====
section
/-! DEFINITION. The assembly language, its text (R407, R408, R409, R412, R416): tokens, registers, expressions and operands.
An error is named by the number of its code in R416's table. -/

namespace Sys2Proof.Asm

/-! ## Tokens (R407) -/

inductive Tok where
  /-- letters, digits and `_`, in parts joined by dots: a symbol, a register, or a mnemonic with its modifiers -/
  | word (parts : List String)
  /-- a dot and a name -/
  | dir (name : String)
  | num (n : Nat)
  /-- decimal digits with a fraction or an exponent: `m` times ten to the `e` -/
  | flt (m : Nat) (e : Int)
  /-- an operator or a separator -/
  | op (s : String)
  /-- no token of the language -/
  | bad
  deriving DecidableEq, Repr

def isStart (c : Char) : Bool := c.isAlpha || c == '_'
def isPart (c : Char) : Bool := c.isAlphanum || c == '_'

/-- The value of digits in a base; `none` for a character that is no digit of it. `_` counts for nothing. -/
def digits (base : Nat) : List Char → Nat → Option Nat
  | [], acc => some acc
  | c :: r, acc =>
    if c == '_' then digits base r acc
    else
      let d := if c.isDigit then c.toNat - 48 else if 'a' ≤ c && c ≤ 'f' then c.toNat - 87 else if 'A' ≤ c && c ≤ 'F' then c.toNat - 55 else 99
      if d < base then digits base r (acc * base + d) else none

/-- A run of hex or binary digits: `_` stands between digits only. -/
def based (base : Nat) (l : List Char) : Tok :=
  match l with
  | [] => .bad
  | c :: _ =>
    if c == '_' || l.getLast? == some '_' then .bad
    else match digits base l 0 with
      | some n => .num n
      | none => .bad

/-- A decimal number or a float literal, and what follows it. -/
def decimal (l : List Char) : Tok × List Char :=
  let i := l.takeWhile Char.isDigit
  let r := l.drop i.length
  let n := (digits 10 i 0).getD 0
  let frac : List Char × List Char := match r with
    | '.' :: t => if (t.head?.map Char.isDigit).getD false then (t.takeWhile Char.isDigit, t.dropWhile Char.isDigit) else ([], r)
    | _ => ([], r)
  let exp : Option Int × List Char := match frac.2 with
    | 'e' :: '-' :: t =>
      if (t.head?.map Char.isDigit).getD false then (some (-(((digits 10 (t.takeWhile Char.isDigit) 0).getD 0 : Nat) : Int)), t.dropWhile Char.isDigit)
      else (none, frac.2)
    | 'e' :: t =>
      if (t.head?.map Char.isDigit).getD false then (some ((digits 10 (t.takeWhile Char.isDigit) 0).getD 0 : Nat), t.dropWhile Char.isDigit)
      else (none, frac.2)
    | _ => (none, frac.2)
  let t : Tok :=
    if frac.1.isEmpty && exp.1.isNone then .num n
    else .flt ((digits 10 frac.1 n).getD 0) (exp.1.getD 0 - frac.1.length)
  if (exp.2.head?.map isPart).getD false then (.bad, exp.2.dropWhile isPart) else (t, exp.2)

/-- Characters cut at a separator. -/
def cutAt (c : Char) : List Char → List (List Char)
  | [] => [[]]
  | x :: r =>
    if x == c then [] :: cutAt c r
    else match cutAt c r with
      | h :: l => (x :: h) :: l
      | [] => [[x]]

/-- The parts of a dotted word. -/
def splitDots (l : List Char) : List String := (cutAt '.' l).map String.ofList

/-- The tokens of a line; a comment begins with `;` or `//`. -/
def lex : Nat → List Char → List Tok
  | 0, _ => []
  | _ + 1, [] => []
  | fuel + 1, c :: r =>
    if c == ' ' || c == '\t' || c == '\r' then lex fuel r
    else if c == ';' then []
    else if isStart c then
      let w := c :: r.takeWhile fun x => isPart x || x == '.'
      let ps := splitDots w
      (if ps.any (·.isEmpty) then .bad else .word ps) :: lex fuel (r.dropWhile fun x => isPart x || x == '.')
    else if c.isDigit then
      match c, r with
      | '0', 'x' :: t => based 16 (t.takeWhile isPart) :: lex fuel (t.dropWhile isPart)
      | '0', 'b' :: t => based 2 (t.takeWhile isPart) :: lex fuel (t.dropWhile isPart)
      | _, _ => let d := decimal (c :: r); d.1 :: lex fuel d.2
    else if c == '.' then
      let w := r.takeWhile isPart
      (if w.isEmpty then .bad else .dir (String.ofList w)) :: lex fuel (r.dropWhile isPart)
    else
      match c, r with
      | '/', '/' :: _ => []
      | '<', '<' :: t => .op "<<" :: lex fuel t
      | '>', '>' :: t => .op ">>" :: lex fuel t
      | _, _ =>
        (if [',', '(', ')', '[', ']', '+', '-', '*', '/', '%', '&', '^', '|', '!', ':'].contains c then .op (String.singleton c) else .bad) ::
          lex fuel r

/-- The lines of a source file, each with its tokens. -/
def lines (src : String) : List (List Tok) :=
  (cutAt '\n' src.toList).map fun l => lex (l.length + 1) l

/-! ## Registers and names (R407) -/

/-- What a register name names. -/
inductive RFile where
  | v | q | b | g | k | gp | ad | td | acc
  | zero
  /-- a format slot, which is no register -/
  | fs
  deriving DecidableEq, Repr

/-- A name made of letters and a number from `lo` to `hi`, without leading zeros. -/
def numbered (s : String) (pre : String) (lo hi : Nat) : Option Nat :=
  (List.range (hi + 1)).find? fun n => lo ≤ n && s == pre ++ toString n

/-- The register a name names. -/
def regOf (s : String) : Option (RFile × Nat) :=
  if s == "zero" then some (.zero, 63)
  else
    let rows : List (String × RFile × Nat × Nat) :=
      [("v", .v, 0, 47), ("q", .q, 0, 7), ("b", .b, 1, 3), ("g", .g, 0, 31), ("k", .k, 0, 7), ("gp", .gp, 0, 7), ("ad", .ad, 0, 7),
        ("td", .td, 0, 7), ("acc", .acc, 0, 7), ("fs", .fs, 0, 7)]
    rows.findSome? fun p => (numbered s p.1 p.2.2.1 p.2.2.2).map fun n => (p.2.1, n)

/-- Registers of the group files (R71). -/
def RFile.group : RFile → Bool
  | .g | .gp | .ad | .td | .acc => true
  | _ => false

/-- The special registers by name (R21, R216). -/
def sregNames : List (String × Nat) :=
  [("LANEID", 0), ("SLICEID", 1), ("GANGID", 2), ("TEAMID", 3), ("COHID", 4), ("GSHAPE", 5), ("QUADID", 6), ("QCFG", 0x10), ("MSTAT", 0x20),
    ("SRSTATE", 0x21)] ++ ((List.range 8).map fun n => ("FS" ++ toString n, 0x28 + n)) ++
  [("TCAUSE", 0x30), ("TPC", 0x31), ("TINFO", 0x32), ("TLANES", 0x33), ("HSTATE", 0x34), ("LTPC", 0x35), ("MXSTAT", 0x40), ("CREC", 0x50),
    ("FRAME", 0x51), ("BLAST", 0x52), ("GRPM", 0x60), ("STKLIM", 0x70), ("STKBASE", 0x71), ("HBASE", 0x80), ("HLIMIT", 0x81), ("HOFFS", 0x82),
    ("WINDOW", 0x83), ("CERTT", 0x90), ("TIME", 0x91), ("CCESHARE", 0xA0), ("FBRING", 0xB0)]

def sregOf (s : String) : Option Nat := (sregNames.find? fun p => p.1 == s).map (·.2)

/-! ## Expressions (R408) -/

inductive Expr where
  | num (n : Nat)
  | sym (s : String)
  | neg (e : Expr)
  | bin (op : String) (a b : Expr)
  deriving DecidableEq, Repr

/-- The binary operators, a row tighter than the next; `&` binds tighter than `^`, and `^` than `|`. -/
def opsAt : Nat → List String
  | 1 => ["*", "/", "%"]
  | 2 => ["+", "-"]
  | 3 => ["<<", ">>"]
  | 4 => ["&"]
  | 5 => ["^"]
  | 6 => ["|"]
  | _ => []

/-- The loosest row. -/
def topRow : Nat := 6

/-- An expression at a row: with `acc` its left part is read already. Operators of a row group from the left. -/
def parseExpr : Nat → Nat → Option Expr → List Tok → Option (Expr × List Tok)
  | 0, _, _, _ => none
  | fuel + 1, 0, _, toks =>
    match toks with
    | .op "-" :: r => (parseExpr fuel 0 none r).map fun p => (.neg p.1, p.2)
    | .op "(" :: r =>
      match parseExpr fuel topRow none r with
      | some (e, .op ")" :: r') => some (e, r')
      | _ => none
    | .num n :: r => some (.num n, r)
    | .word [s] :: r => some (.sym s, r)
    | _ => none
  | fuel + 1, row + 1, none, toks =>
    match parseExpr fuel row none toks with
    | some (a, r) => parseExpr fuel (row + 1) (some a) r
    | none => none
  | fuel + 1, row + 1, some a, toks =>
    match toks with
    | .op o :: r =>
      if (opsAt (row + 1)).contains o then
        match parseExpr fuel row none r with
        | some (b, r') => parseExpr fuel (row + 1) (some (.bin o a b)) r'
        | none => none
      else some (a, toks)
    | _ => some (a, toks)

/-- A whole list of tokens as one expression. -/
def exprOf (toks : List Tok) : Option Expr :=
  match parseExpr (16 * (toks.length + 1)) topRow none toks with
  | some (e, []) => some e
  | _ => none

/-- What an expression is: a number, an offset in the data image, or an IMEM address in the window of a kernel. -/
inductive Val where
  | num (n : Int)
  | data (n : Int)
  | code (kernel : Nat) (n : Int)
  deriving DecidableEq, Repr

/-- Bitwise operations on integers of any size: two's complement, wide enough for both. -/
def intBits (f : Nat → Nat → Nat) (a b : Int) : Int :=
  let w := max a.natAbs b.natAbs + 2
  let n := w.log2 + 2
  let m : Int := 2 ^ n
  let r := f ((a % m).toNat) ((b % m).toNat)
  if r < 2 ^ (n - 1) then r else (r : Int) - m

/-- An operator on numbers: division truncates toward zero, and a division by zero is an error (E4). The remainder is that of
the division, and a shift by a negative count is an error as well (log entry 115, DEDUCED). -/
def numOp (o : String) (a b : Int) : Except Nat Int :=
  match o with
  | "*" => .ok (a * b)
  | "/" => if b = 0 then .error 4 else .ok (a.tdiv b)
  | "%" => if b = 0 then .error 4 else .ok (a.tmod b)
  | "+" => .ok (a + b)
  | "-" => .ok (a - b)
  | "<<" => if b < 0 || 4096 < b then .error 4 else .ok (a * 2 ^ b.toNat)
  | ">>" => if b < 0 then .error 4 else .ok (a / 2 ^ b.toNat)
  | "&" => .ok (intBits Nat.land a b)
  | "^" => .ok (intBits Nat.xor a b)
  | "|" => .ok (intBits Nat.lor a b)
  | _ => .error 1

/-- An operator on values; an address takes part in sums and differences only. -/
def valOp (o : String) (x y : Val) : Except Nat Val :=
  match x, y with
  | .num a, .num b => (numOp o a b).map .num
  | .data a, .num b => if o == "+" then .ok (.data (a + b)) else if o == "-" then .ok (.data (a - b)) else .error 3
  | .num a, .data b => if o == "+" then .ok (.data (a + b)) else .error 3
  | .code k a, .num b => if o == "+" then .ok (.code k (a + b)) else if o == "-" then .ok (.code k (a - b)) else .error 3
  | .num a, .code k b => if o == "+" then .ok (.code k (a + b)) else .error 3
  | .data a, .data b => if o == "-" then .ok (.num (a - b)) else .error 3
  | .code k a, .code k' b => if o == "-" && k == k' then .ok (.num (a - b)) else .error 3
  | _, _ => .error 3

abbrev Env := List (String × Val)

/-- The value of an expression; a symbol that is not defined is error E9. -/
def Expr.eval (env : Env) : Expr → Except Nat Val
  | .num n => .ok (.num n)
  | .sym s =>
    match env.find? fun p => p.1 == s with
    | some p => .ok p.2
    | none => .error 9
  | .neg e =>
    match e.eval env with
    | .ok (.num n) => .ok (.num (-n))
    | .ok _ => .error 3
    | .error c => .error c
  | .bin o a b =>
    match a.eval env, b.eval env with
    | .ok x, .ok y => valOp o x y
    | .error c, _ => .error c
    | _, .error c => .error c

/-- A number in a range: an address is error E3, a value outside is E4. -/
def Expr.number (env : Env) (lo hi : Int) (e : Expr) : Except Nat Int :=
  match e.eval env with
  | .ok (.num n) => if lo ≤ n && n ≤ hi then .ok n else .error 4
  | .ok _ => .error 3
  | .error c => .error c

/-! ## Operands (R409, R412) -/

/-- The index of a memory operand. -/
structure Index where
  file  : RFile
  n     : Nat
  scale : Expr
  deriving DecidableEq, Repr

inductive Opnd where
  | reg (f : RFile) (n : Nat)
  /-- `!k1`: a negated condition -/
  | nreg (f : RFile) (n : Nat)
  | mem (ad : Nat) (x : Option Index) (off : Option Expr)
  | ex (e : Expr)
  deriving DecidableEq, Repr

/-- `+ reg*s`, `± off` or both, after the address register. -/
def parseMem (ad : Nat) (toks : List Tok) : Option Opnd :=
  let off := fun (l : List Tok) => if l.isEmpty then some none else (exprOf (.num 0 :: l)).map some
  match toks with
  | .op "+" :: .word [s] :: r =>
    match regOf s with
    | some (f, n) =>
      match r with
      | .op "*" :: t :: r' =>
        let sc : Option Expr := match t with
          | .num k => some (.num k)
          | .word [y] => some (.sym y)
          | _ => none
        match sc, off r' with
        | some e, some o => some (.mem ad (some { file := f, n := n, scale := e }) o)
        | _, _ => none
      | _ => (off r).map fun o => .mem ad (some { file := f, n := n, scale := .num 1 }) o
    | none => (off toks).map fun o => .mem ad none o
  | .op "+" :: _ => (off toks).map fun o => .mem ad none o
  | .op "-" :: _ => (off toks).map fun o => .mem ad none o
  | [] => some (.mem ad none none)
  | _ => none

/-- One operand. -/
def opndOf (toks : List Tok) : Option Opnd :=
  match toks with
  | .op "[" :: .word [s] :: r =>
    match regOf s, r.reverse with
    | some (.ad, n), .op "]" :: t => parseMem n t.reverse
    | _, _ => none
  | [.op "!", .word [s]] => (regOf s).map fun p => .nreg p.1 p.2
  | [.word [s]] =>
    match regOf s with
    | some p => some (.reg p.1 p.2)
    | none => some (.ex (.sym s))
  | _ => (exprOf toks).map .ex

/-- Tokens cut at the commas. -/
def commas : List Tok → List (List Tok)
  | [] => [[]]
  | .op "," :: r => [] :: commas r
  | t :: r =>
    match commas r with
    | h :: l => (t :: h) :: l
    | [] => [[t]]

/-! ## Lines (R407, R409) -/

/-- `(kN)`, `(!kN)`, `(gpN)` or `(!gpN)` before a mnemonic. -/
structure Cond where
  neg : Bool
  gp  : Bool
  n   : Nat
  deriving DecidableEq, Repr

def condOf (neg : Bool) (f : RFile) (n : Nat) : Option Cond :=
  match f with
  | .k => some { neg := neg, gp := false, n := n }
  | .gp => some { neg := neg, gp := true, n := n }
  | _ => none

inductive Body where
  | none
  | dir (name : String) (args : List (List Tok))
  | ins (cond : Option Cond) (name : String) (mods : List String) (args : List (List Tok))
  /-- an error, by its code -/
  | bad (code : Nat)
  deriving DecidableEq, Repr

structure Line where
  label : Option String := .none
  body  : Body := .none
  deriving DecidableEq, Repr

def argsOf (l : List Tok) : List (List Tok) := if l.isEmpty then [] else commas l

/-- A directive, or an instruction with its predicate. -/
def bodyOf (l : List Tok) : Body :=
  if l.contains .bad then .bad 1
  else
    let ins := fun (c : Option Cond) (l : List Tok) => match l with
      | .word (m :: ms) :: r => Body.ins c m ms (argsOf r)
      | _ => .bad 1
    match l with
    | [] => .none
    | .dir d :: r => .dir d (argsOf r)
    | .op "(" :: .word [s] :: .op ")" :: r =>
      match (regOf s).bind fun p => condOf false p.1 p.2 with
      | some c => ins (some c) r
      | none => .bad 1
    | .op "(" :: .op "!" :: .word [s] :: .op ")" :: r =>
      match (regOf s).bind fun p => condOf true p.1 p.2 with
      | some c => ins (some c) r
      | none => .bad 1
    | _ => ins .none l

/-- A line's label, then its directive or instruction. -/
def lineOf (l : List Tok) : Line :=
  match l with
  | .word [s] :: .op ":" :: r => { label := some s, body := bodyOf r }
  | _ => { label := none, body := bodyOf l }

end Sys2Proof.Asm
end

