-- ==== Sys2Proof/Machine/AsmForms.lean ====
section
/-! DEFINITION. The assembly language, its instructions (R71, R84, R410 to R414, R417): one row for every written form, with its
modifiers and operands, and the word that a written instruction assembles to. Forms and Lintel columns come from the decoder. -/

namespace Sys2Proof.Asm

/-! ## Rows -/

/-- A group of modifiers: the bits that each sets in the word, and what leaving the group out sets, where that is admitted (R410). -/
structure ModGroup where
  opts : List (String × Nat)
  dflt : Option Nat
  deriving DecidableEq, Repr

/-- How the number of a lane register is limited by its use (R23, R152, R160, R207, R214). -/
inductive Width where
  | one
  /-- a pair -/
  | two
  | four
  | eight
  /-- a pair where FX[49] = 1 -/
  | byFx
  /-- a pair where SZ names 64 bits -/
  | bySize
  /-- compare and swap: a pair, or four registers for 64 bits; a pair of group registers for 64 bits (R165) -/
  | cas
  /-- an item of 4 times two to the z bytes (R207) -/
  | byItem
  /-- four channels and the status after them (R160) -/
  | texel
  deriving DecidableEq, Repr

/-- One operand of a row, and where its bits stand. -/
inductive Arg where
  /-- a register that is read -/
  | src (sh : Nat) (w : Width)
  /-- a register that is written -/
  | dst (sh : Nat) (w : Width)
  /-- a register that is read and then written -/
  | both (sh : Nat) (w : Width)
  /-- the last source of a class-A instruction: in the lane form it may name a group register (R76, R411) -/
  | last (w : Width)
  /-- a predicate register -/
  | pred (sh : Nat)
  | ad (sh : Nat)
  | td (sh : Nat)
  | acc (sh : Nat)
  /-- a format slot, by name or by number -/
  | slot (sh : Nat)
  | sreg
  /-- a memory operand of class M (R78, R412) -/
  | mem
  /-- a memory operand of an engine: an address register and an offset in 16-byte units (R169) -/
  | unit (adSh offSh : Nat)
  /-- the source of GTH: an address register and a lane index scaled by the element size (R171) -/
  | elems
  /-- an immediate of 32 bits; a code address is admitted in `code` (R411) -/
  | imm (code : Bool)
  /-- the value of ADSET (R413) -/
  | base
  /-- a number from `lo` on, written as its distance from `lo` in `w` bits, in steps of `step` -/
  | num (sh w : Nat) (lo : Int) (step : Nat)
  /-- the stride of TDSET, in units of 16 bytes (R183) -/
  | stride
  /-- the length of CPY (R169) -/
  | len
  /-- a branch target; `far`: it may stand in another segment (R414) -/
  | label (far : Bool)
  /-- the condition of IF or CBR -/
  | cond
  deriving DecidableEq, Repr

/-- How PI and PN come to be (R409). -/
inductive Prefixed where
  /-- from the predicate before the mnemonic -/
  | yes
  /-- no predicate is admitted there -/
  | no
  deriving DecidableEq, Repr

/-- A written form of an instruction. -/
structure Row where
  name  : String
  op    : Nat
  /-- further bits of the form -/
  fixed : Nat := 0
  mods  : List ModGroup := []
  args  : List Arg := []
  pred  : Prefixed := .yes
  /-- DISP and AUX8 come from the nesting (R98) -/
  nest  : Bool := false
  deriving DecidableEq, Repr

def Row.word (r : Row) : Nat := r.op <<< 56 ||| r.fixed

/-- The Forms and Lintel columns of a row (R82). -/
def Row.columns (r : Row) : Forms × OnLintel :=
  match pick (BitVec.ofNat 64 r.word) with
  | .ins i _ => match i.checks with
    | some c => (c.forms, c.lintel)
    | none => (.lg, .y)
  | _ => (.lg, .y)

/-! ## Modifiers (R410) -/

/-- Named codes of a field. -/
def codes (sh : Nat) (l : List String) (at0 : Nat := 0) : List (String × Nat) := l.zipIdx.map fun p => (p.1, (at0 + p.2) <<< sh)

def need (l : List (String × Nat)) : ModGroup := { opts := l, dflt := none }
def orElse (l : List (String × Nat)) (d : Nat := 0) : ModGroup := { opts := l, dflt := some d }
/-- One modifier that may stand there or not. -/
def flag (s : String) (bit : Nat) : ModGroup := orElse [(s, 1 <<< bit)]

def tySigned : ModGroup := orElse (codes 48 ["U32", "S32", "U64", "S64"])
def tyPlain : ModGroup := orElse [("U32", 0), ("U64", 1 <<< 49)]
def wide : ModGroup := flag "U64" 49
def sat : ModGroup := flag "SAT" 16
def condAt (sh : Nat) : ModGroup := need (codes sh ["EQ", "NE", "LT", "LE", "GT", "GE"])
def fAll : ModGroup := need (codes 20 ["F32", "F16", "BF16", "F16X2", "BF16X2"])
def fScalar : ModGroup := need (codes 20 ["F32", "F16", "BF16"])
def fPacked : ModGroup := need (codes 20 ["F16X2", "BF16X2"] 3)
def rnd : ModGroup := orElse (codes 17 ["RN", "RZ", "RU", "RD"])
def space : List String → ModGroup := fun l => orElse (codes 25 l)
def spaceOwn : ModGroup := space ["G", "S", "C", "K"]
def spacePeer : ModGroup := need [("P", 4 <<< 25)]
def spaceAtom : ModGroup := space ["G", "S", "C"]
def spaceG : ModGroup := space ["G"]
def sizeLd : ModGroup := need (codes 28 ["U8", "S8", "U16", "S16", "U32", "U64"])
def sizeSt : ModGroup := need [("U8", 0 <<< 28), ("U16", 2 <<< 28), ("U32", 4 <<< 28), ("U64", 5 <<< 28)]
def sizeAtom : ModGroup := need (codes 28 ["U32", "U64"] 4)
def sizeWait : ModGroup := need (codes 28 ["U32", "U64"] 4 ++ [("S32", 4 <<< 28 ||| 1 <<< 49), ("S64", 5 <<< 28 ||| 1 <<< 49)])
def order : List (String × Nat) → ModGroup := orElse
def ordAll : List (String × Nat) := codes 20 ["RLX", "ACQ", "REL", "AR"]
def ordOf (l : List String) : List (String × Nat) := ordAll.filter fun p => l.contains p.1
def scopes : List (String × Nat) := codes 22 ["GANG", "TEAM", "COHORT", "DIE", "MOD", "DOM", "SYS"]
def scope : ModGroup := orElse scopes
def scopeOf (l : List String) : List (String × Nat) := scopes.filter fun p => l.contains p.1
def hint : ModGroup := orElse (codes 18 ["EF", "RT", "BY"] 1)
/-- A code that stands in FX[49:48] and CH. -/
def fxCh (c : Nat) : Nat := (c / 4) <<< 48 ||| (c % 4) <<< 18
def levels : List (String × Nat) := (List.range 16).map fun n => ("L" ++ toString n, n)
def srcFmt : List String := ["F32", "F16", "BF16", "E4M3", "E5M2", "INT8", "UINT8", "INT32", "UINT32"]
def classC (sh hi : Nat) : ModGroup := orElse ((List.range (hi + 1)).map fun n => ("C" ++ toString n, n <<< sh))

/-! ## The rows -/

def intRow (name : String) (op : Nat) (ty : ModGroup) (args : List Arg) (more : List ModGroup := []) : Row :=
  { name := name, op := op, mods := ty :: more, args := args }

def dab : List Arg := [.dst 42 .byFx, .src 36 .byFx, .last .byFx]
def dabc : List Arg := [.dst 42 .byFx, .src 36 .byFx, .src 30 .byFx, .src 24 .byFx]
def da : List Arg := [.dst 42 .byFx, .src 36 .byFx]

/-- Control (R91 to R114). -/
def rowsControl : List Row :=
  [ { name := "NOP", op := 0x00 },
    { name := "IF", op := 0x01, args := [.cond], pred := .no, nest := true },
    { name := "ELSE", op := 0x02, fixed := 7 <<< 52, pred := .no, nest := true },
    { name := "ENDIF", op := 0x03, fixed := 7 <<< 52, pred := .no, nest := true },
    { name := "LOOP", op := 0x04, fixed := 7 <<< 52, pred := .no, nest := true },
    { name := "ENDLOOP", op := 0x05, fixed := 7 <<< 52, pred := .no, nest := true },
    { name := "BREAK", op := 0x06, nest := true },
    { name := "CONT", op := 0x07, nest := true },
    { name := "BRA", op := 0x08, args := [.label false] },
    { name := "BRX", op := 0x09, args := [.src 36 .one] },
    { name := "CALL", op := 0x0A, args := [.label false] },
    { name := "CALLX", op := 0x0B, args := [.src 36 .one] },
    { name := "RET", op := 0x0C },
    { name := "REGANG", op := 0x0D, fixed := 7 <<< 52, pred := .no },
    { name := "JMPF", op := 0x0E, args := [.label true] },
    { name := "CFETCH", op := 0x0F, args := [.num 42 6 0 1, .mem] },
    { name := "CWAIT", op := 0x10, args := [.num 0 6 0 1] },
    { name := "CWAIT", op := 0x10, fixed := 1 <<< 6, mods := [need [("ALL", 0)]] },
    { name := "EXIT", op := 0x11 },
    { name := "YIELD", op := 0x12, args := [.num 0 12 0 1] },
    { name := "TRAP", op := 0x13, args := [.num 0 12 0 1] },
    { name := "RGNB", op := 0x14, fixed := 7 <<< 52, pred := .no },
    { name := "RGNE", op := 0x15, fixed := 7 <<< 52, pred := .no },
    { name := "CBR", op := 0x16, mods := [need (codes 12 ["ANY", "ALL"]), need (codes 13 ["NT", "TK"])],
      args := [.cond, .num 16 8 0 1, .label false, .num 0 12 0 1], pred := .no },
    { name := "BAR", op := 0x17 },
    { name := "QCFG", op := 0x18, args := [.src 36 .one] } ]

/-- The integer instructions with an immediate encoding (R83, R84, R124). -/
def rowsImm : List Row :=
  [ { name := "ICMP", op := 0x39, mods := [condAt 32, tySigned], args := [.pred 42, .src 36 .byFx, .imm false] },
    { name := "MOVI", op := 0x3A, mods := [tySigned], args := [.dst 42 .byFx, .imm true] },
    { name := "MOVH", op := 0x3B, mods := [need [("U64", 1 <<< 49)]], args := [.dst 42 .byFx, .imm true] } ] ++
  ([("IADD", tySigned), ("ISUB", tySigned), ("IMUL", tyPlain), ("IMIN", tySigned), ("IMAX", tySigned), ("AND", tyPlain), ("OR", tyPlain),
    ("XOR", tyPlain), ("ANDN", tyPlain), ("SHL", tyPlain), ("SHR", tyPlain), ("SAR", tyPlain), ("ROT", tyPlain)].zipIdx.map fun p =>
      { name := p.1.1, op := 0x38, fixed := p.2 <<< 32, mods := [p.1.2], args := [.dst 42 .byFx, .src 36 .byFx, .imm false] })

/-- Integer and address (R118 to R126). -/
def rowsInt : List Row :=
  [ intRow "IADD" 0x20 tySigned dab [sat], intRow "ISUB" 0x21 tySigned dab [sat], intRow "IMUL" 0x22 tyPlain dab,
    intRow "IMULH" 0x23 tySigned dab, intRow "IMAD" 0x24 tyPlain dabc, intRow "IDIV" 0x25 tySigned dab, intRow "IREM" 0x26 tySigned dab,
    intRow "IMIN" 0x27 tySigned dab, intRow "IMAX" 0x28 tySigned dab, intRow "AND" 0x29 tyPlain dab, intRow "OR" 0x2A tyPlain dab,
    intRow "XOR" 0x2B tyPlain dab, intRow "ANDN" 0x2C tyPlain dab, intRow "SHL" 0x2D tyPlain dab, intRow "SHR" 0x2E tyPlain dab,
    intRow "SAR" 0x2F tyPlain dab, intRow "ROT" 0x30 tyPlain dab, intRow "BFE" 0x31 tySigned dabc, intRow "BFI" 0x32 tyPlain dabc,
    { name := "ICMP", op := 0x33, mods := [condAt 12, tySigned], args := [.pred 42, .src 36 .byFx, .last .byFx] },
    { name := "SEL", op := 0x34, mods := [tyPlain], args := [.dst 42 .byFx, .src 36 .byFx, .src 30 .byFx, .pred 24] },
    { name := "LEA", op := 0x35, args := [.dst 42 .two, .mem] },
    { name := "IABS", op := 0x36, fixed := 1 <<< 12, mods := [need (codes 48 ["S32"] 1 ++ codes 48 ["S64"] 3)], args := da } ] ++
  ([("MOV", 0), ("INEG", 2), ("NOT", 3), ("POPC", 4), ("CLZ", 5), ("CTZ", 6), ("BREV", 7)].map fun p =>
    { name := p.1, op := 0x36, fixed := p.2 <<< 12, mods := [tyPlain], args := da }) ++
  [ { name := "ADSET", op := 0x3C, args := [.ad 42, .base] },
    { name := "ADSET", op := 0x3D, args := [.ad 42, .src 36 .one] },
    { name := "ADSET", op := 0x3D, fixed := 1 <<< 12, mods := [need [("W", 0)]], args := [.ad 42, .src 36 .one, .src 30 .one] },
    { name := "ADSET", op := 0x3D, fixed := 2 <<< 12, mods := [need [("ADD", 0)]], args := [.ad 42, .ad 36, .src 30 .one] },
    { name := "ADGET", op := 0x3E, mods := [flag "W" 12], args := [.dst 42 .one, .ad 36] } ]

/-- Floating point, conversion and format (R128 to R139). -/
def rowsFloat : List Row :=
  let one := fun (n : String) (op : Nat) (m : List ModGroup) => ({ name := n, op := op, mods := m, args := [.dst 42 .one, .src 36 .one] } : Row)
  let two := fun (n : String) (op : Nat) (m : List ModGroup) => ({ name := n, op := op, mods := m, args := [.dst 42 .one, .src 36 .one, .last .one] } : Row)
  let three := fun (n : String) (op : Nat) (m : List ModGroup) =>
    ({ name := n, op := op, mods := m, args := [.dst 42 .one, .src 36 .one, .src 30 .one, .src 24 .one] } : Row)
  [ two "FADD" 0x40 [fAll, rnd], two "FSUB" 0x41 [fAll, rnd], two "FMUL" 0x42 [fAll, rnd], three "FFMA" 0x43 [fAll, rnd],
    two "FMIN" 0x44 [fAll], two "FMAX" 0x45 [fAll],
    { name := "FCMP", op := 0x46, mods := [condAt 12, fScalar, flag "U" 15], args := [.pred 42, .src 36 .one, .last .one] },
    one "FRND" 0x47 [fScalar, rnd], one "FCLASS" 0x48 [fScalar], one "FRCP" 0x49 [fScalar, rnd], one "FRSQ" 0x4A [fScalar, rnd],
    one "FSQRT" 0x4B [fScalar, rnd], one "FEXP2" 0x4C [fScalar, rnd], one "FLOG2" 0x4D [fScalar, rnd], one "FSIN" 0x4E [fScalar, rnd],
    one "FCOS" 0x4F [fScalar, rnd], two "FDIV" 0x50 [fScalar, rnd], three "FDOT2" 0x51 [fPacked, rnd],
    three "IDOT4" 0x52 [flag "SA" 13, flag "SB" 12],
    { name := "CVT", op := 0x60, mods := [need (codes 0 srcFmt)], args := [.dst 42 .one, .src 24 .one, .slot 30] },
    { name := "CVT", op := 0x60, mods := [need (codes 0 srcFmt)], args := [.dst 42 .one, .src 24 .one, .slot 30, .num 5 2 0 1] },
    { name := "QPACK", op := 0x61, mods := [need (codes 0 ["F32", "F16", "BF16"])], args := [.dst 42 .two, .src 24 .one, .slot 30] },
    { name := "QUNPK", op := 0x62, mods := [need (codes 0 ["F32", "F16", "BF16"])], args := [.dst 42 .one, .src 24 .two, .slot 30] } ]

/-- Lane exchange and reduction (R141 to R148). -/
def rowsLane : List Row :=
  let ints := codes 16 ["U32", "S32"] ++ [("U64", 1 <<< 49), ("S64", 1 <<< 49 ||| 1 <<< 16)]
  let floats := codes 16 ["F32", "F16", "BF16"] 2
  let near := orElse [("RN", 0)]
  -- the modifiers of a reduction: a float ADD alone is rounded, and a float has no bitwise operation (R141)
  let reds := [[need (codes 12 ["ADD"]), need floats, orElse (codes 20 ["RN", "RZ", "RU", "RD"])],
    [need (codes 12 ["ADD"]), need ints, near], [need (codes 12 ["MIN", "MAX"] 1), need (ints ++ floats), near],
    [need (codes 12 ["AND", "OR", "XOR"] 3), need ints, near]]
  [ { name := "SHFL", op := 0x70, mods := [need (codes 12 ["IDX", "UP", "DOWN", "XOR"]), wide], args := [.dst 42 .byFx, .src 36 .byFx, .last .one] },
    { name := "SHFLX", op := 0x71, mods := [wide], args := [.dst 42 .byFx, .src 36 .byFx, .src 30 .byFx, .src 24 .one] },
    { name := "BCAST", op := 0x72, mods := [wide], args := [.dst 42 .byFx, .src 36 .byFx, .num 12 5 0 1] },
    { name := "VOTE", op := 0x73, mods := [need [("BALLOT", 0)]], args := [.dst 42 .one, .pred 36] },
    { name := "VOTE", op := 0x73, mods := [need (codes 12 ["ANY", "ALL", "UNI"] 1)], args := [.pred 42, .pred 36] },
    { name := "REDIX", op := 0x75, mods := [need (codes 12 ["MAX", "MIN"]), need (codes 16 ["U32", "S32", "F32"])],
      args := [.dst 42 .two, .src 36 .one] },
    { name := "MATCH", op := 0x77, mods := [wide], args := [.dst 42 .one, .src 36 .byFx] } ] ++
  (reds.map fun m => { name := "RED", op := 0x74, mods := m, args := da }) ++
  reds.map fun m => { name := "SCAN", op := 0x76, mods := m ++ [flag "EX" 19], args := da }

/-- Memory, atomics, copies and barriers (R152 to R179). -/
def rowsMem : List Row :=
  let maint := fun (n : String) (op : Nat) (sc : List String) =>
    let m := [spaceG, need (scopeOf sc)]
    [({ name := n, op := op, mods := m, args := [.mem, .src 42 .one] } : Row), { name := n, op := op, fixed := 63 <<< 42, mods := m, args := [.mem] }]
  let atom := fun (l : List String) (at0 : Nat) (size : ModGroup) (w : Width) =>
    ({ name := "ATOM", op := 0xA0, mods := [need (l.zipIdx.map fun p => (p.1, fxCh (at0 + p.2))), spaceAtom, size, order ordAll, scope],
       args := [.both 42 w, .mem] } : Row)
  let bcb := fun (n : String) (op : Nat) =>
    ({ name := n, op := op, mods := [need (codes 25 ["S", "C"] 1), orElse (scopeOf ["GANG", "TEAM", "COHORT"])], args := [.mem, .src 42 .one] } : Row)
  let bar : Arg := .ad 33
  let sp3 := fun (sh : Nat) => orElse (codes sh ["G", "S", "C"])
  let sys := need (scopeOf ["SYS"])
  [ { name := "LD", op := 0x80, mods := [spaceOwn, sizeLd, order (ordOf ["RLX", "ACQ"]), scope, hint], args := [.dst 42 .bySize, .mem] },
    { name := "LD", op := 0x80, mods := [spacePeer, sizeAtom, order (ordOf ["RLX", "ACQ"]), sys, hint], args := [.dst 42 .bySize, .mem] },
    { name := "ST", op := 0x81, mods := [spaceOwn, sizeSt, order (ordOf ["RLX", "REL"]), scope, hint], args := [.mem, .src 42 .bySize] },
    { name := "ST", op := 0x81, mods := [spacePeer, sizeAtom, order (ordOf ["RLX", "REL"]), sys, hint], args := [.mem, .src 42 .bySize] },
    { name := "LDLOD", op := 0x82,
      mods := [need (codes 28 ["U8", "S8", "U16", "S16", "U32"]), order (ordOf ["RLX", "ACQ"]), scope, need (levels.map fun p => (p.1, fxCh p.2))],
      args := [.dst 42 .two, .mem] },
    { name := "SMPL", op := 0x83, mods := [need (codes 4 ["POINT", "LINEAR"]), need (codes 5 ["WRAP", "CLAMP", "MIRROR"]), need levels],
      args := [.dst 42 .texel, .ad 39, .src 24 .two] },
    { name := "LDGEN", op := 0x84, mods := [spaceG, need [("U64", 5 <<< 28)], need (ordOf ["ACQ"]), scope], args := [.dst 42 .two, .mem] },
    { name := "PREF", op := 0x85, mods := [spaceG, hint], args := [.mem] } ] ++
  maint "CINV" 0x86 ["DIE", "MOD"] ++ maint "CFLUSH" 0x87 ["SYS"] ++ maint "RINV" 0x88 ["DIE", "MOD"] ++ maint "RMINV" 0x89 ["DIE", "MOD", "DOM"] ++
  [ atom ["XCHG", "ADD", "SUB", "AND", "OR", "XOR", "UMIN", "UMAX", "SMIN", "SMAX"] 0 sizeAtom .bySize, atom ["CAS"] 10 sizeAtom .cas,
    atom ["INC"] 11 sizeAtom .bySize, atom ["FADD", "FMIN", "FMAX"] 12 (need (codes 28 ["U32"] 4)) .one,
    { name := "WAITV", op := 0xA1,
      mods := [need ((["EQ", "NE", "LT", "LE", "GT", "GE"].zipIdx).map fun p => (p.1, (p.2 / 4) <<< 48 ||| (p.2 % 4) <<< 18)), spaceAtom, sizeWait,
        order (ordOf ["RLX", "ACQ"]), scope], args := [.both 42 .bySize, .mem] },
    { name := "FENCE", op := 0xA2, mods := [need (ordOf ["ACQ", "REL", "AR"]), scope] },
    { name := "CPY", op := 0xB0, mods := [sp3 21, sp3 18], args := [.unit 39 9, .unit 36 0, .len] },
    { name := "CPY", op := 0xB0, fixed := 1 <<< 49, mods := [sp3 21, sp3 18], args := [.unit 39 9, .unit 36 0, .len, bar] },
    { name := "GTH", op := 0xB1, mods := [need (codes 21 ["S", "C"] 1), need [("U8", 0), ("U16", 2 <<< 15), ("U32", 4 <<< 15), ("U64", 5 <<< 15)]],
      args := [.unit 39 6, .elems] },
    { name := "GTH", op := 0xB1, fixed := 1 <<< 49,
      mods := [need (codes 21 ["S", "C"] 1), need [("U8", 0), ("U16", 2 <<< 15), ("U32", 4 <<< 15), ("U64", 5 <<< 15)]],
      args := [.unit 39 6, .elems, bar] },
    { name := "BCOMMIT", op := 0xB2 },
    { name := "BWAIT", op := 0xB3, args := [.num 24 24 0 1] },
    { name := "BWAIT", op := 0xB3, fixed := 1 <<< 12, args := [.src 0 .one] },
    { name := "WAITC", op := 0xB4, args := [.num 42 6 0 1, .num 36 6 0 1, .num 30 6 0 1, .num 24 6 0 1] },
    { name := "PUBL", op := 0xB5, mods := [orElse (scopeOf ["DIE", "MOD", "DOM", "SYS"])], args := [.mem] },
    bcb "BCBARM" 0xB6, bcb "BCBADD" 0xB7, bcb "BCBWAIT" 0xB8 ]

/-- Tiles and the matrix engine (R183 to R196). -/
def rowsMatrix : List Row :=
  let c := flag "C" 23
  let imm : List Arg := [.td 42, .ad 39, .num 14 9 1 1, .num 4 10 1 1, .stride, .slot 30]
  let reg : List Arg := [.td 42, .ad 39, .src 24 .one, .slot 30]
  let drain : List Arg := [.td 39, .acc 42]
  let place : List Arg := [.num 0 7 0 1, .num 8 7 0 1]
  [ { name := "TDSET", op := 0xC0, mods := [c], args := imm },
    { name := "TDSET", op := 0xC0, fixed := 1 <<< 49, mods := [c], args := imm ++ [.ad 33] },
    { name := "TDSET", op := 0xC0, fixed := 1 <<< 48, mods := [c], args := reg },
    { name := "TDSET", op := 0xC0, fixed := 3 <<< 48, mods := [c], args := reg ++ [.ad 33] },
    { name := "TDGET", op := 0xC1, mods := [need (codes 0 ["BASE", "BASEW", "SCALE", "SCALEW", "SHAPE", "CTL"])], args := [.dst 42 .one, .td 39] },
    { name := "MXZERO", op := 0xC2, mods := [flag "INT" 0], args := [.acc 42] },
    { name := "MXLDACC", op := 0xC3, args := [.acc 42, .td 39] },
    { name := "MXMMA", op := 0xC4, mods := [flag "BT" 0], args := [.acc 42, .td 39, .td 36] },
    { name := "MXDRAIN", op := 0xC5, args := drain },
    { name := "MXDRAIN", op := 0xC5, fixed := 1 <<< 49, args := drain ++ [.ad 33] },
    { name := "MXDRAIN", op := 0xC5, args := drain ++ place },
    { name := "MXDRAIN", op := 0xC5, fixed := 1 <<< 49, args := drain ++ place ++ [.ad 33] },
    { name := "MXWAIT", op := 0xC6 },
    { name := "MXWAIT", op := 0xC6, fixed := 1 <<< 3, args := [.acc 0] },
    { name := "MXMODE", op := 0xC7, mods := [need (codes 0 ["NORM", "RED"])] },
    { name := "MXSCALE", op := 0xC8, args := [.acc 42, .src 24 .one] },
    { name := "MXSCALE", op := 0xC8, mods := [need (codes 0 ["ROW", "COL"] 1)], args := [.acc 42, .td 39] } ]

/-- Engines and the system (R202 to R220). A field that the written form does not name holds 0. -/
def rowsSystem : List Row :=
  let zs := need ((List.range 4).map fun n => ("Z" ++ toString n, n))
  let coll : List ModGroup := [need (codes 8 ["ADD", "MAX", "MIN", "BCAST"]), need (codes 11 ["AUTO", "RING", "SWAP"]), classC 13 3]
  let comp : List ModGroup := [need (codes 8 ["DEPTH", "ALPHA", "COUNT"]), need (codes 11 ["SWAP", "RING"]), flag "GATHER" 12, classC 13 3]
  let pair : List Arg := [.td 39, .td 36, .num 0 8 0 1]
  let spawn : List ModGroup := [need ((List.range 4).map fun n => ("P" ++ toString n, n)), classC 2 15]
  [ { name := "FORK", op := 0xD0, args := [.label true] },
    { name := "RDV", op := 0xD1, args := [.num 16 8 0 1] },
    { name := "SPAWN", op := 0xD2, mods := spawn, args := [.pred 42, .ad 39, .ad 36] },
    { name := "SPAWN", op := 0xD2, fixed := 1 <<< 49, mods := spawn, args := [.pred 42, .ad 39, .ad 36, .ad 33] },
    { name := "DONE", op := 0xD3 },
    { name := "DONE", op := 0xD3, fixed := 1 <<< 3, mods := [need [("C", 0)]], args := [.ad 0] },
    { name := "WLPUT", op := 0xD4, mods := [zs], args := [.both 42 .one, .src 24 .byItem, .ad 39] },
    { name := "WLGET", op := 0xD5, mods := [zs], args := [.dst 42 .byItem, .ad 39, .pred 2] },
    { name := "QDONE", op := 0xD6, args := [.pred 0] },
    { name := "COLL", op := 0xD7, mods := coll, args := pair },
    { name := "COLL", op := 0xD7, fixed := 1 <<< 49, mods := coll, args := pair ++ [.ad 33] },
    { name := "COMP", op := 0xD8, mods := comp, args := pair },
    { name := "COMP", op := 0xD8, fixed := 1 <<< 49, mods := comp, args := pair ++ [.ad 33] },
    { name := "WSEND", op := 0xD9, args := [.both 42 .one, .ad 39, .num 0 8 0 1] },
    { name := "MESH", op := 0xDA, mods := [need (codes 0 ["NONE", "BACK", "FRONT"])], args := [.ad 39, .ad 36] },
    { name := "RTRACE", op := 0xDB, mods := [need levels], args := [.dst 42 .eight, .src 24 .eight, .ad 39] },
    { name := "RHIT", op := 0xDC, mods := [need (codes 0 ["NRM", "POS"])], args := [.dst 42 .four, .src 24 .eight, .ad 39] },
    { name := "RBIN", op := 0xDD, mods := [need ((List.range 16).map fun n => ("C" ++ toString n, n))],
      args := [.both 42 .one, .src 24 .eight, .ad 39] },
    { name := "SRD", op := 0xE0, args := [.dst 26 .one, .sreg] },
    { name := "SWR", op := 0xE1, args := [.sreg, .src 26 .one] },
    { name := "TIME", op := 0xE2, args := [.dst 26 .one, .num 32 1 0 1] },
    { name := "SYSC", op := 0xE3, args := [.num 0 12 0 1] },
    { name := "TRET", op := 0xE4, mods := [flag "SKIP" 0] },
    { name := "QMAP", op := 0xE5, args := [.num 32 6 0 1, .src 26 .one] },
    { name := "QUNMAP", op := 0xE6, args := [.num 32 6 0 1] },
    { name := "QSW", op := 0xE7, mods := [need (codes 0 ["SUSPEND", "RESUME", "PREEMPT", "KILL", "PRIO"])],
      args := [.num 32 6 0 1, .src 26 .one] } ]

/-- Every written form; an immediate form stands before the register form of its mnemonic. -/
def rows : List Row :=
  rowsControl ++ rowsImm ++ rowsInt ++ rowsFloat ++ rowsLane ++ rowsMem ++ rowsMatrix ++ rowsSystem

def mnemonic (s : String) : Bool := rows.any fun r => r.name == s

/-! ## Operands (R411 to R414) -/

/-- Where an instruction is assembled. -/
structure Place where
  env    : Env
  kernel : Nat
  /-- IMEM address of the word -/
  pc     : Nat
  lintel : Bool
  /-- DISP in words and AUX8, from the nesting -/
  nest   : Int × Nat
  deriving DecidableEq, Repr

/-- A signed number in `w` bits. -/
def wrapBits (w : Nat) (n : Int) : Nat := (n % 2 ^ w).toNat

/-- How many registers an operand covers, given the bits of the word so far; its first register is a multiple of that. -/
def Width.count (x : Width) (g : Bool) (w : Nat) : Nat :=
  let wide := w >>> 49 % 2 = 1
  let s64 := w >>> 28 % 8 = 5
  match x with
  | .one => 1
  | .two => if g then 1 else 2
  | .four => 4
  | .texel => 4
  | .eight => 8
  | .byFx => if wide && !g then 2 else 1
  | .bySize => if s64 && !g then 2 else 1
  | .cas => if s64 then (if g then 2 else 4) else if g then 1 else 2
  | .byItem => 2 ^ (w % 4)

/-- The field value of a register (R73); pairs and blocks start where their width lets them and name no queue (R23). -/
def regField (g dst : Bool) (n : Nat) (f : RFile) (i : Nat) : Except Nat Nat :=
  match g, f with
  | false, .v => if i % n = 0 && i + n ≤ 48 then .ok i else .error 4
  | false, .q => if n = 1 then .ok (48 + i) else .error 4
  | false, .b => if dst then .error 3 else if n ≤ 2 then .ok (55 + i) else .error 4
  | true, .g => if i % n = 0 then .ok i else .error 4
  | _, .zero => if n ≤ 2 then .ok 63 else .error 4
  | _, _ => .error 3

/-- A memory operand of class M (R78, R412). -/
def memBits (p : Place) (g : Bool) (ad : Nat) (x : Option Index) (off : Option Expr) : Except Nat Nat := do
  let o ← match off with
    | none => .ok 0
    | some e => e.number p.env (-131072) 131071
  let i ← match x with
    | none => .ok (63 <<< 33)
    | some x =>
      if x.file != (if g then .g else .v) then .error 3
      else do
        let s ← x.scale.number p.env 1 8
        if s = 3 || 4 < s && s < 8 then .error 4 else .ok (x.n <<< 33 ||| s.toNat.log2 <<< 31)
  .ok (ad <<< 39 ||| i ||| wrapBits 18 o)

/-- ADSET's value: the least shift by whole bytes that holds it (R84, R413). -/
def baseBits (p : Place) (e : Expr) : Except Nat Nat := do
  let v ← e.eval p.env
  let r ← match v with
    | .num n => .ok (n, 0)
    | .data n => .ok (n, 8)
    | .code _ _ => .error 3
  if r.1 < 0 then .error 4
  else
    let n := r.1.toNat
    match (List.range 6).find? fun k => n % 2 ^ (8 * k) = 0 && n >>> (8 * k) < 2 ^ 32 with
    | some k => .ok (n >>> (8 * k) ||| (r.2 + k) <<< 32)
    | none => .error 4

/-- DISP to a code address of this kernel (R79, R414). -/
def dispBits (p : Place) (far : Bool) (v : Val) : Except Nat Nat :=
  match v with
  | .code k a =>
    let d := a - p.pc
    if k != p.kernel || a < 0 || 2 ^ 18 ≤ a || d % 8 != 0 then .error 6
    else if !far && a / 4096 != (p.pc / 4096 : Nat) then .error 6
    else .ok (wrapBits 24 (d / 8) <<< 24)
  | _ => .error 3

/-- A number where a register stands is E5 if it is the last operand, else E3 (R84, R416). -/
def numberHere (p : Place) (isLast : Bool) (e : Expr) : Nat :=
  match e.eval p.env with
  | .ok (.num _) => if isLast then 5 else 3
  | .ok _ => 3
  | .error c => c

/-- The bits of one operand; `w` holds what the modifiers set. -/
def Arg.bits (p : Place) (g : Bool) (w : Nat) (isLast : Bool) : Arg → Opnd → Except Nat Nat
  | .src sh x, .reg f i => (regField g false (x.count g w) f i).map (· <<< sh)
  | .dst sh x, .reg f i =>
    if x == .texel && f == .v && 40 < i then .error 4 else (regField g true (x.count g w) f i).map (· <<< sh)
  | .both sh x, .reg f i => (regField g true (x.count g w) f i).map (· <<< sh)
  | .last x, .reg f i =>
    if !g && f == .g then .ok (i <<< 30 ||| 1 <<< 23) else (regField g false (x.count g w) f i).map (· <<< 30)
  | .pred sh, .reg f i => if f == (if g then .gp else .k) then .ok (i <<< sh) else .error 3
  | .ad sh, .reg .ad i => .ok (i <<< sh)
  | .td sh, .reg .td i => .ok (i <<< sh)
  | .acc sh, .reg .acc i => .ok (i <<< sh)
  | .slot sh, .reg .fs i => .ok (i <<< sh)
  | .slot sh, .ex e => (e.number p.env 0 7).map fun n => n.toNat <<< sh
  | .sreg, .ex (.sym s) =>
    match sregOf s with
    | some n => .ok (n <<< 32)
    | none => ((Expr.sym s).number p.env 0 65535).map fun n => n.toNat <<< 32
  | .sreg, .ex e => (e.number p.env 0 65535).map fun n => n.toNat <<< 32
  | .mem, .mem a x o => memBits p g a x o
  | .unit aSh oSh, .mem a none o => do
    let n ← match o with
      | none => .ok 0
      | some e => e.number p.env (-4096) 4080
    if n % 16 = 0 then .ok (a <<< aSh ||| wrapBits 9 (n / 16) <<< oSh) else .error 4
  | .elems, .mem a (some x) none => do
    if x.file != .v then .error 3
    else
      let s ← x.scale.number p.env 1 8
      if s = 2 ^ (w >>> 15 % 8 / 2 + w >>> 15 % 2) then .ok (a <<< 36 ||| x.n <<< 24) else .error 4
  | .imm code, .ex e =>
    match e.eval p.env with
    | .ok (.num v) => if -2147483648 ≤ v && v < 4294967296 then .ok (wrapBits 32 v) else .error 4
    | .ok (.code _ a) => if code then .ok (wrapBits 32 a) else .error 3
    | .ok _ => .error 3
    | .error c => .error c
  | .base, .ex e => baseBits p e
  | .num sh n lo step, .ex e => do
    let v ← e.number p.env lo (lo + (2 ^ n - 1) * step)
    if (v - lo) % step = 0 then .ok (((v - lo) / step).toNat <<< sh) else .error 4
  | .stride, .ex e => do
    let v ← e.number p.env 0 16368
    if v % 16 = 0 then .ok ((v.toNat / 256) <<< 24 ||| v.toNat / 16 % 16) else .error 4
  | .len, .ex e => do
    let v ← e.number p.env 16 65536
    if v % 16 = 0 then
      let n := v.toNat / 16 - 1
      .ok ((n / 64) <<< 42 ||| (n % 64) <<< 24)
    else .error 4
  | .len, .reg .g i => .ok (i <<< 24 ||| 1 <<< 48)
  | .label far, .ex e =>
    match e.eval p.env with
    | .ok v => dispBits p far v
    | .error c => .error c
  | .cond, .reg f i => if f == (if g then .gp else .k) then .ok (i <<< 52) else .error 3
  | .cond, .nreg f i => if f == (if g then .gp else .k) then .ok (i <<< 52 ||| 1 <<< 55) else .error 3
  | .src _ _, .ex e => .error (numberHere p isLast e)
  | .dst _ _, .ex e => .error (numberHere p isLast e)
  | .both _ _, .ex e => .error (numberHere p isLast e)
  | .last _, .ex e => .error (numberHere p isLast e)
  | _, _ => .error 3

/-- The operands of a form, one for one. -/
def argBits (p : Place) (g : Bool) : List Arg → List Opnd → Nat → Except Nat Nat
  | [], [], w => .ok w
  | a :: as, o :: os, w =>
    match a.bits p g w os.isEmpty o with
    | .ok b => argBits p g as os (w ||| b)
    | .error c => .error c
  | _, _, _ => .error 3

/-- The modifiers of a form, in order; a `T` that is left over at the end is the transient mark. -/
def modBits : List ModGroup → List String → Nat → Except Nat (Nat × Bool)
  | [], [], w => .ok (w, false)
  | [], ["T"], w => .ok (w, true)
  | [], _, _ => .error 2
  | g :: gs, ms, w =>
    match ms with
    | m :: r =>
      match g.opts.find? fun p => p.1 == m with
      | some p => modBits gs r (w ||| p.2)
      | none => match g.dflt with
        | some d => modBits gs ms (w ||| d)
        | none => .error 2
    | [] => match g.dflt with
      | some d => modBits gs [] (w ||| d)
      | none => .error 2

/-- The register operands that R71 counts: all but `zero` and the format slots. -/
def Opnd.files : Opnd → List RFile
  | .reg f _ => [f]
  | .nreg f _ => [f]
  | .mem _ x _ => .ad :: (x.map (·.file)).toList
  | .ex _ => []

/-- The G bit (R71). -/
def formBit (forms : Forms) (lintel : Bool) (cond : Option Cond) (ops : List Opnd) : Bool :=
  match forms with
  | .g => true
  | .l => false
  | .lg =>
    let fs := (ops.flatMap Opnd.files).filter fun f => f != .zero && f != .fs
    lintel || (if fs.isEmpty then (match cond with
      | some c => c.gp
      | none => false) else fs.all RFile.group)

/-- The destination of a form that admits the transient mark is its first operand. -/
def Row.takesT (r : Row) : Bool :=
  match r.args with
  | .dst _ _ :: _ => 0x20 ≤ r.op && r.op < 0x80
  | _ => false

/-- A word that the decoder takes on some core: what the assembler emits (R417). -/
def wordOk (w : Nat) : Except Nat Nat :=
  let x := BitVec.ofNat 64 w
  match decode .vector x, decode .lintel x with
  | .ok _, _ => .ok w
  | _, .ok _ => .ok w
  | .error 6, _ => .error 11
  | _, _ => .error 4

/-- SRD and SWR of a 64-bit register in the lane form name a pair (R216). -/
def sregPairOk (r : Row) (g : Bool) (w : Nat) : Bool :=
  let a := w >>> 26 % 64
  !(r.op = 0xE0 || r.op = 0xE1) || g || Machine.sregNarrow (w >>> 32 % 65536) || okPair (BitVec.ofNat 6 a)

/-- An instruction under one form. -/
def Row.assemble (r : Row) (p : Place) (cond : Option Cond) (mods : List String) (ops : List Opnd) : Except Nat Nat := do
  let m ← modBits r.mods mods r.word
  let cols := r.columns
  let g := formBit cols.1 p.lintel cond ops
  if p.lintel && (cols.1 == .l || cols.2 == .n) then .error 12
  else if !p.lintel && cols.2 == .only then .error 12
  else if r.pred == .no && cond.isSome then .error 3
  else if (match cond with
    | some c => c.gp != g
    | none => false) then .error 12
  else if m.2 && (g || !r.takesT) then .error 11
  else
    let args := if m.2 then r.args.drop 1 else r.args
    let w ← argBits p g args ops m.1
    if !sregPairOk r g w then .error 4 else
    let pi := match r.pred, cond with
      | .no, _ => 0
      | .yes, some c => (if c.neg then 1 <<< 55 else 0) ||| c.n <<< 52
      | .yes, none => 7 <<< 52
    let n := if r.nest then wrapBits 24 p.nest.1 <<< 24 ||| p.nest.2 <<< 16 else 0
    wordOk (w ||| pi ||| n ||| (if g then 1 <<< 51 else 0) ||| (if m.2 then 1 <<< 50 else 0))

/-- The error that the forms of a mnemonic report: of those whose modifiers fit, the first that is no mere mismatch of operands. -/
def worst (l : List Nat) : Nat :=
  let m := l.filter (· != 2)
  if m.isEmpty then l.headD 1
  else
    let c := (m.find? (· != 3)).getD 3
    -- a number that an immediate form takes, under modifiers that it does not
    if c = 5 && l.contains 2 then 2 else c

/-- An instruction under the forms of its mnemonic: the first that takes it. -/
def assembleWord (p : Place) (cond : Option Cond) (name : String) (mods : List String) (ops : List Opnd) : Except Nat (BitVec 64) :=
  let tries := (rows.filter fun r => r.name == name).map fun r => r.assemble p cond mods ops
  match tries.findSome? fun t => match t with
    | .ok w => some w
    | .error _ => none with
  | some w => .ok (BitVec.ofNat 64 w)
  | none => .error (worst (tries.filterMap fun t => match t with
    | .ok _ => none
    | .error c => some c))

end Sys2Proof.Asm
end

