-- ==== Sys2Proof/Machine/Assemble.lean ====
section
/-! DEFINITION. The assembler: one source file to one object, or to its errors in line order (R71, R98, R312, R407 to R418). -/

namespace Sys2Proof.Asm

open Sys2Proof.Machine

/-! ## Objects and diagnostics (R415, R416) -/

structure Kernel where
  name   : String
  /-- the words of every segment slot that holds code, 512 each -/
  code   : List (Nat × List (BitVec 64))
  /-- shape entry 0 (R312) -/
  shape  : Nat
  /-- FS0 to FS7 (R61) -/
  slots  : List Nat
  /-- the groups that the kernel's teams are members of (R316) -/
  groups : List Nat
  /-- NVIEW (R310) -/
  views  : Nat
  deriving DecidableEq, Repr

structure Object where
  kernels : List Kernel
  data    : List Byte
  deriving DecidableEq, Repr

structure Diag where
  line : Nat
  code : Nat
  deriving DecidableEq, Repr

/-- The conditions of R416's table, as the text of a diagnostic. -/
def condition : Nat → String
  | 1 => "unknown mnemonic, directive or token"
  | 2 => "modifier not admitted, out of order, or missing"
  | 3 => "operand of the wrong kind, wrong count, or an address where a number is needed"
  | 4 => "value outside its field or range"
  | 5 => "numeric last operand without an immediate encoding"
  | 6 => "branch outside its field or into another segment"
  | 7 => "structured construct unmatched"
  | 8 => "segment overflow, or a slot not above the current one"
  | 9 => "symbol undefined, defined twice, or forward"
  | 10 => "directive out of place or repeated"
  | 11 => ".T not admitted"
  | _ => "not admitted in this part of the kernel"

/-- `file:line: Ecode text` (R416). -/
def Diag.render (file : String) (d : Diag) : String :=
  file ++ ":" ++ toString d.line ++ ": E" ++ toString d.code ++ " " ++ condition d.code

/-- Line order; diagnostics of one line keep their order. -/
def insertDiag (d : Diag) : List Diag → List Diag
  | [] => [d]
  | x :: r => if d.line < x.line then d :: x :: r else x :: insertDiag d r

def inLineOrder (l : List Diag) : List Diag := l.foldl (fun acc d => insertDiag d acc) []

/-! ## First pass: places and symbols -/

/-- One instruction at its place. -/
structure Item where
  line : Nat
  pc   : Nat
  cond : Option Cond
  name : String
  mods : List String
  args : List (List Tok)
  deriving DecidableEq, Repr

/-- A kernel that is being read. -/
structure Open where
  name   : String
  slot   : Nat := 0
  /-- words in the current slot -/
  used   : Nat := 0
  items  : List Item := []
  /-- the directives given, those that may stand once -/
  given  : List String := []
  teams  : Nat := 1
  gangs  : Nat := 1
  slices : Nat := 8
  spad   : Nat := 0
  queues : Nat := 0
  slots  : List (Nat × Nat) := []
  groups : List Nat := []
  views  : Nat := 0
  deriving DecidableEq, Repr

/-- A piece of the data image. -/
inductive Chunk where
  | zeros (n : Nat)
  | bytes (l : List Byte)
  /-- values of `w` bytes each, known once every symbol is -/
  | values (line w : Nat) (args : List (List Tok))
  deriving DecidableEq, Repr

structure Pass where
  closed : List Open := []
  cur    : Option Open := none
  /-- in the data section -/
  inData : Bool := false
  /-- length of the data image -/
  size   : Nat := 0
  chunks : List Chunk := []
  env    : Env := []
  diags  : List Diag := []
  deriving DecidableEq, Repr

def Pass.err (p : Pass) (line code : Nat) : Pass := { p with diags := p.diags ++ [{ line := line, code := code }] }

/-- A name that may be a symbol (R407). -/
def symbolOk (s : String) : Bool :=
  s.length ≤ 63 && (s.toList.head?.map isStart).getD false && (regOf s).isNone && !mnemonic s && (sregOf s).isNone

/-- A symbol defined: one that is no symbol is E1, a second definition is E9. -/
def Pass.define (p : Pass) (line : Nat) (s : String) (v : Val) : Pass :=
  if !symbolOk s then p.err line 1
  else if p.env.any fun x => x.1 == s then p.err line 9
  else { p with env := p.env ++ [(s, v)] }

def Open.here (k : Open) : Nat := 4096 * k.slot + 8 * k.used

/-- A label: a code address in a kernel, a data address in the data section (R408). -/
def Pass.label (p : Pass) (line : Nat) (s : String) : Pass :=
  match p.cur with
  | some k => p.define line s (.code p.closed.length k.here)
  | none => if p.inData then p.define line s (.data p.size) else p.err line 10

/-- The number a directive's argument stands for, with the symbols defined so far. -/
def Pass.number (p : Pass) (lo hi : Int) (arg : List Tok) : Except Nat Int :=
  match exprOf arg with
  | some e => e.number p.env lo hi
  | none => .error 3

/-- A format's FMT code, by name (R61). -/
def fmtCode (s : String) : Option Nat :=
  match srcFmt.idxOf? s with
  | some n => some n
  | none => (["ZB2", "ZB3", "ZB4", "ZB5", "ZB6", "ZB7", "ZB8"].idxOf? s).map (· + 18)

/-- The value of a format slot (R61): a ZB format gets blocks of 32 and SCH = 1, or 2 with GIVEN. -/
def slotValue (p : Pass) (args : List (List Tok)) : Except Nat (Nat × Nat) :=
  match args with
  | n :: [.word [f]] :: [.word [r]] :: more => do
    let i ← p.number 0 7 n
    match fmtCode f, (["RN", "RZ", "RU", "RD", "SR"].idxOf? r), more with
    | some f, some r, more =>
      let sat := more.head? == some [.word ["SAT"]]
      let rest := if sat then more.drop 1 else more
      let given := rest == [[.word ["GIVEN"]]]
      if !rest.isEmpty && !given then .error 3
      else if given && f < 16 then .error 4
      else
        let zb := if f < 16 then 0 else (if given then 2 else 1) <<< 9 ||| 5 <<< 11
        .ok (i.toNat, f ||| r <<< 5 ||| (if sat then 1 <<< 8 else 0) ||| zb)
    | _, _, _ => .error 3
  | _ => .error 3

/-- A directive that configures the open kernel (R415). -/
def Open.configure (k : Open) (p : Pass) (d : String) (args : List (List Tok)) : Except Nat Open :=
  match d, args with
  | "team", [a] => do
    let n ← p.number 1 8 a
    .ok { k with teams := n.toNat }
  | "gangs", [a] => do
    let n ← p.number 1 16 a
    .ok { k with gangs := n.toNat }
  | "gangs", [a, b] => do
    let n ← p.number 1 16 a
    let s ← p.number 1 8 b
    .ok { k with gangs := n.toNat, slices := s.toNat }
  | "spad", [a] => do
    let n ← p.number 0 655360 a
    if n % 16 = 0 then .ok { k with spad := n.toNat } else .error 4
  | "queues", [a] => do
    let n ← p.number 0 64 a
    .ok { k with queues := n.toNat }
  | "view", [a] => do
    let n ← p.number 1 128 a
    .ok { k with views := n.toNat }
  | "fmt", _ => do
    let r ← slotValue p args
    if k.slots.any fun x => x.1 == r.1 then .error 10 else .ok { k with slots := k.slots ++ [r] }
  | _, _ => .error 3

/-- The directives of a kernel that may stand once in it. -/
def once : List String := ["team", "gangs", "spad", "queues", "view"]

/-- `.group ix [, name]` (R415, R316): a fifth is an error. -/
def Pass.group (p : Pass) (k : Open) (line : Nat) (args : List (List Tok)) : Pass :=
  let add := fun (a : List Tok) (name : Option String) =>
    match p.number 0 255 a with
    | .error c => p.err line c
    | .ok n =>
      if 4 ≤ k.groups.length then p.err line 10
      else
        let p := { p with cur := some { k with groups := k.groups ++ [n.toNat] } }
        match name with
        | some s => p.define line s (.num n)
        | none => p
  match args with
  | [a] => add a none
  | [a, [.word [s]]] => add a (some s)
  | _ => p.err line 3

/-- `.segment [n]`: code goes on at slot n, or at the next. -/
def Pass.segment (p : Pass) (k : Open) (line : Nat) (args : List (List Tok)) : Pass :=
  let n : Except Nat Int := match args with
    | [] => .ok (k.slot + 1)
    | [a] => p.number 1 63 a
    | _ => .error 3
  match n with
  | .error c => p.err line c
  | .ok n => if n ≤ k.slot || 63 < n then p.err line 8 else { p with cur := some { k with slot := n.toNat, used := 0 } }

/-- A float literal as binary32, rounded once (R415). -/
def floatBits (neg : Bool) (m : Nat) (e : Int) : Except Nat Nat :=
  let v : FVal := if 0 ≤ e then .num neg (m * 10 ^ e.toNat) 0 else if m = 0 then .num neg 0 0 else quotient neg m (10 ^ e.natAbs) 0
  let r := (fmtF32.convert .rn false v).1
  if r % 2 ^ 31 = 0x7F800000 then .error 4 else .ok r

def floatArg : List Tok → Except Nat Nat
  | [.flt m e] => floatBits false m e
  | [.op "-", .flt m e] => floatBits true m e
  | _ => .error 3

/-- Bytes of a number, lowest first. -/
def bytesOf (w n : Nat) : List Byte := (List.range w).map fun i => BitVec.ofNat 8 (n / 256 ^ i)

def collect {α : Type} : List (Except Nat α) → Except Nat (List α)
  | [] => .ok []
  | .ok a :: r => (collect r).map (a :: ·)
  | .error c :: _ => .error c

def Pass.chunk (p : Pass) (n : Nat) (c : Chunk) : Pass := { p with size := p.size + n, chunks := p.chunks ++ [c] }

/-- A directive of the data section (R415). -/
def Pass.dataDir (p : Pass) (line : Nat) (d : String) (args : List (List Tok)) : Pass :=
  if !p.inData then p.err line 10
  else
    let values := fun (w : Nat) => if args.isEmpty then p.err line 3 else p.chunk (w * args.length) (.values line w args)
    match d, args with
    | "byte", _ => values 1
    | "half", _ => values 2
    | "word", _ => values 4
    | "dword", _ => values 8
    | "float", _ =>
      match (if args.isEmpty then .error 3 else collect (args.map floatArg)) with
      | .ok l => p.chunk (4 * l.length) (.bytes (l.flatMap (bytesOf 4)))
      | .error c => (p.err line c).chunk (4 * args.length) (.zeros (4 * args.length))
    | "zero", [a] =>
      match p.number 0 16777216 a with
      | .ok n => p.chunk n.toNat (.zeros n.toNat)
      | .error c => p.err line c
    | "align", [a] =>
      match p.number 1 4096 a with
      | .ok n =>
        let n := n.toNat
        if 2 ^ n.log2 = n then let z := (n - p.size % n) % n; p.chunk z (.zeros z) else p.err line 4
      | .error c => p.err line c
    | _, _ => p.err line 3

def dataDirs : List String := ["byte", "half", "word", "dword", "float", "zero", "align"]

/-- A directive (R415). -/
def Pass.directive (p : Pass) (line : Nat) (d : String) (args : List (List Tok)) : Pass :=
  match d, args, p.cur with
  | "equ", [[.word [s]], e], _ =>
    match exprOf e with
    | none => p.err line 3
    | some e =>
      match e.eval p.env with
      | .ok v => p.define line s v
      | .error c => p.err line c
  | "equ", _, _ => p.err line 3
  | "kernel", [[.word [s]]], none =>
    if !symbolOk s then p.err line 1
    else if p.closed.any fun k => k.name == s then p.err line 9
    else { p with cur := some { name := s }, inData := false }
  | "kernel", _, none => p.err line 3
  | "kernel", _, some _ => p.err line 10
  | "endk", [], some k => { p with closed := p.closed ++ [k], cur := none }
  | "endk", [], none => p.err line 10
  | "data", [], none => { p with inData := true }
  | "data", [], some _ => p.err line 10
  | "group", _, some k => p.group k line args
  | "segment", _, some k => p.segment k line args
  | _, _, cur =>
    if once.contains d || d == "fmt" || d == "group" || d == "segment" then
      match cur with
      | none => p.err line 10
      | some k =>
        if k.given.contains d then p.err line 10
        else match k.configure p d args with
          | .ok k' => { p with cur := some { k' with given := if once.contains d then d :: k'.given else k'.given } }
          | .error c => p.err line c
    else if dataDirs.contains d then p.dataDir line d args
    else p.err line (if ["endk", "data"].contains d then 3 else 1)

/-- An instruction: one word, in a kernel. -/
def Pass.instruction (p : Pass) (line : Nat) (c : Option Cond) (n : String) (ms : List String) (args : List (List Tok)) : Pass :=
  match p.cur with
  | none => p.err line (if mnemonic n then 10 else 1)
  | some k =>
    let p := if k.used = 512 then p.err line 8 else p
    { p with cur := some { k with
        used := k.used + 1
        items := k.items ++ [{ line := line, pc := k.here, cond := c, name := n, mods := ms, args := args }] } }

def Pass.line (p : Pass) (n : Nat) (l : List Tok) : Pass :=
  let x := lineOf l
  let p := match x.label with
    | some s => p.label n s
    | none => p
  match x.body with
  | .none => p
  | .bad c => p.err n c
  | .dir d args => p.directive n d args
  | .ins c m ms args => p.instruction n c m ms args

/-- The first pass over a file; a kernel left open is an error on its last line. -/
def firstPass (src : String) : Pass :=
  let ls := lines src
  let p := ls.zipIdx.foldl (fun p l => p.line (l.2 + 1) l.1) ({} : Pass)
  match p.cur with
  | some _ => p.err (if ls.getLast? == some [] then ls.length - 1 else ls.length) 10
  | none => p

/-! ## Structured control (R96, R98) -/

/-- A construct that an ENDIF or an ENDLOOP closes. -/
structure Construct where
  loop  : Bool
  start : Nat
  els   : Option Nat
  stop  : Nat
  deriving DecidableEq, Repr

/-- A construct that is open, and the line that opened it. -/
structure Pending where
  loop  : Bool
  start : Nat
  els   : Option Nat
  line  : Nat
  deriving DecidableEq, Repr

/-- The constructs of a kernel, matched in source order, with the lines of E7. -/
def matchUp : List Item → List Pending → List Construct → List Nat → List Construct × List Nat
  | [], open_, cs, es => (cs, es ++ open_.map (·.line))
  | i :: r, open_, cs, es =>
    match i.name, open_ with
    | "IF", _ => matchUp r ({ loop := false, start := i.pc, els := none, line := i.line } :: open_) cs es
    | "LOOP", _ => matchUp r ({ loop := true, start := i.pc, els := none, line := i.line } :: open_) cs es
    | "ELSE", o :: rest =>
      if o.loop || o.els.isSome then matchUp r open_ cs (es ++ [i.line]) else matchUp r ({ o with els := some i.pc } :: rest) cs es
    | "ELSE", [] => matchUp r open_ cs (es ++ [i.line])
    | "ENDIF", o :: rest =>
      if o.loop then matchUp r open_ cs (es ++ [i.line])
      else
        matchUp r rest (cs ++ [{ loop := false, start := o.start, els := o.els, stop := i.pc }])
          (if o.start / 4096 = i.pc / 4096 then es else es ++ [i.line])
    | "ENDIF", [] => matchUp r open_ cs (es ++ [i.line])
    | "ENDLOOP", o :: rest =>
      if o.loop then
        matchUp r rest (cs ++ [{ loop := true, start := o.start, els := none, stop := i.pc }])
          (if o.start / 4096 = i.pc / 4096 then es else es ++ [i.line])
      else matchUp r open_ cs (es ++ [i.line])
    | "ENDLOOP", [] => matchUp r open_ cs (es ++ [i.line])
    | _, _ => matchUp r open_ cs es

/-- The constructs open at a place; an ENDIF's own IF no longer is. -/
def openAt (cs : List Construct) (pc : Nat) : List Construct := cs.filter fun c => c.start < pc && pc < c.stop

/-- The one opened last. -/
def innermost (cs : List Construct) : Option Construct :=
  cs.foldl (fun b c => match b with
    | none => some c
    | some x => if x.start < c.start then some c else b) none

/-- Where control resumes after a place (R96). -/
def resumePoint (cs : List Construct) (pc : Nat) : Nat :=
  match innermost (openAt cs pc) with
  | none => pc + 8
  | some c =>
    if c.loop then c.stop
    else match c.els with
      | some e => if pc < e then e else c.stop
      | none => c.stop

/-- IFs open inside the innermost open loop; `none` outside every loop. -/
def ifDepth (cs : List Construct) (pc : Nat) : Option Nat :=
  match innermost ((openAt cs pc).filter (·.loop)) with
  | none => none
  | some l => some ((openAt cs pc).filter fun c => !c.loop && l.start < c.start).length

/-- DISP, in words, and AUX8 of a structured instruction; E7 where it has no place there (R96, R98). -/
def nestOf (cs : List Construct) (i : Item) : Except Nat (Int × Nat) :=
  let to_ := fun (t : Nat) (d : Nat) => Except.ok ((((t : Int) - i.pc) / 8, d) : Int × Nat)
  match i.name with
  | "IF" => match cs.find? fun c => c.start == i.pc with
    | some c => to_ (c.els.getD c.stop) 0
    | none => .error 7
  | "ELSE" => match cs.find? fun c => c.els == some i.pc with
    | some c => to_ c.stop 0
    | none => .error 7
  | "ENDIF" => to_ (resumePoint cs i.pc) 0
  | "LOOP" => match cs.find? fun c => c.start == i.pc with
    | some c => to_ c.stop 0
    | none => .error 7
  | "ENDLOOP" => match cs.find? fun c => c.loop && c.stop == i.pc with
    | some c => to_ (c.start + 8) 0
    | none => .error 7
  | "RET" => if (openAt cs i.pc).isEmpty then to_ i.pc 0 else .error 7
  | _ =>
    if i.name == "BREAK" || i.name == "CONT" then
      match ifDepth cs i.pc with
      | some d => if d ≤ 61 then to_ (resumePoint cs i.pc) d else .error 7
      | none => .error 7
    else to_ i.pc 0

/-! ## Second pass: words and values -/

/-- The operands of an instruction; one that is none is E3. -/
def operands (args : List (List Tok)) : Except Nat (List Opnd) :=
  collect (args.map fun a => match opndOf a with
    | some o => .ok o
    | none => .error 3)

/-- The lintel part begins at the first label that a FORK of the kernel names (R71). -/
def lintelStart (env : Env) (kernel : Nat) (items : List Item) : Option Nat :=
  items.foldl (fun b i =>
    if i.name == "FORK" then
      match (operands i.args) with
      | .ok [.ex e] => match e.eval env with
        | .ok (.code k a) =>
          if k == kernel then match b with
            | some x => some (min x a.toNat)
            | none => some a.toNat
          else b
        | _ => b
      | _ => b
    else b) none

/-- A word of a kernel, or its error. -/
def itemWord (env : Env) (kernel : Nat) (lintel : Option Nat) (cs : List Construct) (i : Item) : Except Nat (BitVec 64) :=
  if !mnemonic i.name then .error 1
  else match operands i.args with
    | .error c => .error c
    | .ok ops =>
      let n := match nestOf cs i with
        | .ok n => n
        | .error _ => (0, 0)
      let part := match lintel with
        | some a => decide (a ≤ i.pc)
        | none => false
      assembleWord { env := env, kernel := kernel, pc := i.pc, lintel := part, nest := n } i.cond i.name i.mods ops

/-- The highest lane register that an instruction names; SMPL writes the status beyond its four channels, and the
allocation covers it (log entry 115, DEDUCED). -/
def itemTop (i : Item) : Nat :=
  match operands i.args with
  | .error _ => 0
  | .ok ops =>
    let one := fun (o : Opnd) => match o with
      | .reg .v n => n
      | .mem _ (some x) _ => if x.file == .v then x.n else 0
      | _ => 0
    let m := (ops.map one).foldl max 0
    if i.name == "SMPL" then max m ((ops.head?.map one).getD 0 + 4) else m

/-- Unused words of a segment: NOP without a predicate (R88). -/
def filler : BitVec 64 := 0x0070000000000000#64

/-- The segments of a kernel. -/
def segments (k : Open) (words : List (Nat × BitVec 64)) : List (Nat × List (BitVec 64)) :=
  let slots : List Nat := ((words.map fun (w : Nat × BitVec 64) => w.1 / 4096) ++ [0, k.slot]).eraseDups
  slots.map fun s =>
    let ws := (words.filter fun (w : Nat × BitVec 64) => w.1 / 4096 == s).map (·.2)
    (s, ws ++ List.replicate (512 - ws.length) filler)

/-- The words of a kernel that assemble, by IMEM address, and its diagnostics. -/
def kernelWords (env : Env) (ix : Nat) (k : Open) : List (Nat × BitVec 64) × List Diag :=
  let m := matchUp k.items [] [] []
  let start := lintelStart env ix k.items
  let words := k.items.map fun i => (i, itemWord env ix start m.1 i)
  let e7 := (k.items.filter fun i => match nestOf m.1 i with
    | .error _ => i.name == "BREAK" || i.name == "CONT" || i.name == "RET"
    | .ok _ => false).map (·.line)
  (words.filterMap fun p => match p.2 with
      | .ok w => some (p.1.pc, w)
      | .error _ => none,
   (m.2 ++ e7).map (fun l => { line := l, code := 7 }) ++ words.filterMap fun p => match p.2 with
      | .ok _ => none
      | .error c => some { line := p.1.line, code := c })

/-- Shape entry 0 (R312); NSEGM1 is not among what its directives give (log entry 115, DEDUCED). -/
def Open.shape (k : Open) : Nat :=
  (k.teams - 1) ||| (k.gangs - 1) <<< 3 ||| (k.slices - 1) <<< 7 ||| (k.items.map itemTop).foldl max 0 / 8 <<< 10 ||| k.queues <<< 13 |||
    (k.spad / 16) <<< 20

def Open.kernel (k : Open) (words : List (Nat × BitVec 64)) : Kernel :=
  { name := k.name, code := segments k words, shape := k.shape
    slots := (List.range 8).map fun n => ((k.slots.find? fun s => s.1 == n).map (·.2)).getD 0
    groups := k.groups, views := k.views }

/-- A value of `w` bytes in the data image: it fits signed or unsigned; an address stands for its value (R408, R415). -/
def valueBytes (env : Env) (w : Nat) (arg : List Tok) : Except Nat (List Byte) :=
  match exprOf arg with
  | none => .error 3
  | some e =>
    match e.eval env with
    | .error c => .error c
    | .ok x =>
      let v : Int := match x with
        | .num n => n
        | .data n => n
        | .code _ n => n
      if -(2 ^ (8 * w - 1)) ≤ v && v < 2 ^ (8 * w) then .ok (bytesOf w (wrapBits (8 * w) v)) else .error 4

def Chunk.emit (env : Env) : Chunk → List Byte × List Diag
  | .zeros n => (List.replicate n 0#8, [])
  | .bytes l => (l, [])
  | .values line w args =>
    match collect (args.map (valueBytes env w)) with
    | .ok l => (l.flatten, [])
    | .error c => ([], [{ line := line, code := c }])

/-- One source file: its object, or every error in line order; a file with an error has no object (R416). -/
def assemble (src : String) : Except (List Diag) Object :=
  let p := firstPass src
  let ks := p.closed.zipIdx.map fun k => (k.1, kernelWords p.env k.2 k.1)
  let ds := p.chunks.map (Chunk.emit p.env)
  let errs := p.diags ++ ks.flatMap (fun k => k.2.2) ++ ds.flatMap (·.2)
  if errs.isEmpty then .ok { kernels := ks.map fun k => k.1.kernel k.2.1, data := ds.flatMap (·.1) }
  else .error (inLineOrder errs)

end Sys2Proof.Asm
end

