-- ==== Sys2Proof/Laws/Asm.lean ====
section
/-! SUPPORT. What the assembler can emit (R417). -/

namespace Sys2Proof.Asm

/-- The decoder of some core takes a word. -/
def Decodes (w : BitVec 64) : Prop := ∃ k i, decode k w = .ok i

theorem wordOk_decodes {n m : Nat} (h : wordOk n = .ok m) : n = m ∧ Decodes (BitVec.ofNat 64 m) := by
  unfold wordOk at h
  dsimp only at h
  split at h
  · cases h; exact ⟨rfl, _, _, ‹_›⟩
  · cases h; exact ⟨rfl, _, _, ‹_›⟩
  · cases h
  · cases h

theorem ite_error {p : Prop} [Decidable p] {c : Nat} {x : Except Nat Nat} {m : Nat}
    (h : (if p then .error c else x) = .ok m) : x = .ok m := by
  split at h
  · cases h
  · exact h

theorem row_decodes {r : Row} {p : Place} {c : Option Cond} {ms : List String} {ops : List Opnd} {m : Nat}
    (h : r.assemble p c ms ops = .ok m) : Decodes (BitVec.ofNat 64 m) := by
  unfold Row.assemble at h
  cases hm : modBits r.mods ms r.word with
  | error e => rw [hm] at h; cases h
  | ok x =>
    rw [hm] at h
    have h := ite_error (ite_error (ite_error (ite_error (ite_error h))))
    dsimp only [bind, Except.bind] at h
    split at h
    · cases h
    · exact (wordOk_decodes (ite_error h)).2

/-- R417: a word that the assembler emits is one that the decoder of some core takes: the word alone is no malformed one. -/
theorem assembleWord_decodes {p : Place} {c : Option Cond} {n : String} {ms : List String} {ops : List Opnd} {w : BitVec 64}
    (h : assembleWord p c n ms ops = .ok w) : Decodes w := by
  unfold assembleWord at h
  dsimp only at h
  split at h
  · rename_i m hm
    cases h
    obtain ⟨x, hx, ht⟩ := List.exists_of_findSome?_eq_some hm
    obtain ⟨r, -, rfl⟩ := List.mem_map.1 hx
    split at ht
    · rename_i w' hw; cases ht; exact row_decodes hw
    · cases ht
  · cases h

end Sys2Proof.Asm
end

