-- ==== Sys2Proof/Laws/Map.lean ====
section
/-! SUPPORT. What a sparse map reads after an update, and that updates keep its canonical form. -/

namespace Sys2Proof.Machine

variable {α : Type}

@[simp] theorem KMap.get_nil (d : α) (k : Nat) : KMap.get d [] k = d := rfl

theorem KMap.get_erase (d : α) (m : KMap α) (k j : Nat) :
    KMap.get d (KMap.erase m k) j = if j = k then d else KMap.get d m j := by
  induction m with
  | nil => simp [KMap.erase]
  | cons p r ih =>
    obtain ⟨a, v⟩ := p
    by_cases h : k = a
    · subst h; simp only [KMap.erase, if_true, KMap.get, ih]; split_ifs <;> simp_all
    · simp only [KMap.erase, if_neg h, KMap.get, ih]
      split_ifs <;> simp_all

theorem KMap.get_insert (d : α) (m : KMap α) (k j : Nat) (a : α) :
    KMap.get d (KMap.insert m k a) j = if j = k then a else KMap.get d m j := by
  induction m with
  | nil => simp [KMap.insert, KMap.get]
  | cons p r ih =>
    obtain ⟨b, v⟩ := p
    simp only [KMap.insert]
    split_ifs <;> simp_all [KMap.get]

/-- A read after a write: the value written at its key, the old value at every other. -/
@[simp] theorem KMap.get_set [DecidableEq α] (d : α) (m : KMap α) (k j : Nat) (a : α) :
    KMap.get d (KMap.set d m k a) j = if j = k then a else KMap.get d m j := by
  unfold KMap.set
  split_ifs with h <;> simp [KMap.get_erase, KMap.get_insert, h] <;> simp_all

theorem KMap.get_setAll_notMem [DecidableEq α] (d : α) (l : List (Nat × α)) (m : KMap α) (j : Nat)
    (h : ∀ p ∈ l, p.1 ≠ j) : KMap.get d (KMap.setAll d m l) j = KMap.get d m j := by
  induction l generalizing m with
  | nil => rfl
  | cons p r ih =>
    have hp := h p (by simp)
    simp only [KMap.setAll, List.foldl_cons] at *
    rw [ih _ fun q hq => h q (by simp [hq])]
    simp [Ne.symm hp]

/-! ## The canonical form -/

theorem KMap.risingFrom_mono {m : KMap α} {lo hi : Nat} (h : KMap.risingFrom m hi = true) (hl : lo ≤ hi) :
    KMap.risingFrom m lo = true := by
  cases m with
  | nil => rfl
  | cons p r => simp [KMap.risingFrom] at *; exact ⟨by omega, h.2⟩

theorem KMap.risingFrom_erase {m : KMap α} {lo k : Nat} (h : KMap.risingFrom m lo = true) :
    KMap.risingFrom (KMap.erase m k) lo = true := by
  induction m generalizing lo with
  | nil => rfl
  | cons p r ih =>
    obtain ⟨a, v⟩ := p
    simp only [KMap.risingFrom, Bool.and_eq_true, decide_eq_true_eq] at h
    simp only [KMap.erase]
    split_ifs
    · exact ih (KMap.risingFrom_mono h.2 (by omega))
    · simp [KMap.risingFrom, h.1, ih h.2]

theorem KMap.risingFrom_insert {m : KMap α} {lo k : Nat} {a : α} (h : KMap.risingFrom m lo = true) (hk : lo ≤ k) :
    KMap.risingFrom (KMap.insert m k a) lo = true := by
  induction m generalizing lo with
  | nil => simp [KMap.insert, KMap.risingFrom, hk]
  | cons p r ih =>
    obtain ⟨b, v⟩ := p
    simp only [KMap.risingFrom, Bool.and_eq_true, decide_eq_true_eq] at h
    simp only [KMap.insert]
    split_ifs with h1 h2
    · subst h1; simp [KMap.risingFrom, hk, h.2]
    · simp only [KMap.risingFrom, Bool.and_eq_true, decide_eq_true_eq]
      exact ⟨hk, by omega, h.2⟩
    · simp only [KMap.risingFrom, Bool.and_eq_true, decide_eq_true_eq]
      exact ⟨h.1, ih h.2 (by omega)⟩

theorem KMap.mem_erase {m : KMap α} {k : Nat} {p : Nat × α} (h : p ∈ KMap.erase m k) : p ∈ m := by
  induction m with
  | nil => exact h
  | cons q r ih =>
    obtain ⟨b, v⟩ := q
    simp only [KMap.erase] at h
    split_ifs at h
    · exact List.mem_cons_of_mem _ (ih h)
    · rcases List.mem_cons.mp h with h | h
      · exact h ▸ List.mem_cons_self
      · exact List.mem_cons_of_mem _ (ih h)

theorem KMap.mem_insert {m : KMap α} {k : Nat} {a : α} {p : Nat × α} (h : p ∈ KMap.insert m k a) : p = (k, a) ∨ p ∈ m := by
  induction m with
  | nil => exact .inl (by simpa [KMap.insert] using h)
  | cons q r ih =>
    obtain ⟨b, v⟩ := q
    simp only [KMap.insert] at h
    split_ifs at h
    · rcases List.mem_cons.mp h with h | h
      · exact .inl h
      · exact .inr (List.mem_cons_of_mem _ h)
    · rcases List.mem_cons.mp h with h | h
      · exact .inl h
      · exact .inr h
    · rcases List.mem_cons.mp h with h | h
      · exact .inr (h ▸ List.mem_cons_self)
      · exact (ih h).imp_right (List.mem_cons_of_mem _)

/-- An update keeps the canonical form. -/
theorem KMap.wf_set [DecidableEq α] {d : α} {m : KMap α} (k : Nat) (a : α) (h : KMap.wf d m = true) :
    KMap.wf d (KMap.set d m k a) = true := by
  simp only [KMap.wf, Bool.and_eq_true, List.all_eq_true, decide_eq_true_eq] at *
  unfold KMap.set
  split_ifs with ha
  · exact ⟨KMap.risingFrom_erase h.1, fun p hp => h.2 p (KMap.mem_erase hp)⟩
  · refine ⟨KMap.risingFrom_insert h.1 (Nat.zero_le _), fun p hp => ?_⟩
    rcases KMap.mem_insert hp with rfl | hp
    · exact ha
    · exact h.2 p hp

theorem KMap.wf_setAll [DecidableEq α] {d : α} (l : List (Nat × α)) {m : KMap α} (h : KMap.wf d m = true) :
    KMap.wf d (KMap.setAll d m l) = true := by
  induction l generalizing m with
  | nil => exact h
  | cons p r ih => exact ih (KMap.wf_set p.1 p.2 h)

end Sys2Proof.Machine
end

