-- ==== Sys2Proof/Laws/State.lean ====
section
/-! SUPPORT. What each field reads after each update of the state: one lemma per field per update. -/

namespace Sys2Proof.Machine

/-! ## setGangAt -/

@[simp] theorem State.gangAt_setGangAt (s : State) (k j : Nat) (g : Gang) : (s.setGangAt k g).gangAt j = if j = k then g else s.gangAt j := by
  simp [State.gangAt, State.setGangAt]
@[simp] theorem State.setGangAt_clock (s : State) (k : Nat) (g : Gang) : (s.setGangAt k g).clock = s.clock := rfl
@[simp] theorem State.setGangAt_due (s : State) (k : Nat) (g : Gang) : (s.setGangAt k g).due = s.due := rfl
@[simp] theorem State.setGangAt_runq (s : State) (k : Nat) (g : Gang) : (s.setGangAt k g).runq = s.runq := rfl
@[simp] theorem State.setGangAt_fused (s : State) (k : Nat) (g : Gang) : (s.setGangAt k g).fused = s.fused := rfl
@[simp] theorem State.setGangAt_turn (s : State) (k : Nat) (g : Gang) : (s.setGangAt k g).turn = s.turn := rfl
@[simp] theorem State.setGangAt_gk (s : State) (k : Nat) (g : Gang) : (s.setGangAt k g).gk = s.gk := rfl
@[simp] theorem State.setGangAt_pt (s : State) (k : Nat) (g : Gang) : (s.setGangAt k g).pt = s.pt := rfl
@[simp] theorem State.setGangAt_fresh (s : State) (k : Nat) (g : Gang) : (s.setGangAt k g).fresh = s.fresh := rfl
@[simp] theorem State.setGangAt_nextId (s : State) (k : Nat) (g : Gang) : (s.setGangAt k g).nextId = s.nextId := rfl
@[simp] theorem State.setGangAt_teams (s : State) (k : Nat) (g : Gang) : (s.setGangAt k g).teams = s.teams := rfl
@[simp] theorem State.setGangAt_cohorts (s : State) (k : Nat) (g : Gang) : (s.setGangAt k g).cohorts = s.cohorts := rfl
@[simp] theorem State.setGangAt_queues (s : State) (k : Nat) (g : Gang) : (s.setGangAt k g).queues = s.queues := rfl
@[simp] theorem State.setGangAt_mx (s : State) (k : Nat) (g : Gang) : (s.setGangAt k g).mx = s.mx := rfl
@[simp] theorem State.setGangAt_mem (s : State) (k : Nat) (g : Gang) : (s.setGangAt k g).mem = s.mem := rfl
@[simp] theorem State.setGangAt_tags (s : State) (k : Nat) (g : Gang) : (s.setGangAt k g).tags = s.tags := rfl
@[simp] theorem State.setGangAt_log (s : State) (k : Nat) (g : Gang) : (s.setGangAt k g).log = s.log := rfl
@[simp] theorem State.setGangAt_vclock (s : State) (k : Nat) (g : Gang) : (s.setGangAt k g).vclock = s.vclock := rfl
@[simp] theorem State.setGangAt_copies (s : State) (k : Nat) (g : Gang) : (s.setGangAt k g).copies = s.copies := rfl
@[simp] theorem State.setGangAt_publs (s : State) (k : Nat) (g : Gang) : (s.setGangAt k g).publs = s.publs := rfl
@[simp] theorem State.setGangAt_fetches (s : State) (k : Nat) (g : Gang) : (s.setGangAt k g).fetches = s.fetches := rfl
@[simp] theorem State.setGangAt_sagger (s : State) (k : Nat) (g : Gang) : (s.setGangAt k g).sagger = s.sagger := rfl
@[simp] theorem State.setGangAt_dies (s : State) (k : Nat) (g : Gang) : (s.setGangAt k g).dies = s.dies := rfl
@[simp] theorem State.setGangAt_cores (s : State) (k : Nat) (g : Gang) : (s.setGangAt k g).cores = s.cores := rfl
@[simp] theorem State.setGangAt_boot (s : State) (k : Nat) (g : Gang) : (s.setGangAt k g).boot = s.boot := rfl
@[simp] theorem State.setGangAt_engFaults (s : State) (k : Nat) (g : Gang) : (s.setGangAt k g).engFaults = s.engFaults := rfl
@[simp] theorem State.setGangAt_spills (s : State) (k : Nat) (g : Gang) : (s.setGangAt k g).spills = s.spills := rfl
@[simp] theorem State.setGangAt_aper (s : State) (k : Nat) (g : Gang) : (s.setGangAt k g).aper = s.aper := rfl
@[simp] theorem State.setGangAt_pcieOut (s : State) (k : Nat) (g : Gang) : (s.setGangAt k g).pcieOut = s.pcieOut := rfl
@[simp] theorem State.setGangAt_fns (s : State) (k : Nat) (g : Gang) : (s.setGangAt k g).fns = s.fns := rfl
@[simp] theorem State.setGangAt_cmds (s : State) (k : Nat) (g : Gang) : (s.setGangAt k g).cmds = s.cmds := rfl
@[simp] theorem State.setGangAt_hostOut (s : State) (k : Nat) (g : Gang) : (s.setGangAt k g).hostOut = s.hostOut := rfl
@[simp] theorem State.setGangAt_away (s : State) (k : Nat) (g : Gang) : (s.setGangAt k g).away = s.away := rfl
@[simp] theorem State.setGangAt_moving (s : State) (k : Nat) (g : Gang) : (s.setGangAt k g).moving = s.moving := rfl
@[simp] theorem State.setGangAt_plim (s : State) (k : Nat) (g : Gang) : (s.setGangAt k g).plim = s.plim := rfl
@[simp] theorem State.setGangAt_pnow (s : State) (k : Nat) (g : Gang) : (s.setGangAt k g).pnow = s.pnow := rfl
@[simp] theorem State.setGangAt_thr (s : State) (k : Nat) (g : Gang) : (s.setGangAt k g).thr = s.thr := rfl
@[simp] theorem State.setGangAt_hot (s : State) (k : Nat) (g : Gang) : (s.setGangAt k g).hot = s.hot := rfl
@[simp] theorem State.setGangAt_kfail (s : State) (k : Nat) (g : Gang) : (s.setGangAt k g).kfail = s.kfail := rfl
@[simp] theorem State.setGangAt_ways (s : State) (k : Nat) (g : Gang) : (s.setGangAt k g).ways = s.ways := rfl
@[simp] theorem State.setGangAt_badFrames (s : State) (k : Nat) (g : Gang) : (s.setGangAt k g).badFrames = s.badFrames := rfl
@[simp] theorem State.setGangAt_inbound (s : State) (k : Nat) (g : Gang) : (s.setGangAt k g).inbound = s.inbound := rfl
@[simp] theorem State.setGangAt_parked (s : State) (k : Nat) (g : Gang) : (s.setGangAt k g).parked = s.parked := rfl
@[simp] theorem State.setGangAt_modn (s : State) (k : Nat) (g : Gang) : (s.setGangAt k g).modn = s.modn := rfl
@[simp] theorem State.setGangAt_psn (s : State) (k : Nat) (g : Gang) : (s.setGangAt k g).psn = s.psn := rfl
@[simp] theorem State.setGangAt_net (s : State) (k : Nat) (g : Gang) : (s.setGangAt k g).net = s.net := rfl
@[simp] theorem State.setGangAt_pseen (s : State) (k : Nat) (g : Gang) : (s.setGangAt k g).pseen = s.pseen := rfl
@[simp] theorem State.setGangAt_rto (s : State) (k : Nat) (g : Gang) : (s.setGangAt k g).rto = s.rto := rfl
@[simp] theorem State.setGangAt_posts (s : State) (k : Nat) (g : Gang) : (s.setGangAt k g).posts = s.posts := rfl
@[simp] theorem State.setGangAt_groups (s : State) (k : Nat) (g : Gang) : (s.setGangAt k g).groups = s.groups := rfl
@[simp] theorem State.setGangAt_slotted (s : State) (k : Nat) (g : Gang) : (s.setGangAt k g).slotted = s.slotted := rfl
@[simp] theorem State.setGangAt_sent (s : State) (k : Nat) (g : Gang) : (s.setGangAt k g).sent = s.sent := rfl
@[simp] theorem State.setGangAt_qdt (s : State) (k : Nat) (g : Gang) : (s.setGangAt k g).qdt = s.qdt := rfl
@[simp] theorem State.setGangAt_meshq (s : State) (k : Nat) (g : Gang) : (s.setGangAt k g).meshq = s.meshq := rfl
@[simp] theorem State.setGangAt_quads (s : State) (k : Nat) (g : Gang) : (s.setGangAt k g).quads = s.quads := rfl

/-! ## setTeamAt -/

@[simp] theorem State.teamAt_setTeamAt (s : State) (k j : Nat) (t : Team) : (s.setTeamAt k t).teamAt j = if j = k then t else s.teamAt j := by
  simp [State.teamAt, State.setTeamAt]
@[simp] theorem State.setTeamAt_clock (s : State) (k : Nat) (t : Team) : (s.setTeamAt k t).clock = s.clock := rfl
@[simp] theorem State.setTeamAt_due (s : State) (k : Nat) (t : Team) : (s.setTeamAt k t).due = s.due := rfl
@[simp] theorem State.setTeamAt_runq (s : State) (k : Nat) (t : Team) : (s.setTeamAt k t).runq = s.runq := rfl
@[simp] theorem State.setTeamAt_fused (s : State) (k : Nat) (t : Team) : (s.setTeamAt k t).fused = s.fused := rfl
@[simp] theorem State.setTeamAt_turn (s : State) (k : Nat) (t : Team) : (s.setTeamAt k t).turn = s.turn := rfl
@[simp] theorem State.setTeamAt_gk (s : State) (k : Nat) (t : Team) : (s.setTeamAt k t).gk = s.gk := rfl
@[simp] theorem State.setTeamAt_pt (s : State) (k : Nat) (t : Team) : (s.setTeamAt k t).pt = s.pt := rfl
@[simp] theorem State.setTeamAt_fresh (s : State) (k : Nat) (t : Team) : (s.setTeamAt k t).fresh = s.fresh := rfl
@[simp] theorem State.setTeamAt_nextId (s : State) (k : Nat) (t : Team) : (s.setTeamAt k t).nextId = s.nextId := rfl
@[simp] theorem State.setTeamAt_gangs (s : State) (k : Nat) (t : Team) : (s.setTeamAt k t).gangs = s.gangs := rfl
@[simp] theorem State.setTeamAt_cohorts (s : State) (k : Nat) (t : Team) : (s.setTeamAt k t).cohorts = s.cohorts := rfl
@[simp] theorem State.setTeamAt_queues (s : State) (k : Nat) (t : Team) : (s.setTeamAt k t).queues = s.queues := rfl
@[simp] theorem State.setTeamAt_mx (s : State) (k : Nat) (t : Team) : (s.setTeamAt k t).mx = s.mx := rfl
@[simp] theorem State.setTeamAt_mem (s : State) (k : Nat) (t : Team) : (s.setTeamAt k t).mem = s.mem := rfl
@[simp] theorem State.setTeamAt_tags (s : State) (k : Nat) (t : Team) : (s.setTeamAt k t).tags = s.tags := rfl
@[simp] theorem State.setTeamAt_log (s : State) (k : Nat) (t : Team) : (s.setTeamAt k t).log = s.log := rfl
@[simp] theorem State.setTeamAt_vclock (s : State) (k : Nat) (t : Team) : (s.setTeamAt k t).vclock = s.vclock := rfl
@[simp] theorem State.setTeamAt_copies (s : State) (k : Nat) (t : Team) : (s.setTeamAt k t).copies = s.copies := rfl
@[simp] theorem State.setTeamAt_publs (s : State) (k : Nat) (t : Team) : (s.setTeamAt k t).publs = s.publs := rfl
@[simp] theorem State.setTeamAt_fetches (s : State) (k : Nat) (t : Team) : (s.setTeamAt k t).fetches = s.fetches := rfl
@[simp] theorem State.setTeamAt_sagger (s : State) (k : Nat) (t : Team) : (s.setTeamAt k t).sagger = s.sagger := rfl
@[simp] theorem State.setTeamAt_dies (s : State) (k : Nat) (t : Team) : (s.setTeamAt k t).dies = s.dies := rfl
@[simp] theorem State.setTeamAt_cores (s : State) (k : Nat) (t : Team) : (s.setTeamAt k t).cores = s.cores := rfl
@[simp] theorem State.setTeamAt_boot (s : State) (k : Nat) (t : Team) : (s.setTeamAt k t).boot = s.boot := rfl
@[simp] theorem State.setTeamAt_engFaults (s : State) (k : Nat) (t : Team) : (s.setTeamAt k t).engFaults = s.engFaults := rfl
@[simp] theorem State.setTeamAt_spills (s : State) (k : Nat) (t : Team) : (s.setTeamAt k t).spills = s.spills := rfl
@[simp] theorem State.setTeamAt_aper (s : State) (k : Nat) (t : Team) : (s.setTeamAt k t).aper = s.aper := rfl
@[simp] theorem State.setTeamAt_pcieOut (s : State) (k : Nat) (t : Team) : (s.setTeamAt k t).pcieOut = s.pcieOut := rfl
@[simp] theorem State.setTeamAt_fns (s : State) (k : Nat) (t : Team) : (s.setTeamAt k t).fns = s.fns := rfl
@[simp] theorem State.setTeamAt_cmds (s : State) (k : Nat) (t : Team) : (s.setTeamAt k t).cmds = s.cmds := rfl
@[simp] theorem State.setTeamAt_hostOut (s : State) (k : Nat) (t : Team) : (s.setTeamAt k t).hostOut = s.hostOut := rfl
@[simp] theorem State.setTeamAt_away (s : State) (k : Nat) (t : Team) : (s.setTeamAt k t).away = s.away := rfl
@[simp] theorem State.setTeamAt_moving (s : State) (k : Nat) (t : Team) : (s.setTeamAt k t).moving = s.moving := rfl
@[simp] theorem State.setTeamAt_plim (s : State) (k : Nat) (t : Team) : (s.setTeamAt k t).plim = s.plim := rfl
@[simp] theorem State.setTeamAt_pnow (s : State) (k : Nat) (t : Team) : (s.setTeamAt k t).pnow = s.pnow := rfl
@[simp] theorem State.setTeamAt_thr (s : State) (k : Nat) (t : Team) : (s.setTeamAt k t).thr = s.thr := rfl
@[simp] theorem State.setTeamAt_hot (s : State) (k : Nat) (t : Team) : (s.setTeamAt k t).hot = s.hot := rfl
@[simp] theorem State.setTeamAt_kfail (s : State) (k : Nat) (t : Team) : (s.setTeamAt k t).kfail = s.kfail := rfl
@[simp] theorem State.setTeamAt_ways (s : State) (k : Nat) (t : Team) : (s.setTeamAt k t).ways = s.ways := rfl
@[simp] theorem State.setTeamAt_badFrames (s : State) (k : Nat) (t : Team) : (s.setTeamAt k t).badFrames = s.badFrames := rfl
@[simp] theorem State.setTeamAt_inbound (s : State) (k : Nat) (t : Team) : (s.setTeamAt k t).inbound = s.inbound := rfl
@[simp] theorem State.setTeamAt_parked (s : State) (k : Nat) (t : Team) : (s.setTeamAt k t).parked = s.parked := rfl
@[simp] theorem State.setTeamAt_modn (s : State) (k : Nat) (t : Team) : (s.setTeamAt k t).modn = s.modn := rfl
@[simp] theorem State.setTeamAt_psn (s : State) (k : Nat) (t : Team) : (s.setTeamAt k t).psn = s.psn := rfl
@[simp] theorem State.setTeamAt_net (s : State) (k : Nat) (t : Team) : (s.setTeamAt k t).net = s.net := rfl
@[simp] theorem State.setTeamAt_pseen (s : State) (k : Nat) (t : Team) : (s.setTeamAt k t).pseen = s.pseen := rfl
@[simp] theorem State.setTeamAt_rto (s : State) (k : Nat) (t : Team) : (s.setTeamAt k t).rto = s.rto := rfl
@[simp] theorem State.setTeamAt_posts (s : State) (k : Nat) (t : Team) : (s.setTeamAt k t).posts = s.posts := rfl
@[simp] theorem State.setTeamAt_groups (s : State) (k : Nat) (t : Team) : (s.setTeamAt k t).groups = s.groups := rfl
@[simp] theorem State.setTeamAt_slotted (s : State) (k : Nat) (t : Team) : (s.setTeamAt k t).slotted = s.slotted := rfl
@[simp] theorem State.setTeamAt_sent (s : State) (k : Nat) (t : Team) : (s.setTeamAt k t).sent = s.sent := rfl
@[simp] theorem State.setTeamAt_qdt (s : State) (k : Nat) (t : Team) : (s.setTeamAt k t).qdt = s.qdt := rfl
@[simp] theorem State.setTeamAt_meshq (s : State) (k : Nat) (t : Team) : (s.setTeamAt k t).meshq = s.meshq := rfl
@[simp] theorem State.setTeamAt_quads (s : State) (k : Nat) (t : Team) : (s.setTeamAt k t).quads = s.quads := rfl

/-! ## setCohortAt -/

@[simp] theorem State.cohortAt_setCohortAt (s : State) (k j : Nat) (c : Cohort) : (s.setCohortAt k c).cohortAt j = if j = k then c else s.cohortAt j := by
  simp [State.cohortAt, State.setCohortAt]
@[simp] theorem State.setCohortAt_clock (s : State) (k : Nat) (c : Cohort) : (s.setCohortAt k c).clock = s.clock := rfl
@[simp] theorem State.setCohortAt_due (s : State) (k : Nat) (c : Cohort) : (s.setCohortAt k c).due = s.due := rfl
@[simp] theorem State.setCohortAt_runq (s : State) (k : Nat) (c : Cohort) : (s.setCohortAt k c).runq = s.runq := rfl
@[simp] theorem State.setCohortAt_fused (s : State) (k : Nat) (c : Cohort) : (s.setCohortAt k c).fused = s.fused := rfl
@[simp] theorem State.setCohortAt_turn (s : State) (k : Nat) (c : Cohort) : (s.setCohortAt k c).turn = s.turn := rfl
@[simp] theorem State.setCohortAt_gk (s : State) (k : Nat) (c : Cohort) : (s.setCohortAt k c).gk = s.gk := rfl
@[simp] theorem State.setCohortAt_pt (s : State) (k : Nat) (c : Cohort) : (s.setCohortAt k c).pt = s.pt := rfl
@[simp] theorem State.setCohortAt_fresh (s : State) (k : Nat) (c : Cohort) : (s.setCohortAt k c).fresh = s.fresh := rfl
@[simp] theorem State.setCohortAt_nextId (s : State) (k : Nat) (c : Cohort) : (s.setCohortAt k c).nextId = s.nextId := rfl
@[simp] theorem State.setCohortAt_gangs (s : State) (k : Nat) (c : Cohort) : (s.setCohortAt k c).gangs = s.gangs := rfl
@[simp] theorem State.setCohortAt_teams (s : State) (k : Nat) (c : Cohort) : (s.setCohortAt k c).teams = s.teams := rfl
@[simp] theorem State.setCohortAt_queues (s : State) (k : Nat) (c : Cohort) : (s.setCohortAt k c).queues = s.queues := rfl
@[simp] theorem State.setCohortAt_mx (s : State) (k : Nat) (c : Cohort) : (s.setCohortAt k c).mx = s.mx := rfl
@[simp] theorem State.setCohortAt_mem (s : State) (k : Nat) (c : Cohort) : (s.setCohortAt k c).mem = s.mem := rfl
@[simp] theorem State.setCohortAt_tags (s : State) (k : Nat) (c : Cohort) : (s.setCohortAt k c).tags = s.tags := rfl
@[simp] theorem State.setCohortAt_log (s : State) (k : Nat) (c : Cohort) : (s.setCohortAt k c).log = s.log := rfl
@[simp] theorem State.setCohortAt_vclock (s : State) (k : Nat) (c : Cohort) : (s.setCohortAt k c).vclock = s.vclock := rfl
@[simp] theorem State.setCohortAt_copies (s : State) (k : Nat) (c : Cohort) : (s.setCohortAt k c).copies = s.copies := rfl
@[simp] theorem State.setCohortAt_publs (s : State) (k : Nat) (c : Cohort) : (s.setCohortAt k c).publs = s.publs := rfl
@[simp] theorem State.setCohortAt_fetches (s : State) (k : Nat) (c : Cohort) : (s.setCohortAt k c).fetches = s.fetches := rfl
@[simp] theorem State.setCohortAt_sagger (s : State) (k : Nat) (c : Cohort) : (s.setCohortAt k c).sagger = s.sagger := rfl
@[simp] theorem State.setCohortAt_dies (s : State) (k : Nat) (c : Cohort) : (s.setCohortAt k c).dies = s.dies := rfl
@[simp] theorem State.setCohortAt_cores (s : State) (k : Nat) (c : Cohort) : (s.setCohortAt k c).cores = s.cores := rfl
@[simp] theorem State.setCohortAt_boot (s : State) (k : Nat) (c : Cohort) : (s.setCohortAt k c).boot = s.boot := rfl
@[simp] theorem State.setCohortAt_engFaults (s : State) (k : Nat) (c : Cohort) : (s.setCohortAt k c).engFaults = s.engFaults := rfl
@[simp] theorem State.setCohortAt_spills (s : State) (k : Nat) (c : Cohort) : (s.setCohortAt k c).spills = s.spills := rfl
@[simp] theorem State.setCohortAt_aper (s : State) (k : Nat) (c : Cohort) : (s.setCohortAt k c).aper = s.aper := rfl
@[simp] theorem State.setCohortAt_pcieOut (s : State) (k : Nat) (c : Cohort) : (s.setCohortAt k c).pcieOut = s.pcieOut := rfl
@[simp] theorem State.setCohortAt_fns (s : State) (k : Nat) (c : Cohort) : (s.setCohortAt k c).fns = s.fns := rfl
@[simp] theorem State.setCohortAt_cmds (s : State) (k : Nat) (c : Cohort) : (s.setCohortAt k c).cmds = s.cmds := rfl
@[simp] theorem State.setCohortAt_hostOut (s : State) (k : Nat) (c : Cohort) : (s.setCohortAt k c).hostOut = s.hostOut := rfl
@[simp] theorem State.setCohortAt_away (s : State) (k : Nat) (c : Cohort) : (s.setCohortAt k c).away = s.away := rfl
@[simp] theorem State.setCohortAt_moving (s : State) (k : Nat) (c : Cohort) : (s.setCohortAt k c).moving = s.moving := rfl
@[simp] theorem State.setCohortAt_plim (s : State) (k : Nat) (c : Cohort) : (s.setCohortAt k c).plim = s.plim := rfl
@[simp] theorem State.setCohortAt_pnow (s : State) (k : Nat) (c : Cohort) : (s.setCohortAt k c).pnow = s.pnow := rfl
@[simp] theorem State.setCohortAt_thr (s : State) (k : Nat) (c : Cohort) : (s.setCohortAt k c).thr = s.thr := rfl
@[simp] theorem State.setCohortAt_hot (s : State) (k : Nat) (c : Cohort) : (s.setCohortAt k c).hot = s.hot := rfl
@[simp] theorem State.setCohortAt_kfail (s : State) (k : Nat) (c : Cohort) : (s.setCohortAt k c).kfail = s.kfail := rfl
@[simp] theorem State.setCohortAt_ways (s : State) (k : Nat) (c : Cohort) : (s.setCohortAt k c).ways = s.ways := rfl
@[simp] theorem State.setCohortAt_badFrames (s : State) (k : Nat) (c : Cohort) : (s.setCohortAt k c).badFrames = s.badFrames := rfl
@[simp] theorem State.setCohortAt_inbound (s : State) (k : Nat) (c : Cohort) : (s.setCohortAt k c).inbound = s.inbound := rfl
@[simp] theorem State.setCohortAt_parked (s : State) (k : Nat) (c : Cohort) : (s.setCohortAt k c).parked = s.parked := rfl
@[simp] theorem State.setCohortAt_modn (s : State) (k : Nat) (c : Cohort) : (s.setCohortAt k c).modn = s.modn := rfl
@[simp] theorem State.setCohortAt_psn (s : State) (k : Nat) (c : Cohort) : (s.setCohortAt k c).psn = s.psn := rfl
@[simp] theorem State.setCohortAt_net (s : State) (k : Nat) (c : Cohort) : (s.setCohortAt k c).net = s.net := rfl
@[simp] theorem State.setCohortAt_pseen (s : State) (k : Nat) (c : Cohort) : (s.setCohortAt k c).pseen = s.pseen := rfl
@[simp] theorem State.setCohortAt_rto (s : State) (k : Nat) (c : Cohort) : (s.setCohortAt k c).rto = s.rto := rfl
@[simp] theorem State.setCohortAt_posts (s : State) (k : Nat) (c : Cohort) : (s.setCohortAt k c).posts = s.posts := rfl
@[simp] theorem State.setCohortAt_groups (s : State) (k : Nat) (c : Cohort) : (s.setCohortAt k c).groups = s.groups := rfl
@[simp] theorem State.setCohortAt_slotted (s : State) (k : Nat) (c : Cohort) : (s.setCohortAt k c).slotted = s.slotted := rfl
@[simp] theorem State.setCohortAt_sent (s : State) (k : Nat) (c : Cohort) : (s.setCohortAt k c).sent = s.sent := rfl
@[simp] theorem State.setCohortAt_qdt (s : State) (k : Nat) (c : Cohort) : (s.setCohortAt k c).qdt = s.qdt := rfl
@[simp] theorem State.setCohortAt_meshq (s : State) (k : Nat) (c : Cohort) : (s.setCohortAt k c).meshq = s.meshq := rfl
@[simp] theorem State.setCohortAt_quads (s : State) (k : Nat) (c : Cohort) : (s.setCohortAt k c).quads = s.quads := rfl

/-! ## setQueueAt -/

@[simp] theorem State.queueAt_setQueueAt (s : State) (k j : Nat) (q : Queue) : (s.setQueueAt k q).queueAt j = if j = k then q else s.queueAt j := by
  simp [State.queueAt, State.setQueueAt]
@[simp] theorem State.setQueueAt_clock (s : State) (k : Nat) (q : Queue) : (s.setQueueAt k q).clock = s.clock := rfl
@[simp] theorem State.setQueueAt_due (s : State) (k : Nat) (q : Queue) : (s.setQueueAt k q).due = s.due := rfl
@[simp] theorem State.setQueueAt_runq (s : State) (k : Nat) (q : Queue) : (s.setQueueAt k q).runq = s.runq := rfl
@[simp] theorem State.setQueueAt_fused (s : State) (k : Nat) (q : Queue) : (s.setQueueAt k q).fused = s.fused := rfl
@[simp] theorem State.setQueueAt_turn (s : State) (k : Nat) (q : Queue) : (s.setQueueAt k q).turn = s.turn := rfl
@[simp] theorem State.setQueueAt_gk (s : State) (k : Nat) (q : Queue) : (s.setQueueAt k q).gk = s.gk := rfl
@[simp] theorem State.setQueueAt_pt (s : State) (k : Nat) (q : Queue) : (s.setQueueAt k q).pt = s.pt := rfl
@[simp] theorem State.setQueueAt_fresh (s : State) (k : Nat) (q : Queue) : (s.setQueueAt k q).fresh = s.fresh := rfl
@[simp] theorem State.setQueueAt_nextId (s : State) (k : Nat) (q : Queue) : (s.setQueueAt k q).nextId = s.nextId := rfl
@[simp] theorem State.setQueueAt_gangs (s : State) (k : Nat) (q : Queue) : (s.setQueueAt k q).gangs = s.gangs := rfl
@[simp] theorem State.setQueueAt_teams (s : State) (k : Nat) (q : Queue) : (s.setQueueAt k q).teams = s.teams := rfl
@[simp] theorem State.setQueueAt_cohorts (s : State) (k : Nat) (q : Queue) : (s.setQueueAt k q).cohorts = s.cohorts := rfl
@[simp] theorem State.setQueueAt_mx (s : State) (k : Nat) (q : Queue) : (s.setQueueAt k q).mx = s.mx := rfl
@[simp] theorem State.setQueueAt_mem (s : State) (k : Nat) (q : Queue) : (s.setQueueAt k q).mem = s.mem := rfl
@[simp] theorem State.setQueueAt_tags (s : State) (k : Nat) (q : Queue) : (s.setQueueAt k q).tags = s.tags := rfl
@[simp] theorem State.setQueueAt_log (s : State) (k : Nat) (q : Queue) : (s.setQueueAt k q).log = s.log := rfl
@[simp] theorem State.setQueueAt_vclock (s : State) (k : Nat) (q : Queue) : (s.setQueueAt k q).vclock = s.vclock := rfl
@[simp] theorem State.setQueueAt_copies (s : State) (k : Nat) (q : Queue) : (s.setQueueAt k q).copies = s.copies := rfl
@[simp] theorem State.setQueueAt_publs (s : State) (k : Nat) (q : Queue) : (s.setQueueAt k q).publs = s.publs := rfl
@[simp] theorem State.setQueueAt_fetches (s : State) (k : Nat) (q : Queue) : (s.setQueueAt k q).fetches = s.fetches := rfl
@[simp] theorem State.setQueueAt_sagger (s : State) (k : Nat) (q : Queue) : (s.setQueueAt k q).sagger = s.sagger := rfl
@[simp] theorem State.setQueueAt_dies (s : State) (k : Nat) (q : Queue) : (s.setQueueAt k q).dies = s.dies := rfl
@[simp] theorem State.setQueueAt_cores (s : State) (k : Nat) (q : Queue) : (s.setQueueAt k q).cores = s.cores := rfl
@[simp] theorem State.setQueueAt_boot (s : State) (k : Nat) (q : Queue) : (s.setQueueAt k q).boot = s.boot := rfl
@[simp] theorem State.setQueueAt_engFaults (s : State) (k : Nat) (q : Queue) : (s.setQueueAt k q).engFaults = s.engFaults := rfl
@[simp] theorem State.setQueueAt_spills (s : State) (k : Nat) (q : Queue) : (s.setQueueAt k q).spills = s.spills := rfl
@[simp] theorem State.setQueueAt_aper (s : State) (k : Nat) (q : Queue) : (s.setQueueAt k q).aper = s.aper := rfl
@[simp] theorem State.setQueueAt_pcieOut (s : State) (k : Nat) (q : Queue) : (s.setQueueAt k q).pcieOut = s.pcieOut := rfl
@[simp] theorem State.setQueueAt_fns (s : State) (k : Nat) (q : Queue) : (s.setQueueAt k q).fns = s.fns := rfl
@[simp] theorem State.setQueueAt_cmds (s : State) (k : Nat) (q : Queue) : (s.setQueueAt k q).cmds = s.cmds := rfl
@[simp] theorem State.setQueueAt_hostOut (s : State) (k : Nat) (q : Queue) : (s.setQueueAt k q).hostOut = s.hostOut := rfl
@[simp] theorem State.setQueueAt_away (s : State) (k : Nat) (q : Queue) : (s.setQueueAt k q).away = s.away := rfl
@[simp] theorem State.setQueueAt_moving (s : State) (k : Nat) (q : Queue) : (s.setQueueAt k q).moving = s.moving := rfl
@[simp] theorem State.setQueueAt_plim (s : State) (k : Nat) (q : Queue) : (s.setQueueAt k q).plim = s.plim := rfl
@[simp] theorem State.setQueueAt_pnow (s : State) (k : Nat) (q : Queue) : (s.setQueueAt k q).pnow = s.pnow := rfl
@[simp] theorem State.setQueueAt_thr (s : State) (k : Nat) (q : Queue) : (s.setQueueAt k q).thr = s.thr := rfl
@[simp] theorem State.setQueueAt_hot (s : State) (k : Nat) (q : Queue) : (s.setQueueAt k q).hot = s.hot := rfl
@[simp] theorem State.setQueueAt_kfail (s : State) (k : Nat) (q : Queue) : (s.setQueueAt k q).kfail = s.kfail := rfl
@[simp] theorem State.setQueueAt_ways (s : State) (k : Nat) (q : Queue) : (s.setQueueAt k q).ways = s.ways := rfl
@[simp] theorem State.setQueueAt_badFrames (s : State) (k : Nat) (q : Queue) : (s.setQueueAt k q).badFrames = s.badFrames := rfl
@[simp] theorem State.setQueueAt_inbound (s : State) (k : Nat) (q : Queue) : (s.setQueueAt k q).inbound = s.inbound := rfl
@[simp] theorem State.setQueueAt_parked (s : State) (k : Nat) (q : Queue) : (s.setQueueAt k q).parked = s.parked := rfl
@[simp] theorem State.setQueueAt_modn (s : State) (k : Nat) (q : Queue) : (s.setQueueAt k q).modn = s.modn := rfl
@[simp] theorem State.setQueueAt_psn (s : State) (k : Nat) (q : Queue) : (s.setQueueAt k q).psn = s.psn := rfl
@[simp] theorem State.setQueueAt_net (s : State) (k : Nat) (q : Queue) : (s.setQueueAt k q).net = s.net := rfl
@[simp] theorem State.setQueueAt_pseen (s : State) (k : Nat) (q : Queue) : (s.setQueueAt k q).pseen = s.pseen := rfl
@[simp] theorem State.setQueueAt_rto (s : State) (k : Nat) (q : Queue) : (s.setQueueAt k q).rto = s.rto := rfl
@[simp] theorem State.setQueueAt_posts (s : State) (k : Nat) (q : Queue) : (s.setQueueAt k q).posts = s.posts := rfl
@[simp] theorem State.setQueueAt_groups (s : State) (k : Nat) (q : Queue) : (s.setQueueAt k q).groups = s.groups := rfl
@[simp] theorem State.setQueueAt_slotted (s : State) (k : Nat) (q : Queue) : (s.setQueueAt k q).slotted = s.slotted := rfl
@[simp] theorem State.setQueueAt_sent (s : State) (k : Nat) (q : Queue) : (s.setQueueAt k q).sent = s.sent := rfl
@[simp] theorem State.setQueueAt_qdt (s : State) (k : Nat) (q : Queue) : (s.setQueueAt k q).qdt = s.qdt := rfl
@[simp] theorem State.setQueueAt_meshq (s : State) (k : Nat) (q : Queue) : (s.setQueueAt k q).meshq = s.meshq := rfl
@[simp] theorem State.setQueueAt_quads (s : State) (k : Nat) (q : Queue) : (s.setQueueAt k q).quads = s.quads := rfl

/-! ## setMxAt -/

@[simp] theorem State.mxAt_setMxAt (s : State) (k j : Nat) (m : Mx) : (s.setMxAt k m).mxAt j = if j = k then m else s.mxAt j := by
  simp [State.mxAt, State.setMxAt]
@[simp] theorem State.setMxAt_clock (s : State) (k : Nat) (m : Mx) : (s.setMxAt k m).clock = s.clock := rfl
@[simp] theorem State.setMxAt_due (s : State) (k : Nat) (m : Mx) : (s.setMxAt k m).due = s.due := rfl
@[simp] theorem State.setMxAt_runq (s : State) (k : Nat) (m : Mx) : (s.setMxAt k m).runq = s.runq := rfl
@[simp] theorem State.setMxAt_fused (s : State) (k : Nat) (m : Mx) : (s.setMxAt k m).fused = s.fused := rfl
@[simp] theorem State.setMxAt_turn (s : State) (k : Nat) (m : Mx) : (s.setMxAt k m).turn = s.turn := rfl
@[simp] theorem State.setMxAt_gk (s : State) (k : Nat) (m : Mx) : (s.setMxAt k m).gk = s.gk := rfl
@[simp] theorem State.setMxAt_pt (s : State) (k : Nat) (m : Mx) : (s.setMxAt k m).pt = s.pt := rfl
@[simp] theorem State.setMxAt_fresh (s : State) (k : Nat) (m : Mx) : (s.setMxAt k m).fresh = s.fresh := rfl
@[simp] theorem State.setMxAt_nextId (s : State) (k : Nat) (m : Mx) : (s.setMxAt k m).nextId = s.nextId := rfl
@[simp] theorem State.setMxAt_gangs (s : State) (k : Nat) (m : Mx) : (s.setMxAt k m).gangs = s.gangs := rfl
@[simp] theorem State.setMxAt_teams (s : State) (k : Nat) (m : Mx) : (s.setMxAt k m).teams = s.teams := rfl
@[simp] theorem State.setMxAt_cohorts (s : State) (k : Nat) (m : Mx) : (s.setMxAt k m).cohorts = s.cohorts := rfl
@[simp] theorem State.setMxAt_queues (s : State) (k : Nat) (m : Mx) : (s.setMxAt k m).queues = s.queues := rfl
@[simp] theorem State.setMxAt_mem (s : State) (k : Nat) (m : Mx) : (s.setMxAt k m).mem = s.mem := rfl
@[simp] theorem State.setMxAt_tags (s : State) (k : Nat) (m : Mx) : (s.setMxAt k m).tags = s.tags := rfl
@[simp] theorem State.setMxAt_log (s : State) (k : Nat) (m : Mx) : (s.setMxAt k m).log = s.log := rfl
@[simp] theorem State.setMxAt_vclock (s : State) (k : Nat) (m : Mx) : (s.setMxAt k m).vclock = s.vclock := rfl
@[simp] theorem State.setMxAt_copies (s : State) (k : Nat) (m : Mx) : (s.setMxAt k m).copies = s.copies := rfl
@[simp] theorem State.setMxAt_publs (s : State) (k : Nat) (m : Mx) : (s.setMxAt k m).publs = s.publs := rfl
@[simp] theorem State.setMxAt_fetches (s : State) (k : Nat) (m : Mx) : (s.setMxAt k m).fetches = s.fetches := rfl
@[simp] theorem State.setMxAt_sagger (s : State) (k : Nat) (m : Mx) : (s.setMxAt k m).sagger = s.sagger := rfl
@[simp] theorem State.setMxAt_dies (s : State) (k : Nat) (m : Mx) : (s.setMxAt k m).dies = s.dies := rfl
@[simp] theorem State.setMxAt_cores (s : State) (k : Nat) (m : Mx) : (s.setMxAt k m).cores = s.cores := rfl
@[simp] theorem State.setMxAt_boot (s : State) (k : Nat) (m : Mx) : (s.setMxAt k m).boot = s.boot := rfl
@[simp] theorem State.setMxAt_engFaults (s : State) (k : Nat) (m : Mx) : (s.setMxAt k m).engFaults = s.engFaults := rfl
@[simp] theorem State.setMxAt_spills (s : State) (k : Nat) (m : Mx) : (s.setMxAt k m).spills = s.spills := rfl
@[simp] theorem State.setMxAt_aper (s : State) (k : Nat) (m : Mx) : (s.setMxAt k m).aper = s.aper := rfl
@[simp] theorem State.setMxAt_pcieOut (s : State) (k : Nat) (m : Mx) : (s.setMxAt k m).pcieOut = s.pcieOut := rfl
@[simp] theorem State.setMxAt_fns (s : State) (k : Nat) (m : Mx) : (s.setMxAt k m).fns = s.fns := rfl
@[simp] theorem State.setMxAt_cmds (s : State) (k : Nat) (m : Mx) : (s.setMxAt k m).cmds = s.cmds := rfl
@[simp] theorem State.setMxAt_hostOut (s : State) (k : Nat) (m : Mx) : (s.setMxAt k m).hostOut = s.hostOut := rfl
@[simp] theorem State.setMxAt_away (s : State) (k : Nat) (m : Mx) : (s.setMxAt k m).away = s.away := rfl
@[simp] theorem State.setMxAt_moving (s : State) (k : Nat) (m : Mx) : (s.setMxAt k m).moving = s.moving := rfl
@[simp] theorem State.setMxAt_plim (s : State) (k : Nat) (m : Mx) : (s.setMxAt k m).plim = s.plim := rfl
@[simp] theorem State.setMxAt_pnow (s : State) (k : Nat) (m : Mx) : (s.setMxAt k m).pnow = s.pnow := rfl
@[simp] theorem State.setMxAt_thr (s : State) (k : Nat) (m : Mx) : (s.setMxAt k m).thr = s.thr := rfl
@[simp] theorem State.setMxAt_hot (s : State) (k : Nat) (m : Mx) : (s.setMxAt k m).hot = s.hot := rfl
@[simp] theorem State.setMxAt_kfail (s : State) (k : Nat) (m : Mx) : (s.setMxAt k m).kfail = s.kfail := rfl
@[simp] theorem State.setMxAt_ways (s : State) (k : Nat) (m : Mx) : (s.setMxAt k m).ways = s.ways := rfl
@[simp] theorem State.setMxAt_badFrames (s : State) (k : Nat) (m : Mx) : (s.setMxAt k m).badFrames = s.badFrames := rfl
@[simp] theorem State.setMxAt_inbound (s : State) (k : Nat) (m : Mx) : (s.setMxAt k m).inbound = s.inbound := rfl
@[simp] theorem State.setMxAt_parked (s : State) (k : Nat) (m : Mx) : (s.setMxAt k m).parked = s.parked := rfl
@[simp] theorem State.setMxAt_modn (s : State) (k : Nat) (m : Mx) : (s.setMxAt k m).modn = s.modn := rfl
@[simp] theorem State.setMxAt_psn (s : State) (k : Nat) (m : Mx) : (s.setMxAt k m).psn = s.psn := rfl
@[simp] theorem State.setMxAt_net (s : State) (k : Nat) (m : Mx) : (s.setMxAt k m).net = s.net := rfl
@[simp] theorem State.setMxAt_pseen (s : State) (k : Nat) (m : Mx) : (s.setMxAt k m).pseen = s.pseen := rfl
@[simp] theorem State.setMxAt_rto (s : State) (k : Nat) (m : Mx) : (s.setMxAt k m).rto = s.rto := rfl
@[simp] theorem State.setMxAt_posts (s : State) (k : Nat) (m : Mx) : (s.setMxAt k m).posts = s.posts := rfl
@[simp] theorem State.setMxAt_groups (s : State) (k : Nat) (m : Mx) : (s.setMxAt k m).groups = s.groups := rfl
@[simp] theorem State.setMxAt_slotted (s : State) (k : Nat) (m : Mx) : (s.setMxAt k m).slotted = s.slotted := rfl
@[simp] theorem State.setMxAt_sent (s : State) (k : Nat) (m : Mx) : (s.setMxAt k m).sent = s.sent := rfl
@[simp] theorem State.setMxAt_qdt (s : State) (k : Nat) (m : Mx) : (s.setMxAt k m).qdt = s.qdt := rfl
@[simp] theorem State.setMxAt_meshq (s : State) (k : Nat) (m : Mx) : (s.setMxAt k m).meshq = s.meshq := rfl
@[simp] theorem State.setMxAt_quads (s : State) (k : Nat) (m : Mx) : (s.setMxAt k m).quads = s.quads := rfl

/-! ## setDieAt -/

@[simp] theorem State.dieAt_setDieAt (s : State) (k j : Nat) (d : Die) : (s.setDieAt k d).dieAt j = if j = k then d else s.dieAt j := by
  simp [State.dieAt, State.setDieAt]
@[simp] theorem State.setDieAt_clock (s : State) (k : Nat) (d : Die) : (s.setDieAt k d).clock = s.clock := rfl
@[simp] theorem State.setDieAt_due (s : State) (k : Nat) (d : Die) : (s.setDieAt k d).due = s.due := rfl
@[simp] theorem State.setDieAt_runq (s : State) (k : Nat) (d : Die) : (s.setDieAt k d).runq = s.runq := rfl
@[simp] theorem State.setDieAt_fused (s : State) (k : Nat) (d : Die) : (s.setDieAt k d).fused = s.fused := rfl
@[simp] theorem State.setDieAt_turn (s : State) (k : Nat) (d : Die) : (s.setDieAt k d).turn = s.turn := rfl
@[simp] theorem State.setDieAt_gk (s : State) (k : Nat) (d : Die) : (s.setDieAt k d).gk = s.gk := rfl
@[simp] theorem State.setDieAt_pt (s : State) (k : Nat) (d : Die) : (s.setDieAt k d).pt = s.pt := rfl
@[simp] theorem State.setDieAt_fresh (s : State) (k : Nat) (d : Die) : (s.setDieAt k d).fresh = s.fresh := rfl
@[simp] theorem State.setDieAt_nextId (s : State) (k : Nat) (d : Die) : (s.setDieAt k d).nextId = s.nextId := rfl
@[simp] theorem State.setDieAt_gangs (s : State) (k : Nat) (d : Die) : (s.setDieAt k d).gangs = s.gangs := rfl
@[simp] theorem State.setDieAt_teams (s : State) (k : Nat) (d : Die) : (s.setDieAt k d).teams = s.teams := rfl
@[simp] theorem State.setDieAt_cohorts (s : State) (k : Nat) (d : Die) : (s.setDieAt k d).cohorts = s.cohorts := rfl
@[simp] theorem State.setDieAt_queues (s : State) (k : Nat) (d : Die) : (s.setDieAt k d).queues = s.queues := rfl
@[simp] theorem State.setDieAt_mx (s : State) (k : Nat) (d : Die) : (s.setDieAt k d).mx = s.mx := rfl
@[simp] theorem State.setDieAt_mem (s : State) (k : Nat) (d : Die) : (s.setDieAt k d).mem = s.mem := rfl
@[simp] theorem State.setDieAt_tags (s : State) (k : Nat) (d : Die) : (s.setDieAt k d).tags = s.tags := rfl
@[simp] theorem State.setDieAt_log (s : State) (k : Nat) (d : Die) : (s.setDieAt k d).log = s.log := rfl
@[simp] theorem State.setDieAt_vclock (s : State) (k : Nat) (d : Die) : (s.setDieAt k d).vclock = s.vclock := rfl
@[simp] theorem State.setDieAt_copies (s : State) (k : Nat) (d : Die) : (s.setDieAt k d).copies = s.copies := rfl
@[simp] theorem State.setDieAt_publs (s : State) (k : Nat) (d : Die) : (s.setDieAt k d).publs = s.publs := rfl
@[simp] theorem State.setDieAt_fetches (s : State) (k : Nat) (d : Die) : (s.setDieAt k d).fetches = s.fetches := rfl
@[simp] theorem State.setDieAt_sagger (s : State) (k : Nat) (d : Die) : (s.setDieAt k d).sagger = s.sagger := rfl
@[simp] theorem State.setDieAt_cores (s : State) (k : Nat) (d : Die) : (s.setDieAt k d).cores = s.cores := rfl
@[simp] theorem State.setDieAt_boot (s : State) (k : Nat) (d : Die) : (s.setDieAt k d).boot = s.boot := rfl
@[simp] theorem State.setDieAt_engFaults (s : State) (k : Nat) (d : Die) : (s.setDieAt k d).engFaults = s.engFaults := rfl
@[simp] theorem State.setDieAt_spills (s : State) (k : Nat) (d : Die) : (s.setDieAt k d).spills = s.spills := rfl
@[simp] theorem State.setDieAt_aper (s : State) (k : Nat) (d : Die) : (s.setDieAt k d).aper = s.aper := rfl
@[simp] theorem State.setDieAt_pcieOut (s : State) (k : Nat) (d : Die) : (s.setDieAt k d).pcieOut = s.pcieOut := rfl
@[simp] theorem State.setDieAt_fns (s : State) (k : Nat) (d : Die) : (s.setDieAt k d).fns = s.fns := rfl
@[simp] theorem State.setDieAt_cmds (s : State) (k : Nat) (d : Die) : (s.setDieAt k d).cmds = s.cmds := rfl
@[simp] theorem State.setDieAt_hostOut (s : State) (k : Nat) (d : Die) : (s.setDieAt k d).hostOut = s.hostOut := rfl
@[simp] theorem State.setDieAt_away (s : State) (k : Nat) (d : Die) : (s.setDieAt k d).away = s.away := rfl
@[simp] theorem State.setDieAt_moving (s : State) (k : Nat) (d : Die) : (s.setDieAt k d).moving = s.moving := rfl
@[simp] theorem State.setDieAt_plim (s : State) (k : Nat) (d : Die) : (s.setDieAt k d).plim = s.plim := rfl
@[simp] theorem State.setDieAt_pnow (s : State) (k : Nat) (d : Die) : (s.setDieAt k d).pnow = s.pnow := rfl
@[simp] theorem State.setDieAt_thr (s : State) (k : Nat) (d : Die) : (s.setDieAt k d).thr = s.thr := rfl
@[simp] theorem State.setDieAt_hot (s : State) (k : Nat) (d : Die) : (s.setDieAt k d).hot = s.hot := rfl
@[simp] theorem State.setDieAt_kfail (s : State) (k : Nat) (d : Die) : (s.setDieAt k d).kfail = s.kfail := rfl
@[simp] theorem State.setDieAt_ways (s : State) (k : Nat) (d : Die) : (s.setDieAt k d).ways = s.ways := rfl
@[simp] theorem State.setDieAt_badFrames (s : State) (k : Nat) (d : Die) : (s.setDieAt k d).badFrames = s.badFrames := rfl
@[simp] theorem State.setDieAt_inbound (s : State) (k : Nat) (d : Die) : (s.setDieAt k d).inbound = s.inbound := rfl
@[simp] theorem State.setDieAt_parked (s : State) (k : Nat) (d : Die) : (s.setDieAt k d).parked = s.parked := rfl
@[simp] theorem State.setDieAt_modn (s : State) (k : Nat) (d : Die) : (s.setDieAt k d).modn = s.modn := rfl
@[simp] theorem State.setDieAt_psn (s : State) (k : Nat) (d : Die) : (s.setDieAt k d).psn = s.psn := rfl
@[simp] theorem State.setDieAt_net (s : State) (k : Nat) (d : Die) : (s.setDieAt k d).net = s.net := rfl
@[simp] theorem State.setDieAt_pseen (s : State) (k : Nat) (d : Die) : (s.setDieAt k d).pseen = s.pseen := rfl
@[simp] theorem State.setDieAt_rto (s : State) (k : Nat) (d : Die) : (s.setDieAt k d).rto = s.rto := rfl
@[simp] theorem State.setDieAt_posts (s : State) (k : Nat) (d : Die) : (s.setDieAt k d).posts = s.posts := rfl
@[simp] theorem State.setDieAt_groups (s : State) (k : Nat) (d : Die) : (s.setDieAt k d).groups = s.groups := rfl
@[simp] theorem State.setDieAt_slotted (s : State) (k : Nat) (d : Die) : (s.setDieAt k d).slotted = s.slotted := rfl
@[simp] theorem State.setDieAt_sent (s : State) (k : Nat) (d : Die) : (s.setDieAt k d).sent = s.sent := rfl
@[simp] theorem State.setDieAt_qdt (s : State) (k : Nat) (d : Die) : (s.setDieAt k d).qdt = s.qdt := rfl
@[simp] theorem State.setDieAt_meshq (s : State) (k : Nat) (d : Die) : (s.setDieAt k d).meshq = s.meshq := rfl
@[simp] theorem State.setDieAt_quads (s : State) (k : Nat) (d : Die) : (s.setDieAt k d).quads = s.quads := rfl

/-! ## setCoreAt -/

@[simp] theorem State.coreAt_setCoreAt (s : State) (k j : Nat) (c : Core) : (s.setCoreAt k c).coreAt j = if j = k then c else s.coreAt j := by
  simp [State.coreAt, State.setCoreAt]
@[simp] theorem State.setCoreAt_clock (s : State) (k : Nat) (c : Core) : (s.setCoreAt k c).clock = s.clock := rfl
@[simp] theorem State.setCoreAt_due (s : State) (k : Nat) (c : Core) : (s.setCoreAt k c).due = s.due := rfl
@[simp] theorem State.setCoreAt_runq (s : State) (k : Nat) (c : Core) : (s.setCoreAt k c).runq = s.runq := rfl
@[simp] theorem State.setCoreAt_fused (s : State) (k : Nat) (c : Core) : (s.setCoreAt k c).fused = s.fused := rfl
@[simp] theorem State.setCoreAt_turn (s : State) (k : Nat) (c : Core) : (s.setCoreAt k c).turn = s.turn := rfl
@[simp] theorem State.setCoreAt_gk (s : State) (k : Nat) (c : Core) : (s.setCoreAt k c).gk = s.gk := rfl
@[simp] theorem State.setCoreAt_pt (s : State) (k : Nat) (c : Core) : (s.setCoreAt k c).pt = s.pt := rfl
@[simp] theorem State.setCoreAt_fresh (s : State) (k : Nat) (c : Core) : (s.setCoreAt k c).fresh = s.fresh := rfl
@[simp] theorem State.setCoreAt_nextId (s : State) (k : Nat) (c : Core) : (s.setCoreAt k c).nextId = s.nextId := rfl
@[simp] theorem State.setCoreAt_gangs (s : State) (k : Nat) (c : Core) : (s.setCoreAt k c).gangs = s.gangs := rfl
@[simp] theorem State.setCoreAt_teams (s : State) (k : Nat) (c : Core) : (s.setCoreAt k c).teams = s.teams := rfl
@[simp] theorem State.setCoreAt_cohorts (s : State) (k : Nat) (c : Core) : (s.setCoreAt k c).cohorts = s.cohorts := rfl
@[simp] theorem State.setCoreAt_queues (s : State) (k : Nat) (c : Core) : (s.setCoreAt k c).queues = s.queues := rfl
@[simp] theorem State.setCoreAt_mx (s : State) (k : Nat) (c : Core) : (s.setCoreAt k c).mx = s.mx := rfl
@[simp] theorem State.setCoreAt_mem (s : State) (k : Nat) (c : Core) : (s.setCoreAt k c).mem = s.mem := rfl
@[simp] theorem State.setCoreAt_tags (s : State) (k : Nat) (c : Core) : (s.setCoreAt k c).tags = s.tags := rfl
@[simp] theorem State.setCoreAt_log (s : State) (k : Nat) (c : Core) : (s.setCoreAt k c).log = s.log := rfl
@[simp] theorem State.setCoreAt_vclock (s : State) (k : Nat) (c : Core) : (s.setCoreAt k c).vclock = s.vclock := rfl
@[simp] theorem State.setCoreAt_copies (s : State) (k : Nat) (c : Core) : (s.setCoreAt k c).copies = s.copies := rfl
@[simp] theorem State.setCoreAt_publs (s : State) (k : Nat) (c : Core) : (s.setCoreAt k c).publs = s.publs := rfl
@[simp] theorem State.setCoreAt_fetches (s : State) (k : Nat) (c : Core) : (s.setCoreAt k c).fetches = s.fetches := rfl
@[simp] theorem State.setCoreAt_sagger (s : State) (k : Nat) (c : Core) : (s.setCoreAt k c).sagger = s.sagger := rfl
@[simp] theorem State.setCoreAt_dies (s : State) (k : Nat) (c : Core) : (s.setCoreAt k c).dies = s.dies := rfl
@[simp] theorem State.setCoreAt_boot (s : State) (k : Nat) (c : Core) : (s.setCoreAt k c).boot = s.boot := rfl
@[simp] theorem State.setCoreAt_engFaults (s : State) (k : Nat) (c : Core) : (s.setCoreAt k c).engFaults = s.engFaults := rfl
@[simp] theorem State.setCoreAt_spills (s : State) (k : Nat) (c : Core) : (s.setCoreAt k c).spills = s.spills := rfl
@[simp] theorem State.setCoreAt_aper (s : State) (k : Nat) (c : Core) : (s.setCoreAt k c).aper = s.aper := rfl
@[simp] theorem State.setCoreAt_pcieOut (s : State) (k : Nat) (c : Core) : (s.setCoreAt k c).pcieOut = s.pcieOut := rfl
@[simp] theorem State.setCoreAt_fns (s : State) (k : Nat) (c : Core) : (s.setCoreAt k c).fns = s.fns := rfl
@[simp] theorem State.setCoreAt_cmds (s : State) (k : Nat) (c : Core) : (s.setCoreAt k c).cmds = s.cmds := rfl
@[simp] theorem State.setCoreAt_hostOut (s : State) (k : Nat) (c : Core) : (s.setCoreAt k c).hostOut = s.hostOut := rfl
@[simp] theorem State.setCoreAt_away (s : State) (k : Nat) (c : Core) : (s.setCoreAt k c).away = s.away := rfl
@[simp] theorem State.setCoreAt_moving (s : State) (k : Nat) (c : Core) : (s.setCoreAt k c).moving = s.moving := rfl
@[simp] theorem State.setCoreAt_plim (s : State) (k : Nat) (c : Core) : (s.setCoreAt k c).plim = s.plim := rfl
@[simp] theorem State.setCoreAt_pnow (s : State) (k : Nat) (c : Core) : (s.setCoreAt k c).pnow = s.pnow := rfl
@[simp] theorem State.setCoreAt_thr (s : State) (k : Nat) (c : Core) : (s.setCoreAt k c).thr = s.thr := rfl
@[simp] theorem State.setCoreAt_hot (s : State) (k : Nat) (c : Core) : (s.setCoreAt k c).hot = s.hot := rfl
@[simp] theorem State.setCoreAt_kfail (s : State) (k : Nat) (c : Core) : (s.setCoreAt k c).kfail = s.kfail := rfl
@[simp] theorem State.setCoreAt_ways (s : State) (k : Nat) (c : Core) : (s.setCoreAt k c).ways = s.ways := rfl
@[simp] theorem State.setCoreAt_badFrames (s : State) (k : Nat) (c : Core) : (s.setCoreAt k c).badFrames = s.badFrames := rfl
@[simp] theorem State.setCoreAt_inbound (s : State) (k : Nat) (c : Core) : (s.setCoreAt k c).inbound = s.inbound := rfl
@[simp] theorem State.setCoreAt_parked (s : State) (k : Nat) (c : Core) : (s.setCoreAt k c).parked = s.parked := rfl
@[simp] theorem State.setCoreAt_modn (s : State) (k : Nat) (c : Core) : (s.setCoreAt k c).modn = s.modn := rfl
@[simp] theorem State.setCoreAt_psn (s : State) (k : Nat) (c : Core) : (s.setCoreAt k c).psn = s.psn := rfl
@[simp] theorem State.setCoreAt_net (s : State) (k : Nat) (c : Core) : (s.setCoreAt k c).net = s.net := rfl
@[simp] theorem State.setCoreAt_pseen (s : State) (k : Nat) (c : Core) : (s.setCoreAt k c).pseen = s.pseen := rfl
@[simp] theorem State.setCoreAt_rto (s : State) (k : Nat) (c : Core) : (s.setCoreAt k c).rto = s.rto := rfl
@[simp] theorem State.setCoreAt_posts (s : State) (k : Nat) (c : Core) : (s.setCoreAt k c).posts = s.posts := rfl
@[simp] theorem State.setCoreAt_groups (s : State) (k : Nat) (c : Core) : (s.setCoreAt k c).groups = s.groups := rfl
@[simp] theorem State.setCoreAt_slotted (s : State) (k : Nat) (c : Core) : (s.setCoreAt k c).slotted = s.slotted := rfl
@[simp] theorem State.setCoreAt_sent (s : State) (k : Nat) (c : Core) : (s.setCoreAt k c).sent = s.sent := rfl
@[simp] theorem State.setCoreAt_qdt (s : State) (k : Nat) (c : Core) : (s.setCoreAt k c).qdt = s.qdt := rfl
@[simp] theorem State.setCoreAt_meshq (s : State) (k : Nat) (c : Core) : (s.setCoreAt k c).meshq = s.meshq := rfl
@[simp] theorem State.setCoreAt_quads (s : State) (k : Nat) (c : Core) : (s.setCoreAt k c).quads = s.quads := rfl

/-! ## Readers of other tables -/

@[simp] theorem State.teamAt_setGangAt (s : State) (k j : Nat) (g : Gang) : (s.setGangAt k g).teamAt j = s.teamAt j := rfl
@[simp] theorem State.cohortAt_setGangAt (s : State) (k j : Nat) (g : Gang) : (s.setGangAt k g).cohortAt j = s.cohortAt j := rfl
@[simp] theorem State.queueAt_setGangAt (s : State) (k j : Nat) (g : Gang) : (s.setGangAt k g).queueAt j = s.queueAt j := rfl
@[simp] theorem State.mxAt_setGangAt (s : State) (k j : Nat) (g : Gang) : (s.setGangAt k g).mxAt j = s.mxAt j := rfl
@[simp] theorem State.dieAt_setGangAt (s : State) (k j : Nat) (g : Gang) : (s.setGangAt k g).dieAt j = s.dieAt j := rfl
@[simp] theorem State.coreAt_setGangAt (s : State) (k j : Nat) (g : Gang) : (s.setGangAt k g).coreAt j = s.coreAt j := rfl
@[simp] theorem State.gangAt_setTeamAt (s : State) (k j : Nat) (t : Team) : (s.setTeamAt k t).gangAt j = s.gangAt j := rfl
@[simp] theorem State.cohortAt_setTeamAt (s : State) (k j : Nat) (t : Team) : (s.setTeamAt k t).cohortAt j = s.cohortAt j := rfl
@[simp] theorem State.queueAt_setTeamAt (s : State) (k j : Nat) (t : Team) : (s.setTeamAt k t).queueAt j = s.queueAt j := rfl
@[simp] theorem State.mxAt_setTeamAt (s : State) (k j : Nat) (t : Team) : (s.setTeamAt k t).mxAt j = s.mxAt j := rfl
@[simp] theorem State.dieAt_setTeamAt (s : State) (k j : Nat) (t : Team) : (s.setTeamAt k t).dieAt j = s.dieAt j := rfl
@[simp] theorem State.coreAt_setTeamAt (s : State) (k j : Nat) (t : Team) : (s.setTeamAt k t).coreAt j = s.coreAt j := rfl
@[simp] theorem State.gangAt_setCohortAt (s : State) (k j : Nat) (c : Cohort) : (s.setCohortAt k c).gangAt j = s.gangAt j := rfl
@[simp] theorem State.teamAt_setCohortAt (s : State) (k j : Nat) (c : Cohort) : (s.setCohortAt k c).teamAt j = s.teamAt j := rfl
@[simp] theorem State.queueAt_setCohortAt (s : State) (k j : Nat) (c : Cohort) : (s.setCohortAt k c).queueAt j = s.queueAt j := rfl
@[simp] theorem State.mxAt_setCohortAt (s : State) (k j : Nat) (c : Cohort) : (s.setCohortAt k c).mxAt j = s.mxAt j := rfl
@[simp] theorem State.dieAt_setCohortAt (s : State) (k j : Nat) (c : Cohort) : (s.setCohortAt k c).dieAt j = s.dieAt j := rfl
@[simp] theorem State.coreAt_setCohortAt (s : State) (k j : Nat) (c : Cohort) : (s.setCohortAt k c).coreAt j = s.coreAt j := rfl
@[simp] theorem State.gangAt_setQueueAt (s : State) (k j : Nat) (q : Queue) : (s.setQueueAt k q).gangAt j = s.gangAt j := rfl
@[simp] theorem State.teamAt_setQueueAt (s : State) (k j : Nat) (q : Queue) : (s.setQueueAt k q).teamAt j = s.teamAt j := rfl
@[simp] theorem State.cohortAt_setQueueAt (s : State) (k j : Nat) (q : Queue) : (s.setQueueAt k q).cohortAt j = s.cohortAt j := rfl
@[simp] theorem State.mxAt_setQueueAt (s : State) (k j : Nat) (q : Queue) : (s.setQueueAt k q).mxAt j = s.mxAt j := rfl
@[simp] theorem State.dieAt_setQueueAt (s : State) (k j : Nat) (q : Queue) : (s.setQueueAt k q).dieAt j = s.dieAt j := rfl
@[simp] theorem State.coreAt_setQueueAt (s : State) (k j : Nat) (q : Queue) : (s.setQueueAt k q).coreAt j = s.coreAt j := rfl
@[simp] theorem State.gangAt_setMxAt (s : State) (k j : Nat) (m : Mx) : (s.setMxAt k m).gangAt j = s.gangAt j := rfl
@[simp] theorem State.teamAt_setMxAt (s : State) (k j : Nat) (m : Mx) : (s.setMxAt k m).teamAt j = s.teamAt j := rfl
@[simp] theorem State.cohortAt_setMxAt (s : State) (k j : Nat) (m : Mx) : (s.setMxAt k m).cohortAt j = s.cohortAt j := rfl
@[simp] theorem State.queueAt_setMxAt (s : State) (k j : Nat) (m : Mx) : (s.setMxAt k m).queueAt j = s.queueAt j := rfl
@[simp] theorem State.dieAt_setMxAt (s : State) (k j : Nat) (m : Mx) : (s.setMxAt k m).dieAt j = s.dieAt j := rfl
@[simp] theorem State.coreAt_setMxAt (s : State) (k j : Nat) (m : Mx) : (s.setMxAt k m).coreAt j = s.coreAt j := rfl
@[simp] theorem State.gangAt_setDieAt (s : State) (k j : Nat) (d : Die) : (s.setDieAt k d).gangAt j = s.gangAt j := rfl
@[simp] theorem State.teamAt_setDieAt (s : State) (k j : Nat) (d : Die) : (s.setDieAt k d).teamAt j = s.teamAt j := rfl
@[simp] theorem State.cohortAt_setDieAt (s : State) (k j : Nat) (d : Die) : (s.setDieAt k d).cohortAt j = s.cohortAt j := rfl
@[simp] theorem State.queueAt_setDieAt (s : State) (k j : Nat) (d : Die) : (s.setDieAt k d).queueAt j = s.queueAt j := rfl
@[simp] theorem State.mxAt_setDieAt (s : State) (k j : Nat) (d : Die) : (s.setDieAt k d).mxAt j = s.mxAt j := rfl
@[simp] theorem State.coreAt_setDieAt (s : State) (k j : Nat) (d : Die) : (s.setDieAt k d).coreAt j = s.coreAt j := rfl
@[simp] theorem State.gangAt_setCoreAt (s : State) (k j : Nat) (c : Core) : (s.setCoreAt k c).gangAt j = s.gangAt j := rfl
@[simp] theorem State.teamAt_setCoreAt (s : State) (k j : Nat) (c : Core) : (s.setCoreAt k c).teamAt j = s.teamAt j := rfl
@[simp] theorem State.cohortAt_setCoreAt (s : State) (k j : Nat) (c : Core) : (s.setCoreAt k c).cohortAt j = s.cohortAt j := rfl
@[simp] theorem State.queueAt_setCoreAt (s : State) (k j : Nat) (c : Core) : (s.setCoreAt k c).queueAt j = s.queueAt j := rfl
@[simp] theorem State.mxAt_setCoreAt (s : State) (k j : Nat) (c : Core) : (s.setCoreAt k c).mxAt j = s.mxAt j := rfl
@[simp] theorem State.dieAt_setCoreAt (s : State) (k j : Nat) (c : Core) : (s.setCoreAt k c).dieAt j = s.dieAt j := rfl

/-! ## owe -/

@[simp] theorem State.owe_clock (s : State) (l : List Instr) : (s.owe l).clock = s.clock := rfl
@[simp] theorem State.owe_runq (s : State) (l : List Instr) : (s.owe l).runq = s.runq := rfl
@[simp] theorem State.owe_fused (s : State) (l : List Instr) : (s.owe l).fused = s.fused := rfl
@[simp] theorem State.owe_turn (s : State) (l : List Instr) : (s.owe l).turn = s.turn := rfl
@[simp] theorem State.owe_gk (s : State) (l : List Instr) : (s.owe l).gk = s.gk := rfl
@[simp] theorem State.owe_pt (s : State) (l : List Instr) : (s.owe l).pt = s.pt := rfl
@[simp] theorem State.owe_fresh (s : State) (l : List Instr) : (s.owe l).fresh = s.fresh := rfl
@[simp] theorem State.owe_nextId (s : State) (l : List Instr) : (s.owe l).nextId = s.nextId := rfl
@[simp] theorem State.owe_gangs (s : State) (l : List Instr) : (s.owe l).gangs = s.gangs := rfl
@[simp] theorem State.owe_teams (s : State) (l : List Instr) : (s.owe l).teams = s.teams := rfl
@[simp] theorem State.owe_cohorts (s : State) (l : List Instr) : (s.owe l).cohorts = s.cohorts := rfl
@[simp] theorem State.owe_queues (s : State) (l : List Instr) : (s.owe l).queues = s.queues := rfl
@[simp] theorem State.owe_mx (s : State) (l : List Instr) : (s.owe l).mx = s.mx := rfl
@[simp] theorem State.owe_mem (s : State) (l : List Instr) : (s.owe l).mem = s.mem := rfl
@[simp] theorem State.owe_tags (s : State) (l : List Instr) : (s.owe l).tags = s.tags := rfl
@[simp] theorem State.owe_log (s : State) (l : List Instr) : (s.owe l).log = s.log := rfl
@[simp] theorem State.owe_vclock (s : State) (l : List Instr) : (s.owe l).vclock = s.vclock := rfl
@[simp] theorem State.owe_copies (s : State) (l : List Instr) : (s.owe l).copies = s.copies := rfl
@[simp] theorem State.owe_publs (s : State) (l : List Instr) : (s.owe l).publs = s.publs := rfl
@[simp] theorem State.owe_fetches (s : State) (l : List Instr) : (s.owe l).fetches = s.fetches := rfl
@[simp] theorem State.owe_sagger (s : State) (l : List Instr) : (s.owe l).sagger = s.sagger := rfl
@[simp] theorem State.owe_dies (s : State) (l : List Instr) : (s.owe l).dies = s.dies := rfl
@[simp] theorem State.owe_cores (s : State) (l : List Instr) : (s.owe l).cores = s.cores := rfl
@[simp] theorem State.owe_boot (s : State) (l : List Instr) : (s.owe l).boot = s.boot := rfl
@[simp] theorem State.owe_engFaults (s : State) (l : List Instr) : (s.owe l).engFaults = s.engFaults := rfl
@[simp] theorem State.owe_spills (s : State) (l : List Instr) : (s.owe l).spills = s.spills := rfl
@[simp] theorem State.owe_aper (s : State) (l : List Instr) : (s.owe l).aper = s.aper := rfl
@[simp] theorem State.owe_pcieOut (s : State) (l : List Instr) : (s.owe l).pcieOut = s.pcieOut := rfl
@[simp] theorem State.owe_fns (s : State) (l : List Instr) : (s.owe l).fns = s.fns := rfl
@[simp] theorem State.owe_cmds (s : State) (l : List Instr) : (s.owe l).cmds = s.cmds := rfl
@[simp] theorem State.owe_hostOut (s : State) (l : List Instr) : (s.owe l).hostOut = s.hostOut := rfl
@[simp] theorem State.owe_away (s : State) (l : List Instr) : (s.owe l).away = s.away := rfl
@[simp] theorem State.owe_moving (s : State) (l : List Instr) : (s.owe l).moving = s.moving := rfl
@[simp] theorem State.owe_plim (s : State) (l : List Instr) : (s.owe l).plim = s.plim := rfl
@[simp] theorem State.owe_pnow (s : State) (l : List Instr) : (s.owe l).pnow = s.pnow := rfl
@[simp] theorem State.owe_thr (s : State) (l : List Instr) : (s.owe l).thr = s.thr := rfl
@[simp] theorem State.owe_hot (s : State) (l : List Instr) : (s.owe l).hot = s.hot := rfl
@[simp] theorem State.owe_kfail (s : State) (l : List Instr) : (s.owe l).kfail = s.kfail := rfl
@[simp] theorem State.owe_ways (s : State) (l : List Instr) : (s.owe l).ways = s.ways := rfl
@[simp] theorem State.owe_badFrames (s : State) (l : List Instr) : (s.owe l).badFrames = s.badFrames := rfl
@[simp] theorem State.owe_inbound (s : State) (l : List Instr) : (s.owe l).inbound = s.inbound := rfl
@[simp] theorem State.owe_parked (s : State) (l : List Instr) : (s.owe l).parked = s.parked := rfl
@[simp] theorem State.owe_modn (s : State) (l : List Instr) : (s.owe l).modn = s.modn := rfl
@[simp] theorem State.owe_psn (s : State) (l : List Instr) : (s.owe l).psn = s.psn := rfl
@[simp] theorem State.owe_net (s : State) (l : List Instr) : (s.owe l).net = s.net := rfl
@[simp] theorem State.owe_pseen (s : State) (l : List Instr) : (s.owe l).pseen = s.pseen := rfl
@[simp] theorem State.owe_rto (s : State) (l : List Instr) : (s.owe l).rto = s.rto := rfl
@[simp] theorem State.owe_posts (s : State) (l : List Instr) : (s.owe l).posts = s.posts := rfl
@[simp] theorem State.owe_groups (s : State) (l : List Instr) : (s.owe l).groups = s.groups := rfl
@[simp] theorem State.owe_slotted (s : State) (l : List Instr) : (s.owe l).slotted = s.slotted := rfl
@[simp] theorem State.owe_sent (s : State) (l : List Instr) : (s.owe l).sent = s.sent := rfl
@[simp] theorem State.owe_qdt (s : State) (l : List Instr) : (s.owe l).qdt = s.qdt := rfl
@[simp] theorem State.owe_meshq (s : State) (l : List Instr) : (s.owe l).meshq = s.meshq := rfl
@[simp] theorem State.owe_quads (s : State) (l : List Instr) : (s.owe l).quads = s.quads := rfl
@[simp] theorem State.gangAt_owe (s : State) (j : Nat) (l : List Instr) : (s.owe l).gangAt j = s.gangAt j := rfl
@[simp] theorem State.teamAt_owe (s : State) (j : Nat) (l : List Instr) : (s.owe l).teamAt j = s.teamAt j := rfl
@[simp] theorem State.cohortAt_owe (s : State) (j : Nat) (l : List Instr) : (s.owe l).cohortAt j = s.cohortAt j := rfl
@[simp] theorem State.queueAt_owe (s : State) (j : Nat) (l : List Instr) : (s.owe l).queueAt j = s.queueAt j := rfl
@[simp] theorem State.mxAt_owe (s : State) (j : Nat) (l : List Instr) : (s.owe l).mxAt j = s.mxAt j := rfl
@[simp] theorem State.dieAt_owe (s : State) (j : Nat) (l : List Instr) : (s.owe l).dieAt j = s.dieAt j := rfl
@[simp] theorem State.coreAt_owe (s : State) (j : Nat) (l : List Instr) : (s.owe l).coreAt j = s.coreAt j := rfl
@[simp] theorem State.owe_due (s : State) (l : List Instr) : (s.owe l).due = s.due ++ l := rfl

/-! ## The issuing gang -/

@[simp] theorem State.gang_setGang (s : State) (g : Gang) : (s.setGang g).gang = g := by
  simp [State.gang, State.setGang]

@[simp] theorem State.setGang_gk (s : State) (g : Gang) : (s.setGang g).gk = s.gk := rfl
@[simp] theorem State.setGang_pt (s : State) (g : Gang) : (s.setGang g).pt = s.pt := rfl
@[simp] theorem State.setGang_mem (s : State) (g : Gang) : (s.setGang g).mem = s.mem := rfl

theorem State.gangAt_setGang_ne (s : State) (g : Gang) {k : Nat} (h : k ≠ s.gk) : (s.setGang g).gangAt k = s.gangAt k := by
  simp [State.setGang, h]

theorem State.setGang_eq (s : State) (g : Gang) : s.setGang g = { s with gangs := (s.setGang g).gangs } := rfl

/-! ## Updates of a gang: each as the one field it can change -/

theorem Gang.setK_eq (g : Gang) (n l : Nat) (b : Bool) : g.setK n l b = { g with r := (g.setK n l b).r } := by
  unfold Gang.setK; split <;> rfl
theorem Gang.setGp_eq (g : Gang) (n : Nat) (b : Bool) : g.setGp n b = { g with r := (g.setGp n b).r } := by
  unfold Gang.setGp; split <;> rfl
theorem Gang.setG_eq (g : Gang) (n : Nat) (x : DWord) : g.setG n x = { g with r := (g.setG n x).r } := by
  unfold Gang.setG; split <;> rfl
theorem Gang.setV_eq (g : Gang) (n l : Nat) (x : Word) : g.setV n l x = { g with r := (g.setV n l x).r } := by
  unfold Gang.setV; split <;> rfl
theorem Gang.setAd_eq (g : Gang) (n : Nat) (x : VAddr) : g.setAd n x = { g with r := (g.setAd n x).r } := rfl
theorem Gang.orMstat_eq (g : Gang) (x : DWord) : g.orMstat x = { g with r := { g.r with mstat := g.r.mstat ||| x } } := rfl
theorem Gang.setSrstate_eq (g : Gang) (l : Nat) (x : Word) : g.setSrstate l x = { g with r := { g.r with srstate := (g.setSrstate l x).r.srstate } } := rfl
theorem Gang.onSlices_eq (g : Gang) (l : List Nat) (f : Slice → Slice) : g.onSlices l f = { g with slices := (g.onSlices l f).slices } := rfl
theorem Gang.setPc_eq (g : Gang) (l : List Nat) (a : IAddr) : g.setPc l a = { g with slices := (g.setPc l a).slices } := rfl
theorem Gang.emptyBypass_eq (g : Gang) (l : List Nat) : g.emptyBypass l = { g with bypFull := (g.emptyBypass l).bypFull } := rfl
theorem Gang.pop_eq (g : Gang) (qs ls : List Nat) : g.pop qs ls = { g with queues := (g.pop qs ls).queues } := rfl
theorem Gang.push_eq (g : Gang) (q l : Nat) (x : Word) : g.push q l x = { g with queues := (g.push q l x).queues } := rfl

@[simp] theorem Gang.setK_kind (g : Gang) (n l : Nat) (b : Bool) : (g.setK n l b).kind = g.kind := by
  unfold Gang.setK; split <;> rfl
@[simp] theorem Gang.setK_team (g : Gang) (n l : Nat) (b : Bool) : (g.setK n l b).team = g.team := by
  unfold Gang.setK; split <;> rfl
@[simp] theorem Gang.setK_slices (g : Gang) (n l : Nat) (b : Bool) : (g.setK n l b).slices = g.slices := by
  unfold Gang.setK; split <;> rfl
@[simp] theorem Gang.setK_cnt (g : Gang) (n l : Nat) (b : Bool) : (g.setK n l b).cnt = g.cnt := by
  unfold Gang.setK; split <;> rfl
@[simp] theorem Gang.setK_exited (g : Gang) (n l : Nat) (b : Bool) : (g.setK n l b).exited = g.exited := by
  unfold Gang.setK; split <;> rfl
@[simp] theorem Gang.setK_byp (g : Gang) (n l : Nat) (b : Bool) : (g.setK n l b).byp = g.byp := by
  unfold Gang.setK; split <;> rfl
@[simp] theorem Gang.setK_bypFull (g : Gang) (n l : Nat) (b : Bool) : (g.setK n l b).bypFull = g.bypFull := by
  unfold Gang.setK; split <;> rfl
@[simp] theorem Gang.setK_queues (g : Gang) (n l : Nat) (b : Bool) : (g.setK n l b).queues = g.queues := by
  unfold Gang.setK; split <;> rfl
@[simp] theorem Gang.setK_td (g : Gang) (n l : Nat) (b : Bool) : (g.setK n l b).td = g.td := by
  unfold Gang.setK; split <;> rfl
@[simp] theorem Gang.setK_ahead (g : Gang) (n l : Nat) (b : Bool) : (g.setK n l b).ahead = g.ahead := by
  unfold Gang.setK; split <;> rfl
@[simp] theorem Gang.setK_rel (g : Gang) (n l : Nat) (b : Bool) : (g.setK n l b).rel = g.rel := by
  unfold Gang.setK; split <;> rfl
@[simp] theorem Gang.setK_hold (g : Gang) (n l : Nat) (b : Bool) : (g.setK n l b).hold = g.hold := by
  unfold Gang.setK; split <;> rfl
@[simp] theorem Gang.setK_hstate (g : Gang) (n l : Nat) (b : Bool) : (g.setK n l b).hstate = g.hstate := by
  unfold Gang.setK; split <;> rfl
@[simp] theorem Gang.setK_loads (g : Gang) (n l : Nat) (b : Bool) : (g.setK n l b).loads = g.loads := by
  unfold Gang.setK; split <;> rfl
@[simp] theorem Gang.setK_ret (g : Gang) (n l : Nat) (b : Bool) : (g.setK n l b).ret = g.ret := by
  unfold Gang.setK; split <;> rfl
@[simp] theorem Gang.setK_qcfg (g : Gang) (n l : Nat) (b : Bool) : (g.setK n l b).qcfg = g.qcfg := by
  unfold Gang.setK; split <;> rfl
@[simp] theorem Gang.setK_blocks (g : Gang) (n l : Nat) (b : Bool) : (g.setK n l b).blocks = g.blocks := by
  unfold Gang.setK; split <;> rfl
@[simp] theorem Gang.setK_ended (g : Gang) (n l : Nat) (b : Bool) : (g.setK n l b).ended = g.ended := by
  unfold Gang.setK; split <;> rfl
@[simp] theorem Gang.setGp_kind (g : Gang) (n : Nat) (b : Bool) : (g.setGp n b).kind = g.kind := by
  unfold Gang.setGp; split <;> rfl
@[simp] theorem Gang.setGp_team (g : Gang) (n : Nat) (b : Bool) : (g.setGp n b).team = g.team := by
  unfold Gang.setGp; split <;> rfl
@[simp] theorem Gang.setGp_slices (g : Gang) (n : Nat) (b : Bool) : (g.setGp n b).slices = g.slices := by
  unfold Gang.setGp; split <;> rfl
@[simp] theorem Gang.setGp_cnt (g : Gang) (n : Nat) (b : Bool) : (g.setGp n b).cnt = g.cnt := by
  unfold Gang.setGp; split <;> rfl
@[simp] theorem Gang.setGp_exited (g : Gang) (n : Nat) (b : Bool) : (g.setGp n b).exited = g.exited := by
  unfold Gang.setGp; split <;> rfl
@[simp] theorem Gang.setGp_byp (g : Gang) (n : Nat) (b : Bool) : (g.setGp n b).byp = g.byp := by
  unfold Gang.setGp; split <;> rfl
@[simp] theorem Gang.setGp_bypFull (g : Gang) (n : Nat) (b : Bool) : (g.setGp n b).bypFull = g.bypFull := by
  unfold Gang.setGp; split <;> rfl
@[simp] theorem Gang.setGp_queues (g : Gang) (n : Nat) (b : Bool) : (g.setGp n b).queues = g.queues := by
  unfold Gang.setGp; split <;> rfl
@[simp] theorem Gang.setGp_td (g : Gang) (n : Nat) (b : Bool) : (g.setGp n b).td = g.td := by
  unfold Gang.setGp; split <;> rfl
@[simp] theorem Gang.setGp_ahead (g : Gang) (n : Nat) (b : Bool) : (g.setGp n b).ahead = g.ahead := by
  unfold Gang.setGp; split <;> rfl
@[simp] theorem Gang.setGp_rel (g : Gang) (n : Nat) (b : Bool) : (g.setGp n b).rel = g.rel := by
  unfold Gang.setGp; split <;> rfl
@[simp] theorem Gang.setGp_hold (g : Gang) (n : Nat) (b : Bool) : (g.setGp n b).hold = g.hold := by
  unfold Gang.setGp; split <;> rfl
@[simp] theorem Gang.setGp_hstate (g : Gang) (n : Nat) (b : Bool) : (g.setGp n b).hstate = g.hstate := by
  unfold Gang.setGp; split <;> rfl
@[simp] theorem Gang.setGp_loads (g : Gang) (n : Nat) (b : Bool) : (g.setGp n b).loads = g.loads := by
  unfold Gang.setGp; split <;> rfl
@[simp] theorem Gang.setGp_ret (g : Gang) (n : Nat) (b : Bool) : (g.setGp n b).ret = g.ret := by
  unfold Gang.setGp; split <;> rfl
@[simp] theorem Gang.setGp_qcfg (g : Gang) (n : Nat) (b : Bool) : (g.setGp n b).qcfg = g.qcfg := by
  unfold Gang.setGp; split <;> rfl
@[simp] theorem Gang.setGp_blocks (g : Gang) (n : Nat) (b : Bool) : (g.setGp n b).blocks = g.blocks := by
  unfold Gang.setGp; split <;> rfl
@[simp] theorem Gang.setGp_ended (g : Gang) (n : Nat) (b : Bool) : (g.setGp n b).ended = g.ended := by
  unfold Gang.setGp; split <;> rfl
@[simp] theorem Gang.setG_kind (g : Gang) (n : Nat) (x : DWord) : (g.setG n x).kind = g.kind := by
  unfold Gang.setG; split <;> rfl
@[simp] theorem Gang.setG_team (g : Gang) (n : Nat) (x : DWord) : (g.setG n x).team = g.team := by
  unfold Gang.setG; split <;> rfl
@[simp] theorem Gang.setG_slices (g : Gang) (n : Nat) (x : DWord) : (g.setG n x).slices = g.slices := by
  unfold Gang.setG; split <;> rfl
@[simp] theorem Gang.setG_cnt (g : Gang) (n : Nat) (x : DWord) : (g.setG n x).cnt = g.cnt := by
  unfold Gang.setG; split <;> rfl
@[simp] theorem Gang.setG_exited (g : Gang) (n : Nat) (x : DWord) : (g.setG n x).exited = g.exited := by
  unfold Gang.setG; split <;> rfl
@[simp] theorem Gang.setG_byp (g : Gang) (n : Nat) (x : DWord) : (g.setG n x).byp = g.byp := by
  unfold Gang.setG; split <;> rfl
@[simp] theorem Gang.setG_bypFull (g : Gang) (n : Nat) (x : DWord) : (g.setG n x).bypFull = g.bypFull := by
  unfold Gang.setG; split <;> rfl
@[simp] theorem Gang.setG_queues (g : Gang) (n : Nat) (x : DWord) : (g.setG n x).queues = g.queues := by
  unfold Gang.setG; split <;> rfl
@[simp] theorem Gang.setG_td (g : Gang) (n : Nat) (x : DWord) : (g.setG n x).td = g.td := by
  unfold Gang.setG; split <;> rfl
@[simp] theorem Gang.setG_ahead (g : Gang) (n : Nat) (x : DWord) : (g.setG n x).ahead = g.ahead := by
  unfold Gang.setG; split <;> rfl
@[simp] theorem Gang.setG_rel (g : Gang) (n : Nat) (x : DWord) : (g.setG n x).rel = g.rel := by
  unfold Gang.setG; split <;> rfl
@[simp] theorem Gang.setG_hold (g : Gang) (n : Nat) (x : DWord) : (g.setG n x).hold = g.hold := by
  unfold Gang.setG; split <;> rfl
@[simp] theorem Gang.setG_hstate (g : Gang) (n : Nat) (x : DWord) : (g.setG n x).hstate = g.hstate := by
  unfold Gang.setG; split <;> rfl
@[simp] theorem Gang.setG_loads (g : Gang) (n : Nat) (x : DWord) : (g.setG n x).loads = g.loads := by
  unfold Gang.setG; split <;> rfl
@[simp] theorem Gang.setG_ret (g : Gang) (n : Nat) (x : DWord) : (g.setG n x).ret = g.ret := by
  unfold Gang.setG; split <;> rfl
@[simp] theorem Gang.setG_qcfg (g : Gang) (n : Nat) (x : DWord) : (g.setG n x).qcfg = g.qcfg := by
  unfold Gang.setG; split <;> rfl
@[simp] theorem Gang.setG_blocks (g : Gang) (n : Nat) (x : DWord) : (g.setG n x).blocks = g.blocks := by
  unfold Gang.setG; split <;> rfl
@[simp] theorem Gang.setG_ended (g : Gang) (n : Nat) (x : DWord) : (g.setG n x).ended = g.ended := by
  unfold Gang.setG; split <;> rfl
@[simp] theorem Gang.setV_kind (g : Gang) (n l : Nat) (x : Word) : (g.setV n l x).kind = g.kind := by
  unfold Gang.setV; split <;> rfl
@[simp] theorem Gang.setV_team (g : Gang) (n l : Nat) (x : Word) : (g.setV n l x).team = g.team := by
  unfold Gang.setV; split <;> rfl
@[simp] theorem Gang.setV_slices (g : Gang) (n l : Nat) (x : Word) : (g.setV n l x).slices = g.slices := by
  unfold Gang.setV; split <;> rfl
@[simp] theorem Gang.setV_cnt (g : Gang) (n l : Nat) (x : Word) : (g.setV n l x).cnt = g.cnt := by
  unfold Gang.setV; split <;> rfl
@[simp] theorem Gang.setV_exited (g : Gang) (n l : Nat) (x : Word) : (g.setV n l x).exited = g.exited := by
  unfold Gang.setV; split <;> rfl
@[simp] theorem Gang.setV_byp (g : Gang) (n l : Nat) (x : Word) : (g.setV n l x).byp = g.byp := by
  unfold Gang.setV; split <;> rfl
@[simp] theorem Gang.setV_bypFull (g : Gang) (n l : Nat) (x : Word) : (g.setV n l x).bypFull = g.bypFull := by
  unfold Gang.setV; split <;> rfl
@[simp] theorem Gang.setV_queues (g : Gang) (n l : Nat) (x : Word) : (g.setV n l x).queues = g.queues := by
  unfold Gang.setV; split <;> rfl
@[simp] theorem Gang.setV_td (g : Gang) (n l : Nat) (x : Word) : (g.setV n l x).td = g.td := by
  unfold Gang.setV; split <;> rfl
@[simp] theorem Gang.setV_ahead (g : Gang) (n l : Nat) (x : Word) : (g.setV n l x).ahead = g.ahead := by
  unfold Gang.setV; split <;> rfl
@[simp] theorem Gang.setV_rel (g : Gang) (n l : Nat) (x : Word) : (g.setV n l x).rel = g.rel := by
  unfold Gang.setV; split <;> rfl
@[simp] theorem Gang.setV_hold (g : Gang) (n l : Nat) (x : Word) : (g.setV n l x).hold = g.hold := by
  unfold Gang.setV; split <;> rfl
@[simp] theorem Gang.setV_hstate (g : Gang) (n l : Nat) (x : Word) : (g.setV n l x).hstate = g.hstate := by
  unfold Gang.setV; split <;> rfl
@[simp] theorem Gang.setV_loads (g : Gang) (n l : Nat) (x : Word) : (g.setV n l x).loads = g.loads := by
  unfold Gang.setV; split <;> rfl
@[simp] theorem Gang.setV_ret (g : Gang) (n l : Nat) (x : Word) : (g.setV n l x).ret = g.ret := by
  unfold Gang.setV; split <;> rfl
@[simp] theorem Gang.setV_qcfg (g : Gang) (n l : Nat) (x : Word) : (g.setV n l x).qcfg = g.qcfg := by
  unfold Gang.setV; split <;> rfl
@[simp] theorem Gang.setV_blocks (g : Gang) (n l : Nat) (x : Word) : (g.setV n l x).blocks = g.blocks := by
  unfold Gang.setV; split <;> rfl
@[simp] theorem Gang.setV_ended (g : Gang) (n l : Nat) (x : Word) : (g.setV n l x).ended = g.ended := by
  unfold Gang.setV; split <;> rfl
@[simp] theorem Gang.setAd_kind (g : Gang) (n : Nat) (x : VAddr) : (g.setAd n x).kind = g.kind := rfl
@[simp] theorem Gang.setAd_team (g : Gang) (n : Nat) (x : VAddr) : (g.setAd n x).team = g.team := rfl
@[simp] theorem Gang.setAd_slices (g : Gang) (n : Nat) (x : VAddr) : (g.setAd n x).slices = g.slices := rfl
@[simp] theorem Gang.setAd_cnt (g : Gang) (n : Nat) (x : VAddr) : (g.setAd n x).cnt = g.cnt := rfl
@[simp] theorem Gang.setAd_exited (g : Gang) (n : Nat) (x : VAddr) : (g.setAd n x).exited = g.exited := rfl
@[simp] theorem Gang.setAd_byp (g : Gang) (n : Nat) (x : VAddr) : (g.setAd n x).byp = g.byp := rfl
@[simp] theorem Gang.setAd_bypFull (g : Gang) (n : Nat) (x : VAddr) : (g.setAd n x).bypFull = g.bypFull := rfl
@[simp] theorem Gang.setAd_queues (g : Gang) (n : Nat) (x : VAddr) : (g.setAd n x).queues = g.queues := rfl
@[simp] theorem Gang.setAd_td (g : Gang) (n : Nat) (x : VAddr) : (g.setAd n x).td = g.td := rfl
@[simp] theorem Gang.setAd_ahead (g : Gang) (n : Nat) (x : VAddr) : (g.setAd n x).ahead = g.ahead := rfl
@[simp] theorem Gang.setAd_rel (g : Gang) (n : Nat) (x : VAddr) : (g.setAd n x).rel = g.rel := rfl
@[simp] theorem Gang.setAd_hold (g : Gang) (n : Nat) (x : VAddr) : (g.setAd n x).hold = g.hold := rfl
@[simp] theorem Gang.setAd_hstate (g : Gang) (n : Nat) (x : VAddr) : (g.setAd n x).hstate = g.hstate := rfl
@[simp] theorem Gang.setAd_loads (g : Gang) (n : Nat) (x : VAddr) : (g.setAd n x).loads = g.loads := rfl
@[simp] theorem Gang.setAd_ret (g : Gang) (n : Nat) (x : VAddr) : (g.setAd n x).ret = g.ret := rfl
@[simp] theorem Gang.setAd_qcfg (g : Gang) (n : Nat) (x : VAddr) : (g.setAd n x).qcfg = g.qcfg := rfl
@[simp] theorem Gang.setAd_blocks (g : Gang) (n : Nat) (x : VAddr) : (g.setAd n x).blocks = g.blocks := rfl
@[simp] theorem Gang.setAd_ended (g : Gang) (n : Nat) (x : VAddr) : (g.setAd n x).ended = g.ended := rfl
@[simp] theorem Gang.orMstat_kind (g : Gang) (x : DWord) : (g.orMstat x).kind = g.kind := rfl
@[simp] theorem Gang.orMstat_team (g : Gang) (x : DWord) : (g.orMstat x).team = g.team := rfl
@[simp] theorem Gang.orMstat_slices (g : Gang) (x : DWord) : (g.orMstat x).slices = g.slices := rfl
@[simp] theorem Gang.orMstat_cnt (g : Gang) (x : DWord) : (g.orMstat x).cnt = g.cnt := rfl
@[simp] theorem Gang.orMstat_exited (g : Gang) (x : DWord) : (g.orMstat x).exited = g.exited := rfl
@[simp] theorem Gang.orMstat_byp (g : Gang) (x : DWord) : (g.orMstat x).byp = g.byp := rfl
@[simp] theorem Gang.orMstat_bypFull (g : Gang) (x : DWord) : (g.orMstat x).bypFull = g.bypFull := rfl
@[simp] theorem Gang.orMstat_queues (g : Gang) (x : DWord) : (g.orMstat x).queues = g.queues := rfl
@[simp] theorem Gang.orMstat_td (g : Gang) (x : DWord) : (g.orMstat x).td = g.td := rfl
@[simp] theorem Gang.orMstat_ahead (g : Gang) (x : DWord) : (g.orMstat x).ahead = g.ahead := rfl
@[simp] theorem Gang.orMstat_rel (g : Gang) (x : DWord) : (g.orMstat x).rel = g.rel := rfl
@[simp] theorem Gang.orMstat_hold (g : Gang) (x : DWord) : (g.orMstat x).hold = g.hold := rfl
@[simp] theorem Gang.orMstat_hstate (g : Gang) (x : DWord) : (g.orMstat x).hstate = g.hstate := rfl
@[simp] theorem Gang.orMstat_loads (g : Gang) (x : DWord) : (g.orMstat x).loads = g.loads := rfl
@[simp] theorem Gang.orMstat_ret (g : Gang) (x : DWord) : (g.orMstat x).ret = g.ret := rfl
@[simp] theorem Gang.orMstat_qcfg (g : Gang) (x : DWord) : (g.orMstat x).qcfg = g.qcfg := rfl
@[simp] theorem Gang.orMstat_blocks (g : Gang) (x : DWord) : (g.orMstat x).blocks = g.blocks := rfl
@[simp] theorem Gang.orMstat_ended (g : Gang) (x : DWord) : (g.orMstat x).ended = g.ended := rfl
@[simp] theorem Gang.setSrstate_kind (g : Gang) (l : Nat) (x : Word) : (g.setSrstate l x).kind = g.kind := rfl
@[simp] theorem Gang.setSrstate_team (g : Gang) (l : Nat) (x : Word) : (g.setSrstate l x).team = g.team := rfl
@[simp] theorem Gang.setSrstate_slices (g : Gang) (l : Nat) (x : Word) : (g.setSrstate l x).slices = g.slices := rfl
@[simp] theorem Gang.setSrstate_cnt (g : Gang) (l : Nat) (x : Word) : (g.setSrstate l x).cnt = g.cnt := rfl
@[simp] theorem Gang.setSrstate_exited (g : Gang) (l : Nat) (x : Word) : (g.setSrstate l x).exited = g.exited := rfl
@[simp] theorem Gang.setSrstate_byp (g : Gang) (l : Nat) (x : Word) : (g.setSrstate l x).byp = g.byp := rfl
@[simp] theorem Gang.setSrstate_bypFull (g : Gang) (l : Nat) (x : Word) : (g.setSrstate l x).bypFull = g.bypFull := rfl
@[simp] theorem Gang.setSrstate_queues (g : Gang) (l : Nat) (x : Word) : (g.setSrstate l x).queues = g.queues := rfl
@[simp] theorem Gang.setSrstate_td (g : Gang) (l : Nat) (x : Word) : (g.setSrstate l x).td = g.td := rfl
@[simp] theorem Gang.setSrstate_ahead (g : Gang) (l : Nat) (x : Word) : (g.setSrstate l x).ahead = g.ahead := rfl
@[simp] theorem Gang.setSrstate_rel (g : Gang) (l : Nat) (x : Word) : (g.setSrstate l x).rel = g.rel := rfl
@[simp] theorem Gang.setSrstate_hold (g : Gang) (l : Nat) (x : Word) : (g.setSrstate l x).hold = g.hold := rfl
@[simp] theorem Gang.setSrstate_hstate (g : Gang) (l : Nat) (x : Word) : (g.setSrstate l x).hstate = g.hstate := rfl
@[simp] theorem Gang.setSrstate_loads (g : Gang) (l : Nat) (x : Word) : (g.setSrstate l x).loads = g.loads := rfl
@[simp] theorem Gang.setSrstate_ret (g : Gang) (l : Nat) (x : Word) : (g.setSrstate l x).ret = g.ret := rfl
@[simp] theorem Gang.setSrstate_qcfg (g : Gang) (l : Nat) (x : Word) : (g.setSrstate l x).qcfg = g.qcfg := rfl
@[simp] theorem Gang.setSrstate_blocks (g : Gang) (l : Nat) (x : Word) : (g.setSrstate l x).blocks = g.blocks := rfl
@[simp] theorem Gang.setSrstate_ended (g : Gang) (l : Nat) (x : Word) : (g.setSrstate l x).ended = g.ended := rfl
@[simp] theorem Gang.onSlices_kind (g : Gang) (l : List Nat) (f : Slice → Slice) : (g.onSlices l f).kind = g.kind := rfl
@[simp] theorem Gang.onSlices_team (g : Gang) (l : List Nat) (f : Slice → Slice) : (g.onSlices l f).team = g.team := rfl
@[simp] theorem Gang.onSlices_r (g : Gang) (l : List Nat) (f : Slice → Slice) : (g.onSlices l f).r = g.r := rfl
@[simp] theorem Gang.onSlices_cnt (g : Gang) (l : List Nat) (f : Slice → Slice) : (g.onSlices l f).cnt = g.cnt := rfl
@[simp] theorem Gang.onSlices_exited (g : Gang) (l : List Nat) (f : Slice → Slice) : (g.onSlices l f).exited = g.exited := rfl
@[simp] theorem Gang.onSlices_byp (g : Gang) (l : List Nat) (f : Slice → Slice) : (g.onSlices l f).byp = g.byp := rfl
@[simp] theorem Gang.onSlices_bypFull (g : Gang) (l : List Nat) (f : Slice → Slice) : (g.onSlices l f).bypFull = g.bypFull := rfl
@[simp] theorem Gang.onSlices_queues (g : Gang) (l : List Nat) (f : Slice → Slice) : (g.onSlices l f).queues = g.queues := rfl
@[simp] theorem Gang.onSlices_td (g : Gang) (l : List Nat) (f : Slice → Slice) : (g.onSlices l f).td = g.td := rfl
@[simp] theorem Gang.onSlices_ahead (g : Gang) (l : List Nat) (f : Slice → Slice) : (g.onSlices l f).ahead = g.ahead := rfl
@[simp] theorem Gang.onSlices_rel (g : Gang) (l : List Nat) (f : Slice → Slice) : (g.onSlices l f).rel = g.rel := rfl
@[simp] theorem Gang.onSlices_hold (g : Gang) (l : List Nat) (f : Slice → Slice) : (g.onSlices l f).hold = g.hold := rfl
@[simp] theorem Gang.onSlices_hstate (g : Gang) (l : List Nat) (f : Slice → Slice) : (g.onSlices l f).hstate = g.hstate := rfl
@[simp] theorem Gang.onSlices_loads (g : Gang) (l : List Nat) (f : Slice → Slice) : (g.onSlices l f).loads = g.loads := rfl
@[simp] theorem Gang.onSlices_ret (g : Gang) (l : List Nat) (f : Slice → Slice) : (g.onSlices l f).ret = g.ret := rfl
@[simp] theorem Gang.onSlices_qcfg (g : Gang) (l : List Nat) (f : Slice → Slice) : (g.onSlices l f).qcfg = g.qcfg := rfl
@[simp] theorem Gang.onSlices_blocks (g : Gang) (l : List Nat) (f : Slice → Slice) : (g.onSlices l f).blocks = g.blocks := rfl
@[simp] theorem Gang.onSlices_ended (g : Gang) (l : List Nat) (f : Slice → Slice) : (g.onSlices l f).ended = g.ended := rfl
@[simp] theorem Gang.setPc_kind (g : Gang) (l : List Nat) (a : IAddr) : (g.setPc l a).kind = g.kind := rfl
@[simp] theorem Gang.setPc_team (g : Gang) (l : List Nat) (a : IAddr) : (g.setPc l a).team = g.team := rfl
@[simp] theorem Gang.setPc_r (g : Gang) (l : List Nat) (a : IAddr) : (g.setPc l a).r = g.r := rfl
@[simp] theorem Gang.setPc_cnt (g : Gang) (l : List Nat) (a : IAddr) : (g.setPc l a).cnt = g.cnt := rfl
@[simp] theorem Gang.setPc_exited (g : Gang) (l : List Nat) (a : IAddr) : (g.setPc l a).exited = g.exited := rfl
@[simp] theorem Gang.setPc_byp (g : Gang) (l : List Nat) (a : IAddr) : (g.setPc l a).byp = g.byp := rfl
@[simp] theorem Gang.setPc_bypFull (g : Gang) (l : List Nat) (a : IAddr) : (g.setPc l a).bypFull = g.bypFull := rfl
@[simp] theorem Gang.setPc_queues (g : Gang) (l : List Nat) (a : IAddr) : (g.setPc l a).queues = g.queues := rfl
@[simp] theorem Gang.setPc_td (g : Gang) (l : List Nat) (a : IAddr) : (g.setPc l a).td = g.td := rfl
@[simp] theorem Gang.setPc_ahead (g : Gang) (l : List Nat) (a : IAddr) : (g.setPc l a).ahead = g.ahead := rfl
@[simp] theorem Gang.setPc_rel (g : Gang) (l : List Nat) (a : IAddr) : (g.setPc l a).rel = g.rel := rfl
@[simp] theorem Gang.setPc_hold (g : Gang) (l : List Nat) (a : IAddr) : (g.setPc l a).hold = g.hold := rfl
@[simp] theorem Gang.setPc_hstate (g : Gang) (l : List Nat) (a : IAddr) : (g.setPc l a).hstate = g.hstate := rfl
@[simp] theorem Gang.setPc_loads (g : Gang) (l : List Nat) (a : IAddr) : (g.setPc l a).loads = g.loads := rfl
@[simp] theorem Gang.setPc_ret (g : Gang) (l : List Nat) (a : IAddr) : (g.setPc l a).ret = g.ret := rfl
@[simp] theorem Gang.setPc_qcfg (g : Gang) (l : List Nat) (a : IAddr) : (g.setPc l a).qcfg = g.qcfg := rfl
@[simp] theorem Gang.setPc_blocks (g : Gang) (l : List Nat) (a : IAddr) : (g.setPc l a).blocks = g.blocks := rfl
@[simp] theorem Gang.setPc_ended (g : Gang) (l : List Nat) (a : IAddr) : (g.setPc l a).ended = g.ended := rfl
@[simp] theorem Gang.emptyBypass_kind (g : Gang) (l : List Nat) : (g.emptyBypass l).kind = g.kind := rfl
@[simp] theorem Gang.emptyBypass_team (g : Gang) (l : List Nat) : (g.emptyBypass l).team = g.team := rfl
@[simp] theorem Gang.emptyBypass_slices (g : Gang) (l : List Nat) : (g.emptyBypass l).slices = g.slices := rfl
@[simp] theorem Gang.emptyBypass_r (g : Gang) (l : List Nat) : (g.emptyBypass l).r = g.r := rfl
@[simp] theorem Gang.emptyBypass_cnt (g : Gang) (l : List Nat) : (g.emptyBypass l).cnt = g.cnt := rfl
@[simp] theorem Gang.emptyBypass_exited (g : Gang) (l : List Nat) : (g.emptyBypass l).exited = g.exited := rfl
@[simp] theorem Gang.emptyBypass_byp (g : Gang) (l : List Nat) : (g.emptyBypass l).byp = g.byp := rfl
@[simp] theorem Gang.emptyBypass_queues (g : Gang) (l : List Nat) : (g.emptyBypass l).queues = g.queues := rfl
@[simp] theorem Gang.emptyBypass_td (g : Gang) (l : List Nat) : (g.emptyBypass l).td = g.td := rfl
@[simp] theorem Gang.emptyBypass_ahead (g : Gang) (l : List Nat) : (g.emptyBypass l).ahead = g.ahead := rfl
@[simp] theorem Gang.emptyBypass_rel (g : Gang) (l : List Nat) : (g.emptyBypass l).rel = g.rel := rfl
@[simp] theorem Gang.emptyBypass_hold (g : Gang) (l : List Nat) : (g.emptyBypass l).hold = g.hold := rfl
@[simp] theorem Gang.emptyBypass_hstate (g : Gang) (l : List Nat) : (g.emptyBypass l).hstate = g.hstate := rfl
@[simp] theorem Gang.emptyBypass_loads (g : Gang) (l : List Nat) : (g.emptyBypass l).loads = g.loads := rfl
@[simp] theorem Gang.emptyBypass_ret (g : Gang) (l : List Nat) : (g.emptyBypass l).ret = g.ret := rfl
@[simp] theorem Gang.emptyBypass_qcfg (g : Gang) (l : List Nat) : (g.emptyBypass l).qcfg = g.qcfg := rfl
@[simp] theorem Gang.emptyBypass_blocks (g : Gang) (l : List Nat) : (g.emptyBypass l).blocks = g.blocks := rfl
@[simp] theorem Gang.emptyBypass_ended (g : Gang) (l : List Nat) : (g.emptyBypass l).ended = g.ended := rfl
@[simp] theorem Gang.pop_kind (g : Gang) (qs ls : List Nat) : (g.pop qs ls).kind = g.kind := rfl
@[simp] theorem Gang.pop_team (g : Gang) (qs ls : List Nat) : (g.pop qs ls).team = g.team := rfl
@[simp] theorem Gang.pop_slices (g : Gang) (qs ls : List Nat) : (g.pop qs ls).slices = g.slices := rfl
@[simp] theorem Gang.pop_r (g : Gang) (qs ls : List Nat) : (g.pop qs ls).r = g.r := rfl
@[simp] theorem Gang.pop_cnt (g : Gang) (qs ls : List Nat) : (g.pop qs ls).cnt = g.cnt := rfl
@[simp] theorem Gang.pop_exited (g : Gang) (qs ls : List Nat) : (g.pop qs ls).exited = g.exited := rfl
@[simp] theorem Gang.pop_byp (g : Gang) (qs ls : List Nat) : (g.pop qs ls).byp = g.byp := rfl
@[simp] theorem Gang.pop_bypFull (g : Gang) (qs ls : List Nat) : (g.pop qs ls).bypFull = g.bypFull := rfl
@[simp] theorem Gang.pop_td (g : Gang) (qs ls : List Nat) : (g.pop qs ls).td = g.td := rfl
@[simp] theorem Gang.pop_ahead (g : Gang) (qs ls : List Nat) : (g.pop qs ls).ahead = g.ahead := rfl
@[simp] theorem Gang.pop_rel (g : Gang) (qs ls : List Nat) : (g.pop qs ls).rel = g.rel := rfl
@[simp] theorem Gang.pop_hold (g : Gang) (qs ls : List Nat) : (g.pop qs ls).hold = g.hold := rfl
@[simp] theorem Gang.pop_hstate (g : Gang) (qs ls : List Nat) : (g.pop qs ls).hstate = g.hstate := rfl
@[simp] theorem Gang.pop_loads (g : Gang) (qs ls : List Nat) : (g.pop qs ls).loads = g.loads := rfl
@[simp] theorem Gang.pop_ret (g : Gang) (qs ls : List Nat) : (g.pop qs ls).ret = g.ret := rfl
@[simp] theorem Gang.pop_qcfg (g : Gang) (qs ls : List Nat) : (g.pop qs ls).qcfg = g.qcfg := rfl
@[simp] theorem Gang.pop_blocks (g : Gang) (qs ls : List Nat) : (g.pop qs ls).blocks = g.blocks := rfl
@[simp] theorem Gang.pop_ended (g : Gang) (qs ls : List Nat) : (g.pop qs ls).ended = g.ended := rfl
@[simp] theorem Gang.push_kind (g : Gang) (q l : Nat) (x : Word) : (g.push q l x).kind = g.kind := rfl
@[simp] theorem Gang.push_team (g : Gang) (q l : Nat) (x : Word) : (g.push q l x).team = g.team := rfl
@[simp] theorem Gang.push_slices (g : Gang) (q l : Nat) (x : Word) : (g.push q l x).slices = g.slices := rfl
@[simp] theorem Gang.push_r (g : Gang) (q l : Nat) (x : Word) : (g.push q l x).r = g.r := rfl
@[simp] theorem Gang.push_cnt (g : Gang) (q l : Nat) (x : Word) : (g.push q l x).cnt = g.cnt := rfl
@[simp] theorem Gang.push_exited (g : Gang) (q l : Nat) (x : Word) : (g.push q l x).exited = g.exited := rfl
@[simp] theorem Gang.push_byp (g : Gang) (q l : Nat) (x : Word) : (g.push q l x).byp = g.byp := rfl
@[simp] theorem Gang.push_bypFull (g : Gang) (q l : Nat) (x : Word) : (g.push q l x).bypFull = g.bypFull := rfl
@[simp] theorem Gang.push_td (g : Gang) (q l : Nat) (x : Word) : (g.push q l x).td = g.td := rfl
@[simp] theorem Gang.push_ahead (g : Gang) (q l : Nat) (x : Word) : (g.push q l x).ahead = g.ahead := rfl
@[simp] theorem Gang.push_rel (g : Gang) (q l : Nat) (x : Word) : (g.push q l x).rel = g.rel := rfl
@[simp] theorem Gang.push_hold (g : Gang) (q l : Nat) (x : Word) : (g.push q l x).hold = g.hold := rfl
@[simp] theorem Gang.push_hstate (g : Gang) (q l : Nat) (x : Word) : (g.push q l x).hstate = g.hstate := rfl
@[simp] theorem Gang.push_loads (g : Gang) (q l : Nat) (x : Word) : (g.push q l x).loads = g.loads := rfl
@[simp] theorem Gang.push_ret (g : Gang) (q l : Nat) (x : Word) : (g.push q l x).ret = g.ret := rfl
@[simp] theorem Gang.push_qcfg (g : Gang) (q l : Nat) (x : Word) : (g.push q l x).qcfg = g.qcfg := rfl
@[simp] theorem Gang.push_blocks (g : Gang) (q l : Nat) (x : Word) : (g.push q l x).blocks = g.blocks := rfl
@[simp] theorem Gang.push_ended (g : Gang) (q l : Nat) (x : Word) : (g.push q l x).ended = g.ended := rfl
/-! ## A mark changes no register -/

@[simp] theorem Regs.mark_v (r : Regs) (k : Nat) : (r.mark k).v = r.v := rfl
@[simp] theorem Regs.mark_k (r : Regs) (k : Nat) : (r.mark k).k = r.k := rfl
@[simp] theorem Regs.mark_g (r : Regs) (k : Nat) : (r.mark k).g = r.g := rfl
@[simp] theorem Regs.mark_gp (r : Regs) (k : Nat) : (r.mark k).gp = r.gp := rfl
@[simp] theorem Regs.mark_ad (r : Regs) (k : Nat) : (r.mark k).ad = r.ad := rfl
@[simp] theorem Regs.mark_mstat (r : Regs) (k : Nat) : (r.mark k).mstat = r.mstat := rfl
@[simp] theorem Regs.mark_srstate (r : Regs) (k : Nat) : (r.mark k).srstate = r.srstate := rfl

/-! ## Reads after writes -/

@[simp] theorem Gang.vAt_setV (g : Gang) (n l m j : Nat) (x : Word) (hl : l < 32) (hj : j < 32) :
    (g.setV n l x).vAt m j = if m = n ∧ j = l ∧ n < 48 then x else g.vAt m j := by
  unfold Gang.setV Gang.vAt
  split_ifs <;> simp_all <;> omega

@[simp] theorem Gang.gAt_setG (g : Gang) (n m : Nat) (x : DWord) :
    (g.setG n x).gAt m = if m = n ∧ n < 32 then x else g.gAt m := by
  unfold Gang.setG Gang.gAt
  split_ifs <;> simp_all

@[simp] theorem Gang.adAt_setAd (g : Gang) (n m : Nat) (x : VAddr) :
    (g.setAd n x).adAt m = if m = n then x else g.adAt m := by
  simp [Gang.setAd, Gang.adAt]

@[simp] theorem Gang.srstateAt_setSrstate (g : Gang) (l j : Nat) (x : Word) :
    (g.setSrstate l x).srstateAt j = if j = l then x else g.srstateAt j := by
  simp [Gang.setSrstate, Gang.srstateAt]

end Sys2Proof.Machine
end

