-- ==== Sys2Proof/Laws/Memory.lean ====
section
/-! SUPPORT. Memory keeps its canonical form under every operation over it, and what a store leaves alone. -/

namespace Sys2Proof.Machine

theorem State.memWf_reset : State.reset.memWf = true := rfl

/-- Only memory matters to its form. -/
theorem State.memWf_congr {s t : State} (h : t.mem = s.mem) : t.memWf = s.memWf := by simp [State.memWf, h]

theorem foldLog_wf (l : List StoreEnt) {m : KMap Byte} (h : KMap.wf unwritten m = true) : KMap.wf unwritten (foldLog m l).1 = true := by
  induction l generalizing m with
  | nil => exact h
  | cons e r ih =>
    simp only [foldLog]
    split
    · exact ih (KMap.wf_setAll _ h)
    · exact h

theorem State.fold_memWf {s : State} (h : s.memWf = true) : s.fold.memWf = true := foldLog_wf s.log h

@[simp] theorem State.setClock_mem (s : State) (d : Nat) (c : List Nat) : (s.setClock d c).mem = s.mem := rfl

@[simp] theorem State.noteRead_mem (s : State) (d : Nat) (pas : List Nat) : (s.noteRead d pas).mem = s.mem := by
  unfold State.noteRead; split <;> rfl

/-- A store enters the log: memory itself is not written. -/
@[simp] theorem State.store_mem (s : State) (d : Nat) (b : List (Nat × Byte)) (t : List Tag) : (s.store d b t).2.mem = s.mem := by
  simp [State.store]

theorem State.store_memWf {s : State} (d : Nat) (b : List (Nat × Byte)) (t : List Tag) (h : s.memWf = true) :
    (s.store d b t).2.memWf = true := by rw [State.memWf_congr (State.store_mem s d b t)]; exact h

theorem State.force_memWf {s : State} (c : List Nat) (h : s.memWf = true) : (s.force c).memWf = true := State.fold_memWf h

theorem State.writeNow_memWf {s : State} (d : Nat) (b : List (Nat × Byte)) (t : List Tag) (h : s.memWf = true) :
    (s.writeNow d b t).memWf = true := by
  refine State.fold_memWf ?_
  rw [State.memWf_congr (State.setClock_mem ..)]
  exact State.force_memWf (s.clockOf d) h

theorem State.writeNat_memWf {s : State} (pa n x : Nat) (h : s.memWf = true) : (s.writeNat pa n x).memWf = true :=
  State.writeNow_memWf _ _ _ h

theorem State.vaWrite_memWf {s : State} (x : Xl) (va n v : Nat) (h : s.memWf = true) : (s.vaWrite x va n v).memWf = true :=
  State.writeNow_memWf _ _ _ h

theorem State.spadWrite_memWf {s : State} (t off : Nat) (b : List Byte) (tags : List Tag) (h : s.memWf = true) :
    (s.spadWrite t off b tags).memWf = true := by
  unfold State.spadWrite
  dsimp only
  split
  · exact State.writeNow_memWf _ _ _ h
  · exact h

theorem causalDelivery_memWf {s t : State} (die id : Nat) (h : s.memWf = true) (hx : execCausalDelivery die id s = .next t) :
    t.memWf = true := by
  simp only [execCausalDelivery, Host.Outcome.next.injEq] at hx
  subst hx
  split
  · exact h
  · split_ifs
    · exact h
    · exact State.fold_memWf h
    · exact h

/-! ## What the newest byte of an address is after the log is folded into memory -/

/-- The bytes of several updates, the last one of an address counting. -/
theorem get_setAll (l : List (Nat × Byte)) (m : KMap Byte) (a : Nat) :
    KMap.get unwritten (KMap.setAll unwritten m l) a = (byteIn l a).getD (KMap.get unwritten m a) := by
  induction l using List.reverseRecOn generalizing m with
  | nil => rfl
  | append_singleton r p ih =>
    simp only [KMap.setAll, List.foldl_append, List.foldl_cons, List.foldl_nil, KMap.get_set] at *
    by_cases h : a = p.1
    · simp [byteIn, h]
    · have h' : ¬ p.1 = a := fun e => h e.symm
      simp only [if_neg h, ih]
      simp [byteIn, h']

/-- Stores that every die sees become memory, and no byte changes anywhere. -/
theorem State.byteHome_fold (s : State) (a : Nat) : s.fold.byteHome a = s.byteHome a := by
  suffices h : ∀ (l : List StoreEnt) (m : KMap Byte),
      (foldLog m l).2.foldl (fun b (e : StoreEnt) => (byteIn e.bytes a).getD b) (KMap.get unwritten (foldLog m l).1 a) =
        l.foldl (fun b (e : StoreEnt) => (byteIn e.bytes a).getD b) (KMap.get unwritten m a) by
    simpa [State.byteHome, State.byteIf, State.fold] using h s.log s.mem
  intro l
  induction l with
  | nil => intro m; rfl
  | cons e r ih =>
    intro m
    simp only [foldLog]
    split
    · rw [ih, get_setAll]; rfl
    · rfl

theorem State.byteHome_eq (s : State) (a : Nat) : s.byteHome a =
    s.log.foldl (fun b (e : StoreEnt) => (byteIn e.bytes a).getD b) (KMap.get unwritten s.mem a) := by
  simp [State.byteHome, State.byteIf]

theorem State.byteHome_force (s : State) (c : List Nat) (a : Nat) : (s.force c).byteHome a = s.byteHome a := by
  unfold State.force
  rw [State.byteHome_fold, State.byteHome_eq, State.byteHome_eq, List.foldl_map]
  congr 1
  funext x e
  split <;> rfl

/-- What a device's own write leaves at every home: its bytes at their addresses, the old bytes elsewhere. -/
theorem State.byteHome_writeNow (s : State) (d : Nat) (b : List (Nat × Byte)) (t : List Tag) (a : Nat) :
    (s.writeNow d b t).byteHome a = (byteIn (s.kept b) a).getD (s.byteHome a) := by
  have hc : ∀ (x : State) (y : Nat) (z : List Nat), (x.setClock y z).byteHome a = x.byteHome a := fun _ _ _ => rfl
  unfold State.writeNow
  simp only [State.byteHome_fold, hc]
  rw [← State.byteHome_force s (s.clockOf d) a]
  simp only [State.byteHome_eq, List.foldl_append, List.foldl_cons, List.foldl_nil]

end Sys2Proof.Machine
end

