-- ==== Sys2Proof/Laws/Operands.lean ====
section
/-! SUPPORT. What the shared writes of a lane form do (R23, R27, R30, R57): lane registers, loop queues, the bypass, flags and
draws, each read back after `Gang.finish`. -/

namespace Sys2Proof.Machine

theorem lanes_nodup : lanes.Nodup := List.nodup_range
theorem mem_lanes {l : Nat} : l ∈ lanes ↔ l < 32 := List.mem_range
theorem effLanes_nodup (g : Gang) (p : Nat) (h : Header) : (g.effLanes p h).Nodup := lanes_nodup.filter _
theorem lt_of_mem_effLanes {g : Gang} {p : Nat} {h : Header} {l : Nat} (hl : l ∈ g.effLanes p h) : l < 32 :=
  mem_lanes.1 (List.mem_of_mem_filter hl)

/-! ## One write -/

theorem vAt_setV_ite (g : Gang) {n l m j : Nat} (x : Word) (hm : m < 48) (hl : l < 32) (hj : j < 32) :
    (g.setV n l x).vAt m j = if m = n ∧ j = l then x else g.vAt m j := by
  unfold Gang.setV Gang.vAt
  split_ifs with h1 h2 h2 <;> (simp_all [Regs.mark]; try omega)

theorem vAt_put (g : Gang) {d : BitVec 6} {wide : Bool} {l n j : Nat} (x : DWord) (hn : n < 48) (hl : l < 32) (hj : j < 32) :
    (g.put d wide l x).vAt n j =
      if j = l ∧ n = d.toNat then x.truncate 32
      else if j = l ∧ wide = true ∧ d.toNat < 48 ∧ n = d.toNat + 1 then (x >>> 32).truncate 32
      else g.vAt n j := by
  unfold Gang.put
  by_cases hd : d.toNat < 48
  · cases wide
    · simp only [hd, if_true, Bool.false_eq_true, if_false, vAt_setV_ite _ _ hn hl hj]
      simp [and_comm]
    · simp only [hd, if_true, Gang.setV2, vAt_setV_ite _ _ hn hl hj]
      split_ifs <;> first | rfl | omega | simp_all
  · simp only [hd, if_false]
    split_ifs <;> first | omega | rfl

@[simp] theorem queueAt_setV (g : Gang) (n l : Nat) (x : Word) (q j : Nat) : (g.setV n l x).queueAt q j = g.queueAt q j := by
  unfold Gang.setV; split_ifs <;> rfl

theorem queueAt_put (g : Gang) {d : BitVec 6} {wide : Bool} {l q j : Nat} (x : DWord) (hq : q < 8) (hl : l < 32) (hj : j < 32) :
    (g.put d wide l x).queueAt q j =
      if j = l ∧ d.toNat = 48 + q then g.queueAt q j ++ [x.truncate 32] else g.queueAt q j := by
  unfold Gang.put
  by_cases hd : d.toNat < 48
  · have h : ¬ (j = l ∧ d.toNat = 48 + q) := by omega
    simp only [hd, if_true, h, if_false, Gang.setV2]
    split_ifs <;> simp
  · simp only [hd, if_false]
    split_ifs with h1 h2 h2
    · simp only [Gang.push, Gang.queueAt, KMap.get_set]
      obtain ⟨rfl, h2⟩ := h2
      rw [h2]; simp
    · simp only [Gang.push, Gang.queueAt, KMap.get_set]
      rw [if_neg (by omega)]
    · omega
    · rfl

/-- A lane write touches lane registers and queues only. -/
theorem put_frame (g : Gang) (d : BitVec 6) (wide : Bool) (l : Nat) (x : DWord) :
    g.put d wide l x = { g with r := { g.r with v := (g.put d wide l x).r.v, undo := (g.put d wide l x).r.undo }, queues := (g.put d wide l x).queues } := by
  by_cases h1 : d.toNat < 48
  · by_cases h2 : d.toNat + 1 < 48 <;> cases wide <;>
      simp only [Gang.put, Gang.setV2, Gang.setV, h1, h2, if_true, if_false, Bool.false_eq_true] <;> rfl
  · by_cases h2 : d.toNat < 56 <;> simp only [Gang.put, Gang.push, h1, h2, if_true, if_false]

/-! ## The pops (R30) -/

theorem queueAt_popLane (qs : List Nat) (hqs : ∀ q ∈ qs, q < 8) (hnd : qs.Nodup) (m : KMap (List Word)) {l q j : Nat}
    (hl : l < 32) (hj : j < 32) :
    KMap.get [] (qs.foldl (fun m q => KMap.set [] m (32 * q + l) ((KMap.get [] m (32 * q + l)).drop 1)) m) (32 * q + j) =
      if j = l ∧ q ∈ qs then (KMap.get [] m (32 * q + j)).drop 1 else KMap.get [] m (32 * q + j) := by
  induction qs generalizing m with
  | nil => simp
  | cons a r ih =>
    rw [List.nodup_cons] at hnd
    rw [List.foldl_cons, ih (fun q h => hqs q (by simp [h])) hnd.2]
    simp only [KMap.get_set, List.mem_cons]
    by_cases h1 : j = l <;> by_cases h2 : q = a
    · subst h1; subst h2; simp [hnd.1]
    · subst h1
      simp [h2]
    · subst h2
      simp [h1]
    · have : ¬ (32 * q + j = 32 * a + l) := by omega
      simp [this, h1]

theorem queueAt_pop (g : Gang) (qs ls : List Nat) (hqs : ∀ q ∈ qs, q < 8) (hnd : qs.Nodup) (hls : ∀ l ∈ ls, l < 32)
    (hn : ls.Nodup) {q j : Nat} (hj : j < 32) :
    (g.pop qs ls).queueAt q j = if j ∈ ls ∧ q ∈ qs then (g.queueAt q j).drop 1 else g.queueAt q j := by
  suffices h : ∀ m : KMap (List Word),
      KMap.get [] (ls.foldl (fun m l => qs.foldl (fun m q =>
        KMap.set [] m (32 * q + l) ((KMap.get [] m (32 * q + l)).drop 1)) m) m) (32 * q + j) =
        if j ∈ ls ∧ q ∈ qs then (KMap.get [] m (32 * q + j)).drop 1 else KMap.get [] m (32 * q + j) from h g.queues
  induction ls with
  | nil => simp
  | cons l r ih =>
    intro m
    rw [List.nodup_cons] at hn
    rw [List.foldl_cons, ih (fun a h => hls a (by simp [h])) hn.2,
      queueAt_popLane qs hqs hnd m (hls l (by simp)) hj]
    by_cases h1 : j = l
    · subst h1; simp [hn.1]
    · simp [h1]

/-- The queues named by lane fields: numbers 0 to 7, each once. -/
theorem popped_lt {srcs : List Use} {q : Nat} (h : q ∈ popped srcs) : q < 8 := by
  simp only [popped, List.mem_eraseDups, List.mem_map, List.mem_filter] at h
  obtain ⟨u, ⟨-, h1⟩, rfl⟩ := h
  simp only [Use.isQueue, Bool.and_eq_true, decide_eq_true_eq, Use.queue] at *
  omega

theorem nodup_eraseDups {α : Type} [DecidableEq α] (l : List α) : l.eraseDups.Nodup := by
  induction hn : l.length using Nat.strongRecOn generalizing l with
  | ind n ih =>
    cases l with
    | nil => simp
    | cons a r =>
      rw [List.eraseDups_cons, List.nodup_cons]
      refine ⟨by simp [List.mem_eraseDups], ih _ ?_ _ rfl⟩
      have := List.length_filter_le (fun b => !b == a) r
      simp only [List.length_cons] at hn
      omega

theorem popped_nodup (srcs : List Use) : (popped srcs).Nodup := nodup_eraseDups _

/-! ## All lanes of a form -/

variable (d : BitVec 6) (wide : Bool)

theorem foldl_put_frame (res : List (Nat × LaneOut)) (g : Gang) :
    res.foldl (fun g r => g.put d wide r.1 r.2.val) g =
      { g with
        r := { g.r with
          v := (res.foldl (fun g r => g.put d wide r.1 r.2.val) g).r.v
          undo := (res.foldl (fun g r => g.put d wide r.1 r.2.val) g).r.undo }
        queues := (res.foldl (fun g r => g.put d wide r.1 r.2.val) g).queues } := by
  induction res generalizing g with
  | nil => rfl
  | cons a r ih =>
    simp only [List.foldl_cons]
    rw [ih (g.put d wide a.1 a.2.val), put_frame]

theorem vAt_foldl_put (out : Nat → LaneOut) (ls : List Nat) (hls : ∀ l ∈ ls, l < 32) (hn : ls.Nodup) (g : Gang)
    {n j : Nat} (h48 : n < 48) (hj : j < 32) :
    ((ls.map fun l => (l, out l)).foldl (fun g r => g.put d wide r.1 r.2.val) g).vAt n j =
      if j ∈ ls ∧ n = d.toNat then (out j).val.truncate 32
      else if j ∈ ls ∧ wide = true ∧ d.toNat < 48 ∧ n = d.toNat + 1 then ((out j).val >>> 32).truncate 32
      else g.vAt n j := by
  induction ls generalizing g with
  | nil => simp
  | cons l r ih =>
    rw [List.nodup_cons] at hn
    simp only [List.map_cons, List.foldl_cons]
    rw [ih (fun a h => hls a (by simp [h])) hn.2, vAt_put g _ h48 (hls l (by simp)) hj]
    by_cases h1 : j = l
    · subst h1; simp [hn.1]
    · simp [h1]

theorem queueAt_foldl_put (out : Nat → LaneOut) (ls : List Nat) (hls : ∀ l ∈ ls, l < 32) (hn : ls.Nodup) (g : Gang)
    {q j : Nat} (hq : q < 8) (hj : j < 32) :
    ((ls.map fun l => (l, out l)).foldl (fun g r => g.put d wide r.1 r.2.val) g).queueAt q j =
      g.queueAt q j ++ (if j ∈ ls ∧ d.toNat = 48 + q then [(out j).val.truncate 32] else []) := by
  induction ls generalizing g with
  | nil => simp
  | cons l r ih =>
    rw [List.nodup_cons] at hn
    simp only [List.map_cons, List.foldl_cons]
    rw [ih (fun a h => hls a (by simp [h])) hn.2, queueAt_put g _ hq (hls l (by simp)) hj]
    by_cases h1 : j = l
    · subst h1; by_cases h2 : d.toNat = 48 + q <;> simp [hn.1, h2]
    · simp [h1]

/-! ## The bypass (R27) -/

/-- One lane's shift. -/
def shiftLane (wide : Bool) (val : Nat → Option DWord) (m : KMap DWord) (l : Nat) : KMap DWord :=
  let b1 := KMap.get 0#64 m l
  let b2 := KMap.get 0#64 m (32 + l)
  let m := KMap.set 0#64 m (64 + l) b2
  let m := KMap.set 0#64 m (32 + l) b1
  match val l with
  | some x => KMap.set 0#64 m l (if wide then x else (x.truncate 32).setWidth 64)
  | none => m

theorem byp_foldl_shiftLane (val : Nat → Option DWord) (ls : List Nat) (hls : ∀ l ∈ ls, l < 32) (hn : ls.Nodup) (m : KMap DWord)
    {j : Nat} (hj : j < 32) :
    (KMap.get 0#64 (ls.foldl (shiftLane wide val) m) j =
      match (if j ∈ ls then val j else none) with
      | some x => if wide then x else (x.truncate 32).setWidth 64
      | none => KMap.get 0#64 m j) ∧
    (KMap.get 0#64 (ls.foldl (shiftLane wide val) m) (32 + j) =
      if j ∈ ls then KMap.get 0#64 m j else KMap.get 0#64 m (32 + j)) ∧
    (KMap.get 0#64 (ls.foldl (shiftLane wide val) m) (64 + j) =
      if j ∈ ls then KMap.get 0#64 m (32 + j) else KMap.get 0#64 m (64 + j)) := by
  induction ls generalizing m with
  | nil => simp
  | cons l r ih =>
    rw [List.nodup_cons] at hn
    have hl := hls l (by simp)
    obtain ⟨h1, h2, h3⟩ := ih (fun a h => hls a (by simp [h])) hn.2 (shiftLane wide val m l)
    simp only [List.foldl_cons, h1, h2, h3, List.mem_cons]
    by_cases hjl : j = l
    · subst hjl
      have e1 : ¬ (32 + j = 64 + j) := by omega
      have e2 : ¬ (64 + j = 32 + j) := by omega
      have e3 : ¬ (32 + j = j) := by omega
      have e4 : ¬ (64 + j = j) := by omega
      have e5 : ¬ (j = 32 + j) := by omega
      have e6 : ¬ (j = 64 + j) := by omega
      unfold shiftLane
      cases val j <;> simp only [KMap.get_set, hn.1, if_true, if_false, true_or, e1, e2, e3, e4, e5, e6] <;> trivial
    · have e1 : ¬ (j = 32 + l) := by omega
      have e2 : ¬ (j = 64 + l) := by omega
      have e3 : ¬ (32 + j = l) := by omega
      have e4 : ¬ (32 + j = 32 + l) := by omega
      have e5 : ¬ (32 + j = 64 + l) := by omega
      have e6 : ¬ (64 + j = l) := by omega
      have e7 : ¬ (64 + j = 32 + l) := by omega
      have e8 : ¬ (64 + j = 64 + l) := by omega
      unfold shiftLane
      cases val l <;> simp only [KMap.get_set, hjl, if_false, false_or, e1, e2, e3, e4, e5, e6, e7, e8] <;> trivial

/-- Bits of a three-bit field at slice n, read at slice m. -/
theorem slice_field : ∀ (n m : Fin 8) (i : Fin 3) (x : Fin 8),
    ((BitVec.ofNat 24 x.1 <<< (3 * n.1)).getLsbD (3 * m.1 + i.1) = (decide (n = m) && x.1.testBit i.1)) ∧
    ((sliceMarks n.1).getLsbD (3 * m.1 + i.1) = decide (n = m)) := by decide +kernel

/-- The marks of one slice after a shift, `res` telling whether a lane of it has a result. -/
def shiftMarks (res : Nat → Bool) (m : BitVec 24) (n : Nat) : BitVec 24 :=
  let old := (m >>> (3 * n)).toNat % 8
  let b1 := if res n then 1 else old % 2
  (m &&& ~~~sliceMarks n) ||| (BitVec.ofNat 24 (b1 + old % 4 * 2) <<< (3 * n))

theorem shiftMarks_bit (res : Nat → Bool) (m : BitVec 24) {n k i : Nat} (hn : n < 8) (hk : k < 8) (hi : i < 3) :
    (shiftMarks res m n).getLsbD (3 * k + i) =
      if n = k then
        (match i with
          | 0 => res n || m.getLsbD (3 * n)
          | j + 1 => m.getLsbD (3 * n + j))
      else m.getLsbD (3 * k + i) := by
  have hx : (if res n then 1 else (m >>> (3 * n)).toNat % 8 % 2) + (m >>> (3 * n)).toNat % 8 % 4 * 2 < 8 := by
    split_ifs <;> omega
  have hb : 3 * k + i < 24 := by omega
  obtain ⟨h1, h2⟩ := slice_field ⟨n, hn⟩ ⟨k, hk⟩ ⟨i, hi⟩ ⟨_, hx⟩
  simp only [Fin.mk.injEq] at h1 h2
  simp only [shiftMarks, BitVec.getLsbD_or, BitVec.getLsbD_and, BitVec.getLsbD_not, h1, h2, hb]
  by_cases hnk : n = k
  · subst hnk
    have hm : ∀ j, j < 3 → m.getLsbD (3 * n + j) = ((m >>> (3 * n)).toNat % 8).testBit j := by
      intro j hj
      rw [show (8 : Nat) = 2 ^ 3 from rfl, Nat.testBit_mod_two_pow]
      simp [hj, BitVec.getLsbD]
    have h0 := hm 0 (by omega)
    have hb1 := hm 1 (by omega)
    simp only [Nat.add_zero] at h0
    have ho : (m >>> (3 * n)).toNat % 8 < 8 := by omega
    generalize (m >>> (3 * n)).toNat % 8 = o at *
    simp only [decide_true, Bool.not_true, Bool.and_false, Bool.false_or, Bool.true_and, if_true]
    match i, hi with
    | 0, _ =>
      show _ = (res n || m.getLsbD (3 * n))
      rw [h0]; cases res n <;> interval_cases o <;> rfl
    | 1, _ =>
      show _ = m.getLsbD (3 * n)
      rw [h0]; cases res n <;> interval_cases o <;> rfl
    | 2, _ =>
      show _ = m.getLsbD (3 * n + 1)
      rw [hb1]; cases res n <;> interval_cases o <;> rfl
  · simp [hnk]

theorem marks_foldl (res : Nat → Bool) (sl : List Nat) (hsl : ∀ n ∈ sl, n < 8) (hn : sl.Nodup) (m : BitVec 24) {k i : Nat}
    (hk : k < 8) (hi : i < 3) :
    (sl.foldl (shiftMarks res) m).getLsbD (3 * k + i) =
      if k ∈ sl then
        (match i with
          | 0 => res k || m.getLsbD (3 * k)
          | j + 1 => m.getLsbD (3 * k + j))
      else m.getLsbD (3 * k + i) := by
  induction sl generalizing m with
  | nil => simp
  | cons n r ih =>
    rw [List.nodup_cons] at hn
    have hn8 := hsl n (by simp)
    have hb := fun j (hj : j < 3) => shiftMarks_bit res m hn8 hk hj
    have h0 := hb 0 (by omega)
    simp only [Nat.add_zero] at h0
    rw [List.foldl_cons, ih (fun a h => hsl a (by simp [h])) hn.2]
    by_cases hkn : k = n
    · subst hkn
      simp only [hn.1, List.mem_cons, true_or, if_true, if_false]
      rw [hb i hi]; simp
    · have hnk : ¬ n = k := fun h => hkn h.symm
      simp only [List.mem_cons, hkn, false_or]
      simp only [hnk, if_false] at hb h0
      split_ifs
      · match i, hi with
        | 0, _ => show (res k || _) = (res k || _); rw [h0]
        | j + 1, hj => exact hb j (by omega)
      · exact hb i hi

theorem partSlices_nodup (g : Gang) (p : Nat) : (g.partSlices p).Nodup := List.nodup_range.filter _
theorem lt_of_mem_partSlices {g : Gang} {p n : Nat} (h : n ∈ g.partSlices p) : n < 8 :=
  List.mem_range.1 (List.mem_of_mem_filter h)

/-- The lookup of a lane's result among the results of some lanes. -/
theorem find_result (out : Nat → DWord) (ls : List Nat) (j : Nat) :
    (((ls.map fun l => (l, out l)).find? fun r => r.1 == j).map (·.2)) = if j ∈ ls then some (out j) else none := by
  induction ls with
  | nil => simp
  | cons l r ih =>
    simp only [List.map_cons, List.find?_cons, List.mem_cons]
    by_cases h : l = j
    · subst h; simp
    · have : ¬ j = l := fun e => h e.symm
      simp only [this, false_or, beq_eq_false_iff_ne.2 h]
      exact ih

theorem shiftBypass_eq (g : Gang) (p : Nat) (out : Nat → DWord) (ls : List Nat) :
    g.shiftBypass p wide (ls.map fun l => (l, out l)) =
      { g with
        byp := (lanes.filter (g.inPart p)).foldl (shiftLane wide fun j => if j ∈ ls then some (out j) else none) g.byp
        bypFull := (g.partSlices p).foldl (shiftMarks fun n => ls.any fun l => l / 4 == n) g.bypFull } := by
  simp only [Gang.shiftBypass, find_result]
  congr 1
  congr 1
  funext m n
  simp only [shiftMarks, List.any_map]
  rfl

/-! ## Flags and draws (R49, R57) -/

theorem flags_foldl (out : Nat → LaneOut) (ls : List Nat) (m : DWord) (b : Nat) :
    ((ls.map fun l => (l, out l)).foldl (fun m r => m ||| r.2.flags) m).getLsbD b =
      (m.getLsbD b || ls.any fun l => (out l).flags.getLsbD b) := by
  induction ls generalizing m with
  | nil => simp
  | cons l r ih => simp only [List.map_cons, List.foldl_cons, List.any_cons, ih, BitVec.getLsbD_or, Bool.or_assoc]

/-- The draws of some lanes, written back. -/
def drawsOf (out : Nat → LaneOut) (ls : List Nat) (g : Gang) : Gang :=
  (ls.map fun l => (l, out l)).foldl (fun g r => match r.2.sr with
    | some x => g.setSrstate r.1 x
    | none => g) g

theorem drawsOf_frame (out : Nat → LaneOut) (ls : List Nat) (g : Gang) :
    drawsOf out ls g = { g with r := { g.r with srstate := (drawsOf out ls g).r.srstate } } := by
  induction ls generalizing g with
  | nil => rfl
  | cons l r ih =>
    simp only [drawsOf, List.map_cons, List.foldl_cons] at *
    cases h : (out l).sr with
    | none => exact ih g
    | some x => simp only; rw [ih (g.setSrstate l x)]; rfl

theorem srstateAt_drawsOf (out : Nat → LaneOut) (ls : List Nat) (hn : ls.Nodup) (g : Gang) (j : Nat) :
    (drawsOf out ls g).srstateAt j = if j ∈ ls then ((out j).sr).getD (g.srstateAt j) else g.srstateAt j := by
  induction ls generalizing g with
  | nil => rfl
  | cons l r ih =>
    rw [List.nodup_cons] at hn
    have step : drawsOf out (l :: r) g = drawsOf out r (match (out l).sr with
      | some x => g.setSrstate l x
      | none => g) := rfl
    rw [step, ih hn.2]
    by_cases h : j = l
    · subst h
      cases (out j).sr <;> simp [hn.1, Gang.srstateAt, Gang.setSrstate]
    · cases (out l).sr <;> simp [h, Gang.srstateAt, Gang.setSrstate]

/-! ## The whole write of a lane form -/

section Finish

variable (g : Gang) (p : Nat) (t : Bool) (out : Nat → LaneOut) (ls qs : List Nat)

/-- The writes to registers and queues alone. -/
def writesOf : Gang :=
  if t then g.pop qs ls else (ls.map fun l => (l, out l)).foldl (fun g r => g.put d wide r.1 r.2.val) (g.pop qs ls)

theorem writesOf_frame :
    writesOf d wide g t out ls qs =
      { g with
        r := { g.r with v := (writesOf d wide g t out ls qs).r.v, undo := (writesOf d wide g t out ls qs).r.undo }
        queues := (writesOf d wide g t out ls qs).queues } := by
  unfold writesOf
  cases t
  · simp only [Bool.false_eq_true, if_false]
    rw [foldl_put_frame]; rfl
  · rfl

theorem finish_eq :
    g.finish p t d wide qs (ls.map fun l => (l, out l)) =
      drawsOf out ls
        { g with
          r := { g.r with
            v := (writesOf d wide g t out ls qs).r.v
            undo := (writesOf d wide g t out ls qs).r.undo
            mstat := g.r.mstat ||| (ls.map fun l => (l, out l)).foldl (fun m r => m ||| r.2.flags) 0#64 }
          queues := (writesOf d wide g t out ls qs).queues
          byp := (lanes.filter (g.inPart p)).foldl
            (shiftLane wide fun j => if j ∈ ls then some (out j).val else none) g.byp
          bypFull := (g.partSlices p).foldl (shiftMarks fun n => ls.any fun l => l / 4 == n) g.bypFull } := by
  have h : g.finish p t d wide qs (ls.map fun l => (l, out l)) =
      drawsOf out ls ((((writesOf d wide g t out ls qs)).shiftBypass p wide (ls.map fun l => (l, (out l).val))).orMstat
        ((ls.map fun l => (l, out l)).foldl (fun m r => m ||| r.2.flags) 0#64)) := by
    simp only [Gang.finish, drawsOf, writesOf, List.map_map, Function.comp_def, List.map_id']
    all_goals rfl
  rw [h, shiftBypass_eq, writesOf_frame]
  all_goals rfl

theorem finish_frame :
    g.finish p t d wide qs (ls.map fun l => (l, out l)) =
      { g with
        r := { g.r with
          v := (g.finish p t d wide qs (ls.map fun l => (l, out l))).r.v
          undo := (g.finish p t d wide qs (ls.map fun l => (l, out l))).r.undo
          mstat := (g.finish p t d wide qs (ls.map fun l => (l, out l))).r.mstat
          srstate := (g.finish p t d wide qs (ls.map fun l => (l, out l))).r.srstate }
        byp := (g.finish p t d wide qs (ls.map fun l => (l, out l))).byp
        bypFull := (g.finish p t d wide qs (ls.map fun l => (l, out l))).bypFull
        queues := (g.finish p t d wide qs (ls.map fun l => (l, out l))).queues } := by
  rw [finish_eq, drawsOf_frame]

variable (hls : ∀ l ∈ ls, l < 32) (hn : ls.Nodup)
include hls hn

theorem vAt_finish {n j : Nat} (h48 : n < 48) (hj : j < 32) :
    (g.finish p t d wide qs (ls.map fun l => (l, out l))).vAt n j =
      if t = false ∧ j ∈ ls ∧ n = d.toNat then (out j).val.truncate 32
      else if t = false ∧ j ∈ ls ∧ wide = true ∧ d.toNat < 48 ∧ n = d.toNat + 1 then ((out j).val >>> 32).truncate 32
      else g.vAt n j := by
  rw [finish_eq, drawsOf_frame]
  show (writesOf d wide g t out ls qs).vAt n j = _
  unfold writesOf
  cases t
  · simp only [Bool.false_eq_true, if_false, true_and]
    rw [vAt_foldl_put d wide out ls hls hn _ h48 hj]; rfl
  · simp [Gang.pop, Gang.vAt]

theorem queueAt_finish (hqs : ∀ q ∈ qs, q < 8) (hnd : qs.Nodup) {q j : Nat} (hq : q < 8) (hj : j < 32) :
    (g.finish p t d wide qs (ls.map fun l => (l, out l))).queueAt q j =
      (if j ∈ ls ∧ q ∈ qs then (g.queueAt q j).drop 1 else g.queueAt q j) ++
        (if t = false ∧ j ∈ ls ∧ d.toNat = 48 + q then [(out j).val.truncate 32] else []) := by
  rw [finish_eq, drawsOf_frame]
  show (writesOf d wide g t out ls qs).queueAt q j = _
  unfold writesOf
  cases t
  · simp only [Bool.false_eq_true, if_false, true_and]
    rw [queueAt_foldl_put d wide out ls hls hn _ hq hj, queueAt_pop g qs ls hqs hnd hls hn hj]
  · simp only [if_true]
    rw [queueAt_pop g qs ls hqs hnd hls hn hj]; simp

omit hls hn in
theorem byp_finish {j : Nat} (hj : j < 32) (hin : ∀ l ∈ ls, g.inPart p l = true) :
    (KMap.get 0#64 (g.finish p t d wide qs (ls.map fun l => (l, out l))).byp j =
      if j ∈ ls then (if wide then (out j).val else ((out j).val.truncate 32).setWidth 64) else KMap.get 0#64 g.byp j) ∧
    (KMap.get 0#64 (g.finish p t d wide qs (ls.map fun l => (l, out l))).byp (32 + j) =
      if g.inPart p j then KMap.get 0#64 g.byp j else KMap.get 0#64 g.byp (32 + j)) ∧
    (KMap.get 0#64 (g.finish p t d wide qs (ls.map fun l => (l, out l))).byp (64 + j) =
      if g.inPart p j then KMap.get 0#64 g.byp (32 + j) else KMap.get 0#64 g.byp (64 + j)) := by
  have hmem : j ∈ lanes.filter (g.inPart p) ↔ g.inPart p j = true := by
    simp [List.mem_filter, mem_lanes, hj]
  obtain ⟨h1, h2, h3⟩ := byp_foldl_shiftLane wide (fun j => if j ∈ ls then some (out j).val else none)
    (lanes.filter (g.inPart p)) (fun l h => mem_lanes.1 (List.mem_of_mem_filter h)) (lanes_nodup.filter _) g.byp hj
  rw [finish_eq, drawsOf_frame]
  refine ⟨?_, ?_, ?_⟩
  · rw [h1]
    by_cases hl : j ∈ ls
    · simp [hmem, hin j hl, hl]
    · simp [hl]
  · rw [h2]; simp only [hmem]
  · rw [h3]; simp only [hmem]

omit hls hn in
theorem bypFullAt_finish {n : Nat} (h8 : n < 8) (hin : ∀ l ∈ ls, l / 4 ∈ g.partSlices p) :
    ((g.finish p t d wide qs (ls.map fun l => (l, out l))).bypFullAt n 1 =
      (g.bypFullAt n 1 || ls.any fun l => l / 4 == n)) ∧
    ((g.finish p t d wide qs (ls.map fun l => (l, out l))).bypFullAt n 2 =
      if n ∈ g.partSlices p then g.bypFullAt n 1 else g.bypFullAt n 2) ∧
    ((g.finish p t d wide qs (ls.map fun l => (l, out l))).bypFullAt n 3 =
      if n ∈ g.partSlices p then g.bypFullAt n 2 else g.bypFullAt n 3) := by
  have hb := fun i (hi : i < 3) => marks_foldl (fun n => ls.any fun l => l / 4 == n) (g.partSlices p)
    (fun _ h => lt_of_mem_partSlices h) (partSlices_nodup g p) g.bypFull h8 hi
  have h0 := hb 0 (by omega)
  have h1 := hb 1 (by omega)
  have h2 := hb 2 (by omega)
  simp only [Nat.add_zero] at h0 h1
  rw [finish_eq, drawsOf_frame]
  simp only [Gang.bypFullAt, Nat.add_sub_cancel]
  refine ⟨?_, ?_, ?_⟩
  · rw [h0]
    by_cases hm : n ∈ g.partSlices p
    · simp [hm, Bool.or_comm]
    · have : (ls.any fun l => l / 4 == n) = false := by
        rw [List.any_eq_false]
        intro l hl
        simp only [beq_iff_eq]
        exact fun e => hm (e ▸ hin l hl)
      simp [hm, this]
  · exact h1
  · exact h2

omit hls hn in
theorem mstat_finish (b : Nat) :
    (g.finish p t d wide qs (ls.map fun l => (l, out l))).r.mstat.getLsbD b =
      (g.r.mstat.getLsbD b || ls.any fun l => (out l).flags.getLsbD b) := by
  rw [finish_eq, drawsOf_frame]
  simp only [BitVec.getLsbD_or, flags_foldl]
  simp

omit hls in
theorem srstateAt_finish (j : Nat) :
    (g.finish p t d wide qs (ls.map fun l => (l, out l))).srstateAt j =
      if j ∈ ls then ((out j).sr).getD (g.srstateAt j) else g.srstateAt j := by
  rw [finish_eq, srstateAt_drawsOf out ls hn]; rfl

end Finish

/-- A lane with an effect stands in a live slice of the part. -/
theorem mem_partSlices_of_eff {g : Gang} {p : Nat} {h : Header} {l : Nat} (hl : l ∈ g.effLanes p h) :
    l / 4 ∈ g.partSlices p := by
  have h32 := lt_of_mem_effLanes hl
  simp only [Gang.effLanes, List.mem_filter, Gang.eff, Gang.active, Gang.partLane, Gang.present, Bool.and_eq_true,
    Bool.not_eq_true', beq_iff_eq] at hl
  obtain ⟨-, ⟨⟨⟨⟨hp, hpart⟩, hex⟩, -⟩, -⟩⟩ := hl
  simp only [Gang.partSlices, List.mem_filter, List.mem_range, Gang.liveSlice, Bool.and_eq_true, beq_iff_eq, List.any_eq_true]
  refine ⟨by omega, ⟨hp, l % 4, by omega, ?_⟩, hpart⟩
  rw [show 4 * (l / 4) + l % 4 = l by omega, hex]; rfl

end Sys2Proof.Machine
end

