-- ==== Sys2Proof/Laws/Ops.lean ====
section
/-! SUPPORT. What the shared operations can do: going on to the next word, what stops a form, and taking a trap. -/

namespace Sys2Proof.Machine

/-- Going on, where no run-ahead and no region is under way. -/
theorem State.done_settled {s e : State} (ha : e.advance.gang.ahead = none) (hr : e.advance.gang.rel = none) : s.done e = e.advance := by
  simp [State.done, State.within, ha, hr]

/-- A lane form either acts, or answers what stopped it. -/
theorem State.aluLane_cases (s : State) (h : Header) (d : BitVec 6) (wide : Bool) (srcs : List Use) (bad8 : Bool)
    (res : Gang → Nat → LaneOut) :
    s.laneGate h srcs (if h.t then [] else [Use.of d wide]) bad8 false = some (s.aluLane h d wide srcs bad8 res) ∨
    (s.laneGate h srcs (if h.t then [] else [Use.of d wide]) bad8 false = none ∧
      s.aluLane h d wide srcs bad8 res = s.done (s.setGang
        (s.gang.finish s.pt h.t d wide (popped srcs) ((s.gang.effLanes s.pt h).map fun l => (l, res s.gang l))))) := by
  cases hg : s.laneGate h srcs (if h.t then [] else [Use.of d wide]) bad8 false with
  | some x => left; simp only [State.aluLane, hg]
  | none => right; exact ⟨rfl, by simp only [State.aluLane, hg]⟩

/-- A group form either acts, or answers what stopped it. -/
theorem State.aluGroup_cases (s : State) (h : Header) (d : BitVec 6) (gs : List Nat) (bad8 : Bool) (res : Gang → LaneOut) :
    s.groupGate h (d.toNat :: gs) bad8 false = some (s.aluGroup h d gs bad8 res) ∨
    (s.groupGate h (d.toNat :: gs) bad8 false = none ∧ ∃ g, s.aluGroup h d gs bad8 res = s.done (s.setGang g) ∧
      g.r.g = (s.gang.setG d.toNat (res s.gang).val).r.g ∧ g.r.mstat = s.gang.r.mstat ||| (res s.gang).flags) := by
  unfold State.aluGroup
  split
  · left; assumption
  · right
    have hm : (s.gang.setG d.toNat (res s.gang).val).r.mstat = s.gang.r.mstat := by unfold Gang.setG; split <;> rfl
    refine ⟨by assumption, _, rfl, ?_, ?_⟩ <;> split
    · rfl
    · rfl
    · exact congrArg (· ||| (res s.gang).flags) hm
    · exact congrArg (· ||| (res s.gang).flags) hm

/-- A group form that is ready: nothing it names is awaited, check 8 passes, it is admitted in its mode, and its predicate holds. -/
theorem State.groupGate_eq_none {s : State} {h : Header} {gs : List Nat} {bad8 priv : Bool} :
    s.groupGate h gs bad8 priv = none ↔
      gs.any s.gang.busyG = false ∧ bad8 = false ∧ priv = false ∧ s.gang.geff s.pt h = true := by
  unfold State.groupGate
  dsimp only
  split_ifs <;> simp_all

/-- A lane form that is ready, where it names no queue. -/
theorem State.laneGate_eq_none {s : State} {h : Header} {srcs dst : List Use} {bad8 priv : Bool}
    (hp : popped srcs = []) (hd : dst.any Use.isQueue = false) :
    s.laneGate h srcs dst bad8 priv = none ↔
      (srcs ++ dst).any s.gang.busyV = false ∧ (srcs ++ dst).any s.gang.badUse = false ∧ bad8 = false ∧ priv = false ∧
      s.gang.effLanes s.pt h ≠ [] ∧ s.gang.bypEmptyLanes s.pt srcs = 0#32 := by
  unfold State.laneGate
  simp only [hp, hd, List.isEmpty_nil, Bool.not_false, Bool.and_self, if_true]
  generalize (srcs ++ dst).any s.gang.busyV = x
  generalize (srcs ++ dst).any s.gang.badUse = y
  split_ifs <;> simp_all

/-- A trap of a vector gang that runs neither ahead nor in a region, with a handler and no trap under way. -/
theorem State.takeTrap_handler {s : State} {t : TrapInfo} (ha : s.gang.ahead = none) (hk : s.gang.kind = .vector)
    (hh : (s.gang.record t).hstate = false) (hr : (s.gang.record t).rel = none) (hkr : (s.gang.record t).kind = .vector)
    (he : ((s.setGang (s.gang.record t)).launchOf (s.gang.record t).team).hent ≠ 0#64) :
    s.takeTrap t = (s.setGang (s.gang.record t)).setGangAt s.gk
      ((s.gang.record t).enterHandler (((s.setGang (s.gang.record t)).launchOf (s.gang.record t).team).hent.setWidth 18)) := by
  have hg : (s.setGang (s.gang.record t)).gangAt s.gk = s.gang.record t := by simp [State.setGang]
  simp only [State.takeTrap, ha, hk, State.deliver, hg]
  simp [hh, hr, hkr, he]

end Sys2Proof.Machine
end

