-- ==== Sys2Proof/Safety.lean ====
section
/-! DEFINITION. What counts as a safe run: no step faults and no step is refused. -/

namespace Sys2Proof.Machine

/-- A step that goes on. -/
def StepsOn (s : State) : Prop := ∃ t, step s = .next t

/-- `n` steps that go on. -/
def RunsOn : Nat → State → Prop
  | 0, _ => True
  | n + 1, s => ∃ t, step s = .next t ∧ RunsOn n t

end Sys2Proof.Machine
end

