-- ==== Sys2Proof/Tests/Slice0.lean ====
section
/-! SUPPORT. Tests: words decoded from the spec's encodings and worked examples, ill-formed terms, single steps, and states that meet
the hypotheses of the statements. -/

namespace Sys2Proof.Tests

set_option Elab.async false

open Sys2Proof Machine Claims

/-! ## Words of the spec decode to what they stand for -/

/-- A header: predicate index, group form, FX. -/
def hd (pi : BitVec 3) (g : Bool) (fx : BitVec 2 := 0#2) : Header := { pn := false, pi := pi, g := g, t := false, fx := fx }

def mM (h : Header) (d adr x sc sz sp scp ord ch off : Nat) : ClassM :=
  { h := h, d := .ofNat 6 d, adr := .ofNat 3 adr, x := .ofNat 6 x, sc := .ofNat 2 sc, sz := .ofNat 3 sz, sp := .ofNat 3 sp
    scp := .ofNat 3 scp, ord := .ofNat 2 ord, ch := .ofNat 2 ch, off := .ofNat 18 off }

def mE (h : Header) (d ta tb tc fs a mod : Nat) : ClassE :=
  { h := h, d := .ofNat 6 d, ta := .ofNat 3 ta, tb := .ofNat 3 tb, tc := .ofNat 3 tc, fs := .ofNat 3 fs, a := .ofNat 6 a
    mod := .ofNat 24 mod }

def mB (h : Header) (disp aux8 aux4 aux12 : Nat) : ClassB :=
  { h := h, disp := .ofNat 24 disp, aux8 := .ofNat 8 aux8, aux4 := .ofNat 4 aux4, aux12 := .ofNat 12 aux12 }

def mA (h : Header) (d a b c mod : Nat) : ClassA :=
  { h := h, d := .ofNat 6 d, a := .ofNat 6 a, b := .ofNat 6 b, c := .ofNat 6 c, mod := .ofNat 12 mod }

/-- Control: the words of `clamp3` (spec/05), CBR.ANY.NT gp2, 5, skip, 64, and EXIT of spec/25. -/
theorem test_decode_control :
    decode .vector 0x0670000001010000#64 = .ok (.brk (mB (hd 7 false) 1 1 0 0)) ∧
    decode .vector 0x0570FFFFFB000000#64 = .ok (.endloop (mB (hd 7 false) 0xFFFFFB 0 0 0)) ∧
    decode .vector 0x1628000028050040#64 = .ok (.cbr (mB (hd 2 true) 40 5 0 64)) ∧
    decode .vector 0x1170000000000000#64 = .ok (.exit (mB (hd 7 false) 0 0 0 0)) := by decide +kernel

/-- Integer, address and special registers: the words of spec/25. -/
theorem test_decode_integer :
    decode .vector 0x3C78000800000004#64 = .ok (.adsetImm { h := hd 7 true, d := 0#6, a := 0#6, mod4 := 8#4, imm := 4#32 }) ∧
    decode .vector 0x3970040200000006#64 = .ok (.icmpImm { h := hd 7 false, d := 1#6, a := 0#6, mod4 := 2#4, imm := 6#32 }) ∧
    decode .vector 0xE070000000000000#64 = .ok (.srd { h := hd 7 false, sreg := 0#16, a := 0#6, mod := 0#26 }) ∧
    decode .firmware 0xE17800A008000000#64 = .ok (.cceshareWrite { h := hd 7 true, sreg := 0xA0#16, a := 2#6, mod := 0#26 }) := by
  decide +kernel

/-- Floating point and exchange: FFMA.F32 v3, v1, v2, v4 and its T form (spec/04), REDIX and SCAN. -/
theorem test_decode_float :
    decode .vector 0x43700C1084000000#64 = .ok (.ffma (mA (hd 7 false) 3 1 2 4 0)) ∧
    decode .vector 0x43740C1084000000#64 = .error 6 ∧
    decode .vector 0x4374001084000000#64 = .ok (.ffma (mA { hd 7 false with t := true } 0 1 2 4 0)) ∧
    decode .vector 0x7570081000020000#64 = .ok (.redix (mA (hd 7 false) 2 1 0 0 0x020)) ∧
    decode .vector 0x76701C6000080000#64 = .ok (.scan (mA (hd 7 false) 7 6 0 0 0x080)) := by decide +kernel

/-- Memory: loads, stores, atomics, waits, copies and barriers (spec/07, 14, 15, 21, 22). -/
theorem test_decode_memory :
    decode .vector 0x8070040140000000#64 = .ok (.ld (mM (hd 7 false) 1 0 0 2 4 0 0 0 0 0)) ∧
    decode .vector 0x8110108342000000#64 = .ok (.st (mM (hd 1 false) 4 1 1 2 4 1 0 0 0 0)) ∧
    decode .vector 0x8370200002000020#64 = .ok (.smpl (mE (hd 7 false) 8 0 0 0 0 2 0x20)) ∧
    decode .vector 0xA1780BFE40900000#64 = .ok (.waitv (mM (hd 7 true) 2 7 63 0 4 0 2 1 0 0)) ∧
    decode .vector 0xA079557E40E00000#64 = .ok (.atom (mM (hd 7 true 1) 21 2 63 0 4 0 3 2 0 0)) ∧
    decode .vector 0x8978FD7E00C00000#64 = .ok (.rminv (mM (hd 7 true) 63 2 63 0 0 0 3 0 0 0)) ∧
    decode .vector 0xB078008000200402#64 = .ok (.cpy (mE (hd 7 true) 0 1 0 0 0 0 0x200402)) ∧
    decode .vector 0xB67811FE04000000#64 = .ok (.bcbarm (mM (hd 7 true) 4 3 63 0 0 2 0 0 0 0)) ∧
    decode .vector 0x817812FE49A00000#64 = .ok (.st (mM (hd 7 true) 4 5 63 0 4 4 6 2 0 0)) := by decide +kernel

/-- The matrix engine: TDSET td0 and td2, MXMMA, MXDRAIN td2, acc0, ad3, MXSCALE (spec/08, 16). -/
theorem test_decode_matrix :
    decode .lintel 0xC0780000001FC1F4#64 = .ok (.tdsetImm (mE (hd 7 true) 0 0 0 0 0 0 0x1FC1F4)) ∧
    decode .lintel 0xC07809004081C072#64 = .ok (.tdsetImm (mE (hd 7 true) 2 2 0 0 1 0 0x81C072)) ∧
    decode .lintel 0xC478001000000000#64 = .ok (.mxmma (mE (hd 7 true) 0 0 1 0 0 0 0)) ∧
    decode .lintel 0xC57A010600000000#64 = .ok (.mxdrain (mE (hd 7 true 2) 0 2 0 3 0 0 0)) ∧
    decode .lintel 0xC878000002000000#64 = .ok (.mxscale (mE (hd 7 true) 0 0 0 0 0 2 0)) ∧
    decode .vector 0xC478001000000000#64 = .error 5 := by decide +kernel

/-- Engines and continuations: FORK, SPAWN.P1 gp2, ad4, ad5, ad6, DONE.C ad5, COLL and COMP (spec/09, 13, 15). -/
theorem test_decode_engines :
    decode .vector 0xD078000003000000#64 = .ok (.fork (mB (hd 7 true) 3 0 0 0)) ∧
    decode .vector 0xD27A0A5C00000001#64 = .ok (.spawn (mE (hd 7 true 2) 2 4 5 6 0 0 1)) ∧
    decode .vector 0xD37800000000000D#64 = .ok (.doneC (mB (hd 7 true) 0 0 0 0x00D)) ∧
    decode .vector 0xD77A001400002803#64 = .ok (.coll (mE (hd 7 true 2) 0 0 1 2 0 0 0x2803)) ∧
    decode .vector 0xD87A001600001009#64 = .ok (.comp (mE (hd 7 true 2) 0 0 1 3 0 0 0x1009)) := by decide +kernel

/-- NOP: the zero word, the filler, and the all-ones word (R88). -/
theorem test_decode_nop :
    decode .vector 0#64 = .ok (.nop (mB (hd 0 false) 0 0 0 0)) ∧ decode .vector 0x0070000000000000#64 = .ok (.nop (mB (hd 7 false) 0 0 0 0)) ∧
    decode .vector 0xFFFFFFFFFFFFFFFF#64 = .error 1 := by decide +kernel

/-! ## Ill-formed terms are refused -/

/-- A well-formed NOP, and one with a must-be-zero field, a lane form of a group instruction, T where no result is a lane register, and the
pair PN = 1, PI = 7 (R71 to R74). -/
theorem test_wf_fields :
    (Instr.nop (mB (hd 7 false) 0 0 0 0)).wellFormed = true ∧ (Instr.nop (mB (hd 7 false) 1 0 0 0)).wellFormed = false ∧
    (Instr.bar (mB (hd 7 false) 0 0 0 0)).wellFormed = false ∧ (Instr.nop (mB { hd 7 false with t := true } 0 0 0 0)).wellFormed = false ∧
    (Instr.nop (mB { hd 7 false with pn := true } 0 0 0 0)).wellFormed = false := by decide +kernel

/-- A reserved value (R96: AUX8 above 61), a reserved type (R128), and a row's own sub-operation bits (R83). -/
theorem test_wf_values :
    (Instr.brk (mB (hd 0 false) 1 61 0 0)).wellFormed = true ∧ (Instr.brk (mB (hd 0 false) 1 62 0 0)).wellFormed = false ∧
    (Instr.fadd (mA (hd 7 false) 1 2 3 0 0x500)).wellFormed = false ∧ (Instr.iabs (mA (hd 7 false 1) 1 2 0 0 0)).wellFormed = false ∧
    (Instr.iabs (mA (hd 7 false 1) 1 2 0 0 1)).wellFormed = true := by decide +kernel

/-- Events name units that exist (R1, R220, R372). -/
theorem test_wf_events :
    (Instr.placementDecision 3).wellFormed = true ∧ (Instr.placementDecision 4).wellFormed = false ∧
    (Instr.hqTailWrite 16 7 0).wellFormed = true ∧ (Instr.hqTailWrite 17 0 0).wellFormed = false ∧
    (Instr.regionExhaustReplay 384).wellFormed = false ∧ (Instr.mxOpComplete 48 0).wellFormed = false ∧
    (Instr.wlcFlushTimer 0 0 256).wellFormed = false ∧ (Instr.segmentLanded 0 64).wellFormed = false := by decide +kernel

/-- A frame longer than its LEN, and one of another class (R272). -/
theorem test_wf_frames :
    let f : Frame := { cls := 0, scp := 0, ord := 0, srcm := 0, dstm := 0, sdie := 0, ddie := 0, len := 0, tag := 0, addr := 0, aux := 0, psn := 0, body := [] }
    (Instr.frameRead f).wellFormed = true ∧ (Instr.frameRead { f with body := [0#8] }).wellFormed = false ∧
    (Instr.frameWrite f).wellFormed = false ∧ (Instr.frameRead { f with srcm := 512 }).wellFormed = false := by decide +kernel

/-! ## States for single steps -/

/-- A whole gang of eight slices about to execute the word at its PC, as `step` leaves it to `exec`. -/
def vec (w : Nat := 0) : State := { State.reset.withFetchWord 64 w with gk := 1, pt := 0 }

/-- The same with another gang record. -/
def vecG (f : Gang → Gang) (w : Nat := 0) : State := (vec w).setGangAt 1 (f ((vec w).gangAt 1))

/-- A lintel program about to execute, beside its gang. -/
def lin (w : Nat := 0xC478001000000000) : State := { State.reset.withFetchWord 64 w with gk := 1, pt := 0 }

/-- The program of the firmware core of die 0. -/
def fw (w : Nat := 0xE17800A008000000) : State := { State.reset.withFetchWord 64 w with gk := 1, pt := 0 }

/-- `vec` under a bound queue with a trap handler at 4,096 and the launch given. -/
def hent (l : Launch := {}) : State := (vec).setQueueAt 0 { bound := true, launch := { l with hent := 4096#64 } }

theorem test_states : (vec).gang.kind = .vector ∧ (lin).gang.kind = .lintel ∧ (fw).gang.kind = .firmware ∧
    (vec).gang.parts = [0] ∧ (vec).gang.whole = true ∧ (lin).gang.parts = [0] := by decide +kernel

theorem test_settled : Settled (vec) ∧ MidSlot (vec) ∧ Settled (lin) ∧ Settled (fw) ∧ HasHandler (hent) := by
  unfold Settled MidSlot HasHandler Settled; decide +kernel

/-! ## Hypotheses of the statements are met -/

/-- A lane form that is ready, as a Bool, and what it says. -/
def laneOk (s : State) (i : Instr) : Bool := (laneForm s i).any fun F =>
  !(F.gs.any s.gang.busyG) && (s.laneGate F.h F.srcs (if F.h.t then [] else [Use.of F.d F.wide]) F.bad8 false).isNone

theorem laneOk_spec {s : State} {i : Instr} (h : laneOk s i = true) : ∃ F, laneForm s i = some F ∧ F.ready s := by
  simp only [laneOk, Option.any_eq_true, Bool.and_eq_true, Bool.not_eq_true', Option.isNone_iff_eq_none] at h
  exact h

def groupOk (s : State) (i : Instr) : Bool := (groupForm s i).any fun F => (s.groupGate F.h (F.d.toNat :: F.gs) F.bad8 false).isNone

theorem groupOk_spec {s : State} {i : Instr} (h : groupOk s i = true) : ∃ F, groupForm s i = some F ∧ F.ready s := by
  simp only [groupOk, Option.any_eq_true, Option.isNone_iff_eq_none] at h
  exact h

def predOk (s : State) (i : Instr) : Bool := (predForm s i).any fun F =>
  !(F.gs.any s.gang.busyG) && (s.laneGate F.h F.srcs [] F.bad8 false).isNone

/-- O1: lane forms that are ready: a packed float, a pair at v46, a queue destination, a transient, one that reads b1, a broadcast g3. -/
theorem test_wit_lane :
    laneOk (vec) (.fadd (mA (hd 7 false) 1 2 3 0 0x300)) = true ∧ laneOk (vec) (.iadd (mA (hd 7 false 2) 46 2 4 0 0)) = true ∧
    laneOk (vecG fun g => { g with qcfg := 1#64 }) (.iadd (mA (hd 7 false) 48 2 4 0 0)) = true ∧
    laneOk (vec) (.fsin (mA { hd 7 false with t := true } 0 2 0 0 0)) = true ∧
    laneOk (vecG fun g => { g with bypFull := 0xFFFFFF#24 }) (.mov (mA (hd 7 false) 1 56 0 0 0)) = true ∧
    laneOk (vec) (.iadd (mA (hd 7 false) 1 2 3 0 0x800)) = true ∧ laneOk (vec) (.lea (mM (hd 7 false) 2 1 3 2 0 0 0 0 0 16)) = true ∧
    laneOk (vec) (.shfl (mA (hd 7 false) 1 2 3 0 0)) = true ∧ laneOk (vec) (.red (mA (hd 7 false) 1 2 0 0 0)) = true := by decide +kernel

/-- O2, O3: group forms at g31 and predicate forms. -/
theorem test_wit_group :
    groupOk (vec) (.iadd (mA (hd 7 true) 31 2 4 0 0)) = true ∧ groupOk (lin) (.movh { h := hd 7 true, d := 3#6, a := 0#6, mod4 := 0#4, imm := 5#32 }) = true ∧
    groupOk (vec) (.fcos (mA (hd 7 true) 1 2 0 0 0)) = true ∧
    predOk (vec) (.icmp (mA (hd 7 false) 7 1 2 0 0)) = true ∧ predOk (vec) (.vote (mA (hd 7 false) 1 2 0 0 1)) = true ∧
    ((predGroupForm (.icmp (mA (hd 7 true) 7 1 2 0 0))).any fun F => ((vec).groupGate F.1 F.2.2.1 F.2.2.2.1 false).isNone) = true := by
  decide +kernel

/-- O4: an encoding exists and some core admits it. -/
theorem test_wit_encode : encode (.fadd (mA (hd 7 false) 1 2 3 0 0x300)) = some 0x40700420C0300000#64 := by decide +kernel

/-- O4, O5: a well-formed instruction with an encoding that a core admits, and a word that decodes. -/
theorem test_wit_decode : (Instr.fadd (mA (hd 7 false) 1 2 3 0 0x300)).wellFormed = true ∧
    ((Instr.fadd (mA (hd 7 false) 1 2 3 0 0x300)).checks.any fun c => c.admitted .vector) = true ∧
    (decode .lintel 0xC478001000000000#64).toOption.isSome = true := by decide +kernel

/-- O7: a reserved opcode, and a malformed word in a slot that has landed. -/
theorem test_wit_malformed : reservedOpcode 0x19 = true ∧ reservedOpcode 0xFF = true ∧
    slotOf (vec 0xFFFFFFFFFFFFFFFF).pc < ((vec 0xFFFFFFFFFFFFFFFF).imemOf 1).nseg ∧
    (KMap.get {} ((vec 0xFFFFFFFFFFFFFFFF).imemOf 1).slots 0).st = .landed ∧
    decode .vector (((vec 0xFFFFFFFFFFFFFFFF).imemOf 1).word (vec 0xFFFFFFFFFFFFFFFF).pc) = .error 1 := by decide +kernel

/-- O8: a state in which the device issues. -/
theorem test_wit_step :
    let s := State.reset.withFetchWord 64 0x1170000000000000
    let c := { s.tick with turn := true }
    let t := c.rotate.issueAs 1 0 [1] [1]
    s.stopped = none ∧ s.tick.runq = [1] ∧ s.tick.turn = false ∧ c.chosen = some t ∧ c.issuers = [1] ∧ (c.gangAt 1).parts = [0] ∧
    t.gk = 1 ∧ slotOf t.pc < (t.imemOf 1).nseg ∧ ((t.imemOf 1).slotAt (slotOf t.pc)).st = .landed ∧
    decode .vector ((t.imemOf 1).word t.pc) = .ok (.exit (mB (hd 7 false) 0 0 0 0)) := by decide +kernel

/-- O9: a state that owes an event. -/
theorem test_wit_owed : ({ State.reset with due := [.junctionThrottle] }).tick.due = [.junctionThrottle] ∧
    ({ State.reset with due := [.junctionThrottle] }).tick.runq = [] ∧ ({ State.reset with due := [.junctionThrottle] }).stopped = none := by
  decide +kernel

/-- O10: the middle of a slot, and its last word under a handler. -/
theorem test_wit_going : lastWord (vec).pc = false ∧
    let e := (hent).setGang ((hent).gang.setPc (List.range 8) 4088#18)
    lastWord e.pc = true ∧ e.gang.kind = .vector ∧ e.gang.hstate = false ∧ (e.launchOf e.gang.team).hent ≠ 0#64 ∧ e.gang.ahead = none ∧
      e.gang.rel = none := by decide +kernel

/-- O14, O15: division and the address registers. -/
theorem test_wit_division :
    ((lane3 (mA (hd 7 false 3) 46 2 4 0 0) true true false false fun _ _ _ => out 0#64).ready (vec)) ∧
    ((group3 (mA (hd 7 true 1) 31 2 4 0 0) false true false false fun _ _ _ => out 0#64).ready (lin)) ∧
    (vec).groupGate (hd 7 true) [2, 3] false false = none ∧ (lin).groupGate (hd 7 true) [31] false false = none := by
  unfold LaneForm.ready GroupForm.ready; decide +kernel

/-- A launch whose slot 0 is ZB4 under COMPUTE with RN, slot 1 under GIVEN with SR, slot 2 E4M3 with saturation. -/
def packs : Launch := { fs := [10772#32, 11412#32, 259#32] }

/-- O16: QPACK under COMPUTE, and under GIVEN from v3. -/
theorem test_wit_pack :
    (packForm (hent packs) (mE (hd 7 false) 4 0 0 0 0 2 0)).ready (hent packs) ∧
    (packForm (hent packs) (mE (hd 7 false) 4 0 0 0 1 2 96)).ready (hent packs) ∧
    ((hent packs).fs 1#3).sch = 2 ∧ ((hent packs).fs 0#3).sch = 1 ∧ (mE (hd 7 false) 4 0 0 0 1 2 96).bits 6 5 = 3 ∧
    ((hent packs).fs 1#3).isZb = true ∧ (mE (hd 7 false) 4 0 0 0 1 2 (32 * 47)).bits 6 5 = 47 ∧ (mE (hd 7 false) 4 0 0 0 1 2 (32 * 48)).bits 6 5 = 48 := by
  unfold LaneForm.ready; decide +kernel

/-- O17, O18: values of F32: 1.0, -0, and the least subnormal. -/
theorem test_wit_float : IsValue fmtF32 0x3F800000 1 ∧ IsValue fmtF32 0x80000000 0 ∧ IsValue fmtF32 1 ((2 : ℝ) ^ (-149 : Int)) ∧
    IsNum true 3 (-1) (-3 / 2) := by
  refine ⟨⟨false, 2 ^ 23, -23, by decide, ?_⟩, ⟨true, 0, -149, by decide, ?_⟩, ⟨false, 1, -149, by decide, ?_⟩, ?_⟩ <;> norm_num [IsNum]

/-- O18: what the clauses on special operands speak of: ±0, ±∞, a quiet and a signalling NaN, a negative value. -/
theorem test_wit_specials : (fmtF16.decode 0x8000).isZero = true ∧ fmtF16.decode 0xFC00 = .inf true ∧ (fmtBF16.decode 0x7FC0).isNan = true ∧
    (fmtF32.decode 0x7F800001).isSnan = true ∧ (fmtF16.decode 0xBC00) = .num true 1024 (-10) ∧
    (fmtE4M3.convert .rn false (.num false 1 9)).2.getLsbD 2 = true ∧ (fmtE4M3.convert .rn false (.num false 1 8)).2.getLsbD 2 = false := by
  decide +kernel

/-- O19: counters that move, that would pass 63, that leave no lane active; a target in the slot and one outside it. -/
theorem test_wit_structured :
    let g := fun (c : BitVec 6) => vecG fun g => { g with cnt := (List.range 32).map fun l => (l, c) }
    ((counterRule (.ifK (mB (hd 0 false) 4 0 0 0)) (vec).gang).any fun r => lanes.all fun l => r.2 l 0 ≤ 63) = true ∧
    ((counterRule (.ifK (mB (hd 0 false) 4 0 0 0)) (g 63#6).gang).any fun r => r.2 0 63 == 64) = true ∧
    (g 63#6).gang.partLane 0 0 = true ∧ ((g 63#6).gang.cntAt 31).toNat = 63 ∧ (g 1#6).gang.anyActive 0 = false ∧
    SameSlot (vec).pc 4#24 ∧ SameSlot (vec).pc 511#24 ∧ ¬ SameSlot (vec).pc 512#24 ∧ ¬ SameSlot (vec).pc 0xFFFFFF#24 := by
  unfold SameSlot; decide +kernel

/-- Every target that is decided on passes a test. -/
def goes (P : IAddr → Bool) (d : Decision) : Bool :=
  match d with
  | .go a => P a
  | _ => true

theorem goes_spec {P : IAddr → Bool} {d : Decision} (h : goes P d = true) : ∀ a, d = .go a → P a = true := by rintro a rfl; exact h

/-- Lanes 0 to 15 hold k1, every slice is at depth 1 with return address 8. -/
def half : State := vecG fun g =>
  { g with r := { g.r with k := [(1, 0xFFFF#32)] }
           slices := g.slices.map fun p => (p.1, { p.2 with depth := 1#8 }), ret := (List.range 8).map fun n => (256 * n, 8#18) }

/-- O20: a branch that parts the gang, a call, a return; a slice whose lanes disagree; depth 255 and depth 0. -/
theorem test_wit_branch :
    PartNames (half).gang ∧ (half).gang.partSlices 0 = List.range 8 ∧ MidSlot (half) ∧ Settled (half) ∧
    ((branchOf (half) (.bra (mB (hd 1 false) 2 0 0 0))).any fun b => (List.range 8).all fun n => b.dec n != .split) = true ∧
    ((branchOf (half) (.call (mB (hd 1 false) 2 0 0 0))).any fun b => b.push) = true ∧
    (∀ n, n < 8 → ((half).gang.sliceAt n).depth ≠ 255#8 ∧ ((half).gang.sliceAt n).depth ≠ 0#8) ∧ SameSlot (half).pc 2#24 := by
  unfold PartNames MidSlot Settled SameSlot; decide +kernel

theorem test_wit_ret : ∃ b, branchOf (half) (.ret (mB (hd 1 false) 0 0 0 0)) = some b ∧ branchChecks (half) (.ret (mB (hd 1 false) 0 0 0 0)) b := by
  refine ⟨_, rfl, fun n hn a ha => ?_⟩
  have h : ∀ n ∈ (half).gang.partSlices (half).pt, goes (fun a => a.toNat % 8 == 0 && ((half).targetTrap a).isNone)
    (((branchOf (half) (.ret (mB (hd 1 false) 0 0 0 0))).getD { dec := fun _ => .stay }).dec n) = true := by decide +kernel
  simpa using goes_spec (h n hn) a ha

theorem test_wit_branch_traps :
    let s := vecG fun g => { g with r := { g.r with k := [(1, 1#32)] } }
    (∃ n ∈ s.gang.partSlices 0, s.gang.decide_ 0 (hd 1 false) (fun _ => 16#18) n = .split) ∧
    (vec).gang.geff 0 (hd 7 true) = true ∧
    ((vecG fun g => { g with slices := g.slices.map fun p => (p.1, { p.2 with depth := 255#8 }) }).gang.sliceAt 0).depth = 255#8 := by
  decide +kernel

/-- O20: the stack of `half` holds its return entries; one that it does not hold stands in a readable and writable page of the region. -/
theorem test_wit_entries :
    returns (half) (.ret (mB (hd 1 false) 0 0 0 0)) ∧ (∀ n ∈ List.range 8, (KMap.get none (half).gang.ret ((half).gang.retKey n)).isSome) ∧
    let s := (half).setGang { (half).gang with ret := [] }
    KMap.get none s.gang.ret (s.gang.retKey 7) = none ∧ (s.lookup (s.xlOf s.gang.team) (s.gang.retVa (s.gang.retKey 7))).1 = .page 7168 0x1F#64 ∧
    entR 0x1F#64 = true ∧ entW 0x1F#64 = true ∧ s.portDown 7168 = false := by
  refine ⟨?_, by decide +kernel, by decide +kernel⟩
  rintro f h
  obtain rfl : mB (hd 1 false) 0 0 0 0 = f := by simpa using h
  decide +kernel

/-- O20: REGANG waits, meets, and clashes. -/
theorem test_wit_regang :
    let a := vecG fun g => { g with slices := g.slices.map fun p => (p.1, { p.2 with part := if p.1 < 4 then 0 else 4 }) }
    let b := vecG fun g => { g with slices := g.slices.map fun p => (p.1, { p.2 with part := if p.1 < 4 then 0 else 4, atRegang := 4 ≤ p.1 }) }
    let c := vecG fun g => { g with slices := g.slices.map fun p =>
      (p.1, { p.2 with part := if p.1 < 4 then 0 else 4, atRegang := 4 ≤ p.1, depth := if p.1 < 4 then 0#8 else 1#8 }) }
    (a.gang.anyActive 0 = true ∧ ∃ n ∈ a.gang.liveSlices, n ∉ a.gang.partSlices 0 ∧ (a.gang.sliceAt n).atRegang = false) ∧
    (∀ n ∈ b.gang.liveSlices, (n ∈ b.gang.partSlices 0 ∨ (b.gang.sliceAt n).atRegang = true) ∧ lastWord (b.gang.sliceAt n).pc = false) ∧
    (∃ n ∈ c.gang.liveSlices, (c.gang.sliceAt n).atRegang = true ∧ (c.gang.sliceAt n).pc = c.pc ∧ (c.gang.sliceAt n).depth ≠ c.gang.depthOf 0) := by
  decide +kernel

/-- The IMEM of the team with a slot in a state. -/
def slotted (n : Nat) (x : ISlot) : State := (vec).setTeamAt 1 { (vec).teamAt 1 with im := ((vec).teamAt 1).im.setSlot n x }

/-- O21: targets in a landed slot, an empty one, and outside the window; slots that are being fetched, first and last of the window. -/
theorem test_wit_segments :
    (vec).gang.geff 0 (hd 7 true) = true ∧ (vec).gang.geff 0 { hd 7 true with pn := true } = false ∧
    (target (vec).pc 4#24).toNat / 4096 = 0 ∧ ((vec).imemOf 1).nseg = 16 ∧ (((vec).imemOf 1).slotAt 0).st = .landed ∧
    (target (vec).pc 512#24).toNat / 4096 = 1 ∧ (((vec).imemOf 1).slotAt 1).st = .empty ∧ (target (vec).pc 8192#24).toNat / 4096 = 16 ∧
    (((slotted 15 { st := .fetching }).imemOf 1).slotAt 15).st = .fetching := by decide +kernel

theorem test_wit_cfetch :
    (vec).groupGate (hd 7 true) (indexG (mM (hd 7 true) 1 0 63 0 0 0 0 0 0 0)) false false = none ∧ (vec).engineGate = none ∧
    ((vec).gang.effAddr (mM (hd 7 true) 1 0 63 0 0 0 0 0 0 0) 0).toNat % 4096 = 0 ∧ (∀ i ∈ (vec).gang.liveSlices, slotOf ((vec).gang.sliceAt i).pc ≠ 1) ∧
    ((vec).lookup ((vec).xlOf 1) 0).1 = .page 0 0x1F#64 ∧ entX 0x1F#64 = true ∧
    (((slotted 1 { st := .fetching, src := 4096#72, by_ := 1 }).imemAt 1).slotAt 1).st = .fetching := by decide +kernel

theorem test_wit_landed : ∃ b pa leaf, (slotted 1 { st := .fetching, src := 4096#72, by_ := 1 }).segment
    ((slotted 1 { st := .fetching, src := 4096#72, by_ := 1 }).xlOf 1) 4096 = .bytes b pa leaf := by
  have h : (match (slotted 1 { st := .fetching, src := 4096#72, by_ := 1 }).segment
    ((slotted 1 { st := .fetching, src := 4096#72, by_ := 1 }).xlOf 1) 4096 with
    | .bytes _ _ _ => true
    | _ => false) = true := by decide +kernel
  split at h
  · exact ⟨_, _, _, by assumption⟩
  · cases h

/-- O21: YIELD with a pre-emption pending, and a gang that yields; lanes for TRAP. -/
theorem test_wit_yield :
    ((vec).setCohortAt 0 { preempt := true }).cohort.preempt = true ∧ (vec).cohort.preempt = false ∧
    ((vecG fun g => { g with hold := .yield 0 }).gangAt 1).hold = .yield 0 ∧ ((vecG fun g => { g with hold := .yield 9 }).gangAt 1).hold = .yield 9 ∧ (vec).gang.eff 0 (hd 7 false) 31 = true ∧
    (∀ l, l < 32 → (vec).gang.eff 0 { hd 7 false with pn := true } l = false) := by decide +kernel

/-- A gang in a region that it opened first. -/
def region : State := vecG fun g => { g with
  rel := some { pc := 0#18, cnt := [], slices := g.slices, mstat := 1#64, srstate := [], order := 0, held := [{ space := 0, bytes := [(64, 1#8)], scp := 0, ord := 0 }] }
  starved := true }

/-- O22: a region, and the gangs of the core that hold entries. -/
theorem test_wit_region : (region).gang.rel ≠ none ∧ (region).gang.loads = [] ∧ ((region).gangAt 1).entries ≠ 0 ∧
    (∀ j ∈ (region).gangs.map (·.1), ((region).gangAt j).ended = false → ((region).gangAt j).starved = true ∧ ((region).gangAt j).ahead = none) ∧
    (∀ p ∈ (region).gangs, (region).gangAt p.1 = p.2) ∧ (vec).gang.whole = true ∧ (vec).gang.anyActive 0 = true := by decide +kernel

/-- O23: depths within the limits, a depth of 17, a sum of 65 and a reserved bit. -/
theorem test_wit_qcfg :
    let depths := fun (v : Nat) => (List.range 8).map fun q => v / 2 ^ (5 * q) % 32
    (∀ d ∈ depths 0x2108421084, d ≤ 16) ∧ (depths 0x2108421084).sum = 32 ∧ (vec).gang.qent = 64 ∧ depths 17 = [17, 0, 0, 0, 0, 0, 0, 0] ∧
    (depths (16 + 16 * 32 + 16 * 1024 + 16 * 32768 + 2 ^ 20)).sum = 65 ∧ ¬ (2 ^ 40 < 2 ^ 40) := by decide +kernel

/-- O24: BAR meets in a team of one gang, and not while another part has not arrived. -/
theorem test_wit_bar :
    let e := (vec).setGang ((vec).gang.onSlices (List.range 8) fun x => { x with atBar := true })
    (∀ k ∈ (e.teamAt 1).gangs, ∀ n ∈ (e.gangAt k).liveSlices, ((e.gangAt k).sliceAt n).atBar = true) ∧ (e.teamAt 1).gangs = [(vec).gk] ∧
    (vec).gang.parts = [(vec).pt] ∧ ((vec).gang.loadsOut || (vec).farStores) = false ∧
    ((vecG fun g => { g with pios := [7] }).gang.loadsOut || (vecG fun g => { g with pios := [7] }).farStores) = true ∧ (∀ n ∈ (vec).gang.partSlices 0, ((vec).gang.sliceAt n).atBar = false) ∧
    ∃ n ∈ ((vec).gangAt 1).liveSlices, n ∉ [0, 1, 2, 3] := by decide +kernel

/-- O24: EXIT of some lanes, of a part beside another, of the last lane with loads out, and of the last lane. -/
theorem test_wit_exit :
    let g := fun (s : State) (m : Word) => { s.gang with exited := s.gang.exited ||| m }
    let two := vecG fun g => { g with slices := g.slices.map fun p => (p.1, { p.2 with part := if p.1 < 4 then 0 else 4 }) }
    (g (vec) 0xFFFF#32).partSlices 0 ≠ [] ∧ ((g two 0xFFFF#32).liveSlices ≠ [] ∧ (g two 0xFFFF#32).partSlices 0 = []) ∧
    ((g (vec) 0xFFFFFFFF#32).liveSlices = [] ∧ (g (vec) 0xFFFFFFFF#32).drained = true ∧ (g (vec) 0xFFFFFFFF#32).ended = false ∧
      (g (vec) 0xFFFFFFFF#32).quads = [] ∧ (vec).gang.kdirty = [] ∧ (vec).gang.ret = [] ∧ ((vec).teamAt 1).colls = [] ∧ ((vec).queueOf 1).bound = false) ∧
    (g (vecG fun g => { g with stores := [3] }) 0xFFFFFFFF#32).drained = false := by decide +kernel

/-- A gang of a team that is rank 0 of group 5 of a bound launch. -/
def voter (g : Gang → Gang := id) (broken : Bool := false) : State :=
  let s := (vecG g).setTeamAt 1 { (vec).teamAt 1 with grpm := (2 ^ 32 + 5 : Nat) }
  let s := (s.setQueueAt 0 { bound := true, launch := { hent := 4096#64 } }).setCohortAt 0 { teams := [1] }
  { s with groups := [(5, { members := [⟨0, 0, 0, 0⟩], broken := broken })] }

/-- O25: CBR in a group that the team names: ready, broken, and in a group that it does not name. -/
theorem test_wit_cbr : castReady (voter) (mB (hd 2 true) 40 5 0 64) 0 ∧ ((voter).team.grpSlot 6) = none ∧ (voter).groupKey 1 5 = 5 ∧
    ((voter id true).groupAt 5).broken = true ∧ (mB (hd 2 true) 40 5 2 64).aux4.getLsbD 1 = true ∧
    (mB (hd 2 true) 40 5 2 64).aux12 ≠ 0#12 := by unfold castReady SameSlot; decide +kernel

/-- O26: a member gang that has not cast vote 1 and one that has cast vote 0; what a node has gathered; the root is this module. -/
theorem test_wit_votes :
    let one := voter fun g => { g with vcnt := [(0, 1#16)] }
    (∃ k ∈ one.dieVoters 0 5, one.notCast k 5 1 = true) ∧ (¬ ∃ k ∈ one.dieVoters 0 5, one.notCast k 5 0 = true) ∧ (voter).voteRoot 5 = (voter).modn ∧
    (voter).groupSize 5 = 1 ∧ (voter).heldMember 0 5 = true ∧ (voter).heldMember 1 5 = false ∧ (voter).heldMember 3 5 = false ∧
    (∀ p ∈ (voter).gangs, (voter).dieOfGang p.1 = 0) ∧ ((voter).groupAt 5).members ≠ [] ∧
    frameGkey (groupFrame 10 0 0 5 9 (voteWord 1 true false false) 0) = 5 ∧
    frameWord (groupFrame 10 0 0 5 9 (voteWord 1 true false false) 0) % 2 ^ 32 = 1 ∧
    (frameWord (groupFrame 10 0 0 5 9 (voteWord 0 true false true) 0)).testBit 34 = true := by decide +kernel

/-- O26: what a node holds, a partial for the module node with one beside it at die 3, the root's result with one taking reported of two,
a request, and the root's own partial that lacks votes or does not. -/
theorem test_wit_nodes :
    let w := fun n => frameWord (groupFrame 10 0 0 5 9 n 0)
    let at_ := fun (g : Group → Group) => let s := voter; s.setGroupAt 5 (g (s.groupAt 5))
    let held := at_ fun g => { g with nodes := [(65536 * 3 + 9, { count := 1 }), (65536 * 4 + 9, { count := 2 })] }
    (KMap.get {} (held.groupAt 5).nodes (65536 * 3 + 9)).count ≠ 0 ∧ (KMap.get {} (held.groupAt 5).nodes (65536 * 2 + 9)).count = 0 ∧
    ((List.range 4).any fun d => (KMap.get {} (held.groupAt 5).nodes (65536 * d + 9)).count ≠ 0) = true ∧
    (held.groupAt 5).broken = false ∧ (held.groupAt 5).members ≠ [] ∧
    ((w (voteWord 1 true true false)).testBit 34 = false ∧ (w (voteWord 1 true true false)).testBit 35 = false ∧
      (w (voteWord 1 true true false)).testBit 36 = false ∧ w (voteWord 1 true true false) % 2 ^ 32 = 1) ∧
    ((w (1 + 2 ^ 36)).testBit 35 = false ∧ (w (1 + 2 ^ 36)).testBit 36 = true) ∧
    ((w (1 + 2 ^ 36 + 2 ^ 35)).testBit 35 = true ∧ (w (1 + 2 ^ 36 + 2 ^ 35)).testBit 36 = true ∧ (w (1 + 2 ^ 36 + 2 ^ 35)).testBit 34 = false) ∧
    ((w (2 ^ 34 + 2 ^ 35)).testBit 34 = true ∧ (w (2 ^ 34 + 2 ^ 35)).testBit 35 = true) ∧
    ((w (1 + 2 ^ 35)).testBit 35 = true ∧ (w (1 + 2 ^ 35)).testBit 37 = false ∧ (w (1 + 2 ^ 35)).testBit 33 = false) ∧
    (voter).endedVotes 5 9 = 0 ∧ (voter).groupSize 5 = 1 ∧
    KMap.get none ((at_ fun g => { g with results := [(9, some (true, 0))] }).groupAt 5).results 9 = some (true, 0) ∧
    (w (2 ^ 33)).testBit 33 = true ∧ (groupFrame 10 0 0 5 9 1 0).psn = 0 ∧
    (at_ fun g => { g with members := [⟨0, 0, 0, 0⟩, ⟨1, 0, 0, 0⟩] }).groupSize 5 = 2 := by decide +kernel

/-- A result of vote 0 that has reached die 0. -/
def resulted (g : Gang → Gang) (r : Bool) : State :=
  let s := voter fun x => g { x with vcast := some ⟨5, 0, 0⟩ }
  { s with groups := [(5, { members := [⟨0, 0, 0, 0⟩], kept := [(0, [(0, r)])] })] }

/-- Run-ahead on the path not taken. -/
def onward (g : Gang) : Gang := { g with ahead := some { cbr := 0#18, other := 320#18, taken := false, left := 4, regs := g.r, cnt := [], slices := g.slices, ret := [] } }

/-- O25: a result that matches the hint, one that does not, and one for a gang that waits at its CBR. -/
theorem test_wit_result :
    (∀ r, ((KMap.get [] ((resulted onward r).groupAt 5).kept ((resulted onward r).dieOfGang 1)).find? fun x => x.1 == 0) = some (0, r)) ∧
    ((resulted onward false).gangAt 1).ahead.isSome = true ∧ ((resulted onward false).teamAt 1).status = .running ∧
    ((resulted onward false).cohortAt 0).status = .running ∧ ((resulted onward false).gangAt 1).ended = false ∧
    ((resulted (fun g => { g with hold := .vote }) true).gangAt 1).hold = .vote ∧
    decode .vector (((vec 0x1628000028050040).imemOf 1).word (vec 0x1628000028050040).pc) = .ok (.cbr (mB (hd 2 true) 40 5 0 64)) := by
  decide +kernel

/-! ## Memory -/

/-- The accesses of a plan within the module, and whether the state is still the one given. -/
def planned (s : State) (sp n : Nat) (nd : Need) (g : Bool) (l : List (Nat × VAddr)) : Option (Bool × List Acc) :=
  match s.plan sp n nd g l with
  | .go t a => if a.all (·.loc.here) then some (decide (t = s), a) else none
  | _ => none

theorem planned_spec {s : State} {sp n : Nat} {nd : Need} {g : Bool} {l : List (Nat × VAddr)} {b : Bool} {a : List Acc}
    (h : planned s sp n nd g l = some (b, a)) : ∃ t, s.plan sp n nd g l = .go t a ∧ allHere a ∧ (b = true → t = s) := by
  unfold planned at h
  split at h
  · split at h
    · rename_i hall
      simp only [Option.some.injEq, Prod.mk.injEq] at h
      obtain ⟨h1, h2⟩ := h
      subst h2
      exact ⟨_, by assumption, List.all_eq_true.mp hall, fun hb => by simpa [hb] using h1⟩
    · cases h
  · cases h

/-- LD.G.U32 v1, [ad0 + v0*4], LD.S.U64 at the end of the scratchpad, and their stores. -/
def ldG : ClassM := mM (hd 7 false) 1 0 0 2 4 0 0 0 0 0
def ldS : ClassM := mM (hd 7 true) 1 0 63 0 5 1 0 0 0 4088

/-- O27: the first check that fails: a scratchpad of 4,096 bytes at its last word and beyond it, alignment, an unmapped address, a peer
address, a C address of a team that the cohort lacks. -/
theorem test_wit_checks :
    ((vec).checkAcc 1 1 4 { r := true } 4092#72).1 = .ok (.spad 1 4092) ∧ ((vec).checkAcc 1 1 4 { r := true } 4093#72).1 = .range ∧
    ((vec).checkAcc 1 1 4 { r := true } 2#72).1 = .align ∧ ((vec).checkAcc 1 0 4 { r := true } 2#72).1 = .align ∧
    ((vec).checkAcc 1 0 4 { w := true } (2 ^ 55 - 4 : Nat)).1 = .perm ∧ ((vec).checkAcc 1 2 4 { w := true } (2 ^ 20 : Nat)).1 = .range ∧
    ((lin).checkAcc 1 1 4 { r := true } 0#72).1 = .perm := by decide +kernel

theorem test_wit_access_traps :
    let bad := fun (l : List (Nat × VAddr)) (k : Chk) => ((vec).checkAll 1 1 4 { r := true } l).1.filter fun p => p.2.2 == k
    (bad [(0, 0#72), (1, 4096#72)] .range).length = 1 ∧ (bad [(0, 2#72), (1, 4#72)] .range = [] ∧ (bad [(0, 2#72), (1, 4#72)] .align).length = 1) ∧
    (((vec).checkAll 1 0 4 { w := true } [(3, (2 ^ 55 - 4 : Nat))]).1.filter fun p => p.2.2 == .perm).length = 1 := by decide +kernel

/-- O28: loads that are ready, from G in 32 lanes and from the last doubleword of the scratchpad. -/
theorem test_wit_load :
    (vec).memGate ldG [] [Use.of ldG.d false] [1] = none ∧ (vec).accWaits = false ∧ (vec).gang.loads.length < 4095 ∧
    ((planned (vec) 0 4 { r := true } false ((vec).accList ldG)).any fun p => p.2.length == 32) = true ∧
    (vec).memGate ldS [] [Use.of ldS.d true] [1] = none ∧ ((planned (vec) 1 8 { r := true } true ((vec).accList ldS)).any fun p => p.2.length == 1) = true ∧
    ((vec).gangAt 1).holds = false := by decide +kernel

/-- O28: a byte of G that partition 7 holds, one that it does not, and a stale byte of L1. -/
theorem test_wit_bytes :
    let s := (vec).setDieAt 0 { (vec).dieAt 0 with p7 := [(64, some 9#8)] }
    let t := (vec).setCoreAt 1 { resid := [], filter := [], stale := [(64, some 9#8)] }
    (s.gangAt 1).holds = false ∧ s.p7Byte (s.dieOfGang 1) (.mem 64 0xE1F#64) 0 = some 9#8 ∧ s.p7Byte (s.dieOfGang 1) (.mem 64 0xE1F#64) 1 = none ∧
    s.staleByte 1 65 = none ∧ t.p7Byte 0 (.mem 64 0xE1F#64) 0 = none ∧ t.staleByte 1 64 = some 9#8 := by decide +kernel

/-- A load whose value for g1 and lane 31 of v47 is there. -/
def loaded : State := vecG fun g => { g with loads := [{ id := 9, vregs := [47], gregs := [1], vals := [(1535, 5#32)], gvals := [(1, 7#64)] }] }

theorem test_wit_return : ((loaded).gangAt 1).loads.find? (·.id == 9) = some { id := 9, vregs := [47], gregs := [1], vals := [(1535, 5#32)], gvals := [(1, 7#64)] } ∧
    ((loaded).gangAt 1).hold ≠ .exiting ∧ ((loaded).gangAt 1).ahead = none := by decide +kernel

/-- O29: stores that are ready, and one that a region holds. -/
theorem test_wit_store :
    (vec).memGate ldG [Use.of ldG.d false] [] [1] = none ∧ (vec).gang.storeWaits 0 0 = false ∧ (vec).gang.stores.length < 4095 ∧
    ((planned (vec) 0 4 { w := true } false ((vec).accList ldG)).any fun p => p.2.length == 32) = true ∧
    (region).gang.holds = true ∧ (region).memGate ldS [Use.of ldS.d true] [] [1] = none ∧
    (planned (region) 1 8 { w := true } true ((region).accList ldS)).isSome = true ∧
    (vec).dieOfGang 1 = 0 ∧ (vec).portDown 0 = false ∧ ((vec).teamAt 1).status ≠ .saved ∧ (Loc.stack 0 64).here = true := by decide +kernel

/-- O30: a store that die 0 has made, not seen by dies 1 to 3: deliverable; one that names it: not yet. -/
theorem test_wit_delivery :
    let s := ((State.reset.store 0 [(64, 1#8)] []).2.store 0 [(68, 2#8)] []).2
    ((s.log.find? (·.id == 1)).any fun e => s.deliverable 3 e && !e.seen.getLsbD 3) = true ∧
    ((s.log.find? (·.id == 2)).any fun e => !s.deliverable 3 e && !e.seen.getLsbD 3) = true ∧ (∃ e ∈ s.log, e.id = 1) ∧ (∀ e ∈ s.log, e.id ≠ 3) ∧
    (s.gangAt 1).commits = [] ∧ (s.gangAt 1).hold ≠ .exiting := by decide +kernel

/-- ATOM.OR.G.U32 g21, [ad2 + 0] and CAS. -/
def atomF : ClassM := mM (hd 7 true 1) 21 2 63 0 4 0 3 2 0 0

/-- O31: an atomic that is ready. -/
theorem test_wit_atomic : atomF.atomOp.toNat < 12 ∧ atomF.sp = 0#3 ∧ atomF.sz = 4#3 ∧ (vec).groupGate atomF.h ([21] ++ indexG atomF) false false = none ∧
    (vec).accWaits = false ∧ (vec).gang.storeWaits 3 2 = false ∧ (vec).portDown 0 = false ∧
    ((planned (vec) 0 4 { r := true, w := true } true ((vec).accList atomF)).any fun p => p.2.length == 1) = true := by decide +kernel

/-- WAITV.EQ.S.U32 g2, [ad0 + 4092] and NE. -/
def waitF (ne : Bool) : ClassM := mM (hd 7 true (if ne then 1 else 0)) 2 0 63 0 4 1 0 0 0 4092

/-- O32: a WAITV that is met, and one that is not. -/
theorem test_wit_waitv : (vec).groupGate (waitF true).h ([2] ++ indexG (waitF true)) false false = none ∧ (vec).engineGate = none ∧ (vec).gang.ptags = [] ∧
    (vec).tagsAt 0 (.spad 1 4092) 4 = [] ∧ (vec).die = 0 ∧
    planned (vec) 1 4 { r := true } true ((vec).accList (waitF true)) = some (true, [{ lane := 32, ea := 4092#72, loc := .spad 1 4092 }]) ∧
    waitCond (waitF false).waitCond.toNat false 32 0 0 = true ∧ waitCond (waitF true).waitCond.toNat false 32 0 0 = false := by decide +kernel

/-- O33: fences that go on, one that waits for a store at SYS, and maintenance. -/
theorem test_wit_fence : (vec).groupGate (hd 7 true) [] false false = none ∧ (vec).engineGate = none ∧ (vec).gang.fenceWaits 6 3 = false ∧
    (vecG fun g => { g with stores := [5] }).gang.fenceWaits 6 3 = true ∧ (vec).groupGate (hd 7 true) [63] false false = none ∧
    (vec).gang.seen = [] ∧ (vec).gang.ahead = none ∧ (vec).lodOut (mM (hd 7 true) 63 2 63 0 0 0 3 0 0 0) = false ∧ (vec).memGate ldS [] [] [] = none := by decide +kernel

/-! ## Copies, swing buffers, barriers -/

/-- A gang of a bound queue whose heap window is the first MiB, with a swing buffer of four blocks. -/
def swung (g : Gang → Gang := id) : State :=
  let s := (vecG g).setTeamAt 1 { (vec).teamAt 1 with hlimit := 0x100000#64 }
  (s.setQueueAt 0 { bound := true, ctx := { hpsz := 0x100000 }, launch := { hent := 4096#64, hlimit := 0x100000#64 }
                    swings := [{ base := 0, nblk := 4, scope := 2, gen := 0x30000, alt := 0x10000, sel := 0x20000 }] }).setCohortAt 0 { teams := [1] }

/-- CPY.S.G [ad1 + 32], [ad0 + 32], 16 and the form with a register length. -/
def cpyF : ClassE := mE (hd 7 true) 0 1 0 0 0 0 0x200402
def cpyR : ClassE := mE (hd 7 true 1) 0 1 0 0 0 2 0x200402

/-- O34: a copy that may start, one of nothing, and the lengths at the limits. -/
theorem test_wit_copy : engineReady (vec) cpyF.h [] ∧ engineReady (vec) cpyR.h [2] ∧ (vec).accWaits = false ∧ (vec).gang.loadsOut = false ∧
    (vec).farStores = false ∧ (vec).rangeTrap (vec).gang [{ sp := 1, a := 32#72, n := 16, need := { w := true } }, { sp := 0, a := 32#72, n := 16, need := { r := true } }] = none ∧
    ((vec).gang.gAt 2).toNat % 2 ^ 32 = 0 ∧ ((vecG fun g => { g with r := { g.r with g := [(2, 16777217#64)] } }).gang.gAt 2).toNat = 16777217 := by
  unfold engineReady; decide +kernel

/-- GTH.S into slots of 4 bytes from v0 = 0. -/
def gthF : ClassE := mE (hd 7 false) 0 1 0 0 0 0 0x220000

theorem test_wit_gather : (vec).farStores = false ∧ (vec).rangeTrap (vec).gang [] = none ∧ (vec).laneGate gthF.h [{ f := gthF.a }] [] false false = none ∧ (vec).gthDest (vec).gang 1 4 0#72 lanes = none ∧
    szBytes (gthF.bits 3 15) = 4 ∧ gthF.bits 3 21 = 1 ∧
    (∀ p ∈ ((vec).checkAll 1 0 4 { r := true } (lanes.map fun l => (l, 0#72))).1, p.2.2 ≠ .align ∧ p.2.2 ≠ .perm) := by decide +kernel

/-- A copy of 32 bytes from address 0 to the scratchpad, its last unit still to do or done. -/
def copying (done : Nat) (bar : Option VAddr := none) (src : Nat := 0) : State :=
  { vecG (fun g => { g with engs := [7] }) with copies := [{ id := 7, gang := 1, word := 0#64, dsp := 1, ssp := 0, dst := 0#72, src := src, len := 32, done := done, bar := bar, batch := some 1 }] }

/-- O34: units that read, that may not be read, and a copy that has landed. -/
theorem test_wit_units : ((copying 16).copies.find? (·.id == 7)).isSome = true ∧
    (match (copying 16).engineRead 1 0 16 16#72 with
      | .bytes b pas => b.length == 16 && (match (((copying 16).engineFill 1 0 16 16#72).noteRead ((copying 16).dieOfGang 1) pas).engineWrite 1 1 16#72 b with
        | .ok _ => true
        | _ => false)
      | _ => false) = true ∧
    (match (copying 16).engineRead 1 0 16 (2 ^ 60 : Nat) with
      | .bad _ => true
      | _ => false) = true ∧ ((copying 16).gangAt 1).ended = false ∧ ((copying 32).gangAt 1).hold ≠ .exiting ∧
    (lanes.filter fun x => (0x80000001#32).getLsbD x)[1]? = some 31 ∧ (0 + 16) % 32 ≠ 0 ∧ (16 + 16) % 32 = 0 := by decide +kernel

/-- A bound queue whose table of window 0, at 0x1000, says that every page is mapped and not resident. -/
def away : State :=
  let s := (vec).setQueueAt 0 { bound := true, ctx := { root := 0x1000 }, launch := { hent := 4096#64 } }
  (s.setCohortAt 0 { teams := [1] }).writeNat 0x1000 8 2

theorem test_wit_absent : (match (away).engineRead 1 0 16 64#72 with
    | .absent _ => true
    | _ => false) = true ∧ ((away).lookup ((away).xlOf 1) 64).1 = .absent := by decide +kernel

/-- O35: a first write of an engine to a block of the buffer; a published address, another one, and a swing that waits. -/
theorem test_wit_swing :
    let x := (swung).xlOf 1
    (x.swingOf 0).isSome = true ∧ ((swung).lookup x ((swung).saggerPlace x ⟨0, 4, 2, 0x30000, 0x10000, 0x20000⟩ 0)).1 = .page 0x10000 x.heapLeaf ∧
    ((swung).lookup x ((swung).published x 0)).1 = .page 0 x.heapLeaf ∧ entW x.heapLeaf = true ∧ entPart x.heapLeaf ≠ 7 ∧ (swung).sagger = [] ∧ (swung).portDown 0x10FFF = false ∧ (swung).portDown 4095 = false ∧
    (swung).groupGate (hd 7 true) (indexG (mM (hd 7 true) 63 0 63 0 0 0 0 0 0 0)) false false = none ∧ (swung).engineGate = none ∧
    (x.swings.find? fun b => b.base == 0).isSome = true ∧ (∀ b ∈ x.swings, b.base ≠ 8) := by decide +kernel

theorem test_wit_publ :
    let p : Publ := { id := 4, gang := 1, base := 0, scp := 2, queue := 0, launch := 0, need := [] }
    let s := { swung with publs := [p, { p with id := 5, need := [9] }] }
    (s.publs.find? (·.id == 4)) = some p ∧ ((s.publs.find? fun q => q.launch == 0 && q.base == 0).any fun q => q.id == 4) = true ∧
    ((s.xlQueue 0).swings.find? fun b => b.base == 0).isSome = true ∧ ((s.lookup (s.xlQueue 0) 0x30000).1 = .page 0x30000 (s.xlQueue 0).heapLeaf) ∧
    (s.gangAt 1).hold ≠ .exiting ∧ (s.gangAt 1).commits = [] ∧ (∀ b ∈ (s.xlQueue 0).swings, b.base ≠ 8) ∧ (s.xlQueue 0).launch = 0 ∧
    s.swingAbsent (s.xlQueue 0) ⟨0, 4, 2, 0x30000, 0x10000, 0x20000⟩ = none ∧ s.written (s.xlQueue 0) ⟨0, 4, 2, 0x30000, 0x10000, 0x20000⟩ = [] ∧
    (away).swingAbsent ((away).xlQueue 0) ⟨0, 4, 2, 0x30000, 0x10000, 0x20000⟩ = some 0x30000 := by decide +kernel

/-- The state of a swing whose buffer has its last block written. -/
def written1 : State := { swung with publs := [{ id := 4, gang := 1, base := 0, scp := 2, queue := 0 }], sagger := [(0, 12288)] }

/-- A heap address translates without memory. -/
theorem test_heap (s : State) (x : Xl) (va : Nat) (m : KMap Byte) (l : List StoreEnt) (hb : x.bound = true) (hh : x.inHeap va = true) :
    ({ s with mem := m, log := l } : State).lookup x va = s.lookup x va := by
  simp only [State.lookup, State.lookupRaw, hb, hh, Bool.not_true, Bool.false_eq_true, if_false, if_true]; rfl

/-- O35: a swing with one written block, the places of its generation word and of its selector byte. -/
theorem test_wit_written :
    let s := written1
    let x := s.xlQueue 0
    let pal := (List.range 8).map (0x30000 + ·)
    s.written x ⟨0, 4, 2, 0x30000, 0x10000, 0x20000⟩ = [(x.launch, 12288)] ∧ s.swingAbsent x ⟨0, 4, 2, 0x30000, 0x10000, 0x20000⟩ = none ∧
    (∀ m l, ({ s with mem := m, log := l }.lookup x (0x20000 + (12288 - 0) / 4096 / 8)).1 = .page 0x20000 x.heapLeaf) ∧
    entR x.heapLeaf = true ∧ 0x20000 ∉ pal ∧ pal.length = 8 ∧ pal.Nodup ∧
    (∀ j, j < 8 → ∀ m l, ∃ lf, ({ s with mem := m, log := l }.lookup x (0x30000 + j)).1 = .page (pal.getD j 0) lf ∧ entR lf = true) ∧
    (∀ a ∈ 0x20000 :: pal, s.portDown a = false) := by
  refine ⟨by decide +kernel, by decide +kernel, fun m l => ?_, by decide +kernel, by decide, by decide, by decide, fun j hj m l => ?_, by decide +kernel⟩
  · exact (congrArg Prod.fst (test_heap written1 (written1.xlQueue 0) (0x20000 + (12288 - 0) / 4096 / 8) m l (by decide +kernel) (by decide +kernel))).trans
      (by decide +kernel)
  · have hh : ∀ j, j < 8 → (written1.xlQueue 0).inHeap (0x30000 + j) = true ∧ (written1.lookup (written1.xlQueue 0) (0x30000 + j)).1 =
        .page (((List.range 8).map (0x30000 + ·)).getD j 0) (written1.xlQueue 0).heapLeaf := by decide +kernel
    exact ⟨(written1.xlQueue 0).heapLeaf, (congrArg Prod.fst (test_heap written1 (written1.xlQueue 0) (0x30000 + j) m l (by decide +kernel) (hh j hj).1)).trans
      (hh j hj).2, by decide +kernel⟩

/-- O36: a batch that runs and one after it; counters above and at their limits; a barrier whose phase has passed, and one at it. -/
theorem test_wit_counters : engineReady (copying 0) (hd 7 true) [] ∧ engineReady (copying 0) (hd 7 true) [3] ∧
    (∃ c ∈ (copying 0).copies, c.gang = 1 ∧ ∃ b ∈ c.batch, (1 + 2 ^ 32 - b) % 2 ^ 32 < 2 ^ 31) ∧
    (¬ ∃ c ∈ (copying 0).copies, c.gang = 1 ∧ ∃ b ∈ c.batch, (0 + 2 ^ 32 - b) % 2 ^ 32 < 2 ^ 31) ∧ 0 < (copying 0).gang.engs.length ∧
    ¬ 1 < (copying 0).gang.engs.length := by unfold engineReady; decide +kernel

theorem test_wit_barrier : (vec).gang.loadsOut = false ∧ (vecG fun g => { g with loads := [{ id := 9, vregs := [], gregs := [], await := [1] }] }).gang.loadsOut = true ∧
    (vec).rangeTrap (vec).gang [{ sp := 1, a := 4080#72, n := 16, need := {} }] = none ∧
    (vec).spadLoc (vec).gang 1 16 4080#72 = some (1, 4080) ∧ ((vec).bcb 1 4080).phase = 0#32 ∧ (0#32 - 0xFFFFFFFF#32).toNat < 2 ^ 31 ∧
    KMap.get [] ((vec).teamAt 1).adds 4080 = [] ∧ ((vec).setCohortAt 0 { teams := [1] }).barAt 1 4080#72 = some (1, 4080) := by decide +kernel

/-! ## Levels of detail and matrices -/

/-- Under a bound queue, the table of window 0 at 0x1000 maps page 0 for reading and writing; level 0 of the header at 0 has its base at
256, its map at 512 and 100 elements. -/
def lodS : State :=
  let s := ((vec).writeNat 0 1 1).writeNat 4 4 100
  ((s.writeNat 16 8 256).writeNat 8 8 512).writeNat 512 8 1

/-- O37: a readable header with one level, an absent one, and no buffer; LDLOD.U32 v2 and SMPL v8. -/
theorem test_wit_lod :
    let f := mM (hd 7 false) 2 0 63 0 4 0 0 0 0 0
    let e := mE (hd 7 false) 8 0 0 0 0 2 0
    let x := (lodS).xlOf 1
    let hdr (s : State) := match (s.lodHeader 0#72).1 with
      | .ok b => b
      | _ => []
    (lodS).memGate f [] [{ f := f.d, n := 2, a := 2 }] [] = none ∧ (lodS).accWaits = false ∧
    (away).memGate f [] [{ f := f.d, n := 2, a := 2 }] [] = none ∧ (match ((away).lodHeader 0#72).1 with
      | .absent => true
      | _ => false) = true ∧
    (lodS).laneGate e.h [Use.of e.a true] [{ f := e.d, n := 5, a := 4 }] false false = none ∧
    (away).laneGate e.h [Use.of e.a true] [{ f := e.d, n := 5, a := 4 }] false false = none ∧
    (hdr (lodS)).length = 256 ∧ hdrKind (hdr (lodS)) = 0 ∧ hdrNlev (hdr (lodS)) = 1 ∧ lodCount (hdr (lodS)) 0 = 100 ∧
    ((lodS).mapBit (lodS).team.core x (hdr (lodS)) 0 0).1 = true ∧
    ((lodS).mapBit (lodS).team.core x (hdr (lodS)) 0 0).2.pteValid x 256 = true ∧
    ((lodS).ldlodLanes x (hdr (lodS)) 4 0 0 (fun _ => 0) lanes).2.gang.asks = [] ∧
    ((lodS).smplLanes x (hdr (lodS)) 0 false 0 (fun _ => (0, 0)) lanes).2.gang.asks = [] ∧
    (vecG fun g => { g with r := { g.r with ad := [(0, 32#72)] } }).memGate f [] [{ f := f.d, n := 2, a := 2 }] [] = none := by
  decide +kernel

/-- Without a bound queue nothing is another module's. -/
theorem test_unbound (s : State) (x : Xl) (h : x.bound = false) (va m c : Nat) (leaf : DWord) : (s.lookup x va).1 ≠ .far m c leaf := by
  simp only [State.lookup, State.lookupRaw, h, Bool.not_false, if_true]
  split <;> (simp only [State.serviced]; try split) <;> simp

/-- O37: level-of-detail accesses that stay within the module. -/
theorem test_wit_near : LodNear (lodS) 0#72 ∧ (∀ l ∈ lanes, ((lodS).gang.effAddr (mM (hd 7 false) 2 0 63 0 4 0 0 0 0 0) l - 0#72).toNat % 4 = 0) := by
  refine ⟨⟨fun va m c leaf => test_unbound _ _ (by decide +kernel) va m c leaf, fun pa leaf => ?_, fun pa => ?_, by decide +kernel, by decide, ?_⟩, by decide +kernel⟩
  · have h : ∀ p ∈ (lodS).gangs, p.2.heldList ++ p.2.commits = [] := by decide +kernel
    unfold State.lockedFor
    split
    · rfl
    · rw [List.any_eq_false]
      intro p hp
      simp [h p hp]
  · have h : ∀ d, d < 4 → ((lodS).dieAt d).cxlDown = false := by decide +kernel
    simp [State.portDown, h _ (Nat.mod_lt _ (by decide : 0 < 4))]
  · have h : ∀ o ∈ [0, 64, 128, 192], ((lodS).checkG ((lodS).xlOf (lodS).gang.team) { r := true } (0#72 + BitVec.ofNat 72 o)).1 = .ok (.mem o 0x1F#64) := by
      decide +kernel
    exact fun o ho => ⟨_, _, h o ho⟩

/-- O38: TDSET with immediates and with a register, legal and not (stride below the row's bytes), and TDGET. -/
theorem test_wit_descriptors :
    (lin).groupGate (hd 7 true) [] (!((lin).fs 0#3).ok) false = none ∧ (lin).groupGate (hd 7 true) [31] (!((lin).fs 7#3).ok) false = none ∧
    TdLegal ((lin).fs 0#3) (BitVec.ofNat 256 (7 * 2 ^ 160)) 16 ∧
    ¬ TdLegal ((lin).fs 0#3) (BitVec.ofNat 256 (7 * 2 ^ 144 + 7 * 2 ^ 160 + 16 * 2 ^ 176)) 16 := by
  unfold TdLegal rowb; decide +kernel

/-- A lintel program whose td0 is 1 × 8, td1 8 × 1 and td2 1 × 128 of F32 in G and td3 1 × 8 in C, and its engine as given. -/
def mxS (m : Mx → Mx := id) (h : Hold := .no) (w : Nat := 0xC478001000000000) : State :=
  let s := (lin w).setGangAt 1 { (lin).gangAt 1 with
    hold := h
    td := [(0, BitVec.ofNat 256 (7 * 2 ^ 160)), (1, BitVec.ofNat 256 (7 * 2 ^ 144 + 16 * 2 ^ 176)), (2, BitVec.ofNat 256 (127 * 2 ^ 160)),
           (3, BitVec.ofNat 256 (7 * 2 ^ 160 + 2 ^ 211))] }
  (s.setCohortAt 0 { teams := [1] }).setMxAt 0 (m { s.mxAt 0 with prog := some 1 })

def tdS (n : Nat) : TileDesc := (mxS).gang.tdAt n

/-- O39: each form in its state. -/
theorem test_wit_mx_ready : mxReady (mxS) (hd 7 true) [] ∧ mxReady (mxS) (hd 7 true) [31] ∧ (mxS).clusterOfGang 1 = 0 ∧
    AccOk (mxS).engine 7 false ∧ AccOk (mxS fun m => { m with valid := 0x80#8 }).engine 7 true ∧
    AccOk (mxS fun m => { m with red := true, valid := 8#8 }).engine 3 true ∧ ¬ AccOk (mxS fun m => { m with red := true }).engine 4 false ∧
    (mxS fun m => { m with valid := 0x80#8 }).engine.kind.getLsbD 7 = false := by
  unfold mxReady AccOk; decide +kernel

theorem test_wit_mx_slot : SlotOk ((mxS).fs 0#3) false ∧ ((mxS).fs 0#3).isZb = false ∧ ((mxS).fs 0#3).fmt = 0 := by
  unfold SlotOk; decide +kernel

theorem test_wit_mx_legal : (∀ al ∈ [16, 32], TdLegal ((mxS).fs 0#3) (tdS 0) al) ∧ (∀ n ∈ [1, 2, 3], TdLegal ((mxS).fs 0#3) (tdS n) 16) := by
  unfold TdLegal rowb; decide +kernel

theorem test_wit_mx_shapes : ([0, 1, 2].map fun n => (tdRows (tdS n), tdCols (tdS n))) = [(1, 8), (8, 1), (1, 128)] := by decide +kernel

/-- F32 with F32, F8 of two kinds, integers of two kinds, ZB of two widths. -/
theorem test_wit_mx_pairs : (∀ p ∈ [(0, 0), (3, 4)], MmaPair (fslot (.ofNat 32 p.1)) (fslot (.ofNat 32 p.2)) false false) ∧
    MmaPair (fslot 5#32) (fslot 6#32) true true ∧ MmaPair (fslot 0x2A12#32) (fslot 0x2A18#32) true false := by
  unfold MmaPair; decide +kernel

theorem test_wit_mx_ranges :
    let x := (mxS).fs 0#3
    (mxS).rangeTrap (mxS).gang (readRanges x (tdS 0)) = none ∧ (mxS).rangeTrap (mxS).gang (readRanges x (tdS 0) ++ readRanges x (tdS 1)) = none ∧
    (mxS).rangeTrap (mxS).gang (readRanges x (tdS 2)) = none ∧ (mxS).drainApart x (tdS 3) = none ∧
    (mxS).rangeTrap (mxS).gang (drainRanges x (tdS 3) ++ barRange ((mxS).gang.barOf (mE (hd 7 true) 0 3 0 0 0 0 0))) = none ∧
    (mxS).gang.barOf (mE (hd 7 true) 0 3 0 0 0 0 0) = none ∧ (mxS id .compared).gang.hold = .compared ∧
    (mxS).rangeTrap (mxS).gang (drainRanges x (tdS 3) ++ barRange ((mxS).gang.barOf (mE (hd 7 true 2) 0 3 0 3 0 0 0))) = none := by
  decide +kernel

/-- An operation on acc0, at its turn. -/
def opS (op : MxOp) : State := mxS fun m => { m with ops := [op], valid := 1#8 }

/-- O40: an operation that reads nothing, one that reads a tile, and a drain. -/
theorem test_wit_mx_complete :
    let z : MxOp := { id := 0, kind := .zero false, acc := 0 }
    let a : MxOp := { id := 0, kind := .ldacc, acc := 0, da := BitVec.ofNat 256 (7 * 2 ^ 160) }
    let d : MxOp := { id := 0, kind := .drain 0 0 none, acc := 0, da := BitVec.ofNat 256 (7 * 2 ^ 160 + 2 ^ 211) }
    ((opS z).mxAt 0).prog = some 1 ∧ ((opS z).mxAt 0).ops.find? (·.id == 0) = some z ∧ ((opS z).gangAt 1).hold ≠ .exiting ∧
    (match (opS a).gather 1 0 0 (.mxOpComplete 0 0) (tileRows (fslot 0#32) a.da) with
      | .ok l t => l.length == 1 && t.gangAt 1 == (opS a).gangAt 1
      | _ => false) = true ∧
    (match (opS d).gather 1 0 0 (.mxOpComplete 0 0) [] with
      | .ok l t => match t.engineWriteAll 1 2 (drainAll (fslot 0#32) ((opS d).mxAt 0) d 0 0 l).1 with
        | .ok u => (match u.engineWriteAll 1 2 (drainAll (fslot 0#32) ((opS d).mxAt 0) d 0 0 l).2.1 with
          | .ok v => (v.barArrive 1 none (drainBytes (fslot 0#32) d.da)).gangAt 1 == (opS d).gangAt 1
          | _ => false)
        | _ => false
      | _ => false) = true := by decide +kernel

/-- O40: waits, and the comparison of a redundant drain, equal and not. -/
def cmpS (v : XWord) (ops : List MxOp := []) : State :=
  mxS (fun m => { m with red := true, valid := 1#8, h0 := [(0, v)], ops := ops }) .compare 0xC578018000000000

theorem test_wit_mx_waits : (mxS).groupGate (hd 7 true) [] false false = none ∧ (mxS).engine.ops = [] ∧ (mxS).engine.red = false ∧
    (opS { id := 0, kind := .zero false, acc := 0 }).groupGate (hd 7 true) [] false false = none ∧
    (opS { id := 0, kind := .zero false, acc := 0 }).engine.ops ≠ [] ∧
    decode .lintel (((cmpS 1#34).mxAt 0).im.word (((cmpS 1#34).gangAt 1).pcOf 0)) = .ok (.mxdrain (mE (hd 7 true) 0 3 0 0 0 0 0)) ∧
    ((cmpS 1#34).gangAt 1).hold = .compare ∧ ((cmpS 1#34).mxAt 0).prog = some 1 ∧ Mismatch ((cmpS 1#34).mxAt 0) 0 0 0 0 0 ∧
    (∀ i < 1, ∀ j < 8, ¬ Mismatch ((cmpS 0#34).mxAt 0) 0 0 0 i j) ∧
    (∃ o ∈ ((cmpS 0#34 [{ id := 0, kind := .zero false, acc := 0 }]).mxAt 0).ops, o.acc = 0) := by
  unfold Mismatch; decide +kernel

/-! ## Special registers, system calls, queue commands -/

def sS (h : Header) (sreg a : Nat) : ClassS := { h := h, sreg := .ofNat 16 sreg, a := .ofNat 6 a, mod := 0#26 }

/-- O41: SRD of lanes, of the group, of a firmware register on the firmware core. -/
theorem test_wit_srd : (vec).laneGate (hd 7 false) [] [Use.of 46#6 true] false ((vec).srPriv (sS (hd 7 false) 4 46)) = none ∧
    (vec).groupGate (hd 7 true) [31] false false = none ∧ (vec).srPriv (sS (hd 7 true) 0x33 31) = false ∧
    (fw).srPriv (sS (hd 7 true) 0x8000 31) = false ∧ (fw).groupGate (hd 7 true) [31] false false = none ∧ (vec).gang.kind ≠ .lintel := by
  decide +kernel

/-- SWR in both forms, with a pair and with one register; QCFG legal, and not. -/
theorem test_wit_swr : swrReady (vec) (sS (hd 7 false) 0x20 4) false true ∧ swrReady (vec) (sS (hd 7 true) 0x20 31) false true ∧
    swrReady (vec) (sS (hd 7 false) 0x21 4) true true ∧ swrReady (vec) (sS (hd 7 true) 0x80 2) false false ∧
    swrReady (fw) (sS (hd 7 true) 0x8012 2) false false ∧ swrReady (fw) (sS (hd 7 true) 0x8007 2) false false ∧
    (vec).gang.busyG 2 = false ∧ (vec).laneGate (hd 7 false) [Use.of 4#6 true] [] false false = none ∧
    (vec).gang.busyV (Use.of 4#6 true) = false ∧ (vec).gang.anyActive 0 = true ∧ (vec).gang.geff 0 (hd 7 true) = true ∧
    (vecG fun g => { g with r := { g.r with gp := 0#8 } }).gang.geff 0 (hd 0 true) = false ∧ (∀ p ∈ (vec).gang.loads, ∀ r ∈ p.vregs, r < 48) := by
  unfold swrReady; decide +kernel

/-- GRST of a group whose member team votes, and of one that no member holds. -/
def grouped (v : Option Cast) (brk : Bool := false) : State :=
  let s := (fw).setQueueAt 0 { bound := true }
  let s := s.setGroupAt 3 { members := [{ cohid := 0, teamid := 0, rlist := 0, rarea := 0 }], broken := brk }
  (s.setCohortAt 0 { teams := [1] }).setGangAt 1 { s.gangAt 1 with vcast := v }

def oneOp : CollOp := { rank := 0, num := 0, team := 1, word := 0#64, src := 0#256, dst := 0#256, bar := none, gangs := [(1, 7)], members := 1, ring := false, units := 1 }

theorem test_wit_grst : 3 ∈ (grouped none).dieGroups (grouped none).die 3 ∧ (∀ k ∈ (grouped none).dieGroups 0 3, (grouped none).groupHeld k = false) ∧
    (∃ k ∈ ((grouped none).setGroupAt 3 { (grouped none).groupAt 3 with ops := [(0, some oneOp)] }).dieGroups 0 3,
      ((grouped none).setGroupAt 3 { (grouped none).groupAt 3 with ops := [(0, some oneOp)] }).groupHeld k = true) := by decide +kernel

/-- O42: privileged words off the firmware core. -/
theorem test_wit_privileged : (vec).gang.kind ≠ .firmware ∧ (vec).gang.busyV (Use.of 4#6 true) = false ∧ (vec).gang.badUse (Use.of 4#6 true) = false ∧
    (lin).gang.kind ≠ .firmware ∧ (lin).gang.busyG 63 = false := by decide +kernel

/-- O43: a system call to make, one that waits for its fence, one whose entry is out, and its answer. -/
theorem test_wit_sysc :
    let s := vecG fun g => { g with svent := 0x2000#64, hold := .sysc }
    (vec).groupGate (hd 7 true) [0, 1, 2, 3] false false = none ∧ (vec).engineGate = none ∧ (vec).gang.sysn = 0 ∧
    (vec).gang.fenceWaits 5 2 = false ∧ (vecG fun g => { g with stores := [7] }).gang.fenceWaits 5 2 = true ∧
    (vecG fun g => { g with sysn := 8 }).gang.sysn ≠ 0 ∧
    (s.gangAt 1).ended = false ∧ (s.teamAt 1).status = .running ∧ (s.cohortAt 0).status = .running ∧ s.qNat 0 (0x2000 + 56) 1 % 2 = 0 ∧
    (s.writeNat (0x2000 + 56) 1 1).qNat 0 (0x2000 + 56) 1 % 2 = 1 := by decide +kernel

/-- O43: TRET outside a handler and inside; an asynchronous trap taken, kept and dropped. -/
theorem test_wit_returns :
    let h := vecG fun g => { g with hstate := true, shadow := some { slices := g.slices, cnt := g.cnt }, tpc := 64#64 }
    (vec).groupGate (hd 7 true) [] false false = none ∧ (vec).gang.hstate = false ∧ (vec).gang.ahead = none ∧ h.gang.hstate = true ∧
    h.gang.shadow.isSome = true ∧ h.groupGate (hd 7 true) [] false false = none ∧
    ((hent).gangAt 1).ended = false ∧ ((hent).teamAt 1).status = .running ∧ ((hent).cohortAt 0).status ≠ .saving ∧ ((hent).gangAt 1).rel = none ∧
    ((hent).gangAt 1).commits = [] ∧ ((hent).gangAt 1).ahead = none ∧ ((hent).gangAt 1).hstate = false ∧ ((hent).gangAt 1).kind = .vector ∧
    ((hent).launchOf 1).hent ≠ 0#64 ∧ ((hent).gangAt 1).liveSlices ≠ [] ∧ ((vecG fun g => { g with ended := true }).gangAt 1).ended = true ∧
    (((vec).setTeamAt 1 { (vec).teamAt 1 with status := .saved }).teamAt 1).status = .saved := by decide +kernel

/-- A launch record at 0x4000 whose fields R311 accepts, and a queue descriptor at 0x1000 that names it. -/
def queued : State :=
  let s := (fw).writeNat 0x1000 8 0x4000
  let s := (s.writeNat 0x4008 4 1).writeNat 0x400C 4 1
  let s := ((s.writeNat 0x4010 4 1).writeNat 0x4095 3 1).writeNat 0x4050 8 0x5000
  s.setDieAt 0 { s.dieAt 0 with tlb := [{ ctxn := 0, base := 0, bits := 31, leaf := 0x1F#64 }] }

/-- O42: queue commands on a firmware core. -/
theorem test_wit_queue_commands : cmdReady (fw) (sS (hd 7 true) 0 2) [2] ∧ cmdReady (fw) (sS (hd 7 true) 63 0) [] ∧
    (fw).descOk 0 0x20 = false ∧ (fw).descOk 0 0x1000 = true ∧ ((fw).queueAt 0).bound = false ∧
    ((fw).setQueueAt 0 { bound := true }).onCores 0 = [] ∧ ((fw).stopQueue 0).onCores 0 = [] ∧ (fw).cohortsNamed 0 7#64 = [] ∧
    (∀ p ∈ ((fw).queueAt 0).cohids, p.2 ≠ 7#64) ∧ ((fw).setCohortAt 9 { cohid := 7#64, queue := 0 }).cohortsNamed 0 7#64 = [9] := by
  unfold cmdReady; decide +kernel

theorem test_wit_bind :
    let q1 := (queued).readQueue 0 0x1000
    let s1 := (queued).setQueueAt 0 q1
    let l := s1.readLaunch 0 q1.lrec
    let s2 := s1.setQueueAt 0 { q1 with launch := l }
    s2.launchWhy 0 l = none ∧ s2.placeUnsure 0 l = false ∧ (∀ p ∈ (queued).queues, p.2.bound = false ∧ p.2.parked = false) := by decide +kernel

/-- O42: PREEMPT while a cohort of the queue is being saved; KILL of a record that waits; QUNMAP after names have been given. -/
theorem test_wit_preempt :
    let s := (((fw).setQueueAt 0 { bound := true, cohids := [(3, 7#64)] }).setGang { (fw).gang with hold := .command }).setCohortAt 3
      { teams := [2], status := .saving, preempt := true }
    (∃ c ∈ s.onCores 0, (s.cohortAt c).preempt = true) ∧ s.gang.hold = .command ∧ (∃ p ∈ (s.queueAt 0).cohids, p.2 = 7#64) ∧
    s.cohortsNamed 0 7#64 = [] ∧ 1 < (((fw).setQueueAt 0 { bound := true }).stopQueue 0 |>.unbindQueue 0).nextId := by decide +kernel

/-! ## Engines and collectives -/

def fB (disp aux8 aux12 : Nat) : ClassB := mB (hd 7 true) disp aux8 0 aux12

/-- FORK: the window and the engine as the statement needs them. -/
def forkS (st : SlotState := .landed) (m : Mx := {}) (p : Option Nat := none) : State :=
  let s := vecG fun g => { g with partner := p }
  ((s.setTeamAt 1 { s.teamAt 1 with im := { (s.teamAt 1).im with slots := [(0, { st := st })] } }).setMxAt 0 m).setGangAt 5 { (s.gangAt 5) with ended := true }

theorem test_wit_fork : engineReady (forkS) (hd 7 true) [] ∧ slotOf (target (forkS).pc 8#24) = 0 ∧ ((forkS).imemOf 1).nseg = 16 ∧
    (((forkS .fetching).imemOf 1).slotAt 0).st = .fetching ∧ (((forkS).imemOf 1).slotAt 0).st = .landed ∧
    (forkS .landed {} (some 5)).gang.partner = some 5 ∧ ((forkS .landed {} (some 5)).gangAt 5).ended = true ∧
    (forkS .landed {} (some 1)).gang.partner = some 1 ∧ ((forkS .landed {} (some 1)).gangAt 1).ended = false ∧
    (forkS).clusterOfGang 1 = 0 ∧ (forkS).nextId ≠ (forkS).gk ∧ ((forkS .landed { drained := true }).mxAt 0).drained = true := by
  unfold engineReady; decide +kernel

/-- LINTEL_START: a segment that has come, and a gang that waits. -/
theorem test_wit_lintel :
    let a := forkS .landed { landing := some (1, 0#18), prog := some 6 }
    let b := (forkS .landed { forks := [(1, 8#18)] }).setGangAt 1 { (forkS).gangAt 1 with hold := .fork }
    (match a.segment (a.xlOf (a.gangAt 6).team) 0 with
      | .bytes _ _ _ => true
      | _ => false) = true ∧ (b.mxAt 0).landing = none ∧ (b.mxAt 0).forks = [(1, 8#18)] ∧ (b.gangAt 1).ended = false ∧ (b.gangAt 1).hold = .fork := by
  decide +kernel

/-- RDV: no partner, one that waits at the number, one that does not. -/
theorem test_wit_rdv :
    let s (h : Hold) := (forkS .landed {} (some 6)).setGangAt 6 { kind := .lintel, team := 1, hold := h, partner := some 1, slices := [(0, { present := true })] }
    engineReady (s .no) (hd 7 true) [] ∧ (∀ p ∈ (s .no).publs, p.gang ≠ 1) ∧ (s .no).gang.loadsOut = false ∧ (s .no).farStores = false ∧ (s .no).gang.partner = some 6 ∧
    ((s (.rdv 3)).gangAt 6).ended = false ∧ ((s (.rdv 3)).gangAt 6).hold = .rdv 3 ∧ ((s .no).gangAt 6).hold = .no ∧ (vec).gang.partner = none := by
  unfold engineReady; decide +kernel

/-- O45: SPAWN with room and without, a parent, misaligned entries; DONE, DONE.C and QDONE. -/
theorem test_wit_spawn :
    let s := vecG fun g => { g with r := { g.r with ad := [(1, 4#72), (2, 32#72)] } }
    engineReady s (hd 7 true 2) [] ∧ s.handsOff = false ∧ s.gang.adAt 0 = 0#72 ∧ (s.gang.adAt 1).toNat % 8 ≠ 0 ∧ (s.gang.adAt 2).toNat % 32 = 0 ∧
    (s.setQueueAt 0 { rs := [4, 4, 4, 4], free := 0 }).queue.full 3 = false ∧ (s.setQueueAt 0 { free := 0xFFFFFFFF }).queue.full 0 = true ∧
    ({ (vec).gang with exited := 0xFFFFFFFF#32 }).drained = true ∧
    ({ (vecG fun g => { g with stores := [5] }).gang with exited := 0xFFFFFFFF#32 }).drained = false ∧
    (vec).gang.quads = [] ∧ (vec).gang.kdirty = [] ∧ (vec).gang.ret = [] ∧ ((vec).teamAt 1).colls = [] ∧ ((vec).queueOf 1).bound = false ∧ (vec).gang.qans = none ∧
    (vecG fun g => { g with qans := some true }).gang.qans = some true := by
  unfold engineReady; decide +kernel

/-- A table of two lists at 0x1000, list 0 with room for 16 items of four words and list 1 full, and a batch of four items at 0x8000. -/
def lists : State :=
  let s := vecG fun g => { g with r := { g.r with ad := [(0, 0x1000#72), (1, 0x8000#72)] } }
  let s := (((s.writeNat 0x1000 2 2).writeNat 0x1040 8 0x4000).writeNat 0x1048 1 0x44).writeNat 0x1080 8 0x6000
  ((s.writeNat 0x10B4 4 1).writeNat 0x8000 4 4).writeNat 0x800A 1 2

theorem test_wit_lists : (lists).qNat 0 0x1000 2 = 2 ∧ ((lists).wlist 0 0x1000 0).full = false ∧ ((lists).wlist 0 0x1000 1).full = true ∧
    listReady (lists) (mE (hd 7 false) 1 0 0 0 0 4 2) 4 ∧ listReady (lists) (mE (hd 7 false) 1 0 0 0 0 8 0) 8 ∧
    (lists).laneGate (hd 7 false) [] [{ f := 8#6, n := 4, a := 4 }] false false = none ∧ (lists).engineGate = none ∧
    (lists).structGate 0x8000#72 16 { r := true, w := true } = none ∧ (lists).structGates (wlItems (0x8000 + 16) 4 0 4 32) = none ∧
    (lists).structGates ((lists).wlPlaces 0 0x1000 (lanes.map fun l => (l, 0, l))) = none ∧
    ((lists).vaNat ((lists).xlOf 1) 0x800A 1).getD 0 = 2 ∧ ((lists).vaNat ((lists).xlOf 1) 0x8000 4).getD 0 = 4 := by
  unfold listReady; decide +kernel

/-- A team that is member 0 of group 3 with two members. -/
def member (m : Nat := 2) (rwk : Bool := true) (used : Nat := 0) : State :=
  let s := (vec).setTeamAt 1 { (vec).teamAt 1 with grpm := 0x100000003#64 }
  s.setGroupAt 3 { rwk := rwk, nsl := 2, used := [(1, (used, 0))]
                   members := (List.range m).map fun i => { cohid := 0, teamid := i, rlist := 0, rarea := 0x9000 } }

theorem test_wit_wsend : ((member).groupAt 3).members.length = 2 ∧ (member).team.grpSlot 3 = some 0 ∧ (member).team.grpSlot 4 = none ∧
    (member).groupKey 1 3 = 3 ∧ (member).rankOf 1 ((member).groupAt 3) = some 0 ∧ ((member 2 false).groupAt 3).rwk = false ∧
    (member).rankMod 3 1 = (member).modn ∧ (KMap.get (0, 0) ((member 2 true 1).groupAt 3).used 1).1.testBit 0 = true ∧
    (KMap.get (0, 0) ((member 2 true 1).groupAt 3).used 1).1.testBit 1 = false ∧
    (member).laneGate (hd 7 false) [{ f := 1#6 }] [{ f := 1#6 }] false false = none ∧ (member).engineGate = none ∧
    (∀ l ∈ lanes, (member).spadLoc (member).gang 1 64 (BitVec.ofNat 72 (64 * l)) ≠ none) ∧ (member).handsOff = false := by decide +kernel

/-- COLL of 16 × 16 elements of F32 from C to C: td0 at 0, td1 at 1,024. -/
def collS (brk : Bool := false) (colls : List CollIssue := []) : State :=
  let s := (member)
  let d (a : Nat) : TileDesc := BitVec.ofNat 256 (a + 15 * 2 ^ 144 + 15 * 2 ^ 160 + 64 * 2 ^ 176 + 2 ^ 211)
  let s := s.setGangAt 1 { s.gangAt 1 with td := [(0, d 0), (1, d 1024)] }
  ((s.setTeamAt 1 { s.teamAt 1 with colls := colls }).setGroupAt 3 { s.groupAt 3 with broken := brk }).setCohortAt 0 { teams := [1] }

def collF : ClassE := mE (hd 7 true) 0 0 1 0 0 0 0x0003

theorem test_wit_coll : collReadyNow (collS) collF false 0 := by
  unfold collReadyNow SlotOk engineReady
  refine ⟨⟨?_, ?_⟩, ?_, ?_, ?_, ?_, ?_, ?_, ?_, ?_, ?_, ?_, ?_, ?_, ?_⟩ <;> first | decide +kernel | exact fun _ => ⟨1, by decide +kernel⟩

theorem test_wit_coll_first : (collS).gang.barOf collF = none ∧ ((collS true).groupAt 3).broken = true ∧
    ((collS).team.colls.find? fun c => c.grp == 3 && c.num == 0) = none ∧
    ((collS false [{ grp := 3, num := 0, word := 0#64, src := 0#256, dst := 0#256, bar := none }]).team.colls.find?
      fun c => c.grp == 3 && c.num == 0).isSome = true := by decide +kernel

/-- COMP.DEPTH of an image of 4 × 4 pixels of RGBA32F. -/
def compS : State :=
  let d (a : Nat) : TileDesc := BitVec.ofNat 256 (a + 3 * 2 ^ 144 + 3 * 2 ^ 160 + 1024 * 2 ^ 176 + 2 ^ 211 + 2 ^ 212)
  (collS).setGangAt 1 { (collS).gangAt 1 with td := [(0, d 0), (1, d 1024)] }

theorem test_wit_comp : collReadyNow (compS) collF true 0 := by
  unfold collReadyNow SlotOk engineReady
  refine ⟨⟨?_, ?_⟩, ?_, ?_, ?_, ?_, ?_, ?_, ?_, ?_, ?_, ?_, ?_, ?_, ?_⟩ <;> first | decide +kernel | exact fun _ => ⟨1, by decide +kernel⟩

/-- A unit that arrives: before its member, agreeing, and not; and a member's operation done. -/
def opOf (team : Nat) : CollOp :=
  { rank := 0, num := 0, team := team, word := 0#64, src := (collS).gang.tdAt 0, dst := (collS).gang.tdAt 1, bar := none, gangs := [(1, 7)]
    members := 2, ring := true, units := 1, fin := [(0, [5])], bytes := 4 }

def unitOf (sum : Nat) : Frame :=
  { psn := 0, cls := 8, scp := 6, ord := 2, srcm := 0, dstm := 0, sdie := 0, ddie := 0, len := 16, tag := 3, addr := 0, aux := sum * 2 ^ 112,
    body := leBytes 8 4 ++ leBytes 8 0 }

theorem test_wit_units_of_groups :
    let a := (collS).setGroupAt 3 { (collS).groupAt 3 with ops := [(0, some (opOf 1))] }
    frameGkey (unitOf 0) = 3 ∧ ((collS).groupAt 3).members ≠ [] ∧ KMap.get none ((collS).groupAt 3).ops 0 = none ∧
    (KMap.get none (a.groupAt 3).ops 0).isSome = true ∧ (opOf 1).agrees (unitOf (opOf 1).summary) = true ∧
    (opOf 1).agrees (unitOf ((opOf 1).summary + 1)) = false ∧ (a.launchOf 1).stage = 0 ∧
    (KMap.get [] a.pseen 0).contains 0 = false ∧ (KMap.get [] { a with pseen := [(2, [4, 3])] }.pseen 2).contains 4 = true := by decide +kernel

theorem test_wit_coll_complete :
    let c : CollIssue := { grp := 3, num := 0, word := 0#64, src := (opOf 1).src, dst := (opOf 1).dst, bar := none, started := true }
    let s := (collS false [c]).setGroupAt 3 { (collS).groupAt 3 with ops := [(0, some (opOf 1))] }
    ((s.teamAt 1).colls.find? fun c => c.grp == 3 && c.num == 0 && c.started) = some c ∧ s.rankOf 1 (s.groupAt 3) = some 0 ∧
    ((opOf 1).passed = false ∧ (opOf 1).needed ≤ (opOf 1).fin.length ∧ (opOf 1).comp = false) ∧ (opOf 1).gangs = [(1, 7)] ∧ (opOf 1).bar = none ∧
    ¬ ({ opOf 1 with fin := [] }).needed ≤ 0 ∧
    (let o := { opOf 1 with word := 0xD800000000001000#64, rank := 1 }
     o.comp = true ∧ o.gather = true ∧ o.rank ≠ 0 ∧ o.passed = false ∧ o.needed ≤ o.fin.length ∧ o.cur = [] ∧ o.inbox = [] ∧ s.unacked 3 o = false) ∧
    (match s.engineWriteAll 1 (tdSp (opOf 1).dst) (opOf 1).writes with
      | .ok t => (t.gangAt 1).hold != .exiting
      | _ => false) = true := by decide +kernel

/-! ## The fabric -/

/-- A bound queue of context 0 whose window 0 is mapped as it stands. -/
def home : State :=
  let s := ((vec).writeNat 0x20000 8 0x40001).writeNat 0x40000 8 0x60001
  let s := (s.writeNat 0x60000 8 0x1F).setQueueAt 0 { bound := true, ctx := { root := 0x20000 } }
  (s.setCohortAt 0 { teams := [1] }).setDieAt 0 { s.dieAt 0 with tlb := [{ ctxn := 0, base := 0, bits := 31, leaf := 0x1F#64 }] }

def fr (cls addr aux : Nat) (tag : Nat := 0) (body : List Byte := []) : Frame :=
  { psn := 0, cls := cls, scp := 6, ord := 2, srcm := 0, dstm := 0, sdie := 0, ddie := 0, len := body.length, tag := tag, addr := addr, aux := aux, body := body }

/-- O49: where a read, a write and an atomic land, and where they do not. -/
theorem test_wit_lands : LandsAt (home) (home) (fr 0 0x100 (4 * 2 ^ 16)) { r := true } 0x100 0x1F#64 [0x100, 0x101, 0x102, 0x103] ∧
    LandsAt (home) (home) (fr 2 0x100 1) { w := true } 0x100 0x1F#64 [0x100] ∧
    LandsAt (home) (home) (fr 4 0x100 0 0 (leBytes 3 (1 * 2 ^ 16 + 4 * 2 ^ 20))) { r := true, w := true } 0x100 0x1F#64 [0x100, 0x101, 0x102, 0x103] := by
  unfold LandsAt
  refine ⟨⟨?_, 0, ?_⟩, ⟨?_, 0, ?_⟩, ⟨?_, 0, ?_⟩⟩ <;> decide +kernel

theorem test_wit_access : (fr 0 0 0).psn = 0 ∧ (KMap.get [] (home).pseen 2).contains 4 = false ∧
    (home).portDown 0x100 = false ∧ (∀ i < 64, (home).portDown (0x100 + i) = false) ∧ (vec).queueWith 0 = none ∧
    (away).queueWith 0 = some 0 ∧ ((away).checkG { (away).xlQueue 0 with hlimit := 0, wmax := 0 } { r := true } 64#72).1 = .absent := by
  decide +kernel

/-- O50: a load, a store and a fence that await their answers. -/
theorem test_wit_answers :
    let s := vecG fun g => { g with loads := [{ id := 3, await := [(9, 0)] }], stores := [2 ^ 20 + 5] }
    (s.gangs.find? fun x => x.2.loads.any fun p => p.await.any fun a => a.1 == 9).map (·.1) = some 1 ∧ s.copies = [] ∧ s.fetches = [] ∧
    (s.gangs.findSome? fun x => (x.2.stores.find? fun i => i % 2 ^ 20 == 5).map fun i => (x.1, i)) = some (1, 2 ^ 20 + 5) := by decide +kernel

/-- O47, O50: a work record for list 0 and one for a full list, a page that is away, and slot updates, newer and not. -/
def recS (rlist : Nat) : State :=
  let s := lists
  let s := s.setQueueAt 0 { bound := true, launch := { wltab := 0x1000 } }
  let s := s.setDieAt 0 { s.dieAt 0 with tlb := [{ ctxn := 0, base := 0, bits := 31, leaf := 0x1F#64 }] }
  s.setGroupAt 3 { rwk := true, nsl := 2, used := [(65536, (1, 0))], taken := [(0, (0, 0))]
                   members := [{ cohid := 0, teamid := 0, rlist := rlist, rarea := 0x9000 }] }

theorem test_wit_records :
    let f := fr 6 0 0 3 (List.replicate 64 1#8)
    let w (s : State) := s.vaWrite (s.xlQueue 0) 0x9000 64 (leNat (f.body.take 64))
    frameGkey f = 3 ∧ (recS 0).launchQueue 0 = some 0 ∧ (vec).launchQueue 0 = none ∧ ((recS 0).lookup ((recS 0).xlQueue 0) 0x9000).1 ≠ .absent ∧
    ((w (recS 0)).wlist 0 0x1000 0).full = false ∧ ((w (recS 1)).wlist 0 0x1000 1).full = true ∧
    ((away).lookup ((away).xlQueue 0) 0x9000).1 = .absent := by decide +kernel

theorem test_wit_slots :
    let s := { recS 0 with sent := [{ id := 8, gang := 1, grp := 3, src := 1, dst := 0, slot := 0 }] }
    let f := fr 7 (1 + 2 ^ 32) 0 3 (leBytes 8 3 ++ leBytes 8 1)
    frameGkey f = 3 ∧ frameNum f = 0 ∧ frameWord f / 2 ^ 32 = 1 ∧ frameWord f % 2 ^ 32 = 1 ∧ leNat (f.body.take 8) = 3 ∧ leNat ((f.body.drop 8).take 8) = 1 ∧
    KMap.get (0, 0) (s.groupAt 3).used 65536 = (1, 0) ∧ KMap.get 0 (s.groupAt 3).heard 65536 = 0 ∧ (∀ r ∈ s.sent, (s.gangAt r.gang).hold ≠ .exiting) := by decide +kernel

/-! ## Graphics and rays -/

/-- A launch with one view whose entry stands at 0x2000, and a meshlet header at scratchpad 0 with its mask at 64. -/
def meshS (nv nt mask : Nat) : State :=
  let s := vecG fun g => { g with r := { g.r with ad := [(1, 64#72)] } }
  let b := leBytes 2 nv ++ leBytes 2 nt
  let spad := KMap.setAll 0#8 [] ((b.zipIdx.map fun p => (p.2, p.1)) ++ [(64, BitVec.ofNat 8 mask)])
  (s.setTeamAt 1 { s.teamAt 1 with spad := spad }).setQueueAt 0 { launch := { nview := 1, viewt := 0x2000 } }

def meshF : ClassE := mE (hd 7 true) 0 0 1 0 0 0 0

/-- O51: meshlets with too many vertices, with a view that is not there, and one to draw. -/
theorem test_wit_mesh : meshReady (meshS 129 0 0) meshF ∧ meshReady (meshS 0 0 2) meshF ∧ meshReady (meshS 0 0 1) meshF ∧
    meshNum (meshS 129 0 0) 0#72 0 2 = 129 ∧ leNat ((meshS 0 0 2).spadBytes 1 64 16) = 2 ∧ ((meshS 0 0 1).launchOf 1).nview = 1 ∧
    (meshS 0 0 1).rangeTrap (meshS 0 0 1).gang [meshRange 0#72 32, meshRange 64#72 16] = none := by
  unfold meshReady engineReady; decide +kernel

theorem test_wit_raster :
    let op : MeshOp := { id := 5, gang := 1, team := 1, off := 0, mask := 1, cull := 0, hdr := List.replicate 32 0#8 }
    let s := { (meshS 0 0 1).setCohortAt 0 { teams := [1] } with meshq := [op, { op with id := 6 }] }
    s.meshq.find? (·.id == 5) = some op ∧ s.meshq.find? (·.gang == 1) = some op ∧ (s.gangAt 1).hold ≠ .exiting ∧
    (match s.readView 0 0 with
      | .absent _ => false
      | _ => true) = true ∧ 1 ∈ (s.cohortAt 0).teams ∧ 1 ∈ (s.teamAt 1).gangs ∧ (s.gangAt 1).ended = false := by decide +kernel

def quad : Quad :=
  { owner := 2, mesh := 5, gang := 1, team := 1, view := 0, tri := 3, x := 4, y := 6, cover := 5, front := true, depth := [1, 2, 3, 4]
    attrs := [[7, 8, 9, 10]], pent := 0, pframe := 0 }

/-- O51: quads for a core that is free, and for one that is busy; a pixel gang at its end with a view and without. -/
theorem test_wit_pixels :
    let s := { vec with quads := [quad] }
    s.packQuads 2 = [quad] ∧ s.pixelBusy 2 = false ∧ (s.coreAt 2).drained = false ∧
    s.coreFits 2 true { gangs := 1, storage := 6656, reserve := 0, nseg := (s.teamAt 1).im.nseg } = true ∧
    (s.setCoreAt 2 { s.coreAt 2 with drained := true } |>.coreAt 2).drained = true := by decide +kernel

def blendS (w : Nat) : State :=
  let s := ((meshS 0 0 1).writeNat 0x2040 2 w).writeNat 0x2042 2 8
  (s.setCohortAt 0 { teams := [1] }).setGangAt 7 { quads := [quad], ended := true, team := 1, r := { k := [(0, 1#32), (1, 1#32)] } }

theorem test_wit_blend :
    (match (blendS 8).readView 0 0 with
      | .ok v => v.zbase == 0 && ((blendS 8).gangAt 7).fragments.all fun f => (blendS 8).touch ((blendS 8).xlQueue 0) (v.colorAt 0 f.x f.y) v.cs == .ok
      | _ => false) = true ∧ ((blendS 8).gangAt 7).fragments.length = 1 ∧
    (match (blendS 0).readView 0 0 with
      | .none => true
      | _ => false) = true ∧ depthPass 1 0 5 = true ∧ depthPass 1 5 5 = false := by decide +kernel

/-- O52: rays to trace, one on its way with a structure and one without, and hits. -/
theorem test_wit_rtrace :
    let a := vecG fun g => { g with stklim := 0x8000#32 }
    rayReady a (mE (hd 7 false) 40 0 0 0 0 8 0) 8 ∧ rayReady (vec) (mE (hd 7 false) 8 0 0 0 0 16 0) 8 ∧ (vec).gang.stklim.toNat < 32768 ∧
    a.accWaits = false ∧ rayReady (vec) (mE (hd 7 false) 4 0 0 0 0 8 0) 4 ∧
    ((vec).rhitLanes ((vec).xlOf 1) none false (fun _ => List.replicate 8 0) lanes).2.2.gang.asks = [] ∧
    ((vec).rhitLanes ((vec).xlOf 1) none false (fun _ => List.replicate 8 0) lanes).2.1 = [] := by
  unfold rayReady; decide +kernel

/-- O52: RHIT of a hit: a header that cannot be read, and an instance record that cannot. -/
theorem test_wit_rhit_stuck :
    let s := (((vecG fun g => { g with r := { g.r with v := [(448, 0x100#32)] } }).writeNat 8 4 1).writeNat 12 1 1).writeNat 16 8 (2 ^ 58)
    let x := s.xlOf 1
    let hr := s.rayHeader x 0#72
    rayReady s (mE (hd 7 false) 20 0 0 0 0 8 0) 4 ∧ (s.gang.vAt (8 + 6) 0).toNat.testBit 8 = true ∧
    (s.see x 0 64).2.gang.asks = [] ∧ (s.see x 0 64).1 ≠ none ∧ (s.see x (2 ^ 58) 64).1 = none ∧ (s.see x (2 ^ 58) 64).2.gang.asks = [] ∧
    (hr.2.rhitLanes x hr.1 false (fun _ => [0, 0, 0, 0, 0, 0, 0x100, 0]) [0]).2.1 = [(0, 2 ^ 58, 64)] ∧
    (hr.2.rhitLanes x hr.1 false (fun _ => [0, 0, 0, 0, 0, 0, 0x100, 0]) [0]).2.2.gang.asks = [] := by
  unfold rayReady; decide +kernel

def rayS (maxd : Nat) : State :=
  let s := (vec).writeNat 12 4 maxd
  s.setGangAt 1 { s.gangAt 1 with
    stklim := 0x8000#32
    rays := [{ id := 9, word := 0xD970200010000000#64, act := 1#32, ta := 0#72, stklim := 0x8000, rays := [] }]
    loads := [rayLoad 9 8] }

theorem test_wit_rays :
    let c (n : Nat) := { rayS n with gk := 1, pt := ((rayS n).gangAt 1).last }
    let x := (c 0).xlOf 1
    ((c 0).rayHeader x 0#72).1 = none ∧ ((c 0).rayHeader x 0#72).2.gang.asks = [] ∧ (∀ p ∈ (c 0).gang.loads, p.id = 9 ∧ p.probe = false) ∧
    (let h := (c 1).rayHeader x 0#72
     (h.1.any fun hd =>
        let r := h.2.rayLanes 0 x hd 0 0 false false (fun _ => List.replicate 8 0) [0]
        r.2.2.2.gang.asks.isEmpty && !r.2.1) = true) ∧
    (c 0).gang.rays.length = 1 ∧ (c 0).gang.ahead = none ∧ ((c 0).teamAt 1).status = .running ∧
    0xD970200010000000 / 2 ^ 42 % 2 ^ 6 = 8 := by decide +kernel

theorem test_wit_closest :
    let h : Hit := { t := 1, u := 0, v := 0, prim := 2, inst := 1, geom := 0, front := true, status := 0 }
    closest [h, { h with prim := 1 }, { h with t := 2, inst := 0 }] = some { h with prim := 1 } := by decide +kernel

/-! ## The dispatcher -/

/-- The queue of slot 0 as `f` gives it, bound, with window 0 mapped as it stands: record pool at 0x10000, ring 0 of 16 entries at 0x8000, the
launch record at 0x4000 with two cohorts of one team of one gang, free records from index 0 on. -/
def dispQ : Queue :=
  { bound := true, lrec := 0x4000, rpool := 0x10000, ps := 4, free := 0, ring := [0x8000, 0x8040, 0x8080, 0x80C0], rs := [4, 4, 4, 4]
    head := [0, 0, 0, 0], tail := [0, 0, 0, 0], launch := { cohx := 2, cohy := 1, cohz := 1, classes := 0x5000, stkn := 4 } }

def disp (f : Queue → Queue := id) : State :=
  let s := (vec).setDieAt 0 { (vec).dieAt 0 with tlb := [{ ctxn := 0, base := 0, bits := 31, leaf := 0x1F#64 }] }
  (s.setQueueAt 0 (f dispQ)).writeNat 0x10000 8 1

/-- O53: a record to make, in order and by PLACE, with one to claim and with none. -/
theorem test_wit_roots :
    let p (s : State) := s.setQueueAt 0 { s.queueAt 0 with launch := { (s.queueAt 0).launch with place := 0x6000 } }
    let done := (((p (disp)).writeNat 0x6000 8 0x8000).writeNat 0x6008 8 0x8000)
    (disp fun q => { q with ps := 0 }).canMake 0 = true ∧ (vec).canMake 0 = false ∧ (p (disp fun q => { q with ps := 0 })).canMake 0 = true ∧
    (p (disp)).scanPlace 0 4096 0 = (some 0, 1) ∧ done.scanPlace 0 4096 0 = (none, 2) := by decide +kernel

/-- A record, new or of a saved cohort, at the head of ring 0, with room on the die and with none. -/
def ringed : State := disp fun q => { q with tail := [1, 0, 0, 0] }
def held : State :=
  (disp fun q => { q with heads := [(0, 0x10020, some 9)] }).setCohortAt 9 { queue := 0, crec := 0x10020#64, status := .ready, teams := [9], frames := [0x20000] }
    |>.setTeamAt 9 { cohort := 9, gangs := [90], status := .saved, im := { nseg := 1 } } |>.setGangAt 90 { team := 9, slices := eightSlices }

theorem test_wit_placement : (vec).nextSlot 0 = none ∧ (ringed).nextSlot 0 = some 0 ∧ (ringed).pickRing 0 = some (0, 0) ∧
    (ringed).headOf 0 0 = some (0x10000, none) ∧ (held).headOf 0 0 = some (0x10020, some 9) ∧ (held).nextSlot 0 = some 0 ∧
    (ringed).regionsFor 0 0x10000 1 = some [0] ∧ (disp fun q => { q with launch := { q.launch with stkn := 0 } }).regionsFor 0 0x10000 1 = none ∧
    ((ringed).placeOn 0 false false [(Shape.of 0).need]).isSome = true := by decide +kernel

/-- O54: a saved cohort that may be restored, one whose stores are out, one without room; answers. -/
theorem test_wit_restore : ((held).cohortAt 9).status = .ready ∧ (held).atHead 9 = true ∧ (held).restoreWaits 9 = false ∧
    ((held).queueAt ((held).cohortAt 9).queue).bound = true ∧ ((held).cohortAt 9).teams.Nodup ∧
    (∀ k ∈ (held).gangsOf 9 ++ ((held).cohortAt 9).lintel.toList, ((held).gangAt k).hold ≠ .exiting) ∧
    ((held).placeOn 0 false false (((held).cohortAt 9).teams.map (held).needOf)).map (·.2.length) = some ((held).cohortAt 9).teams.length ∧
    ((held).setGangAt 90 { team := 9, stores := [5] }).restoreWaits 9 = true ∧
    ((held).placeOn 0 false false (((held).cohortAt 9).teams.map (held).needOf)).isSome = true ∧
    ((held).setTeamAt 9 { (held).teamAt 9 with spsz := 655376 }).placeOn 0 false false
      (((held).cohortAt 9).teams.map ((held).setTeamAt 9 { (held).teamAt 9 with spsz := 655376 }).needOf) = none ∧
    ((held).teamAt 9).gangs = [90] ∧ ((held).gangAt 90).ended = false ∧ ((held).gangAt 90).hold ≠ .exiting ∧ (disp).atHead 9 = false := by
  decide +kernel

def answered (v : Nat) (frames : List Nat) : State :=
  let s := (held).setCohortAt 9 { (held).cohortAt 9 with status := .faulted, posted := [{ entry := 0x30000, va := 64#72 }], frames := frames }
  { s.writeNat 0x30018 1 v with engFaults := [{ id := 4, entry := 0x30000, va := 64#72, queue := 0, gang := 1, go := .qdtWave 0 }] }

theorem test_wit_answered : (answered 1 []).allAnswered 9 = true ∧ (answered 0 []).allAnswered 9 = false ∧ (answered 3 []).allAnswered 9 = true ∧
    (answered 1 []).entryAns 0 0x30000 = (true, false) ∧ (answered 3 []).entryAns 0 0x30000 = (true, true) ∧
    (answered 1 [8]).allAnswered 9 = true ∧ (answered 0 []).entryAns 0 0x30000 = (false, false) ∧
    ((answered 1 []).engFaults.find? (·.id == 4)).isSome = true := by decide +kernel

/-- O55: a head that has waited, where another die advertises room, and its arrival. -/
def waited (full : Bool := false) : State :=
  let s := ringed
  let s := s.setQueueAt 64 { s.queueAt 0 with tail := [if full then 16 else 0, 0, 0, 0] }
  { s.setDieAt 0 { s.dieAt 0 with advert := [(1, 8)] } with clock := 100000 }

theorem test_wit_migration : (waited).headOf 0 0 = some (0x10000, none) ∧ micros ((waited).dieAt 0).migt ≤ (waited).clock ∧
    (waited).migrateTo 0 ((waited).headGangs 0 (0x10000, none)) = some 64 ∧ ((waited).queueAt 64).full 0 = false ∧ ((waited true).queueAt 64).full 0 = true ∧
    ¬ micros ((ringed).dieAt 0).migt ≤ (ringed).clock ∧ (ringed).migrateTo 0 1 = none ∧ (vec).headOf 0 0 = none ∧
    (waited).mayLeave 0 (0x10000, none) = false ∧
    ((waited).writeNat (0x4000 + 232) 8 99).mayLeave 0 (0x10000, none) = true ∧ ((waited).writeNat 0x10010 8 0).homeQueue 0 0x10000 = 0 ∧
    ((waited).queueAt 64).bound = true ∧ ((waited).queueAt 64).rs.getD 0 0 = 4 ∧ (waited).recCtl 0 0x10000 % 4 = 0 ∧
    ((waited).queueAt 64).key = ((waited).queueAt 0).key ∧
    ((waited).sendRecord 0 64 (0x10000, none)).moving.find? (fun m => m.1 == 64 && m.2.1 == 0x10000) = some (64, 0x10000, 0) := by decide +kernel

/-- O55: a watchdog that acts and one that does not; waves; a list whose oldest item has waited; a shoot-down. -/
theorem test_wit_timers :
    let s := { disp with clock := 10000 }
    s.heldFor 1 1 = true ∧ s.heldFor 1 9 = false ∧ (disp).queuesOf 0x4000 = [0] ∧ (disp).queuesOf 8 = [] ∧
    (((disp).setCohortAt 0 { teams := [1] }).waveZero 0x4000).1 = false ∧ ((disp).setCohortAt 0 { teams := [1] }).zeroHere 0x4000 = false := by decide +kernel

theorem test_wit_waves :
    let s := (disp).setCohortAt 0 { queue := 64 }
    let l := recS 0
    let w := (l.setCohortAt 0 { queue := 64 }).writeNat 0x1074 4 3
    (s.waveZero 0x4000).1 = true ∧ s.zeroHere 0x4000 = true ∧ s.runsAway 0x4000 = false ∧ (s.writeNat (0x4000 + 232) 8 99).runsAway 0x4000 = true ∧
    s.fullLists 0x4000 = [] ∧ (KMap.get ({} : Qdt) s.qdt 0x4000).zero = false ∧
    (KMap.get ({} : Qdt) ({ s with qdt := [(0x4000, { zero := true })] }).qdt 0x4000).zero = true ∧
    (w.waveZero 0).1 = true ∧ w.fullLists 0 ≠ [] := by decide +kernel

theorem test_wit_flush :
    let s := (recS 0).setQueueAt 0 { (recS 0).queueAt 0 with appended := [(0, [5])] }
    (s.queueAt 0).launch.wltab ≠ 0 ∧ KMap.get [] (s.queueAt 0).appended 0 = [5] ∧ s.clock < 5 + (s.wlist 0 0x1000 0).flush ∧
    5 + (s.wlist 0 0x1000 0).flush ≤ ({ s with clock := 5 }).clock ∧
    ((home).vaNat (physXl 0) (0 + 72) 4).getD 0 = ((home).vaNat (physXl 0) (0 + 76) 4).getD 0 ∧
    (((home).writeNat 72 4 1).vaNat (physXl 0) (0 + 72) 4).getD 0 ≠ (((home).writeNat 72 4 1).vaNat (physXl 0) (0 + 76) 4).getD 0 := by
  decide +kernel

/-! ## Kiln, host port, boot -/

/-- O56: a timer with no pass under way and with one; a pass that drains, one that has timed out, one that is scanned. -/
def kilned (p : Kiln) (t : Nat := 0) : State :=
  let s := { (State.reset) with clock := t }
  s.setDieAt 0 { s.dieAt 0 with corePass := some p, clusPass := some p }

theorem test_wit_kiln : (State.reset.dieAt 0).corePass = none ∧ State.reset.nextCore 0 = some 0 ∧
    (∃ p, ((kilned { unit := 0, start := 0 }).dieAt 0).clusPass = some p ∧ p.unit = clusterOf 5) ∧
    (kilned { unit := 3, start := 0 }).drainedEmpty false { unit := 3, start := 0 } = true ∧
    (kilned { unit := 3, start := 0 }).drainedEmpty true { unit := 3, start := 0 } = true ∧
    (vec).drainedEmpty false { unit := 1, start := 0 } = false ∧ ((kilned { unit := 3, start := 0 } 17500000).clock = 17500000) ∧
    (State.reset.coreAt 5).shut = false := by
  refine ⟨by decide +kernel, by decide +kernel, ⟨_, rfl, by decide +kernel⟩, ?_⟩; decide +kernel

/-- A consumed error of a cohort of a bound queue, and of one of none. -/
theorem test_wit_error : ((home).queueAt ((home).cohortAt 0).queue).bound = true ∧ ((home).cohortAt 0).teams ≠ [] ∧
    ((vec).queueAt ((vec).cohortAt 0).queue).bound = false := by decide +kernel

/-- O57: a host queue of four entries, as each clause has it; a function bound to a context; a read that is out. -/
def hostS (f : HQueue → HQueue := id) (b : Byte := 1#8) : State :=
  let s := (home).setFn 2 { ctx := some {}, queues := [(1, f { qbase := 0x3000, qlog := 2, lt := 1 })] }
  { s.writeNat 0x3000 1 b.toNat with pcieOut := [{ id := 7, gang := 1, addr := 64, body := none, len := 4, ro := false, pasid := none }] }

theorem test_wit_host :
    let r := fun (n : Nat) (q : HQueue) => { q with reads := n }
    ((hostS).hqAt 2 1).qlog = 2 ∧ ((hostS).hqAt 2 1).head ≠ ((hostS).hqAt 2 1).lt ∧
    (((hostS).hqEntry 2 1).1.headD 0#8).getLsbD 0 = ((hostS).hqAt 2 1).phase ∧
    (((hostS id 0#8).hqEntry 2 1).1.headD 0#8).getLsbD 0 ≠ ((hostS).hqAt 2 1).phase ∧ ((hostS (r 15)).hqAt 2 1).reads = 15 ∧
    ((vec).hqAt 2 1).qlog = 0 ∧ (hostS).barPas 2 0x3000 4 { w := true } = some [0x3000, 0x3001, 0x3002, 0x3003] ∧
    ((hostS fun q => { q with reads := 3, baddb := true }).hqAt 2 1).reads = 3 ∧ ((hostS fun q => { q with baddb := true }).hqAt 2 1).reads = 0 ∧
    (vec).barPas 2 0x3000 4 { w := true } = none ∧ (∀ a ∈ [0x3000, 0x3001, 0x3002, 0x3003], (hostS).portDown a = false) ∧
    (hostS).inbound = [] ∧ (hostS).lockedPas [0x3000, 0x3001, 0x3002, 0x3003] = false ∧
    ((hostS).pcieOut.find? fun q => q.id == 7 && q.gang == 1 && q.body.isNone).isSome = true := by decide +kernel

/-- O57: a posted write behind another of its requester, and one to bytes that a held atomic locks. -/
theorem test_wit_inbound :
    let e := Instr.inboundPostedWrite 2 9 0x3000 [1#8] false
    let w := Instr.inboundPostedWrite 2 9 0x3004 [1#8] false
    let s := (hostS).setGangAt 9 { commits := [{ space := 0, bytes := [], scp := 0, ord := 0, locks := [(0, 0x3000 / 32)] }] }
    ({ hostS with inbound := [w] }.inbound.find? fun i => requesterOf i == some 9) = some w ∧ w ≠ e ∧ s.lockedPas [0x3000] = true ∧
    s.barPas 2 0x3000 1 { w := true } = some [0x3000] := by decide +kernel

/-- O57: a posted write with relaxed ordering behind another of its requester, to a page that is not ordered-inbound. -/
theorem test_wit_relaxed :
    let e := Instr.inboundPostedWrite 2 9 0x3000 [1#8] true
    let w := Instr.inboundPostedWrite 2 9 0x3004 [1#8] false
    ({ hostS with inbound := [w] }.inbound.find? fun i => requesterOf i == some 9) = some w ∧ w ≠ e ∧
    { hostS with inbound := [w] }.barOi 2 0x3000 1 = false := by decide +kernel

/-- A read of BAR2 at the CXL memory of a die whose link is down. -/
theorem test_wit_link_down :
    let s := (hostS).setDieAt 0 { (hostS).dieAt 0 with cxlDown := true, tlb := [{ ctxn := 0, base := 0, bits := 17, leaf := BitVec.ofNat 64 (2 ^ 55 + 0x1F) }] }
    (match s.barPas 2 0 4 { r := true } with
      | some pas => pas.any s.portDown
      | none => false) = true := by decide +kernel

/-- The stages of a start: each in its turn and out of it. -/
theorem test_wit_boot :
    let at_ (n : Nat) : State := { State.reset with boot := { stage := n } }
    (at_ 1).boot.stage = 1 ∧ (at_ 2).boot.stage ≠ 1 ∧ (at_ 2).boot.halted = false ∧ (at_ 3).boot.stage = 3 := by decide +kernel

/-- O58: at stage 3 with no host queue written, every latched tail stands at HEAD. -/
theorem test_wit_tails : ∀ fn q, (({ State.reset with boot := { stage := 3 } } : State).hqAt fn q).reads = 0 ∧
    (({ State.reset with boot := { stage := 3 } } : State).hqAt fn q).head = (({ State.reset with boot := { stage := 3 } } : State).hqAt fn q).lt :=
  fun _ _ => ⟨rfl, rfl⟩

/-- A state in canonical form whose step answers a next one. -/
theorem test_wit_step_form : ((vec 0x1170000000000000)).memWf = true ∧
    (match step { State.reset.withFetchWord 64 0x0070000000000000 with gk := 0 } with
      | .next t => t.memWf
      | _ => false) = true := by decide +kernel

/-! ## Values from the spec's own examples -/

/-- R49's example: the draw, and 0x3F806000 to BF16 under SR. -/
theorem test_sr : xorShift 1#32 = 0x42021#32 ∧ (fmtBF16.convert (.sr 0x2021) false (fmtF32.decode 0x3F806000)).1 = 0x3F80 ∧
    (fmtBF16.convert (.sr 0xA000) false (fmtF32.decode 0x3F806000)).1 = 0x3F81 := by decide +kernel

/-- R55's example: 3.0, −1.0, 0.5 and zeros packed as ZB4. -/
theorem test_pack :
    let b := zbCompute 4 false (List.replicate 32 .rn) (([0x40400000, 0xBF800000, 0x3F000000] ++ List.replicate 29 0).map fmtF32.decode)
    b.scale = 0x80B7 ∧ b.mants.take 4 = [7, 14, 1, 0] ∧ b.flags = flagNX := by decide +kernel

/-- R53's table: finite overflow into E4M3, and into F16 under RZ and RN. -/
theorem test_overflow : (fmtE4M3.convert .rn true (fmtF32.decode 0x43FA0000)) = (0x7E, flagSV ||| flagNX) ∧
    (fmtE4M3.convert .rn false (fmtF32.decode 0x43FA0000)) = (0x7F, flagOF) ∧
    (fmtF16.convert .rz false (fmtF32.decode 0x47C35000)) = (0x7BFF, flagOF ||| flagNX) ∧
    (fmtF16.convert .rn false (fmtF32.decode 0xC7C35000)) = (0xFC00, flagOF ||| flagNX) := by decide +kernel

/-- SHA-384 of 96 zero bytes (FIPS 180-4). -/
theorem test_sha : sha384 0#384 0#384 =
    0xf57bb7ed82c6ae4a29e6c9879338c592c7d42a39135583e8ccbe3940f2344b0eb6eb8503db0ffd6a39ddd00cd07d8317#384 := by decide +kernel

/-- R119: IADD wraps in 32 bits; the lane writes nothing beside its destination. -/
theorem test_iadd : (match exec (.iadd (mA (hd 7 false) 1 2 3 0 0)) (vecG fun g => { g with r := { g.r with v := [(64, 0xFFFFFFFF#32), (96, 2#32)] } }) with
    | .next t => (t.gang.vAt 1 0, t.gang.vAt 1 1, t.gang.vAt 2 0)
    | _ => (0#32, 0#32, 0#32)) = (1#32, 0#32, 0xFFFFFFFF#32) := by decide +kernel

/-- A store and the load that follows it (R223): ST.G.U32 of v4 of lane 0 at ad0, and the byte order. -/
theorem test_store_bytes :
    (match exec (.st (mM (hd 1 false) 4 0 0 2 4 0 0 0 0 0)) (vecG fun g => { g with r := { g.r with k := [(1, 1#32)], v := [(128, 0x04030201#32)] } }) with
      | .next t => (List.range 4).map t.byteHome
      | _ => []) = [1#8, 2#8, 3#8, 4#8] := by decide +kernel

/-! ## The assembly language (R407 to R418): the words and verdicts of the listing `fill` -/

/-- The word that a written instruction assembles to at IMEM address 0, with the symbols of `fill`. -/
def asmWord (s : String) : Except Nat (BitVec 64) :=
  match Asm.bodyOf (Asm.lex 100 s.toList) with
  | .ins c n ms args =>
    match Asm.operands args with
    | .ok ops => Asm.assembleWord { env := [("out", .data 4), ("N", .num 6)], kernel := 0, pc := 0, lintel := false, nest := (0, 0) } c n ms ops
    | .error c => .error c
  | _ => .error 1

def asmIs (s : String) (w : BitVec 64) : Bool := match asmWord s with
  | .ok x => x == w
  | .error _ => false

def asmErr (s : String) (c : Nat) : Bool := match asmWord s with
  | .ok _ => false
  | .error x => x == c

/-- the listing's first three words -/
theorem test_asm_fill_a : asmIs "SRD v0, LANEID" 0xE070000000000000#64 = true ∧ asmIs "ADSET ad0, out" 0x3C78000800000004#64 = true ∧
    asmIs "ICMP.LT.U32 k1, v0, N" 0x3970040200000006#64 = true := by decide

/-- the listing's last two words -/
theorem test_asm_fill_b : asmIs "(k1) ST.G.U32 [ad0 + v0*4], v0" 0x8110000140000000#64 = true ∧ asmIs "EXIT" 0x1170000000000000#64 = true := by decide

/-- `ADSET ad0, 0x40_0000_0000` takes the least shift (R84); the transient form writes D as 0, and with a destination it is E3 (R411) -/
theorem test_asm_variants : asmIs "ADSET ad0, 0x40_0000_0000" 0x3C78000140000000#64 = true ∧
    asmIs "FFMA.F32.RN.T v1, v2, v4" 0x4374001084000000#64 = true ∧ asmErr "IADD.T v3, v0, 1" 3 = true := by decide

/-- R414's and R410's errors: a number where a branch target stands, a modifier out of order, a number without an immediate form -/
theorem test_asm_errors : asmErr "BRA 5" 3 = true ∧ asmErr "ICMP.U32.LT k1, v0, N" 2 = true ∧ asmErr "FADD.F32 v1, v2, 3" 5 = true ∧
    asmErr "(gp1) MOV v1, v2" 12 = true := by decide

/-- the forward `.equ` of R418 is error E9 on its line, and there is no object -/
theorem test_asm_forward : (match Asm.assemble ".equ N, M\n.equ M, 6" with
    | .ok _ => false
    | .error l => l == [{ line := 1, code := 9 }]) = true := by decide

/-- R408: rows of operators, grouping from the left, truncation toward zero -/
theorem test_asm_expr : (match Asm.exprOf (Asm.lex 60 "7 - 2 - 1 << 2 | (3 ^ 5) & -7 / 2 * -2".toList) with
    | some e => match e.number [] (-1000) 1000 with
      | .ok n => n == 22
      | .error _ => false
    | none => false) = true := by decide

/-- R96's loop of `clamp3`: BREAK resumes at its ENDIF with one IF open, ENDIF at the ENDLOOP, ENDLOOP behind the LOOP -/
theorem test_asm_nest :
    let it := fun (pc : Nat) (n : String) => ({ line := pc / 8, pc := pc, cond := none, name := n, mods := [], args := [] } : Asm.Item)
    let l := [it 32 "LOOP", it 48 "IF", it 56 "BREAK", it 64 "ENDIF", it 80 "ENDLOOP"]
    let m := Asm.matchUp l [] [] []
    m.2 = [] ∧ (l.map fun i => match Asm.nestOf m.1 i with
      | .ok n => n
      | .error _ => (99, 99)) = [(6, 0), (2, 0), (1, 1), (2, 0), (-5, 0)] := by decide

end Sys2Proof.Tests
end

section
/-! Every step keeps memory in its canonical form (log entry 1): for each function of the model, that it keeps the form. -/

namespace Sys2Proof.Machine

/-! ## The canonical form as a predicate, and the rules of the control structures (log entry 1) -/

/-- Memory is in its canonical form. A predicate of its own, so that a proof follows the functions of the model by their names:
`.setGang (.post h)` is the form of memory after a post and a write to the issuing gang. -/
def State.MemForm (s : State) : Prop := s.memWf = true

/-- The state of a pending result, where there is one. -/
def OptForm (o : Option State) : Prop := ∀ t, o = some t → t.MemForm

/-- A meaning keeps the form of memory: its next state has it. -/
def Res.MemForm (r : Res) : Prop := ∀ t, r = .next t → t.MemForm

/-- The state that a plan of accesses ends or goes on with. -/
def Plan.MemForm : Plan → Prop
  | .stop s => s.MemForm
  | .go s _ => s.MemForm

/-- The state after an engine's write, where it is made. -/
def Wrote.MemForm : Wrote → Prop
  | .ok s => s.MemForm
  | _ => True

/-- The state after an engine's reads, where they are made or wait. -/
def Gathered.MemForm : Gathered → Prop
  | .ok _ s => s.MemForm
  | .wait s => s.MemForm
  | _ => True

/-- The state at the end of a matrix operation. -/
def MxEnd.MemForm : MxEnd → Prop
  | .ok s _ _ => s.MemForm
  | .bad s _ => s.MemForm
  | .wait s => s.MemForm
  | .absent .. => True

section Rules

variable {s t : State} {α β : Type}

theorem State.MemForm.ite {c : Prop} [Decidable c] (hs : s.MemForm) (ht : t.MemForm) : (if c then s else t).MemForm := by
  split
  · exact hs
  · exact ht

/-- A function that is run only on a condition. -/
theorem State.MemForm.when {c : Prop} [Decidable c] (hs : s.MemForm) (ht : s.MemForm → t.MemForm) :
    (if c then t else s).MemForm := .ite (ht hs) hs

theorem State.MemForm.unless {c : Prop} [Decidable c] (hs : s.MemForm) (ht : s.MemForm → t.MemForm) :
    (if c then s else t).MemForm := .ite hs (ht hs)

/-- An update of any fields but `mem` keeps the form of memory. -/
theorem State.MemForm.upd {s : State} {
    clock due runq fused turn gk pt fresh nextId gangs teams cohorts queues mx tags log vclock copies publs fetches
    sagger dies cores boot engFaults spills aper pcieOut fns cmds hostOut away moving plim pnow thr hot kfail ways
    badFrames inbound parked modn psn net pseen rto posts groups slotted sent qdt meshq quads}
    (h : s.MemForm) :
    State.MemForm {
      clock, due, runq, fused, turn, gk, pt, fresh, nextId, gangs, teams, cohorts, queues, mx, mem := s.mem, tags,
      log, vclock, copies, publs, fetches, sagger, dies, cores, boot, engFaults, spills, aper, pcieOut, fns, cmds,
      hostOut, away, moving, plim, pnow, thr, hot, kfail, ways, badFrames, inbound, parked, modn, psn, net, pseen,
      rto, posts, groups, slotted, sent, qdt, meshq, quads } := h

/-- A loop keeps the form of memory where each round does. -/
theorem State.MemForm.foldl {f : State → α → State} {l : List α} (hs : s.MemForm)
    (hf : ∀ t a, t.MemForm → (f t a).MemForm) :
    (l.foldl f s).MemForm := by
  induction l generalizing s with
  | nil => exact hs
  | cons a r ih => exact ih (hf s a hs)

/-- The same for a loop that carries more than the state. -/
theorem State.MemForm.foldl_with {f : β → α → β} {st : β → State} {l : List α} {b : β} (hb : (st b).MemForm)
    (hf : ∀ b a, (st b).MemForm → (st (f b a)).MemForm) : (st (l.foldl f b)).MemForm := by
  induction l generalizing b with
  | nil => exact hb
  | cons a r ih => exact ih (hf b a hb)

theorem State.MemForm.foldl_snd {f : β × State → α → β × State} {l : List α} {b : β × State} (hb : b.2.MemForm)
    (hf : ∀ b a, b.2.MemForm → (f b a).2.MemForm) : (l.foldl f b).2.MemForm := .foldl_with (st := Prod.snd) hb hf

theorem State.MemForm.of_snd {p : α × State} {a : α} (e : p = (a, s)) (h : p.2.MemForm) : s.MemForm := by
  rw [e] at h
  exact h

theorem State.MemForm.of_fst {p : State × α} {a : α} (e : p = (s, a)) (h : p.1.MemForm) : s.MemForm := by
  rw [e] at h
  exact h

theorem OptForm.of_eq {o : Option State} (e : o = some s) (h : OptForm o) : s.MemForm := h s e

theorem OptForm.of_eq_pair {o : Option (α × State)} {a : α} (e : o = some (a, s)) (h : OptForm (o.map (·.2))) : s.MemForm :=
  h s (by rw [e]; rfl)

theorem OptForm.none : OptForm none := fun _ e => nomatch e

theorem OptForm.some (h : s.MemForm) : OptForm (some s) := fun _ e => Option.some.inj e ▸ h

theorem OptForm.ite {c : Prop} [Decidable c] {o p : Option State} (ho : OptForm o) (hp : OptForm p) :
    OptForm (if c then o else p) := by
  split
  · exact ho
  · exact hp

/-- What a function that keeps the form makes of a state that may be there. -/
theorem OptForm.map {o : Option α} {f : α → State} (h : ∀ a, o = Option.some a → (f a).MemForm) : OptForm (o.map f) := by
  intro t e
  obtain ⟨a, ha, rfl⟩ := Option.map_eq_some_iff.1 e
  exact h a ha

theorem State.MemForm.getD_snd {o : Option (α × State)} {a : α} (ho : OptForm (o.map (·.2))) (hs : s.MemForm) :
    (o.getD (a, s)).2.MemForm := by
  cases o with
  | none => exact hs
  | some p => exact ho p.2 rfl

theorem Res.MemForm.next (h : s.MemForm) : Res.MemForm (.next s) := fun _ e => Host.Outcome.next.inj e ▸ h

theorem Plan.MemForm.of_eq {p q : Plan} (e : p = q) (h : p.MemForm) : q.MemForm := e ▸ h

theorem Plan.MemForm.stop (h : s.MemForm) : (Plan.stop s).MemForm := h

theorem Plan.MemForm.go {l : List Acc} (h : s.MemForm) : (Plan.go s l).MemForm := h

theorem Wrote.MemForm.of_eq {p q : Wrote} (e : p = q) (h : p.MemForm) : q.MemForm := e ▸ h

theorem Wrote.MemForm.ok (h : s.MemForm) : (Wrote.ok s).MemForm := h

theorem Wrote.MemForm.absent {va : VAddr} : (Wrote.absent va).MemForm := trivial

theorem Wrote.MemForm.bad {va : VAddr} : (Wrote.bad va).MemForm := trivial

theorem Wrote.MemForm.locked : Wrote.locked.MemForm := trivial

theorem Gathered.MemForm.of_eq {p q : Gathered} (e : p = q) (h : p.MemForm) : q.MemForm := e ▸ h

theorem Gathered.MemForm.ok {l : List (Nat × List Byte)} (h : s.MemForm) : (Gathered.ok l s).MemForm := h

theorem Gathered.MemForm.wait (h : s.MemForm) : (Gathered.wait s).MemForm := h

theorem Gathered.MemForm.absent {va : VAddr} : (Gathered.absent va).MemForm := trivial

theorem Gathered.MemForm.bad {va : VAddr} : (Gathered.bad va).MemForm := trivial

theorem MxEnd.MemForm.of_eq {p q : MxEnd} (e : p = q) (h : p.MemForm) : q.MemForm := e ▸ h

theorem MxEnd.MemForm.ok {m : Mx} {fl : DWord} (h : s.MemForm) : (MxEnd.ok s m fl).MemForm := h

theorem MxEnd.MemForm.bad {va : VAddr} (h : s.MemForm) : (MxEnd.bad s va).MemForm := h

theorem MxEnd.MemForm.wait (h : s.MemForm) : (MxEnd.wait s).MemForm := h

theorem MxEnd.MemForm.absent {va : VAddr} {acc : Nat} : (MxEnd.absent va acc).MemForm := trivial

end Rules

/-! ## What the memory operations do to the form -/

section Functions

variable {s : State}

theorem State.MemForm.fold (h : s.MemForm) : s.fold.MemForm := State.fold_memWf h

theorem State.MemForm.store {d : Nat} {b : List (Nat × Byte)} {ts : List Tag} (h : s.MemForm) :
    (s.store d b ts).2.MemForm :=
  State.store_memWf d b ts h

theorem State.MemForm.force {c : List Nat} (h : s.MemForm) : (s.force c).MemForm := State.force_memWf c h

theorem State.MemForm.writeNow {d : Nat} {b : List (Nat × Byte)} {ts : List Tag} (h : s.MemForm) :
    (s.writeNow d b ts).MemForm :=
  State.writeNow_memWf d b ts h

theorem State.MemForm.vaWrite {x : Xl} {va n v : Nat} (h : s.MemForm) : (s.vaWrite x va n v).MemForm :=
  State.vaWrite_memWf x va n v h

theorem State.MemForm.spadWrite {t off : Nat} {b : List Byte} {ts : List Tag} (h : s.MemForm) :
    (s.spadWrite t off b ts).MemForm :=
  State.spadWrite_memWf t off b ts h

/-! ### The functions of Machine/Base -/

theorem State.MemForm.setGangAt {k : Nat} {g : Gang} (h : s.MemForm) : (s.setGangAt k g).MemForm := h

theorem State.MemForm.setTeamAt {k : Nat} {t : Team} (h : s.MemForm) : (s.setTeamAt k t).MemForm := h

theorem State.MemForm.setCohortAt {k : Nat} {c : Cohort} (h : s.MemForm) : (s.setCohortAt k c).MemForm := h

theorem State.MemForm.setQueueAt {k : Nat} {q : Queue} (h : s.MemForm) : (s.setQueueAt k q).MemForm := h

theorem State.MemForm.setMxAt {k : Nat} {m : Mx} (h : s.MemForm) : (s.setMxAt k m).MemForm := h

theorem State.MemForm.setDieAt {k : Nat} {d : Die} (h : s.MemForm) : (s.setDieAt k d).MemForm := h

theorem State.MemForm.setCoreAt {k : Nat} {c : Core} (h : s.MemForm) : (s.setCoreAt k c).MemForm := h

theorem State.MemForm.mapCores {f : Nat → Core → Core} (h : s.MemForm) : (s.mapCores f).MemForm :=
  .foldl h fun _ _ h1 => .setCoreAt h1

theorem State.MemForm.setGang {g : Gang} (h : s.MemForm) : (s.setGang g).MemForm := .setGangAt h

theorem State.MemForm.setTeam {t : Team} (h : s.MemForm) : (s.setTeam t).MemForm := .setTeamAt h

theorem State.MemForm.owe {l : List Instr} (h : s.MemForm) : (s.owe l).MemForm := h

theorem State.MemForm.freeVal (h : s.MemForm) : s.freeVal.2.MemForm := h

theorem State.MemForm.freePick {n : Nat} (h : s.MemForm) : (s.freePick n).2.MemForm := h

/-! ### The functions of Machine/Memory -/

theorem State.MemForm.setClock {d : Nat} {c : List Nat} (h : s.MemForm) : (s.setClock d c).MemForm := h

theorem State.MemForm.noteRead {d : Nat} {pas : List Nat} (h : s.MemForm) : (s.noteRead d pas).MemForm :=
  .ite h (.setClock h)

theorem State.MemForm.ageTlb {x : Xl} {va : Nat} (h : s.MemForm) : (s.ageTlb x va).MemForm :=
  .foldl h fun _ _ h1 => .ite (.freePick h1) (.setDieAt (.freePick h1))

theorem State.MemForm.fillTlb {x : Xl} {va : Nat} {e : TlbEnt} (h : s.MemForm) : (s.fillTlb x va e).MemForm := .setDieAt h

theorem State.MemForm.xlate {x : Xl} {va : Nat} (h : s.MemForm) : (s.xlate x va).2.MemForm := by
  unfold State.xlate
  extract_lets
  split
  · exact .fillTlb (.ageTlb h)
  · exact .ageTlb h

theorem State.MemForm.vaRelease {x : Xl} {scp va n v : Nat} (h : s.MemForm) : (s.vaRelease x scp va n v).MemForm :=
  .writeNow h

theorem State.MemForm.checkG {x : Xl} {n : Need} {va : VAddr} (h : s.MemForm) : (s.checkG x n va).2.MemForm := by
  unfold State.checkG
  extract_lets
  split
  · exact h
  · split <;> rename_i e1 <;> exact .of_snd e1 (.xlate h)

theorem State.MemForm.acquire {gk z : Nat} {ts : List Tag} (h : s.MemForm) : (s.acquire gk z ts).MemForm :=
  .ite h (.setGangAt h)

theorem State.MemForm.setBcb {team off : Nat} {b : Bcb} {tags : List Tag} (h : s.MemForm) :
    (s.setBcb team off b tags).MemForm :=
  .spadWrite h

theorem State.MemForm.barArrive {gk : Nat} {bar : Option VAddr} {n : Nat} (h : s.MemForm) :
    (s.barArrive gk bar n).MemForm := by
  unfold State.barArrive
  split
  · exact h
  · split
    · exact .setBcb h
    · exact h

theorem State.MemForm.barPend {gk : Nat} {bar : Option VAddr} {n : Nat} (h : s.MemForm) : (s.barPend gk bar n).MemForm := by
  unfold State.barPend
  split
  · exact h
  · split
    · exact .setBcb h
    · exact h

/-! ### The functions of Machine/Context -/

theorem State.MemForm.freeBytes {n : Nat} (h : s.MemForm) : (s.freeBytes n).2.MemForm := by
  induction n generalizing s with
  | zero => exact h
  | succ n ih => exact ih (.freeVal h)

theorem OptForm.ringAppend {x : Xl} {hdr bytes entry : Nat} (h : s.MemForm) : OptForm (s.ringAppend x hdr bytes entry) := by
  intro t e
  simp only [State.ringAppend, Option.bind_eq_bind, Option.bind_eq_some_iff] at e
  obtain ⟨base, -, size, -, wr, -, rd, -, e⟩ := e
  exact OptForm.of_eq e (.ite (.some (.vaRelease (.vaWrite h))) .none)

theorem State.MemForm.ringDrop {x : Xl} {hdr : Nat} (h : s.MemForm) : (s.ringDrop x hdr).MemForm :=
  .vaWrite (.vaWrite h)

theorem State.MemForm.logEvent {die kind unit ukind a b : Nat} (h : s.MemForm) :
    (s.logEvent die kind unit ukind a b).MemForm := by
  unfold State.logEvent
  extract_lets
  refine .ite h ?_
  extract_lets
  split
  · rename_i e1
    exact OptForm.of_eq e1 (.ringAppend h)
  · exact .ringDrop (.vaRelease (.vaWrite h))

theorem State.MemForm.post {p : Post} (h : s.MemForm) : (s.post p).MemForm := by
  unfold State.post
  refine .ite h ?_
  extract_lets
  split
  · exact h
  · rename_i e1
    have h1 := OptForm.of_eq e1 (.ringAppend h)
    split
    · exact .setCohortAt h1
    · exact .setGangAt h1
    · exact h1
    · exact h1

theorem State.MemForm.retryPosts (h : s.MemForm) : s.retryPosts.MemForm := .foldl h fun _ _ h1 => .post h1

theorem State.MemForm.engineFault {gk queue : Nat} {va : VAddr} {acc : Nat} {go : Instr} (h : s.MemForm) :
    (s.engineFault gk queue va acc go).MemForm :=
  .post h

theorem State.MemForm.fillStack {gk line : Nat} (h : s.MemForm) : (s.fillStack gk line).MemForm :=
  .noteRead (.setGangAt h)

theorem State.MemForm.spillBytes {gk : Nat} {now hold : Bool} {l : List (Nat × Byte)} (h : s.MemForm) :
    (s.spillBytes gk now hold l).MemForm :=
  .when (.unless h fun h => .ite (.writeNow h) (.store h)) fun h => .foldl (.upd h) fun _ _ h1 => .engineFault h1

theorem State.MemForm.flushStack {hold : Bool} {gk : Nat} (h : s.MemForm) : (s.flushStack hold gk).MemForm :=
  .ite h (.spillBytes h)

theorem State.MemForm.spillRest (h : s.MemForm) : s.spillRest.MemForm :=
  .foldl h fun _ _ h1 => by
    extract_lets
    split
    · exact h1
    · exact .writeNow h1
    · exact h1

theorem State.MemForm.spillPick {gk : Nat} (h : s.MemForm) : (s.spillPick gk).MemForm :=
  .ite h (.setGangAt (.spillBytes (.freePick (.freePick h))))

theorem OptForm.poolTake {die size : Nat} (h : s.MemForm) : OptForm ((s.poolTake die size).map (·.2)) := by
  rw [State.poolTake, Option.map_map]
  exact .map fun _ _ => .setDieAt h

theorem State.MemForm.poolFree {l : List Nat} (h : s.MemForm) : (s.poolFree l).MemForm :=
  .foldl h fun _ _ h1 => .setDieAt h1

theorem OptForm.writeFrame {team : Nat} {lin : Option Nat} (h : s.MemForm) :
    OptForm ((s.writeFrame team lin).map (·.2)) := by
  rw [State.writeFrame, Option.map_map]
  exact .map fun _ e => .writeNow (OptForm.of_eq_pair e (.poolTake h))

theorem State.MemForm.unrun {l : List Nat} (h : s.MemForm) : (s.unrun l).MemForm := h

theorem State.MemForm.quiesceCopies {ks : List Nat} (h : s.MemForm) : (s.quiesceCopies ks).MemForm :=
  .upd (.foldl h fun _ _ h1 => .barArrive (.setGangAt h1))

theorem State.MemForm.leftCore {team : Nat} (h : s.MemForm) : (s.leftCore team).MemForm := .logEvent h

theorem OptForm.foldlM {α β : Type} {f : α × State → β → Option (α × State)} {l : List β} {a : α} (h : s.MemForm)
    (hf : ∀ p b, p.2.MemForm → OptForm ((f p b).map (·.2))) :
    OptForm ((l.foldlM f (a, s)).map (·.2)) := by
  induction l generalizing a s with
  | nil => exact .some h
  | cons b r ih =>
    rw [List.foldlM_cons]
    cases e : f (a, s) b with
    | none => exact .none
    | some p => exact ih (OptForm.of_eq_pair e (hf _ b h))

theorem OptForm.writeFrames {c : Nat} {lin : Option Nat} (h : s.MemForm) : OptForm ((s.writeFrames c lin).map (·.2)) := by
  refine .foldlM h fun _ _ hp => ?_
  rw [Option.map_map]
  exact .map fun _ e => OptForm.of_eq_pair e (.writeFrame hp)

theorem OptForm.writeDir {c : Nat} {frames : List Nat} (h : s.MemForm) : OptForm ((s.writeDir c frames).map (·.2)) := by
  rw [State.writeDir, Option.map_map]
  exact .map fun _ e => .writeNow (OptForm.of_eq_pair e (.poolTake h))

theorem State.MemForm.postPages {c : Nat} (h : s.MemForm) : (s.postPages c).MemForm :=
  .foldl (.setCohortAt h) fun _ _ h1 => .post h1

theorem State.MemForm.saveNow {c : Nat} (h : s.MemForm) : (s.saveNow c).MemForm := by
  -- how the frames and the directory are written stays opaque: the kernel would else compute them at each `match`
  obtain ⟨writeFrames, ewf, hf⟩ : ∃ f, f = State.writeFrames ∧ ∀ t lin, t.MemForm → OptForm ((f t c lin).map (·.2)) :=
    ⟨_, rfl, fun _ _ h => .writeFrames h⟩
  obtain ⟨writeDir, ewd, hd⟩ : ∃ f, f = State.writeDir ∧ ∀ t l, t.MemForm → OptForm ((f t c l).map (·.2)) :=
    ⟨_, rfl, fun _ _ h => .writeDir h⟩
  unfold State.saveNow
  rw [← ewf, ← ewd]
  extract_lets _ _ _ s1 s2
  have h2 : s2.MemForm := .quiesceCopies (.foldl (.foldl h fun _ _ h1 => .setGangAt h1) fun _ _ h1 => .flushStack h1)
  clear_value s2
  split
  · exact .postPages h2
  · rename_i e3
    have h3 := OptForm.of_eq_pair e3 (hf _ _ h2)
    split
    · exact .postPages h2
    · rename_i e4
      have h4 := OptForm.of_eq_pair e4 (hd _ _ h3)
      extract_lets _ _ _ s5 s6 s7 s8 s9
      have h9 : s9.MemForm := .unrun (.foldl (.setMxAt (.foldl (.setCohortAt h4) fun _ _ h => .setTeamAt (.leftCore h)))
        fun _ _ h => .setGangAt h)
      clear_value s9
      exact .ite (.setQueueAt h9) (.postPages h9)

theorem State.MemForm.save {c : Nat} (h : s.MemForm) : (s.save c).MemForm :=
  .ite (.saveNow (.unrun (.setCohortAt h))) (.unrun (.setCohortAt h))

theorem State.MemForm.saveRest (h : s.MemForm) : s.saveRest.MemForm := .foldl h fun _ _ h1 => .ite (.saveNow h1) h1

theorem State.MemForm.cohortFault {pages : List (VAddr × Nat)} (h : s.MemForm) : (s.cohortFault pages).MemForm :=
  .ite (.postPages (.setCohortAt h)) (.save (.setCohortAt h))

theorem State.MemForm.sendFrame {f : Frame} (h : s.MemForm) : (s.sendFrame f).MemForm :=
  .ite (.owe h) h

theorem State.MemForm.receive {f : Frame} {act : Frame → State → State} (h : s.MemForm)
    (hact : ∀ x t, t.MemForm → (act x t).MemForm) :
    (s.receive f act).MemForm :=
  .ite (hact _ _ h) (.ite h (hact _ _ h))

theorem State.MemForm.setGroupAt {k : Nat} {g : Group} (h : s.MemForm) : (s.setGroupAt k g).MemForm := h

theorem State.MemForm.breakHere {gkey : Nat} {except_ : List Nat} (h : s.MemForm) : (s.breakHere gkey except_).MemForm :=
  .foldl (.setGroupAt h) fun _ _ h1 => .ite h1 (.owe h1)

theorem State.MemForm.breakGroup {gkey : Nat} {except_ : List Nat} (h : s.MemForm) : (s.breakGroup gkey except_).MemForm :=
  .ite (.breakHere h) (.foldl (.breakHere h) fun _ _ h1 => .sendFrame h1)

theorem State.MemForm.dropCohort {c : Nat} (h : s.MemForm) : (s.dropCohort c).MemForm :=
  .foldl (.foldl (.setMxAt (.foldl (.unrun (.upd (.unrun h))) fun _ _ h1 => .setCohortAt (.setTeamAt (.setGangAt h1))))
    fun _ _ h1 => .setGangAt h1) fun _ _ h1 => .setTeamAt (.ite (.leftCore h1) h1)

theorem State.MemForm.setRecCtl {qk rec v : Nat} (h : s.MemForm) : (s.setRecCtl qk rec v).MemForm := .vaWrite h

theorem State.MemForm.setSusp {qk rec : Nat} {b : Bool} (h : s.MemForm) : (s.setSusp qk rec b).MemForm := .setRecCtl h

theorem State.MemForm.enqueue {qk idx pri : Nat} (h : s.MemForm) : (s.enqueue qk idx pri).MemForm :=
  .setQueueAt (.vaWrite h)

theorem State.MemForm.setLstat {qk v : Nat} (h : s.MemForm) : (s.setLstat qk v).MemForm := .vaWrite h

theorem State.MemForm.kill {c : Nat} {relaunch : Bool} {err : Option (Nat × Nat × Nat)} {keep : List Nat} (h : s.MemForm) :
    (s.kill c relaunch err keep).MemForm :=
  .when (.logEvent (.setCohortAt (.setQueueAt (.poolFree (.foldl (.dropCohort h) fun _ _ h1 => .breakGroup h1)))))
    fun h => .logEvent (.enqueue (.setSusp (.setQueueAt h)))

theorem State.MemForm.urge {e : Instr} (h : s.MemForm) : (s.urge e).MemForm := h

theorem State.MemForm.consume {gk pa : Nat} (h : s.MemForm) : (s.consume gk pa).MemForm :=
  .ite (.urge h) h

theorem State.MemForm.logDown {pas : List Nat} (h : s.MemForm) : (s.logDown pas).MemForm := by
  unfold State.logDown
  split
  · exact h
  · exact .logEvent h

theorem State.MemForm.stopTeam {team : Nat} {tcause : DWord} (h : s.MemForm) : (s.stopTeam team tcause).MemForm := by
  unfold State.stopTeam
  extract_lets _ _ _ s1 _ fs s2 _ _ _ s3
  have h1 : s1.MemForm := .quiesceCopies (.foldl (.foldl h fun _ _ h1 => .setGangAt h1) fun _ _ h1 => .flushStack h1)
  clear_value s1
  have h2 : s2.MemForm := .getD_snd (.writeFrame h1) h1
  clear_value s2
  have h3 : s3.MemForm := .unrun (.setTeamAt (.leftCore h2))
  clear_value s3
  exact .ite (.foldl h3 fun _ _ h => .setGangAt h) (.setLstat (.kill (.setQueueAt (.post h3))))

/-! ### The functions of Machine/Ops -/

theorem State.MemForm.deliver {k : Nat} (h : s.MemForm) : (s.deliver k).MemForm :=
  .ite (.setGangAt h) (.stopTeam (.setGangAt h))

theorem State.MemForm.asyncTake {k cause : Nat} {info ltpc : DWord} (h : s.MemForm) :
    (s.asyncTake k cause info ltpc).MemForm :=
  .deliver (.setGangAt h)

theorem State.MemForm.endLintel {k : Nat} (h : s.MemForm) : (s.endLintel k).MemForm :=
  .ite (.setMxAt (.setCohortAt (by
    split
    · exact .setGangAt (.unrun (.setGangAt h))
    · exact .unrun (.setGangAt h)))) (.owe (.setMxAt (.setCohortAt (by
    split
    · exact .setGangAt (.unrun (.setGangAt h))
    · exact .unrun (.setGangAt h)))))

theorem State.MemForm.lintelTrap {k : Nat} {t : TrapInfo} (h : s.MemForm) : (s.lintelTrap k t).MemForm := by
  unfold State.lintelTrap
  extract_lets
  split
  · exact .stopTeam (.endLintel (.setGangAt h))
  · exact .ite (.stopTeam (.endLintel (.setGangAt h))) (.asyncTake (.endLintel (.setGangAt h)))

theorem State.MemForm.halt (h : s.MemForm) : s.halt.MemForm := by
  unfold State.halt
  split
  · exact .setGang h
  · exact h

theorem State.MemForm.takeTrap {t : TrapInfo} (h : s.MemForm) : (s.takeTrap t).MemForm :=
  .ite (.halt h) (.ite (.lintelTrap h) (.deliver (.setGang h)))

theorem State.MemForm.trap {cause : Nat} {info : DWord} (h : s.MemForm) : (s.trap cause info).MemForm := .takeTrap h

theorem State.MemForm.trapLanes {cause : Nat} {m : Word} {info : DWord} (h : s.MemForm) :
    (s.trapLanes cause m info).MemForm :=
  .takeTrap h

theorem State.MemForm.illegal {code : Nat} (h : s.MemForm) : (s.illegal code).MemForm := .takeTrap h

theorem State.MemForm.advanceFrom {p : Nat} {pc : IAddr} (h : s.MemForm) : (s.advanceFrom p pc).MemForm :=
  .ite (.takeTrap (.setGang h)) (.setGang h)

theorem State.MemForm.advancePart {p : Nat} (h : s.MemForm) : (s.advancePart p).MemForm := .advanceFrom h

theorem State.MemForm.advance (h : s.MemForm) : s.advance.MemForm := .advancePart h

theorem State.MemForm.asPart {k p : Nat} {f : State → State} (h : s.MemForm) (hf : ∀ t, t.MemForm → (f t).MemForm) :
    (s.asPart k p f).MemForm :=
  hf _ h

theorem State.MemForm.setImemOf {k : Nat} {im : Imem} (h : s.MemForm) : (s.setImemOf k im).MemForm :=
  .ite (.setMxAt h) (.setTeamAt h)

theorem State.MemForm.within {s' : State} (h : s.MemForm) (h1 : s'.MemForm) : (s.within s').MemForm :=
  .ite h1 (.ite (.halt h) (.ite (.ite (.halt h) (.trap h)) (.ite (.ite (.owe (.setGang h)) (.setGang h)) (.setGang h1))))

theorem State.MemForm.done {s' : State} (h : s.MemForm) (h1 : s'.MemForm) : (s.done s').MemForm :=
  .within h (.advance h1)

/-! ### The functions of Machine/Operands -/

theorem OptForm.laneGate {hd : Header} {srcs dst : List Use} {bad8 priv : Bool} (h : s.MemForm) :
    OptForm (s.laneGate hd srcs dst bad8 priv) :=
  .ite (.some h) (.ite (.some (.illegal h))
    (.ite (.some (.illegal h))
    (.ite (.some (.trap h))
    (.ite (.some (.done h h))
    (.ite (.some (.trapLanes h))
    (.ite .none (.ite (.some (.halt h))
    (.ite (.some (.trapLanes h)) (.ite (.some (.trapLanes h)) (.ite (.some (.trap h)) .none))))))))))

theorem OptForm.groupGate {hd : Header} {gs : List Nat} {bad8 priv : Bool} (h : s.MemForm) :
    OptForm (s.groupGate hd gs bad8 priv) :=
  .ite (.some h) (.ite (.some (.illegal h)) (.ite (.some (.trap h)) (.ite (.some (.done h h)) .none)))

theorem State.MemForm.aluLane {hd : Header} {d : BitVec 6} {wide : Bool} {srcs : List Use} {bad8 : Bool}
    {res : Gang → Nat → LaneOut} (h : s.MemForm) :
    (s.aluLane hd d wide srcs bad8 res).MemForm := by
  unfold State.aluLane
  split
  · rename_i e1
    exact OptForm.of_eq e1 (.laneGate h)
  · exact .done h (.setGang h)

theorem State.MemForm.aluGroup {hd : Header} {d : BitVec 6} {gs : List Nat} {bad8 : Bool} {res : Gang → LaneOut}
    (h : s.MemForm) :
    (s.aluGroup hd d gs bad8 res).MemForm := by
  unfold State.aluGroup
  split
  · rename_i e1
    exact OptForm.of_eq e1 (.groupGate h)
  · exact .done h (.setGang h)

theorem State.MemForm.predLane {hd : Header} {d : BitVec 6} {srcs : List Use} {bad8 : Bool}
    {res : Gang → Nat → Bool × DWord} (h : s.MemForm) :
    (s.predLane hd d srcs bad8 res).MemForm := by
  unfold State.predLane
  split
  · rename_i e1
    exact OptForm.of_eq e1 (.laneGate h)
  · exact .done h (.setGang h)

theorem State.MemForm.predGroup {hd : Header} {d : BitVec 6} {gs : List Nat} {bad8 : Bool} {res : Gang → Bool × DWord}
    (h : s.MemForm) :
    (s.predGroup hd d gs bad8 res).MemForm := by
  unfold State.predGroup
  split
  · rename_i e1
    exact OptForm.of_eq e1 (.groupGate h)
  · exact .done h (.setGang h)

theorem State.MemForm.groupDo {hd : Header} {gs : List Nat} {f : Gang → Gang} (h : s.MemForm) :
    (s.groupDo hd gs f).MemForm := by
  unfold State.groupDo
  split
  · rename_i e1
    exact OptForm.of_eq e1 (.groupGate h)
  · exact .done h (.setGang h)

theorem OptForm.engineGate (h : s.MemForm) : OptForm (s.engineGate) := .ite (.some (.halt h)) (.ite (.some (.trap h)) .none)

/-! ### The functions of Machine/Lifecycle -/

theorem State.MemForm.abandon {gk : Nat} {va : VAddr} (h : s.MemForm) : (s.abandon gk va).MemForm :=
  .ite h (.owe h)

theorem State.MemForm.makeRecord {qk code frame parent ctl : Nat} {cohid : DWord} (h : s.MemForm) :
    (s.makeRecord qk code frame parent ctl cohid).MemForm :=
  .enqueue (.vaWrite (.setQueueAt (.vaWrite h)))

theorem State.MemForm.wakeList {qk i : Nat} (h : s.MemForm) : (s.wakeList qk i).MemForm :=
  .foldl h fun _ _ h1 => .foldl h1 fun _ _ h2 => .ite (.setGangAt h2) h2

theorem State.MemForm.appendItem {qk tab i v : Nat} (h : s.MemForm) : (s.appendItem qk tab i v).MemForm :=
  .wakeList (.setQueueAt (.vaWrite (.vaWrite h)))

theorem State.MemForm.takeBatch {qk tab i b : Nat} (h : s.MemForm) : (s.takeBatch qk tab i b).MemForm :=
  .owe (.upd (.makeRecord (.setQueueAt (.vaWrite (.vaWrite (.foldl h fun _ _ h1 => .vaWrite h1))))))

theorem State.MemForm.wlcTry {qk tab i n : Nat} {force : Bool} (h : s.MemForm) : (s.wlcTry qk tab i force n).MemForm := by
  induction n generalizing s force with
  | zero => exact h
  | succ n ih =>
    unfold State.wlcTry
    refine .ite h ?_
    split
    · exact ih (.takeBatch h)
    · exact h

theorem State.MemForm.wlcRetry {qk : Nat} (h : s.MemForm) : (s.wlcRetry qk).MemForm :=
  .ite h (.foldl h fun _ _ h1 => .wlcTry h1)

theorem State.MemForm.dataKill {c : Nat} {err : Nat × Nat × Nat} (h : s.MemForm) : (s.dataKill c err).MemForm :=
  .ite h (.ite (.kill (.setQueueAt h)) (.setLstat (.post (.freeVal (.kill h)))))

theorem State.MemForm.endLaunch {key : Nat} (h : s.MemForm) : (s.endLaunch key).MemForm := h

theorem State.MemForm.completeCheck {qk : Nat} (h : s.MemForm) : (s.completeCheck qk).MemForm :=
  .ite (.endLaunch (.post (.setLstat h))) h

theorem State.MemForm.freeRecord {qk rec : Nat} (h : s.MemForm) : (s.freeRecord qk rec).MemForm :=
  .wlcRetry (.vaWrite (.setQueueAt (.vaWrite h)))

theorem State.MemForm.joinParent {qk parent : Nat} (h : s.MemForm) : (s.joinParent qk parent).MemForm :=
  .ite h (.ite (.enqueue (.setSusp (.vaWrite h))) (.vaWrite h))

theorem State.MemForm.retire {qk rec : Nat} (h : s.MemForm) : (s.retire qk rec).MemForm :=
  .completeCheck (.joinParent (.freeRecord h))

theorem State.MemForm.suspend {qk rec : Nat} {code : DWord} (h : s.MemForm) : (s.suspend qk rec code).MemForm :=
  .ite (.enqueue (.setSusp (.vaWrite h))) (.setSusp (.vaWrite h))

theorem State.MemForm.cohortEnd {c : Nat} (h : s.MemForm) : (s.cohortEnd c).MemForm :=
  .ite (.owe (by
    split
    · exact .setCohortAt (.unrun (.foldl (.force h) fun _ _ h1 => .setTeamAt (.ite h1 (.leftCore h1))))
    · exact .suspend (.setCohortAt (.unrun (.foldl (.force h) fun _ _ h1 => .setTeamAt (.ite h1 (.leftCore h1)))))
    · exact .retire (.setCohortAt (.unrun (.foldl (.force h) fun _ _ h1 => .setTeamAt (.ite h1 (.leftCore h1))))))) h

theorem State.MemForm.relook {gk : Nat} (h : s.MemForm) : (s.relook gk).MemForm := .owe h

theorem State.MemForm.revote {k : Nat} (h : s.MemForm) : (s.revote k).MemForm :=
  .foldl h fun _ _ h1 => .ite (.relook h1) (.sendFrame h1)

theorem State.MemForm.collTry {team : Nat} (h : s.MemForm) : (s.collTry team).MemForm :=
  .ite h (.owe (.setTeamAt h))

theorem State.MemForm.endCheck {k : Nat} (h : s.MemForm) : (s.endCheck k).MemForm :=
  .ite h (.ite (.unless h fun h => .cohortEnd (.endLintel h))
    (.when (.collTry (.unless (.unrun (.unless (.setGangAt h) .flushStack)) .owe)) fun h => .cohortEnd (.revote h)))

theorem State.MemForm.exitLanes {m : Word} (h : s.MemForm) : (s.exitLanes m).MemForm :=
  .ite (.endCheck (.setGang h)) (.ite (.setGang h) (.done h (.setGang h)))

/-! ### The functions of Machine/Access -/

theorem State.MemForm.checkAcc {gk sp n : Nat} {nd : Need} {ea : VAddr} (h : s.MemForm) :
    (s.checkAcc gk sp n nd ea).2.MemForm := by
  unfold State.checkAcc
  extract_lets
  split
  · split
    · exact .checkG h
    · exact h
  · split
    · exact h
    · split
      · exact h
      · split
        · exact h
        · split
          · rename_i e1
            have h1 := State.MemForm.of_snd e1 (.xlate h)
            split
            · exact .ite h1 (.fillStack h1)
            · exact h1
          · rename_i e1
            exact .of_snd e1 (.xlate h)
          · rename_i e1
            exact .of_snd e1 (.xlate h)
  · exact h
  · split
    · exact h
    · split <;> exact h

theorem State.MemForm.checkAll {gk sp n : Nat} {nd : Need} {l : List (Nat × VAddr)} (h : s.MemForm) :
    (s.checkAll gk sp n nd l).2.MemForm := by
  induction l generalizing s with
  | nil => exact h
  | cons p r ih => exact ih (.checkAcc h)

theorem Plan.MemForm.plan {sp n : Nat} {nd : Need} {grp : Bool} {l : List (Nat × VAddr)} (h : s.MemForm) :
    Plan.MemForm (s.plan sp n nd grp l) := by
  unfold State.plan
  extract_lets
  split
  · exact .stop (.trapLanes (.checkAll h))
  · exact .stop (.trapLanes (.checkAll h))
  · exact .stop (.trapLanes (.checkAll h))
  · split
    · exact .stop (.halt (.checkAll h))
    · exact .stop (.cohortFault (.checkAll h))
  · split
    · exact .stop (.consume (.checkAll h))
    · split
      · exact .stop (.checkAll h)
      · exact .go (.checkAll h)

theorem State.MemForm.dropL1 {on p : Nat → Bool} (h : s.MemForm) : (s.dropL1 on p).MemForm := .mapCores h

theorem State.MemForm.freshen {gk : Nat} {l : List (Acc × Nat)} (h : s.MemForm) : (s.freshen gk l).MemForm :=
  .ite h (.mapCores h)

theorem State.MemForm.l1Pick {n : Nat} {l : List Acc} (h : s.MemForm) : (s.l1Pick n l).MemForm :=
  .foldl h fun _ _ h1 => .ite (.ite (.freePick h1) (.dropL1 (.freePick h1))) h1

theorem State.MemForm.fillL1 {gk ch : Nat} {l : List Acc} (h : s.MemForm) : (s.fillL1 gk ch l).MemForm :=
  .foldl h fun _ _ h1 => by
    split
    · extract_lets
      refine .ite ?_ h1
      split
      · exact .ite h1 (.setCoreAt h1)
      · exact h1
    · exact h1

theorem State.MemForm.putP7 {d name : Nat} {b : Nat → Byte} (h : s.MemForm) : (s.putP7 d name b).MemForm := .setDieAt h

theorem State.MemForm.fillP7 {gk ch : Nat} {l : List Acc} (h : s.MemForm) : (s.fillP7 gk ch l).MemForm :=
  .foldl h fun _ _ h1 => by
    split
    · exact .ite (.putP7 h1) h1
    · exact h1

theorem State.MemForm.p7Pick {die n : Nat} {l : List Acc} {now : State → Nat → Byte} (h : s.MemForm) :
    (s.p7Pick die n l now).MemForm :=
  .foldl h fun _ _ h1 => by
    extract_lets
    split
    · exact .ite (.freePick h1) (.setDieAt (.freePick h1))
    · exact h1

theorem State.MemForm.noteReads {n : Nat} {l : List Acc} (h : s.MemForm) : (s.noteReads n l).MemForm :=
  .ite h (.noteRead h)

theorem State.MemForm.syncTags {gk scp ord : Nat} {ts : List Tag} (h : s.MemForm) : (s.syncTags gk scp ord ts).MemForm :=
  .ite h (.ite (.acquire h) (.setGangAt h))

theorem State.MemForm.syncRead {sp scp ord n : Nat} {l : List Acc} (h : s.MemForm) : (s.syncRead sp scp ord n l).MemForm :=
  .syncTags h

theorem State.MemForm.askFrom {scp ord ch n : Nat} {known : List (Loc × Nat)} {l : List Acc} (h : s.MemForm) :
    (s.askFrom scp ord ch n known l).2.MemForm := by
  induction l generalizing s known with
  | nil => exact h
  | cons a r ih =>
    unfold State.askFrom
    split
    · exact ih h
    · split
      · exact ih (.sendFrame h)
      · exact ih (.upd (.setGang h))
      · exact ih h

theorem State.MemForm.askAway {scp ord ch n : Nat} {l : List Acc} (h : s.MemForm) : (s.askAway scp ord ch n l).2.MemForm :=
  .askFrom h

theorem State.MemForm.sendBeat {gk scp ord : Nat} {tag : Option Tag} {b : (Nat × Nat × Nat) × List (Nat × Byte)}
    (h : s.MemForm) :
    (s.sendBeat gk scp ord tag b).MemForm :=
  .sendFrame (.upd (.setGangAt h))

theorem State.MemForm.postPeer {gk scp ord : Nat} {p : Acc × List Byte} (h : s.MemForm) :
    (s.postPeer gk scp ord p).MemForm := by
  unfold State.postPeer
  split
  · exact .owe (.upd (.setGangAt h))
  · exact h

theorem State.MemForm.storeHere {gk : Nat} {tags : List Tag} {l : List (Acc × List Byte)} (h : s.MemForm) :
    (s.storeHere gk tags l).MemForm :=
  .foldl (.unless (.unless h fun h => .owe (.setGangAt (.store (.freshen (.logDown h))))) fun h => .spillPick
    (.setGangAt h))
    fun _ _ h1 => by
      split
      · exact .spadWrite h1
      · exact h1

theorem State.MemForm.storeAll {gk scp ord : Nat} {l : List (Acc × List Byte)} (h : s.MemForm) :
    (s.storeAll gk scp ord l).MemForm :=
  .foldl (.foldl (.storeHere h) fun _ _ h1 => .sendBeat h1) fun _ _ h1 => .postPeer h1

theorem State.MemForm.storeOrHold {sp scp ord : Nat} {l : List (Acc × List Byte)} (h : s.MemForm) :
    (s.storeOrHold sp scp ord l).MemForm :=
  .ite (.setGang h) (.storeAll h)

theorem State.MemForm.homeRead {d : Nat} {pas : List Nat} (h : s.MemForm) : (s.homeRead d pas).MemForm :=
  .ite h (.force (.setClock h))

theorem State.MemForm.heldPlaces {gk : Nat} {hd : Held} (h : s.MemForm) : (s.heldPlaces gk hd).2.2.2.MemForm :=
  .foldl_with (st := fun p : List (Acc × List Byte) ×
    Option VAddr × Option VAddr × State => p.2.2.2) h fun _ _ h1 => by
    extract_lets
    split <;> exact .checkAcc h1

theorem State.MemForm.performAtom {gk : Nat} {hd : Held} {l : List (Acc × List Byte)} (h : s.MemForm) :
    (s.performAtom gk hd l).MemForm :=
  .foldl (.ite h (.writeNow (.homeRead (.freshen (.logDown h))))) fun _ _ h1 => by
    split
    · exact .spadWrite h1
    · exact h1

theorem OptForm.commitStep {gk : Nat} (h : s.MemForm) : OptForm (s.commitStep gk) := by
  unfold State.commitStep
  extract_lets
  split
  · exact .none
  · refine .ite .none ?_
    extract_lets
    split
    · exact .some (.engineFault (.setGangAt (.upd (.heldPlaces h))))
    · exact .some (.abandon (.setGangAt (.heldPlaces h)))
    · exact .ite .none (.some (.ite (.performAtom (.setGangAt (.heldPlaces h))) (.storeAll (.setGangAt (.heldPlaces h)))))

theorem State.MemForm.commitAll {gk n : Nat} (h : s.MemForm) : (s.commitAll gk n).MemForm := by
  induction n generalizing s with
  | zero => exact h
  | succ n ih =>
    unfold State.commitAll
    split
    · rename_i e
      exact ih (OptForm.of_eq e (.commitStep h))
    · exact h

theorem State.MemForm.commit {gk : Nat} {l : List Held} (h : s.MemForm) : (s.commit gk l).MemForm :=
  .ite h (.commitAll (.setGangAt h))

theorem State.MemForm.commitRest (h : s.MemForm) : s.commitRest.MemForm := .foldl h fun _ _ h1 => .ite h1 (.commitAll h1)

/-! ### The functions of Machine/Control -/

theorem State.MemForm.jumpTo {s' : State} {sl : List Nat} {a : IAddr} (h : s.MemForm) (h1 : s'.MemForm) :
    (s.jumpTo s' sl a).MemForm :=
  .within h (.setGang h1)

theorem State.MemForm.segTrap {cause : Nat} {a : IAddr} (h : s.MemForm) : (s.segTrap cause a).MemForm := .trap h

theorem State.MemForm.structured {f : ClassB} {upd : Gang → Nat → Nat → Nat} (h : s.MemForm) :
    (s.structured f upd).MemForm := by
  unfold State.structured
  extract_lets
  split
  · exact .trapLanes h
  · exact .ite (.ite (.segTrap h) (.jumpTo h (.setGang h))) (.done h (.setGang h))

theorem Res.MemForm.nop {_f : ClassB} (h : s.MemForm) : Res.MemForm (execNop _f s) :=
  .next (.done h h)

theorem Res.MemForm.ifK {f : ClassB} (h : s.MemForm) : Res.MemForm (execIfK f s) :=
  .next (.structured h)

theorem Res.MemForm.elseK {f : ClassB} (h : s.MemForm) : Res.MemForm (execElseK f s) :=
  .next (.structured h)

theorem Res.MemForm.endif {f : ClassB} (h : s.MemForm) : Res.MemForm (execEndif f s) :=
  .next (.structured h)

theorem Res.MemForm.loop {f : ClassB} (h : s.MemForm) : Res.MemForm (execLoop f s) :=
  .next (.structured h)

theorem Res.MemForm.brk {f : ClassB} (h : s.MemForm) : Res.MemForm (execBrk f s) :=
  .next (.structured h)

theorem Res.MemForm.cont {f : ClassB} (h : s.MemForm) : Res.MemForm (execCont f s) :=
  .next (.structured h)

theorem Res.MemForm.endloop {f : ClassB} (h : s.MemForm) : Res.MemForm (execEndloop f s) := by
  unfold Machine.execEndloop
  extract_lets
  split
  · exact .next h
  · split
    · exact .next (.ite (.segTrap h) (.jumpTo h (.setGang h)))
    · split
      · exact .next h
      · exact .next (.done h (.setGang h))

theorem State.MemForm.partAndGo {s' : State} {ds : List (Nat × Decision)} (h : s.MemForm) (h1 : s'.MemForm) :
    (s.partAndGo s' ds).MemForm := by
  unfold State.partAndGo
  dsimp only
  split
  · exact .within h (.setGang h1)
  · exact .within h (.advanceFrom (.setGang h1))

theorem State.MemForm.branchRel {f : ClassB} {act : List Nat → State → Option (Nat × DWord) × State} (h : s.MemForm)
    (hact : ∀ x t, t.MemForm → (act x t).2.MemForm) :
    (s.branchRel f act).MemForm := by
  unfold State.branchRel
  extract_lets
  refine .ite (.trapLanes h) (.ite (.done h h) (.ite (.segTrap h) ?_))
  split
  · exact .trap h
  · rename_i e1
    have h1 := State.MemForm.of_snd e1 (hact _ _ h)
    exact .partAndGo h h1

theorem State.MemForm.branchGroup {f : ClassB} {act : List Nat → State → Option (Nat × DWord) × State} (h : s.MemForm)
    (hact : ∀ x t, t.MemForm → (act x t).2.MemForm) :
    (s.branchGroup f act).MemForm := by
  unfold State.branchGroup
  extract_lets
  refine .ite (.done h h) (.ite (.segTrap h) ?_)
  split
  · exact .trap h
  · rename_i e1
    have h1 := State.MemForm.of_snd e1 (hact _ _ h)
    exact .jumpTo h h1

theorem State.MemForm.noAct {l : List Nat} (h : s.MemForm) : (noAct l s).2.MemForm := h

theorem State.MemForm.pushAct {sl : List Nat} (h : s.MemForm) : (pushAct sl s).2.MemForm := by
  unfold Machine.pushAct
  extract_lets
  split
  · exact h
  · exact .spillPick (.setGang h)

theorem Res.MemForm.bra {f : ClassB} (h : s.MemForm) : Res.MemForm (execBra f s) :=
  .next (.ite (.branchGroup h (fun _ _ h1 => .noAct h1)) (.branchRel h (fun _ _ h1 => .noAct h1)))

theorem Res.MemForm.call {f : ClassB} (h : s.MemForm) : Res.MemForm (execCall f s) :=
  .next (.ite (.branchGroup h (fun _ _ h1 => .pushAct h1)) (.branchRel h (fun _ _ h1 => .pushAct h1)))

theorem State.MemForm.branchInd {ds : List (Nat × Decision)} {qs ls : List Nat}
    {act : List Nat → State → Option (Nat × DWord) × State} (h : s.MemForm)
    (hact : ∀ x t, t.MemForm → (act x t).2.MemForm) :
    (s.branchInd ds qs ls act).MemForm := by
  unfold State.branchInd
  extract_lets
  refine .ite (.trapLanes h) ?_
  split
  · exact .segTrap h
  · split
    · exact .trap h
    · rename_i e1
      have h1 := State.MemForm.of_snd e1 (hact _ _ (.setGang h))
      exact .partAndGo h h1

theorem State.MemForm.brx {f : ClassA} {act : List Nat → State → Option (Nat × DWord) × State} (h : s.MemForm)
    (hact : ∀ x t, t.MemForm → (act x t).2.MemForm) :
    (s.brx f act).MemForm := by
  unfold State.brx
  refine .ite ?_ ?_
  · split
    · rename_i e1
      exact OptForm.of_eq e1 (.groupGate h)
    · exact .branchInd h (fun _ _ h1 => hact _ _ h1)
  · extract_lets
    split
    · rename_i e1
      exact OptForm.of_eq e1 (.laneGate h)
    · exact .branchInd h (fun _ _ h1 => hact _ _ h1)

theorem Res.MemForm.brx {f : ClassA} (h : s.MemForm) : Res.MemForm (execBrx f s) :=
  .next (.brx h (fun _ _ h1 => .noAct h1))

theorem Res.MemForm.callx {f : ClassA} (h : s.MemForm) : Res.MemForm (execCallx f s) :=
  .next (.brx h (fun _ _ h1 => .pushAct h1))

theorem State.MemForm.popAct {sl : List Nat} (h : s.MemForm) : (popAct sl s).2.MemForm := .setGang h

theorem State.MemForm.fillRet {key : Nat} (h : s.MemForm) : (s.fillRet key).MemForm := by
  unfold State.fillRet
  extract_lets
  split
  · exact .noteRead (.setGang h)
  · exact h

theorem State.MemForm.fillRets {sl : List Nat} (h : s.MemForm) : (s.fillRets sl).1.MemForm := by
  unfold State.fillRets
  extract_lets
  split
  · split
    · exact .ite (.consume h) (.trap h)
    · exact .trap h
  · exact .ite (.halt h) (.cohortFault h)
  · exact .foldl h fun _ _ h1 => .fillRet h1

theorem Res.MemForm.ret {f : ClassB} (h : s.MemForm) : Res.MemForm (execRet f s) :=
  .next (.ite (.trapLanes h)
    (.ite (.done h h) (.ite (.trap h) (.ite (.fillRets h) (.branchInd (.fillRets h) (fun _ _ h1 => .popAct h1))))))

theorem Res.MemForm.regang {_f : ClassB} (h : s.MemForm) : Res.MemForm (execRegang _f s) := by
  unfold Machine.execRegang
  extract_lets
  refine .next (.ite (.done h h) (.ite (.trap h) ?_))
  extract_lets
  refine .ite ?_ (.setGang h)
  extract_lets
  split
  · exact .ite (.halt h) (.within h (.takeTrap (.setGang h)))
  · exact .within h (.setGang h)

theorem Res.MemForm.jmpf {f : ClassB} (h : s.MemForm) : Res.MemForm (execJmpf f s) := by
  unfold Machine.execJmpf
  extract_lets
  refine .next (.ite (.done h h) ?_)
  split
  · exact .segTrap h
  · exact .jumpTo h h

theorem State.MemForm.setImemAt {key : Nat} {im : Imem} (h : s.MemForm) : (s.setImemAt key im).MemForm :=
  .ite (.setMxAt h) (.setTeamAt h)

theorem Res.MemForm.cfetch {f : ClassM} (h : s.MemForm) : Res.MemForm (execCfetch f s) := by
  unfold Machine.execCfetch
  extract_lets
  refine .next ?_
  split
  · rename_i e1
    exact OptForm.of_eq e1 (.groupGate h)
  · split
    · rename_i e1
      exact OptForm.of_eq e1 (.engineGate h)
    · refine .ite (.trap h) ?_
      extract_lets
      split
      · exact .trap h
      · exact .trap h
      · exact .ite (.done h (.owe (.setImemOf h))) (.trap h)
      · exact .done h (.owe (.setImemOf h))

theorem State.MemForm.tookSegment {gk pa : Nat} {leaf : DWord} (h : s.MemForm) : (s.tookSegment gk pa leaf).MemForm :=
  .noteRead (.fillP7 h)

theorem Res.MemForm.segmentLanded {key slot : Nat} (h : s.MemForm) : Res.MemForm (execSegmentLanded key slot s) := by
  unfold Machine.execSegmentLanded
  extract_lets
  refine .next (.ite h ?_)
  extract_lets
  split
  · exact .consume h
  · exact .owe h
  · exact .setImemAt (.tookSegment h)
  · exact .engineFault h
  · exact .ite (.stopTeam (.setImemAt h)) (.abandon (.setImemAt h))

theorem Res.MemForm.cwait {f : ClassB} (h : s.MemForm) : Res.MemForm (execCwait f s) :=
  .next (.ite (.done h h) (.ite (.segTrap h) (.ite h (.done h h))))

theorem Res.MemForm.cwaitAll {f : ClassB} (h : s.MemForm) : Res.MemForm (execCwaitAll f s) :=
  .next (.ite (.done h h) (.ite h (.done h h)))

theorem Res.MemForm.exit {f : ClassB} (h : s.MemForm) : Res.MemForm (execExit f s) := by
  unfold Machine.execExit
  extract_lets
  refine .next (.ite (.done h h) ?_)
  split
  · rename_i e1
    exact OptForm.of_eq e1 (.engineGate h)
  · exact .exitLanes h

theorem Res.MemForm.yield {f : ClassB} (h : s.MemForm) : Res.MemForm (execYield f s) := by
  unfold Machine.execYield
  refine .next (.ite (.done h h) ?_)
  split
  · rename_i e1
    exact OptForm.of_eq e1 (.engineGate h)
  · exact .ite (.save h) (.ite (.done h h) (.done h (.owe (.setGang h))))

theorem Res.MemForm.yieldExpire {gang : Nat} (h : s.MemForm) : Res.MemForm (execYieldExpire gang s) := by
  unfold Machine.execYieldExpire
  extract_lets
  refine .next ?_
  split
  · exact .ite (.setGangAt h) (.owe h)
  · exact h

theorem Res.MemForm.trap {f : ClassB} (h : s.MemForm) : Res.MemForm (execTrap f s) :=
  .next (.ite (.done h h) (.takeTrap h))

theorem Res.MemForm.rgnb {_f : ClassB} (h : s.MemForm) : Res.MemForm (execRgnb _f s) :=
  .next (.ite (.done h h) (.ite (.halt h) (.ite (.trap h) (.done h (.setGang h)))))

theorem Res.MemForm.rgne {_f : ClassB} (h : s.MemForm) : Res.MemForm (execRgne _f s) := by
  unfold Machine.execRgne
  extract_lets
  refine .next (.ite (.done h h) (.ite (.halt h) ?_))
  split
  · exact .trap h
  · exact .ite h (.done h (.commit (.setGang h)))

theorem Res.MemForm.regionExhaustReplay {core : Nat} (h : s.MemForm) : Res.MemForm (execRegionExhaustReplay core s) := by
  unfold Machine.execRegionExhaustReplay
  dsimp only
  refine .next ?_
  refine .ite ?_ h
  split
  · exact .setGangAt h
  · exact h

theorem State.MemForm.barrierPass {t : Nat} (h : s.MemForm) : (s.barrierPass t).MemForm :=
  .foldl h fun _ _ h1 => .foldl h1 fun _ _ h2 => .asPart h2 (fun _ h3 => .advance h3)

theorem Res.MemForm.bar {f : ClassB} (h : s.MemForm) : Res.MemForm (execBar f s) := by
  unfold Machine.execBar
  extract_lets
  refine .next (.ite (.ite (.barrierPass h) h) (.ite (.done h h) ?_))
  split
  · rename_i e1
    exact OptForm.of_eq e1 (.engineGate h)
  · exact .ite h (.ite (.barrierPass (.setGang h)) (.setGang h))

theorem State.MemForm.writeQcfg {eff : Bool} {v : DWord} (h : s.MemForm) : (s.writeQcfg eff v).MemForm := by
  unfold State.writeQcfg
  refine .ite (.illegal h) (.ite (.done h h) (.ite h ?_))
  split
  · rename_i e1
    exact OptForm.of_eq e1 (.engineGate h)
  · exact .done h (.setGang h)

theorem Res.MemForm.qcfg {f : ClassA} (h : s.MemForm) : Res.MemForm (execQcfg f s) :=
  .next (.ite h (.writeQcfg h))

/-! ### The functions of Machine/Loads -/

theorem OptForm.memGate {f : ClassM} {srcs dst : List Use} {gs : List Nat} (h : s.MemForm) :
    OptForm (s.memGate f srcs dst gs) :=
  .ite (.groupGate h) (.laneGate h)

theorem State.MemForm.addLoad {p : PendLoad} (h : s.MemForm) : (s.addLoad p).MemForm :=
  .ite (.owe (.setGang h)) (.setGang h)

theorem State.MemForm.ldgenDrop {gk : Nat} {l : List Nat} (h : s.MemForm) : (s.ldgenDrop gk l).MemForm :=
  .ite h (.dropL1 h)

theorem State.MemForm.loadOp {f : ClassM} {gen : Bool} (h : s.MemForm) : (s.loadOp f gen).MemForm := by
  unfold State.loadOp
  extract_lets
  split
  · rename_i e1
    exact OptForm.of_eq e1 (.memGate h)
  · refine .ite h ?_
    split
    · rename_i e1
      exact OptForm.of_eq e1 (.ite (.engineGate h) .none)
    · split
      · rename_i e1
        exact Plan.MemForm.of_eq e1 (.plan h)
      · rename_i e1
        have h1 := Plan.MemForm.of_eq e1 (.plan h)
        exact .ite h1 (.done h (.when (.syncRead (.when (.addLoad (.upd (.askAway (.when h1 fun h => .p7Pick (.l1Pick h)))))
          fun h => .noteReads (.fillL1 (.fillP7 h)))) .ldgenDrop))

theorem Res.MemForm.ld {f : ClassM} (h : s.MemForm) : Res.MemForm (execLd f s) :=
  .next (.loadOp h)

theorem Res.MemForm.ldgen {f : ClassM} (h : s.MemForm) : Res.MemForm (execLdgen f s) :=
  .next (.loadOp h)

theorem Res.MemForm.loadReturn {gang id : Nat} (h : s.MemForm) : Res.MemForm (execLoadReturn gang id s) := by
  unfold Machine.execLoadReturn
  extract_lets
  refine .next ?_
  split
  · exact .ite (.endCheck (.ldgenDrop (.setGangAt h))) h
  · exact h

theorem Res.MemForm.st {f : ClassM} (h : s.MemForm) : Res.MemForm (execSt f s) := by
  unfold Machine.execSt
  extract_lets
  refine .next ?_
  split
  · rename_i e1
    exact OptForm.of_eq e1 (.memGate h)
  · refine .ite h ?_
    split
    · rename_i e1
      exact OptForm.of_eq e1 (.ite (.engineGate h) .none)
    · split
      · rename_i e1
        exact Plan.MemForm.of_eq e1 (.plan h)
      · rename_i e1
        have h1 := Plan.MemForm.of_eq e1 (.plan h)
        exact .ite h1 (.ite h1 (.done h (.storeOrHold (.ite h1 (.setGang h1)))))

theorem Res.MemForm.storePerformed {gang id : Nat} (h : s.MemForm) : Res.MemForm (execStorePerformed gang id s) :=
  .next (.ite (.owe h) (.endCheck (.commitAll (.setGangAt h))))

theorem Res.MemForm.causalDelivery {die id : Nat} (h : s.MemForm) : Res.MemForm (execCausalDelivery die id s) := by
  unfold Machine.execCausalDelivery
  refine .next ?_
  split
  · exact h
  · exact .ite h (.ite (.fold h) (.owe h))

theorem State.MemForm.atomOne {scp ord n code : Nat} {a : Acc} {x y : Nat} (h : s.MemForm) :
    (s.atomOne scp ord n code a x y).2.2.MemForm := by
  unfold State.atomOne
  extract_lets
  split
  · exact .writeNow (.homeRead (.syncTags h))
  · exact .spadWrite (.syncTags h)
  · exact .syncTags h

theorem State.MemForm.atomAll {scp ord n code : Nat} {ops : Nat → Nat × Nat} {l : List Acc} (h : s.MemForm) :
    (s.atomAll scp ord n code ops l).2.2.MemForm := by
  induction l generalizing s with
  | nil => exact h
  | cons a r ih =>
    unfold State.atomAll
    split
    · exact ih (.atomOne (.freshen h))
    · exact ih h

theorem State.MemForm.atomHeld {sp scp ord n code : Nat} {ops : Nat → Nat × Nat} {l : List Acc} (h : s.MemForm) :
    (s.atomHeld sp scp ord n code ops l).2.2.MemForm := by
  induction l generalizing s with
  | nil => exact h
  | cons a r ih =>
    refine ih (.setGang (.syncTags ?_))
    split
    · exact .homeRead h
    · exact h

theorem State.MemForm.atomAway {scp ord n code : Nat} {ops : Nat → Nat × Nat} {l : List Acc} (h : s.MemForm) :
    (s.atomAway scp ord n code ops l).2.MemForm :=
  .foldl_snd h fun _ _ h1 => by
    split
    · exact .sendFrame h1
    · exact h1

theorem Res.MemForm.atom {f : ClassM} (h : s.MemForm) : Res.MemForm (execAtom f s) := by
  unfold Machine.execAtom
  extract_lets
  refine .next (.ite (.illegal h) ?_)
  split
  · rename_i e
    exact OptForm.of_eq e (.memGate h)
  · refine .ite (.trap h) (.ite (.halt h) ?_)
    extract_lets
    refine .ite h ?_
    split
    · rename_i e
      exact Plan.MemForm.of_eq e (.plan h)
    · rename_i e
      have h1 := Plan.MemForm.of_eq e (.plan h)
      refine .ite h1 ?_
      extract_lets s2 r
      have h2 : s2.MemForm := .ite h1 (.setGang h1)
      have h3 : r.2.2.MemForm := by
        clear_value s2
        unfold r
        split
        · exact .atomHeld h2
        · exact .atomAll h2
      exact .done h (.addLoad (.upd (.atomAway h3)))

theorem State.MemForm.answer {tag : Nat} {bytes : List Byte} (h : s.MemForm) : (s.answer tag bytes).MemForm := by
  unfold State.answer
  split
  · exact h
  · exact .owe (.setGangAt h)

theorem State.MemForm.sendProbe {sz scp ord n : Nat} {l : List Acc} (h : s.MemForm) :
    (s.sendProbe sz scp ord n l).MemForm :=
  .ite h (.addLoad (.upd (.askAway h)))

theorem State.MemForm.sendAsks {words : List Nat} (h : s.MemForm) : (s.sendAsks words).MemForm :=
  .ite h (.setGang (.addLoad (.upd (.askAway h))))

theorem State.MemForm.forgetFar (h : s.MemForm) : s.forgetFar.MemForm := .ite h (.setGang h)

theorem Res.MemForm.waitv {f : ClassM} (h : s.MemForm) : Res.MemForm (execWaitv f s) := by
  unfold Machine.execWaitv
  extract_lets
  refine .next ?_
  split
  · rename_i e1
    exact OptForm.of_eq e1 (.memGate h)
  · split
    · rename_i e1
      exact OptForm.of_eq e1 (.engineGate h)
    · refine .ite h ?_
      split
      · rename_i e1
        exact Plan.MemForm.of_eq e1 (.plan h)
      · rename_i e1
        have h1 := Plan.MemForm.of_eq e1 (.plan h)
        extract_lets s1
        have h2 : s1.MemForm := .when h1 fun h => .p7Pick (.l1Pick h)
        exact .ite (.unless h2 .sendProbe) (.ite (.owe (.setGang h2)) (.done h (.setGang (.syncTags (.syncRead
          (.when h2 fun h => .noteReads (.fillL1 (.fillP7 h))))))))

theorem Res.MemForm.waitvReread {gang : Nat} (h : s.MemForm) : Res.MemForm (execWaitvReread gang s) :=
  .next (.ite (.setGangAt h) h)

theorem State.MemForm.fenceDo {scp ord : Nat} (h : s.MemForm) : (s.fenceDo scp ord).MemForm :=
  .ite (.setGang (.ite (.acquire h) h)) (.ite (.acquire h) h)

theorem Res.MemForm.fence {f : ClassM} (h : s.MemForm) : Res.MemForm (execFence f s) := by
  unfold Machine.execFence
  refine .next ?_
  split
  · rename_i e1
    exact OptForm.of_eq e1 (.groupGate h)
  · split
    · rename_i e1
      exact OptForm.of_eq e1 (.engineGate h)
    · exact .ite h (.done h (.fenceDo h))

theorem Res.MemForm.pref {f : ClassM} (h : s.MemForm) : Res.MemForm (execPref f s) := by
  unfold Machine.execPref
  refine .next ?_
  split
  · rename_i e1
    exact OptForm.of_eq e1 (.memGate h)
  · exact .done h (.foldl h fun _ _ h1 => by
      split
      · exact .ite (.fillL1 (.fillP7 h1)) (.askAway h1)
      · exact h1)

theorem State.MemForm.maintain {f : ClassM} {act : State → State} (h : s.MemForm)
    (hact : ∀ t, t.MemForm → (act t).MemForm) :
    (s.maintain f act).MemForm := by
  unfold State.maintain
  split
  · rename_i e1
    exact OptForm.of_eq e1 (.groupGate h)
  · exact .done h (hact _ h)

theorem Res.MemForm.cinv {f : ClassM} (h : s.MemForm) : Res.MemForm (execCinv f s) :=
  .next (.maintain h (fun _ h1 => .dropL1 h1))

theorem Res.MemForm.cflush {f : ClassM} (h : s.MemForm) : Res.MemForm (execCflush f s) :=
  .next (.maintain h (fun _ h1 => h1))

theorem Res.MemForm.rinv {f : ClassM} (h : s.MemForm) : Res.MemForm (execRinv f s) :=
  .next (.maintain h (fun _ h1 => .foldl (.dropL1 h1) fun _ _ h2 => .ite (.setDieAt h2) h2))

theorem State.MemForm.rminv {f : ClassM} (h : s.MemForm) : (s.rminv f).MemForm :=
  .foldl (.mapCores h) fun _ _ h1 => .ite (.setGangAt h1) h1

theorem Res.MemForm.rminv {f : ClassM} (h : s.MemForm) : Res.MemForm (execRminv f s) := by
  unfold Machine.execRminv
  refine .next ?_
  split
  · rename_i e1
    exact OptForm.of_eq e1 (.groupGate h)
  · exact .ite (.halt h) (.ite h (.done h (.rminv (.fenceDo h))))

/-! ### The functions of Machine/Engines -/

theorem State.MemForm.engineE {hd : Header} {gs : List Nat} {act : State → State} (h : s.MemForm)
    (hact : ∀ t, t.MemForm → (act t).MemForm) :
    (s.engineE hd gs act).MemForm := by
  unfold State.engineE
  split
  · rename_i e1
    exact OptForm.of_eq e1 (.groupGate h)
  · split
    · rename_i e1
      exact OptForm.of_eq e1 (.engineGate h)
    · exact hact _ h

theorem State.MemForm.forkTake {k : Nat} {t word : IAddr} (h : s.MemForm) : (s.forkTake k t word).MemForm :=
  .owe (.setMxAt (.setCohortAt (.setGangAt (.setGangAt h))))

theorem Res.MemForm.fork {f : ClassB} (h : s.MemForm) : Res.MemForm (execFork f s) :=
  .next (.engineE h (fun _ h1 => by
    extract_lets
    refine .ite (.segTrap h1) ?_
    split
    · exact .segTrap h1
    · exact h1
    · exact .ite (.trap h1) (.ite (.done h1 (.forkTake h1)) (.setMxAt (.setGang h1)))))

theorem State.MemForm.forkAbort {c k : Nat} {word : IAddr} {va : VAddr} (h : s.MemForm) :
    (s.forkAbort c k word va).MemForm := by
  unfold State.forkAbort
  extract_lets
  split
  · exact h
  · exact .ite (.endLintel (.setMxAt h)) (.deliver (.setGangAt (.endLintel (.setMxAt h))))

theorem Res.MemForm.lintelStart {cluster : Nat} (h : s.MemForm) : Res.MemForm (execLintelStart cluster s) := by
  unfold Machine.execLintelStart
  extract_lets
  refine .next ?_
  split
  · extract_lets
    split
    · exact .owe h
    · exact .ite (.upd (.setMxAt (.tookSegment h))) (.setMxAt (.tookSegment h))
    · exact .engineFault h
    · exact .forkAbort h
    · exact .consume h
  · split
    · exact .ite (.owe (.setMxAt h)) (.asPart (.setGangAt (.setMxAt h)) (fun _ h1 => .done h1 (.forkTake h1)))
    · exact h

theorem State.MemForm.fenceFor {k : Nat} (h : s.MemForm) : (s.fenceFor k).MemForm :=
  .asPart h (fun _ h1 => .fenceDo h1)

theorem State.MemForm.rdvClash {a b n m : Nat} (h : s.MemForm) : (s.rdvClash a b n m).MemForm :=
  .asPart (.setGangAt (.endLintel (.setGangAt h))) (fun _ h1 => .trap h1)

theorem Res.MemForm.rdv {f : ClassB} (h : s.MemForm) : Res.MemForm (execRdv f s) :=
  .next (.engineE h (fun _ h1 => by
    extract_lets
    refine .ite h1 ?_
    split
    · exact .trap (.setGang h1)
    · extract_lets
      refine .ite (.trap (.setGang h1)) ?_
      split
      · exact .ite (.advance (.asPart (.setGangAt (.setGang (.fenceFor (.fenceFor h1)))) (fun _ h2 => .advance h2)))
          (.rdvClash h1)
      · exact .setGang h1))

theorem Res.MemForm.spawn {f : ClassE} (h : s.MemForm) : Res.MemForm (execSpawn f s) :=
  .next (.engineE h (fun _ h1 => .ite (.trap h1)
    (.ite (.trap h1) (.ite h1
    (.ite (.done h1 (.setGang h1)) (.done h1 (.owe (.setGang (.makeRecord (.ite (.vaWrite h1) h1))))))))))

theorem State.MemForm.doneGang (h : s.MemForm) : s.doneGang.MemForm := .exitLanes h

theorem Res.MemForm.done {f : ClassB} (h : s.MemForm) : Res.MemForm (execDone f s) :=
  .next (.engineE h (fun _ h1 => .doneGang h1))

theorem Res.MemForm.doneC {f : ClassB} (h : s.MemForm) : Res.MemForm (execDoneC f s) :=
  .next (.engineE h (fun _ h1 => .ite (.trap h1) (.doneGang (.setCohortAt h1))))

theorem OptForm.structGate {a : VAddr} {n : Nat} {nd : Need} (h : s.MemForm) : OptForm (s.structGate a n nd) := by
  unfold State.structGate
  extract_lets
  split
  · exact .some (.trap h)
  · exact .some (.cohortFault h)
  · exact .none

theorem OptForm.structGates {l : List (Nat × Nat × Need)} (h : s.MemForm) : OptForm (s.structGates l) := by
  intro t e
  obtain ⟨p, -, e⟩ := List.exists_of_findSome?_eq_some e
  exact OptForm.of_eq e (.structGate h)

theorem State.MemForm.release (h : s.MemForm) : s.release.MemForm := .force h

theorem State.MemForm.wlAppend {qk tab i item : Nat} (h : s.MemForm) : (s.wlAppend qk tab i item).2.MemForm := by
  unfold State.wlAppend
  split
  · exact h
  · split
    · exact h
    · exact .wlcTry (.appendItem h)

theorem State.MemForm.wlAppends {qk tab : Nat} {l : List (Nat × Nat × Nat)} (h : s.MemForm) :
    (s.wlAppends qk tab l).2.MemForm := by
  induction l generalizing s with
  | nil => exact h
  | cons p r ih => exact ih (.wlAppend h)

theorem State.MemForm.wlput {f : ClassE} {n : Nat} {list : State → Nat → Nat} (h : s.MemForm) :
    (s.wlput f n list).MemForm := by
  unfold State.wlput
  extract_lets
  split
  · rename_i e1
    exact OptForm.of_eq e1 (.laneGate h)
  · split
    · rename_i e1
      exact OptForm.of_eq e1 (.engineGate h)
    · split
      · rename_i e1
        exact OptForm.of_eq e1 (.structGate h)
      · split
        · rename_i e1
          exact OptForm.of_eq e1 (.structGates h)
        · exact .ite h (.done h (.setGang (.wlAppends (.release h))))

theorem Res.MemForm.wlput {f : ClassE} (h : s.MemForm) : Res.MemForm (execWlput f s) :=
  .next (.wlput h)

theorem Res.MemForm.rbin {f : ClassE} (h : s.MemForm) : Res.MemForm (execRbin f s) :=
  .next (.wlput h)

theorem Res.MemForm.wlget {f : ClassE} (h : s.MemForm) : Res.MemForm (execWlget f s) := by
  unfold Machine.execWlget
  extract_lets
  refine .next ?_
  split
  · rename_i e1
    exact OptForm.of_eq e1 (.laneGate h)
  · split
    · rename_i e1
      exact OptForm.of_eq e1 (.engineGate h)
    · split
      · rename_i e1
        exact OptForm.of_eq e1 (.structGate h)
      · refine .ite (.trap h) ?_
        extract_lets
        split
        · rename_i e1
          exact OptForm.of_eq e1 (.structGates h)
        · exact .done h (.setGang (.vaWrite h))

theorem Res.MemForm.qdone {f : ClassB} (h : s.MemForm) : Res.MemForm (execQdone f s) :=
  .next (.engineE h (fun _ h1 => by
    extract_lets
    split
    · exact .done h1 (.setGang h1)
    · exact .setGang h1))

theorem State.MemForm.wsendLane {gkey me off dst : Nat} (h : s.MemForm) : (s.wsendLane gkey me off dst).2.MemForm := by
  unfold State.wsendLane
  extract_lets
  split
  · exact h
  · split
    · exact h
    · split
      · exact h
      · exact .sendFrame (.setGang (.setGroupAt h))

theorem State.MemForm.wsendLanes {gkey me : Nat} {l : List (Nat × Nat × Nat)} (h : s.MemForm) :
    (s.wsendLanes gkey me l).2.MemForm := by
  induction l generalizing s with
  | nil => exact h
  | cons p r ih => exact ih (.wsendLane h)

theorem Res.MemForm.wsend {f : ClassE} (h : s.MemForm) : Res.MemForm (execWsend f s) := by
  unfold Machine.execWsend
  extract_lets
  refine .next ?_
  split
  · rename_i e1
    exact OptForm.of_eq e1 (.laneGate h)
  · split
    · rename_i e1
      exact OptForm.of_eq e1 (.engineGate h)
    · split
      · extract_lets
        split
        · exact .trap h
        · exact .trapLanes h
        · exact .ite h (.done h (.setGang (.wsendLanes (.release h))))
      · exact .trap h

/-! ### The functions of Machine/Launches -/

theorem State.MemForm.buildGroups {qk : Nat} {l : Launch} (h : s.MemForm) : (s.buildGroups qk l).MemForm :=
  .foldl h fun _ _ h1 => by
    split
    · exact h1
    · exact .ite (.setGroupAt h1) h1

theorem State.MemForm.moveQueue {a b : Nat} (h : s.MemForm) : (s.moveQueue a b).MemForm := h

theorem State.MemForm.whyAt {qk : Nat} {l : Launch} (h : s.MemForm) : (s.whyAt qk l).2.MemForm := by
  unfold State.whyAt
  dsimp only
  split
  · exact .upd h
  · exact h

theorem State.MemForm.serveQueue {qk : Nat} (h : s.MemForm) : (s.serveQueue qk).MemForm := .owe h

theorem State.MemForm.admitLaunch {qk : Nat} {q : Queue} (h : s.MemForm) : (s.admitLaunch qk q).MemForm := by
  unfold State.admitLaunch
  extract_lets
  split
  · exact .post (.vaWrite (.setLstat (.setQueueAt (.whyAt (.setQueueAt h)))))
  · exact .serveQueue (.buildGroups (.setQueueAt (.whyAt (.setQueueAt h))))

theorem State.MemForm.unpark {k qk : Nat} {q : Queue} (h : s.MemForm) : (s.unpark k qk q).MemForm :=
  .serveQueue (.ite (.setQueueAt (.setQueueAt (.moveQueue h))) (.setQueueAt (.moveQueue h)))

theorem State.MemForm.bindQueue {qk a : Nat} (h : s.MemForm) : (s.bindQueue qk a).MemForm := by
  unfold State.bindQueue
  extract_lets
  split
  · exact .unpark (.ite (.setQueueAt (.endLaunch (.setQueueAt h))) (.setQueueAt h))
  · exact .admitLaunch (.setQueueAt (.ite (.setQueueAt (.endLaunch (.setQueueAt h))) (.setQueueAt h)))

theorem State.MemForm.unheads {qk : Nat} (h : s.MemForm) : (s.unheads qk).MemForm :=
  .setQueueAt (.foldl h fun _ _ h1 => .setQueueAt (.vaWrite h1))

theorem State.MemForm.unbindQueue {qk : Nat} (h : s.MemForm) : (s.unbindQueue qk).MemForm :=
  .moveQueue (.upd (.setQueueAt
    (.poolFree (.vaWrite (.vaWrite (.foldl (.unheads h) fun _ _ h1 => .vaWrite (.vaWrite h1)))))))

theorem State.MemForm.stopQueue {qk : Nat} (h : s.MemForm) : (s.stopQueue qk).MemForm :=
  .foldl (.setQueueAt h) fun _ _ h1 => .ite (.save h1) h1

/-! ### The functions of Machine/System -/

theorem Res.MemForm.srd {f : ClassS} (h : s.MemForm) : Res.MemForm (execSrd f s) := by
  unfold Machine.execSrd
  extract_lets
  refine .next ?_
  refine .ite ?_ ?_
  · split
    · rename_i e1
      exact OptForm.of_eq e1 (.groupGate h)
    · exact .done h (.setGang h)
  · split
    · rename_i e1
      exact OptForm.of_eq e1 (.laneGate h)
    · exact .done h (.setGang h)

theorem State.MemForm.swr {f : ClassS} {narrow free : Bool} {act : State → DWord → List (Nat × DWord) → State}
    (h : s.MemForm) (hact : ∀ t, t.MemForm → ∀ y z, (act t y z).MemForm) :
    (s.swr f narrow free act).MemForm := by
  unfold State.swr
  dsimp only
  refine .ite ?_ ?_
  · split
    · rename_i e1
      exact OptForm.of_eq e1 (.groupGate h)
    · split
      · rename_i e1
        exact OptForm.of_eq e1 (.ite .none (.engineGate h))
      · exact hact _ (.setGang h) _ _
  · split
    · rename_i e1
      exact OptForm.of_eq e1 (.laneGate h)
    · split
      · rename_i e1
        exact OptForm.of_eq e1 (.ite .none (.engineGate h))
      · exact hact _ (.setGang h) _ _

theorem State.MemForm.swrOne {f : ClassS} {act : State → DWord → State} (h : s.MemForm)
    (hact : ∀ t, t.MemForm → ∀ y, (act t y).MemForm) :
    (s.swrOne f act).MemForm :=
  .swr h (fun _ h1 _ _ => .done h1 (hact _ h1 _))

theorem State.MemForm.inRange {lo hi v : Nat} (h : s.MemForm) : (s.inRange lo hi v).2.MemForm := by
  unfold State.inRange
  split
  · exact h
  · exact .freeVal h

theorem State.MemForm.setFwReg {die n v : Nat} (h : s.MemForm) : (s.setFwReg die n v).MemForm := by
  unfold State.setFwReg
  extract_lets
  refine .ite (.setDieAt h) ?_
  split
  · exact .setDieAt (.inRange h)
  · exact .setDieAt h
  · exact .setDieAt (.inRange h)
  · exact .setDieAt (.inRange h)
  · exact .setDieAt (.inRange h)
  · exact h

theorem Res.MemForm.swr {f : ClassS} (h : s.MemForm) : Res.MemForm (execSwr f s) :=
  .next (.swrOne h (fun _ h1 _ => .setFwReg h1))

theorem Res.MemForm.qcfgWrite {f : ClassS} (h : s.MemForm) : Res.MemForm (execQcfgWrite f s) := by
  unfold Machine.execQcfgWrite
  extract_lets
  refine .next (.ite (.ite h (.writeQcfg h)) ?_)
  extract_lets
  refine .ite h (.ite (.illegal h) ?_)
  split
  · rename_i e1
    exact OptForm.of_eq e1 (.laneGate h)
  · exact .writeQcfg h

theorem Res.MemForm.mstatClear {f : ClassS} (h : s.MemForm) : Res.MemForm (execMstatClear f s) :=
  .next (.swr h (fun _ h1 _ _ => .done h1 (.setGang h1)))

theorem Res.MemForm.srstateWrite {f : ClassS} (h : s.MemForm) : Res.MemForm (execSrstateWrite f s) :=
  .next (.swr h (fun _ h1 _ _ => .done h1 (.setGang h1)))

theorem Res.MemForm.stklimWrite {f : ClassS} (h : s.MemForm) : Res.MemForm (execStklimWrite f s) :=
  .next (.swrOne h (fun _ h1 _ => .setGang h1))

theorem Res.MemForm.heapRegWrite {f : ClassS} (h : s.MemForm) : Res.MemForm (execHeapRegWrite f s) :=
  .next (.swrOne h (fun _ h1 _ => .setTeam h1))

theorem Res.MemForm.windowWrite {f : ClassS} (h : s.MemForm) : Res.MemForm (execWindowWrite f s) :=
  .next (.swrOne h (fun _ h1 _ => .setTeam h1))

theorem Res.MemForm.cceshareWrite {f : ClassS} (h : s.MemForm) : Res.MemForm (execCceshareWrite f s) :=
  .next (.swrOne h (fun _ h1 _ => .setDieAt h1))

theorem State.MemForm.rearm {gkey : Nat} (h : s.MemForm) : (s.rearm gkey).MemForm :=
  .foldl (.setGroupAt h) fun _ _ h1 => .foldl h1 fun _ _ h2 => .setGangAt h2

theorem Res.MemForm.grstWrite {f : ClassS} (h : s.MemForm) : Res.MemForm (execGrstWrite f s) :=
  .next (.swr h (fun _ h1 _ _ => .ite (.trap h1) (.done h1 (.foldl h1 fun _ _ h2 => .rearm h2))))

theorem Res.MemForm.plimWrite {f : ClassS} (h : s.MemForm) : Res.MemForm (execPlimWrite f s) :=
  .next (.swrOne h (fun _ h1 _ => h1))

theorem Res.MemForm.time {f : ClassS} (h : s.MemForm) : Res.MemForm (execTime f s) :=
  .next (.groupDo h)

theorem Res.MemForm.sysc {f : ClassB} (h : s.MemForm) : Res.MemForm (execSysc f s) := by
  unfold Machine.execSysc
  refine .next ?_
  split
  · rename_i e1
    exact OptForm.of_eq e1 (.groupGate h)
  · split
    · rename_i e1
      exact OptForm.of_eq e1 (.engineGate h)
    · exact .ite (.owe (.setGang h)) (.ite h (.post (.setGang h)))

theorem Res.MemForm.syscAnswer {gang : Nat} (h : s.MemForm) : Res.MemForm (execSyscAnswer gang s) :=
  .next (.ite h (.ite h (.asPart (.acquire (.setGangAt (.homeRead h))) (fun _ h1 => .advance h1))))

theorem State.MemForm.tret {f : ClassB} {skip : Bool} (h : s.MemForm) : (s.tret f skip).MemForm := by
  unfold State.tret
  split
  · rename_i e1
    exact OptForm.of_eq e1 (.groupGate h)
  · exact .ite (.halt h) (.ite (.setGang h) (.done h h))

theorem Res.MemForm.tret {f : ClassB} (h : s.MemForm) : Res.MemForm (execTret f s) :=
  .next (.tret h)

theorem Res.MemForm.tretSkip {f : ClassB} (h : s.MemForm) : Res.MemForm (execTretSkip f s) :=
  .next (.tret h)

theorem State.MemForm.dropColl {k grp : Nat} (h : s.MemForm) : (s.dropColl k grp).MemForm :=
  .setGangAt (.setTeamAt h)

theorem Res.MemForm.asyncTrap {gang cause : Nat} {info : DWord} (h : s.MemForm) :
    Res.MemForm (execAsyncTrap gang cause info s) :=
  .next (.ite h (.ite (.owe h) (.ite (.owe h) (.ite (.lintelTrap h) (.ite (.dropColl (.asyncTake h)) (.asyncTake h))))))

theorem State.MemForm.queueCmd {f : ClassS} {gs : List Nat} {act : State → Nat → DWord → State} (h : s.MemForm)
    (hact : ∀ t, t.MemForm → ∀ y z, (act t y z).MemForm) :
    (s.queueCmd f gs act).MemForm := by
  unfold State.queueCmd
  split
  · rename_i e1
    exact OptForm.of_eq e1 (.groupGate h)
  · exact hact _ h _ _

theorem State.MemForm.unmapThen {qk : Nat} {act : State → State} (h : s.MemForm) (hact : ∀ t, t.MemForm → (act t).MemForm) :
    (s.unmapThen qk act).MemForm :=
  .ite (.ite (hact _ (.unbindQueue (.stopQueue h))) (.stopQueue h)) (hact _ h)

theorem Res.MemForm.qmap {f : ClassS} (h : s.MemForm) : Res.MemForm (execQmap f s) :=
  .next (.queueCmd h (fun _ h1 _ _ => .ite (.trap h1) (.unmapThen h1 (fun _ h2 => .done h2 (.bindQueue h2)))))

theorem Res.MemForm.qunmap {f : ClassS} (h : s.MemForm) : Res.MemForm (execQunmap f s) :=
  .next (.queueCmd h (fun _ h1 _ _ => .unmapThen h1 (fun _ h2 => .done h2 h2)))

theorem State.MemForm.setSuspended {qk : Nat} {b : Bool} (h : s.MemForm) : (s.setSuspended qk b).MemForm :=
  .ite (.setQueueAt h) h

theorem Res.MemForm.qswSuspend {f : ClassS} (h : s.MemForm) : Res.MemForm (execQswSuspend f s) :=
  .next (.queueCmd h (fun _ h1 _ _ => .done h1 (.setSuspended h1)))

theorem Res.MemForm.qswResume {f : ClassS} (h : s.MemForm) : Res.MemForm (execQswResume f s) :=
  .next (.queueCmd h (fun _ h1 _ _ => .done h1 (.owe (.setSuspended h1))))

theorem State.MemForm.preempt {qk : Nat} (h : s.MemForm) : (s.preempt qk).MemForm :=
  .owe (.foldl h fun _ _ h1 => .ite (.save (.setCohortAt h1)) h1)

theorem Res.MemForm.qswPreempt {f : ClassS} (h : s.MemForm) : Res.MemForm (execQswPreempt f s) :=
  .next (.queueCmd h fun _ h1 _ _ =>
    have h2 := .unless h1 fun h => .setGang (.preempt h)
    .unless h2 fun h2 => .done h2 (.setGang h2))

theorem Res.MemForm.qswKill {f : ClassS} (h : s.MemForm) : Res.MemForm (execQswKill f s) :=
  .next (.queueCmd h (fun _ h1 _ _ => .ite (.trap h1) (.done h1 (.owe (.foldl h1 fun _ _ h2 => .kill h2)))))

theorem Res.MemForm.qswPrio {f : ClassS} (h : s.MemForm) : Res.MemForm (execQswPrio f s) :=
  .next (.queueCmd h (fun _ h1 _ _ => .done h1 (.ite (.setQueueAt h1) h1)))

/-! ### The functions of Machine/Place -/

theorem State.MemForm.oweOnce {e : Instr} (h : s.MemForm) : (s.oweOnce e).MemForm :=
  .ite h (.owe h)

theorem State.MemForm.setFused {cluster : Nat} {fused : Bool} (h : s.MemForm) : (s.setFused cluster fused).MemForm :=
  .ite h (.dropL1 (.setMxAt h))

theorem State.MemForm.addTeam {qk cohort teamid core : Nat} {x : Shape} {code frame crec : Nat} {cohid grpm : DWord}
    {regions : List Nat} (h : s.MemForm) :
    (s.addTeam qk cohort teamid core x code frame crec cohid grpm regions).MemForm :=
  .owe (.logEvent (.setCohortAt (.setTeamAt (.foldl h fun _ _ h1 => .setGangAt h1))))

theorem State.MemForm.startCohort {qk crec cluster : Nat} {cores : List Nat} {x : Shape} {code frame : Nat} {cohid : DWord}
    {root : Bool} {regions : List Nat} (h : s.MemForm) :
    (s.startCohort qk crec cluster cores x code frame cohid root regions).MemForm :=
  .foldl (.setFused (.setQueueAt (.setCohortAt h))) fun _ _ h1 => .addTeam h1

/-! ### The functions of Machine/Kiln -/

theorem State.MemForm.drain {cores : List Nat} (h : s.MemForm) : (s.drain cores).MemForm :=
  .foldl (.foldl h fun _ _ h1 => .setCoreAt h1) fun _ _ h1 => .ite (.save h1) h1

theorem State.MemForm.undrain {cores : List Nat} (h : s.MemForm) : (s.undrain cores).MemForm :=
  .foldl h fun _ _ h1 => .setCoreAt h1

theorem State.MemForm.saveLintel {cluster : Nat} (h : s.MemForm) : (s.saveLintel cluster).MemForm := by
  unfold State.saveLintel
  split
  · exact .ite (.save h) h
  · exact h

theorem State.MemForm.noteShut {die unit ukind code : Nat} (h : s.MemForm) : (s.noteShut die unit ukind code).MemForm :=
  .upd (.logEvent h)

theorem State.MemForm.shutCore {core : Nat} (h : s.MemForm) : (s.shutCore core).MemForm :=
  .ite h (.noteShut (.setDieAt (.setCoreAt h)))

theorem State.MemForm.retireCore {core : Nat} (h : s.MemForm) : (s.retireCore core).MemForm :=
  .ite h (.ite (.shutCore (.drain h)) (.setCoreAt (.drain h)))

theorem State.MemForm.shutLeaving (h : s.MemForm) : s.shutLeaving.MemForm := .foldl h fun _ _ h1 => .ite (.shutCore h1) h1

theorem State.MemForm.shutCluster {c ukind : Nat} (h : s.MemForm) : (s.shutCluster c ukind).MemForm :=
  .ite h (.foldl (.noteShut (.saveLintel (.setMxAt h))) fun _ _ h1 => .retireCore h1)

theorem State.MemForm.startCluster {die c : Nat} {extra : Bool} (h : s.MemForm) : (s.startCluster die c extra).MemForm :=
  .saveLintel (.setDieAt (.setMxAt h))

theorem State.MemForm.kilnNext {die : Nat} (h : s.MemForm) : (s.kilnNext die).MemForm := by
  unfold State.kilnNext
  extract_lets
  refine .ite h ?_
  split
  · exact .ite (.setDieAt h) (.startCluster (.setDieAt h))
  · split
    · exact .ite (.startCluster (.setDieAt h)) h
    · exact h

theorem Res.MemForm.kilnCoreTimer {die : Nat} (h : s.MemForm) : Res.MemForm (execKilnCoreTimer die s) := by
  unfold Machine.execKilnCoreTimer
  extract_lets
  refine .next ?_
  split
  · exact .ite (.oweOnce h) (.drain (.setDieAt h))
  · exact h

theorem Res.MemForm.kilnClusterTimer {die : Nat} (h : s.MemForm) : Res.MemForm (execKilnClusterTimer die s) :=
  .next (.kilnNext (.setDieAt h))

theorem Res.MemForm.kilnDrainComplete {die : Nat} {matrix : Bool} (h : s.MemForm) :
    Res.MemForm (execKilnDrainComplete die matrix s) := by
  unfold Machine.execKilnDrainComplete
  extract_lets
  refine .next ?_
  split
  · exact h
  · exact .ite h (.setDieAt h)

theorem State.MemForm.endPass {die : Nat} {matrix : Bool} {p : Kiln} (h : s.MemForm) : (s.endPass die matrix p).MemForm :=
  .oweOnce (.kilnNext (.setDieAt h))

theorem State.MemForm.undrainMx {c : Nat} (h : s.MemForm) : (s.undrainMx c).MemForm :=
  .ite (.setMxAt h) (.owe (.setMxAt h))

theorem State.MemForm.setPass {die unit instant : Nat} (h : s.MemForm) : (s.setPass die unit instant).MemForm := .setDieAt h

theorem Res.MemForm.kilnScanComplete {die : Nat} {matrix pass : Bool} (h : s.MemForm) :
    Res.MemForm (execKilnScanComplete die matrix pass s) := by
  unfold Machine.execKilnScanComplete
  extract_lets
  refine .next ?_
  split
  · exact h
  · exact .ite h (.ite (.ite (.endPass (.undrainMx (.foldl h fun _ _ h1 => .logEvent (.setPass h1))))
      (.endPass (.shutCluster (.logEvent (.freePick h)))))
      (.ite (.endPass (.undrain (.dropL1 (.setCoreAt (.logEvent (.setPass h))))))
      (.endPass (.shutCore (.undrain (.logEvent h))))))

theorem State.MemForm.retirePlace {p : ErrorPlace} {k : Nat} (h : s.MemForm) : (s.retirePlace p k).MemForm := by
  unfold State.retirePlace
  split
  · exact .retireCore h
  · exact .shutCluster h
  · exact h
  · exact h

theorem State.MemForm.errorUnit {p : ErrorPlace} (h : s.MemForm) : (s.errorUnit p).2.MemForm := by
  unfold State.errorUnit
  split
  · exact State.MemForm.freePick (n := 3) h
  · exact h

theorem Res.MemForm.uncorrectableErrorConsumed {cohort : Nat} {place : ErrorPlace} (h : s.MemForm) :
    Res.MemForm (execUncorrectableErrorConsumed cohort place s) :=
  .next (.ite (.oweOnce (.retirePlace (.dataKill (.errorUnit h)))) (.retirePlace (.logEvent (.errorUnit h))))

theorem Res.MemForm.watchdogT1 {team : Nat} (h : s.MemForm) : Res.MemForm (execWatchdogT1 team s) :=
  .next (.ite (.preempt h) h)

theorem State.MemForm.watchKill {team : Nat} (h : s.MemForm) : (s.watchKill team).MemForm :=
  .oweOnce (.post (.kill h))

theorem Res.MemForm.watchdogT2 {team : Nat} (h : s.MemForm) : Res.MemForm (execWatchdogT2 team s) :=
  .next (.ite (.watchKill h) h)

theorem Res.MemForm.watchdogT3 {team : Nat} (h : s.MemForm) : Res.MemForm (execWatchdogT3 team s) :=
  .next (.ite (.retireCore (.watchKill h)) h)

/-! ### The functions of Machine/HostPort -/

theorem State.MemForm.setFn {fn : Nat} {f : HostFn} (h : s.MemForm) : (s.setFn fn f).MemForm := h

theorem State.MemForm.setHq {fn q : Nat} {hd : HQueue} (h : s.MemForm) : (s.setHq fn q hd).MemForm := .setFn h

theorem State.MemForm.hostError {a : Nat} (h : s.MemForm) : (s.hostError a).MemForm := .logEvent h

theorem State.MemForm.hqEntry {fn q : Nat} (h : s.MemForm) : (s.hqEntry fn q).2.MemForm := by
  unfold State.hqEntry
  extract_lets
  split
  · exact h
  · exact .freeBytes h

theorem State.MemForm.hqTake {fn q : Nat} (h : s.MemForm) : (s.hqTake fn q).2.MemForm := by
  unfold State.hqTake
  extract_lets
  split
  · exact h
  · split
    · exact .upd (.setHq (.hqEntry h))
    · split
      · exact .owe (.setHq (.hqEntry h))
      · exact .upd (.setHq (.hqEntry h))

theorem State.MemForm.hqDrain {fn q n : Nat} (h : s.MemForm) : (s.hqDrain fn q n).MemForm := by
  induction n generalizing s with
  | zero => exact h
  | succ n ih => exact .ite (ih (.hqTake h)) (.hqTake h)

theorem State.MemForm.hqGo {fn q : Nat} (h : s.MemForm) : (s.hqGo fn q).MemForm :=
  .ite (.hqDrain h) h

theorem State.MemForm.openQueues (h : s.MemForm) : s.openQueues.MemForm :=
  .foldl h fun _ _ h1 => .foldl h1 fun _ _ h2 => .ite h2 (.hqGo h2)

theorem Res.MemForm.hqTailWrite {fn q tail : Nat} (h : s.MemForm) : Res.MemForm (execHqTailWrite fn q tail s) :=
  .next (.ite h (.ite (.setHq h) (.ite (.setHq h) (.hqGo (.setHq h)))))

theorem Res.MemForm.hqEntryReread {fn q : Nat} (h : s.MemForm) : Res.MemForm (execHqEntryReread fn q s) :=
  .next (.ite h (.hqDrain h))

theorem Res.MemForm.hqStatusClear {fn q bits : Nat} (h : s.MemForm) : Res.MemForm (execHqStatusClear fn q bits s) :=
  .next (.ite (.setHq h) (.hqGo (.setHq h)))

theorem Res.MemForm.hqQlogWrite {fn q value : Nat} (h : s.MemForm) : Res.MemForm (execHqQlogWrite fn q value s) :=
  .next (.setHq (by
    split
    · exact h
    · exact .freePick h))

theorem Res.MemForm.hqCompletion {fn q addr : Nat} {body : List Byte} (h : s.MemForm) :
    Res.MemForm (execHqCompletion fn q addr body s) :=
  .next h

theorem State.MemForm.inboundWait {e : Instr} (h : s.MemForm) : (s.inboundWait e).MemForm := .owe h

theorem State.MemForm.inboundDo {fn off : Nat} {body : List Byte} {e : Instr} (h : s.MemForm) :
    (s.inboundDo fn off body e).MemForm := by
  unfold State.inboundDo
  split
  · exact .ite (.inboundWait h) (.writeNow (.logDown h))
  · exact .hostError h

theorem Res.MemForm.inboundPostedWrite {fn rid off : Nat} {body : List Byte} {ro : Bool} (h : s.MemForm) :
    Res.MemForm (execInboundPostedWrite fn rid off body ro s) :=
  .next (.ite (.inboundDo h) (.ite (.ite (.inboundDo (.freePick h)) (.inboundWait (.freePick h))) (.inboundWait h)))

theorem Res.MemForm.inboundRead {fn off len : Nat} (h : s.MemForm) : Res.MemForm (execInboundRead fn off len s) := by
  unfold Machine.execInboundRead
  refine .next ?_
  split
  · exact .ite (.upd (.freeBytes h)) h
  · exact .upd (.hostError h)

theorem Res.MemForm.inboundAtomic {fn off : Nat} (h : s.MemForm) : Res.MemForm (execInboundAtomic fn off s) := .next h

theorem Res.MemForm.pReadCompletion {gang id : Nat} {body : Option (List Byte)} (h : s.MemForm) :
    Res.MemForm (execPReadCompletion gang id body s) := by
  unfold Machine.execPReadCompletion
  refine .next ?_
  split
  · exact h
  · extract_lets
    split
    · exact .endCheck (.answer (.setGangAt h))
    · exact .endCheck (.answer (.hostError (.setGangAt h)))

theorem Res.MemForm.cxlLinkDown {die : Nat} (h : s.MemForm) : Res.MemForm (execCxlLinkDown die s) :=
  .next (.setDieAt h)

/-! ### The functions of Machine/Boot -/

theorem State.MemForm.freeDigest (h : s.MemForm) : s.freeDigest.2.MemForm := .freeBytes h

/-- A module reset leaves memory with nothing listed. -/
theorem State.MemForm.afterReset : s.afterReset.MemForm := rfl

theorem Res.MemForm.moduleReset {copyA copyB : Option (BitVec 384)} (_h : s.MemForm) :
    Res.MemForm (execModuleReset copyA copyB s) :=
  .next (.upd .afterReset)

theorem Res.MemForm.bootStage1 {image : Option (BitVec 384)} (h : s.MemForm) : Res.MemForm (execBootStage1 image s) := by
  unfold Machine.execBootStage1
  refine .next (.ite h ?_)
  split <;> exact h

theorem State.MemForm.without {b : BootStep} (h : s.MemForm) : (s.without b).MemForm := by
  unfold State.without
  split
  · exact .setDieAt h
  · exact .foldl h fun _ _ h1 => .setDieAt h1
  · exact .setDieAt h
  · exact .setDieAt h
  · exact .setCoreAt h
  · exact .foldl (.setMxAt h) fun _ _ h1 => .setCoreAt h1
  · exact h

theorem State.MemForm.journal {n : Nat} {e : Step} (h : s.MemForm) : (s.journal n e).MemForm := h

theorem State.MemForm.bootStep {failed : List Nat} {n : Nat} {b : BootStep} (h : s.MemForm) :
    (s.bootStep failed n b).MemForm := by
  unfold State.bootStep
  refine .ite h ?_
  extract_lets _ _ _ _ e _ _ _ s1
  have h1 : s1.MemForm := .ite h (.ite (.upd (.journal h)) (.journal (.journal h)))
  clear_value s1 e
  refine .ite h1 ?_
  split
  · exact h1
  · exact .upd h1
  · split
    · exact .upd (.without h1)
    · exact .without h1

theorem Res.MemForm.bootStage2 {failed : List Nat} (h : s.MemForm) : Res.MemForm (execBootStage2 failed s) :=
  .next (.ite h (.unless (.foldl h fun _ _ h1 => .bootStep h1) fun h =>
    .upd (.freeDigest (.foldl h fun _ _ h1 => .setDieAt h1))))

theorem Res.MemForm.bootStage3 (h : s.MemForm) : Res.MemForm (execBootStage3 s) :=
  .next (.ite h (.openQueues (.upd (.freeDigest h))))

theorem Res.MemForm.powerWindow {watts : Nat} (h : s.MemForm) : Res.MemForm (execPowerWindow watts s) := .next h

theorem Res.MemForm.junctionThrottle (h : s.MemForm) : Res.MemForm (execJunctionThrottle s) := .next h

theorem Res.MemForm.junctionBelow100C (h : s.MemForm) : Res.MemForm (execJunctionBelow100C s) := .next h

theorem State.MemForm.trip (h : s.MemForm) : s.trip.MemForm := h

theorem Res.MemForm.thermalTrip (h : s.MemForm) : Res.MemForm (execThermalTrip s) :=
  .next (.trip h)

theorem Res.MemForm.electricalTrip (h : s.MemForm) : Res.MemForm (execElectricalTrip s) :=
  .next (.trip h)

/-! ### The functions of Machine/Copy -/

theorem State.MemForm.rangeRaise {c : Nat} {a : VAddr} (h : s.MemForm) : (s.rangeRaise c a).MemForm := .trapLanes h

theorem State.MemForm.startCopy {c : Copy} (h : s.MemForm) : (s.startCopy c).MemForm :=
  .ite h (.owe (.barPend (.setGang h)))

theorem Res.MemForm.cpy {f : ClassE} (h : s.MemForm) : Res.MemForm (execCpy f s) := by
  unfold Machine.execCpy
  refine .next ?_
  split
  · rename_i e1
    exact OptForm.of_eq e1 (.groupGate h)
  · split
    · rename_i e1
      exact OptForm.of_eq e1 (.engineGate h)
    · extract_lets
      refine .ite h ?_
      split
      · exact .rangeRaise h
      · split
        · exact .rangeRaise h
        · exact .done h (.startCopy h)

theorem Res.MemForm.gth {f : ClassE} (h : s.MemForm) : Res.MemForm (execGth f s) := by
  unfold Machine.execGth
  extract_lets
  refine .next ?_
  split
  · rename_i e1
    exact OptForm.of_eq e1 (.laneGate h)
  · split
    · rename_i e1
      exact OptForm.of_eq e1 (.engineGate h)
    · refine .ite h ?_
      extract_lets
      split
      · exact .trapLanes h
      · exact .rangeRaise h
      · split
        · exact .trapLanes h
        · exact .trapLanes h
        · exact .done h (.startCopy (.setGang h))

theorem State.MemForm.engineFill {gk sp n : Nat} {va : VAddr} (h : s.MemForm) : (s.engineFill gk sp n va).MemForm := by
  unfold State.engineFill
  refine .ite h ?_
  extract_lets
  split
  · exact .fillP7 (.p7Pick h)
  · exact h

theorem Wrote.MemForm.engineWriteG {gk : Nat} {va : VAddr} {b : List Byte} (h : s.MemForm) :
    Wrote.MemForm (s.engineWriteG gk va b) := by
  unfold State.engineWriteG
  extract_lets
  split
  · exact .bad
  · extract_lets
    split
    · split
      · exact .bad
      · split
        · exact .ok (.consume h)
        · exact .ok (.writeNow (.ite (.logDown h) (.upd (.writeNow (.logDown h)))))
    · exact .absent
    · exact .absent
    · exact .bad

theorem Wrote.MemForm.engineWrite {gk sp : Nat} {va : VAddr} {b : List Byte} (h : s.MemForm) :
    Wrote.MemForm (s.engineWrite gk sp va b) := by
  unfold State.engineWrite
  split
  · exact .engineWriteG h
  · split
    · split
      · exact .locked
      · exact .ok (.spadWrite h)
    · exact .bad

theorem State.MemForm.setCopy {c : Copy} (h : s.MemForm) : (s.setCopy c).MemForm := h

theorem State.MemForm.copyFault {c : Copy} {va : VAddr} {acc : Nat} (h : s.MemForm) : (s.copyFault c va acc).MemForm :=
  .engineFault h

theorem State.MemForm.copyAbandon {c : Copy} {va : VAddr} (h : s.MemForm) : (s.copyAbandon c va).MemForm :=
  .abandon (.setCopy h)

theorem State.MemForm.landUnit {c : Copy} {b : List Byte} (h : s.MemForm) : (s.landUnit c b).MemForm := by
  unfold State.landUnit
  extract_lets
  refine .ite (.owe (.setCopy h)) ?_
  split
  · exact .copyFault (.setCopy h)
  · exact .copyAbandon h
  · exact .owe (.setCopy h)
  · rename_i e1
    have h1 := Wrote.MemForm.of_eq e1 (.engineWrite h)
    exact .owe (.setCopy h1)

theorem Res.MemForm.copyUnit {id : Nat} (h : s.MemForm) : Res.MemForm (execCopyUnit id s) := by
  unfold Machine.execCopyUnit
  refine .next ?_
  split
  · exact h
  · refine .ite h ?_
    extract_lets
    split
    · exact .landUnit (.noteRead (.engineFill h))
    · exact .owe h
    · exact .copyFault h
    · exact .copyAbandon h
    · exact .consume h
    · exact .sendFrame (.setCopy h)

theorem Res.MemForm.copyComplete {id : Nat} (h : s.MemForm) : Res.MemForm (execCopyComplete id s) := by
  unfold Machine.execCopyComplete
  refine .next ?_
  split
  · exact h
  · exact .ite h (.endCheck (.barArrive (.setGangAt h)))

theorem State.MemForm.engineB {hd : Header} {gs : List Nat} {act : State → State} (h : s.MemForm)
    (hact : ∀ t, t.MemForm → (act t).MemForm) :
    (s.engineB hd gs act).MemForm := by
  unfold State.engineB
  split
  · rename_i e1
    exact OptForm.of_eq e1 (.groupGate h)
  · split
    · rename_i e1
      exact OptForm.of_eq e1 (.engineGate h)
    · exact hact _ h

theorem Res.MemForm.bcommit {f : ClassB} (h : s.MemForm) : Res.MemForm (execBcommit f s) :=
  .next (.engineB h (fun _ h1 => .done (.setGang h1) (.upd (.setGang h1))))

theorem Res.MemForm.bwait {f : ClassB} (h : s.MemForm) : Res.MemForm (execBwait f s) :=
  .next (.engineB h (fun _ h1 => .ite h1 (.done h1 h1)))

theorem Res.MemForm.bwaitG {f : ClassB} (h : s.MemForm) : Res.MemForm (execBwaitG f s) :=
  .next (.engineB h (fun _ h1 => .ite h1 (.done h1 h1)))

theorem Res.MemForm.waitc {f : ClassB} (h : s.MemForm) : Res.MemForm (execWaitc f s) :=
  .next (.engineB h (fun _ h1 => .ite h1 (.done h1 h1)))

theorem Res.MemForm.publ {f : ClassM} (h : s.MemForm) : Res.MemForm (execPubl f s) := by
  unfold Machine.execPubl
  refine .next ?_
  split
  · rename_i e1
    exact OptForm.of_eq e1 (.groupGate h)
  · split
    · rename_i e1
      exact OptForm.of_eq e1 (.engineGate h)
    · extract_lets
      refine .ite h ?_
      split
      · exact .trap h
      · exact .done h (.owe (.setGang h))

theorem State.MemForm.swingBlocks {x : Xl} {b : Swing} (h : s.MemForm) : (s.swingBlocks x b).MemForm :=
  .upd (.foldl h fun _ _ h1 => .vaWrite h1)

theorem State.MemForm.leaveStale {x : Xl} {b : Swing} (h : s.MemForm) : (s.leaveStale x b).MemForm :=
  .ite h (.mapCores h)

theorem Res.MemForm.publSwing {id : Nat} (h : s.MemForm) : Res.MemForm (execPublSwing id s) := by
  unfold Machine.execPublSwing
  refine .next ?_
  split
  · exact h
  · dsimp only
    refine .ite (.owe h) ?_
    split
    · exact .engineFault h
    · exact .endCheck (by
        split
        · exact .setGangAt h
        · exact .writeNow (.swingBlocks (.leaveStale (.setGangAt h))))

theorem State.MemForm.bcbOp {f : ClassM} {act : State → Nat → Nat → State} (h : s.MemForm)
    (hact : ∀ t, t.MemForm → ∀ y z, (act t y z).MemForm) :
    (s.bcbOp f act).MemForm := by
  unfold State.bcbOp
  split
  · rename_i e1
    exact OptForm.of_eq e1 (.groupGate h)
  · split
    · rename_i e1
      exact OptForm.of_eq e1 (.engineGate h)
    · extract_lets
      refine .ite h ?_
      split
      · exact .rangeRaise h
      · exact hact _ h _ _
      · exact h

theorem Res.MemForm.bcbarm {f : ClassM} (h : s.MemForm) : Res.MemForm (execBcbarm f s) :=
  .next (.bcbOp h (fun _ h1 _ _ => .done h1 (.setBcb h1)))

theorem Res.MemForm.bcbadd {f : ClassM} (h : s.MemForm) : Res.MemForm (execBcbadd f s) :=
  .next (.bcbOp h (fun _ h1 _ _ => .done h1 (.setBcb (.setTeamAt h1))))

theorem Res.MemForm.bcbwait {f : ClassM} (h : s.MemForm) : Res.MemForm (execBcbwait f s) :=
  .next (.bcbOp h (fun _ h1 _ _ => .ite h1 (.done h1 (.acquire h1))))

/-! ### The functions of Machine/Fetch -/

theorem State.MemForm.askPiece {gk : Nat} {far : Nat × Nat × Nat} {p : Nat × Nat} (h : s.MemForm) :
    (s.askPiece gk far p).2.MemForm :=
  .sendFrame h

theorem Gathered.MemForm.gather {gk sp id : Nat} {go : Instr} {rs : List (Nat × Nat)} (h : s.MemForm) :
    Gathered.MemForm (s.gather gk sp id go rs) := by
  unfold State.gather
  dsimp only
  split
  · exact .absent
  · exact .bad
  · split
    · exact .wait (.consume h)
    · split
      · exact .wait h
      · split
        · exact .wait (.owe h)
        · split
          · exact .wait (.upd (.foldl_snd h fun _ _ h1 => .askPiece h1))
          · exact .ok (.upd (.noteRead (.foldl h fun _ _ h1 => by
              split
              · exact .engineFill h1
              · exact h1)))

theorem State.MemForm.answerFetch {tag : Nat} {bytes : List Byte} (h : s.MemForm) : (s.answerFetch tag bytes).MemForm := by
  unfold State.answerFetch
  split
  · exact .ite (.owe h) h
  · exact h

theorem Wrote.MemForm.engineWriteAll {gk sp : Nat} {l : List (Nat × List Byte)} (h : s.MemForm) :
    (s.engineWriteAll gk sp l).MemForm := by
  induction l generalizing s with
  | nil => exact h
  | cons p r ih =>
    unfold State.engineWriteAll
    split
    · rename_i e
      exact ih (Wrote.MemForm.of_eq e (.engineWrite h))
    · exact .engineWrite h

theorem State.MemForm.engineWriteSome {gk sp : Nat} {l : List (Nat × List Byte)} (h : s.MemForm) :
    (s.engineWriteSome gk sp l).MemForm := by
  induction l generalizing s with
  | nil => exact h
  | cons p r ih =>
    unfold State.engineWriteSome
    split
    · rename_i e
      exact ih (Wrote.MemForm.of_eq e (.engineWrite h))
    · exact h

/-! ### The functions of Machine/Float -/

theorem State.MemForm.floatA {f : ClassA} {nb nc : Bool} {op : DWord → DWord → DWord → LaneOut} (h : s.MemForm) :
    (s.floatA f nb nc op).MemForm :=
  .ite (.aluGroup h) (.ite h (.aluLane h))

theorem State.MemForm.float2 {f : ClassA} {op : FFmt → RMode → Nat → Nat → Nat × DWord} (h : s.MemForm) :
    (s.float2 f op).MemForm :=
  .floatA h

theorem State.MemForm.float1 {f : ClassA} {op : FFmt → RMode → Nat → Nat × DWord} (h : s.MemForm) :
    (s.float1 f op).MemForm :=
  .floatA h

theorem Res.MemForm.fadd {f : ClassA} (h : s.MemForm) : Res.MemForm (execFadd f s) :=
  .next (.float2 h)

theorem Res.MemForm.fsub {f : ClassA} (h : s.MemForm) : Res.MemForm (execFsub f s) :=
  .next (.float2 h)

theorem Res.MemForm.fmul {f : ClassA} (h : s.MemForm) : Res.MemForm (execFmul f s) :=
  .next (.float2 h)

theorem Res.MemForm.ffma {f : ClassA} (h : s.MemForm) : Res.MemForm (execFfma f s) :=
  .next (.floatA h)

theorem Res.MemForm.fmin {f : ClassA} (h : s.MemForm) : Res.MemForm (execFmin f s) :=
  .next (.float2 h)

theorem Res.MemForm.fmax {f : ClassA} (h : s.MemForm) : Res.MemForm (execFmax f s) :=
  .next (.float2 h)

theorem Res.MemForm.fcmp {f : ClassA} (h : s.MemForm) : Res.MemForm (execFcmp f s) :=
  .next (.ite (.predGroup h) (.ite h (.predLane h)))

theorem Res.MemForm.frnd {f : ClassA} (h : s.MemForm) : Res.MemForm (execFrnd f s) :=
  .next (.float1 h)

theorem Res.MemForm.fclass {f : ClassA} (h : s.MemForm) : Res.MemForm (execFclass f s) :=
  .next (.float1 h)

theorem Res.MemForm.frcp {f : ClassA} (h : s.MemForm) : Res.MemForm (execFrcp f s) :=
  .next (.float1 h)

theorem Res.MemForm.frsq {f : ClassA} (h : s.MemForm) : Res.MemForm (execFrsq f s) :=
  .next (.float1 h)

theorem Res.MemForm.fsqrt {f : ClassA} (h : s.MemForm) : Res.MemForm (execFsqrt f s) :=
  .next (.float1 h)

theorem Res.MemForm.fexp2 {f : ClassA} (h : s.MemForm) : Res.MemForm (execFexp2 f s) :=
  .next (.float1 h)

theorem Res.MemForm.flog2 {f : ClassA} (h : s.MemForm) : Res.MemForm (execFlog2 f s) :=
  .next (.float1 h)

theorem State.MemForm.turnA {f : ClassA} {cosine : Bool} (h : s.MemForm) : (s.turnA f cosine).MemForm :=
  .ite (.aluGroup (.freeVal h)) (.aluLane (.freeVal h))

theorem Res.MemForm.fsin {f : ClassA} (h : s.MemForm) : Res.MemForm (execFsin f s) :=
  .next (.turnA h)

theorem Res.MemForm.fcos {f : ClassA} (h : s.MemForm) : Res.MemForm (execFcos f s) :=
  .next (.turnA h)

theorem Res.MemForm.fdiv {f : ClassA} (h : s.MemForm) : Res.MemForm (execFdiv f s) :=
  .next (.float2 h)

theorem Res.MemForm.fdot2 {f : ClassA} (h : s.MemForm) : Res.MemForm (execFdot2 f s) :=
  .next (.floatA h)

theorem Res.MemForm.idot4 {f : ClassA} (h : s.MemForm) : Res.MemForm (execIdot4 f s) :=
  .next (.ite (.aluGroup h) (.ite h (.aluLane h)))

theorem Res.MemForm.cvt {f : ClassE} (h : s.MemForm) : Res.MemForm (execCvt f s) :=
  .next (.ite (.aluGroup h) (.aluLane h))

theorem Res.MemForm.qpack {f : ClassE} (h : s.MemForm) : Res.MemForm (execQpack f s) := by
  unfold Machine.execQpack
  extract_lets
  refine .next (.ite (.illegal h) ?_)
  split
  · rename_i e1
    exact OptForm.of_eq e1 (.laneGate h)
  · exact .done h (.setGang h)

theorem Res.MemForm.qunpk {f : ClassE} (h : s.MemForm) : Res.MemForm (execQunpk f s) :=
  .next (.aluLane h)

/-! ### The functions of Machine/Matrix -/

theorem State.MemForm.descTrap {n reason : Nat} (h : s.MemForm) : (s.descTrap n reason).MemForm := .trap h

theorem State.MemForm.tdset {f : ClassE} {rowsM1 colsM1 : BitVec 16} {stride : Word} (h : s.MemForm) :
    (s.tdset f rowsM1 colsM1 stride).MemForm := by
  unfold State.tdset
  extract_lets
  refine .ite (.halt h) (.ite (.trap h) ?_)
  split
  · exact .descTrap h
  · exact .done h (.setGang h)

theorem Res.MemForm.tdsetImm {f : ClassE} (h : s.MemForm) : Res.MemForm (execTdsetImm f s) := by
  unfold Machine.execTdsetImm
  refine .next ?_
  split
  · rename_i e1
    exact OptForm.of_eq e1 (.groupGate h)
  · exact .tdset h

theorem Res.MemForm.tdsetReg {f : ClassE} (h : s.MemForm) : Res.MemForm (execTdsetReg f s) := by
  unfold Machine.execTdsetReg
  refine .next ?_
  split
  · rename_i e1
    exact OptForm.of_eq e1 (.groupGate h)
  · exact .tdset h

theorem Res.MemForm.tdget {f : ClassE} (h : s.MemForm) : Res.MemForm (execTdget f s) :=
  .next (.groupDo h)

theorem OptForm.mxGate {f : ClassE} {gs : List Nat} {bad8 : Bool} {desc : Option (Nat × Nat)} {rs : List Range}
    {apart : Option VAddr} {eng : Option Nat} (h : s.MemForm) :
    OptForm (s.mxGate f gs bad8 desc rs apart eng) := by
  unfold State.mxGate
  split
  · rename_i e1
    have h1 := OptForm.of_eq e1 (.groupGate h)
    exact .some h1
  · split
    · exact .some (.descTrap h)
    · split
      · exact .some (.rangeRaise h)
      · exact .some (.rangeRaise h)
      · split
        · exact .some (.trap h)
        · exact .ite (.some h) .none

theorem State.MemForm.mxIssue {op : MxOp} {upd : Mx → Mx} (h : s.MemForm) : (s.mxIssue op upd).MemForm :=
  .owe (.setMxAt h)

theorem Res.MemForm.mxzero {f : ClassE} (h : s.MemForm) : Res.MemForm (execMxzero f s) := by
  unfold Machine.execMxzero
  extract_lets
  refine .next ?_
  split
  · rename_i e1
    exact OptForm.of_eq e1 (.mxGate h)
  · exact .done h (.mxIssue h)

theorem Res.MemForm.mxldacc {f : ClassE} (h : s.MemForm) : Res.MemForm (execMxldacc f s) := by
  unfold Machine.execMxldacc
  extract_lets
  refine .next ?_
  split
  · rename_i e1
    exact OptForm.of_eq e1 (.mxGate h)
  · exact .done h (.mxIssue h)

theorem Res.MemForm.mxmma {f : ClassE} (h : s.MemForm) : Res.MemForm (execMxmma f s) := by
  unfold Machine.execMxmma
  extract_lets
  refine .next ?_
  split
  · rename_i e1
    exact OptForm.of_eq e1 (.mxGate h)
  · exact .done h (.mxIssue h)

theorem Res.MemForm.mxscale {f : ClassE} (h : s.MemForm) : Res.MemForm (execMxscale f s) := by
  unfold Machine.execMxscale
  extract_lets
  refine .next ?_
  split
  · rename_i e1
    exact OptForm.of_eq e1 (.mxGate h)
  · exact .done h (.mxIssue h)

theorem State.MemForm.scaleVec {f : ClassE} {k : MxKind} (h : s.MemForm) : (s.scaleVec f k).MemForm := by
  unfold State.scaleVec
  extract_lets
  split
  · rename_i e1
    exact OptForm.of_eq e1 (.mxGate h)
  · exact .done h (.mxIssue h)

theorem Res.MemForm.mxscaleRow {f : ClassE} (h : s.MemForm) : Res.MemForm (execMxscaleRow f s) :=
  .next (.scaleVec h)

theorem Res.MemForm.mxscaleCol {f : ClassE} (h : s.MemForm) : Res.MemForm (execMxscaleCol f s) :=
  .next (.scaleVec h)

theorem Res.MemForm.mxdrain {f : ClassE} (h : s.MemForm) : Res.MemForm (execMxdrain f s) := by
  unfold Machine.execMxdrain
  extract_lets
  refine .next ?_
  split
  · rename_i e1
    exact OptForm.of_eq e1 (.mxGate h)
  · exact .ite (.owe (.setGang h)) (.done h (.mxIssue (.barPend (.setGang h))))

theorem Res.MemForm.mxdrainCompareDone {cluster : Nat} (h : s.MemForm) :
    Res.MemForm (execMxdrainCompareDone cluster s) := by
  unfold Machine.execMxdrainCompareDone
  extract_lets
  refine .next ?_
  split
  · exact h
  · extract_lets
    refine .ite h ?_
    split
    · extract_lets
      refine .ite (.owe h) ?_
      split
      · exact .setGangAt h
      · exact .asPart (.setGangAt (.setDieAt (.logEvent h))) (fun _ h1 => .trap h1)
    · exact .setGangAt h

theorem Res.MemForm.mxwait {f : ClassB} (h : s.MemForm) : Res.MemForm (execMxwait f s) := by
  unfold Machine.execMxwait
  refine .next ?_
  split
  · rename_i e1
    exact OptForm.of_eq e1 (.groupGate h)
  · exact .ite (.done h h) h

theorem Res.MemForm.mxwaitAcc {f : ClassB} (h : s.MemForm) : Res.MemForm (execMxwaitAcc f s) := by
  unfold Machine.execMxwaitAcc
  refine .next ?_
  split
  · rename_i e1
    exact OptForm.of_eq e1 (.groupGate h)
  · extract_lets
    split
    · exact .trap h
    · exact .ite h (.done h h)

theorem State.MemForm.mxmode {f : ClassE} {red : Bool} (h : s.MemForm) : (s.mxmode f red).MemForm := by
  unfold State.mxmode
  split
  · rename_i e1
    exact OptForm.of_eq e1 (.groupGate h)
  · exact .ite h (.ite (.done h h) (.done h (.setMxAt h)))

theorem Res.MemForm.mxmodeNorm {f : ClassE} (h : s.MemForm) : Res.MemForm (execMxmodeNorm f s) :=
  .next (.mxmode h)

theorem Res.MemForm.mxmodeRed {f : ClassE} (h : s.MemForm) : Res.MemForm (execMxmodeRed f s) :=
  .next (.mxmode h)

theorem MxEnd.MemForm.mxRead {k id : Nat} {go : Instr} {sp : Nat} {rs : List (Nat × Nat)}
    {f : List (Nat × List Byte) → State → MxEnd} (h : s.MemForm) (hf : ∀ x t, t.MemForm → MxEnd.MemForm (f x t)) :
    MxEnd.MemForm (s.mxRead k id go sp rs f) := by
  unfold State.mxRead
  split
  · rename_i e1
    have h1 := Gathered.MemForm.of_eq e1 (.gather h)
    exact hf _ _ h1
  · exact .absent
  · exact .bad h
  · rename_i e1
    have h1 := Gathered.MemForm.of_eq e1 (.gather h)
    exact .wait h1

theorem MxEnd.MemForm.mxPerform {k cluster : Nat} {op : MxOp} (h : s.MemForm) :
    MxEnd.MemForm (s.mxPerform k cluster op) := by
  unfold State.mxPerform
  extract_lets
  split
  · exact .ok h
  · exact .mxRead h (fun _ _ h1 => .ok h1)
  · exact .mxRead h (fun _ _ h1 => .ok h1)
  · exact .ok h
  · exact .mxRead h (fun _ _ h1 => .ok h1)
  · exact .mxRead h (fun _ _ h1 => .ok h1)
  · exact .mxRead h (fun _ _ h1 => by
      extract_lets
      split
      · exact .absent
      · exact .bad (.engineWriteSome h1)
      · exact .wait (.owe h1)
      · rename_i e2
        have h2 := Wrote.MemForm.of_eq e2 (.engineWriteAll h1)
        split
        · exact .absent
        · exact .wait (.owe h1)
        · exact .bad (.engineWriteSome h2)
        · rename_i e3
          have h3 := Wrote.MemForm.of_eq e3 (by
            split
            · exact .ok h2
            · exact .engineWriteAll h2)
          exact .ok (.barArrive h3))

theorem State.MemForm.mxAbandon {cluster id : Nat} {va : VAddr} (h : s.MemForm) : (s.mxAbandon cluster id va).MemForm := by
  unfold State.mxAbandon
  extract_lets
  split
  · exact .endCheck (.lintelTrap (.setMxAt h))
  · exact h

theorem Res.MemForm.mxOpComplete {cluster id : Nat} (h : s.MemForm) : Res.MemForm (execMxOpComplete cluster id s) := by
  unfold Machine.execMxOpComplete
  extract_lets
  refine .next ?_
  split
  · refine .ite (.owe h) ?_
    split
    · rename_i e1
      have h1 := MxEnd.MemForm.of_eq e1 (.mxPerform h)
      exact .endCheck (.setGangAt (.setMxAt h1))
    · exact .engineFault h
    · rename_i e1
      have h1 := MxEnd.MemForm.of_eq e1 (.mxPerform h)
      exact .mxAbandon h1
    · rename_i e1
      exact MxEnd.MemForm.of_eq e1 (.mxPerform h)
  · exact h

/-! ### The functions of Machine/Votes -/

theorem State.MemForm.sendPartial {die gk num : Nat} (h : s.MemForm) : (s.sendPartial die gk num).MemForm :=
  .ite h (.sendFrame (.setGroupAt h))

theorem State.MemForm.castVote {die gk num : Nat} {all val : Bool} (h : s.MemForm) :
    (s.castVote die gk num all val).MemForm :=
  .ite (.sendPartial (.setGroupAt h)) (.ite (.owe (.setGroupAt h)) (.setGroupAt h))

theorem State.MemForm.keepResult {die gk num : Nat} {val : Bool} (h : s.MemForm) : (s.keepResult die gk num val).MemForm :=
  .owe (.setGroupAt h)

theorem State.MemForm.returnResult {gk num : Nat} {val : Bool} {mods : List Nat} (h : s.MemForm) :
    (s.returnResult gk num val mods).MemForm :=
  .foldl h fun _ _ h1 => .sendFrame h1

theorem State.MemForm.moduleVote {gk num w : Nat} (h : s.MemForm) : (s.moduleVote gk num w).MemForm :=
  .ite (.sendFrame h) (.ite (.setGroupAt h) (.sendPartial (.setGroupAt h)))

theorem State.MemForm.forgetResult {gk num : Nat} (h : s.MemForm) : (s.forgetResult gk num).MemForm := by
  unfold State.forgetResult
  extract_lets
  split
  · exact .ite h (.setGroupAt h)
  · exact h

theorem State.MemForm.rootPartial {gk num w : Nat} (h : s.MemForm) : (s.rootPartial gk num w).MemForm :=
  .ite (.forgetResult h) (.ite (.setGroupAt h) (.returnResult (.setGroupAt h)))

theorem State.MemForm.rootVote {gk num w src : Nat} (h : s.MemForm) : (s.rootVote gk num w src).MemForm := by
  unfold State.rootVote
  extract_lets
  refine .ite ?_ ?_
  · split
    · exact .returnResult h
    · exact h
  · refine .ite ?_ (.ite (.relook (.setGroupAt h)) (.rootPartial h))
    split
    · exact .forgetResult (.setGroupAt h)
    · exact h

theorem Res.MemForm.frameVote {f : Frame} (h : s.MemForm) : Res.MemForm (execFrameVote f s) :=
  .next (.receive h (fun _ _ h1 => .ite h1 (.ite (.rootVote h1) (.moduleVote h1))))

theorem Res.MemForm.frameVoteResult {f : Frame} (h : s.MemForm) : Res.MemForm (execFrameVoteResult f s) :=
  .next (.receive h (fun _ _ h1 => .ite (.ite h1 (.breakHere h1)) (.foldl h1 fun _ _ h2 => .ite (.keepResult h2) h2)))

theorem Res.MemForm.votePartialTimeout {die grp num : Nat} (h : s.MemForm) :
    Res.MemForm (execVotePartialTimeout die grp num s) :=
  .next (.sendPartial h)

theorem Res.MemForm.voteResultRequest {die grp num : Nat} (h : s.MemForm) :
    Res.MemForm (execVoteResultRequest die grp num s) := by
  unfold Machine.execVoteResultRequest
  extract_lets
  refine .next ?_
  split
  · exact .keepResult h
  · exact .sendFrame h

theorem State.MemForm.runAhead {f : ClassB} (h : s.MemForm) : (s.runAhead f).MemForm :=
  .ite (.setGang h) (.ite (.jumpTo (.setGang h) (.setGang h)) (.advance (.setGang h)))

theorem State.MemForm.awaitVote {k : Nat} (h : s.MemForm) : (s.awaitVote k).MemForm := by
  unfold State.awaitVote
  split
  · exact h
  · exact .ite (.owe (.setGangAt h)) (.owe (.setGangAt h))

theorem Res.MemForm.cbr {f : ClassB} (h : s.MemForm) : Res.MemForm (execCbr f s) := by
  unfold Machine.execCbr
  extract_lets
  refine .next (.ite (.done h h) ?_)
  split
  · rename_i e1
    exact OptForm.of_eq e1 (.engineGate h)
  · split
    · exact .trap h
    · exact .ite (.trap h)
        (.ite (.trap h) (.ite (.segTrap h) (.ite (.awaitVote h) (.ite h (.runAhead (.castVote (.setGang h)))))))

theorem State.MemForm.takePath {k : Nat} {taken : Bool} {target : IAddr} (h : s.MemForm) :
    (s.takePath k taken target).MemForm :=
  .asPart h (fun _ h1 => .ite (.setGang h1) (.advance h1))

theorem State.MemForm.reportTaken {k : Nat} {v : Cast} (h : s.MemForm) : (s.reportTaken k v).MemForm := .sendFrame h

theorem Res.MemForm.voteResultDelivery {gang : Nat} (h : s.MemForm) : Res.MemForm (execVoteResultDelivery gang s) := by
  unfold Machine.execVoteResultDelivery
  extract_lets
  refine .next ?_
  split
  · exact h
  · refine .ite h ?_
    split
    · exact h
    · split
      · exact .ite (.commit (.setGangAt (.reportTaken h))) (.takePath (.setGangAt (.reportTaken h)))
      · refine .ite h ?_
        extract_lets
        split
        · exact .takePath (.setGangAt (.reportTaken h))
        · exact .owe h
        · exact h

/-! ### The functions of Machine/Collective -/

theorem State.MemForm.sendHops {gk : Nat} {o : CollOp} {l : List Hop} (h : s.MemForm) : (s.sendHops gk o l).MemForm :=
  .foldl h fun _ _ h1 => .sendFrame h1

theorem State.MemForm.putOp {gk : Nat} {was : Bool} {r : CollOp × List Hop} (h : s.MemForm) : (s.putOp gk was r).MemForm :=
  .ite (.owe (.sendHops (.setGroupAt h))) (.sendHops (.setGroupAt h))

theorem State.MemForm.stagePage {team : Nat} (h : s.MemForm) : (s.stagePage team).2.MemForm := by
  unfold State.stagePage
  dsimp only
  split
  · exact h
  · split
    · exact h
    · exact .upd h

theorem State.MemForm.retryFrame {f : Frame} (h : s.MemForm) : (s.retryFrame f).MemForm :=
  .ite (.owe h) h

theorem State.MemForm.mergeFrame {gk : Nat} {o : CollOp} {f : Frame} (h : s.MemForm) : (s.mergeFrame gk o f).MemForm :=
  .ite (.putOp h) (.breakGroup h)

theorem State.MemForm.takeFrame {f : Frame} (h : s.MemForm) : (s.takeFrame f).MemForm := by
  unfold State.takeFrame
  extract_lets
  refine .ite (.receive h (fun _ _ h1 => h1)) ?_
  split
  · exact .receive h (fun _ _ h1 => .setGroupAt h1)
  · split
    · rename_i e1
      have h1 := State.MemForm.of_snd e1 (.stagePage h)
      exact .receive h1 (fun _ _ h2 => .mergeFrame h2)
    · rename_i e1
      have h1 := State.MemForm.of_snd e1 (.stagePage h)
      split
      · exact .ite (.retryFrame h1) (.receive h1 (fun _ _ h2 => .engineFault h2))
      · exact .receive h1 (fun _ _ h2 => .breakGroup h2)
      · exact .receive h1 (fun _ _ h2 => .mergeFrame h2)

theorem Res.MemForm.frameCollectiveData {f : Frame} (h : s.MemForm) : Res.MemForm (execFrameCollectiveData f s) :=
  .next (.takeFrame h)

theorem Res.MemForm.frameImageTiles {f : Frame} (h : s.MemForm) : Res.MemForm (execFrameImageTiles f s) :=
  .next (.takeFrame h)

theorem State.MemForm.collJoin {gk slot : Nat} {word : DWord} {a b : TileDesc} {bar : Option VAddr} {bytes : Nat}
    (h : s.MemForm) :
    (s.collJoin gk slot word a b bar bytes).MemForm := by
  unfold State.collJoin
  extract_lets
  split
  · exact .done (.setGang (.setTeam (.upd (.barPend h)))) (.collTry (.setGang (.setTeam (.upd (.barPend h)))))
  · exact .ite (.trap h) (.done (.setGang (.setTeam h)) (.collTry (.setGang (.setTeam h))))

theorem State.MemForm.collOp {f : ClassE} {comp : Bool} {word : DWord} (h : s.MemForm) :
    (s.collOp f comp word).MemForm := by
  unfold State.collOp
  extract_lets
  split
  · rename_i e1
    exact OptForm.of_eq e1 (.groupGate h)
  · split
    · rename_i e1
      exact OptForm.of_eq e1 (.engineGate h)
    · split
      · exact .trap h
      · refine .ite (.trap h) ?_
        split
        · exact .descTrap h
        · split
          · exact .rangeRaise h
          · exact .ite (.rangeRaise h) (.ite (.trap h) (.ite h (.collJoin h)))

theorem Res.MemForm.coll {f : ClassE} (h : s.MemForm) : Res.MemForm (execColl f s) :=
  .next (.collOp h)

theorem Res.MemForm.comp {f : ClassE} (h : s.MemForm) : Res.MemForm (execComp f s) :=
  .next (.collOp h)

theorem State.MemForm.collDone {gk : Nat} {o : CollOp} (h : s.MemForm) : (s.collDone gk o).MemForm :=
  .foldl (by
    split
    · exact .setTeamAt (.setGroupAt h)
    · exact .barArrive (.setTeamAt (.setGroupAt h))) fun _ _ h1 => .endCheck (.setGangAt h1)

theorem State.MemForm.collStart {team gk rank : Nat} {c : CollIssue} (h : s.MemForm) :
    (s.collStart team gk rank c).MemForm := by
  unfold State.collStart
  extract_lets
  split
  · exact .engineFault h
  · exact .breakGroup h
  · rename_i e1
    exact Gathered.MemForm.of_eq e1 (.gather h)
  · rename_i e1
    have h1 := Gathered.MemForm.of_eq e1 (.gather h)
    exact .ite (.putOp (.setGroupAt h1)) (.breakGroup (.setGroupAt h1))

theorem Res.MemForm.collComplete {team grp op : Nat} (h : s.MemForm) : Res.MemForm (execCollComplete team grp op s) := by
  unfold Machine.execCollComplete
  extract_lets
  refine .next ?_
  split
  · refine .ite h ?_
    split
    · exact .collStart h
    · refine .ite h ?_
      extract_lets
      split
      · exact .engineFault h
      · exact .breakGroup h
      · exact .owe h
      · rename_i e1
        have h1 := Wrote.MemForm.of_eq e1 (.engineWriteAll h)
        exact .collDone h1
  · exact h

/-! ### The functions of Machine/Fabric -/

theorem State.MemForm.stopFault {team : Nat} {va : VAddr} (h : s.MemForm) : (s.stopFault team va).MemForm := by
  unfold State.stopFault
  extract_lets s1
  have h1 : s1.MemForm := .foldl h fun _ _ h => .setGangAt h
  clear_value s1
  exact .stopTeam h1

theorem State.MemForm.respond {f : Frame} {cls die aux : Nat} {body : List Byte} (h : s.MemForm) :
    (s.respond f cls die aux body).MemForm :=
  .sendFrame h

theorem State.MemForm.refuse {f : Frame} {cls : Nat} (h : s.MemForm) : (s.refuse f cls).MemForm := .respond h

theorem State.MemForm.respondWith {f : Frame} {cls die : Nat} {data : List Byte} {line : Option (List Byte)} {ts : List Tag}
    (h : s.MemForm) :
    (s.respondWith f cls die data line ts).MemForm :=
  .respond h

theorem State.MemForm.landFrame {f : Frame} {nd : Need} {cls : Nat} {go : Instr} {span : Nat → List Nat}
    {act : State → Nat → DWord → State} (h : s.MemForm) (hact : ∀ t, t.MemForm → ∀ y z, (act t y z).MemForm) :
    (s.landFrame f nd cls go span act).MemForm := by
  unfold State.landFrame
  split
  · exact .refuse h
  · extract_lets
    split
    · exact .ite (.owe (.checkG h)) (hact _ (.checkG h) _ _)
    · exact .engineFault (.checkG h)
    · exact .refuse (.checkG h)

theorem Res.MemForm.frameRead {f : Frame} (h : s.MemForm) : Res.MemForm (execFrameRead f s) :=
  .next (.receive h (fun _ _ h1 => .landFrame h1 (fun _ h2 _ _ => .ite (.respond (.owe h2)) (.respondWith (.p7Pick h2)))))

theorem Res.MemForm.frameWrite {f : Frame} (h : s.MemForm) : Res.MemForm (execFrameWrite f s) :=
  .next (.receive h (fun _ _ h1 => .landFrame h1 (fun _ h2 _ _ => .respond (.writeNow (.logDown h2)))))

theorem State.MemForm.atomFrame {code n pa : Nat} {tags : List Tag} {l : List (Nat × Nat)} (h : s.MemForm) :
    (s.atomFrame code n pa tags l).2.MemForm := by
  induction l generalizing s with
  | nil => exact h
  | cons o r ih => exact ih (.writeNow h)

theorem Res.MemForm.frameAtomic {f : Frame} (h : s.MemForm) : Res.MemForm (execFrameAtomic f s) :=
  .next (.receive h (fun _ _ h1 => .landFrame h1 (fun _ h2 _ _ => .ite (.respond (.owe h2))
    (.respondWith (.atomFrame (.homeRead h2))))))

theorem State.MemForm.readRelease {f : Frame} (h : s.MemForm) : (s.readRelease f).MemForm := by
  unfold State.readRelease
  extract_lets
  refine .ite h ?_
  split
  · exact .ite (.setGangAt h) (.ite (.setGangAt h) (.syncTags h))
  · exact h

theorem State.MemForm.takeLine {f : Frame} (h : s.MemForm) : (s.takeLine f).MemForm :=
  .ite (.putP7 h) h

theorem State.MemForm.refused {gk addr : Nat} (h : s.MemForm) : (s.refused gk addr).MemForm :=
  .ite h (.stopFault h)

theorem State.MemForm.takeResponse {f : Frame} (h : s.MemForm) : (s.takeResponse f).MemForm := by
  unfold State.takeResponse
  refine .ite ?_ ?_
  · split
    · exact .refused h
    · exact h
  · refine .ite ?_ ?_
    · split
      · exact .dataKill h
      · exact h
    · extract_lets
      split
      · exact .landUnit (.answerFetch (.answer (.readRelease (.takeLine h))))
      · exact .answerFetch (.answer (.readRelease (.takeLine h)))

theorem Res.MemForm.frameReadResponse {f : Frame} (h : s.MemForm) : Res.MemForm (execFrameReadResponse f s) :=
  .next (.receive h (fun _ _ h1 => .takeResponse h1))

theorem Res.MemForm.frameAtomicResponse {f : Frame} (h : s.MemForm) : Res.MemForm (execFrameAtomicResponse f s) :=
  .next (.receive h (fun _ _ h1 => .takeResponse h1))

theorem Res.MemForm.frameWriteAck {f : Frame} (h : s.MemForm) : Res.MemForm (execFrameWriteAck f s) :=
  .next (.receive h (fun _ _ h1 => by
    split
    · exact h1
    · exact .ite (.refused h1) (.owe h1)))

theorem State.MemForm.releaseSlot {gk dst src slot : Nat} (h : s.MemForm) : (s.releaseSlot gk dst src slot).MemForm :=
  .oweOnce (.upd (.setGroupAt h))

theorem State.MemForm.workRecord {f : Frame} (h : s.MemForm) : (s.workRecord f).MemForm := by
  unfold State.workRecord
  extract_lets
  split
  · exact .owe h
  · extract_lets
    split
    · exact .engineFault h
    · exact .ite (.upd (.setGroupAt (.vaWrite h))) (.releaseSlot (.wlcTry (.appendItem (.setGroupAt (.vaWrite h)))))

theorem Res.MemForm.frameWorkRecord {f : Frame} (h : s.MemForm) : Res.MemForm (execFrameWorkRecord f s) :=
  .next (.receive h (fun _ _ h1 => .workRecord h1))

theorem Res.MemForm.slotUpdateSend {grp member sender : Nat} (h : s.MemForm) :
    Res.MemForm (execSlotUpdateSend grp member sender s) :=
  .next (.sendFrame (.setGroupAt h))

theorem State.MemForm.slotUpdate {f : Frame} (h : s.MemForm) : (s.slotUpdate f).MemForm :=
  .ite h (.foldl (.upd (.setGroupAt h)) fun _ _ h1 => .endCheck (.setGangAt h1))

theorem Res.MemForm.frameSlotUpdate {f : Frame} (h : s.MemForm) : Res.MemForm (execFrameSlotUpdate f s) :=
  .next (.receive h (fun _ _ h1 => .slotUpdate h1))

theorem State.MemForm.ackedOp {f : Frame} (h : s.MemForm) : (s.ackedOp f).MemForm := by
  unfold State.ackedOp
  extract_lets
  split
  · exact .ite (.owe h) h
  · exact h

theorem Res.MemForm.packetAck {psn : Nat} (h : s.MemForm) : Res.MemForm (execPacketAck psn s) := by
  unfold Machine.execPacketAck
  extract_lets
  refine .next ?_
  split
  · exact .ackedOp h
  · exact h

theorem Res.MemForm.retransmitTimer {psn : Nat} (h : s.MemForm) : Res.MemForm (execRetransmitTimer psn s) := .next h

theorem Res.MemForm.peerLoss {module : Nat} (h : s.MemForm) : Res.MemForm (execPeerLoss module s) :=
  .next (.foldl h fun _ _ h1 => .breakGroup h1)

/-! ### The functions of Machine/Graphics -/

theorem State.MemForm.handMesh {off mask cull : Nat} (h : s.MemForm) : (s.handMesh off mask cull).MemForm :=
  .owe (.setTeam (.setGang h))

theorem Res.MemForm.mesh {f : ClassE} (h : s.MemForm) : Res.MemForm (execMesh f s) :=
  .next (.engineE h (fun _ h1 => by
    extract_lets
    refine .ite h1 ?_
    split
    · exact .rangeRaise h1
    · refine .ite (.trap h1) ?_
      split
      · exact .rangeRaise h1
      · exact .ite (.trap h1) (.done h1 (.handMesh h1))))

theorem State.MemForm.meshRead {op : MeshOp} (h : s.MemForm) : (s.meshRead op).MemForm := .setGangAt h

theorem State.MemForm.sendQuads {team : Nat} {qs : List Quad} (h : s.MemForm) : (s.sendQuads team qs).MemForm :=
  .owe (.upd (.setTeamAt h))

theorem Res.MemForm.meshRaster {id : Nat} (h : s.MemForm) : Res.MemForm (execMeshRaster id s) := by
  unfold Machine.execMeshRaster
  refine .next ?_
  split
  · exact h
  · refine .ite (.owe h) ?_
    extract_lets
    split
    · exact .engineFault h
    · exact .cohortEnd (.endCheck (.sendQuads (.meshRead h)))

theorem Res.MemForm.pixelTeamStart {core : Nat} (h : s.MemForm) : Res.MemForm (execPixelTeamStart core s) := by
  unfold Machine.execPixelTeamStart
  dsimp only
  refine .next ?_
  split
  · exact h
  · exact .ite (.oweOnce h) (.owe (.setGangAt (.setTeamAt (.setCohortAt h))))

theorem State.MemForm.fragment {x : Xl} {die : Nat} {v : View} {f : Fragment} (h : s.MemForm) :
    (s.fragment x die v f).MemForm :=
  .ite (.vaWrite (.ite (.vaWrite h) h)) h

theorem State.MemForm.pixelEnd {gang : Nat} (h : s.MemForm) : (s.pixelEnd gang).MemForm := by
  unfold State.pixelEnd
  extract_lets
  split
  · exact .cohortEnd (.setGangAt h)
  · exact .cohortEnd (.when (.setTeamAt (.cohortEnd (.setGangAt h))) .oweOnce)

theorem Res.MemForm.fragmentBlend {gang : Nat} (h : s.MemForm) : Res.MemForm (execFragmentBlend gang s) := by
  unfold Machine.execFragmentBlend
  dsimp only
  refine .next ?_
  split
  · exact h
  · refine .ite h ?_
    split
    · exact .engineFault h
    · exact .pixelEnd h
    · split
      · exact .engineFault h
      · exact .pixelEnd (.abandon h)
      · exact .pixelEnd (.foldl h fun _ _ h1 => .fragment h1)

/-! ### The functions of Machine/Lod -/

theorem State.MemForm.wantWord {a : Nat} (h : s.MemForm) : (s.wantWord a).MemForm :=
  .ite h (.setGang h)

theorem State.MemForm.seeCh {x : Xl} {ch va n : Nat} (h : s.MemForm) : (s.seeCh x ch va n).2.MemForm :=
  .noteRead (.fillP7 (.foldl_with (st := fun p : Option (List Byte) × List Nat × State => p.2.2) (.p7Pick h)
    fun _ _ h1 => by
    extract_lets
    split
    · split
      · exact .ite (.consume h1) h1
      · split
        · exact h1
        · split
          · exact .wantWord h1
          · exact h1
    · split
      · exact h1
      · split
        · exact h1
        · exact .wantWord h1
    · exact h1))

theorem State.MemForm.see {x : Xl} {va n : Nat} (h : s.MemForm) : (s.see x va n).2.MemForm := .seeCh h

theorem State.MemForm.lodHeader {hd : VAddr} (h : s.MemForm) : (s.lodHeader hd).2.MemForm := by
  unfold State.lodHeader
  extract_lets
  split
  · exact h
  · split
    · exact h
    · exact .see h

theorem State.MemForm.waitWords {t : State} (h : s.MemForm) (h1 : t.MemForm) : (s.waitWords t).MemForm :=
  .ite h1 (.sendAsks h)

theorem State.MemForm.mapBit {core : Nat} {x : Xl} {b : List Byte} {k p : Nat} (h : s.MemForm) :
    (s.mapBit core x b k p).2.MemForm := by
  unfold State.mapBit
  extract_lets
  split
  · exact h
  · split
    · exact h
    · split
      · rename_i e1
        exact .of_snd e1 (.see h)
      · rename_i e1
        have h1 := State.MemForm.of_snd e1 (.see h)
        exact .setCoreAt h1

theorem State.MemForm.offer {src : Nat} {hd : VAddr} {level page : Nat} (h : s.MemForm) :
    (s.offer src hd level page).MemForm := by
  unfold State.offer
  extract_lets
  refine .ite h ?_
  extract_lets
  refine .ite (.setCoreAt h) ?_
  extract_lets
  split
  · rename_i e1
    exact OptForm.of_eq e1 (.ringAppend (.setCoreAt h))
  · exact .ringDrop (.setCoreAt h)

theorem State.MemForm.offers {src : Nat} {hd : VAddr} {l : List (Nat × Nat)} (h : s.MemForm) :
    (s.offers src hd l).MemForm :=
  .foldl h fun _ _ h1 => .offer h1

theorem State.MemForm.lodWalk {core n i L status : Nat} {x : Xl} {b : List Byte} {ks : List Nat} (h : s.MemForm) :
    (s.lodWalk core x b n i L status ks).2.2.MemForm := by
  induction ks generalizing s status with
  | nil => exact h
  | cons k r ih =>
    unfold State.lodWalk
    extract_lets
    split
    · exact ih (.mapBit h)
    · split
      · exact .mapBit h
      · exact ih (.mapBit h)

theorem State.MemForm.ldlodLane {x : Xl} {b : List Byte} {sz L ch i : Nat} (h : s.MemForm) :
    (s.ldlodLane x b sz L ch i).2.MemForm := by
  unfold State.ldlodLane
  extract_lets
  split
  · exact h
  · split
    · exact .lodWalk h
    · exact .seeCh (.lodWalk h)

theorem State.MemForm.ldlodLanes {x : Xl} {b : List Byte} {sz L ch : Nat} {idx : Nat → Nat} {l : List Nat} (h : s.MemForm) :
    (s.ldlodLanes x b sz L ch idx l).2.MemForm := by
  induction l generalizing s with
  | nil => exact h
  | cons a r ih => exact ih (.ldlodLane h)

theorem State.MemForm.lodTrap {ls : List Nat} {info : VAddr} (h : s.MemForm) : (s.lodTrap ls info).MemForm := .trapLanes h

theorem State.MemForm.addLaneLoad {vregs : List Nat} {vals : List (Nat × Word)} {flags : DWord} (h : s.MemForm) :
    (s.addLaneLoad vregs vals flags).MemForm :=
  .addLoad h

theorem Res.MemForm.ldlod {f : ClassM} (h : s.MemForm) : Res.MemForm (execLdlod f s) := by
  unfold Machine.execLdlod
  extract_lets
  refine .next ?_
  split
  · rename_i e1
    exact OptForm.of_eq e1 (.memGate h)
  · refine .ite h ?_
    extract_lets
    split
    · exact .lodTrap h
    · exact .waitWords h (.lodHeader h)
    · exact .lodTrap h
    · exact .done h (.addLaneLoad h)
    · exact .ite (.sendAsks h) (.done h (.addLaneLoad (.syncTags (.offers (.forgetFar (.ldlodLanes h))))))

theorem State.MemForm.smplWalk {core status : Nat} {x : Xl} {b : List Byte} {tex : Nat → List (Nat × Nat × Nat)}
    {ks : List Nat} (h : s.MemForm) :
    (s.smplWalk core x b tex status ks).2.2.MemForm := by
  induction ks generalizing s status with
  | nil => exact h
  | cons k r ih =>
    unfold State.smplWalk
    dsimp only
    split
    · exact .foldl_with (st := fun a : Bool × Bool × State => a.2.2) h fun _ _ h => .mapBit h
    · exact ih (.foldl_with (st := fun a : Bool × Bool × State => a.2.2) h fun _ _ h => .mapBit h)

theorem State.MemForm.smplLane {x : Xl} {b : List Byte} {L : Nat} {linear : Bool} {mode u v : Nat} (h : s.MemForm) :
    (s.smplLane x b L linear mode u v).2.2.2.MemForm := by
  unfold State.smplLane
  extract_lets
  split
  · exact h
  · split
    · exact .smplWalk h
    · exact .foldl_snd (.smplWalk h) fun _ _ h1 => .see h1

theorem State.MemForm.smplLanes {x : Xl} {b : List Byte} {L mode : Nat} {linear : Bool} {uv : Nat → Nat × Nat}
    {l : List Nat} (h : s.MemForm) :
    (s.smplLanes x b L linear mode uv l).2.MemForm := by
  induction l generalizing s with
  | nil => exact h
  | cons a r ih => exact ih (.smplLane h)

theorem Res.MemForm.smpl {f : ClassE} (h : s.MemForm) : Res.MemForm (execSmpl f s) := by
  unfold Machine.execSmpl
  extract_lets
  refine .next (.ite (.illegal h) ?_)
  split
  · rename_i e1
    exact OptForm.of_eq e1 (.laneGate h)
  · refine .ite h ?_
    extract_lets
    split
    · exact .lodTrap h
    · exact .waitWords h (.lodHeader h)
    · exact .done h (.addLaneLoad h)
    · exact .ite (.sendAsks h) (.done h (.addLaneLoad (.offers (.forgetFar (.smplLanes h)))))

/-! ### The functions of Machine/Rays -/

theorem State.MemForm.rayHeader {x : Xl} {hd : VAddr} (h : s.MemForm) : (s.rayHeader x hd).2.MemForm := by
  unfold State.rayHeader
  split <;> rename_i e1 <;> exact .of_snd e1 (.see h)

/-- A reader of a traversal keeps the form of memory. -/
def Reader.KeepsForm (rd : Reader) : Prop := ∀ a n w, w.s.MemForm → (rd a n w).2.s.MemForm

theorem Reader.KeepsForm.blasBytes {core k : Nat} {x : Xl} {b : List Byte} : Reader.KeepsForm (blasBytes core x b k) := by
  intro a n w h
  unfold Machine.blasBytes
  dsimp only
  split
  · exact h
  · split
    · exact .mapBit h
    · split <;> rename_i e <;> exact .of_snd e (.see (.mapBit h))

theorem Reader.KeepsForm.plainBytes {x : Xl} : Reader.KeepsForm (plainBytes x) := by
  intro a n w h
  unfold Machine.plainBytes
  split <;> rename_i e <;> exact .of_snd e (.see h)

theorem Reader.KeepsForm.of_eq {rd : Reader} {a n : Nat} {w w' : Walk} {o : Option (List Byte)} (hr : rd.KeepsForm)
    (e : rd a n w = (o, w')) (h : w.s.MemForm) :
    w'.s.MemForm := by
  have h' := hr a n w h
  rw [e] at h'
  exact h'

theorem State.MemForm.leaf {rd : Reader} {vis : Visit} {a n : Nat} {w : Walk} (hr : rd.KeepsForm) (h : w.s.MemForm) :
    (w.leaf rd a vis n).s.MemForm := by
  induction n generalizing w a with
  | zero => exact h
  | succ n ih =>
    unfold Walk.leaf
    split
    · exact h
    · split
      · rename_i e
        exact hr.of_eq e h
      · rename_i e
        have h1 := hr.of_eq e h
        exact ih h1

theorem State.MemForm.node {rd : Reader} {vis : Visit} {fuel a : Nat} {w : Walk} (hr : rd.KeepsForm) (h : w.s.MemForm) :
    (Walk.node rd vis fuel a w).s.MemForm := by
  induction fuel generalizing w a with
  | zero => exact h
  | succ n ih =>
    unfold Walk.node
    split
    · exact h
    · split
      · rename_i e
        exact hr.of_eq e h
      · rename_i e
        refine .foldl_with (st := Walk.s) (hr.of_eq e h) fun w i hw => ?_
        dsimp only
        split
        · exact hw
        · split
          · exact ih hw
          · exact .leaf hr hw
          · exact hw

theorem State.MemForm.instWalk {core maxd L : Nat} {x : Xl} {b : List Byte} {vis : Visit} {o : InstOut} {ks : List Nat}
    (h : s.MemForm) :
    (s.instWalk core x b maxd L vis o ks).2.MemForm := by
  induction ks generalizing s o with
  | nil => exact h
  | cons k r ih =>
    unfold State.instWalk
    dsimp only
    split
    · exact ih (.node .blasBytes h)
    · exact .node .blasBytes h

theorem State.MemForm.instance_ {w : RayOut} {core : Nat} {x : Xl} {hd : RayHeader} {r : Ray} {L mask : Nat} {cull : Bool}
    {i : Nat} (h : w.s.MemForm) :
    (w.instance_ core x hd r L mask cull i).s.MemForm := by
  unfold RayOut.instance_
  split
  · exact h
  · split
    · rename_i e1
      exact .of_snd e1 (.see h)
    · rename_i e1
      have h1 := State.MemForm.of_snd e1 (.see h)
      extract_lets
      split
      · exact h1
      · split
        · rename_i e2
          exact .of_snd e2 (.see h1)
        · rename_i e2
          have h2 := State.MemForm.of_snd e2 (.see h1)
          split
          · exact h2
          · split
            · exact h2
            · split
              · exact h2
              · exact .instWalk h2

theorem State.MemForm.rayNode {core L mask fuel a : Nat} {x : Xl} {hd : RayHeader} {r : Ray} {cull : Bool} {w : RayOut}
    (h : w.s.MemForm) :
    (RayOut.node core x hd r L mask cull fuel a w).s.MemForm := by
  induction fuel generalizing w a with
  | zero => exact h
  | succ n ih =>
    unfold RayOut.node
    split
    · rename_i e
      exact .of_snd e (.see h)
    · rename_i e
      refine .foldl_with (st := RayOut.s) (.of_snd e (.see h)) fun w i hw => ?_
      dsimp only
      split
      · exact hw
      · split
        · exact ih hw
        · exact .instance_ hw
        · exact hw

theorem State.MemForm.rayLane {core : Nat} {x : Xl} {hd : RayHeader} {L mask : Nat} {any cull : Bool} {w : List Nat}
    (h : s.MemForm) :
    (s.rayLane core x hd L mask any cull w).2.2.2.MemForm := by
  unfold State.rayLane
  split
  · exact .freeVal h
  · rename_i r _
    dsimp only
    have ho : (RayOut.node core x hd r L mask cull hd.maxd hd.root { s := s }).s.MemForm := .rayNode h
    generalize RayOut.node core x hd r L mask cull hd.maxd hd.root { s := s } = o at ho
    split
    · split
      · exact .upd ho
      · split
        · exact .freeVal (.freePick ho)
        · exact .upd ho
    · split
      · split
        · exact .freeVal ho
        · exact ho
      · split
        · split
          · exact .upd ho
          · split
            · exact .freeVal (.freePick ho)
            · exact .upd ho
        · split
          · exact ho
          · split
            · exact .freeVal ho
            · exact ho

theorem State.MemForm.rayLanes {core L mask : Nat} {x : Xl} {hd : RayHeader} {any cull : Bool} {w : Nat → List Nat}
    {l : List Nat} (h : s.MemForm) :
    (s.rayLanes core x hd L mask any cull w l).2.2.2.MemForm := by
  induction l generalizing s with
  | nil => exact h
  | cons a r ih => exact ih (.rayLane h)

theorem State.MemForm.reissueRays {k : Nat} (h : s.MemForm) : (s.reissueRays k).MemForm :=
  .owe (.setGangAt h)

theorem Res.MemForm.rtrace {f : ClassE} (h : s.MemForm) : Res.MemForm (execRtrace f s) := by
  unfold Machine.execRtrace
  extract_lets
  refine .next (.ite (.illegal h) ?_)
  split
  · rename_i e1
    exact OptForm.of_eq e1 (.laneGate h)
  · split
    · rename_i e1
      exact OptForm.of_eq e1 (.engineGate h)
    · exact .ite (.trapLanes h) (.ite h (.done h (.owe (.setGang h))))

theorem State.MemForm.raySpill {e : RayEntry} {ls : List Nat} (h : s.MemForm) : (s.raySpill e ls).MemForm :=
  .foldl h fun _ _ h1 => .spillPick (.setGang (.freeBytes (.freePick h1)))

theorem State.MemForm.trace {e : RayEntry} (h : s.MemForm) : (s.trace e).MemForm := by
  unfold State.trace
  dsimp only
  refine .ite (.owe (.sendAsks h)) ?_
  split
  · exact h
  · exact .endCheck (.setGang (.foldl (.raySpill (.forgetFar (by
      split
      · exact .rayHeader h
      · exact .rayLanes (.rayHeader h)))) fun _ _ h1 => .offer h1))

theorem Res.MemForm.rtraceComplete {gang id : Nat} (h : s.MemForm) : Res.MemForm (execRtraceComplete gang id s) := by
  unfold Machine.execRtraceComplete
  extract_lets
  refine .next ?_
  split
  · exact h
  · exact .ite h (.asPart h (fun _ h1 => .trace h1))

theorem State.MemForm.findPrim {x : Xl} {hd : RayHeader} {inst prim geom status : Nat} (h : s.MemForm) :
    (s.findPrim x hd inst prim geom status).s.MemForm := by
  unfold State.findPrim
  dsimp only
  split
  · exact h
  · split
    · rename_i e
      exact .of_snd e (.see h)
    · rename_i e
      have h1 := State.MemForm.of_snd e (.see h)
      split
      · rename_i e1
        exact .of_snd e1 (.see h1)
      · rename_i e1
        refine .foldl_with (st := Found.s) (.of_snd e1 (.see h1)) fun p k hp => ?_
        split <;> exact .node .plainBytes hp

theorem State.MemForm.rhitLane {x : Xl} {hd : Option RayHeader} {pos : Bool} {b : List Nat} (h : s.MemForm) :
    (s.rhitLane x hd pos b).2.2.MemForm := by
  unfold State.rhitLane
  split
  · exact h
  · dsimp only
    split
    · split
      · exact h
      · exact .findPrim h
    · exact .freeVal (.freeVal (by
        split
        · exact h
        · exact .findPrim h))
    · dsimp only
      split
      · split
        · exact h
        · exact .findPrim h
      · exact .freePick (by
          split
          · exact h
          · exact .findPrim h)

theorem State.MemForm.rhitLanes {x : Xl} {hd : Option RayHeader} {pos : Bool} {b : Nat → List Nat} {l : List Nat}
    (h : s.MemForm) :
    (s.rhitLanes x hd pos b l).2.2.MemForm := by
  induction l generalizing s with
  | nil => exact h
  | cons a r ih => exact ih (.rhitLane h)

theorem State.MemForm.readStuck {x : Xl} {l : List (Nat × Nat × Nat)} (h : s.MemForm) : (s.readStuck x l).MemForm := by
  unfold State.readStuck
  extract_lets
  split
  · exact .trapLanes h
  · exact .cohortFault h

theorem Res.MemForm.rhit {f : ClassE} (h : s.MemForm) : Res.MemForm (execRhit f s) := by
  unfold Machine.execRhit
  extract_lets
  refine .next (.ite (.illegal h) ?_)
  split
  · rename_i e1
    exact OptForm.of_eq e1 (.laneGate h)
  · split
    · rename_i e1
      exact OptForm.of_eq e1 (.engineGate h)
    · exact .ite h (.ite (.sendAsks h)
        (.ite (.readStuck h) (.ite (.sendAsks h)
        (.ite (.readStuck h) (.done h (.addLaneLoad (.forgetFar (.rhitLanes (.ite h (.rayHeader h))))))))))

/-! ### The functions of Machine/Dispatcher -/

theorem State.MemForm.takeHead {qk pri rec : Nat} (h : s.MemForm) : (s.takeHead qk pri rec).MemForm := by
  unfold State.takeHead
  extract_lets
  split
  · exact .setQueueAt h
  · exact .ite (.setQueueAt h) h

theorem State.MemForm.pushHead {qk pri rec : Nat} {saved : Option Nat} (h : s.MemForm) :
    (s.pushHead qk pri rec saved).MemForm :=
  .setQueueAt h

theorem State.MemForm.passOver {qk rec : Nat} (h : s.MemForm) : (s.passOver qk rec).MemForm := .setQueueAt h

theorem State.MemForm.unpin {qk rec : Nat} (h : s.MemForm) : (s.unpin qk rec).MemForm := .setQueueAt h

theorem State.MemForm.makeRoot {qk cohid : Nat} (h : s.MemForm) : (s.makeRoot qk cohid).MemForm :=
  .oweOnce (.makeRecord (.vaWrite h))

theorem Res.MemForm.rootRecordMake {die slot : Nat} (h : s.MemForm) : Res.MemForm (execRootRecordMake die slot s) := by
  unfold Machine.execRootRecordMake
  extract_lets
  refine .next (.ite h ?_)
  extract_lets
  refine .ite (.oweOnce (by
    refine .ite (.makeRoot h) ?_
    extract_lets
    split
    · exact .setQueueAt h
    · exact .makeRoot (.vaWrite (.setQueueAt h)))) ?_
  refine .ite (.makeRoot h) ?_
  extract_lets
  split
  · exact .setQueueAt h
  · exact .makeRoot (.vaWrite (.setQueueAt h))

theorem State.MemForm.placeRecord {qk pri rec : Nat} (h : s.MemForm) : (s.placeRecord qk pri rec).MemForm := by
  unfold State.placeRecord
  extract_lets
  split
  · exact .wlcRetry (.startCohort (.unpin (.takeHead h)))
  · exact .passOver h

theorem State.MemForm.oweRoots {die : Nat} (h : s.MemForm) : (s.oweRoots die).MemForm :=
  .foldl h fun _ _ h1 => .ite (.oweOnce h1) h1

theorem Res.MemForm.placementDecision {die : Nat} (h : s.MemForm) : Res.MemForm (execPlacementDecision die s) := by
  unfold Machine.execPlacementDecision
  refine .next ?_
  split
  · exact .oweRoots h
  · exact .ite (.oweOnce (.oweRoots (by
      split
      · exact .setDieAt h
      · extract_lets
        split
        · exact .oweOnce (.setQueueAt (.setDieAt h))
        · exact .placeRecord (.setQueueAt (.setDieAt h))
        · exact .setQueueAt (.setDieAt h)))) (.oweRoots (by
      split
      · exact .setDieAt h
      · extract_lets
        split
        · exact .oweOnce (.setQueueAt (.setDieAt h))
        · exact .placeRecord (.setQueueAt (.setDieAt h))
        · exact .setQueueAt (.setDieAt h)))

theorem State.MemForm.resumeGang {k slot : Nat} (h : s.MemForm) : (s.resumeGang k slot).MemForm :=
  .unless (.when (.when (.reissueRays (.setGangAt h)) .awaitVote) .owe) .upd

theorem State.MemForm.resumeTeam {t core : Nat} (h : s.MemForm) : (s.resumeTeam t core).MemForm :=
  .owe (.logEvent (.dropL1 (.setCoreAt (.foldl (.setTeamAt h) fun _ _ h1 => .resumeGang h1))))

theorem State.MemForm.resumeLintel {c cluster : Nat} (h : s.MemForm) : (s.resumeLintel c cluster).MemForm := by
  unfold State.resumeLintel
  extract_lets
  split
  · exact h
  · exact .owe (.upd (.dropL1 (.setGangAt (.setMxAt h))))

theorem State.MemForm.resumeCopies {ks : List Nat} (h : s.MemForm) : (s.resumeCopies ks).MemForm := .owe h

theorem State.MemForm.carryClock {old new : Nat} (h : s.MemForm) : (s.carryClock old new).MemForm :=
  .ite h (.setClock (.force h))

theorem State.MemForm.leaveRing {c : Nat} (h : s.MemForm) : (s.leaveRing c).MemForm := by
  unfold State.leaveRing
  extract_lets
  split
  · exact .takeHead h
  · exact h

theorem Res.MemForm.cohortRestore {cohort : Nat} (h : s.MemForm) : Res.MemForm (execCohortRestore cohort s) := by
  unfold Machine.execCohortRestore
  extract_lets
  refine .next (.ite h (.ite (.oweOnce h) ?_))
  split
  · exact .oweOnce (.passOver h)
  · exact .cohortEnd (.foldl
      (.poolFree (.resumeCopies
      (.resumeLintel (.foldl (.setCohortAt (.setFused (.carryClock (.wlcRetry (.unpin (.leaveRing h)))))) fun _ _ h1 =>
      .resumeTeam h1)))) fun _ _ h1 => .endCheck h1)

theorem State.MemForm.goOn {c : Nat} (h : s.MemForm) : (s.goOn c).MemForm :=
  .when (.resumeCopies (.upd (.foldl (.setCohortAt h) fun _ _ h1 => .when (.reissueRays (.setGangAt h1)) .awaitVote))) .save

theorem State.MemForm.undrainSaves {cs : List Nat} (h : s.MemForm) : (s.undrainSaves cs).MemForm :=
  .foldl h fun _ _ h1 => .ite (.goOn h1) h1

theorem Res.MemForm.kilnDrainTimeout {die : Nat} {matrix : Bool} (h : s.MemForm) :
    Res.MemForm (execKilnDrainTimeout die matrix s) := by
  unfold Machine.execKilnDrainTimeout
  extract_lets
  refine .next ?_
  split
  · exact h
  · exact .ite h (.ite (.oweOnce (.undrainSaves (.undrainMx (.setDieAt h))))
      (.oweOnce (.kilnNext (.undrainSaves (.undrain (.setDieAt h))))))

theorem Res.MemForm.faultAnswered {cohort : Nat} (h : s.MemForm) : Res.MemForm (execFaultAnswered cohort s) := by
  unfold Machine.execFaultAnswered
  extract_lets
  refine .next (.ite h ?_)
  split
  · exact .stopFault (.setCohortAt h)
  · exact .ite (.goOn h) (.oweOnce (.pushHead (.setCohortAt h)))

theorem State.MemForm.engineAbandon {f : EngFault} (h : s.MemForm) : (s.engineAbandon f).MemForm := by
  unfold State.engineAbandon
  split
  · split
    · exact .copyAbandon h
    · exact h
  · exact .ite (.stopTeam (.setImemAt h)) (.abandon (.setImemAt h))
  · split
    · exact .forkAbort h
    · exact h
  · exact .mxAbandon h
  · exact .ite (.abandon h) (.endCheck (.abandon (.commitAll (.setGangAt h))))
  · exact .breakGroup h
  · exact .breakGroup h
  · exact .breakGroup h
  · split
    · exact .cohortEnd (.endCheck (.abandon (.sendQuads (.meshRead h))))
    · exact h
  · exact .pixelEnd (.abandon h)
  · exact .refuse h
  · exact .refuse h
  · exact .refuse h
  · exact .abandon h

theorem Res.MemForm.engineFaultAnswered {id : Nat} (h : s.MemForm) : Res.MemForm (execEngineFaultAnswered id s) := by
  unfold Machine.execEngineFaultAnswered
  refine .next ?_
  split
  · exact h
  · exact .ite h (.ite (.engineAbandon h) (.owe h))

theorem Res.MemForm.freeSlotAdvert {die : Nat} {far : Bool} (h : s.MemForm) : Res.MemForm (execFreeSlotAdvert die far s) :=
  .next (.ite h (.foldl h fun _ _ h1 => .setDieAt h1))

theorem State.MemForm.leaveModule {qk pri : Nat} {hd : Nat × Option Nat} (h : s.MemForm) :
    (s.leaveModule qk pri hd).MemForm := by
  unfold State.leaveModule
  extract_lets
  split
  · exact .upd (.wlcRetry (.unpin (.takeHead h)))
  · exact .setCohortAt (.foldl (.poolFree (.upd (.wlcRetry (.unpin (.takeHead h))))) fun _ _ h1 => .foldl (.setTeamAt h1)
      fun _ _ h2 => .setGangAt h2)

theorem State.MemForm.sendRecord {qk dst : Nat} {hd : Nat × Option Nat} (h : s.MemForm) :
    (s.sendRecord qk dst hd).MemForm :=
  .owe h

theorem State.MemForm.arrived {qk record : Nat} (h : s.MemForm) : (s.arrived qk record).2.MemForm := by
  unfold State.arrived
  split <;> exact h

theorem Res.MemForm.migrationTrigger {die slot pri : Nat} (h : s.MemForm) :
    Res.MemForm (execMigrationTrigger die slot pri s) := by
  unfold Machine.execMigrationTrigger
  extract_lets
  refine .next ?_
  split
  · exact h
  · refine .ite h ?_
    extract_lets away s1
    have h1 : s1.MemForm := by
      unfold s1 away
      split
      · exact .freePick h
      · exact h
    refine .ite (.leaveModule h1) ?_
    split
    · exact h1
    · exact .sendRecord (.wlcRetry (.unpin (.takeHead h1)))

theorem Res.MemForm.migrationReceive {die slot record : Nat} {saved : Option Nat} (h : s.MemForm) :
    Res.MemForm (execMigrationReceive die slot record saved s) :=
  .next (.ite (.oweOnce (.pushHead (.arrived h))) (.oweOnce (.enqueue (by
    split
    · exact .setCohortAt (.arrived h)
    · exact .arrived h))))

theorem State.MemForm.waveZero {key : Nat} (h : s.MemForm) : (s.waveZero key).2.MemForm := by
  unfold State.waveZero
  dsimp only
  split
  · exact h
  · split
    · exact .upd h
    · exact h

theorem State.MemForm.answerQdone {key : Nat} (h : s.MemForm) : (s.answerQdone key).MemForm :=
  .foldl h fun _ _ h1 => .ite (.foldl h1 fun _ _ h2 => .ite (.setGangAt h2) h2) h1

theorem Res.MemForm.qdtWave {launch : Nat} (h : s.MemForm) : Res.MemForm (execQdtWave launch s) := by
  unfold Machine.execQdtWave
  extract_lets
  refine .next (.ite h ?_)
  extract_lets
  refine .ite (.upd (.waveZero h)) (.ite (.upd (.waveZero h)) ?_)
  extract_lets
  split
  · exact .answerQdone (.upd (.waveZero h))
  · exact .foldl (.upd (.waveZero h)) fun _ _ h1 => .oweOnce (.wlcTry h1)

theorem Res.MemForm.wlcFlushTimer {die slot list : Nat} (h : s.MemForm) :
    Res.MemForm (execWlcFlushTimer die slot list s) := by
  unfold Machine.execWlcFlushTimer
  extract_lets
  refine .next (.ite h ?_)
  split
  · exact h
  · exact .ite h (.oweOnce (.wlcTry h))

theorem Res.MemForm.shootdownRequest {die slot : Nat} (h : s.MemForm) : Res.MemForm (execShootdownRequest die slot s) :=
  .next (.ite h (.vaRelease (.fold (.upd (.foldl h fun _ _ h1 => .setDieAt h1)))))

/-! ### The functions of Machine/Exchange -/

theorem Res.MemForm.shfl {f : ClassA} (h : s.MemForm) : Res.MemForm (execShfl f s) :=
  .next (.ite h (.aluLane h))

theorem Res.MemForm.shflx {f : ClassA} (h : s.MemForm) : Res.MemForm (execShflx f s) :=
  .next (.aluLane h)

theorem Res.MemForm.bcast {f : ClassA} (h : s.MemForm) : Res.MemForm (execBcast f s) :=
  .next (.aluLane h)

theorem Res.MemForm.vote {f : ClassA} (h : s.MemForm) : Res.MemForm (execVote f s) :=
  .next (.ite (.aluLane h) (.predLane h))

theorem Res.MemForm.matchLanes {f : ClassA} (h : s.MemForm) : Res.MemForm (execMatchLanes f s) :=
  .next (.aluLane h)

theorem Res.MemForm.red {f : ClassA} (h : s.MemForm) : Res.MemForm (execRed f s) :=
  .next (.aluLane h)

theorem Res.MemForm.scan {f : ClassA} (h : s.MemForm) : Res.MemForm (execScan f s) :=
  .next (.aluLane h)

theorem Res.MemForm.redix {f : ClassA} (h : s.MemForm) : Res.MemForm (execRedix f s) :=
  .next (.aluLane h)

/-! ### The functions of Machine/Integer -/

theorem State.MemForm.intA {f : ClassA} {nb nc : Bool} {op : DWord → DWord → DWord → LaneOut} (h : s.MemForm) :
    (s.intA f nb nc op).MemForm :=
  .ite (.aluGroup h) (.ite h (.aluLane h))

theorem State.MemForm.intI {f : ClassI} {op : DWord → DWord → LaneOut} (h : s.MemForm) : (s.intI f op).MemForm :=
  .ite (.aluGroup h) (.aluLane h)

theorem Res.MemForm.iadd {f : ClassA} (h : s.MemForm) : Res.MemForm (execIadd f s) :=
  .next (.intA h)

theorem Res.MemForm.isub {f : ClassA} (h : s.MemForm) : Res.MemForm (execIsub f s) :=
  .next (.intA h)

theorem Res.MemForm.imul {f : ClassA} (h : s.MemForm) : Res.MemForm (execImul f s) :=
  .next (.intA h)

theorem Res.MemForm.imulh {f : ClassA} (h : s.MemForm) : Res.MemForm (execImulh f s) :=
  .next (.intA h)

theorem Res.MemForm.imad {f : ClassA} (h : s.MemForm) : Res.MemForm (execImad f s) :=
  .next (.intA h)

theorem Res.MemForm.idiv {f : ClassA} (h : s.MemForm) : Res.MemForm (execIdiv f s) :=
  .next (.intA h)

theorem Res.MemForm.irem {f : ClassA} (h : s.MemForm) : Res.MemForm (execIrem f s) :=
  .next (.intA h)

theorem Res.MemForm.imin {f : ClassA} (h : s.MemForm) : Res.MemForm (execImin f s) :=
  .next (.intA h)

theorem Res.MemForm.imax {f : ClassA} (h : s.MemForm) : Res.MemForm (execImax f s) :=
  .next (.intA h)

theorem Res.MemForm.iand {f : ClassA} (h : s.MemForm) : Res.MemForm (execIand f s) :=
  .next (.intA h)

theorem Res.MemForm.ior {f : ClassA} (h : s.MemForm) : Res.MemForm (execIor f s) :=
  .next (.intA h)

theorem Res.MemForm.ixor {f : ClassA} (h : s.MemForm) : Res.MemForm (execIxor f s) :=
  .next (.intA h)

theorem Res.MemForm.iandn {f : ClassA} (h : s.MemForm) : Res.MemForm (execIandn f s) :=
  .next (.intA h)

theorem Res.MemForm.shl {f : ClassA} (h : s.MemForm) : Res.MemForm (execShl f s) :=
  .next (.intA h)

theorem Res.MemForm.shr {f : ClassA} (h : s.MemForm) : Res.MemForm (execShr f s) :=
  .next (.intA h)

theorem Res.MemForm.sar {f : ClassA} (h : s.MemForm) : Res.MemForm (execSar f s) :=
  .next (.intA h)

theorem Res.MemForm.rot {f : ClassA} (h : s.MemForm) : Res.MemForm (execRot f s) :=
  .next (.intA h)

theorem Res.MemForm.bfe {f : ClassA} (h : s.MemForm) : Res.MemForm (execBfe f s) :=
  .next (.intA h)

theorem Res.MemForm.bfi {f : ClassA} (h : s.MemForm) : Res.MemForm (execBfi f s) :=
  .next (.intA h)

theorem Res.MemForm.mov {f : ClassA} (h : s.MemForm) : Res.MemForm (execMov f s) :=
  .next (.intA h)

theorem Res.MemForm.iabs {f : ClassA} (h : s.MemForm) : Res.MemForm (execIabs f s) :=
  .next (.intA h)

theorem Res.MemForm.ineg {f : ClassA} (h : s.MemForm) : Res.MemForm (execIneg f s) :=
  .next (.intA h)

theorem Res.MemForm.inot {f : ClassA} (h : s.MemForm) : Res.MemForm (execInot f s) :=
  .next (.intA h)

theorem Res.MemForm.popc {f : ClassA} (h : s.MemForm) : Res.MemForm (execPopc f s) :=
  .next (.intA h)

theorem Res.MemForm.clz {f : ClassA} (h : s.MemForm) : Res.MemForm (execClz f s) :=
  .next (.intA h)

theorem Res.MemForm.ctz {f : ClassA} (h : s.MemForm) : Res.MemForm (execCtz f s) :=
  .next (.intA h)

theorem Res.MemForm.brev {f : ClassA} (h : s.MemForm) : Res.MemForm (execBrev f s) :=
  .next (.intA h)

theorem Res.MemForm.iaddImm {f : ClassI} (h : s.MemForm) : Res.MemForm (execIaddImm f s) :=
  .next (.intI h)

theorem Res.MemForm.isubImm {f : ClassI} (h : s.MemForm) : Res.MemForm (execIsubImm f s) :=
  .next (.intI h)

theorem Res.MemForm.imulImm {f : ClassI} (h : s.MemForm) : Res.MemForm (execImulImm f s) :=
  .next (.intI h)

theorem Res.MemForm.iminImm {f : ClassI} (h : s.MemForm) : Res.MemForm (execIminImm f s) :=
  .next (.intI h)

theorem Res.MemForm.imaxImm {f : ClassI} (h : s.MemForm) : Res.MemForm (execImaxImm f s) :=
  .next (.intI h)

theorem Res.MemForm.andImm {f : ClassI} (h : s.MemForm) : Res.MemForm (execAndImm f s) :=
  .next (.intI h)

theorem Res.MemForm.orImm {f : ClassI} (h : s.MemForm) : Res.MemForm (execOrImm f s) :=
  .next (.intI h)

theorem Res.MemForm.xorImm {f : ClassI} (h : s.MemForm) : Res.MemForm (execXorImm f s) :=
  .next (.intI h)

theorem Res.MemForm.andnImm {f : ClassI} (h : s.MemForm) : Res.MemForm (execAndnImm f s) :=
  .next (.intI h)

theorem Res.MemForm.shlImm {f : ClassI} (h : s.MemForm) : Res.MemForm (execShlImm f s) :=
  .next (.intI h)

theorem Res.MemForm.shrImm {f : ClassI} (h : s.MemForm) : Res.MemForm (execShrImm f s) :=
  .next (.intI h)

theorem Res.MemForm.sarImm {f : ClassI} (h : s.MemForm) : Res.MemForm (execSarImm f s) :=
  .next (.intI h)

theorem Res.MemForm.rotImm {f : ClassI} (h : s.MemForm) : Res.MemForm (execRotImm f s) :=
  .next (.intI h)

theorem Res.MemForm.icmp {f : ClassA} (h : s.MemForm) : Res.MemForm (execIcmp f s) :=
  .next (.ite (.predGroup h) (.ite h (.predLane h)))

theorem Res.MemForm.icmpImm {f : ClassI} (h : s.MemForm) : Res.MemForm (execIcmpImm f s) :=
  .next (.ite (.predGroup h) (.predLane h))

theorem Res.MemForm.sel {f : ClassA} (h : s.MemForm) : Res.MemForm (execSel f s) :=
  .next (.ite (.aluGroup h) (.ite h (.aluLane h)))

theorem Res.MemForm.movi {f : ClassI} (h : s.MemForm) : Res.MemForm (execMovi f s) :=
  .next (.ite (.aluGroup h) (.aluLane h))

theorem Res.MemForm.movh {f : ClassI} (h : s.MemForm) : Res.MemForm (execMovh f s) :=
  .next (.ite (.aluGroup h) (.aluLane h))

theorem Res.MemForm.lea {f : ClassM} (h : s.MemForm) : Res.MemForm (execLea f s) :=
  .next (.ite (.aluGroup h) (.aluLane h))

theorem Res.MemForm.adsetImm {f : ClassI} (h : s.MemForm) : Res.MemForm (execAdsetImm f s) :=
  .next (.groupDo h)

theorem Res.MemForm.adset {f : ClassA} (h : s.MemForm) : Res.MemForm (execAdset f s) :=
  .next (.groupDo h)

theorem Res.MemForm.adsetW {f : ClassA} (h : s.MemForm) : Res.MemForm (execAdsetW f s) :=
  .next (.groupDo h)

theorem Res.MemForm.adsetAdd {f : ClassA} (h : s.MemForm) : Res.MemForm (execAdsetAdd f s) :=
  .next (.groupDo h)

theorem Res.MemForm.adget {f : ClassA} (h : s.MemForm) : Res.MemForm (execAdget f s) :=
  .next (.groupDo h)

theorem Res.MemForm.adgetW {f : ClassA} (h : s.MemForm) : Res.MemForm (execAdgetW f s) :=
  .next (.groupDo h)

/-! ### The functions of Machine/Dispatch -/

/-- Every instruction and every event keeps the form of memory. -/
theorem Res.MemForm.exec : ∀ {i : Instr}, s.MemForm → Res.MemForm (exec i s)
  | .nop f, h => .nop (_f := f) h
  | .ifK .., h => .ifK h
  | .elseK .., h => .elseK h
  | .endif .., h => .endif h
  | .loop .., h => .loop h
  | .endloop .., h => .endloop h
  | .brk .., h => .brk h
  | .cont .., h => .cont h
  | .bra .., h => .bra h
  | .brx .., h => .brx h
  | .call .., h => .call h
  | .callx .., h => .callx h
  | .ret .., h => .ret h
  | .regang f, h => .regang (_f := f) h
  | .jmpf .., h => .jmpf h
  | .cfetch .., h => .cfetch h
  | .segmentLanded .., h => .segmentLanded h
  | .cwait .., h => .cwait h
  | .cwaitAll .., h => .cwaitAll h
  | .exit .., h => .exit h
  | .yield .., h => .yield h
  | .yieldExpire .., h => .yieldExpire h
  | .trap .., h => .trap h
  | .rgnb f, h => .rgnb (_f := f) h
  | .rgne f, h => .rgne (_f := f) h
  | .regionExhaustReplay .., h => .regionExhaustReplay h
  | .cbr .., h => .cbr h
  | .voteResultDelivery .., h => .voteResultDelivery h
  | .bar .., h => .bar h
  | .qcfg .., h => .qcfg h
  | .iadd .., h => .iadd h
  | .isub .., h => .isub h
  | .imul .., h => .imul h
  | .imulh .., h => .imulh h
  | .imad .., h => .imad h
  | .idiv .., h => .idiv h
  | .irem .., h => .irem h
  | .imin .., h => .imin h
  | .imax .., h => .imax h
  | .iand .., h => .iand h
  | .ior .., h => .ior h
  | .ixor .., h => .ixor h
  | .iandn .., h => .iandn h
  | .shl .., h => .shl h
  | .shr .., h => .shr h
  | .sar .., h => .sar h
  | .rot .., h => .rot h
  | .bfe .., h => .bfe h
  | .bfi .., h => .bfi h
  | .icmp .., h => .icmp h
  | .sel .., h => .sel h
  | .lea .., h => .lea h
  | .mov .., h => .mov h
  | .iabs .., h => .iabs h
  | .ineg .., h => .ineg h
  | .inot .., h => .inot h
  | .popc .., h => .popc h
  | .clz .., h => .clz h
  | .ctz .., h => .ctz h
  | .brev .., h => .brev h
  | .iaddImm .., h => .iaddImm h
  | .isubImm .., h => .isubImm h
  | .imulImm .., h => .imulImm h
  | .iminImm .., h => .iminImm h
  | .imaxImm .., h => .imaxImm h
  | .andImm .., h => .andImm h
  | .orImm .., h => .orImm h
  | .xorImm .., h => .xorImm h
  | .andnImm .., h => .andnImm h
  | .shlImm .., h => .shlImm h
  | .shrImm .., h => .shrImm h
  | .sarImm .., h => .sarImm h
  | .rotImm .., h => .rotImm h
  | .icmpImm .., h => .icmpImm h
  | .movi .., h => .movi h
  | .movh .., h => .movh h
  | .adsetImm .., h => .adsetImm h
  | .adset .., h => .adset h
  | .adsetW .., h => .adsetW h
  | .adsetAdd .., h => .adsetAdd h
  | .adget .., h => .adget h
  | .adgetW .., h => .adgetW h
  | .fadd .., h => .fadd h
  | .fsub .., h => .fsub h
  | .fmul .., h => .fmul h
  | .ffma .., h => .ffma h
  | .fmin .., h => .fmin h
  | .fmax .., h => .fmax h
  | .fcmp .., h => .fcmp h
  | .frnd .., h => .frnd h
  | .fclass .., h => .fclass h
  | .frcp .., h => .frcp h
  | .frsq .., h => .frsq h
  | .fsqrt .., h => .fsqrt h
  | .fexp2 .., h => .fexp2 h
  | .flog2 .., h => .flog2 h
  | .fsin .., h => .fsin h
  | .fcos .., h => .fcos h
  | .fdiv .., h => .fdiv h
  | .fdot2 .., h => .fdot2 h
  | .idot4 .., h => .idot4 h
  | .cvt .., h => .cvt h
  | .qpack .., h => .qpack h
  | .qunpk .., h => .qunpk h
  | .shfl .., h => .shfl h
  | .shflx .., h => .shflx h
  | .bcast .., h => .bcast h
  | .vote .., h => .vote h
  | .red .., h => .red h
  | .redix .., h => .redix h
  | .scan .., h => .scan h
  | .matchLanes .., h => .matchLanes h
  | .ld .., h => .ld h
  | .loadReturn .., h => .loadReturn h
  | .st .., h => .st h
  | .storePerformed .., h => .storePerformed h
  | .causalDelivery .., h => .causalDelivery h
  | .ldlod .., h => .ldlod h
  | .smpl .., h => .smpl h
  | .ldgen .., h => .ldgen h
  | .pref .., h => .pref h
  | .cinv .., h => .cinv h
  | .cflush .., h => .cflush h
  | .rinv .., h => .rinv h
  | .rminv .., h => .rminv h
  | .atom .., h => .atom h
  | .waitv .., h => .waitv h
  | .waitvReread .., h => .waitvReread h
  | .fence .., h => .fence h
  | .cpy .., h => .cpy h
  | .copyUnit .., h => .copyUnit h
  | .copyComplete .., h => .copyComplete h
  | .gth .., h => .gth h
  | .bcommit .., h => .bcommit h
  | .bwait .., h => .bwait h
  | .bwaitG .., h => .bwaitG h
  | .waitc .., h => .waitc h
  | .publ .., h => .publ h
  | .publSwing .., h => .publSwing h
  | .bcbarm .., h => .bcbarm h
  | .bcbadd .., h => .bcbadd h
  | .bcbwait .., h => .bcbwait h
  | .tdsetImm .., h => .tdsetImm h
  | .tdsetReg .., h => .tdsetReg h
  | .tdget .., h => .tdget h
  | .mxzero .., h => .mxzero h
  | .mxldacc .., h => .mxldacc h
  | .mxmma .., h => .mxmma h
  | .mxdrain .., h => .mxdrain h
  | .mxdrainCompareDone .., h => .mxdrainCompareDone h
  | .mxOpComplete .., h => .mxOpComplete h
  | .mxwait .., h => .mxwait h
  | .mxwaitAcc .., h => .mxwaitAcc h
  | .mxmodeNorm .., h => .mxmodeNorm h
  | .mxmodeRed .., h => .mxmodeRed h
  | .mxscale .., h => .mxscale h
  | .mxscaleRow .., h => .mxscaleRow h
  | .mxscaleCol .., h => .mxscaleCol h
  | .fork .., h => .fork h
  | .lintelStart .., h => .lintelStart h
  | .rdv .., h => .rdv h
  | .spawn .., h => .spawn h
  | .done .., h => .done h
  | .doneC .., h => .doneC h
  | .wlput .., h => .wlput h
  | .wlget .., h => .wlget h
  | .rbin .., h => .rbin h
  | .qdone .., h => .qdone h
  | .coll .., h => .coll h
  | .comp .., h => .comp h
  | .collComplete .., h => .collComplete h
  | .wsend .., h => .wsend h
  | .mesh .., h => .mesh h
  | .meshRaster .., h => .meshRaster h
  | .pixelTeamStart .., h => .pixelTeamStart h
  | .fragmentBlend .., h => .fragmentBlend h
  | .rtrace .., h => .rtrace h
  | .rtraceComplete .., h => .rtraceComplete h
  | .rhit .., h => .rhit h
  | .srd .., h => .srd h
  | .swr .., h => .swr h
  | .qcfgWrite .., h => .qcfgWrite h
  | .mstatClear .., h => .mstatClear h
  | .srstateWrite .., h => .srstateWrite h
  | .stklimWrite .., h => .stklimWrite h
  | .heapRegWrite .., h => .heapRegWrite h
  | .windowWrite .., h => .windowWrite h
  | .cceshareWrite .., h => .cceshareWrite h
  | .grstWrite .., h => .grstWrite h
  | .plimWrite .., h => .plimWrite h
  | .time .., h => .time h
  | .sysc .., h => .sysc h
  | .syscAnswer .., h => .syscAnswer h
  | .tret .., h => .tret h
  | .tretSkip .., h => .tretSkip h
  | .qmap .., h => .qmap h
  | .qunmap .., h => .qunmap h
  | .qswSuspend .., h => .qswSuspend h
  | .qswResume .., h => .qswResume h
  | .qswPreempt .., h => .qswPreempt h
  | .qswKill .., h => .qswKill h
  | .qswPrio .., h => .qswPrio h
  | .asyncTrap .., h => .asyncTrap h
  | .placementDecision .., h => .placementDecision h
  | .rootRecordMake .., h => .rootRecordMake h
  | .cohortRestore .., h => .cohortRestore h
  | .faultAnswered .., h => .faultAnswered h
  | .freeSlotAdvert .., h => .freeSlotAdvert h
  | .migrationTrigger .., h => .migrationTrigger h
  | .migrationReceive .., h => .migrationReceive h
  | .watchdogT1 .., h => .watchdogT1 h
  | .watchdogT2 .., h => .watchdogT2 h
  | .watchdogT3 .., h => .watchdogT3 h
  | .qdtWave .., h => .qdtWave h
  | .wlcFlushTimer .., h => .wlcFlushTimer h
  | .shootdownRequest .., h => .shootdownRequest h
  | .frameRead .., h => .frameRead h
  | .frameReadResponse .., h => .frameReadResponse h
  | .frameWrite .., h => .frameWrite h
  | .frameWriteAck .., h => .frameWriteAck h
  | .frameAtomic .., h => .frameAtomic h
  | .frameAtomicResponse .., h => .frameAtomicResponse h
  | .frameWorkRecord .., h => .frameWorkRecord h
  | .frameSlotUpdate .., h => .frameSlotUpdate h
  | .slotUpdateSend .., h => .slotUpdateSend h
  | .frameCollectiveData .., h => .frameCollectiveData h
  | .frameImageTiles .., h => .frameImageTiles h
  | .frameVote .., h => .frameVote h
  | .frameVoteResult .., h => .frameVoteResult h
  | .votePartialTimeout .., h => .votePartialTimeout h
  | .voteResultRequest .., h => .voteResultRequest h
  | .retransmitTimer .., h => .retransmitTimer h
  | .hqEntryReread .., h => .hqEntryReread h
  | .uncorrectableErrorConsumed .., h => .uncorrectableErrorConsumed h
  | .engineFaultAnswered .., h => .engineFaultAnswered h
  | .kilnCoreTimer .., h => .kilnCoreTimer h
  | .kilnClusterTimer .., h => .kilnClusterTimer h
  | .kilnDrainComplete .., h => .kilnDrainComplete h
  | .kilnDrainTimeout .., h => .kilnDrainTimeout h
  | .kilnScanComplete .., h => .kilnScanComplete h
  | .packetAck .., h => .packetAck h
  | .peerLoss .., h => .peerLoss h
  | .hqTailWrite .., h => .hqTailWrite h
  | .hqStatusClear .., h => .hqStatusClear h
  | .hqQlogWrite .., h => .hqQlogWrite h
  | .hqCompletion .., h => .hqCompletion h
  | .inboundPostedWrite .., h => .inboundPostedWrite h
  | .inboundRead .., h => .inboundRead h
  | .inboundAtomic .., h => .inboundAtomic h
  | .pReadCompletion .., h => .pReadCompletion h
  | .cxlLinkDown .., h => .cxlLinkDown h
  | .moduleReset .., h => .moduleReset h
  | .bootStage1 .., h => .bootStage1 h
  | .bootStage2 .., h => .bootStage2 h
  | .bootStage3, h => .bootStage3 h
  | .powerWindow .., h => .powerWindow h
  | .junctionThrottle, h => .junctionThrottle h
  | .thermalTrip, h => .thermalTrip h
  | .electricalTrip, h => .electricalTrip h
  | .junctionBelow100C, h => .junctionBelow100C h

/-! ### The functions of Machine/Issue -/

theorem State.MemForm.tickClock (h : s.MemForm) : s.tickClock.MemForm :=
  .when (.when (.unless (.unless (.upd h) .retryPosts) .spillRest) .commitRest) .saveRest

/-- The state that a choice goes on with. -/
def Choice.MemForm : Choice → Prop
  | .serve _ s => s.MemForm
  | .issue s => s.MemForm
  | .idle s => s.MemForm

theorem Choice.MemForm.choose (h : s.MemForm) : s.choose.MemForm := by
  unfold State.choose
  split <;> exact h

/-- The state that a fetch goes on with. -/
def Fetched.MemForm : Fetched → Prop
  | .run _ s => s.MemForm
  | .other s => s.MemForm

theorem Fetched.MemForm.fetchAt (h : s.MemForm) : s.fetchAt.MemForm := by
  unfold State.fetchAt
  dsimp only
  split
  · exact .trap (s := s) h
  · split
    · exact .trap (s := s) h
    · exact h
    · split
      · exact .illegal (s := s) h
      · exact h

theorem State.MemForm.rotate (h : s.MemForm) : s.rotate.MemForm := by
  unfold State.rotate
  split <;> exact h

theorem State.MemForm.issueAs {k p : Nat} {others ready : List Nat} (h : s.MemForm) :
    (s.issueAs k p others ready).MemForm :=
  .setGang (.upd (.foldl h fun _ _ h1 => .ite h1 (.setGangAt h1)))

/-! ### The functions of Machine/Pick -/

theorem OptForm.chosen (h : s.MemForm) : OptForm s.chosen := .map fun _ _ => .issueAs (.rotate h)

/-! ### The functions of Machine/Timers -/

theorem State.MemForm.raise (h : s.MemForm) : s.raise.MemForm := .foldl h fun _ _ h1 => .oweOnce h1

theorem State.MemForm.settleKiln (h : s.MemForm) : s.settleKiln.MemForm :=
  .foldl (.ite (.shutLeaving h) h) fun _ _ h1 => .ite h1 (.kilnNext h1)

theorem State.MemForm.tick (h : s.MemForm) : s.tick.MemForm := .raise (.settleKiln (.tickClock h))

end Functions

/-! ### The step -/

/-- Every step keeps the form of memory. -/
theorem step_memForm {s t : State} (h : s.MemForm) (e : step s = .next t) : t.MemForm := by
  unfold step at e
  split at e
  · exact nomatch e
  · have hc := Choice.MemForm.choose (.tick h)
    split at e
    · rename_i ec
      rw [ec] at hc
      exact Res.MemForm.exec hc t e
    · rename_i ec
      rw [ec] at hc
      split at e
      · exact Res.MemForm.next (.rotate hc) t e
      · rename_i es
        have hf := Fetched.MemForm.fetchAt (OptForm.of_eq es (.chosen hc))
        split at e
        · rename_i ef
          rw [ef] at hf
          exact Res.MemForm.exec hf t e
        · rename_i ef
          rw [ef] at hf
          exact Res.MemForm.next hf t e
    · rename_i ec
      rw [ec] at hc
      exact Res.MemForm.next hc t e

/-- Settles O60, by following each function of the model down to the writes of memory, which `set_wf` covers. -/
theorem stepKeepsMemoryForm : Obligations.StepKeepsMemoryForm := fun _ _ h e => step_memForm h e

end Sys2Proof.Machine
end

section
/-! Loads: what a ready load leaves, what a near place gives, and what a return writes (R153, R154, R164, R173, R231, R248). -/

namespace Sys2Proof.Machine

/-! ## What reads of memory depend on -/

theorem State.byteAt_congr {s t : State} (hl : t.log = s.log) (hm : t.mem = s.mem) (d pa : Nat) :
    t.byteAt d pa = s.byteAt d pa := by
  simp only [State.byteAt, State.byteIf, hl, hm]

theorem State.byteHome_congr {s t : State} (hl : t.log = s.log) (hm : t.mem = s.mem) (pa : Nat) :
    t.byteHome pa = s.byteHome pa := by
  simp only [State.byteHome, State.byteIf, hl, hm]

/-- What the caches of loads and the tags of releases may change of a state, and what they keep: memory, the counters, the units, and of
the issuing gang the loads, the registers (but MSTAT) and the stack. -/
structure State.ReadsTo (s t : State) : Prop where
  due : t.due = s.due
  nextId : t.nextId = s.nextId
  gk : t.gk = s.gk
  log : t.log = s.log
  mem : t.mem = s.mem
  teams : t.teams = s.teams
  cohorts : t.cohorts = s.cohorts
  queues : t.queues = s.queues
  others : ∀ k, k ≠ s.gk → t.gangAt k = s.gangAt k
  loads : (t.gangAt s.gk).loads = (s.gangAt s.gk).loads
  v : (t.gangAt s.gk).r.v = (s.gangAt s.gk).r.v
  g : (t.gangAt s.gk).r.g = (s.gangAt s.gk).r.g
  k : (t.gangAt s.gk).r.k = (s.gangAt s.gk).r.k
  ad : (t.gangAt s.gk).r.ad = (s.gangAt s.gk).r.ad
  kdata : (t.gangAt s.gk).kdata = (s.gangAt s.gk).kdata

section ReadsTo

variable {s t u : State} {α : Type}

theorem State.ReadsTo.refl : s.ReadsTo s := by
  constructor <;> intros <;> exact rfl

theorem State.ReadsTo.trans (h : s.ReadsTo t) (h' : t.ReadsTo u) : s.ReadsTo u := by
  have e := h.gk
  constructor
  case others => exact fun k hk => (h'.others k (e ▸ hk)).trans (h.others k hk)
  case due => exact h'.due.trans h.due
  case nextId => exact h'.nextId.trans h.nextId
  case gk => exact h'.gk.trans h.gk
  case log => exact h'.log.trans h.log
  case mem => exact h'.mem.trans h.mem
  case teams => exact h'.teams.trans h.teams
  case cohorts => exact h'.cohorts.trans h.cohorts
  case queues => exact h'.queues.trans h.queues
  case loads => exact (e ▸ h'.loads).trans h.loads
  case v => exact (e ▸ h'.v).trans h.v
  case g => exact (e ▸ h'.g).trans h.g
  case k => exact (e ▸ h'.k).trans h.k
  case ad => exact (e ▸ h'.ad).trans h.ad
  case kdata => exact (e ▸ h'.kdata).trans h.kdata

theorem State.ReadsTo.ite {c : Prop} [Decidable c] (h : s.ReadsTo t) (h' : s.ReadsTo u) : s.ReadsTo (if c then t else u) := by
  split
  · exact h
  · exact h'

theorem State.ReadsTo.foldl {f : State → α → State} {l : List α} (hf : ∀ (t : State) a, t.ReadsTo (f t a)) :
    s.ReadsTo (l.foldl f s) := by
  induction l generalizing s with
  | nil => exact .refl
  | cons a r ih => exact (hf s a).trans ih

/-- Caches, clocks and dies are nothing of what loads keep. -/
theorem State.ReadsTo.setDieAt {d : Nat} {x : Die} : s.ReadsTo (s.setDieAt d x) := by
  constructor <;> intros <;> exact rfl

theorem State.ReadsTo.setCoreAt {c : Nat} {x : Core} : s.ReadsTo (s.setCoreAt c x) := by
  constructor <;> intros <;> exact rfl

theorem State.ReadsTo.setClock {d : Nat} {c : List Nat} : s.ReadsTo (s.setClock d c) := by
  constructor <;> intros <;> exact rfl

theorem State.ReadsTo.noteRead {d : Nat} {pas : List Nat} : s.ReadsTo (s.noteRead d pas) := .ite .refl .setClock

theorem State.ReadsTo.noteReads {n : Nat} {l : List Acc} : s.ReadsTo (s.noteReads n l) := .ite .refl .noteRead

theorem State.ReadsTo.dropL1 {on p : Nat → Bool} : s.ReadsTo (s.dropL1 on p) := .foldl fun _ _ => .setCoreAt

theorem State.ReadsTo.ldgenDrop {gk : Nat} {l : List Nat} : s.ReadsTo (s.ldgenDrop gk l) := .ite .refl .dropL1

theorem State.ReadsTo.fillP7 {gk ch : Nat} {l : List Acc} : s.ReadsTo (s.fillP7 gk ch l) :=
  .foldl fun t a => by
    split
    · exact .ite .setDieAt .refl
    · exact .refl

theorem State.ReadsTo.fillL1 {gk ch : Nat} {l : List Acc} : s.ReadsTo (s.fillL1 gk ch l) :=
  .foldl fun t a => by
    split
    · refine .ite ?_ .refl
      split
      · exact .ite .refl .setCoreAt
      · exact .refl
    · exact .refl

/-- The issuing gang may take flags of MSTAT, and note the releases that it read. -/
theorem State.ReadsTo.setGang {g : Gang} (hl : g.loads = s.gang.loads) (hv : g.r.v = s.gang.r.v) (hg : g.r.g = s.gang.r.g)
    (hk : g.r.k = s.gang.r.k) (ha : g.r.ad = s.gang.r.ad) (hd : g.kdata = s.gang.kdata) : s.ReadsTo (s.setGangAt s.gk g) := by
  constructor
  case others => exact fun k h => by simp [h]
  all_goals simp_all [State.gang]

theorem State.ReadsTo.acquire {z : Nat} {ts : List Tag} :
    s.ReadsTo (s.acquire s.gk z ts) := .ite .refl (.setGang rfl rfl rfl rfl rfl rfl)

theorem State.ReadsTo.syncTags {scp ord : Nat} {ts : List Tag} : s.ReadsTo (s.syncTags s.gk scp ord ts) :=
  .ite .refl (.ite .acquire (.setGang rfl rfl rfl rfl rfl rfl))

theorem State.ReadsTo.syncRead {sp scp ord n : Nat} {l : List Acc} : s.ReadsTo (s.syncRead sp scp ord n l) := .syncTags

end ReadsTo

/-! ## A load whose places are near -/

/-- The operation that joins the ld counter when every place is near: nothing is awaited. -/
def State.nearLoad (s : State) (f : ClassM) (gen : Bool) (accs : List Acc) : PendLoad :=
  let wide := f.sz.toNat == 5
  let d := f.d.toNat
  let vals := accs.map fun a => (a.lane, szExtend f.sz.toNat (leNat (s.readLoc s.gk f.sp.toNat (szBytes f.sz.toNat) a)))
  { id := s.nextId, sz := f.sz.toNat, d := d, ahead := s.gang.ahead.isSome, acq := gen || f.ord == 1#2,
    mask := s.overlay f.sp.toNat (szBytes f.sz.toNat) [], lgen := if gen then accs.map (·.ea.toNat) else [],
    vregs := if f.h.g || 56 ≤ d then [] else if wide then [d, d + 1] else [d],
    gregs := if f.h.g then [d] else [],
    vals := if f.h.g then [] else vals.flatMap fun v => laneVals d wide v.1 v.2,
    gvals := if f.h.g then vals.map fun v => (d, v.2) else [] }

/-- The operation has joined the counter; its event is owed. -/
def State.joinLoad (s : State) (p : PendLoad) : State :=
  { s.setGang { s.gang with loads := s.gang.loads ++ [p] } with
    nextId := s.nextId + 1, due := s.due ++ [.loadReturn s.gk p.id] }

theorem State.addLoad_eq_joinLoad (s : State) (p : PendLoad) (h : p.await = []) :
    ({ s with nextId := s.nextId + 1 } : State).addLoad p = s.joinLoad p := by
  simp only [State.addLoad, h]
  rfl

/-- What follows: the caches take the lines, the gang the releases, and LDGEN drops old copies. -/
def State.afterLoad (s : State) (f : ClassM) (gen : Bool) (accs : List Acc) (p : PendLoad) : State :=
  let n := szBytes f.sz.toNat
  let s := if f.sp.toNat = 0 then ((s.fillP7 s.gk f.ch.toNat accs).fillL1 s.gk f.ch.toNat accs).noteReads n accs else s
  let s := s.syncRead f.sp.toNat f.scp.toNat f.ord.toNat n accs
  if gen then s.ldgenDrop s.gk p.lgen else s

theorem State.ReadsTo.afterLoad {s : State} {f : ClassM} {gen : Bool} {accs : List Acc} {p : PendLoad} :
    s.ReadsTo (s.afterLoad f gen accs p) := by
  have h1 : s.ReadsTo (if f.sp.toNat = 0 then
      ((s.fillP7 s.gk f.ch.toNat accs).fillL1 s.gk f.ch.toNat accs).noteReads (szBytes f.sz.toNat) accs else s) :=
    .ite ((State.ReadsTo.fillP7.trans .fillL1).trans .noteReads) .refl
  have h2 := h1.trans (.syncRead (sp := f.sp.toNat) (scp := f.scp.toNat) (ord := f.ord.toNat) (n := szBytes f.sz.toNat)
    (l := accs))
  exact .ite (h2.trans .ldgenDrop) h2

theorem State.loadOp_of_ready {s s1 : State} {f : ClassM} {accs : List Acc} (h : Claims.loadReady s f s1 accs) (gen : Bool) :
    s.loadOp f gen = s.done ((s1.joinLoad (s1.nearLoad f gen accs)).afterLoad f gen accs (s1.nearLoad f gen accs)) := by
  obtain ⟨hgate, hacc, hroom, hsp, hnear, s0, hplan, h1⟩ := h
  have hhere : accs.filter (s1.near s1.die (szBytes f.sz.toNat)) = accs := List.filter_eq_self.2 hnear
  have haway : (accs.filter fun a => !s1.near s1.die (szBytes f.sz.toNat) a) = [] := by
    simpa [List.filter_eq_nil_iff] using hnear
  have hnet : s0.fullNet f.sp.toNat accs = false := by simp [State.fullNet, hsp]
  unfold State.loadOp
  simp only [hgate, hacc, hplan, hsp, Bool.false_or, if_neg (Nat.not_le.2 hroom), if_false, decide_eq_true_eq]
  rw [← h1, hhere, haway]
  rw [← State.addLoad_eq_joinLoad s1 (s1.nearLoad f gen accs) rfl]
  simp [hnet, anyFar, State.askAway, State.askFrom, State.nearLoad, State.afterLoad]

theorem State.gang_joinLoad (s : State) (p : PendLoad) :
    (s.joinLoad p).gangAt s.gk = { s.gang with loads := s.gang.loads ++ [p] } :=
  (State.gangAt_setGangAt ..).trans (if_pos rfl)

theorem State.others_joinLoad (s : State) (p : PendLoad) {k : Nat} (h : k ≠ s.gk) : (s.joinLoad p).gangAt k = s.gangAt k :=
  (State.gangAt_setGangAt ..).trans (if_neg h)

theorem sameMemory_joinLoad {s t : State} {p : PendLoad} (r : (s.joinLoad p).ReadsTo t) : Claims.SameMemory s t := by
  refine ⟨fun d pa _ => State.byteAt_congr r.log r.mem d pa, fun pa => State.byteHome_congr r.log r.mem pa, fun k => ?_,
    fun k => ?_⟩
  · have ht : t.teams = s.teams := r.teams
    simp only [State.teamAt, ht]
  · by_cases hk : k = s.gk
    · subst hk
      have hd := congrArg Gang.kdata (s.gang_joinLoad p)
      exact r.kdata.trans hd
    · rw [r.others k hk, s.others_joinLoad p hk]

theorem loadsTakeTheirBytes : Claims.LoadsTakeTheirBytes := by
  intro s s1 f accs i hi h n wide val
  obtain ⟨gen, ex, h0, h1⟩ :
    ∃ gen, exec i s = .next (s.loadOp f gen) ∧ (i = .ld f → gen = false) ∧ (i = .ldgen f → gen = true) := by
    rcases hi with rfl | rfl
    · exact ⟨false, rfl, fun _ => rfl, nofun⟩
    · exact ⟨true, rfl, nofun, fun _ => rfl⟩
  rw [State.loadOp_of_ready h] at ex
  have r := State.ReadsTo.afterLoad (s := s1.joinLoad (s1.nearLoad f gen accs)) (f := f) (gen := gen) (accs := accs)
    (p := s1.nearLoad f gen accs)
  generalize (s1.joinLoad (s1.nearLoad f gen accs)).afterLoad f gen accs (s1.nearLoad f gen accs) = t at ex r
  have hg : t.gang = t.gangAt s1.gk := congrArg t.gangAt r.gk
  have hj := s1.gang_joinLoad (s1.nearLoad f gen accs)
  refine ⟨t, s1.nearLoad f gen accs, ex, ?_, r.due, rfl, r.nextId, rfl, fun hl => ?_, fun hl => ?_, ?_, rfl, ?_, ?_,
    sameMemory_joinLoad r, ?_, ?_, ?_, ?_, fun k hk => ?_, r.cohorts, r.queues⟩
  · rw [hg]; exact r.loads.trans (congrArg Gang.loads hj)
  · simp [State.nearLoad, h0 hl]
  · simp [State.nearLoad, h1 hl]
  · simp [State.nearLoad, wide]
  · simp only [State.nearLoad, List.flatMap_map, wide, val, n]
  · simp only [State.nearLoad, List.map_map, Function.comp_def, val, n]
  · rw [hg]; exact r.v.trans (congrArg (·.r.v) hj)
  · rw [hg]; exact r.g.trans (congrArg (·.r.g) hj)
  · rw [hg]; exact r.k.trans (congrArg (·.r.k) hj)
  · rw [hg]; exact r.ad.trans (congrArg (·.r.ad) hj)
  · rw [r.others k hk, s1.others_joinLoad _ hk]

/-! ## What a near place gives -/

theorem Gang.heldByte_of_not_holds {g : Gang} (h : g.holds = false) (key : Nat × Nat) : g.heldByte key = none := by
  obtain ⟨ha, hr⟩ : g.ahead = none ∧ g.rel = none := by simpa [Gang.holds] using h
  simp [Gang.heldByte, Gang.heldList, ha, hr]

theorem State.readLoc_getElem? (s : State) (gk sp : Nat) {n i : Nat} (a : Acc) (h : i < n) :
    (s.readLoc gk sp n a)[i]? =
      some (s.seenByte gk (s.keyOf (s.gangAt gk) sp (a.ea.toNat + i)) a.loc (a.ea.toNat + i) i) := by
  simp [State.readLoc, h]

/-- Without held bytes, partition 7 answers first. -/
theorem State.seenByte_of_p7 {s : State} {gk : Nat} (h : (s.gangAt gk).holds = false) (key : Nat × Nat) {l : Loc} (va : Nat)
    {i : Nat}
    {b : Byte} (hb : s.p7Byte (s.dieOfGang gk) l i = some b) : s.seenByte gk key l va i = b := by
  simp [State.seenByte, Gang.heldByte_of_not_holds h, hb]

/-- Then a stale copy in the L1, then what the die reads. -/
theorem State.seenByte_mem {s : State} {gk : Nat} (h : (s.gangAt gk).holds = false) (key : Nat × Nat) {pa : Nat} {leaf : DWord}
    (va : Nat) {i : Nat} (hp : s.p7Byte (s.dieOfGang gk) (.mem pa leaf) i = none) :
    s.seenByte gk key (.mem pa leaf) va i = (s.staleByte gk va).getD (s.byteAt (s.dieOfGang gk) (pa + i)) := by
  simp [State.seenByte, Gang.heldByte_of_not_holds h, hp]

theorem State.seenByte_eq_placeByte {s : State} {gk : Nat} (h : (s.gangAt gk).holds = false) (key : Nat × Nat) {l : Loc}
    {va i : Nat} (hp : s.p7Byte (s.dieOfGang gk) l i = none) (hs : ∀ pa leaf, l = .mem pa leaf → s.staleByte gk va = none) :
    s.seenByte gk key l va i = Claims.placeByte s gk l i := by
  cases l with
  | mem pa leaf => rw [State.seenByte_mem h key va hp, hs pa leaf rfl]; rfl
  | _ => simp [State.seenByte, Gang.heldByte_of_not_holds h, hp, Claims.placeByte]

/-! ## Free choices of the caches -/

/-- A sparse map without the keys that fail a test. -/
theorem KMap.get_filter {α : Type} (d : α) (m : KMap α) (q : Nat → Bool) (k : Nat) :
    KMap.get d (m.filter fun e => q e.1) k = if q k then KMap.get d m k else d := by
  induction m with
  | nil => simp
  | cons e r ih =>
    obtain ⟨j, v⟩ := e
    by_cases hj : q j
    · by_cases hk : k = j
      · subst hk; simp [hj, KMap.get]
      · simp [hj, KMap.get, hk, ih]
    · by_cases hk : k = j
      · subst hk; simp [hj, ih]
      · simp [hj, KMap.get, hk, ih]

theorem KMap.get_filter_some {α : Type} {m : KMap (Option α)} {q : Nat → Bool} {k : Nat} {b : α}
    (h : KMap.get none (m.filter fun e => q e.1) k = some b) : KMap.get none m k = some b := by
  rw [KMap.get_filter] at h
  split at h
  · exact h
  · cases h

/-! ### Translation depends on memory, on the TLBs and on the frames in service -/

section Translation

variable {s t : State} (hl : t.log = s.log) (hm : t.mem = s.mem)

include hl hm

theorem State.entry_congr (a i : Nat) : t.entry a i = s.entry a i := by
  simp only [State.entry, State.homeNat, State.byteHome_congr hl hm]

theorem State.walk_congr (va : Nat) (l : List (Nat × Nat × Nat)) (e : DWord) : t.walk va e l = s.walk va e l := by
  induction l generalizing e with
  | nil => rfl
  | cons a r ih => simp only [State.walk, State.entry_congr hl hm, ih]

theorem State.lookup_congr (hd : t.dies = s.dies) (hb : t.badFrames = s.badFrames) (x : Xl) (va : Nat) :
    t.lookup x va = s.lookup x va := by
  have hw : t.cachedWalk x va = s.cachedWalk x va := by
    simp only [State.cachedWalk, State.walkTop, State.dieAt, hd, State.walk_congr hl hm, State.entry_congr hl hm]
  have hr : t.lookupRaw x va = s.lookupRaw x va := by
    simp only [State.lookupRaw, State.dieAt, hd, hw]
  have hi : t.inService = s.inService := funext fun pa => by
    have hx : t.dieAt = s.dieAt := funext fun k => by rw [State.dieAt, State.dieAt, hd]
    rw [State.inService, State.inService, hx, hb]
  have hs : t.serviced = s.serviced := funext fun r => by
    unfold State.serviced
    rw [hi]
  rw [State.lookup, State.lookup, hr, hs]

theorem State.lineKey_congr (hd : t.dies = s.dies) (hb : t.badFrames = s.badFrames) (x : Xl) (va : Nat) :
    t.lineKey x va = s.lineKey x va := by
  simp only [State.lineKey, State.lookup_congr hl hm hd hb]

end Translation

theorem State.xlOf_congr {s t : State} (ht : t.teams = s.teams) (hc : t.cohorts = s.cohorts) (hq : t.queues = s.queues)
    (k : Nat) :
    t.xlOf k = s.xlOf k := by
  simp only [State.xlOf, State.queueOf, State.teamAt, State.cohortAt, State.queueAt, ht, hc, hq]

/-! ### The cores' L1s -/

theorem State.foldl_cores {f : State → Nat → State} (hf : ∀ s k, f s k = { s with cores := (f s k).cores }) (l : List Nat)
    (s : State) :
    l.foldl f s = { s with cores := (l.foldl f s).cores } := by
  induction l generalizing s with
  | nil => rfl
  | cons k r ih =>
    exact (ih (f s k)).trans (congrArg (fun u : State => { u with cores := ((k :: r).foldl f s).cores }) (hf s k))

theorem State.mapCores_eq (s : State) (f : Nat → Core → Core) : s.mapCores f = { s with cores := (s.mapCores f).cores } :=
  State.foldl_cores (fun _ _ => rfl) _ s

/-- A core whose change is stable under a second one takes it, if it is listed. -/
theorem State.coreAt_mapCores {f : Nat → Core → Core} {c : Nat} (hf : ∀ x, f c (f c x) = f c x) (s : State) :
    (s.mapCores f).coreAt c = if c ∈ s.cores.map (·.1) then f c (s.coreAt c) else s.coreAt c := by
  unfold State.mapCores
  generalize s.cores.map (·.1) = l
  induction l generalizing s with
  | nil => rfl
  | cons k r ih =>
    rw [List.foldl_cons, ih, State.coreAt_setCoreAt]
    by_cases hk : c = k
    · subst hk
      simp [hf]
    · simp [hk]

theorem State.coreAt_of_not_listed {s : State} {c : Nat} (h : c ∉ s.cores.map (·.1)) : s.coreAt c = {} := by
  unfold State.coreAt
  generalize s.cores = m at h
  induction m with
  | nil => rfl
  | cons e r ih =>
    obtain ⟨hk, hr⟩ : c ≠ e.1 ∧ c ∉ r.map (·.1) := by simpa using h
    simp only [KMap.get, if_neg hk]
    exact ih hr

theorem State.coreAt_dropL1 (s : State) (on p : Nat → Bool) (c : Nat) : (s.dropL1 on p).coreAt c =
    if on c then { s.coreAt c with l1 := (s.coreAt c).l1.filter fun k => !p k,
                                   stale := (s.coreAt c).stale.filter fun e => !p e.1 } else s.coreAt c := by
  unfold State.dropL1
  rw [State.coreAt_mapCores fun x => by by_cases h : on c <;> simp [h]]
  split
  · rfl
  · rename_i h
    rw [State.coreAt_of_not_listed h]
    simp

theorem State.stale_dropL1 (s : State) (on p : Nat → Bool) (c : Nat) : ((s.dropL1 on p).coreAt c).stale =
    if on c then (s.coreAt c).stale.filter fun e => !p e.1 else (s.coreAt c).stale := by
  rw [State.coreAt_dropL1]
  split <;> rfl

theorem State.dropL1_eq (s : State) (on p : Nat → Bool) : s.dropL1 on p = { s with cores := (s.dropL1 on p).cores } :=
  State.mapCores_eq ..

/-- A stale byte is one that the gang's L1 lists under the name of its address. -/
theorem State.staleByte_eq_some {s : State} {gk va : Nat} {b : Byte} : s.staleByte gk va = some b ↔
    ∃ c key, s.l1Core gk = some c ∧ s.lineKey (s.xlOf (s.gangAt gk).team) va = some key ∧
      KMap.get none (s.coreAt c).stale key = some b := by
  unfold State.staleByte
  cases s.l1Core gk with
  | none => simp
  | some c =>
    by_cases he : (s.coreAt c).stale = []
    · simp [he]
    · simp [he, Option.bind_eq_some_iff]

/-- A state that differs in its cores' L1s only, by copies that are gone, and in the free values used. -/
structure State.CachesTo (s t : State) : Prop where
  eq : t = { s with cores := t.cores, fresh := t.fresh }
  shut : ∀ c, (t.coreAt c).shut = (s.coreAt c).shut
  drained : ∀ c, (t.coreAt c).drained = (s.coreAt c).drained
  stale : ∀ c key b, KMap.get none (t.coreAt c).stale key = some b → KMap.get none (s.coreAt c).stale key = some b

theorem State.CachesTo.refl (s : State) : s.CachesTo s := ⟨rfl, fun _ => rfl, fun _ => rfl, fun _ _ _ h => h⟩

theorem State.CachesTo.trans {s t u : State} (h : s.CachesTo t) (h' : t.CachesTo u) : s.CachesTo u where
  eq := h'.eq.trans (congrArg (fun x : State => { x with cores := u.cores, fresh := u.fresh }) h.eq)
  shut c := (h'.shut c).trans (h.shut c)
  drained c := (h'.drained c).trans (h.drained c)
  stale c key b hb := h.stale c key b (h'.stale c key b hb)

theorem State.CachesTo.foldl {α : Type} {f : State → α → State} (hf : ∀ (t : State) a, t.CachesTo (f t a)) (l : List α)
    (s : State) :
    s.CachesTo (l.foldl f s) := by
  induction l generalizing s with
  | nil => exact .refl s
  | cons a r ih => exact .trans (hf s a) (ih (f s a))

theorem State.CachesTo.freePick (s : State) (n : Nat) : s.CachesTo (s.freePick n).2 :=
  ⟨rfl, fun _ => rfl, fun _ => rfl, fun _ _ _ h => h⟩

theorem State.CachesTo.l1Core {s t : State} (h : s.CachesTo t) (gk : Nat) : t.l1Core gk = s.l1Core gk := by
  have hg : t.gangAt = s.gangAt := by rw [h.eq]; rfl
  have ht : t.teamAt = s.teamAt := by rw [h.eq]; rfl
  have hd : t.dieAt = s.dieAt := by rw [h.eq]; rfl
  have hx : t.mxAt = s.mxAt := by rw [h.eq]; rfl
  have hm : t.mayHost = s.mayHost := funext fun c => by
    rw [State.mayHost, State.mayHost, h.shut, h.drained, hd]
  rw [State.l1Core, State.l1Core, hg, ht, hx, hm]

theorem State.CachesTo.lineKey {s t : State} (h : s.CachesTo t) (gk va : Nat) :
    t.lineKey (t.xlOf (t.gangAt gk).team) va = s.lineKey (s.xlOf (s.gangAt gk).team) va := by
  have hg : t.gangAt = s.gangAt := by rw [h.eq]; rfl
  have hx : t.xlOf = s.xlOf := by rw [h.eq]; rfl
  have hl : t.log = s.log := by rw [h.eq]
  have hm : t.mem = s.mem := by rw [h.eq]
  have hd : t.dies = s.dies := by rw [h.eq]
  have hb : t.badFrames = s.badFrames := by rw [h.eq]
  rw [hg, hx, State.lineKey_congr hl hm hd hb]

theorem State.CachesTo.dropL1 (s : State) (on p : Nat → Bool) : s.CachesTo (s.dropL1 on p) where
  eq := (s.dropL1_eq on p).trans (by
    have hf : (s.dropL1 on p).fresh = s.fresh := by rw [State.dropL1_eq]
    rw [hf])
  shut c := by rw [State.coreAt_dropL1]; split <;> rfl
  drained c := by rw [State.coreAt_dropL1]; split <;> rfl
  stale c key b h := by
    rw [State.stale_dropL1] at h
    split at h
    · exact KMap.get_filter_some (q := fun k => !p k) h
    · exact h

/-- Copies that are left were there before. -/
theorem State.CachesTo.staleByte {s t : State} (h : s.CachesTo t) {gk va : Nat} {b : Byte} (hb : t.staleByte gk va = some b) :
    s.staleByte gk va = some b := by
  obtain ⟨c, key, h1, h2, h3⟩ := State.staleByte_eq_some.1 hb
  exact State.staleByte_eq_some.2 ⟨c, key, h.l1Core gk ▸ h1, h.lineKey gk va ▸ h2, h.stale c key b h3⟩

theorem State.CachesTo.l1Pick (s : State) (n : Nat) (l : List Acc) : s.CachesTo (s.l1Pick n l) :=
  .foldl (fun t a => by
    split
    · extract_lets p line
      split
      · exact .freePick t 2
      · exact .trans (.freePick t 2) (.dropL1 ..)
    · exact .refl t) l s

/-- Copies whose names are dropped are gone. -/
theorem State.staleByte_dropL1_eq_none {s : State} {on p : Nat → Bool} {gk va key c : Nat} (hc : s.l1Core gk = some c)
    (hon : on c = true) (hk : s.lineKey (s.xlOf (s.gangAt gk).team) va = some key) (hp : p key = true) :
    (s.dropL1 on p).staleByte gk va = none := by
  have h := State.CachesTo.dropL1 s on p
  refine Option.eq_none_iff_forall_ne_some.2 fun b hb => ?_
  obtain ⟨c', key', h1, h2, h3⟩ := State.staleByte_eq_some.1 hb
  obtain rfl : c = c' := Option.some.inj (hc.symm.trans ((h.l1Core gk).symm.trans h1))
  obtain rfl : key = key' := Option.some.inj (hk.symm.trans ((h.lineKey gk va).symm.trans h2))
  rw [State.stale_dropL1, if_pos hon, KMap.get_filter none _ fun k => !p k] at h3
  simp [hp] at h3

/-! ### Partition 7 -/

/-- A state that differs in partition 7 of its dies only, by bytes that are gone, and in the free values used. -/
structure State.P7To (s t : State) : Prop where
  eq : t = { s with dies := t.dies, fresh := t.fresh }
  dieAt : ∀ d, t.dieAt d = { s.dieAt d with p7 := (t.dieAt d).p7 }
  p7 : ∀ d key b, KMap.get none (t.dieAt d).p7 key = some b → KMap.get none (s.dieAt d).p7 key = some b

theorem State.P7To.refl (s : State) : s.P7To s := ⟨rfl, fun _ => rfl, fun _ _ _ h => h⟩

theorem State.P7To.trans {s t u : State} (h : s.P7To t) (h' : t.P7To u) : s.P7To u where
  eq := h'.eq.trans (congrArg (fun x : State => { x with dies := u.dies, fresh := u.fresh }) h.eq)
  dieAt d := (h'.dieAt d).trans (congrArg (fun x : Die => { x with p7 := (u.dieAt d).p7 }) (h.dieAt d))
  p7 d key b hb := h.p7 d key b (h'.p7 d key b hb)

theorem State.P7To.foldl {α : Type} {f : State → α → State} (hf : ∀ (t : State) a, t.P7To (f t a)) (l : List α) (s : State) :
    s.P7To (l.foldl f s) := by
  induction l generalizing s with
  | nil => exact .refl s
  | cons a r ih => exact .trans (hf s a) (ih (f s a))

theorem State.P7To.freePick (s : State) (n : Nat) : s.P7To (s.freePick n).2 := ⟨rfl, fun _ => rfl, fun _ _ _ h => h⟩

/-- Bytes of a die's partition 7 go. -/
theorem State.P7To.filter (s : State) (d : Nat) (q : Nat → Bool) :
    s.P7To (s.setDieAt d { s.dieAt d with p7 := (s.dieAt d).p7.filter fun e => q e.1 }) where
  eq := rfl
  dieAt d' := by
    rw [State.dieAt_setDieAt]
    split
    · rename_i h
      rw [h]
    · rfl
  p7 d' key b h := by
    rw [State.dieAt_setDieAt] at h
    split at h
    · rename_i hd
      rw [hd]
      exact KMap.get_filter_some (q := q) h
    · exact h

theorem State.P7To.p7Pick (s : State) (die n : Nat) (l : List Acc) (now : State → Nat → Byte) : s.P7To (s.p7Pick die n l now) :=
  .foldl (fun t a => by
    dsimp only
    split
    · split
      · exact .freePick t 2
      · exact .trans (.freePick t 2) (.filter _ _ fun k => k / 128 != _)
    · exact .refl t) l s

/-! ### Numbers from bytes -/

theorem leNat_byte (l : List Byte) {i : Nat} (h : i < l.length) : leNat l / 256 ^ i % 256 = (l.getD i 0#8).toNat := by
  induction l generalizing i with
  | nil => simp at h
  | cons b r ih =>
    have hb : b.toNat < 256 := b.isLt
    cases i with
    | zero => simp [leNat, Nat.add_mul_mod_self_left, Nat.mod_eq_of_lt hb]
    | succ i =>
      have hd : (b.toNat + 256 * leNat r) / 256 = leNat r := by omega
      rw [leNat, Nat.pow_succ', ← Nat.div_div_eq_div_mul, hd, ih (by simpa using h)]
      simp

theorem setWidth_ofNat_mod (n v : Nat) : BitVec.ofNat 64 (v % 2 ^ n) = (BitVec.ofNat n v).setWidth 64 :=
  BitVec.eq_of_toNat_eq (by simp)

theorem loadedBytesAreThoseOfThePlace : Claims.LoadedBytesAreThoseOfThePlace := by
  refine ⟨fun s gk sp n i a hh hi => ?_, fun s n l => ?_, fun s die n l => ?_, fun l i hi => leNat_byte l hi, fun v => ?_⟩
  · rw [State.readLoc_getElem? s gk sp a hi]
    refine ⟨fun b hb => congrArg some (State.seenByte_of_p7 hh _ _ hb), fun hp => ⟨fun hs => ?_, fun pa leaf b hl hb => ?_⟩⟩
    · exact congrArg some (State.seenByte_eq_placeByte hh _ hp hs)
    · rw [hl] at hp ⊢
      rw [State.seenByte_mem hh _ _ hp, hb, Option.getD_some]
  · have h := State.CachesTo.l1Pick s n l
    exact ⟨_, rfl, h.eq, fun _ _ => h.staleByte⟩
  · have h := State.P7To.p7Pick s die n l fun s => s.byteAt die
    exact ⟨_, rfl, h.eq, h.dieAt, h.p7⟩
  · exact ⟨setWidth_ofNat_mod 8 v, rfl, setWidth_ofNat_mod 16 v, rfl, setWidth_ofNat_mod 32 v,
      (setWidth_ofNat_mod 64 v).trans (BitVec.setWidth_eq _)⟩

/-! ## The return of a load -/

theorem Regs.foldl_mark (l : List Nat) (r : Regs) : l.foldl Regs.mark r = { r with undo := (l.foldl Regs.mark r).undo } := by
  induction l generalizing r with
  | nil => rfl
  | cons a l ih => exact ih (r.mark a)

theorem Gang.landQueues_eq_self {g : Gang} {p : PendLoad} (hv : ∀ x ∈ p.vals, x.1 < 1536) : g.landQueues p = g := by
  have hq : p.vals.filter (fun x => 1536 ≤ x.1 && x.1 < 1792) = [] := by
    rw [List.filter_eq_nil_iff]
    intro x hx
    simp [Nat.not_le.2 (hv x hx)]
  rw [Gang.landQueues, hq]
  rfl

/-- Without run-ahead, a return writes the registers that the operation holds values for. -/
theorem Gang.landRegs_eq {g : Gang} {p : PendLoad} (ha : g.ahead = none) (hv : ∀ x ∈ p.vals, x.1 < 1536)
    (hg : ∀ x ∈ p.gvals, x.1 < 32) :
    g.landRegs p = { g with
      r := { g.r with
        v := KMap.setAll 0#32 g.r.v p.vals, g := KMap.setAll 0#64 g.r.g p.gvals, mstat := g.r.mstat ||| p.flags,
        undo := (g.landRegs p).r.undo }
      loads := g.loads.filter (·.id != p.id) } := by
  have hfv : p.vals.filter (fun x => x.1 < 1536) = p.vals := List.filter_eq_self.2 fun x hx => by simp [hv x hx]
  have hfg : p.gvals.filter (fun x => x.1 < 32) = p.gvals := List.filter_eq_self.2 fun x hx => by simp [hg x hx]
  unfold Gang.landRegs
  rw [hfv, hfg]
  extract_lets _ r1 _ _ r2 g'
  have hr : r2 = { r1 with undo := r2.undo } := by
    unfold r2
    split
    · exact Regs.foldl_mark _ _
    · rfl
  clear_value r2
  split
  · rename_i a e
    cases ha.symm.trans e
  · exact congrArg (fun r => { g with r := r, loads := g.loads.filter (·.id != p.id) }) hr

theorem Gang.land_eq_landRegs {g : Gang} {p : PendLoad} (hp : p.probe = false) (hv : ∀ x ∈ p.vals, x.1 < 1536) :
    g.land p = g.landRegs p := by
  rw [Gang.land, hp, Gang.landQueues_eq_self hv]
  rfl

theorem KMap.get_setAll_mem {α : Type} [DecidableEq α] (d : α) {l : List (Nat × α)} (hn : (l.map (·.1)).Nodup) (m : KMap α)
    {k : Nat} {x : α}
    (h : (k, x) ∈ l) : KMap.get d (KMap.setAll d m l) k = x := by
  induction l generalizing m with
  | nil => cases h
  | cons p r ih =>
    obtain ⟨hp, hr⟩ := List.nodup_cons.1 (List.map_cons (f := fun q : Nat × α => q.1) ▸ hn)
    rcases List.mem_cons.1 h with rfl | h
    · rw [KMap.setAll, List.foldl_cons]
      refine (KMap.get_setAll_notMem d r _ k fun q hq e => hp (List.mem_map.2 ⟨q, hq, e⟩)).trans ?_
      rw [KMap.get_set, if_pos rfl]
    · exact ih hr _ h

theorem KMap.get_eq_or_mem {α : Type} (d : α) (m : KMap α) (k : Nat) : KMap.get d m k = d ∨ (k, KMap.get d m k) ∈ m := by
  induction m with
  | nil => exact .inl rfl
  | cons e r ih =>
    by_cases h : k = e.1
    · right
      simp [KMap.get, h]
    · rw [KMap.get, if_neg h]
      exact ih.imp_right (List.mem_cons_of_mem e)

/-- Where no core caches anything, no copy is stale. -/
theorem State.staleByte_of_empty {s : State} (h : (s.cores.all fun c => c.2.l1.isEmpty && c.2.stale.isEmpty) = true)
    (gk va : Nat) :
    s.staleByte gk va = none := by
  refine Option.eq_none_iff_forall_ne_some.2 fun b hb => ?_
  obtain ⟨c, key, -, -, h3⟩ := State.staleByte_eq_some.1 hb
  have he : (s.coreAt c).stale = [] := by
    rcases KMap.get_eq_or_mem {} s.cores c with hd | hm
    · rw [State.coreAt, hd]
    · have := List.all_eq_true.1 h _ hm
      exact List.isEmpty_iff.1 (Bool.and_eq_true_iff.1 this).2
  rw [he] at h3
  cases h3

theorem State.staleByte_of_no_core {s : State} {gk va : Nat} (h : s.l1Core gk = none) : s.staleByte gk va = none := by
  rw [State.staleByte, h]

/-- An LDGEN leaves no stale copy of a buffer whose generation word it read. -/
theorem State.staleByte_ldgenDrop {s : State} {k a va key : Nat} {l : List Nat} {b : Swing} (ha : a ∈ l)
    (hb : b ∈ (s.xlOf (s.gangAt k).team).swings) (hg : b.gen ≤ a ∧ a < b.gen + 8)
    (hva : b.base ≤ va ∧ va < b.base + 4096 * b.nblk)
    (hk : s.lineKey (s.xlOf (s.gangAt k).team) va = some key)
    (hblk : s.lineKey (s.xlOf (s.gangAt k).team) (b.base + 4096 * ((va - b.base) / 4096)) = some (key / 4096 * 4096)) :
    (s.ldgenDrop k l).staleByte k va = none := by
  have hl : l.isEmpty = false := by cases l <;> simp_all
  unfold State.ldgenDrop
  rw [hl, Bool.false_or]
  split
  · rename_i h
    exact State.staleByte_of_empty h k va
  · extract_lets x bs blocks
    have hin : key / 4096 * 4096 ∈ blocks := by
      refine List.mem_flatMap.2 ⟨b, List.mem_filter.2 ⟨hb, ?_⟩, List.mem_filterMap.2 ⟨(va - b.base) / 4096, ?_, hblk⟩⟩
      · exact List.any_eq_true.2 ⟨a, ha, by simpa using hg⟩
      · rw [List.mem_range]
        omega
    cases hc : s.l1Core k with
    | none => exact State.staleByte_of_no_core (((State.CachesTo.dropL1 ..).l1Core k).trans hc)
    | some c => exact State.staleByte_dropL1_eq_none hc (by simp) hk (by simpa using hin)

theorem State.ldgenDrop_eq (s : State) (k : Nat) (l : List Nat) :
    s.ldgenDrop k l = { s with cores := (s.ldgenDrop k l).cores } := by
  unfold State.ldgenDrop
  split
  · rfl
  · exact State.dropL1_eq ..

theorem State.endCheck_of_hold {s : State} {k : Nat} (h : (s.gangAt k).hold ≠ .exiting) : s.endCheck k = s := by
  simp [State.endCheck, h]

theorem exec_loadReturn {s : State} {k id : Nat} {p : PendLoad} (hf : (s.gangAt k).loads.find? (·.id == id) = some p)
    (hw : p.await = [])
    (hh : ((s.gangAt k).land p).hold ≠ .exiting) :
    exec (.loadReturn k id) s = .next ((s.setGangAt k ((s.gangAt k).land p)).ldgenDrop k p.lgen) := by
  have he : ((s.setGangAt k ((s.gangAt k).land p)).ldgenDrop k p.lgen).gangAt k = (s.gangAt k).land p := by
    rw [State.ldgenDrop_eq]
    exact (State.gangAt_setGangAt ..).trans (if_pos rfl)
  change execLoadReturn k id s = _
  simp only [execLoadReturn, hf, hw, List.isEmpty_nil, if_true]
  rw [State.endCheck_of_hold]
  rwa [he]

theorem Gang.land_eq {g : Gang} {p : PendLoad} (hp : p.probe = false) (ha : g.ahead = none) (hv : ∀ x ∈ p.vals, x.1 < 1536)
    (hg : ∀ x ∈ p.gvals, x.1 < 32) :
    g.land p = { g with
      r := { g.r with
        v := KMap.setAll 0#32 g.r.v p.vals, g := KMap.setAll 0#64 g.r.g p.gvals, mstat := g.r.mstat ||| p.flags,
        undo := (g.land p).r.undo }
      loads := g.loads.filter (·.id != p.id) } := by
  rw [Gang.land_eq_landRegs hp hv]
  exact Gang.landRegs_eq ha hv hg

/-- A return that lands in the gang leaves its translation and its L1 as they are. -/
theorem State.staleByte_landed {s : State} {k a va key : Nat} {l : List Nat} {b : Swing} {g : Gang}
    (ht : g.team = (s.gangAt k).team)
    (ha : a ∈ l) (hb : b ∈ (s.xlOf (s.gangAt k).team).swings) (hg : b.gen ≤ a ∧ a < b.gen + 8)
    (hva : b.base ≤ va ∧ va < b.base + 4096 * b.nblk) (hk : s.lineKey (s.xlOf (s.gangAt k).team) va = some key)
    (hblk : s.lineKey (s.xlOf (s.gangAt k).team) (b.base + 4096 * ((va - b.base) / 4096)) = some (key / 4096 * 4096)) :
    ((s.setGangAt k g).ldgenDrop k l).staleByte k va = none := by
  have hx : (s.setGangAt k g).xlOf ((s.setGangAt k g).gangAt k).team = s.xlOf (s.gangAt k).team := by
    rw [State.gangAt_setGangAt, if_pos rfl, ht]
    rfl
  have hl : ∀ va, (s.setGangAt k g).lineKey (s.xlOf (s.gangAt k).team) va = s.lineKey (s.xlOf (s.gangAt k).team) va :=
    State.lineKey_congr rfl rfl rfl rfl _
  refine State.staleByte_ldgenDrop ha (hx ▸ hb) hg hva (key := key) ?_ ?_
  · rw [hx, hl, hk]
  · rw [hx, hl, hblk]

theorem loadReturnWritesRegisters : Claims.LoadReturnWritesRegisters := by
  intro s k id p hf hw hp hh ha hnv hng hv hg
  have hl := Gang.land_eq hp ha hv hg
  have hteam : ((s.gangAt k).land p).team = (s.gangAt k).team := by rw [hl]
  have hhold : ((s.gangAt k).land p).hold = (s.gangAt k).hold := by rw [hl]
  have hrv : ((s.gangAt k).land p).r.v = KMap.setAll 0#32 (s.gangAt k).r.v p.vals := by rw [hl]
  have hrg : ((s.gangAt k).land p).r.g = KMap.setAll 0#64 (s.gangAt k).r.g p.gvals := by rw [hl]
  have hld : (s.gangAt k).loads.filter (fun x => x.id != p.id) = (s.gangAt k).loads.filter fun x => decide (x.id ≠ p.id) :=
    List.filter_congr fun x _ => by simp [bne, beq_eq_decide]
  refine ⟨(s.gangAt k).land p, _, exec_loadReturn hf hw (hhold ▸ hh), State.ldgenDrop_eq .., fun hlg => ?_,
    fun a va key b hin hb h1 h2 h3 h4 hk hblk => State.staleByte_landed hteam hin hb ⟨h1, h2⟩ ⟨h3, h4⟩ hk hblk, ?_, ?_, ?_,
      ?_, ?_⟩
  · rw [hlg]
    rfl
  · rw [hrv, hrg, ← hld]
    exact hl
  · exact fun key x h => hrv ▸ KMap.get_setAll_mem _ hnv _ h
  · exact fun key h => hrv ▸ KMap.get_setAll_notMem _ _ _ _ fun q hq e => h (List.mem_map.2 ⟨q, hq, e⟩)
  · intro n x h
    rw [Gang.gAt, if_pos (hg _ h), hrg]
    exact KMap.get_setAll_mem _ hng _ h
  · intro n h
    rw [Gang.gAt, Gang.gAt, hrg, KMap.get_setAll_notMem 0#64 p.gvals _ n fun q hq e => h (List.mem_map.2 ⟨q, hq, e⟩)]

/-- Settles O28: a ready load joins the counter and only caches, clocks and release tags follow; what a place gives is read off the
model's one function of a byte; a return writes each register once. -/
theorem loads : Obligations.Loads :=
  ⟨loadsTakeTheirBytes, loadedBytesAreThoseOfThePlace, loadReturnWritesRegisters⟩

end Sys2Proof.Machine
end

section
/-! Stores: what a ready store gives to its places, and what it changes there and nowhere else (R154, R156, R224, R236, R242, R244). -/

namespace Sys2Proof.Machine

/-! ## Stores on this module (R154, R156) -/

theorem leBytes_eq (n v : Nat) : leBytes n v = (List.range n).map fun i => (BitVec.ofNat 8 (v / 256 ^ i) : Byte) := by
  refine List.map_congr_left fun i _ => ?_
  rw [Nat.shiftRight_eq_div_pow, Nat.pow_mul]

theorem anyFar_of_here {l : List Acc} (h : Claims.allHere l) : anyFar l = false := by
  refine List.any_eq_false.2 fun a ha => ?_
  have hl := h a ha
  cases ea : a.loc <;> simp_all [Loc.here]

theorem farBeats_of_here {l : List (Acc × List Byte)} (h : ∀ p ∈ l, p.1.loc.here = true) : farBeats l = [] := by
  unfold farBeats
  extract_lets bs
  have hb : bs = [] := List.flatMap_eq_nil_iff.2 fun p hp => by
    have hl := h p hp
    cases e : p.1.loc <;> simp_all [Loc.here]
  rw [hb]
  rfl

theorem lastPeer_of_here {l : List (Acc × List Byte)} (h : ∀ p ∈ l, p.1.loc.here = true) : lastPeer l = [] := by
  induction l with
  | nil => rfl
  | cons p r ih =>
    have hl := h p List.mem_cons_self
    have hr := ih fun q hq => h q (List.mem_cons_of_mem p hq)
    unfold lastPeer
    cases e : p.1.loc <;> simp_all [Loc.here]

/-- A store of places of the module is one store here. -/
theorem State.storeAll_of_here {s : State} {k scp ord : Nat} {l : List (Acc × List Byte)} (h : ∀ p ∈ l, p.1.loc.here = true) :
    s.storeAll k scp ord l = s.storeHere k (State.storeTag { s with gk := k } scp ord).toList l := by
  rw [State.storeAll, farBeats_of_here h, lastPeer_of_here h]
  rfl

theorem storeCount_of_here {l : List (Acc × List Byte)} (h : ∀ p ∈ l, p.1.loc.here = true) : storeCount l ≤ 1 := by
  rw [storeCount, farBeats_of_here h]
  split <;> simp

/-- What a store gives each lane's place: the low bytes of D. -/
def storeData (f : ClassM) (g : Gang) (accs : List Acc) : List (Acc × List Byte) :=
  accs.map fun a => (a, (List.range (szBytes f.sz.toNat)).map fun i =>
    (BitVec.ofNat 8 ((if f.h.g then g.gAt f.d.toNat else g.src f.d (f.sz.toNat == 5) a.lane).toNat / 256 ^ i) : Byte))

/-- A ready store takes its operands from the queues, and is held or performed. -/
theorem execSt_of_ready {s s1 : State} {f : ClassM} {accs : List Acc} (h : Claims.storeReady s f s1 accs) :
    execSt f s = .next (s.done (State.storeOrHold
      (if f.h.g then s1 else s1.setGang (s1.gang.pop (popped [Use.of f.d (f.sz.toNat == 5)]) (accs.map (·.lane))))
      f.sp.toNat f.scp.toNat f.ord.toNat (storeData f s.gang accs))) := by
  obtain ⟨hgate, hacc, hwait, hroom, hsp, hplan, hhere⟩ := h
  have hw : (!s.gang.holds && s.gang.storeWaits f.scp.toNat f.ord.toNat) = false := by
    rcases hwait with h | h <;> simp [h]
  have hd : (accs.map fun a => (a, leBytes (szBytes f.sz.toNat)
      (if f.h.g then s.gang.gAt f.d.toNat else s.gang.src f.d (f.sz.toNat == 5) a.lane).toNat)) = storeData f s.gang accs :=
    List.map_congr_left fun a _ => by rw [leBytes_eq]
  have hc : storeCount (storeData f s.gang accs) ≤ 1 := storeCount_of_here fun p hp => by
    obtain ⟨a, ha, rfl⟩ := List.mem_map.1 hp
    exact hhere a ha
  have hnet : s1.fullNet f.sp.toNat accs = false := by simp [State.fullNet, hsp]
  have hct : ¬ 4095 < s.gang.stores.length + storeCount (storeData f s.gang accs) := by omega
  simp only [execSt, hgate, hacc, hw, hplan, hsp, anyFar_of_here hhere, hd, hnet, hct, Bool.or_false, Bool.false_and,
    decide_false, if_false, Bool.false_eq_true]

theorem State.storeOrHold_of_not_holds {s : State} (h : s.gang.holds = false) (sp scp ord : Nat) (l : List (Acc × List Byte)) :
    s.storeOrHold sp scp ord l = s.storeAll s.gk scp ord l :=
  if_neg (by simp [h])

theorem State.storeOrHold_of_holds {s : State} (h : s.gang.holds = true) (sp scp ord : Nat) (l : List (Acc × List Byte)) :
    ∃ x : Held, s.storeOrHold sp scp ord l = s.setGang (s.gang.putHeld x) ∧ x.scp = scp ∧ x.ord = ord ∧
      x.bytes = l.flatMap fun p => p.2.zipIdx.map fun b => ((s.keyOf s.gang sp (p.1.ea.toNat + b.2)).2, b.1) :=
  ⟨_, if_pos h, rfl, rfl, rfl⟩

theorem storesGiveTheirBytes : Claims.StoresGiveTheirBytes := by
  intro s s1 f accs h n wide val data s2
  have e : exec (.st f) s = .next (s.done (s2.storeOrHold f.sp.toNat f.scp.toNat f.ord.toNat data)) := execSt_of_ready h
  refine ⟨fun hh => ?_, fun hh => ?_⟩
  · exact e.trans (congrArg (fun t => Host.Outcome.next (s.done t)) (State.storeOrHold_of_not_holds hh ..))
  · obtain ⟨x, ex, hx⟩ := State.storeOrHold_of_holds hh f.sp.toNat f.scp.toNat f.ord.toNat data
    exact ⟨x, e.trans (congrArg (fun t => Host.Outcome.next (s.done t)) ex), hx⟩

/-! ## The bytes of one place -/

/-- Bytes at a place and after it. -/
def placed (o : Nat) (b : List Byte) : List (Nat × Byte) := b.zipIdx.map fun p => (o + p.2, p.1)

theorem mem_placed {o : Nat} {b : List Byte} {x : Nat × Byte} : x ∈ placed o b ↔ ∃ i, ∃ h : i < b.length, x = (o + i, b[i]) := by
  simp only [placed, List.mem_map, Prod.exists, List.mem_zipIdx_iff_getElem?, List.getElem?_eq_some_iff]
  constructor
  · rintro ⟨y, i, ⟨h, e⟩, rfl⟩
    exact ⟨i, h, by rw [e]⟩
  · rintro ⟨i, h, rfl⟩
    exact ⟨b[i], i, ⟨h, rfl⟩, rfl⟩

theorem getD_mem_placed {o i : Nat} {b : List Byte} (h : i < b.length) : (o + i, b.getD i 0#8) ∈ placed o b :=
  mem_placed.2 ⟨i, h, by simp [h]⟩

theorem placed_ne {o off : Nat} {b : List Byte} (h : off < o ∨ o + b.length ≤ off) : ∀ x ∈ placed o b, x.1 ≠ off := by
  intro x hx
  obtain ⟨i, hi, rfl⟩ := mem_placed.1 hx
  dsimp only
  omega

theorem nodup_placed (o : Nat) (b : List Byte) : ((placed o b).map (·.1)).Nodup := by
  have h : (placed o b).map (·.1) = List.range' o b.length := by
    refine List.ext_getElem (by simp [placed]) fun i h1 h2 => ?_
    simp [placed]
  rw [h]
  exact List.nodup_range'

/-! ## A store, byte by byte (R223, R224) -/

/-- What a store of a die adds to the coherence order. -/
def State.storeEnt (s : State) (d : Nat) (b : List (Nat × Byte)) (ts : List Tag) : StoreEnt where
  id := s.nextId
  die := d
  seq := (s.clockOf d).getD d 0 + 1
  clk := s.clockOf d
  bytes := s.kept b
  tags := ts
  seen := 1#4 <<< d

theorem getLsbD_one_shiftLeft : ∀ d < 4, ∀ d' < 4, (1#4 <<< d).getLsbD d' = decide (d' = d) := by decide

/-- The stored bytes are seen by the store's own die and by no other yet. -/
theorem State.byteAt_store {s : State} {d d' : Nat} (hd : d < 4) (hd' : d' < 4) (b : List (Nat × Byte)) (ts : List Tag)
    (pa : Nat) :
    (s.store d b ts).2.byteAt d' pa = if d' = d then (byteIn (s.kept b) pa).getD (s.byteAt d' pa) else s.byteAt d' pa := by
  have hl : (s.store d b ts).2.log = s.log ++ [s.storeEnt d b ts] := rfl
  have hs : (s.storeEnt d b ts).seen.getLsbD d' = decide (d' = d) := getLsbD_one_shiftLeft d hd d' hd'
  rw [State.byteAt, State.byteIf, hl, State.store_mem, List.foldl_append, List.foldl_cons, List.foldl_nil, hs]
  by_cases h : d' = d <;> simp [h, State.byteAt, State.byteIf, State.storeEnt]

theorem State.byteHome_store (s : State) (d : Nat) (b : List (Nat × Byte)) (ts : List Tag) (pa : Nat) :
    (s.store d b ts).2.byteHome pa = (byteIn (s.kept b) pa).getD (s.byteHome pa) := by
  have hl : (s.store d b ts).2.log = s.log ++ [s.storeEnt d b ts] := rfl
  rw [State.byteHome_eq, State.byteHome_eq, hl, State.store_mem, List.foldl_append, List.foldl_cons, List.foldl_nil]
  rfl

theorem State.kept_eq_self {s : State} {b : List (Nat × Byte)} (h : ∀ x ∈ b, s.portDown x.1 = false) : s.kept b = b :=
  List.filter_eq_self.2 fun x hx => by simp [h x hx]

theorem byteIn_eq_none {b : List (Nat × Byte)} {pa : Nat} (h : ∀ x ∈ b, x.1 ≠ pa) : byteIn b pa = none := by
  simpa [byteIn] using fun x y hx => h (x, y) hx

/-! ## The three parts of a store on this module -/

def memBytes (l : List (Acc × List Byte)) : List (Nat × Byte) := l.flatMap fun p => match p.1.loc with
  | .mem pa _ => placed pa p.2
  | _ => []

def stackBytes (l : List (Acc × List Byte)) : List (Nat × Byte) := l.flatMap fun p => match p.1.loc with
  | .stack o _ => placed o p.2
  | _ => []

/-- A store of the gang's die joins the order of stores and the gang's counter. -/
def State.storeG (s : State) (k : Nat) (b : List (Nat × Byte)) (tags : List Tag) : State :=
  let r := s.store (s.dieOfGang k) b tags
  (r.2.setGangAt k { r.2.gangAt k with stores := (r.2.gangAt k).stores ++ [r.1] }).owe [.storePerformed k r.1]

/-- G: one store of the gang's die. -/
def State.storeMem (s : State) (k : Nat) (tags : List Tag) (l : List (Acc × List Byte)) : State :=
  if (memBytes l).isEmpty then s
  else
    ((s.logDown ((memBytes l).map (·.1))).freshen k (l.filterMap fun p => match p.1.loc with
      | .mem .. => some (p.1, p.2.length)
      | _ => none)).storeG k (memBytes l) tags

/-- K: the stack cache. -/
def State.storeStack (s : State) (k : Nat) (l : List (Acc × List Byte)) : State :=
  if (stackBytes l).isEmpty then s else (s.setGangAt k ((s.gangAt k).putStack (stackBytes l))).spillPick k

/-- S and C: the scratchpads. -/
def State.storeSpad (s : State) (tags : List Tag) (l : List (Acc × List Byte)) : State :=
  l.foldl (fun s p =>
    match p.1.loc with
    | .spad t off => s.spadWrite t off p.2 tags
    | _ => s) s

theorem State.storeHere_eq (s : State) (k : Nat) (tags : List Tag) (l : List (Acc × List Byte)) :
    s.storeHere k tags l = ((s.storeMem k tags l).storeStack k l).storeSpad tags l := rfl

theorem memBytes_eq_nil {l : List (Acc × List Byte)} (h : ∀ p ∈ l, ∀ pa leaf, p.1.loc ≠ .mem pa leaf) : memBytes l = [] :=
  List.flatMap_eq_nil_iff.2 fun p hp => by
    have hl := h p hp
    cases e : p.1.loc <;> simp_all

theorem stackBytes_eq_nil {l : List (Acc × List Byte)} (h : ∀ p ∈ l, ∀ o pa, p.1.loc ≠ .stack o pa) : stackBytes l = [] :=
  List.flatMap_eq_nil_iff.2 fun p hp => by
    have hl := h p hp
    cases e : p.1.loc <;> simp_all

/-! ### Scratchpads -/

/-- A scratchpad that is no saved team's takes the bytes, and nothing else changes. -/
theorem State.spadWrite_eq {s : State} {tm : Nat} (h : (s.teamAt tm).status ≠ .saved) (off : Nat) (b : List Byte)
    (tags : List Tag) :
    ∃ x : Team, s.spadWrite tm off b tags = s.setTeamAt tm x ∧ x.status = (s.teamAt tm).status ∧
      x.spad = KMap.setAll 0#8 (s.teamAt tm).spad (placed off b) := by
  have hi : s.imageOf tm = none := by simp [State.imageOf, h]
  unfold State.spadWrite
  extract_lets t ps s'
  rw [hi]
  exact ⟨_, rfl, rfl, rfl⟩

/-- What the stores of one instruction to scratchpads keep. -/
theorem State.storeSpad_keeps {s : State} (tags : List Tag) {l : List (Acc × List Byte)}
    (h : ∀ p ∈ l, ∀ t off, p.1.loc = .spad t off → (s.teamAt t).status ≠ .saved) :
    s.storeSpad tags l = { s with teams := (s.storeSpad tags l).teams } ∧
    ∀ tm off, (∀ p ∈ l, ∀ o, p.1.loc = .spad tm o → off < o ∨ o + p.2.length ≤ off) →
      ((s.storeSpad tags l).teamAt tm).spadAt off = (s.teamAt tm).spadAt off := by
  induction l generalizing s with
  | nil => exact ⟨rfl, fun _ _ _ => rfl⟩
  | cons p r ih =>
    have hr : ∀ q ∈ r, q ∈ p :: r := fun q hq => List.mem_cons_of_mem p hq
    cases e : p.1.loc with
    | spad t o =>
      obtain ⟨x, ex, hst, hsp⟩ := State.spadWrite_eq (h p List.mem_cons_self t o e) o p.2 tags
      have hs : s.storeSpad tags (p :: r) = (s.setTeamAt t x).storeSpad tags r := by
        rw [← ex, State.storeSpad, List.foldl_cons, e]
        rfl
      obtain ⟨heq, hkeep⟩ := ih (s := s.setTeamAt t x) fun q hq t' o' e' => by
        have hq' := h q (hr q hq) t' o' e'
        rw [State.teamAt_setTeamAt]
        split
        · rename_i ht
          rw [hst, ← ht]
          exact hq'
        · exact hq'
      rw [hs]
      refine ⟨heq, fun tm off hoff => ?_⟩
      rw [hkeep tm off fun q hq => hoff q (hr q hq), State.teamAt_setTeamAt]
      split
      · rename_i ht
        subst ht
        rw [Team.spadAt, hsp]
        exact KMap.get_setAll_notMem _ _ _ _ (placed_ne (hoff p List.mem_cons_self o e))
      · rfl
    | _ =>
      have hs : s.storeSpad tags (p :: r) = s.storeSpad tags r := by
        rw [State.storeSpad, List.foldl_cons, e]
        rfl
      rw [hs]
      obtain ⟨heq, hkeep⟩ := ih fun q hq => h q (hr q hq)
      exact ⟨heq, fun tm off hoff => hkeep tm off fun q hq => hoff q (hr q hq)⟩

theorem State.spadAt_storeSpad_one {s : State} (tags : List Tag) {a : Acc} {b : List Byte} {tm o i : Nat}
    (ha : a.loc = .spad tm o)
    (h : (s.teamAt tm).status ≠ .saved) (hi : i < b.length) :
    ((s.storeSpad tags [(a, b)]).teamAt tm).spadAt (o + i) = b.getD i 0#8 := by
  obtain ⟨x, ex, -, hsp⟩ := State.spadWrite_eq h o b tags
  have hs : s.storeSpad tags [(a, b)] = s.setTeamAt tm x := by
    rw [← ex, State.storeSpad, List.foldl_cons, ha]
    rfl
  rw [hs, State.teamAt_setTeamAt, if_pos rfl, Team.spadAt, hsp]
  exact KMap.get_setAll_mem _ (nodup_placed o b) _ (getD_mem_placed hi)

/-! ### Global memory -/

theorem State.freshen_eq (s : State) (k : Nat) (l : List (Acc × Nat)) :
    s.freshen k l = { s with cores := (s.freshen k l).cores } := by
  unfold State.freshen
  split
  · rfl
  · exact State.mapCores_eq ..

theorem State.logDown_eq_self {s : State} {pas : List Nat} (h : ∀ pa ∈ pas, s.portDown pa = false) : s.logDown pas = s := by
  have hf : pas.find? s.portDown = none := List.find?_eq_none.2 fun pa hp => by simp [h pa hp]
  rw [State.logDown, hf]

/-- The gang counts the store. -/
theorem State.storeG_gangAt (s : State) (k : Nat) (b : List (Nat × Byte)) (tags : List Tag) : ∃ x : List Nat,
    (s.storeG k b tags).gangAt k = { s.gangAt k with stores := x } ∧ ∀ j, j ≠ k → (s.storeG k b tags).gangAt j = s.gangAt j :=
  ⟨_, (State.gangAt_setGangAt ..).trans (if_pos rfl), fun _ hj => (State.gangAt_setGangAt ..).trans (if_neg hj)⟩

theorem State.byteAt_storeG {s : State} {k d : Nat} (hk : s.dieOfGang k < 4) (hd : d < 4) (b : List (Nat × Byte))
    (tags : List Tag)
    (pa : Nat) : (s.storeG k b tags).byteAt d pa =
      if d = s.dieOfGang k then (byteIn (s.kept b) pa).getD (s.byteAt d pa) else s.byteAt d pa :=
  (State.byteAt_congr (s := (s.store (s.dieOfGang k) b tags).2) rfl rfl d pa).trans (State.byteAt_store hk hd ..)

theorem State.byteHome_storeG (s : State) (k : Nat) (b : List (Nat × Byte)) (tags : List Tag) (pa : Nat) :
    (s.storeG k b tags).byteHome pa = (byteIn (s.kept b) pa).getD (s.byteHome pa) :=
  (State.byteHome_congr (s := (s.store (s.dieOfGang k) b tags).2) rfl rfl pa).trans (State.byteHome_store ..)

/-- A store to G, its ports being up: what changes is the order of stores, the gang's counter and the caches. -/
theorem State.storeMem_keeps {s : State} {k : Nat} (tags : List Tag) {l : List (Acc × List Byte)}
    (hp : ∀ x ∈ memBytes l, s.portDown x.1 = false) (hd : s.dieOfGang k < 4) :
    (∀ d pa, d < 4 → (s.storeMem k tags l).byteAt d pa =
      if d = s.dieOfGang k then (byteIn (memBytes l) pa).getD (s.byteAt d pa) else s.byteAt d pa) ∧
    (∀ pa, (s.storeMem k tags l).byteHome pa = (byteIn (memBytes l) pa).getD (s.byteHome pa)) ∧
    (s.storeMem k tags l).teams = s.teams ∧ (∀ j, j ≠ k → (s.storeMem k tags l).gangAt j = s.gangAt j) ∧
    ∃ x : List Nat, (s.storeMem k tags l).gangAt k = { s.gangAt k with stores := x } := by
  unfold State.storeMem
  split
  · rename_i he
    rw [List.isEmpty_iff.1 he]
    exact ⟨fun _ _ _ => (ite_self _).symm, fun _ => rfl, rfl, fun _ _ => rfl, _, rfl⟩
  · rw [State.logDown_eq_self fun pa h => by obtain ⟨x, hx, rfl⟩ := List.mem_map.1 h; exact hp x hx]
    generalize (l.filterMap _ : List (Acc × Nat)) = accs
    have hf := s.freshen_eq k accs
    generalize s.freshen k accs = u at hf
    have hlog : u.log = s.log := by rw [hf]
    have hmem : u.mem = s.mem := by rw [hf]
    have hteams : u.teams = s.teams := by rw [hf]
    have hgang : u.gangAt = s.gangAt := by rw [hf]; rfl
    have hdie : u.dieOfGang k = s.dieOfGang k := by rw [hf]; rfl
    have hport : u.portDown = s.portDown := by rw [hf]; rfl
    have hk : u.kept (memBytes l) = memBytes l := State.kept_eq_self fun x hx => by rw [hport]; exact hp x hx
    obtain ⟨x, hself, hothers⟩ := u.storeG_gangAt k (memBytes l) tags
    refine ⟨fun d pa h => ?_, fun pa => ?_, hteams, fun j hj => ?_, x, ?_⟩
    · rw [State.byteAt_storeG (hdie ▸ hd) h, hk, hdie, State.byteAt_congr hlog hmem]
    · rw [State.byteHome_storeG, hk, State.byteHome_congr hlog hmem]
    · rw [hothers j hj, hgang]
    · rw [hself, hgang]

/-! ### The stack cache -/

/-- The places that the dirty bytes of a gang's stack cache translate to. -/
def State.spillPlace (s : State) (k pa : Nat) : Prop :=
  ∃ p ∈ (s.gangAt k).dirtyBytes, ∃ leaf, (s.lookup (s.xlOf (s.gangAt k).team) p.1).1 = .page pa leaf

/-- A spill of stack lines leaves all but what the places of the dirty bytes hold in G, and what the cache holds; it leaves that too where
the cache keeps its lines. -/
structure State.SpillsTo (s t : State) (k : Nat) (keeps : Prop) : Prop where
  own : ∀ pa, keeps ∨ ¬ s.spillPlace k pa → t.byteAt (s.dieOfGang k) pa = s.byteAt (s.dieOfGang k) pa
  home : ∀ pa, keeps ∨ ¬ s.spillPlace k pa → t.byteHome pa = s.byteHome pa
  other : ∀ d pa, d < 4 → d ≠ s.dieOfGang k → t.byteAt d pa = s.byteAt d pa
  teams : t.teams = s.teams
  others : ∀ j, j ≠ k → t.gangAt j = s.gangAt j
  r : (t.gangAt k).r = (s.gangAt k).r
  kdata : ∀ off, KMap.get none (t.gangAt k).kdata off = KMap.get none (s.gangAt k).kdata off ∨
    (¬ keeps ∧ KMap.get none (t.gangAt k).kdata off = none)

theorem State.SpillsTo.refl (s : State) (k : Nat) (keeps : Prop) : s.SpillsTo s k keeps :=
  ⟨fun _ _ => rfl, fun _ _ => rfl, fun _ _ _ _ => rfl, rfl, fun _ _ => rfl, rfl, fun _ => .inl rfl⟩

/-- Fewer dirty lines and entries, fewer dirty bytes. -/
theorem Gang.dirtyBytes_subset {g : Gang} {kd : List Nat} {ret : KMap (Option IAddr)} (hk : ∀ x ∈ kd, x ∈ g.kdirty)
    (hr : ∀ x ∈ ret, x ∈ g.ret) : ∀ p ∈ ({ g with kdirty := kd, ret := ret } : Gang).dirtyBytes, p ∈ g.dirtyBytes := by
  intro p hp
  rcases List.mem_append.1 hp with h | h
  · obtain ⟨ln, hln, h⟩ := List.mem_flatMap.1 h
    exact List.mem_append_left _ (List.mem_flatMap.2 ⟨ln, hk ln hln, h⟩)
  · obtain ⟨e, he, h⟩ := List.mem_flatMap.1 h
    exact List.mem_append_right _ (List.mem_flatMap.2 ⟨e, hr e he, h⟩)

/-- Spilled bytes go where they translate to, as a store of the gang's die. -/
theorem State.spillBytes_spillsTo {s : State} {k : Nat} (hd : s.dieOfGang k < 4) {l : List (Nat × Byte)}
    (hl : ∀ p ∈ l, p ∈ (s.gangAt k).dirtyBytes) :
    s.SpillsTo (s.spillBytes k false false l) k False := by
  unfold State.spillBytes
  extract_lets x mem late t
  have hmem : ∀ pa, ¬ s.spillPlace k pa → byteIn (s.kept mem) pa = none := fun pa hpa => byteIn_eq_none fun y hy e => by
    obtain ⟨p, hp, ey⟩ := List.mem_filterMap.1 (List.mem_filter.1 hy).1
    split at ey
    · rename_i pa' leaf et
      cases ey
      exact hpa ⟨p, hl p hp, leaf, e ▸ et⟩
    · cases ey
  change s.SpillsTo t k False
  unfold t
  split
  · exact .refl s k _
  · have hx : x.die = s.dieOfGang k := rfl
    rw [hx]
    refine ⟨fun pa hpa => ?_, fun pa hpa => ?_, fun d pa h4 hne => ?_, rfl, fun _ _ => rfl, rfl, fun _ => .inl rfl⟩
    · rw [if_neg Bool.false_ne_true, State.byteAt_store hd hd, if_pos rfl, hmem pa (hpa.resolve_left id), Option.getD_none]
    · rw [if_neg Bool.false_ne_true, State.byteHome_store, hmem pa (hpa.resolve_left id), Option.getD_none]
    · rw [if_neg Bool.false_ne_true, State.byteAt_store hd h4, if_neg hne]

/-- Lines that the cache drops leave it, and go to their places. -/
theorem State.spillPick_spillsTo {s : State} {k : Nat} (hd : s.dieOfGang k < 4) : s.SpillsTo (s.spillPick k) k False := by
  unfold State.spillPick
  extract_lets g lines rets p q x here out old gone t g'
  split
  · exact .refl s k _
  · have hsub : ∀ b ∈ gone.dirtyBytes, b ∈ (q.2.gangAt k).dirtyBytes := Gang.dirtyBytes_subset (g := g)
      (fun _ hx => (List.mem_filter.1 hx).1) fun e he => by
        unfold old at he
        split at he
        · cases he
        · exact (List.mem_filter.1 he).1
    obtain ⟨hown, hhome, hother, hteams, hgang, hr, hdata⟩ := State.spillBytes_spillsTo (s := q.2) (k := k) hd hsub
    refine ⟨hown, hhome, hother, hteams, fun j hj => ?_, ?_, fun off => ?_⟩
    · rw [State.gangAt_setGangAt, if_neg hj]
      exact hgang j hj
    · rw [State.gangAt_setGangAt, if_pos rfl]
      exact hr
    · have hf := KMap.get_filter none g'.kdata (fun o => !out.contains (g'.stackLine o)) off
      rw [State.gangAt_setGangAt, if_pos rfl]
      split at hf
      · exact (hdata off).imp hf.trans fun h => ⟨id, hf.trans h.2⟩
      · exact .inr ⟨id, hf⟩

/-- The lines that the stack cache holds, of data and of return entries. -/
def Gang.cacheLines (g : Gang) : Nat :=
  ((g.kdata.map fun p => g.stackLine p.1).eraseDups).length + ((g.ret.map fun p => g.retVa p.1 / 128).eraseDups).length

/-- Lines that the cache must keep stay. -/
theorem State.spillPick_eq_self {s : State} {k : Nat} (h : (s.gangAt k).cacheLines ≤ 8) : s.spillPick k = s := by
  unfold State.spillPick
  extract_lets g lines rets
  have hl : lines.length + rets.length ≤ 8 := h
  rw [decide_eq_true hl, Bool.true_or, Bool.true_or, if_pos rfl]

/-- The stack cache before lines fall out of it. -/
def State.putStack (s : State) (k : Nat) (b : List (Nat × Byte)) : State := s.setGangAt k ((s.gangAt k).putStack b)

theorem State.gangAt_putStack (s : State) (k : Nat) (b : List (Nat × Byte)) :
    (s.putStack k b).gangAt k = (s.gangAt k).putStack b :=
  (State.gangAt_setGangAt ..).trans (if_pos rfl)

theorem State.dieOfGang_putStack (s : State) (k : Nat) (b : List (Nat × Byte)) :
    (s.putStack k b).dieOfGang k = s.dieOfGang k := by
  rw [State.dieOfGang, State.gangAt_putStack]
  rfl

theorem Gang.kdata_putStack (g : Gang) (b : List (Nat × Byte)) :
    (g.putStack b).kdata = KMap.setAll none g.kdata (b.map fun p => (p.1, some p.2)) :=
  (List.foldl_map (f := fun p : Nat × Byte => (p.1, some p.2)) (g := fun m p => KMap.set none m p.1 p.2) ..).symm

theorem Gang.get_kdata_putStack_notMem {g : Gang} {b : List (Nat × Byte)} {off : Nat} (h : ∀ x ∈ b, x.1 ≠ off) :
    KMap.get none (g.putStack b).kdata off = KMap.get none g.kdata off := by
  rw [Gang.kdata_putStack]
  refine KMap.get_setAll_notMem _ _ _ _ fun p hp => ?_
  obtain ⟨x, hx, rfl⟩ := List.mem_map.1 hp
  exact h x hx

theorem Gang.get_kdata_putStack_placed {b : List Byte} (g : Gang) (o : Nat) {i : Nat} (h : i < b.length) :
    KMap.get none (g.putStack (placed o b)).kdata (o + i) = some (b.getD i 0#8) := by
  rw [Gang.kdata_putStack]
  refine KMap.get_setAll_mem _ ?_ _ (List.mem_map.2 ⟨_, getD_mem_placed h, rfl⟩)
  rw [List.map_map]
  exact nodup_placed o b

theorem State.spillPlace_putStack (s : State) (k : Nat) (b : List (Nat × Byte)) (pa : Nat) : (s.putStack k b).spillPlace k pa =
    ∃ p ∈ ((s.gangAt k).putStack b).dirtyBytes, ∃ leaf, (s.lookup (s.xlOf (s.gangAt k).team) p.1).1 = .page pa leaf := by
  rw [State.spillPlace, State.gangAt_putStack]
  rfl

/-- A store to the stack puts its bytes into the cache, and may then spill lines if that holds more than it must keep. -/
theorem State.storeStack_spillsTo {s : State} {k : Nat} (hd : s.dieOfGang k < 4) (l : List (Acc × List Byte)) :
    (s.putStack k (stackBytes l)).SpillsTo (s.storeStack k l) k
      (stackBytes l = [] ∨ ((s.gangAt k).putStack (stackBytes l)).cacheLines ≤ 8) := by
  rw [State.storeStack, ← State.putStack]
  split
  · rename_i he
    rw [List.isEmpty_iff.1 he]
    refine ⟨fun _ _ => rfl, fun _ _ => rfl, fun _ _ _ _ => rfl, rfl, fun j hj => ?_, ?_, fun off => .inl ?_⟩
    · exact ((State.gangAt_setGangAt ..).trans (if_neg hj)).symm
    · rw [State.gangAt_putStack]
      rfl
    · rw [State.gangAt_putStack]
      rfl
  · rename_i he
    by_cases hc : ((s.gangAt k).putStack (stackBytes l)).cacheLines ≤ 8
    · rw [State.spillPick_eq_self (by rwa [State.gangAt_putStack])]
      exact .refl ..
    · have hk : ¬ (stackBytes l = [] ∨ ((s.gangAt k).putStack (stackBytes l)).cacheLines ≤ 8) :=
        not_or.2 ⟨mt List.isEmpty_iff.2 he, hc⟩
      rw [eq_false hk]
      exact State.spillPick_spillsTo (s.dieOfGang_putStack k _ ▸ hd)

/-! ## What a store changes -/

/-- Whether the stack cache must keep all that it holds once a store has put its bytes there. -/
def State.keepsStack (s : State) (k : Nat) (l : List (Acc × List Byte)) : Prop :=
  stackBytes l = [] ∨ ((s.gangAt k).putStack (stackBytes l)).cacheLines ≤ 8

/-- The stack's part of a store, all of whose places are on the stack or none: it starts from the state before the store, or does
nothing. -/
theorem State.storeStack_storeMem {s : State} {k : Nat} {tags : List Tag} {l : List (Acc × List Byte)}
    (h : s.storeMem k tags l = s ∨ stackBytes l = []) :
    (s.keepsStack k l → (s.storeMem k tags l).keepsStack k l) ∧
    ∀ pa, s.keepsStack k l ∨ ¬ (s.putStack k (stackBytes l)).spillPlace k pa →
      (s.storeMem k tags l).keepsStack k l ∨ ¬ ((s.storeMem k tags l).putStack k (stackBytes l)).spillPlace k pa := by
  rcases h with h | h
  · rw [h]
    exact ⟨id, fun _ => id⟩
  · exact ⟨fun _ => .inl h, fun _ _ => .inl (.inl h)⟩

theorem mem_memBytes {l : List (Acc × List Byte)} {x : Nat × Byte} (h : x ∈ memBytes l) :
    ∃ p ∈ l, ∃ pa leaf, p.1.loc = .mem pa leaf ∧ ∃ i < p.2.length, x.1 = pa + i := by
  obtain ⟨p, hp, hx⟩ := List.mem_flatMap.1 h
  split at hx
  · rename_i pa leaf e
    obtain ⟨i, hi, rfl⟩ := mem_placed.1 hx
    exact ⟨p, hp, pa, leaf, e, i, hi, rfl⟩
  · cases hx

theorem stackBytes_ne {l : List (Acc × List Byte)} {off : Nat}
    (h : ∀ p ∈ l, ∀ o pa, p.1.loc = .stack o pa → off < o ∨ o + p.2.length ≤ off) : ∀ x ∈ stackBytes l, x.1 ≠ off := by
  intro x hx
  obtain ⟨p, hp, hx⟩ := List.mem_flatMap.1 hx
  split at hx
  · rename_i o pa e
    exact placed_ne (h p hp o pa e) x hx
  · cases hx

theorem stackBytes_one {a : Acc} {b : List Byte} {o pa : Nat} (h : a.loc = .stack o pa) : stackBytes [(a, b)] = placed o b := by
  rw [stackBytes, List.flatMap_cons, h]
  exact List.append_nil _

/-- Where all places are on the stack nothing goes to G, and where none is nothing goes to the stack. -/
theorem State.storeMem_eq_or_stackBytes_eq {l : List (Acc × List Byte)} (s : State) (k : Nat) (tags : List Tag)
    (h : (∀ p ∈ l, ∃ o pa, p.1.loc = .stack o pa) ∨ ∀ p ∈ l, ∀ o pa, p.1.loc ≠ .stack o pa) :
    s.storeMem k tags l = s ∨ stackBytes l = [] := by
  refine h.imp (fun h => ?_) stackBytes_eq_nil
  have hm : memBytes l = [] := memBytes_eq_nil fun p hp pa leaf e => by
    obtain ⟨o, pa', e'⟩ := h p hp
    cases e.symm.trans e'
  rw [State.storeMem, hm]
  rfl

/-- R154, R156, R224, R236, R242, R244: a store goes to G, then to the stack cache, then to the scratchpads; each part leaves what the
others write. -/
theorem storesChangeOnlyTheirPlaces : Claims.StoresChangeOnlyTheirPlaces := by
  intro s k scp ord l hhere hsaved hd hport hpure stack c keeps spilled g t
  have hg : g = memBytes l := rfl
  have hkeeps : keeps = s.keepsStack k l := rfl
  have hspilled : spilled = (s.putStack k (stackBytes l)).spillPlace k := funext fun pa => (s.spillPlace_putStack k _ pa).symm
  have ht : t = s.storeHere k (State.storeTag { s with gk := k } scp ord).toList l := State.storeAll_of_here hhere
  clear_value g keeps spilled t
  generalize (State.storeTag { s with gk := k } scp ord).toList = tags at ht
  rw [State.storeHere_eq] at ht
  obtain ⟨hsame, hplace⟩ := State.storeStack_storeMem (s.storeMem_eq_or_stackBytes_eq k tags hpure)
  obtain ⟨howng, hhomeg, hteamsg, hothersg, x, hgangg⟩ := s.storeMem_keeps (k := k) tags (l := l)
    (fun x hx => by
      obtain ⟨p, hp, pa, leaf, e, i, hi, ex⟩ := mem_memBytes hx
      rw [ex]
      exact hport p hp pa leaf e i hi) hd
  generalize s.storeMem k tags l = u at *
  have hdie : u.dieOfGang k = s.dieOfGang k := by
    rw [State.dieOfGang, hgangg, State.teamAt, hteamsg]
    rfl
  obtain ⟨hown, hhome, hother, hteams, hothers, hr, hkdata⟩ := u.storeStack_spillsTo (k := k) (hdie ▸ hd) l
  generalize u.storeStack k l = v at *
  have hteam : v.teamAt = s.teamAt := funext fun j => by rw [State.teamAt, hteams, State.teamAt, ← hteamsg]; rfl
  obtain ⟨hpads, hpad⟩ := v.storeSpad_keeps tags (l := l) (by rw [hteam]; exact hsaved)
  have hgang : t.gangAt = v.gangAt := by rw [ht, hpads]; rfl
  have hbyte : t.byteAt = v.byteAt := by rw [ht, hpads]; rfl
  have hatHome : t.byteHome = v.byteHome := by rw [ht, hpads]; rfl
  rw [State.dieOfGang_putStack, hdie] at hown hother
  rw [State.gangAt_putStack] at hkdata
  rw [hgang, hbyte, hatHome, hg, hkeeps, hspilled]
  refine ⟨fun pa hpa => ?_, fun pa hpa => ?_, fun d pa h4 hne => ?_, fun tm off hoff => ?_, fun tm o i a b hl ha hi => ?_,
    fun off hoff => ?_,
    fun o pa i a b hl ha hi => ?_, ?_, fun j hj => ?_⟩
  · exact (hown pa (hplace pa hpa)).trans ((howng _ pa hd).trans (if_pos rfl))
  · exact (hhome pa (hplace pa hpa)).trans (hhomeg pa)
  · exact (hother d pa h4 hne).trans ((howng d pa h4).trans (if_neg hne))
  · rw [ht, hpad tm off hoff, hteam]
  · subst hl
    rw [ht]
    exact State.spadAt_storeSpad_one tags ha (by rw [hteam]; exact hsaved _ List.mem_cons_self tm o ha) hi
  · refine (hkdata off).imp (fun h => h.trans ?_) fun h => ⟨mt hsame h.1, h.2⟩
    rw [Gang.get_kdata_putStack_notMem (stackBytes_ne hoff), hgangg]
  · subst hl
    refine (hkdata (o + i)).imp (fun h => h.trans ?_) fun h => ⟨mt hsame h.1, h.2⟩
    rw [stackBytes_one ha, Gang.get_kdata_putStack_placed _ o hi]
  · rw [hr, State.gangAt_putStack, Gang.putStack, hgangg]
  · rw [hothers j hj, State.putStack, State.gangAt_setGangAt, if_neg hj, hothersg j hj]

/-- Settles O29: a store gives its bytes to the places of its lanes, or holds them; and what such a store changes, place by place. -/
theorem storesWriteTheirPlaces : Obligations.StoresWriteTheirPlaces := ⟨storesGiveTheirBytes, storesChangeOnlyTheirPlaces⟩

end Sys2Proof.Machine
end

section
/-! Words and instructions: the fields of a packed word, the opcode map read in both directions, and what makes a word decode (R69 to
R88). -/

namespace Sys2Proof

open Claims

/-! ## Fields of a word -/

theorem field_append_field {n m lo hi : Nat} {w : BitVec 64} (h : hi = lo + m) :
    field n hi w ++ field m lo w = field (n + m) lo w :=
  BitVec.extractLsb'_append_extractLsb'_eq_extractLsb' h

theorem field_all (w : BitVec 64) : field 64 0 w = w := BitVec.extractLsb'_eq_self

theorem bit1_bitAt (i : Nat) (w : BitVec 64) : bit1 (bitAt i w) = field 1 i w := by
  apply BitVec.eq_of_getLsbD_eq
  intro j hj
  obtain rfl : j = 0 := by omega
  simp [bit1, bitAt, field]

/-- A field of the top 16 bits of a word, as a field of those bits alone. -/
theorem field_of_top (w : BitVec 64) {n lo : Nat} (h : lo + n ≤ 16) : field n (48 + lo) w = (field 16 48 w).extractLsb' lo n := by
  apply BitVec.eq_of_getLsbD_eq
  intro j hj
  simp only [field, BitVec.getLsbD_extractLsb', Nat.add_assoc]
  simp [hj, show lo + j < 16 by omega]

theorem bitAt_of_top (w : BitVec 64) {lo : Nat} (h : lo < 16) : bitAt (48 + lo) w = (field 16 48 w).getLsbD lo := by
  simp [bitAt, field, h]

/-- The first bit of a part of a join is the part's own. -/
theorem getLsbD_append_zero {m : Nat} (x : BitVec m) (b : Bool) : (x ++ bit1 b).getLsbD 0 = b := by
  rw [BitVec.getLsbD_append]
  cases b <;> rfl

theorem getLsbD_append_of_le {m k i : Nat} (x : BitVec m) (y : BitVec k) (h : k ≤ i) : (x ++ y).getLsbD i = x.getLsbD (i - k) := by
  rw [BitVec.getLsbD_append, if_neg (by omega)]

/-! ## The header (R69) -/

theorem packHeader_headerOf (w : BitVec 64) : packHeader (opcodeOf w) (headerOf w) = field 16 48 w := by
  simp only [packHeader, headerOf, opcodeOf, bit1_bitAt]
  iterate 5 rw [field_append_field (by decide)]

theorem opcodeOf_of_top {w : BitVec 64} {op : BitVec 8} {h : Header} (hw : field 16 48 w = packHeader op h) : opcodeOf w = op := by
  rw [opcodeOf, field_of_top w (lo := 8) (by decide), hw, packHeader]
  iterate 4 rw [BitVec.extractLsb'_append_eq_of_le (by decide)]
  exact BitVec.extractLsb'_append_eq_left

theorem headerOf_of_top {w : BitVec 64} {op : BitVec 8} {h : Header} (hw : field 16 48 w = packHeader op h) : headerOf w = h := by
  rw [headerOf, field_of_top w (lo := 0) (by decide), field_of_top w (lo := 4) (by decide), bitAt_of_top w (lo := 2) (by decide),
    bitAt_of_top w (lo := 3) (by decide), bitAt_of_top w (lo := 7) (by decide), hw]
  obtain ⟨pn, pi, g, t, fx⟩ := h
  simp only [packHeader, Header.mk.injEq]
  refine ⟨?_, ?_, ?_, ?_, BitVec.extractLsb'_append_eq_right⟩
  · iterate 4 rw [getLsbD_append_of_le _ _ (by decide)]
    exact getLsbD_append_zero ..
  · iterate 3 rw [BitVec.extractLsb'_append_eq_of_le (by decide)]
    exact BitVec.extractLsb'_append_eq_right
  · iterate 2 rw [getLsbD_append_of_le _ _ (by decide)]
    exact getLsbD_append_zero ..
  · rw [getLsbD_append_of_le _ _ (by decide)]
    exact getLsbD_append_zero ..

/-! ## The classes (R75): the record of a packed word, and the word of its record -/

section Classes

variable (op : BitVec 8) (w : BitVec 64)

theorem top_packA (f : ClassA) : field 16 48 (packA op f) = packHeader op f.h := by
  simp only [field, packA]
  iterate 6 rw [BitVec.extractLsb'_append_eq_of_le (by decide)]
  exact BitVec.extractLsb'_eq_self

theorem top_packI (f : ClassI) : field 16 48 (packI op f) = packHeader op f.h := by
  simp only [field, packI]
  iterate 4 rw [BitVec.extractLsb'_append_eq_of_le (by decide)]
  exact BitVec.extractLsb'_eq_self

theorem top_packM (f : ClassM) : field 16 48 (packM op f) = packHeader op f.h := by
  simp only [field, packM]
  iterate 10 rw [BitVec.extractLsb'_append_eq_of_le (by decide)]
  exact BitVec.extractLsb'_eq_self

theorem top_packB (f : ClassB) : field 16 48 (packB op f) = packHeader op f.h := by
  simp only [field, packB]
  iterate 4 rw [BitVec.extractLsb'_append_eq_of_le (by decide)]
  exact BitVec.extractLsb'_eq_self

theorem top_packE (f : ClassE) : field 16 48 (packE op f) = packHeader op f.h := by
  simp only [field, packE]
  iterate 7 rw [BitVec.extractLsb'_append_eq_of_le (by decide)]
  exact BitVec.extractLsb'_eq_self

theorem top_packS (f : ClassS) : field 16 48 (packS op f) = packHeader op f.h := by
  simp only [field, packS]
  iterate 3 rw [BitVec.extractLsb'_append_eq_of_le (by decide)]
  exact BitVec.extractLsb'_eq_self

theorem low_packA (f : ClassA) : field 12 0 (packA op f) = 0#12 := BitVec.extractLsb'_append_eq_right

theorem unpackA_packA (f : ClassA) : unpackA (packA op f) = f := by
  simp only [unpackA, headerOf_of_top (top_packA op f)]
  obtain ⟨h, d, a, b, c, mod⟩ := f
  simp only [packA, field, ClassA.mk.injEq]
  refine ⟨trivial, ?_, ?_, ?_, ?_, ?_⟩ <;>
    repeat rw [BitVec.extractLsb'_append_eq_of_le (by decide)]
  all_goals exact BitVec.extractLsb'_append_eq_right

theorem unpackI_packI (f : ClassI) : unpackI (packI op f) = f := by
  simp only [unpackI, headerOf_of_top (top_packI op f)]
  obtain ⟨h, d, a, mod4, imm⟩ := f
  simp only [packI, field, ClassI.mk.injEq]
  refine ⟨trivial, ?_, ?_, ?_, ?_⟩ <;>
    repeat rw [BitVec.extractLsb'_append_eq_of_le (by decide)]
  all_goals exact BitVec.extractLsb'_append_eq_right

theorem unpackM_packM (f : ClassM) : unpackM (packM op f) = f := by
  simp only [unpackM, headerOf_of_top (top_packM op f)]
  obtain ⟨h, d, adr, x, sc, sz, sp, scp, ord, ch, off⟩ := f
  simp only [packM, field, ClassM.mk.injEq]
  refine ⟨trivial, ?_, ?_, ?_, ?_, ?_, ?_, ?_, ?_, ?_, ?_⟩ <;>
    repeat rw [BitVec.extractLsb'_append_eq_of_le (by decide)]
  all_goals exact BitVec.extractLsb'_append_eq_right

theorem unpackB_packB (f : ClassB) : unpackB (packB op f) = f := by
  simp only [unpackB, headerOf_of_top (top_packB op f)]
  obtain ⟨h, disp, aux8, aux4, aux12⟩ := f
  simp only [packB, field, ClassB.mk.injEq]
  refine ⟨trivial, ?_, ?_, ?_, ?_⟩ <;>
    repeat rw [BitVec.extractLsb'_append_eq_of_le (by decide)]
  all_goals exact BitVec.extractLsb'_append_eq_right

theorem unpackE_packE (f : ClassE) : unpackE (packE op f) = f := by
  simp only [unpackE, headerOf_of_top (top_packE op f)]
  obtain ⟨h, d, ta, tb, tc, fs, a, mod⟩ := f
  simp only [packE, field, ClassE.mk.injEq]
  refine ⟨trivial, ?_, ?_, ?_, ?_, ?_, ?_, ?_⟩ <;>
    repeat rw [BitVec.extractLsb'_append_eq_of_le (by decide)]
  all_goals exact BitVec.extractLsb'_append_eq_right

theorem unpackS_packS (f : ClassS) : unpackS (packS op f) = f := by
  simp only [unpackS, headerOf_of_top (top_packS op f)]
  obtain ⟨h, sreg, a, mod⟩ := f
  simp only [packS, field, ClassS.mk.injEq]
  refine ⟨trivial, ?_, ?_, ?_⟩ <;>
    repeat rw [BitVec.extractLsb'_append_eq_of_le (by decide)]
  all_goals exact BitVec.extractLsb'_append_eq_right

theorem packA_unpackA (h : field 12 0 w = 0#12) : packA (opcodeOf w) (unpackA w) = w := by
  simp only [packA, unpackA, packHeader_headerOf, ← h]
  iterate 6 rw [field_append_field (by decide)]
  exact field_all w

theorem packI_unpackI : packI (opcodeOf w) (unpackI w) = w := by
  simp only [packI, unpackI, packHeader_headerOf]
  iterate 4 rw [field_append_field (by decide)]
  exact field_all w

theorem packM_unpackM : packM (opcodeOf w) (unpackM w) = w := by
  simp only [packM, unpackM, packHeader_headerOf]
  iterate 10 rw [field_append_field (by decide)]
  exact field_all w

theorem packB_unpackB : packB (opcodeOf w) (unpackB w) = w := by
  simp only [packB, unpackB, packHeader_headerOf]
  iterate 4 rw [field_append_field (by decide)]
  exact field_all w

theorem packE_unpackE : packE (opcodeOf w) (unpackE w) = w := by
  simp only [packE, unpackE, packHeader_headerOf]
  iterate 7 rw [field_append_field (by decide)]
  exact field_all w

theorem packS_unpackS : packS (opcodeOf w) (unpackS w) = w := by
  simp only [packS, unpackS, packHeader_headerOf]
  iterate 3 rw [field_append_field (by decide)]
  exact field_all w

end Classes

/-! ## The opcode map, from a row to its word -/

/-- The row that `pick` finds where the opcode is `n`: the body of `pick` with `n` in place of the opcode. -/
def rowAt (w : BitVec 64) (n : Nat) : { p : Picked // (opcodeOf w).toNat = n → pick w = p } := by
  refine ⟨?_, fun h => ?_⟩
  rotate_left
  · unfold pick
    rw [h]

section Rows

variable {op : BitVec 8} {P : Picked}

theorem pick_eq_rowAt {w : BitVec 64} (h : opcodeOf w = op) : pick w = (rowAt w op.toNat).1 := (rowAt w _).2 (congrArg _ h)

theorem pick_packA {f : ClassA} (h : ∀ w, unpackA w = f → (field 12 0 w == 0#12) = true → (rowAt w op.toNat).1 = P) :
    pick (packA op f) = P :=
  (pick_eq_rowAt (opcodeOf_of_top (top_packA op f))).trans (h _ (unpackA_packA op f) (beq_iff_eq.2 (low_packA op f)))

theorem pick_packI {f : ClassI} (h : ∀ w, unpackI w = f → (rowAt w op.toNat).1 = P) : pick (packI op f) = P :=
  (pick_eq_rowAt (opcodeOf_of_top (top_packI op f))).trans (h _ (unpackI_packI op f))

theorem pick_packM {f : ClassM} (h : ∀ w, unpackM w = f → (rowAt w op.toNat).1 = P) : pick (packM op f) = P :=
  (pick_eq_rowAt (opcodeOf_of_top (top_packM op f))).trans (h _ (unpackM_packM op f))

theorem pick_packB {f : ClassB} (h : ∀ w, unpackB w = f → (rowAt w op.toNat).1 = P) : pick (packB op f) = P :=
  (pick_eq_rowAt (opcodeOf_of_top (top_packB op f))).trans (h _ (unpackB_packB op f))

theorem pick_packE {f : ClassE} (h : ∀ w, unpackE w = f → (rowAt w op.toNat).1 = P) : pick (packE op f) = P :=
  (pick_eq_rowAt (opcodeOf_of_top (top_packE op f))).trans (h _ (unpackE_packE op f))

theorem pick_packS {f : ClassS} (h : ∀ w, unpackS w = f → (rowAt w op.toNat).1 = P) : pick (packS op f) = P :=
  (pick_eq_rowAt (opcodeOf_of_top (top_packS op f))).trans (h _ (unpackS_packS op f))

end Rows

theorem eq_ofNat_of_toNat_eq {m n : Nat} {x : BitVec m} (h : x.toNat = n) : x = BitVec.ofNat m n := by
  rw [← h, BitVec.ofNat_toNat, BitVec.setWidth_eq]

theorem ofA_some {o : Option Instr} {i : Instr} {low mbz : Bool} (h : o = some i) (hl : low = true) :
    Picked.ofA o low mbz = .ins i true := by
  rw [h, hl]
  rfl

theorem pickSwr_of_selects {f : ClassS} (h : (Instr.swr f).selects = true) : pickSwr f = .swr f := by
  unfold pickSwr
  split
  case h_12 => rfl
  all_goals
    rename_i hn
    simp [Instr.selects, eq_ofNat_of_toNat_eq hn] at h

theorem ite_of_not {α : Type} {b : Bool} {x y : α} (h : (!b) = true) : (if b then x else y) = y :=
  if_neg (by simpa using h)

/-- The row of a word that `encode` gives is the instruction's own, where its sub-operation bits are those of its row. -/
theorem pick_encode {i : Instr} {w : BitVec 64} (hs : i.selects = true) (h : encode i = some w) : pick w = .ins i true := by
  cases i <;> cases h
  any_goals with_reducible refine pick_packA fun w hf hl => ?_
  any_goals with_reducible refine pick_packI fun w hf => ?_
  any_goals with_reducible refine pick_packM fun w hf => ?_
  any_goals with_reducible refine pick_packB fun w hf => ?_
  any_goals with_reducible refine pick_packE fun w hf => ?_
  any_goals with_reducible refine pick_packS fun w hf => ?_
  all_goals subst hf
  -- opcodes with one row
  any_goals rfl
  any_goals exact congrArg (Picked.ins _) hl
  -- opcodes whose rows one bit tells apart
  case cwaitAll | bwaitG | mxwaitAcc | doneC | tretSkip => exact congrArg (Picked.ins · true) (if_pos hs)
  case tdsetReg | mxmodeRed => exact congrArg (Picked.ins · true) (if_pos hs)
  case cwait | bwait | mxwait | done | tret => exact congrArg (Picked.ins · true) (ite_of_not hs)
  case tdsetImm | mxmodeNorm => exact congrArg (Picked.ins · true) (ite_of_not hs)
  case adgetW => exact congrArg₂ Picked.ins (if_pos hs) hl
  case adget => exact congrArg₂ Picked.ins (ite_of_not hs) hl
  -- opcodes with a sub-operation field
  case mov | iabs | ineg | inot | popc | clz | ctz | brev =>
    exact ofA_some (by unfold pick36; rw [eq_of_beq hs]; rfl) hl
  case adset | adsetW | adsetAdd => exact ofA_some (by unfold pick3D; rw [eq_of_beq hs]; rfl) hl
  case iaddImm | isubImm | imulImm | iminImm | imaxImm | andImm | orImm | xorImm | andnImm | shlImm | shrImm | sarImm | rotImm =>
    exact ofA_some (by unfold pick38; rw [eq_of_beq hs]; rfl) rfl
  case mxscale | mxscaleRow | mxscaleCol => exact ofA_some (by unfold pickC8; rw [eq_of_beq hs]; rfl) rfl
  case qswSuspend | qswResume | qswPreempt | qswKill | qswPrio =>
    exact ofA_some (by unfold pickQsw; rw [eq_of_beq hs]; rfl) rfl
  -- special registers
  case swr => exact congrArg (Picked.ins · true) (pickSwr_of_selects hs)
  case heapRegWrite =>
    simp only [Instr.selects, Bool.or_eq_true, beq_iff_eq] at hs
    rcases hs with (hs | hs) | hs <;> exact congrArg (Picked.ins · true) (by unfold pickSwr; rw [hs]; rfl)
  case qcfgWrite | mstatClear | srstateWrite | stklimWrite | windowWrite | cceshareWrite | grstWrite | plimWrite =>
    exact congrArg (Picked.ins · true) (by unfold pickSwr; rw [eq_of_beq hs]; rfl)

/-! ## The opcode map, from a word to its row -/

/-- A word of opcode `op` is laid out as one of the classes, with the class's own zero bits in `z`. -/
inductive Laid (w : BitVec 64) (op : BitVec 8) : BitVec 64 → Bool → Prop
  | a : Laid w op (packA op (unpackA w)) (field 12 0 w == 0#12)
  | i : Laid w op (packI op (unpackI w)) true
  | m : Laid w op (packM op (unpackM w)) true
  | b : Laid w op (packB op (unpackB w)) true
  | e : Laid w op (packE op (unpackE w)) true
  | s : Laid w op (packS op (unpackS w)) true

theorem Laid.eq {w w' : BitVec 64} {z : Bool} (h : Laid w (opcodeOf w) w' z) (hz : z = true) : w' = w := by
  cases h with
  | a => exact packA_unpackA w (eq_of_beq hz)
  | i => exact packI_unpackI w
  | m => exact packM_unpackM w
  | b => exact packB_unpackB w
  | e => exact packE_unpackE w
  | s => exact packS_unpackS w

/-- What a row found for a word of opcode `op` says of it: the opcode is assigned, the instruction's own word is the word, and its
sub-operation bits are those of its row once the must-be-zero bits are zero. -/
def Picked.Reads (w : BitVec 64) (op : BitVec 8) : Picked → Prop
  | .reserved => True
  | .badSub _ => reservedOpcode op.toNat = false
  | .ins i z => reservedOpcode op.toNat = false ∧ (∃ w', encode i = some w' ∧ Laid w op w' z) ∧
      ∀ c, i.checks = some c → c.mbz = true → i.selects = true

section Reads

variable {w : BitVec 64} {op : BitVec 8}

theorem Picked.reads_ins {i : Instr} {w' : BitVec 64} {z : Bool} (hr : reservedOpcode op.toNat = false) (he : encode i = some w')
    (hl : Laid w op w' z) (hs : i.selects = true) : (Picked.ins i z).Reads w op := ⟨hr, ⟨w', he, hl⟩, fun _ _ _ => hs⟩

theorem Picked.reads_ite {p : Bool} {x y : Instr} {z : Bool} (hx : p = true → (Picked.ins x z).Reads w op)
    (hy : (!p) = true → (Picked.ins y z).Reads w op) : (Picked.ins (if p then x else y) z).Reads w op := by
  cases p
  · exact hy rfl
  · exact hx rfl

theorem Picked.reads_ofA {o : Option Instr} {z mbz : Bool} (hr : reservedOpcode op.toNat = false)
    (h : ∀ i, o = some i → (Picked.ins i z).Reads w op) : (Picked.ofA o z mbz).Reads w op := by
  cases o with
  | none => exact hr
  | some i => exact h i rfl

theorem pick36_reads (mbz : Bool) : (Picked.ofA (pick36 (unpackA w)) (field 12 0 w == 0#12) mbz).Reads w 0x36#8 := by
  refine Picked.reads_ofA rfl ?_
  unfold pick36
  split
  case h_9 => rintro i ⟨⟩
  all_goals
    rename_i heq
    rintro i ⟨⟩
    exact Picked.reads_ins rfl rfl .a (beq_iff_eq.2 (eq_ofNat_of_toNat_eq heq))

theorem pick38_reads (mbz : Bool) : (Picked.ofA (pick38 (unpackI w)) true mbz).Reads w 0x38#8 := by
  refine Picked.reads_ofA rfl ?_
  unfold pick38
  split
  case h_14 => rintro i ⟨⟩
  all_goals
    rename_i heq
    rintro i ⟨⟩
    exact Picked.reads_ins rfl rfl .i (beq_iff_eq.2 (eq_ofNat_of_toNat_eq heq))

theorem pick3D_reads (mbz : Bool) : (Picked.ofA (pick3D (unpackA w)) (field 12 0 w == 0#12) mbz).Reads w 0x3D#8 := by
  refine Picked.reads_ofA rfl ?_
  unfold pick3D
  split
  case h_4 => rintro i ⟨⟩
  all_goals
    rename_i heq
    rintro i ⟨⟩
    exact Picked.reads_ins rfl rfl .a (beq_iff_eq.2 (eq_ofNat_of_toNat_eq heq))

theorem pickC8_reads (mbz : Bool) : (Picked.ofA (pickC8 (unpackE w)) true mbz).Reads w 0xC8#8 := by
  refine Picked.reads_ofA rfl ?_
  unfold pickC8
  split
  case h_4 => rintro i ⟨⟩
  all_goals
    rename_i heq
    rintro i ⟨⟩
    exact Picked.reads_ins rfl rfl .e (beq_iff_eq.2 heq)

/-- A MOD of class S whose bits above the sub-operation are zero is its sub-operation. -/
theorem eq_ofNat_of_low3 {x : BitVec 26} {n : Nat} (hz : (x &&& ~~~7#26) = 0#26) (h : (x.extractLsb' 0 3).toNat = n) :
    x = BitVec.ofNat 26 n := by
  have hx : x = (x.extractLsb' 0 3).setWidth 26 := by
    apply BitVec.eq_of_getLsbD_eq
    intro i hi
    have hb := congrArg (·.getLsbD i) hz
    have h7 : (~~~7#26).getLsbD i = decide (3 ≤ i) := (by decide : ∀ i < 26, (~~~7#26).getLsbD i = decide (3 ≤ i)) i hi
    simp only [BitVec.getLsbD_and, h7, BitVec.getLsbD_zero] at hb
    simp only [BitVec.getLsbD_setWidth, BitVec.getLsbD_extractLsb', Nat.zero_add, hi, decide_true, Bool.true_and]
    by_cases h3 : i < 3
    · simp [h3]
    · simpa [h3, show 3 ≤ i by omega] using hb
  rw [hx, eq_ofNat_of_toNat_eq h]
  apply BitVec.eq_of_toNat_eq
  have := (x.extractLsb' 0 3).isLt
  simp
  omega

theorem mod_of_checkQ {f : ClassS} {c : Checks} (h : checkQ f .src 0x7#26 = c) (hz : c.mbz = true) : (f.mod &&& ~~~7#26) = 0#26 := by
  subst h
  simp only [checkQ, checkS, Bool.and_eq_true, beq_iff_eq] at hz
  exact hz.1.1.2

theorem pickQsw_reads (mbz : Bool) : (Picked.ofA (pickQsw (unpackS w)) true mbz).Reads w 0xE7#8 := by
  refine Picked.reads_ofA rfl ?_
  unfold pickQsw
  split
  case h_6 => rintro i ⟨⟩
  all_goals
    rename_i heq
    rintro i ⟨⟩
    exact ⟨rfl, ⟨_, rfl, .s⟩, fun _ hc hz => beq_iff_eq.2 (eq_ofNat_of_low3 (mod_of_checkQ (Option.some.inj hc) hz) heq)⟩

theorem pickSwr_reads : (Picked.ins (pickSwr (unpackS w)) true).Reads w 0xE1#8 := by
  unfold pickSwr
  split
  case h_12 =>
    refine Picked.reads_ins rfl rfl .s ?_
    simp_all [Instr.selects, ← BitVec.toNat_inj]
  case h_5 heq => exact Picked.reads_ins rfl rfl .s (by simp [Instr.selects, eq_ofNat_of_toNat_eq heq])
  case h_6 heq => exact Picked.reads_ins rfl rfl .s (by simp [Instr.selects, eq_ofNat_of_toNat_eq heq])
  case h_7 heq => exact Picked.reads_ins rfl rfl .s (by simp [Instr.selects, eq_ofNat_of_toNat_eq heq])
  all_goals
    rename_i heq
    exact Picked.reads_ins rfl rfl .s (beq_iff_eq.2 (eq_ofNat_of_toNat_eq heq))

end Reads

/-- R82, R83: what `pick` finds for a word, read off the word. -/
theorem pick_reads (w : BitVec 64) : (pick w).Reads w (opcodeOf w) := by
  unfold pick
  dsimp only
  generalize opcodeOf w = op
  split <;> rename_i heq
  any_goals obtain rfl := eq_ofNat_of_toNat_eq heq
  -- opcodes with one row
  any_goals exact Picked.reads_ins rfl rfl (by with_reducible constructor) rfl
  -- opcodes with a sub-operation field
  any_goals with_reducible exact pick36_reads _
  any_goals with_reducible exact pick38_reads _
  any_goals with_reducible exact pick3D_reads _
  any_goals with_reducible exact pickC8_reads _
  any_goals with_reducible exact pickQsw_reads _
  any_goals with_reducible exact pickSwr_reads
  -- opcodes whose rows one bit tells apart
  any_goals
    exact Picked.reads_ite (fun h => Picked.reads_ins rfl rfl (by with_reducible constructor) h)
      fun h => Picked.reads_ins rfl rfl (by with_reducible constructor) h
  -- the reserved opcodes
  exact trivial

/-! ## The static checks (R87) -/

theorem ite_succ_eq_zero {p : Prop} [Decidable p] {n m : Nat} : (if p then n + 1 else m) = 0 ↔ ¬p ∧ m = 0 := by
  by_cases h : p <;> simp [h]

/-- The G bit is one that the Forms column admits (R71). -/
def Checks.inForm (c : Checks) : Bool :=
  match c.forms with
  | .l => !c.h.g
  | .g => c.h.g
  | .lg => true

theorem Checks.formOk_eq (c : Checks) :
    c.formOk = (c.mbz && c.legal && !(c.h.pn && c.h.pi == 7#3) && c.inForm && (!c.h.t || (c.tOk && !c.h.g))) := rfl

theorem Checks.admitted_lintel (c : Checks) : c.admitted .lintel = (c.inForm && (c.h.g && c.lintel != .n)) := rfl

theorem Checks.admitted_vector (c : Checks) : c.admitted .vector = (c.inForm && (c.lintel != .only && !c.mxOnly)) := rfl

theorem Checks.inForm_of_admitted {c : Checks} {k : CoreKind} (h : c.admitted k = true) : c.inForm = true :=
  (Bool.and_eq_true_iff.1 h).1

/-- Checks 2 to 6 all pass: the word is well formed in its own right, the class's zero bits are zero, and the core admits it. -/
theorem Checks.code_eq_zero {c : Checks} {k : CoreKind} {z : Bool} :
    c.code k z = 0 ↔ c.formOk = true ∧ z = true ∧ c.admitted k = true := by
  have ha : c.admitted k = true → c.inForm = true := Checks.inForm_of_admitted
  simp only [Checks.code, ite_succ_eq_zero, Checks.formOk_eq, Bool.not_eq_true', Bool.and_eq_true, Bool.or_eq_true,
    Bool.eq_false_iff, ne_eq, and_true]
  tauto

theorem decode_of_pick_ins {k : CoreKind} {w : BitVec 64} {i j : Instr} {z : Bool} (h : pick w = .ins i z) :
    decode k w = .ok j ↔ i = j ∧ ∃ c, i.checks = some c ∧ c.code k z = 0 := by
  unfold decode
  rw [h]
  cases hc : i.checks with
  | none => simp [hc]
  | some c => by_cases h0 : c.code k z = 0 <;> simp [hc, h0]

/-- A word decodes to an instruction where the map has it in the word's row, and checks 2 to 6 pass. -/
theorem decode_eq_ok {k : CoreKind} {w : BitVec 64} {i : Instr} :
    decode k w = .ok i ↔ pick w = .ins i true ∧ ∃ c, i.checks = some c ∧ c.formOk = true ∧ c.admitted k = true := by
  constructor
  · intro h
    cases hp : pick w with
    | reserved => simp [decode, hp] at h
    | badSub m => simp [decode, hp] at h
    | ins j z =>
      obtain ⟨rfl, c, hc, h0⟩ := (decode_of_pick_ins hp).1 h
      obtain ⟨hf, rfl, ha⟩ := Checks.code_eq_zero.1 h0
      exact ⟨rfl, c, hc, hf, ha⟩
  · rintro ⟨hp, c, hc, hf, ha⟩
    exact (decode_of_pick_ins hp).2 ⟨rfl, c, hc, Checks.code_eq_zero.2 ⟨hf, rfl, ha⟩⟩

theorem wellFormed_of_checks {i : Instr} {c : Checks} (h : i.checks = some c) : i.wellFormed = (c.formOk && i.selects) := by
  simp [Instr.wellFormed, h]

/-- Settles O5, from what `pick` reads off a word. -/
theorem encodeOfDecode : Obligations.EncodeOfDecode := by
  intro k w i h
  obtain ⟨hp, c, hc, hf, ha⟩ := decode_eq_ok.1 h
  obtain ⟨-, ⟨w', he, hl⟩, hs⟩ : (Picked.ins i true).Reads w (opcodeOf w) := hp ▸ pick_reads w
  have hm : c.mbz = true := by simp_all [Checks.formOk]
  refine ⟨he.trans (congrArg some (hl.eq rfl)), ?_, c, hc, ha⟩
  simp [wellFormed_of_checks hc, hf, hs c hc hm]

/-- The part of O4 that holds, for the whole opcode map: a well-formed instruction is read back from its word on every kind of core that
admits it. -/
theorem decode_encode {i : Instr} {w : BitVec 64} {k : CoreKind} (hwf : i.wellFormed = true) (he : encode i = some w)
    (ha : admittedOn k i) : decode k w = .ok i := by
  obtain ⟨c, hc, ha⟩ := ha
  rw [wellFormed_of_checks hc, Bool.and_eq_true] at hwf
  exact decode_eq_ok.2 ⟨pick_encode hwf.2 he, c, hc, hwf.1, ha⟩

theorem encode_isSome {i : Instr} : (encode i).isSome = i.checks.isSome := by cases i <;> rfl

/-- The rows of lintel cores alone are group forms, and name no register that R181 speaks of. -/
theorem lintelOnly_of_checks {i : Instr} {c : Checks} (h : i.checks = some c) :
    (c.lintel != .only || (c.forms == .g && !c.mxOnly)) = true := by
  cases i <;> cases h <;> rfl

/-- A read of MXSTAT in the lane form. -/
def Instr.isLaneMxstat : Instr → Bool
  | .srd f => f.sreg.toNat == 0x40 && !f.h.g
  | _ => false

/-- SRD alone names a register that only a lintel core has, which is MXSTAT (R181); its group form is one for lintel cores too. -/
theorem mxOnly_of_checks {i : Instr} {c : Checks} (h : i.checks = some c) (hm : c.mxOnly = true) (hx : i.isLaneMxstat = false) :
    c.lintel = .y ∧ c.h.g = true := by
  cases i <;> cases h
  case srd f =>
    have hs : f.sreg.toNat = 0x40 := eq_of_beq hm
    have hg : f.h.g = true := by simpa [Instr.isLaneMxstat, hs] using hx
    exact ⟨rfl, hg⟩
  all_goals cases hm

/-- Some kind of core admits a well-formed instruction, but for a read of MXSTAT in the lane form: a vector core, or a lintel core where
the row or the register is the lintel core's. -/
theorem admittedOn_of_formOk {i : Instr} {c : Checks} (hc : i.checks = some c) (hf : c.formOk = true) (hx : i.isLaneMxstat = false) :
    ∃ k, admittedOn k i := by
  have hform : c.inForm = true := by simp_all [Checks.formOk_eq]
  have ho := lintelOnly_of_checks hc
  by_cases hl : c.lintel = .only
  · obtain ⟨hg, -⟩ : c.forms = .g ∧ c.mxOnly = false := by simpa [hl] using ho
    have hg : c.h.g = true := by simpa [Checks.inForm, hg] using hform
    exact ⟨.lintel, c, hc, by simp [Checks.admitted_lintel, hform, hg, hl]⟩
  · cases hm : c.mxOnly with
    | false => exact ⟨.vector, c, hc, by simp [Checks.admitted_vector, hform, hl, hm]⟩
    | true =>
      obtain ⟨hy, hg⟩ := mxOnly_of_checks hc hm hx
      exact ⟨.lintel, c, hc, by simp [Checks.admitted_lintel, hform, hg, hy]⟩

/-- O4 in full, but for a read of MXSTAT in the lane form. -/
theorem decode_encode_of_not_laneMxstat {i : Instr} {w : BitVec 64} (hwf : i.wellFormed = true) (he : encode i = some w)
    (hx : i.isLaneMxstat = false) : (∀ k, admittedOn k i → decode k w = .ok i) ∧ ∃ k, decode k w = .ok i := by
  obtain ⟨c, hc⟩ : ∃ c, i.checks = some c := Option.isSome_iff_exists.1 (encode_isSome ▸ Option.isSome_of_mem he)
  have hf : c.formOk = true := by simp_all [wellFormed_of_checks hc]
  obtain ⟨k, hk⟩ := admittedOn_of_formOk hc hf hx
  exact ⟨fun k => decode_encode hwf he, k, decode_encode hwf he hk⟩

/-- SRD of MXSTAT in the lane form: MXSTAT exists on lintel cores only, and a lintel core takes no lane form (R71, R181). -/
def laneMxstat : Instr := .srd { h := plain, sreg := 0x40#16, a := 0#6, mod := 0#26 }

/-- Refutes O4: a read of MXSTAT in the lane form is well formed, but no kind of core admits it (`laneMxstat`). -/
theorem not_decodeOfEncode : ¬ Obligations.DecodeOfEncode := by
  intro h
  obtain ⟨-, k, hk⟩ := h laneMxstat (packS 0xE0#8 { h := plain, sreg := 0x40#16, a := 0#6, mod := 0#26 }) (by decide) rfl
  obtain ⟨-, c, hc, -, ha⟩ := decode_eq_ok.1 hk
  cases hc
  cases k <;> exact absurd ha (by decide)

/-- Settles O6: the ten words, one by one. -/
theorem sampleWordsDecode : Obligations.SampleWordsDecode := by
  unfold Obligations.SampleWordsDecode
  decide

/-! ## Reserved opcodes and NOP (R82, R87, R88) -/

theorem opcodeOf_toNat (w : BitVec 64) : (opcodeOf w).toNat = w.toNat / 2 ^ 56 := by
  simp only [opcodeOf, field, BitVec.extractLsb'_toNat, Nat.shiftRight_eq_div_pow]
  have := w.isLt
  omega

/-- R82: a word of an opcode that the map does not assign. -/
theorem pick_of_reserved {w : BitVec 64} (h : reservedOpcode (opcodeOf w).toNat = true) : pick w = .reserved := by
  have hr := pick_reads w
  cases hp : pick w with
  | reserved => rfl
  | badSub m =>
    rw [hp] at hr
    exact absurd (h.symm.trans hr) (by decide)
  | ins i z =>
    rw [hp] at hr
    exact absurd (h.symm.trans hr.1) (by decide)

theorem reservedOpcodesFailCheckOne : ReservedOpcodesFailCheckOne := by
  have hr : ∀ (k : CoreKind) (w : BitVec 64), reservedOpcode (w.toNat / 2 ^ 56) = true → decode k w = .error 1 := by
    intro k w h
    rw [← opcodeOf_toNat] at h
    simp only [decode, pick_of_reserved h]
  refine ⟨hr, fun k hk => ?_, fun k => hr k _ (by decide)⟩
  cases k with
  | lintel => exact absurd rfl hk
  | vector => exact ⟨by decide, by decide⟩
  | firmware => exact ⟨by decide, by decide⟩

open Machine in
theorem malformedWordTraps : MalformedWordTraps := by
  intro s code hslot hst hdec
  simp only [State.fetchAt, if_neg (Nat.not_le.2 hslot), hst, hdec]

open Machine in
/-- Settles O7. -/
theorem malformedWords : Obligations.MalformedWords := ⟨reservedOpcodesFailCheckOne, malformedWordTraps, fun _ _ => rfl⟩

end Sys2Proof
end

section
/-! Address registers (R84, R126) and value waits (R77, R167): what the words do once nothing stops them. -/

namespace Sys2Proof.Machine

open Claims

/-! ## Group forms that change the gang -/

/-- A group form that nothing stops makes its change and goes on. -/
theorem State.groupDo_ready {s : State} {h : Header} {gs : List Nat} {f : Gang → Gang} (hr : s.groupGate h gs false false = none) :
    s.groupDo h gs f = s.done (s.setGang (f s.gang)) := by
  simp only [State.groupDo, hr]

/-! ## Address registers -/

theorem Gang.setAd_frame (g : Gang) (n : Nat) (x : VAddr) :
    g.setAd n x = { g with r := { g.r with ad := (g.setAd n x).r.ad, undo := (g.setAd n x).r.undo } } := rfl

theorem Gang.setG_frame (g : Gang) (n : Nat) (x : DWord) :
    g.setG n x = { g with r := { g.r with g := (g.setG n x).r.g, undo := (g.setG n x).r.undo } } := by
  unfold Gang.setG
  split <;> rfl

/-- The bits of an address above a 64-bit word, as a word. -/
theorem ushiftRight_setWidth_eq (x : VAddr) : (x >>> 64).setWidth 64 = (x.extractLsb' 64 8).setWidth 64 := by
  apply BitVec.eq_of_getLsbD_eq
  intro i hi
  simp only [BitVec.getLsbD_setWidth, BitVec.getLsbD_ushiftRight, BitVec.getLsbD_extractLsb', hi, decide_true, Bool.true_and]
  by_cases h8 : i < 8
  · simp [h8]
  · simp [h8, BitVec.getLsbD_of_ge x (64 + i) (by omega)]

/-- What ADSET leaves, once its value is known. -/
theorem adset_effect {s : State} {h : Header} {gs : List Nat} {d : Nat} {f : Gang → Gang} {v : VAddr}
    (hr : s.groupGate h gs false false = none) (hf : f s.gang = s.gang.setAd d v) :
    ∃ g', Host.Outcome.next (s.groupDo h gs f) = (.next (s.done (s.setGang g')) : Res) ∧
      g' = { s.gang with r := { s.gang.r with ad := g'.r.ad, undo := g'.r.undo } } ∧
      ∀ n, g'.adAt n = if n = d then v else s.gang.adAt n :=
  ⟨s.gang.setAd d v, by rw [State.groupDo_ready hr, hf], Gang.setAd_frame .., fun n => Gang.adAt_setAd ..⟩

/-- What ADGET leaves, once its value is known. -/
theorem adget_effect {s : State} {h : Header} {gs : List Nat} {d : Nat} {f : Gang → Gang} {v : DWord}
    (hr : s.groupGate h gs false false = none) (hf : f s.gang = s.gang.setG d v) :
    ∃ g', Host.Outcome.next (s.groupDo h gs f) = (.next (s.done (s.setGang g')) : Res) ∧
      g' = { s.gang with r := { s.gang.r with g := g'.r.g, undo := g'.r.undo } } ∧
      ∀ n, n < 32 → g'.gAt n = if n = d then v else s.gang.gAt n := by
  refine ⟨s.gang.setG d v, by rw [State.groupDo_ready hr, hf], Gang.setG_frame .., fun n hn => ?_⟩
  rw [Gang.gAt_setG]
  exact if_congr ⟨And.left, fun e => ⟨e, e ▸ hn⟩⟩ rfl rfl

/-- Settles O15. -/
theorem addressRegisters : Obligations.AddressRegisters := by
  intro s
  constructor
  · intro i h gs d v hi hr
    split at hi
    case h_5 => cases hi
    all_goals
      cases hi
      exact adset_effect hr rfl
  · intro i h d v hi hr
    split at hi
    case h_3 => cases hi
    case h_1 =>
      cases hi
      exact adget_effect hr rfl
    case h_2 =>
      cases hi
      exact adget_effect hr (congrArg _ (ushiftRight_setWidth_eq _))

/-! ## Value waits -/

/-- A number of `w` bits is read with its sign as a bit vector is. -/
theorem asInt_eq_toInt {w a : Nat} (hw : 0 < w) (ha : a < 2 ^ w) : asInt true w a = (BitVec.ofNat w a).toInt := by
  have h2 : 2 ^ w = 2 * 2 ^ (w - 1) := by rw [← Nat.pow_succ', Nat.succ_eq_add_one, Nat.sub_add_cancel hw]
  simp only [asInt, BitVec.toInt, BitVec.toNat_ofNat, Nat.mod_eq_of_lt ha, Bool.true_and, decide_eq_true_eq]
  push_cast
  split_ifs <;> omega

theorem asInt_eq_of_lt {w a : Nat} (ha : a < 2 ^ w) : asInt false w a = a := by
  simp [asInt, Nat.mod_eq_of_lt ha]

theorem waitCond_iff {code w a b : Nat} {signed : Bool} (hc : code < 6) {x y : Int} (hx : asInt signed w a = x)
    (hy : asInt signed w b = y) : waitCond code signed w a b = true ↔
      (code = 0 ∧ x = y) ∨ (code = 1 ∧ x ≠ y) ∨ (code = 2 ∧ x < y) ∨ (code = 3 ∧ x ≤ y) ∨ (code = 4 ∧ y < x) ∨ (code = 5 ∧ y ≤ x) := by
  subst hx hy
  unfold waitCond
  interval_cases code <;> simp

theorem waitConditions : WaitConditions := by
  intro code w a b signed hc hw ha hb x y
  apply waitCond_iff hc
  · cases signed
    · exact asInt_eq_of_lt ha
    · exact asInt_eq_toInt hw ha
  · cases signed
    · exact asInt_eq_of_lt hb
    · exact asInt_eq_toInt hw hb

/-- A read of one scratchpad place that carries no release joins nothing to the gang. -/
theorem State.syncRead_spad {s : State} {l t off scp ord n : Nat} {ea : VAddr} (h : s.tagsAt s.die (.spad t off) n = []) :
    s.syncRead 1 scp ord n [{ lane := l, ea := ea, loc := .spad t off }] = s := by
  have hn : s.newest 1 n { lane := l, ea := ea, loc := .spad t off } = true := rfl
  simp [State.syncRead, hn, h, State.syncTags]

/-- Changing the issuing gang alone. -/
theorem onlyGang_setGang (s : State) (g : Gang) : OnlyGang s (s.setGang g) g :=
  ⟨rfl, State.gang_setGang s g, fun _ hk => State.gangAt_setGang_ne s g hk⟩

/-- WAITV in the group form, with one place in a scratchpad: it takes the value, or waits for the line. -/
theorem execWaitv_spad {s : State} {f : ClassM} {ea : VAddr} {t off : Nat} (hg : f.h.g = true) (hsp : f.sp = 1#3)
    (hgate : s.groupGate f.h ([f.d.toNat] ++ indexG f) false false = none) (heng : s.engineGate = none) (hacc : s.accWaits = false)
    (hpt : s.gang.ptags = []) (htags : s.tagsAt s.die (.spad t off) (szBytes f.sz.toNat) = [])
    (hplan : s.plan 1 (szBytes f.sz.toNat) { r := true } true (s.accList f) =
      .go s [{ lane := 32, ea := ea, loc := .spad t off }]) {v : Nat}
    (hv : leNat (s.readLoc s.gk 1 (szBytes f.sz.toNat) { lane := 32, ea := ea, loc := .spad t off }) = v) {met : Bool}
    (hmet : waitCond f.waitCond.toNat (f.h.fx.getLsbD 1) (8 * szBytes f.sz.toNat) v (s.gang.gAt f.d.toNat).toNat = met) :
    execWaitv f s = .next (
      if met then s.done (s.setGang ({ s.gang.unprobe with hold := .no }.setG f.d.toNat (BitVec.ofNat 64 v)))
      else (s.setGang { s.gang.unprobe with hold := .waitv }).owe [.waitvReread s.gk]) := by
  have hsp : f.sp.toNat = 1 := by rw [hsp]; rfl
  have hnear : s.near s.die (szBytes f.sz.toNat) { lane := 32, ea := ea, loc := .spad t off } = true := rfl
  have hgate : s.memGate f [Use.of f.d (f.sz.toNat == 5)] [Use.of f.d (f.sz.toNat == 5)] [f.d.toNat] = none := by
    rw [State.memGate, if_pos hg, hgate]
  have htags := State.syncRead_spad (l := 32) (ea := ea) (scp := f.scp.toNat) (ord := f.ord.toNat) htags
  cases met <;>
    simp [-BitVec.getLsbD_eq_getElem, execWaitv, hgate, heng, hacc, hsp, hg, hplan, hnear, Loc.here, htags, hpt, State.syncTags, hv, hmet]

theorem waitForValue : WaitForValue := by
  refine ⟨?_, fun s k => ?_⟩
  · intro s f ea t off n v want met hg hsp hgate heng hacc hpt htags hplan
    have h := execWaitv_spad hg hsp hgate heng hacc hpt htags hplan (v := v) rfl (met := met) rfl
    exact ⟨fun hm => h.trans (by rw [hm]; rfl), fun hm => ⟨_, h.trans (by rw [hm]; rfl), onlyGang_setGang s _⟩⟩
  · exact congrArg Host.Outcome.next (if_congr beq_iff_eq rfl rfl)

/-- Settles O32. -/
theorem waitsForValues : Obligations.WaitsForValues := ⟨waitForValue, waitConditions⟩

end Sys2Proof.Machine
end

section
/-! Privileged words and queue commands (R85, R87, R220, R313, R318, R320). -/

namespace Sys2Proof.Machine

open Claims

/-! ## Privileged words off the firmware core -/

/-- Check 9 of a group form comes before its predicate. -/
theorem State.groupGate_priv {s : State} {h : Header} {gs : List Nat} (hb : gs.any s.gang.busyG = false) :
    s.groupGate h gs false true = some (s.trap 2 0#64) := by
  simp [State.groupGate, hb]

/-- Check 9 of a lane form comes before its predicate. -/
theorem State.laneGate_priv {s : State} {h : Header} {srcs dst : List Use} (hb : (srcs ++ dst).any s.gang.busyV = false)
    (hu : (srcs ++ dst).any s.gang.badUse = false) : s.laneGate h srcs dst false true = some (s.trap 2 0#64) := by
  simp only [State.laneGate, hb, hu, Bool.false_eq_true, if_false, if_true]

theorem State.queueCmd_priv {s : State} {f : ClassS} {gs : List Nat} {act : State → Nat → DWord → State}
    (hk : s.gang.kind ≠ .firmware) (hb : gs.any s.gang.busyG = false) : s.queueCmd f gs act = s.trap 2 0#64 := by
  have hp : (s.gang.kind != .firmware) = true := bne_iff_ne.2 hk
  simp only [State.queueCmd, hp, State.groupGate_priv hb]

/-- A register of the firmware's range is 64 bits wide. -/
theorem sregNarrow_of_firmware {n : Nat} (hn : 0x8000 ≤ n) : sregNarrow n = false := by
  have h0 : ¬ n < 7 := by omega
  have h1 : ¬ n < 0x30 := by omega
  have h2 : n ≠ 0x21 := by omega
  have h3 : n ≠ 0x52 := by omega
  simp [sregNarrow, h0, h1, h2, h3]

section Firmware

variable {s : State} {f : ClassS}

theorem State.srPriv_eq_true (hk : s.gang.kind ≠ .firmware) (hn : 0x8000 ≤ f.sreg.toNat) : s.srPriv f = true := by
  simp [State.srPriv, hn, hk]

theorem State.swrOne_priv_group {act : State → DWord → State} (hp : s.srPriv f = true) (hg : f.h.g = true)
    (hb : s.gang.busyG f.a.toNat = false) : s.swrOne f act = s.trap 2 0#64 := by
  have h := State.groupGate_priv (s := s) (h := f.h) (gs := [f.a.toNat]) (by simp [hb])
  simp only [State.swrOne, State.swr, hg, if_true, hp, h]

theorem State.swrOne_priv_lane {act : State → DWord → State} (hp : s.srPriv f = true) (hg : f.h.g = false)
    (hb : s.gang.busyV (Use.of f.a true) = false) (hu : s.gang.badUse (Use.of f.a true) = false) :
    s.swrOne f act = s.trap 2 0#64 := by
  have h := State.laneGate_priv (s := s) (h := f.h) (srcs := [Use.of f.a (!false)]) (dst := []) (by simp [hb]) (by simp [hu])
  simp only [State.swrOne, State.swr, hg, Bool.false_eq_true, if_false, hp, h]

theorem execSrd_priv_group (hp : s.srPriv f = true) (hg : f.h.g = true) (hb : s.gang.busyG f.a.toNat = false) :
    execSrd f s = .next (s.trap 2 0#64) := by
  have h := State.groupGate_priv (s := s) (h := f.h) (gs := [f.a.toNat]) (by simp [hb])
  simp only [execSrd, hg, if_true, hp, h]

theorem execSrd_priv_lane (hn : 0x8000 ≤ f.sreg.toNat) (hp : s.srPriv f = true) (hg : f.h.g = false)
    (hb : s.gang.busyV (Use.of f.a true) = false) (hu : s.gang.badUse (Use.of f.a true) = false) :
    execSrd f s = .next (s.trap 2 0#64) := by
  have h := State.laneGate_priv (s := s) (h := f.h) (srcs := []) (dst := [Use.of f.a (!sregNarrow f.sreg.toNat)])
    (by simp [sregNarrow_of_firmware hn, hb]) (by simp [sregNarrow_of_firmware hn, hu])
  simp only [execSrd, hg, Bool.false_eq_true, if_false, hp, h]

end Firmware

theorem privilegedWordsTrap : PrivilegedWordsTrap := by
  intro s f hk hb
  refine ⟨?_, fun hn hg => ?_, fun hn hg hv hu => ?_⟩
  · have hq : ∀ gs, gs = [f.a.toNat] ∨ gs = [] → ∀ act : State → Nat → DWord → State,
        (.next (s.queueCmd f gs act) : Res) = .next (s.trap 2 0#64) := by
      rintro gs (rfl | rfl) act <;> exact congrArg _ (State.queueCmd_priv hk (by simp [hb]))
    simp only [List.forall_mem_cons, List.not_mem_nil, false_imp_iff, implies_true, and_true]
    exact ⟨hq _ (.inl rfl) _, hq _ (.inr rfl) _, hq _ (.inl rfl) _, hq _ (.inl rfl) _, hq _ (.inl rfl) _, hq _ (.inl rfl) _,
      hq _ (.inl rfl) _⟩
  · have hp := State.srPriv_eq_true hk hn
    simp only [List.forall_mem_cons, List.not_mem_nil, false_imp_iff, implies_true, and_true]
    exact ⟨execSrd_priv_group hp hg hb, congrArg _ (State.swrOne_priv_group hp hg hb), congrArg _ (State.swrOne_priv_group hp hg hb)⟩
  · have hp := State.srPriv_eq_true hk hn
    simp only [List.forall_mem_cons, List.not_mem_nil, false_imp_iff, implies_true, and_true]
    exact ⟨execSrd_priv_lane hn hp hg hv hu, congrArg _ (State.swrOne_priv_lane hp hg hv hu),
      congrArg _ (State.swrOne_priv_lane hp hg hv hu)⟩

/-! ## Queue commands on the firmware core -/

section QueueCommands

variable {s : State} {f : ClassS} {gs : List Nat}

/-- The slot that a queue command names. -/
abbrev State.slotNamed (s : State) (f : ClassS) : Nat := 64 * s.die + f.sreg.toNat % 64

theorem State.queueCmd_ready {act : State → Nat → DWord → State} (h : cmdReady s f gs) :
    s.queueCmd f gs act = act s (s.slotNamed f) (s.gang.gAt f.a.toNat) := by
  obtain ⟨hk, hg⟩ := h
  have hp : (s.gang.kind != .firmware) = false := bne_eq_false_iff_eq.2 hk
  simp only [State.queueCmd, hp, hg]

theorem State.unmapThen_unbound {qk : Nat} {act : State → State} (h : (s.queueAt qk).bound = false) : s.unmapThen qk act = act s := by
  simp [State.unmapThen, h]

theorem State.unmapThen_waits {qk : Nat} {act : State → State} (h : (s.queueAt qk).bound = true)
    (hc : (s.stopQueue qk).onCores qk ≠ []) : s.unmapThen qk act = s.stopQueue qk := by
  simp [State.unmapThen, h, hc]

theorem State.unmapThen_unbinds {qk : Nat} {act : State → State} (h : (s.queueAt qk).bound = true)
    (hc : (s.stopQueue qk).onCores qk = []) : s.unmapThen qk act = act ((s.stopQueue qk).unbindQueue qk) := by
  simp [State.unmapThen, h, hc]

theorem execQmap_ready (h : cmdReady s f [f.a.toNat]) : execQmap f s = .next
    (if !s.descOk s.die (s.gang.gAt f.a.toNat).toNat then s.trap 20 (s.gang.gAt f.a.toNat)
      else s.unmapThen (s.slotNamed f) fun s' => s'.done (s'.bindQueue (s.slotNamed f) (s.gang.gAt f.a.toNat).toNat)) := by
  rw [execQmap, State.queueCmd_ready h]

theorem execQmap_badDescriptor (h : cmdReady s f [f.a.toNat]) (hd : s.descOk s.die (s.gang.gAt f.a.toNat).toNat = false) :
    execQmap f s = .next (s.trap 20 (s.gang.gAt f.a.toNat)) := by
  simp only [execQmap_ready h, hd, Bool.not_false, if_true]

theorem execQmap_maps (h : cmdReady s f [f.a.toNat]) (hd : s.descOk s.die (s.gang.gAt f.a.toNat).toNat = true) :
    execQmap f s = .next (s.unmapThen (s.slotNamed f) fun s' => s'.done (s'.bindQueue (s.slotNamed f) (s.gang.gAt f.a.toNat).toNat)) := by
  simp only [execQmap_ready h, hd, Bool.not_true, Bool.false_eq_true, if_false]

theorem execQunmap_ready (h : cmdReady s f []) :
    execQunmap f s = .next (s.unmapThen (s.slotNamed f) fun s => s.done s) := by
  rw [execQunmap, State.queueCmd_ready h]

/-! ### SUSPEND, RESUME and PRIO -/

theorem State.setSuspended_frame (s : State) (qk : Nat) (b : Bool) :
    s.setSuspended qk b = { s with queues := (s.setSuspended qk b).queues } := by
  unfold State.setSuspended
  dsimp only
  split <;> rfl

theorem State.queueAt_setSuspended (s : State) (qk k : Nat) (b : Bool) : (s.setSuspended qk b).queueAt k =
    if k = qk ∧ (s.queueAt qk).bound = true then { s.queueAt qk with suspended := b } else s.queueAt k := by
  unfold State.setSuspended
  by_cases hb : (s.queueAt qk).bound = true <;> by_cases hk : k = qk <;> simp [hb, hk]

theorem suspendOrResume (h : cmdReady s f [f.a.toNat]) {i : Instr} {b : Bool}
    (hi : (i = .qswSuspend f ∧ b = true) ∨ (i = .qswResume f ∧ b = false)) :
    exec i s = .next (s.done ((s.setSuspended (s.slotNamed f) b).owe (if b then [] else [.placementDecision (s.slotNamed f / 64)]))) := by
  rcases hi with ⟨rfl, rfl⟩ | ⟨rfl, rfl⟩
  · refine congrArg _ ((State.queueCmd_ready h).trans (congrArg s.done ?_))
    simp [State.owe]
  · exact congrArg _ (State.queueCmd_ready h)

/-- QPRI of a mapped queue. -/
def State.setPrio (s : State) (qk v : Nat) : State :=
  if (s.queueAt qk).bound then s.setQueueAt qk { s.queueAt qk with qpri := v } else s

theorem execQswPrio_ready (h : cmdReady s f [f.a.toNat]) : execQswPrio f s =
    .next (s.done (s.setPrio (s.slotNamed f) ((s.gang.gAt f.a.toNat).toNat % 4))) :=
  congrArg _ (State.queueCmd_ready h)

theorem State.setPrio_frame (s : State) (qk v : Nat) : s.setPrio qk v = { s with queues := (s.setPrio qk v).queues } := by
  unfold State.setPrio
  split <;> rfl

theorem State.queueAt_setPrio (s : State) (qk k v : Nat) : (s.setPrio qk v).queueAt k =
    if k = qk ∧ (s.queueAt qk).bound = true then { s.queueAt qk with qpri := v } else s.queueAt k := by
  unfold State.setPrio
  by_cases hb : (s.queueAt qk).bound = true <;> by_cases hk : k = qk <;> simp [hb, hk]

/-! ### PREEMPT -/

/-- The state in which PREEMPT looks whether the cohorts that ran are saved. -/
def State.preempting (s : State) (qk : Nat) : State :=
  if s.gang.hold = .command then s else (s.preempt qk).setGang { (s.preempt qk).gang with hold := .command }

theorem execQswPreempt_ready (h : cmdReady s f [f.a.toNat]) : execQswPreempt f s = .next
    (let w := s.preempting (s.slotNamed f)
     if (w.onCores (s.slotNamed f)).any fun c => (w.cohortAt c).preempt then w else w.done (w.setGang { w.gang with hold := .no })) := by
  refine congrArg _ ((State.queueCmd_ready h).trans ?_)
  have hw : (if s.gang.hold == .command then s
      else (s.preempt (s.slotNamed f)).setGang { (s.preempt (s.slotNamed f)).gang with hold := .command }) = s.preempting (s.slotNamed f) :=
    if_congr beq_iff_eq rfl rfl
  simp only [hw]

theorem execQswPreempt_waits (h : cmdReady s f [f.a.toNat])
    (hw : ∃ c ∈ (s.preempting (s.slotNamed f)).onCores (s.slotNamed f), ((s.preempting (s.slotNamed f)).cohortAt c).preempt = true) :
    execQswPreempt f s = .next (s.preempting (s.slotNamed f)) :=
  (execQswPreempt_ready h).trans (congrArg _ (if_pos (List.any_eq_true.2 hw)))

theorem execQswPreempt_saved (h : cmdReady s f [f.a.toNat])
    (hw : ∀ c ∈ (s.preempting (s.slotNamed f)).onCores (s.slotNamed f), ((s.preempting (s.slotNamed f)).cohortAt c).preempt = false) :
    execQswPreempt f s = .next ((s.preempting (s.slotNamed f)).done
      ((s.preempting (s.slotNamed f)).setGang { (s.preempting (s.slotNamed f)).gang with hold := .no })) := by
  refine (execQswPreempt_ready h).trans (congrArg _ (if_neg fun ha => ?_))
  obtain ⟨c, hc, hp⟩ := List.any_eq_true.1 ha
  exact absurd ((hw c hc).symm.trans hp) (by decide)

theorem State.preempt_idle {qk : Nat} (h : s.onCores qk = []) : s.preempt qk = s.owe [.placementDecision (qk / 64)] := by
  simp [State.preempt, h]

/-! ### KILL -/

theorem Queue.waitsFor_eq_true {q : Queue} {a : DWord} : q.waitsFor a = true ↔ ∃ p ∈ q.cohids, p.2 = a := by
  simp [Queue.waitsFor]

theorem execQswKill_ready (h : cmdReady s f [f.a.toNat]) : execQswKill f s = .next
    (let cs := s.cohortsNamed (s.slotNamed f) (s.gang.gAt f.a.toNat)
     if cs.isEmpty && !(s.queueAt (s.slotNamed f)).waitsFor (s.gang.gAt f.a.toNat) then s.trap 20 0#64
     else s.done ((cs.foldl (fun s c => s.kill c true none []) s).owe [.placementDecision (s.slotNamed f / 64)])) :=
  congrArg _ (State.queueCmd_ready h)

theorem execQswKill_unknown (h : cmdReady s f [f.a.toNat]) (hn : s.cohortsNamed (s.slotNamed f) (s.gang.gAt f.a.toNat) = [])
    (hc : ∀ p ∈ (s.queueAt (s.slotNamed f)).cohids, p.2 ≠ s.gang.gAt f.a.toNat) : execQswKill f s = .next (s.trap 20 0#64) := by
  have hw : (s.queueAt (s.slotNamed f)).waitsFor (s.gang.gAt f.a.toNat) = false := Bool.eq_false_iff.2 fun hw => by
    obtain ⟨p, hp, he⟩ := Queue.waitsFor_eq_true.1 hw
    exact hc p hp he
  simp only [execQswKill_ready h, hn, hw, List.isEmpty_nil, Bool.not_false, Bool.and_self, if_true]

theorem execQswKill_waiting (h : cmdReady s f [f.a.toNat]) (hn : s.cohortsNamed (s.slotNamed f) (s.gang.gAt f.a.toNat) = [])
    (hc : ∃ p ∈ (s.queueAt (s.slotNamed f)).cohids, p.2 = s.gang.gAt f.a.toNat) :
    execQswKill f s = .next (s.done (s.owe [.placementDecision (s.slotNamed f / 64)])) := by
  simp only [execQswKill_ready h, hn, Queue.waitsFor_eq_true.2 hc, Bool.not_true, Bool.and_false, Bool.false_eq_true, if_false,
    List.foldl_nil]

theorem execQswKill_cohort (h : cmdReady s f [f.a.toNat]) {c : Nat}
    (hn : s.cohortsNamed (s.slotNamed f) (s.gang.gAt f.a.toNat) = [c]) :
    execQswKill f s = .next (s.done ((s.kill c true none []).owe [.placementDecision (s.slotNamed f / 64)])) := by
  simp only [execQswKill_ready h, hn, List.isEmpty_cons, Bool.false_and, Bool.false_eq_true, if_false, List.foldl_cons,
    List.foldl_nil]

end QueueCommands

/-! ### A queue that is unbound -/

theorem State.queueAt_moveQueue_from (s : State) (a b : Nat) : (s.moveQueue a b).queueAt a = {} := by
  simp [State.queueAt, State.moveQueue]

theorem State.queueAt_moveQueue_to {a b : Nat} (s : State) (h : b ≠ a) : (s.moveQueue a b).queueAt b = s.queueAt a := by
  simp [State.queueAt, State.moveQueue, h]

theorem State.posts_moveQueue {a b : Nat} (s : State) (h : b ≠ a) : ∀ p ∈ (s.moveQueue a b).posts, p.queue ≠ a := by
  intro p hp
  obtain ⟨o, -, rfl⟩ := List.mem_map.1 (show p ∈ s.posts.map _ from hp)
  show (if o.queue = a then b else o.queue) ≠ a
  split
  · exact h
  · assumption

/-- Unbinding moves the queue, parked, to a key that no slot has. -/
theorem State.unbindQueue_eq (s : State) (qk : Nat) : ∃ t : State, (t.queueAt qk).parked = true ∧ (t.queueAt qk).bound = false ∧
    s.unbindQueue qk = ({ t with nextId := t.nextId + 1 } : State).moveQueue qk (64 * (4 * t.nextId + qk / 64)) := by
  unfold State.unbindQueue
  refine ⟨_, ?_, ?_, rfl⟩
  · rw [State.queueAt_setQueueAt, if_pos rfl]
  · rw [State.queueAt_setQueueAt, if_pos rfl]

theorem State.queueAt_unbindQueue (s : State) (qk : Nat) : (s.unbindQueue qk).queueAt qk = {} := by
  obtain ⟨t, -, -, ht⟩ := s.unbindQueue_eq qk
  rw [ht, State.queueAt_moveQueue_from]

/-- What the dispatcher keeps of an unbound queue, and the entries that wait for its rings, stand under the new key. -/
theorem State.unbindQueue_parks {s : State} {qk : Nat} (h : 1 < (s.unbindQueue qk).nextId) :
    (∀ p ∈ (s.unbindQueue qk).posts, p.queue ≠ qk) ∧
    let p := (s.unbindQueue qk).queueAt (64 * (4 * ((s.unbindQueue qk).nextId - 1) + qk / 64))
    p.parked = true ∧ p.bound = false := by
  obtain ⟨t, hpark, hbound, ht⟩ := s.unbindQueue_eq qk
  have hn : (s.unbindQueue qk).nextId = t.nextId + 1 := by rw [ht]; rfl
  have hb : 64 * (4 * t.nextId + qk / 64) ≠ qk := by omega
  rw [hn, Nat.add_sub_cancel, ht, State.queueAt_moveQueue_to _ hb]
  exact ⟨State.posts_moveQueue _ hb, hpark, hbound⟩

/-! ### What the checks of a launch read (R313) -/

theorem KMap.key_ne_of_mem_erase {α : Type} {m : KMap α} {k : Nat} {p : Nat × α} (h : p ∈ KMap.erase m k) : p.1 ≠ k := by
  induction m with
  | nil => cases h
  | cons q r ih =>
    obtain ⟨j, v⟩ := q
    rw [KMap.erase] at h
    split at h
    case isTrue => exact ih h
    case isFalse hj =>
      rcases List.mem_cons.1 h with rfl | h
      · exact Ne.symm hj
      · exact ih h

theorem KMap.mem_set {α : Type} [DecidableEq α] {d : α} {m : KMap α} {k : Nat} {a : α} {p : Nat × α}
    (h : p ∈ KMap.set d m k a) : p = (k, a) ∨ p ∈ m := by
  rw [KMap.set] at h
  split at h
  · exact .inr (KMap.mem_erase h)
  · exact KMap.mem_insert h

/-- What two states have in common that differ in their queues and in what is kept of the launches. -/
structure State.SameBase (s t : State) : Prop where
  due : t.due = s.due
  log : t.log = s.log
  mem : t.mem = s.mem
  dies : t.dies = s.dies
  badFrames : t.badFrames = s.badFrames
  cores : t.cores = s.cores
  modn : t.modn = s.modn

section SameBase

variable {s t u : State}

theorem State.SameBase.refl (s : State) : s.SameBase s := by
  constructor <;> rfl

theorem State.SameBase.trans (h : s.SameBase t) (h' : t.SameBase u) : s.SameBase u where
  due := h'.due.trans h.due
  log := h'.log.trans h.log
  mem := h'.mem.trans h.mem
  dies := h'.dies.trans h.dies
  badFrames := h'.badFrames.trans h.badFrames
  cores := h'.cores.trans h.cores
  modn := h'.modn.trans h.modn

theorem State.SameBase.symm (h : s.SameBase t) : t.SameBase s :=
  ⟨h.due.symm, h.log.symm, h.mem.symm, h.dies.symm, h.badFrames.symm, h.cores.symm, h.modn.symm⟩

theorem State.sameBase_setQueueAt (s : State) (k : Nat) (q : Queue) : s.SameBase (s.setQueueAt k q) := by
  constructor <;> rfl

theorem State.sameBase_endLaunch (s : State) (key : Nat) : s.SameBase (s.endLaunch key) := by
  constructor <;> rfl

variable (h : s.SameBase t) {qk : Nat} (hq : t.queueAt qk = s.queueAt qk)

include h hq

theorem State.qNat_congr : t.qNat qk = s.qNat qk := by
  funext a n
  have hx : t.xlQueue qk = s.xlQueue qk := by simp only [State.xlQueue, hq]
  simp only [State.qNat, State.vaNat, State.vaBytes, hx, State.lookup_congr h.log h.mem h.dies h.badFrames,
    State.byteHome_congr h.log h.mem]

theorem State.readLaunch_congr (lrec : Nat) : t.readLaunch qk lrec = s.readLaunch qk lrec := by
  simp only [State.readLaunch, State.qNat_congr h hq]

theorem State.shape_congr (l : Launch) : t.shape qk l = s.shape qk l := by
  funext c
  rw [State.shape, State.shape, State.qNat_congr h hq]

theorem State.readGroup_congr (l : Launch) (i : Nat) : t.readGroup qk l i = s.readGroup qk l i := by
  simp only [State.readGroup, State.qNat_congr h hq]

theorem State.gmapAt_congr (l : Launch) (cohid teamid : Nat) : t.gmapAt qk l cohid teamid = s.gmapAt qk l cohid teamid := by
  simp only [State.gmapAt, State.qNat_congr h hq, State.shape_congr h hq]

theorem State.badGroup_congr (l : Launch) : t.badGroup qk l = s.badGroup qk l := by
  funext i
  simp only [State.badGroup, State.readGroup_congr h hq, State.gmapAt_congr h hq, State.shape_congr h hq]

theorem State.readSwings_congr (l : Launch) : t.readSwings qk l = s.readSwings qk l := by
  simp only [State.readSwings, State.qNat_congr h hq]

omit hq in
theorem State.canFuse_congr (die : Nat) : t.canFuse die = s.canFuse die := by
  rw [State.canFuse, State.canFuse, h.cores]

theorem State.launchWhy_congr (l : Launch) : t.launchWhy qk l = s.launchWhy qk l := by
  rw [State.launchWhy, State.launchWhy, State.shape_congr h hq, State.canFuse_congr h, State.badGroup_congr h hq,
    State.readSwings_congr h hq]

end SameBase

/-! ### A module's first queue -/

/-- No queue but slot `qk` is mapped, and none is parked. -/
structure State.MapsOnly (s : State) (qk : Nat) : Prop where
  bound : ∀ p ∈ s.queues, p.2.bound = true → p.1 = qk
  parked : ∀ p ∈ s.queues, p.2.parked = false

section MapsOnly

variable {s t : State} {qk : Nat}

theorem State.mapsOnly_of_none (h : ∀ p ∈ s.queues, p.2.bound = false ∧ p.2.parked = false) : s.MapsOnly qk where
  bound p hp hb := absurd ((h p hp).1.symm.trans hb) (by decide)
  parked p hp := (h p hp).2

theorem State.MapsOnly.setQueueAt (h : s.MapsOnly qk) {q : Queue} (hq : q.parked = false) : (s.setQueueAt qk q).MapsOnly qk where
  bound p hp hb := by
    rcases KMap.mem_set hp with rfl | hp
    · rfl
    · exact h.bound p hp hb
  parked p hp := by
    rcases KMap.mem_set hp with rfl | hp
    · exact hq
    · exact h.parked p hp

theorem State.MapsOnly.endLaunch (h : s.MapsOnly qk) (key : Nat) : (s.endLaunch key).MapsOnly qk := by
  have hm : ∀ p ∈ (s.endLaunch key).queues, ∃ o ∈ s.queues, p.1 = o.1 ∧ p.2.bound = o.2.bound ∧ p.2.parked = o.2.parked := by
    intro p hp
    obtain ⟨o, ho, rfl⟩ := List.mem_map.1 (show p ∈ s.queues.map _ from hp)
    refine ⟨o, ho, ?_⟩
    split <;> exact ⟨rfl, rfl, rfl⟩
  constructor
  case bound =>
    intro p hp hb
    obtain ⟨o, ho, hk, hb', -⟩ := hm p hp
    exact hk.trans (h.bound o ho (hb'.symm.trans hb))
  case parked =>
    intro p hp
    obtain ⟨o, ho, -, -, hp'⟩ := hm p hp
    exact hp'.trans (h.parked o ho)

/-- With its one slot empty no queue runs a launch. -/
theorem State.MapsOnly.sameLaunch_cleared (h : s.MapsOnly qk) (key : Nat) : (s.setQueueAt qk {}).sameLaunch key = [] := by
  refine List.filter_eq_nil_iff.2 fun p hp => ?_
  have hp : p ∈ KMap.erase s.queues qk := by simpa [State.setQueueAt, KMap.set] using hp
  have hb : p.2.bound = false := Bool.eq_false_iff.2 fun hb => KMap.key_ne_of_mem_erase hp (h.bound p (KMap.mem_erase hp) hb)
  simp [hb, h.parked p (KMap.mem_erase hp)]

/-- The one queue mapped is the one of its launch on a die. -/
theorem State.MapsOnly.sameLaunch_die (h : s.MapsOnly qk) (hb : (s.queueAt qk).bound = true) (hr : (s.queueAt qk).refused = false)
    (hc : (s.queueAt qk).closed = false) (die : Nat) :
    ((s.sameLaunch (s.queueAt qk).key).any fun p => queueDie p.1 == die) = (queueDie qk == die) := by
  have hm : (qk, s.queueAt qk) ∈ s.queues := by
    refine (KMap.get_eq_or_mem {} s.queues qk).resolve_left fun e => ?_
    rw [State.queueAt, e] at hb
    cases hb
  refine Bool.eq_iff_iff.2 ⟨fun ha => ?_, fun hd => ?_⟩
  · obtain ⟨p, hp, hd⟩ := List.any_eq_true.1 ha
    obtain ⟨hp, hl⟩ := List.mem_filter.1 hp
    have hpb : p.2.bound = true := by
      have hpk := h.parked p hp
      simp_all
    exact h.bound p hp hpb ▸ hd
  · refine List.any_eq_true.2 ⟨_, List.mem_filter.2 ⟨hm, ?_⟩, hd⟩
    simp [hb, hr, hc]

theorem State.MapsOnly.placeUnsure_congr (hs : s.MapsOnly qk) (ht : t.MapsOnly qk) (h : s.SameBase t)
    (hq : t.queueAt qk = s.queueAt qk) (hb : (s.queueAt qk).bound = true) (hr : (s.queueAt qk).refused = false)
    (hc : (s.queueAt qk).closed = false) (l : Launch) : t.placeUnsure qk l = s.placeUnsure qk l := by
  have hd : ∀ die, ((t.sameLaunch (t.queueAt qk).key).any fun p => queueDie p.1 == die) =
      ((s.sameLaunch (s.queueAt qk).key).any fun p => queueDie p.1 == die) := fun die =>
    (ht.sameLaunch_die (hq ▸ hb) (hq ▸ hr) (hq ▸ hc) die).trans (hs.sameLaunch_die hb hr hc die).symm
  simp only [State.placeUnsure, State.qNat_congr h hq, h.modn, hd]

theorem State.buildGroups_frame (s : State) (qk : Nat) (l : Launch) :
    s.buildGroups qk l = { s with groups := (s.buildGroups qk l).groups } := by
  unfold State.buildGroups
  refine List.foldlRecOn (motive := fun t : State => t = { s with groups := t.groups }) _ _ rfl fun t ht i _ => ?_
  dsimp only
  split
  · exact ht
  · split
    · rw [State.setGroupAt, ht]
    · exact ht

/-- A queue whose launch no queue runs yet, and whose launch passes its checks: it is mapped with the record read, and served. -/
theorem State.admitLaunch_passes {q : Queue} {l : Launch} (hsame : s.sameLaunch q.key = [])
    (hl : (s.setQueueAt qk q).readLaunch qk q.lrec = l)
    (hu : (s.setQueueAt qk { q with launch := l }).placeUnsure qk l = false)
    (hw : (s.setQueueAt qk { q with launch := l }).launchWhy qk l = none) :
    ∃ sw ow, s.admitLaunch qk q =
      (((s.setQueueAt qk { q with launch := l }).setQueueAt qk { q with launch := l, swings := sw, owners := ow }).buildGroups
        qk l).serveQueue qk := by
  have hy : (s.setQueueAt qk { q with launch := l }).whyAt qk l = (none, s.setQueueAt qk { q with launch := l }) := by
    simp [State.whyAt, hu, hw]
  refine ⟨(s.setQueueAt qk { q with launch := l }).readSwings qk l, (s.setQueueAt qk { q with launch := l }).userCores (qk / 64), ?_⟩
  simp only [State.admitLaunch, hsame, hl, hy]

end MapsOnly

section FirstQueue

variable {s : State} {qk : Nat}

/-- The state that a binding checks: the new queue stands in its slot, and of a launch that starts anew nothing is kept. -/
def State.binding (s : State) (qk : Nat) (q : Queue) : State :=
  if (s.setQueueAt qk q).startsAnew qk q.key q.lrec then ((s.setQueueAt qk q).endLaunch q.key).setQueueAt qk q else s.setQueueAt qk q

theorem State.sameBase_binding (s : State) (qk : Nat) (q : Queue) : s.SameBase (s.binding qk q) := by
  have h := s.sameBase_setQueueAt qk q
  unfold State.binding
  split
  · exact (h.trans (State.sameBase_endLaunch _ _)).trans (State.sameBase_setQueueAt _ _ _)
  · exact h

theorem State.MapsOnly.binding (h : s.MapsOnly qk) {q : Queue} (hq : q.parked = false) : (s.binding qk q).MapsOnly qk := by
  unfold State.binding
  split
  · exact ((h.setQueueAt hq).endLaunch _).setQueueAt hq
  · exact h.setQueueAt hq

/-- Where nothing is parked, binding a queue takes its launch on. -/
theorem State.MapsOnly.bindQueue (h : s.MapsOnly qk) (a : Nat) : s.bindQueue qk a =
    ((s.binding qk (s.readQueue (qk / 64) a)).setQueueAt qk {}).admitLaunch qk (s.readQueue (qk / 64) a) := by
  have hf : (s.binding qk (s.readQueue (qk / 64) a)).queues.find? (fun p => p.2.parked && !p.2.closed && !p.2.refused &&
      queueDie p.1 == qk / 64 && p.2.key == (s.readQueue (qk / 64) a).key && p.2.rpool == (s.readQueue (qk / 64) a).rpool) = none :=
    List.find?_eq_none.2 fun p hp => by simp [(h.binding (q := s.readQueue (qk / 64) a) rfl).parked p hp]
  rw [State.binding] at hf ⊢
  simp only [State.bindQueue, hf]

theorem State.queueAt_serveGroups (s : State) (qk : Nat) (x : Queue) (l : Launch) :
    ((((s.setQueueAt qk x).buildGroups qk l).serveQueue qk).queueAt qk) = x := by
  rw [State.serveQueue, State.queueAt_owe, State.buildGroups_frame]
  exact (State.queueAt_setQueueAt s qk qk x).trans (if_pos rfl)

theorem State.mem_serveGroups (s : State) (qk : Nat) (x : Queue) (l : Launch) :
    (((s.setQueueAt qk x).buildGroups qk l).serveQueue qk).mem = s.mem := by
  rw [State.buildGroups_frame]
  rfl

theorem State.due_serveGroups (s : State) (qk : Nat) (x : Queue) (l : Launch) :
    (((s.setQueueAt qk x).buildGroups qk l).serveQueue qk).due =
      s.due ++ [.rootRecordMake (qk / 64) (qk % 64), .placementDecision (qk / 64)] := by
  rw [State.buildGroups_frame]
  rfl

/-- Where nothing is parked and no queue is mapped, the launch of a new queue is read and checked as if it stood in its slot from the
start. -/
theorem State.MapsOnly.admitLaunch_first (h : s.MapsOnly qk) {q : Queue} {l : Launch} (hp : q.parked = false) (hb : q.bound = true)
    (hr : q.refused = false) (hc : q.closed = false) (hl : (s.setQueueAt qk q).readLaunch qk q.lrec = l)
    (hw : ((s.setQueueAt qk q).setQueueAt qk { q with launch := l }).launchWhy qk l = none)
    (hu : ((s.setQueueAt qk q).setQueueAt qk { q with launch := l }).placeUnsure qk l = false) :
    ∃ u x, s.SameBase u ∧ x.bound = true ∧ x.desc = q.desc ∧ x.launch = l ∧
      ((s.binding qk q).setQueueAt qk {}).admitLaunch qk q = ((u.setQueueAt qk x).buildGroups qk l).serveQueue qk := by
  have hmt : ((s.binding qk q).setQueueAt qk {}).MapsOnly qk := (h.binding hp).setQueueAt rfl
  have hbt : s.SameBase ((s.binding qk q).setQueueAt qk {}) := (s.sameBase_binding qk q).trans (State.sameBase_setQueueAt _ _ _)
  have hsame := (h.binding hp).sameLaunch_cleared q.key
  generalize (s.binding qk q).setQueueAt qk {} = t at hmt hbt hsame ⊢
  have hset : ∀ x, (s.setQueueAt qk q).SameBase (t.setQueueAt qk x) := fun x =>
    (s.sameBase_setQueueAt qk q).symm.trans (hbt.trans (State.sameBase_setQueueAt _ _ _))
  have hlt : (t.setQueueAt qk q).readLaunch qk q.lrec = l := (State.readLaunch_congr (hset q) (by simp) _).trans hl
  obtain ⟨x, hx⟩ : ∃ x : Queue, x = { q with launch := l } := ⟨_, rfl⟩
  rw [← hx] at hw hu
  have hxp : x.parked = false := hx ▸ hp
  have hbase : ((s.setQueueAt qk q).setQueueAt qk x).SameBase (t.setQueueAt qk x) :=
    (State.sameBase_setQueueAt _ _ _).symm.trans (hset x)
  have hat : (t.setQueueAt qk x).queueAt qk = ((s.setQueueAt qk q).setQueueAt qk x).queueAt qk := by simp
  have hsx : ((s.setQueueAt qk q).setQueueAt qk x).queueAt qk = x := by simp
  have hwt := (State.launchWhy_congr hbase hat l).trans hw
  have hut := (((h.setQueueAt hp).setQueueAt hxp).placeUnsure_congr (hmt.setQueueAt hxp) hbase hat (by rw [hsx, hx]; exact hb)
    (by rw [hsx, hx]; exact hr) (by rw [hsx, hx]; exact hc) l).trans hu
  rw [hx] at hwt hut
  obtain ⟨sw, ow, he⟩ := State.admitLaunch_passes hsame hlt hut hwt
  refine ⟨_, _, ?_, ?_, ?_, ?_, he⟩
  · exact hbt.trans (State.sameBase_setQueueAt _ _ _)
  · exact hb
  · rfl
  · rfl

theorem State.readQueue_flags (s : State) (die a : Nat) : (s.readQueue die a).bound = true ∧ (s.readQueue die a).parked = false ∧
    (s.readQueue die a).refused = false ∧ (s.readQueue die a).closed = false ∧ (s.readQueue die a).desc = a :=
  ⟨rfl, rfl, rfl, rfl, rfl⟩

/-- The module's first queue, with a launch that passes its checks, is mapped and served. -/
theorem State.bindQueue_first (a : Nat) (h : ∀ p ∈ s.queues, p.2.bound = false ∧ p.2.parked = false) {q : Queue} {l : Launch}
    (hq : q = s.readQueue (qk / 64) a) (hl : (s.setQueueAt qk q).readLaunch qk q.lrec = l)
    (hw : ((s.setQueueAt qk q).setQueueAt qk { q with launch := l }).launchWhy qk l = none)
    (hu : ((s.setQueueAt qk q).setQueueAt qk { q with launch := l }).placeUnsure qk l = false) :
    ((s.bindQueue qk a).queueAt qk).bound = true ∧ ((s.bindQueue qk a).queueAt qk).desc = a ∧
      ((s.bindQueue qk a).queueAt qk).launch = l ∧ (s.bindQueue qk a).mem = s.mem ∧
      (s.bindQueue qk a).due = s.due ++ [.rootRecordMake (qk / 64) (qk % 64), .placementDecision (qk / 64)] := by
  have hm : s.MapsOnly qk := State.mapsOnly_of_none h
  obtain ⟨hb, hp, hr, hc, hd⟩ := s.readQueue_flags (qk / 64) a
  rw [← hq] at hb hp hr hc hd
  obtain ⟨u, x, hbase, hxb, hxd, hxl, he⟩ := hm.admitLaunch_first hp hb hr hc hl hw hu
  rw [hm.bindQueue a, ← hq, he, State.queueAt_serveGroups, State.mem_serveGroups, State.due_serveGroups, hbase.mem, hbase.due]
  exact ⟨hxb, hxd.trans hd, hxl, rfl, rfl⟩

end FirstQueue

/-! ## The obligation -/

theorem queueCommands : QueueCommands := by
  intro s f qk a q
  refine ⟨fun h => ⟨fun hd => ?_, fun hd hb => ?_, fun hd hb hc => ?_, fun i b hi => ?_, ?_, ⟨fun hw => ?_, fun hw => ?_⟩,
    State.preempt_idle, fun hn hc => ?_, fun hn hc => ?_, fun c hn => ?_⟩,
    fun h => ⟨fun hb => ?_, fun hb hc => ?_, fun hb hc => ?_⟩⟩
  · exact execQmap_badDescriptor h hd
  · exact ⟨_, (execQmap_maps h hd).trans (congrArg _ (State.unmapThen_unbound hb)), rfl,
      fun q1 hq h1 hw hu => State.bindQueue_first a.toNat h1 hq rfl hw hu⟩
  · exact (execQmap_maps h hd).trans (congrArg _ (State.unmapThen_waits hb hc))
  · refine ⟨_, suspendOrResume h hi, ?_, ?_, ?_, fun k hk => ?_⟩
    · rw [State.setSuspended_frame]; rfl
    · rw [State.setSuspended_frame]; rfl
    · simp [State.queueAt_setSuspended, q, qk]
    · rw [State.queueAt_owe, State.queueAt_setSuspended, if_neg fun e => hk e.1]
  · refine ⟨_, execQswPrio_ready h, State.setPrio_frame _ _ _, ?_, fun k hk => ?_⟩
    · simp [State.queueAt_setPrio, q, qk, a]
    · rw [State.queueAt_setPrio, if_neg fun e => hk e.1]
  · exact execQswPreempt_waits h hw
  · exact execQswPreempt_saved h hw
  · exact execQswKill_unknown h hn hc
  · exact execQswKill_waiting h hn hc
  · exact execQswKill_cohort h hn
  · exact (execQunmap_ready h).trans (congrArg _ (State.unmapThen_unbound hb))
  · exact (execQunmap_ready h).trans (congrArg _ (State.unmapThen_waits hb hc))
  · exact ⟨_, (execQunmap_ready h).trans (congrArg _ (State.unmapThen_unbinds hb hc)), rfl, State.queueAt_unbindQueue _ _,
      State.unbindQueue_parks⟩

/-- Settles O42: check 9 comes before the predicate, and each command's one change follows from its slot's queue. -/
theorem privilegedWords : Obligations.PrivilegedWords := ⟨privilegedWordsTrap, queueCommands⟩

end Sys2Proof.Machine
end

section
/-! Going on to the next word (R92), taking a trap (R115, R117, R218) and structured control (R96, R97). -/

namespace Sys2Proof.Machine

open Claims

/-! ## States that differ in the issuing gang alone -/

theorem onlyGang_trans {s t u : State} {g g' : Gang} (h : OnlyGang s t g) (h' : OnlyGang t u g') : OnlyGang s u g' := by
  obtain ⟨he, -, ho⟩ := h
  obtain ⟨he', hg', ho'⟩ := h'
  have hk : t.gk = s.gk := by rw [he]
  exact ⟨he'.trans (congrArg (fun x : State => { x with gangs := u.gangs }) he), hg',
    fun k h => (ho' k (hk ▸ h)).trans (ho k h)⟩

/-- The launch is that of the gang's team, which stands as it did. -/
theorem launch_of_onlyGang {s t : State} {g : Gang} (h : OnlyGang s t g) : t.launch = s.launchOf g.team := by
  have ht : t.launch = t.launchOf t.gang.team := rfl
  rw [ht, h.2.1, h.1]
  rfl

/-! ## Slices after a change of some of them -/

theorem KMap.get_foldl_update {α : Type} [DecidableEq α] (d : α) (f : α → α) {l : List Nat} (hn : l.Nodup) (m : KMap α) (j : Nat) :
    KMap.get d (l.foldl (fun m n => KMap.set d m n (f (KMap.get d m n))) m) j =
      if j ∈ l then f (KMap.get d m j) else KMap.get d m j := by
  induction l generalizing m with
  | nil => rfl
  | cons a r ih =>
    obtain ⟨ha, hr⟩ := List.nodup_cons.1 hn
    rw [List.foldl_cons, ih hr, KMap.get_set]
    by_cases hj : j = a
    · subst hj; simp [ha]
    · simp [hj]

theorem Gang.sliceAt_onSlices (g : Gang) {l : List Nat} (hn : l.Nodup) (f : Slice → Slice) (n : Nat) :
    (g.onSlices l f).sliceAt n = if n ∈ l then f (g.sliceAt n) else g.sliceAt n :=
  (KMap.get_foldl_update ({} : Slice) f hn g.slices n :)

theorem Gang.setPart_eq (g : Gang) (l : List Nat) : g.setPart l = g.onSlices l fun x => { x with part := l.headD 0 } := by
  cases l <;> rfl

theorem Gang.mem_liveSlices {g : Gang} {n : Nat} : n ∈ g.liveSlices ↔ n < 8 ∧ g.liveSlice n = true := by
  simp [Gang.liveSlices]

theorem Gang.liveSlices_nodup (g : Gang) : g.liveSlices.Nodup := List.nodup_range.filter _

theorem Gang.present_of_liveSlice {g : Gang} {n : Nat} (h : g.liveSlice n = true) : (g.sliceAt n).present = true :=
  (Bool.and_eq_true _ _ ▸ h).1

/-! ## Taking a trap -/

/-- A trap of a gang with a handler changes that gang alone: the record is written and the handler entered. -/
theorem onlyGang_takeTrap {s : State} (x : TrapInfo) (h : HasHandler s) :
    OnlyGang s (s.takeTrap x) ((s.gang.record x).enterHandler (s.launch.hent.setWidth 18)) := by
  obtain ⟨⟨ha, hr⟩, hk, hh, he⟩ := h
  rw [State.takeTrap_handler ha hk hh hr hk he]
  exact onlyGang_trans (onlyGang_setGang s _) (onlyGang_setGang (s.setGang (s.gang.record x)) _)

/-- Where the slices stand in the handler: the live ones as one part at its entry, the others as before. -/
theorem Gang.sliceAt_enterHandler (g : Gang) (a : IAddr) (n : Nat) :
    (g.enterHandler a).sliceAt n = if n ∈ g.liveSlices then
      { present := (g.sliceAt n).present, pc := a, depth := 0#8, part := g.liveSlices.headD 0 }
      else g.sliceAt n := by
  have hn := g.liveSlices_nodup
  rw [Gang.enterHandler, Gang.setPart_eq, Gang.sliceAt_onSlices _ hn, Gang.sliceAt_onSlices _ hn]
  by_cases h : n ∈ g.liveSlices
  · simp only [h, if_true]; rfl
  · simp only [h, if_false]; rfl

theorem Gang.enterHandler_eq (g : Gang) (a : IAddr) :
    g.enterHandler a = { g with
      slices := (g.enterHandler a).slices, shadow := some { slices := g.slices, cnt := g.cnt }, hstate := true, cnt := []
      bypFull := 0#24, sysOld := if g.sysn = 0 then none else some (g.sysn, g.svent), sysn := 0, svent := 0#64 } := by
  rw [Gang.enterHandler, Gang.setPart_eq]; rfl

theorem Gang.enterHandler_ahead (g : Gang) (a : IAddr) : (g.enterHandler a).ahead = g.ahead := by
  rw [Gang.enterHandler_eq]

theorem Gang.enterHandler_rel (g : Gang) (a : IAddr) : (g.enterHandler a).rel = g.rel := by
  rw [Gang.enterHandler_eq]

theorem lowSlice_lt (m : Word) : lowSlice m < 8 := by
  have h : ((lowest fun l => m.getLsbD l).getD 0) < 32 := by
    cases hl : lowest fun l => m.getLsbD l with
    | none => simp
    | some l => exact mem_lanes.1 (List.mem_of_find?_eq_some hl)
  unfold lowSlice
  omega

theorem Gang.record_tcause_toNat (g : Gang) (x : TrapInfo) : (g.record x).tcause.toNat =
    x.cause % 256 + x.dcode % 16 * 256 + lowSlice x.lanes * 4096 + x.aux % 4096 * 65536 := by
  have h := lowSlice_lt x.lanes
  simp only [Gang.record, BitVec.toNat_ofNat]
  omega

/-- Settles O11, by what taking a trap changes of the gang and of its slices. -/
theorem trapEntersHandler : Obligations.TrapEntersHandler := by
  intro s x h
  have ho := onlyGang_takeTrap x h
  have hg := ho.2.1
  have hs := fun n => (congrArg (Gang.sliceAt · n) hg).trans (Gang.sliceAt_enterHandler ..)
  rw [Gang.enterHandler_eq] at hg
  refine ⟨⟨ho.1, rfl, ho.2.2⟩, (congrArg (·.tcause.toNat) hg).trans (Gang.record_tcause_toNat s.gang x),
    (congrArg Gang.tpc hg :), (congrArg Gang.tinfo hg :), (congrArg Gang.tlanes hg :), (congrArg Gang.hstate hg :),
    (congrArg Gang.shadow hg :), (congrArg Gang.bypFull hg :), fun l => (congrArg (Gang.cntAt · l) hg :), fun n hn => ?_,
    fun n h8 hn => ?_, ?_⟩
  · exact (hs n).trans (if_neg fun hm => Bool.eq_false_iff.1 hn (Gang.mem_liveSlices.1 hm).2)
  · have hm : n ∈ (s.gang.record x).liveSlices := Gang.mem_liveSlices.2 ⟨h8, hn⟩
    have hp : ((s.gang.record x).sliceAt n).present = true := Gang.present_of_liveSlice hn
    rw [hs n, if_pos hm, hp]
    rfl
  · rw [hg]
    rfl

/-! ## Going on -/

theorem Gang.tick_of_ahead_none {g : Gang} (h : g.ahead = none) : g.tick = g := by
  simp only [Gang.tick, h]

/-- Going on from a word that is not the last of its slot. -/
theorem State.advance_of_midSlot {e : State} (ha : e.gang.ahead = none) (hm : MidSlot e) : e.advance = movedOn e := by
  simp only [State.advance, State.advancePart, State.advanceFrom, show lastWord (e.gang.pcOf e.pt) = false from hm]
  rw [Gang.tick_of_ahead_none (g := e.gang.setPc _ _) ha]
  rfl

/-- The segment-cross trap past the last word of a slot (R92). -/
def crossTrap (e : State) : TrapInfo :=
  { cause := 11, lanes := e.gang.trapLanes e.pt, info := (nextPc e.pc).setWidth 64, pc := nextPc e.pc }

/-- Going on from the last word of a slot: the word's effect is complete when the trap is taken (R92). -/
theorem State.advance_of_lastWord {e : State} (ha : e.gang.ahead = none) (hm : ¬ MidSlot e) :
    e.advance = (movedOn e).takeTrap (crossTrap e) := by
  simp only [State.advance, State.advancePart, State.advanceFrom,
    show lastWord (e.gang.pcOf e.pt) = true from Bool.of_not_eq_false hm]
  rw [Gang.tick_of_ahead_none (g := e.gang.setPc _ _) ha]
  rfl

/-- Going on ends with the advance where that leaves neither run-ahead nor a region. -/
theorem State.done_eq_advance {s e : State} {g : Gang} (h : OnlyGang e e.advance g) (ha : g.ahead = none) (hr : g.rel = none) :
    s.done e = e.advance := State.done_settled (h.2.1 ▸ ha) (h.2.1 ▸ hr)

theorem onlyGang_movedOn (e : State) : OnlyGang e (movedOn e) (e.gang.setPc (e.gang.partSlices e.pt) (nextPc e.pc)) :=
  onlyGang_setGang e _

/-- Settles O10, by the two cases of a slot's last word. -/
theorem goingOn : Obligations.GoingOn := by
  intro s e ha hr
  have hm := onlyGang_movedOn e
  refine ⟨fun hmid => ?_, fun hlast hk hh he => ?_⟩
  · have h := State.advance_of_midSlot ha hmid
    rw [← h] at hm
    exact (State.done_eq_advance hm ha hr).trans h
  · have h := State.advance_of_lastWord ha hlast
    have hl : (movedOn e).launch = e.launchOf e.gang.team := (launch_of_onlyGang hm).trans rfl
    have hh : HasHandler (movedOn e) := by
      rw [HasHandler, Settled, hm.2.1, hl]
      exact ⟨⟨ha, hr⟩, hk, hh, he⟩
    have ho := onlyGang_trans hm (onlyGang_takeTrap (crossTrap e) hh)
    rw [hm.2.1, hl, ← h] at ho
    rw [State.done_eq_advance ho ((Gang.enterHandler_ahead ..).trans ha) ((Gang.enterHandler_rel ..).trans hr)]
    exact ho


/-! ## Structured control (R96, R97) -/

section StructuredControl

variable {s : State} {g : Gang} {p : Nat} {upd : Nat → Nat → Nat}

theorem sameSlot_iff {pc : IAddr} {disp : BitVec 24} : SameSlot pc disp ↔ crosses pc disp = false := by
  simp [crosses, SameSlot, slotOf]

theorem KMap.get_foldl_set {α : Type} [DecidableEq α] (d : α) (f : Nat → α) (l : List Nat) (m : KMap α) (j : Nat) :
    KMap.get d (l.foldl (fun m n => KMap.set d m n (f n)) m) j = if j ∈ l then f j else KMap.get d m j := by
  induction l generalizing m with
  | nil => rfl
  | cons a r ih =>
    rw [List.foldl_cons, ih, KMap.get_set]
    by_cases hj : j = a <;> simp [hj]

theorem Gang.recount_of_over (h : ∃ l, l < 32 ∧ g.partLane p l = true ∧ 63 < upd l (g.cntAt l).toNat) : g.recount p upd = none := by
  obtain ⟨l, hl, hp, hu⟩ := h
  have ho : (lanes.filter (g.partLane p)).any (fun l => 63 < upd l (g.cntAt l).toNat) = true :=
    List.any_eq_true.2 ⟨l, List.mem_filter.2 ⟨mem_lanes.2 hl, hp⟩, decide_eq_true hu⟩
  simp only [Gang.recount, ho, if_true]

theorem Gang.recount_of_fits (h : ∀ l, l < 32 → g.partLane p l = true → upd l (g.cntAt l).toNat ≤ 63) :
    ∃ g', g.recount p upd = some g' ∧ Recounted p g g' upd := by
  have ho : (lanes.filter (g.partLane p)).any (fun l => 63 < upd l (g.cntAt l).toNat) = false := by
    refine List.any_eq_false.2 fun l hl => ?_
    obtain ⟨hl, hp⟩ := List.mem_filter.1 hl
    simpa using h l (mem_lanes.1 hl) hp
  refine ⟨_, by simp only [Gang.recount, ho, Bool.false_eq_true, if_false]; rfl, rfl, fun l hl => ?_⟩
  simp only [Gang.cntAt, KMap.get_foldl_set, List.mem_filter, mem_lanes, hl, true_and]
  split
  · rename_i hp
    exact (BitVec.toNat_ofNat _ _).trans (Nat.mod_eq_of_lt (Nat.lt_succ_of_le (h l hl hp)))
  · rfl

/-- Where no run-ahead and no region is under way the release buffer stops nothing. -/
theorem State.within_settled {s t : State} (ha : t.gang.ahead = none) (hr : t.gang.rel = none) : s.within t = t := by
  simp [State.within, ha, hr]

theorem onlyGang_refl (s : State) : OnlyGang s s s.gang := ⟨rfl, rfl, fun _ _ => rfl⟩

/-- The part jumps from a gang that has taken the instruction's effect. -/
theorem onlyGang_jumpTo {t : State} (h : OnlyGang s t g) (ha : g.ahead = none) (hr : g.rel = none) {sl : List Nat}
    (hp : g.partSlices s.pt = sl) (a : IAddr) : OnlyGang s (s.jumpTo t sl a) (jumped s g a) := by
  subst hp
  have hg := h.2.1
  have ht : (g.jump (g.partSlices s.pt) a).tick = jumped s g a := Gang.tick_of_ahead_none ha
  have hj : s.jumpTo t (g.partSlices s.pt) a = t.setGang (jumped s g a) := by
    rw [State.jumpTo, hg, ht]
    exact State.within_settled (by rw [State.gang_setGang]; exact ha) (by rw [State.gang_setGang]; exact hr)
  rw [hj]
  exact onlyGang_trans h (onlyGang_setGang t _)

/-- A change of counters, then a jump of the part. -/
theorem onlyGang_jump_recounted {g' : Gang} (h : Recounted s.pt s.gang g' upd) (hs : Settled s) (a : IAddr) :
    OnlyGang s (s.jumpTo (s.setGang g') (s.gang.partSlices s.pt) a) (jumped s g' a) :=
  onlyGang_jumpTo (onlyGang_setGang s g') (by rw [h.1]; exact hs.1) (by rw [h.1]; exact hs.2) (by rw [h.1]; rfl) a

/-- The structured instructions that change counters by one rule and then skip if idle. -/
theorem exec_of_counterRule {i : Instr} {f : ClassB} (h : counterRule i s.gang = some (f, upd)) :
    ∃ u, exec i s = .next (s.structured f u) ∧ u s.gang = upd := by
  unfold counterRule at h
  split at h <;> cases h
  all_goals refine ⟨_, rfl, ?_⟩
  case h_5 | h_6 =>
    funext l c
    simp only [updLeave, Bool.and_eq_true, decide_eq_true_eq]
  all_goals rfl


theorem State.structured_over {f : ClassB} {u : Gang → Nat → Nat → Nat} (h : s.gang.recount s.pt (u s.gang) = none) :
    s.structured f u = s.trapLanes 6 (maskOf fun l => s.gang.partLane s.pt l && 63 < u s.gang l (s.gang.cntAt l).toNat) 0#64 := by
  simp only [State.structured, h, Gang.overLanes]

theorem State.structured_goesOn {f : ClassB} {u : Gang → Nat → Nat → Nat} {g' : Gang} (h : s.gang.recount s.pt (u s.gang) = some g')
    (ha : g'.anyActive s.pt = true) : s.structured f u = s.done (s.setGang g') := by
  have hi : g'.idle s.pt = false := congrArg not ha
  simp only [State.structured, h, hi, Bool.false_eq_true, if_false]

/-- A jump of the part within its slot, or the trap of one that would leave it (R92, R97). -/
def State.skip (s : State) (disp : BitVec 24) (g' : Gang) : State :=
  if crosses s.pc disp then s.segTrap 11 (relTarget s.pc disp)
  else s.jumpTo (s.setGang g') (s.gang.partSlices s.pt) (relTarget s.pc disp)

theorem State.skip_in {disp : BitVec 24} {g' : Gang} (h : SameSlot s.pc disp) (hc : Recounted s.pt s.gang g' upd) (hs : Settled s) :
    OnlyGang s (s.skip disp g') (jumped s g' (target s.pc disp)) := by
  rw [State.skip, if_neg (ne_true_of_eq_false (sameSlot_iff.1 h))]
  exact onlyGang_jump_recounted hc hs _

theorem State.skip_out {disp : BitVec 24} {g' : Gang} (h : ¬ SameSlot s.pc disp) :
    s.skip disp g' = s.trap 11 ((target s.pc disp).setWidth 64) := by
  rw [State.skip, if_pos (Bool.of_not_eq_false (mt sameSlot_iff.2 h))]
  rfl

theorem State.structured_skips {f : ClassB} {u : Gang → Nat → Nat → Nat} {g' : Gang} (h : s.gang.recount s.pt (u s.gang) = some g')
    (ha : g'.anyActive s.pt = false) : s.structured f u = s.skip f.disp g' := by
  have hi : g'.idle s.pt = true := congrArg not ha
  simp only [State.structured, h, hi, if_true, State.skip]

theorem structuredCounters : StructuredCounters := by
  intro s i f upd hi
  obtain ⟨u, he, rfl⟩ := exec_of_counterRule hi
  rw [he]
  refine ⟨fun ho => ?_, fun hf => ?_⟩
  · rw [State.structured_over (Gang.recount_of_over ho)]
  · obtain ⟨g', hr, hc⟩ := Gang.recount_of_fits hf
    refine ⟨g', hc, fun ha => ?_, fun ha hsl hs => ⟨_, rfl, ?_⟩, fun ha hsl => ?_⟩
    · rw [State.structured_goesOn hr ha]
    · rw [State.structured_skips hr ha]
      exact State.skip_in hsl hc hs
    · rw [State.structured_skips hr ha, State.skip_out hsl]

/-- A counter has six bits. -/
theorem cntAt_le (g : Gang) (l : Nat) : (g.cntAt l).toNat ≤ 63 := Nat.le_of_lt_succ (g.cntAt l).isLt

theorem endloopGoesRoundOrLeaves : EndloopGoesRoundOrLeaves := by
  intro s f
  obtain ⟨g1, hr, hc⟩ := Gang.recount_of_fits (g := s.gang) (p := s.pt) (upd := fun _ c => updEndloop1 c) fun l _ _ => by
    have := cntAt_le s.gang l
    unfold updEndloop1
    split <;> omega
  obtain ⟨g2, hr2, hc2⟩ := Gang.recount_of_fits (g := g1) (p := s.pt) (upd := fun _ c => updEndloop2 c) fun l _ _ => by
    have := cntAt_le g1 l
    unfold updEndloop2
    split <;> omega
  have hround : g1.anyActive s.pt = true → exec (.endloop f) s = .next (s.skip f.disp g1) := fun ha => by
    have hi : g1.idle s.pt = false := congrArg not ha
    show execEndloop f s = _
    simp only [execEndloop, hr, hi, Bool.not_false, if_true, State.skip]
  refine ⟨g1, hc, fun ha hsl hs => ⟨_, hround ha, State.skip_in hsl hc hs⟩, fun ha hsl => ?_, fun ha => ⟨g2, hc2, ?_⟩⟩
  · rw [hround ha, State.skip_out hsl]
  · have hi : g1.idle s.pt = true := congrArg not ha
    show execEndloop f s = _
    simp only [execEndloop, hr, hr2, hi, Bool.not_true, Bool.false_eq_true, if_false]

end StructuredControl

/-- Settles O19: every form is one update of the lanes' counters and then one jump or one step. -/
theorem structuredControl : Obligations.StructuredControl := ⟨structuredCounters, endloopGoesRoundOrLeaves⟩

end Sys2Proof.Machine
end

section
/-! The checks of an access (R150, R151, R237): their order, and the trap of the first that some lane fails. -/

namespace Sys2Proof.Machine

open Claims

/-! ## What the checks leave of a gang -/

/-- `t` has the issuing gang of `s`, and each gang is of the kind it was: what translation and the fill of a stack line keep. -/
structure State.SameKinds (s t : State) : Prop where
  gk : t.gk = s.gk
  kind : ∀ k, (t.gangAt k).kind = (s.gangAt k).kind

section SameKinds

variable {s t u : State}

theorem State.SameKinds.refl : s.SameKinds s := ⟨rfl, fun _ => rfl⟩

theorem State.SameKinds.trans (h : s.SameKinds t) (h' : t.SameKinds u) : s.SameKinds u :=
  ⟨h'.gk.trans h.gk, fun k => (h'.kind k).trans (h.kind k)⟩

theorem State.SameKinds.ite {c : Prop} [Decidable c] (h : s.SameKinds t) (h' : s.SameKinds u) : s.SameKinds (if c then t else u) := by
  split
  · exact h
  · exact h'

theorem State.SameKinds.foldl {α : Type} {f : State → α → State} {l : List α} (hf : ∀ (t : State) a, t.SameKinds (f t a)) :
    s.SameKinds (l.foldl f s) := by
  induction l generalizing s with
  | nil => exact .refl
  | cons a r ih => exact .trans (hf s a) ih

/-- A change of tables other than the gangs'. -/
theorem State.SameKinds.of_gangs (hk : t.gk = s.gk) (hg : t.gangs = s.gangs) : s.SameKinds t :=
  ⟨hk, fun k => by rw [State.gangAt, hg]; rfl⟩

theorem State.SameKinds.setGangAt {k : Nat} {g : Gang} (h : g.kind = (s.gangAt k).kind) : s.SameKinds (s.setGangAt k g) := by
  refine ⟨rfl, fun j => ?_⟩
  rw [State.gangAt_setGangAt]
  split
  · rename_i hj; rw [hj, h]
  · rfl

theorem State.SameKinds.noteRead {d : Nat} {pas : List Nat} : s.SameKinds (s.noteRead d pas) := .ite .refl (.of_gangs rfl rfl)

theorem State.SameKinds.ageTlb {x : Xl} {va : Nat} : s.SameKinds (s.ageTlb x va) :=
  .foldl fun _ _ => .ite (.of_gangs rfl rfl) (.of_gangs rfl rfl)

theorem State.SameKinds.xlate {x : Xl} {va : Nat} : s.SameKinds (s.xlate x va).2 := by
  unfold State.xlate
  extract_lets
  split
  · exact .trans .ageTlb (.of_gangs rfl rfl)
  · exact .ageTlb

theorem State.SameKinds.of_snd {α : Type} {p : α × State} {a : α} (e : p = (a, t)) (h : s.SameKinds p.2) : s.SameKinds t := by
  rw [e] at h
  exact h

theorem State.SameKinds.checkG {x : Xl} {n : Need} {va : VAddr} : s.SameKinds (s.checkG x n va).2 := by
  unfold State.checkG
  extract_lets
  split
  · exact .refl
  · split <;> rename_i e <;> exact .of_snd e .xlate

theorem State.SameKinds.fillStack {gk line : Nat} : s.SameKinds (s.fillStack gk line) := by
  refine .trans (.setGangAt ?_) .noteRead
  rfl

theorem State.SameKinds.checkAcc {gk sp n : Nat} {nd : Need} {ea : VAddr} : s.SameKinds (s.checkAcc gk sp n nd ea).2 := by
  unfold State.checkAcc
  extract_lets
  split
  · split
    · exact .checkG
    · exact .refl
  · split
    · exact .refl
    · split
      · exact .refl
      · split
        · exact .refl
        · split <;> rename_i e
          · split
            · exact .ite (.of_snd e .xlate) (.trans (.of_snd e .xlate) .fillStack)
            · exact .of_snd e .xlate
          · exact .of_snd e .xlate
          · exact .of_snd e .xlate
  · exact .refl
  · split
    · exact .refl
    · split
      · exact .refl
      · exact .refl

theorem State.SameKinds.checkAll {gk sp n : Nat} {nd : Need} {l : List (Nat × VAddr)} : s.SameKinds (s.checkAll gk sp n nd l).2 := by
  induction l generalizing s with
  | nil => exact .refl
  | cons p r ih => exact .trans .checkAcc ih

end SameKinds

/-! ## The order of the checks -/

theorem accessChecksInOrder : AccessChecksInOrder := by
  intro s gk sp n nd ea h3 h5 _
  match sp with
  | 0 =>
    simp only [State.checkAcc, accessRule, beq_iff_eq, if_true]
    split <;> rfl
  | 1 =>
    by_cases hk : (s.gangAt gk).kind = .lintel
    · simp [State.checkAcc, accessRule, hk]
    · by_cases hr : (s.teamAt (s.gangAt gk).team).spsz < ea.toNat + n
      · simp [State.checkAcc, accessRule, hk, State.spadLoc, hr, not_le.2 hr]
      · simp [State.checkAcc, accessRule, hk, State.spadLoc, hr, not_lt.1 hr]
  | 2 =>
    by_cases hc : 2 ^ 24 ≤ ea.toNat
    · simp [-Nat.reducePow, State.checkAcc, accessRule, State.spadLoc, hc]
    · cases ht : s.teamByC (s.teamAt (s.gangAt gk).team).cohort (ea.toNat / 2 ^ 20) with
      | none => simp [-Nat.reducePow, State.checkAcc, accessRule, State.spadLoc, hc, ht]
      | some t =>
        by_cases hr : (s.teamAt t).spsz < ea.toNat % 2 ^ 20 + n
        · simp [-Nat.reducePow, State.checkAcc, accessRule, State.spadLoc, hc, ht, hr, not_le.2 hr]
        · simp [-Nat.reducePow, State.checkAcc, accessRule, State.spadLoc, hc, ht, hr, not_lt.1 hr]
  | 4 => simp [State.checkAcc, accessRule]

/-! ## The trap of the first check that fails -/

theorem accessTraps : AccessTraps := by
  intro s sp n nd l hk c s1 bad lanesOf
  have hsk : s.SameKinds s1 := .checkAll
  have hk1 : (s1.gang.kind == .lintel) = false := by
    rw [State.gang, hsk.kind, hsk.gk, ← State.gang, hk]; rfl
  refine ⟨fun p r h1 => ?_, fun p r h1 h2 => ?_, fun p r h1 h2 h3 => ?_⟩
  · simp only [bad, c] at h1
    simp only [State.plan, h1, hk1, lanesOf, bad, c, Bool.false_eq_true, if_false, Bool.false_and, s1]
  · simp only [bad, c] at h1 h2
    simp only [State.plan, h1, h2, hk1, lanesOf, bad, c, Bool.false_eq_true, if_false, s1]
  · simp only [bad, c] at h1 h2 h3
    simp only [State.plan, h1, h2, h3, hk1, lanesOf, bad, c, Bool.false_eq_true, if_false, s1]

/-- Settles O27: one access stops at its first failing check, and an instruction at the first check that any lane fails. -/
theorem accessesAreChecked : Obligations.AccessesAreChecked := ⟨accessChecksInOrder, accessTraps⟩

end Sys2Proof.Machine
end

section
/-! The integer operations (R120 to R122), at both widths by one argument each. -/

namespace Sys2Proof.Machine

open Claims

/-! ## Operands and results of W bits -/

/-- The W bits of a register that an operation of width W reads and writes. -/
def narrow (w : Bool) (x : DWord) : BitVec (width w) := x.setWidth (width w)

variable {w : Bool}

theorem width_pos (w : Bool) : 0 < width w := by cases w <;> decide

theorem width_le (w : Bool) : width w ≤ 64 := by cases w <;> decide

theorem toNat_narrow (x : DWord) : (narrow w x).toNat = x.toNat % 2 ^ width w := BitVec.toNat_setWidth ..

theorem opN_eq (x : DWord) : opN w x = (narrow w x).toNat := (toNat_narrow x).symm

theorem narrow_ofNat (n : Nat) : narrow w (BitVec.ofNat 64 n) = BitVec.ofNat (width w) n :=
  BitVec.setWidth_ofNat_of_le (width_le w) n

theorem narrow_resN (n : Nat) : narrow w (resN w n) = BitVec.ofNat (width w) n := by
  rw [resN, narrow_ofNat]
  exact BitVec.eq_of_toNat_eq (by simp)

theorem asInt_mod (sg : Bool) (w x : Nat) : asInt sg w (x % 2 ^ w) = asInt sg w x := by
  simp [asInt]

theorem asInt_true_eq (x : DWord) : asInt true (width w) x.toNat = (narrow w x).toInt := by
  rw [← asInt_mod, ← toNat_narrow, asInt_eq_toInt (width_pos w) (narrow w x).isLt]
  simp

theorem asInt_false_eq (x : DWord) : asInt false (width w) x.toNat = (narrow w x).toNat := by
  rw [← asInt_mod, ← toNat_narrow, asInt_eq_of_lt (narrow w x).isLt]

theorem wrap_eq (n : Nat) (i : Int) : wrap n i = (BitVec.ofInt n i).toNat := by
  simp [wrap, BitVec.toNat_ofInt]

theorem narrow_resI (i : Int) : narrow w (resI w i) = BitVec.ofInt (width w) i := by
  rw [resI, narrow_ofNat, wrap_eq, BitVec.ofNat_toNat, BitVec.setWidth_eq]

theorem ofInt_asInt (sg : Bool) (x : DWord) : BitVec.ofInt (width w) (asInt sg (width w) x.toNat) = narrow w x := by
  cases sg
  · rw [asInt_false_eq]; simp
  · rw [asInt_true_eq, BitVec.ofInt_toInt]

/-- A operation on W bits, for both widths. -/
theorem isBinary_of_narrow {op : Bool → DWord → DWord → DWord} {o : ∀ w, BitVec w → BitVec w → BitVec w}
    (h : ∀ w a b, narrow w (op w a b) = o (width w) (narrow w a) (narrow w b)) : IsBinary op (o 32) (o 64) := by
  refine fun a b => ⟨h false a b, ?_⟩
  have := h true a b
  simpa [narrow, width] using this

theorem isUnary_of_narrow {op : Bool → DWord → DWord} {o : ∀ w, BitVec w → BitVec w}
    (h : ∀ w a, narrow w (op w a) = o (width w) (narrow w a)) : IsUnary op (o 32) (o 64) := by
  refine fun a => ⟨h false a, ?_⟩
  have := h true a
  simpa [narrow, width] using this

/-! ## Arithmetic (R120, R121) -/

theorem narrow_addSat (sg : Bool) (w : Bool) (a b : DWord) : narrow w (addSat false sg w a b).val = narrow w a + narrow w b := by
  simp only [addSat, Bool.false_eq_true, if_false, narrow_resI, BitVec.ofInt_add, ofInt_asInt]

theorem narrow_subSat (sg : Bool) (w : Bool) (a b : DWord) : narrow w (subSat false sg w a b).val = narrow w a - narrow w b := by
  simp only [subSat, Bool.false_eq_true, if_false, narrow_resI, Int.sub_eq_add_neg, BitVec.ofInt_add, BitVec.ofInt_neg, ofInt_asInt, BitVec.sub_eq_add_neg]

theorem narrow_mulLow (w : Bool) (a b : DWord) : narrow w (mulLow w a b) = narrow w a * narrow w b := by
  rw [mulLow, narrow_resN, opN_eq, opN_eq, BitVec.ofNat_mul, BitVec.ofNat_toNat, BitVec.ofNat_toNat]
  simp

theorem narrow_mulAdd (w : Bool) (a b c : DWord) : narrow w (mulAdd w a b c) = narrow w a * narrow w b + narrow w c := by
  rw [mulAdd, narrow_resN, opN_eq, opN_eq, opN_eq, BitVec.ofNat_add, BitVec.ofNat_mul]
  simp

/-- The upper half of a product of double width. -/
theorem narrow_upper (w : Bool) (x : BitVec (2 * width w)) :
    narrow w (BitVec.ofNat 64 (x.toNat / 2 ^ width w)) = (x >>> width w).truncate (width w) := by
  rw [narrow_ofNat]
  apply BitVec.eq_of_toNat_eq
  simp [Nat.shiftRight_eq_div_pow]

theorem narrow_mulHigh_false (w : Bool) (a b : DWord) : narrow w (mulHigh false w a b) =
    (((narrow w a).setWidth (2 * width w) * (narrow w b).setWidth (2 * width w)) >>> width w).truncate (width w) := by
  have h : BitVec.ofInt (2 * width w) (asInt false (width w) a.toNat * asInt false (width w) b.toNat) =
      (narrow w a).setWidth (2 * width w) * (narrow w b).setWidth (2 * width w) := by
    rw [asInt_false_eq, asInt_false_eq, BitVec.ofInt_mul, BitVec.ofInt_natCast, BitVec.ofInt_natCast, BitVec.ofNat_toNat,
      BitVec.ofNat_toNat]
  rw [mulHigh, wrap_eq, h, narrow_upper]

theorem narrow_mulHigh_true (w : Bool) (a b : DWord) : narrow w (mulHigh true w a b) =
    (((narrow w a).signExtend (2 * width w) * (narrow w b).signExtend (2 * width w)) >>> width w).truncate (width w) := by
  have h : BitVec.ofInt (2 * width w) (asInt true (width w) a.toNat * asInt true (width w) b.toNat) =
      (narrow w a).signExtend (2 * width w) * (narrow w b).signExtend (2 * width w) := by
    rw [asInt_true_eq, asInt_true_eq, BitVec.ofInt_mul]
    rfl
  rw [mulHigh, wrap_eq, h, narrow_upper]

theorem opN_eq_zero {x : DWord} : opN w x = 0 ↔ narrow w x = 0 := by
  rw [opN_eq]
  exact ⟨fun h => BitVec.eq_of_toNat_eq (by simp [h]), fun h => by simp [h]⟩

theorem narrow_allOnes (w : Bool) : narrow w (resN w (2 ^ width w - 1)) = BitVec.allOnes (width w) := by
  rw [narrow_resN]
  exact BitVec.eq_of_toNat_eq (by simp)

/-- The quotient of signed or unsigned numbers, as a bit vector of their width. -/
theorem narrow_divQ_false (w : Bool) (a b : DWord) : narrow w (divQ false w a b) =
    if narrow w b = 0 then BitVec.allOnes (width w) else narrow w a / narrow w b := by
  simp only [divQ, opN_eq_zero, asInt_false_eq]
  split
  · exact narrow_allOnes w
  · rw [narrow_resI, ← Int.ofNat_tdiv, BitVec.ofInt_natCast, ← BitVec.toNat_udiv, BitVec.ofNat_toNat, BitVec.setWidth_eq]

theorem narrow_divQ_true (w : Bool) (a b : DWord) : narrow w (divQ true w a b) =
    if narrow w b = 0 then BitVec.allOnes (width w) else (narrow w a).sdiv (narrow w b) := by
  simp only [divQ, opN_eq_zero, asInt_true_eq]
  split
  · exact narrow_allOnes w
  · rw [narrow_resI]
    exact BitVec.eq_of_toInt_eq (by rw [BitVec.toInt_ofInt, BitVec.toInt_sdiv])

theorem narrow_self (w : Bool) (a : DWord) : narrow w (resN w a.toNat) = narrow w a := by
  rw [narrow_resN, BitVec.ofNat_toNat]
  rfl

theorem narrow_dividend (w : Bool) (a : DWord) : narrow w (resN w (opN w a)) = narrow w a := by
  rw [narrow_resN, opN_eq, BitVec.ofNat_toNat, BitVec.setWidth_eq]

theorem narrow_divR_false (w : Bool) (a b : DWord) : narrow w (divR false w a b) =
    if narrow w b = 0 then narrow w a else narrow w a % narrow w b := by
  simp only [divR, opN_eq_zero, asInt_false_eq]
  split
  · exact narrow_dividend w a
  · rw [narrow_resI, ← Int.ofNat_tmod, BitVec.ofInt_natCast, ← BitVec.toNat_umod, BitVec.ofNat_toNat, BitVec.setWidth_eq]

theorem narrow_divR_true (w : Bool) (a b : DWord) : narrow w (divR true w a b) =
    if narrow w b = 0 then narrow w a else (narrow w a).srem (narrow w b) := by
  simp only [divR, opN_eq_zero, asInt_true_eq]
  split
  · exact narrow_dividend w a
  · rw [narrow_resI, ← BitVec.toInt_srem, BitVec.ofInt_toInt]

theorem asInt_le_iff_false {a b : DWord} : asInt false (width w) a.toNat ≤ asInt false (width w) b.toNat ↔ narrow w a ≤ narrow w b := by
  rw [asInt_false_eq, asInt_false_eq, Int.ofNat_le, BitVec.le_def]

theorem asInt_le_iff_true {a b : DWord} : asInt true (width w) a.toNat ≤ asInt true (width w) b.toNat ↔
    (narrow w a).sle (narrow w b) = true := by
  rw [asInt_true_eq, asInt_true_eq, BitVec.sle_iff_toInt_le]

theorem narrow_minOf_false (w : Bool) (a b : DWord) :
    narrow w (minOf false w a b) = if narrow w a ≤ narrow w b then narrow w a else narrow w b := by
  simp only [minOf, asInt_le_iff_false, apply_ite (narrow w), narrow_self]

theorem narrow_minOf_true (w : Bool) (a b : DWord) :
    narrow w (minOf true w a b) = if (narrow w a).sle (narrow w b) then narrow w a else narrow w b := by
  simp only [minOf, asInt_le_iff_true, apply_ite (narrow w), narrow_self]

theorem narrow_maxOf_false (w : Bool) (a b : DWord) :
    narrow w (maxOf false w a b) = if narrow w a ≤ narrow w b then narrow w b else narrow w a := by
  simp only [maxOf, asInt_le_iff_false, apply_ite (narrow w), narrow_self]

theorem narrow_maxOf_true (w : Bool) (a b : DWord) :
    narrow w (maxOf true w a b) = if (narrow w a).sle (narrow w b) then narrow w b else narrow w a := by
  simp only [maxOf, asInt_le_iff_true, apply_ite (narrow w), narrow_self]

/-! ## Shifts and rotation (R122) -/

theorem narrow_zero (w : Bool) : narrow w 0#64 = 0 := by cases w <;> rfl

theorem narrow_shlOf (w : Bool) (a b : DWord) : narrow w (shlOf w a b) =
    if (narrow w b).toNat < width w then narrow w a <<< (narrow w b).toNat else 0 := by
  have h : BitVec.ofNat (width w) ((narrow w a).toNat <<< (narrow w b).toNat) = narrow w a <<< (narrow w b).toNat :=
    BitVec.eq_of_toNat_eq (by simp)
  simp only [shlOf, opN_eq, ← not_lt, ite_not, apply_ite (narrow w), narrow_zero, narrow_resN, h]

theorem narrow_shrOf (w : Bool) (a b : DWord) : narrow w (shrOf w a b) =
    if (narrow w b).toNat < width w then narrow w a >>> (narrow w b).toNat else 0 := by
  simp only [shrOf, opN_eq, ← not_lt, ite_not, apply_ite (narrow w), narrow_zero, narrow_resN, ← BitVec.toNat_ushiftRight,
    BitVec.ofNat_toNat, BitVec.setWidth_eq]

theorem ediv_eq_ediv_of_bounds {x d e : Int} (h : d ≤ e) (hl : -d ≤ x) (hu : x < d) : x / e = x / d := by
  by_cases h0 : x < 0
  · rw [Int.ediv_eq_neg_one_of_neg_of_le h0 (by omega), Int.ediv_eq_neg_one_of_neg_of_le h0 (by omega)]
  · rw [Int.ediv_eq_zero_of_lt (by omega) (by omega), Int.ediv_eq_zero_of_lt (by omega) hu]

/-- A shift by W or more gives what a shift by W - 1 gives: copies of the sign. -/
theorem toInt_div_two_pow_width {n : Nat} (x : BitVec n) (h : 0 < n) (m : Nat) :
    x.toInt / 2 ^ min m n = x.toInt / 2 ^ min m (n - 1) := by
  by_cases hm : m < n
  · rw [min_eq_left hm.le, min_eq_left (by omega)]
  · rw [min_eq_right (by omega), min_eq_right (by omega)]
    exact ediv_eq_ediv_of_bounds (pow_le_pow_right₀ (by decide) (by omega)) x.le_toInt x.toInt_lt

theorem narrow_sarOf (w : Bool) (a b : DWord) : narrow w (sarOf w a b) =
    (narrow w a).sshiftRight (min (narrow w b).toNat (width w - 1)) := by
  have h : ((narrow w a).sshiftRight (min (narrow w b).toNat (width w - 1))).toInt =
      (narrow w a).toInt / 2 ^ min (narrow w b).toNat (width w - 1) := by
    rw [BitVec.toInt_sshiftRight, Int.shiftRight_eq_div_pow]
    push_cast
    rfl
  rw [sarOf, narrow_resI, asInt_true_eq, opN_eq, toInt_div_two_pow_width _ (width_pos w), ← h, BitVec.ofInt_toInt]

theorem narrow_rotOf (w : Bool) (a b : DWord) : narrow w (rotOf w a b) =
    (narrow w a).rotateLeft ((narrow w b).toNat % width w) := by
  rw [rotOf, narrow_resN, opN_eq, opN_eq, BitVec.rotateLeft_def, Nat.mod_mod]
  refine BitVec.eq_of_toNat_eq ?_
  rw [BitVec.toNat_ofNat, BitVec.toNat_or, BitVec.toNat_shiftLeft, BitVec.toNat_ushiftRight, Nat.or_mod_two_pow]
  congr 1
  exact Nat.mod_eq_of_lt ((Nat.shiftRight_le _ _).trans_lt (narrow w a).isLt)

/-! ## One operand -/

theorem narrow_negOf (w : Bool) (a : DWord) : narrow w (negOf w a) = -narrow w a := by
  rw [negOf, narrow_resI, opN_eq, BitVec.ofInt_neg, BitVec.ofInt_natCast, BitVec.ofNat_toNat, BitVec.setWidth_eq]

theorem narrow_notOf (w : Bool) (a : DWord) : narrow w (notOf w a) = ~~~narrow w a := by
  rw [notOf, narrow_resN, opN_eq]
  refine BitVec.eq_of_toNat_eq ?_
  rw [BitVec.toNat_ofNat, BitVec.toNat_not]
  exact Nat.mod_eq_of_lt (by have := Nat.two_pow_pos (width w); omega)

theorem narrow_absOfInt (w : Bool) (a : DWord) : narrow w (absOfInt w a) = if (narrow w a).msb then -narrow w a else narrow w a := by
  simp only [absOfInt, asInt_true_eq, apply_ite (narrow w), narrow_resI, BitVec.ofInt_neg, BitVec.ofInt_toInt]
  rw [BitVec.msb_eq_toInt]
  by_cases h : (narrow w a).toInt < 0
  · simp [h]
  · simp [h, not_lt.1 h]

theorem isBinary_mulAdd (c : DWord) : IsBinary (fun w a b => mulAdd w a b c) (fun a b => a * b + low c) (fun a b => a * b + c) := by
  refine fun a b => ⟨narrow_mulAdd false a b c, ?_⟩
  have h := narrow_mulAdd true a b c
  simp only [narrow, width] at h
  exact h

theorem integerArithmetic : IntegerArithmetic := by
  exact ⟨fun sg => isBinary_of_narrow (o := fun _ a b => a + b) (narrow_addSat sg), 
    fun sg => isBinary_of_narrow (o := fun _ a b => a - b) (narrow_subSat sg),
    isBinary_of_narrow (o := fun _ a b => a * b) narrow_mulLow,
    isBinary_of_narrow (o := fun w a b => ((a.setWidth (2 * w) * b.setWidth (2 * w)) >>> w).truncate w) narrow_mulHigh_false,
    isBinary_of_narrow (o := fun w a b => ((a.signExtend (2 * w) * b.signExtend (2 * w)) >>> w).truncate w) narrow_mulHigh_true,
    isBinary_mulAdd,
    isBinary_of_narrow (o := fun w a b => if b = 0 then BitVec.allOnes w else a / b) narrow_divQ_false,
    isBinary_of_narrow (o := fun w a b => if b = 0 then BitVec.allOnes w else a.sdiv b) narrow_divQ_true,
    isBinary_of_narrow (o := fun w a b => if b = 0 then a else a % b) narrow_divR_false,
    isBinary_of_narrow (o := fun w a b => if b = 0 then a else a.srem b) narrow_divR_true,
    isBinary_of_narrow (o := fun w a b => if a ≤ b then a else b) narrow_minOf_false,
    isBinary_of_narrow (o := fun w a b => if a.sle b then a else b) narrow_minOf_true,
    isBinary_of_narrow (o := fun w a b => if a ≤ b then b else a) narrow_maxOf_false,
    isBinary_of_narrow (o := fun w a b => if a.sle b then b else a) narrow_maxOf_true,
    isBinary_of_narrow (o := fun w a b => if b.toNat < w then a <<< b.toNat else 0) narrow_shlOf,
    isBinary_of_narrow (o := fun w a b => if b.toNat < w then a >>> b.toNat else 0) narrow_shrOf,
    isBinary_of_narrow (o := fun w a b => a.sshiftRight (min b.toNat (w - 1))) narrow_sarOf,
    isBinary_of_narrow (o := fun w a b => a.rotateLeft (b.toNat % w)) narrow_rotOf,
    isUnary_of_narrow (o := fun w a => if a.msb then -a else a) narrow_absOfInt,
    isUnary_of_narrow (o := fun w a => -a) narrow_negOf, isUnary_of_narrow (o := fun w a => ~~~a) narrow_notOf⟩

/-! ## Saturation (R120) -/

theorem sN_eq (n : Nat) (x : DWord) : sN n x = asInt true n x.toNat := by
  simp [sN, uN, asInt]

theorem uN_eq (n : Nat) (x : DWord) : (uN n x : Int) = asInt false n x.toNat := by
  simp [uN, asInt]

/-- A result of W bits, as the integer it stands for modulo 2^W. -/
theorem wrap_emod (w : Bool) (i : Int) : ((BitVec.ofNat 64 (wrap (width w) i)).toNat : Int) % 2 ^ width w = i % 2 ^ width w := by
  have h : (wrap (width w) i : Int) = i % 2 ^ width w := Int.toNat_of_nonneg (Int.emod_nonneg _ (by positivity))
  have hlt : wrap (width w) i < 2 ^ 64 := by
    rw [wrap_eq]
    exact (BitVec.ofInt (width w) i).isLt.trans_le (Nat.pow_le_pow_right (by decide) (width_le w))
  rw [BitVec.toNat_ofNat, Nat.mod_eq_of_lt hlt, h, Int.emod_emod]

theorem clamped_saturate {sg w : Bool} {lo hi : Int} (hlo : (if sg then -(2 ^ (width w - 1) : Int) else 0) = lo)
    (hhi : (if sg then 2 ^ (width w - 1) - 1 else 2 ^ width w - 1 : Int) = hi) (h : lo ≤ hi) (i : Int) :
    clamped (width w) lo hi i { val := BitVec.ofNat 64 (saturate sg (width w) i).1, flags := (saturate sg (width w) i).2 } := by
  simp only [clamped, saturate, hlo, hhi]
  refine ⟨fun ⟨h1, h2⟩ => ?_, fun h1 => ?_, fun h1 => ?_⟩
  · rw [if_neg (not_lt.2 h1), if_neg (not_lt.2 h2)]
    exact ⟨rfl, wrap_emod w i⟩
  · rw [if_pos h1]
    exact ⟨rfl, wrap_emod w lo⟩
  · rw [if_neg (not_lt.2 (h.trans h1.le)), if_pos h1]
    exact ⟨rfl, wrap_emod w hi⟩

theorem saturationClamps : SaturationClamps := by
  intro w a b
  have hs : -(2 ^ (width w - 1) : Int) ≤ 2 ^ (width w - 1) - 1 := by cases w <;> decide
  have hu : (0 : Int) ≤ 2 ^ width w - 1 := by cases w <;> decide
  simp only [sN_eq, uN_eq]
  exact ⟨clamped_saturate (sg := true) rfl rfl hs _, clamped_saturate (sg := true) rfl rfl hs _,
    clamped_saturate (sg := false) rfl rfl hu _, clamped_saturate (sg := false) rfl rfl hu _⟩

/-! ## Bit operations (R122) -/

theorem testBit_opN (a : DWord) (j : Nat) : (opN w a).testBit j = (decide (j < width w) && a.getLsbD j) := by
  rw [opN, Nat.testBit_mod_two_pow, BitVec.testBit_toNat]

theorem getLsbD_narrow (x : DWord) {i : Nat} (hi : i < width w) : (narrow w x).getLsbD i = x.getLsbD i := by
  simp [narrow, hi]

theorem getLsbD_resN (n : Nat) {i : Nat} (hi : i < width w) : (resN w n).getLsbD i = n.testBit i := by
  rw [← getLsbD_narrow _ hi, narrow_resN, BitVec.getLsbD_ofNat, decide_eq_true hi, Bool.true_and]

/-- The field that BFE takes, bit by bit. -/
theorem testBit_field (a : DWord) {o n i : Nat} (hn : n ≤ width w - o) :
    ((opN w a >>> o) % 2 ^ n).testBit i = (decide (i < n) && a.getLsbD (o + i)) := by
  rw [Nat.testBit_mod_two_pow, Nat.testBit_shiftRight, testBit_opN]
  by_cases h : i < n
  · have : o + i < width w := by omega
    simp [h, this]
  · simp [h]

theorem getLsbD_bfeOf (w sg : Bool) (a b c : DWord) {o n i : Nat} (ho : o = min (b.toNat % 256) (width w))
    (hn : n = min (c.toNat % 256) (width w - o)) (hi : i < width w) : (bfeOf sg w a b c).getLsbD i =
      if i < n then a.getLsbD (o + i) else sg && decide (0 < n) && a.getLsbD (o + n - 1) := by
  have hf := fun j => testBit_field (w := w) a (o := o) (i := j) (hn ▸ Nat.min_le_right _ _)
  simp only [bfeOf, ← ho, ← hn]
  by_cases hs : (sg && decide (0 < n)) = true
  · have h0 : 0 < n := by simp at hs; exact hs.2
    rw [if_pos hs, ← getLsbD_narrow _ hi, narrow_resI, asInt_eq_toInt h0 (Nat.mod_lt _ (by positivity))]
    show ((BitVec.ofNat n _).signExtend (width w)).getLsbD i = _
    rw [BitVec.getLsbD_signExtend, BitVec.msb_eq_getLsbD_last, BitVec.getLsbD_ofNat, BitVec.getLsbD_ofNat, hf, hf, hs,
      Nat.add_sub_assoc h0]
    by_cases h : i < n <;> simp [hi, h, h0]
  · rw [if_neg hs, getLsbD_resN _ hi, hf, Bool.eq_false_of_not_eq_true hs]
    by_cases h : i < n <;> simp [h]

theorem getLsbD_bfiOf (w : Bool) (a b c : DWord) {o n i : Nat} (ho : o = min (b.toNat % 256) (width w))
    (hn : n = min (b.toNat / 256 % 256) (width w - o)) (hi : i < width w) : (bfiOf w a b c).getLsbD i =
      if o ≤ i ∧ i < o + n then a.getLsbD (i - o) else c.getLsbD i := by
  have hm : (2 ^ n - 1) <<< o < 2 ^ width w := by
    have h : o + n ≤ width w := by omega
    calc (2 ^ n - 1) <<< o < 2 ^ (n + o) := by
          rw [Nat.shiftLeft_eq, Nat.pow_add]
          exact Nat.mul_lt_mul_of_pos_right (Nat.sub_lt (by positivity) (by decide)) (by positivity)
      _ ≤ 2 ^ width w := Nat.pow_le_pow_right (by decide) (by omega)
  simp only [bfiOf, ← ho, ← hn, getLsbD_resN _ hi]
  rw [Nat.mod_eq_of_lt hm, Nat.sub_sub, Nat.add_comm 1, Nat.testBit_or, Nat.testBit_and, Nat.testBit_two_pow_sub_succ hm,
    Nat.testBit_shiftLeft, Nat.testBit_shiftLeft, Nat.testBit_and, Nat.testBit_two_pow_sub_one, testBit_opN, testBit_opN]
  have hl : i - o < width w := by omega
  by_cases h1 : o ≤ i
  · by_cases h2 : i < o + n
    · have h3 : i - o < n := by omega
      simp [hi, hl, h1, h2, h3]
    · have h3 : ¬ i - o < n := by omega
      simp [hi, h1, h2, h3]
  · simp [hi, h1]

/-- A mask of the bits whose numbers a list gives. -/
theorem getLsbD_foldl_setBits {n : Nat} (p : Nat → Bool) (g : Nat → Nat) {l : List Nat} (hg : ∀ i ∈ l, g i < n) (m : BitVec n)
    (k : Nat) :
    (l.foldl (fun m i => if p i then m ||| (1#n <<< g i) else m) m).getLsbD k = (m.getLsbD k || l.any fun i => p i && g i == k) := by
  induction l generalizing m with
  | nil => simp
  | cons a r ih =>
    have ha : g a < n := hg a (by simp)
    have hbit : (1#n <<< g a).getLsbD k = (g a == k) := by
      rw [← BitVec.twoPow_eq, BitVec.getLsbD_twoPow]
      by_cases h : g a = k
      · subst h; simp [ha]
      · simp [h]
    rw [List.foldl_cons, ih (fun i hi => hg i (by simp [hi])), List.any_cons]
    cases p a
    · simp
    · simp only [if_true, BitVec.getLsbD_or, hbit, Bool.true_and, Bool.or_assoc]

theorem getLsbD_brevOf (w : Bool) (a : DWord) {i : Nat} (hi : i < width w) :
    (brevOf w a).getLsbD i = a.getLsbD (width w - 1 - i) := by
  have hw := width_le w
  have hg : ∀ j ∈ List.range (width w), width w - 1 - j < 64 := fun j _ => by omega
  rw [brevOf, getLsbD_foldl_setBits _ _ hg, BitVec.getLsbD_zero, Bool.false_or, Bool.eq_iff_iff, List.any_eq_true]
  simp only [List.mem_range, Bool.and_eq_true, beq_iff_eq]
  refine ⟨?_, fun h => ⟨width w - 1 - i, by omega, h, by omega⟩⟩
  rintro ⟨j, hj, ha, rfl⟩
  rwa [show width w - 1 - (width w - 1 - j) = j by omega]

theorem length_filter_eq_sum (p : Nat → Bool) (l : List Nat) : (l.filter p).length = (l.map fun j => (p j).toNat).sum := by
  induction l with
  | nil => rfl
  | cons a r ih => cases h : p a <;> simp [h, ih, Nat.add_comm]

theorem toNat_popcOf (w : Bool) (a : DWord) : (popcOf w a).toNat = ((List.range (width w)).map fun j => (a.getLsbD j).toNat).sum := by
  have h := List.length_filter_le (fun i => a.getLsbD i) (List.range (width w))
  have hw := width_le w
  rw [List.length_range] at h
  rw [popcOf, BitVec.toNat_ofNat, Nat.mod_eq_of_lt (by omega), length_filter_eq_sum]

/-- The first number below `n` that satisfies a test; `n` where none does. -/
def firstBelow (n : Nat) (p : Nat → Bool) : Nat := ((List.range n).find? p).getD n

theorem firstBelow_le (n : Nat) (p : Nat → Bool) : firstBelow n p ≤ n := by
  unfold firstBelow
  cases h : (List.range n).find? p with
  | none => exact le_rfl
  | some i => exact (List.mem_range.1 (List.mem_of_find?_eq_some h)).le

theorem firstBelow_eq_iff {n i : Nat} {p : Nat → Bool} (hi : i < n) : firstBelow n p = i ↔ p i = true ∧ ∀ j, j < i → p j = false := by
  have h : firstBelow n p = i ↔ (List.range n).find? p = some i := by
    unfold firstBelow
    cases (List.range n).find? p with
    | none => simp; omega
    | some j => simp
  rw [h, List.find?_range_eq_some]
  simp [hi]

theorem firstBelow_eq_self {n : Nat} {p : Nat → Bool} (h : ∀ j, j < n → p j = false) : firstBelow n p = n := by
  have hn : (List.range n).find? p = none := List.find?_range_eq_none.2 fun j hj => by simp [h j hj]
  rw [firstBelow, hn]
  rfl

theorem toNat_ofNat_firstBelow (w : Bool) (p : Nat → Bool) : (match (List.range (width w)).find? p with
    | some i => BitVec.ofNat 64 i
    | none => BitVec.ofNat 64 (width w)).toNat = firstBelow (width w) p := by
  have h := firstBelow_le (width w) p
  have hw := width_le w
  unfold firstBelow at *
  cases hf : (List.range (width w)).find? p <;> rw [hf] at h <;> exact Nat.mod_eq_of_lt (by simp at h; omega)

theorem toNat_clzOf (w : Bool) (a : DWord) : (clzOf w a).toNat = firstBelow (width w) fun i => a.getLsbD (width w - 1 - i) :=
  toNat_ofNat_firstBelow w _

theorem toNat_ctzOf (w : Bool) (a : DWord) : (ctzOf w a).toNat = firstBelow (width w) fun i => a.getLsbD i :=
  toNat_ofNat_firstBelow w _

theorem toNat_clzOf_eq_iff {a : DWord} {i : Nat} (hi : i < width w) : (clzOf w a).toNat = i ↔
    a.getLsbD (width w - 1 - i) = true ∧ ∀ j, width w - 1 - i < j → j < width w → a.getLsbD j = false := by
  rw [toNat_clzOf, firstBelow_eq_iff hi]
  refine and_congr_right fun _ => ⟨fun h j h1 h2 => ?_, fun h j hj => h _ (by omega) (by omega)⟩
  have := h (width w - 1 - j) (by omega)
  rwa [show width w - 1 - (width w - 1 - j) = j by omega] at this

theorem bitOperations : BitOperations := by
  intro w sg a b c i hi W o nE nI
  refine ⟨getLsbD_bfeOf w sg a b c rfl rfl hi, getLsbD_bfiOf w a b c rfl rfl hi, getLsbD_brevOf w a hi, toNat_popcOf w a,
    toNat_clzOf_eq_iff hi, ?_, fun h => ⟨?_, ?_⟩⟩
  · rw [toNat_ctzOf, firstBelow_eq_iff hi]
  · rw [toNat_clzOf, firstBelow_eq_self fun j hj => h _ (by omega)]
  · rw [toNat_ctzOf, firstBelow_eq_self h]

/-- Settles O13: each operation is one on W bits for both widths, saturation is one clamp, and bits are read one by one. -/
theorem integerOperations : Obligations.IntegerOperations := ⟨integerArithmetic, saturationClamps, bitOperations⟩

end Sys2Proof.Machine
end

section
/-! Division (R121): quotient and remainder in lane and group forms. -/

namespace Sys2Proof.Machine

open Claims

/-! ## Quotient and remainder of W-bit numbers -/

theorem asInt_false_toNat {n : Nat} (x : BitVec n) : asInt false n x.toNat = x.toNat := asInt_eq_of_lt x.isLt

theorem asInt_true_toNat {n : Nat} (h : 0 < n) (x : BitVec n) : asInt true n x.toNat = x.toInt := by
  rw [asInt_eq_toInt h x.isLt, BitVec.ofNat_toNat, BitVec.setWidth_eq]

theorem tdiv_remainder (a b : Int) : a - b * a.tdiv b = a.tmod b := (Int.tmod_def a b).symm

theorem divides_unsigned {n : Nat} (x y : BitVec n) : Divides false n x.toNat y.toNat
    (if y = 0 then BitVec.allOnes n else x / y).toNat (if y = 0 then x else x % y).toNat := by
  simp only [Divides, asInt_false_toNat, Nat.mod_eq_of_lt y.isLt, Nat.mod_eq_of_lt x.isLt]
  refine ⟨fun h => ?_, fun h => absurd h.1 nofun, fun h _ => ?_⟩
  · have hy : y = 0 := BitVec.eq_of_toNat_eq (by simp [h])
    simp [hy]
  · have hy : y ≠ 0 := fun e => h (by simp [e])
    rw [if_neg hy, if_neg hy, tdiv_remainder, BitVec.toNat_udiv, BitVec.toNat_umod]
    exact ⟨Int.ofNat_tdiv _ _, Int.ofNat_tmod _ _⟩

/-- The most negative number over -1. -/
theorem sdiv_srem_of_corner {n : Nat} (h : 0 < n) {x y : BitVec n} (hx : x.toInt = -2 ^ (n - 1)) (hy : y.toInt = -1) :
    (x.sdiv y).toInt = -2 ^ (n - 1) ∧ x.srem y = 0 := by
  have h2 : (2 : Int) ^ n = 2 * 2 ^ (n - 1) := by rw [← pow_succ', Nat.sub_add_cancel h]
  have hp : (0 : Int) < 2 ^ (n - 1) := by positivity
  constructor
  · rw [BitVec.toInt_sdiv, hx, hy, Int.tdiv_neg, Int.tdiv_one, neg_neg, Int.bmod]
    push_cast
    rw [h2, Int.emod_eq_of_lt hp.le (by omega), if_neg (by omega)]
    omega
  · exact BitVec.eq_of_toInt_eq (by rw [BitVec.toInt_srem, hx, hy]; simp)

theorem divides_signed {n : Nat} (h0 : 0 < n) (x y : BitVec n) : Divides true n x.toNat y.toNat
    (if y = 0 then BitVec.allOnes n else x.sdiv y).toNat (if y = 0 then x else x.srem y).toNat := by
  have hmod : ∀ {z : BitVec n}, z.toNat % 2 ^ n = z.toNat := Nat.mod_eq_of_lt (BitVec.isLt _)
  simp only [Divides, asInt_true_toNat h0, hmod]
  refine ⟨fun h => ?_, fun ⟨_, hx, hy⟩ => ?_, fun h hc => ?_⟩
  · have hy : y = 0 := BitVec.eq_of_toNat_eq (by simp [h])
    simp [hy]
  · have hy0 : y ≠ 0 := fun e => by simp [e] at hy
    obtain ⟨hq, hr⟩ := sdiv_srem_of_corner h0 hx hy
    rw [if_neg hy0, if_neg hy0, hq, hr]
    exact ⟨rfl, by simp⟩
  · have hy : y ≠ 0 := fun e => h (by simp [e])
    rw [if_neg hy, if_neg hy, tdiv_remainder, BitVec.toInt_srem]
    refine ⟨BitVec.toInt_sdiv_of_ne_or_ne x y (not_and_or.1 fun ⟨hx, hy⟩ => hc ⟨trivial, ?_, ?_⟩), rfl⟩
    · rw [hx, BitVec.toInt_intMin_of_pos h0]
    · rw [hy, BitVec.neg_one_eq_allOnes, BitVec.toInt_allOnes, if_pos h0]

theorem divides_narrow (sg w : Bool) (a b : DWord) : Divides sg (width w) a.toNat b.toNat (narrow w (divQ sg w a b)).toNat
    (narrow w (divR sg w a b)).toNat := by
  have h : ∀ q r, Divides sg (width w) (narrow w a).toNat (narrow w b).toNat q r → Divides sg (width w) a.toNat b.toNat q r := by
    intro q r h
    simpa only [Divides, toNat_narrow, asInt_mod, Nat.mod_mod] using h
  apply h
  cases sg
  · rw [narrow_divQ_false, narrow_divR_false]
    exact divides_unsigned _ _
  · rw [narrow_divQ_true, narrow_divR_true]
    exact divides_signed (width_pos w) _ _

/-! ## Lane forms -/

section LaneForms

variable {s : State} {f : ClassA} {op : DWord → DWord → DWord → LaneOut}

/-- What the gang holds once a lane form of three operands has written its results. -/
def laneDone (s : State) (f : ClassA) (op : DWord → DWord → DWord → LaneOut) : Gang :=
  s.gang.finish s.pt f.h.t f.d (wd f) (popped (lane3 f (wd f) true false false op).srcs)
    ((s.gang.effLanes s.pt f.h).map fun l => (l, (lane3 f (wd f) true false false op).res s.gang l))

/-- Whether a lane form is ready does not depend on what it computes. -/
theorem intA_lane_ready (hg : f.h.g = false) {op' : DWord → DWord → DWord → LaneOut}
    (h : (lane3 f (wd f) true false false op').ready s) : s.intA f true false op = s.done (s.setGang (laneDone s f op)) := by
  obtain ⟨hb, hl⟩ := h
  have hbusy : (f.bcast && s.gang.busyG f.b.toNat) = false := by
    cases hc : f.bcast
    · rfl
    · simpa [lane3, hc] using hb
  simp only [State.intA, hg, Bool.false_eq_true, if_false, Bool.true_and, hbusy]
  rcases State.aluLane_cases s f.h f.d (wd f) (lane3 f (wd f) true false false op).srcs false
    (lane3 f (wd f) true false false op).res with h | ⟨-, h⟩
  · exact absurd (hl.symm.trans h) nofun
  · exact h

theorem mstat_laneDone (hf : ∀ a b c, (op a b c).flags = 0#64) : (laneDone s f op).r.mstat = s.gang.r.mstat := by
  refine BitVec.eq_of_getLsbD_eq fun b _ => ?_
  rw [laneDone, mstat_finish]
  simp [lane3, hf]

/-- A register, or a pair, holds the W bits of a result. -/
theorem toNat_halves (w : Bool) (x : DWord) : (x.truncate 32 : Word).toNat +
    (if w then 2 ^ 32 * ((x >>> 32).truncate 32 : Word).toNat else 0) = (narrow w x).toNat := by
  have h := x.isLt
  rw [toNat_narrow]
  cases w <;> simp [width, Nat.shiftRight_eq_div_pow]
  omega

/-- A lane's destination register, or pair, holds its result. -/
theorem pairAt_laneDone {l : Nat} (ht : f.h.t = false) (hd : f.d.toNat + (if wd f then 1 else 0) < 48) (h32 : l < 32)
    (he : eff s f.h l) : pairAt (laneDone s f op) (wd f) f.d.toNat l =
      (narrow (wd f) (op (s.gang.src f.a (wd f) l) (s.gang.srcB f (wd f) l) (s.gang.src f.c (wd f) l)).val).toNat := by
  have hv := fun {n} (hn : n < 48) => vAt_finish f.d (wd f) s.gang s.pt f.h.t ((lane3 f (wd f) true false false op).res s.gang)
    (s.gang.effLanes s.pt f.h) (popped (lane3 f (wd f) true false false op).srcs) (fun _ => lt_of_mem_effLanes)
    (effLanes_nodup _ _ _) hn h32
  have hd48 : f.d.toNat < 48 := by omega
  rw [pairAt, laneDone, hv hd48, if_pos ⟨ht, he, rfl⟩, ← toNat_halves]
  congr 1
  by_cases hw : wd f = true
  · rw [if_pos hw] at hd
    rw [if_pos hw, if_pos hw, hv hd, if_neg fun h => by omega, if_pos ⟨ht, he, hw, hd48, rfl⟩]
    rfl
  · rw [if_neg hw, if_neg hw]

end LaneForms

/-! ## Group forms -/

theorem intA_group_ready {s : State} {f : ClassA} {op op' : DWord → DWord → DWord → LaneOut} (hg : f.h.g = true)
    (h : (group3 f (wd f) true false false op').ready s) : ∃ g, s.intA f true false op = s.done (s.setGang g) ∧
      g.r.g = (s.gang.setG f.d.toNat ((group3 f (wd f) true false false fun a b c => extendOut f.h (op a b c)).res s.gang).val).r.g ∧
      g.r.mstat = s.gang.r.mstat ||| ((group3 f (wd f) true false false fun a b c => extendOut f.h (op a b c)).res s.gang).flags := by
  simp only [State.intA, hg, if_true]
  rcases State.aluGroup_cases s f.h f.d (group3 f (wd f) true false false op).gs false
    (group3 f (wd f) true false false fun a b c => extendOut f.h (op a b c)).res with hc | ⟨-, hc⟩
  · exact absurd ((show s.groupGate _ _ false false = none from h).symm.trans hc) nofun
  · exact hc

/-- A group result of W bits is extended to 64; its W bits are the result's (R118). -/
theorem narrow_extendG (sg w : Bool) (x : DWord) : narrow w (extendG sg w x) = narrow w x := by
  cases w
  · refine BitVec.eq_of_getLsbD_eq fun i hi => ?_
    have hi : i < 32 := hi
    cases sg <;> simp [-BitVec.getLsbD_eq_getElem, narrow, width, extendG, BitVec.getLsbD_signExtend, hi, show i < 64 by omega]
  · rfl

theorem gAt_of_setG {g g' : Gang} {d : Nat} {x : DWord} (h : g'.r.g = (g.setG d x).r.g) (hd : d < 32) : g'.gAt d = x := by
  have hs := Gang.gAt_setG g d d x
  rw [if_pos ⟨rfl, hd⟩] at hs
  rw [← hs, Gang.gAt, Gang.gAt, h]

/-- Settles O14: both widths by the quotient of the integers, with the two special cases apart. -/
theorem divisionNeverTraps : Obligations.DivisionNeverTraps := by
  intro s f W sg
  refine ⟨fun hg h => ?_, fun hg hd h => ?_⟩
  · refine ⟨_, _, congrArg _ (intA_lane_ready hg h), congrArg _ (intA_lane_ready hg h), mstat_laneDone fun _ _ _ => rfl,
      mstat_laneDone fun _ _ _ => rfl, fun ht hd l h32 he => ?_⟩
    rw [pairAt_laneDone ht hd h32 he, pairAt_laneDone ht hd h32 he]
    exact divides_narrow sg (wd f) _ _
  · obtain ⟨gq, hq, hqg, hqm⟩ := intA_group_ready (op := fun a b _ => out (divQ sg (wd f) a b)) hg h
    obtain ⟨gr, hr, hrg, hrm⟩ := intA_group_ready (op := fun a b _ => out (divR sg (wd f) a b)) hg h
    refine ⟨gq, gr, congrArg _ hq, congrArg _ hr, hqm.trans (BitVec.or_zero ..), hrm.trans (BitVec.or_zero ..), ?_⟩
    have hw : ∀ x : DWord, x.toNat % 2 ^ W = (narrow (wd f) x).toNat := fun x => (toNat_narrow x).symm
    rw [gAt_of_setG hqg hd, gAt_of_setG hrg hd, hw, hw]
    have hd := divides_narrow sg (wd f) (s.gang.gsrc f.a (wd f)) (s.gang.gsrc f.b (wd f))
    rw [← narrow_extendG sg (wd f) (divQ ..), ← narrow_extendG sg (wd f) (divR ..)] at hd
    exact hd

end Sys2Proof.Machine
end

section
/-! Code segments (R91 to R95, R248), YIELD (R104) and the software trap (R115). -/

namespace Sys2Proof.Machine

open Claims

/-! ## Jumps to a slot and waits for one (R91, R94, R95) -/

section Segments

variable {s : State} {f : ClassB}

theorem State.targetTrap_outside {a : IAddr} (h : (s.imemOf s.gk).nseg ≤ a.toNat / 4096) : s.targetTrap a = some 12 := if_pos h

theorem State.targetTrap_empty {a : IAddr} (h : a.toNat / 4096 < (s.imemOf s.gk).nseg)
    (he : ((s.imemOf s.gk).slotAt (a.toNat / 4096)).st = .empty) : s.targetTrap a = some 10 :=
  (if_neg (not_le.2 h)).trans (if_pos (beq_iff_eq.2 he))

theorem State.targetTrap_eq_none {a : IAddr} (h : a.toNat / 4096 < (s.imemOf s.gk).nseg)
    (he : ((s.imemOf s.gk).slotAt (a.toNat / 4096)).st ≠ .empty) : s.targetTrap a = none :=
  (if_neg (not_le.2 h)).trans (if_neg (mt beq_iff_eq.1 he))

theorem execJmpf_trap {c : Nat} (he : s.gang.geff s.pt f.h = true) (h : s.targetTrap (target s.pc f.disp) = some c) :
    execJmpf f s = .next (s.trap c ((target s.pc f.disp).setWidth 64)) := by
  have h : s.targetTrap (relTarget s.pc f.disp) = some c := h
  simp only [execJmpf, he, Bool.not_true, Bool.false_eq_true, if_false, h]
  rfl

theorem execJmpf_jump (he : s.gang.geff s.pt f.h = true) (h : s.targetTrap (target s.pc f.disp) = none) :
    execJmpf f s = .next (s.jumpTo s (s.gang.partSlices s.pt) (target s.pc f.disp)) := by
  have h : s.targetTrap (relTarget s.pc f.disp) = none := h
  simp only [execJmpf, he, Bool.not_true, Bool.false_eq_true, if_false, h]
  rfl

theorem waitsFor_iff {im : Imem} {l : List Nat} : waitsFor im l = true ↔ ∃ n ∈ l, (im.slotAt n).st = .fetching := by
  simp [waitsFor]

theorem execCwait_ends (he : s.gang.geff s.pt f.h = true) (hn : (f.aux12.extractLsb' 0 6).toNat < (s.imemOf s.gk).nseg) :
    execCwait f s =
      .next (if ((s.imemOf s.gk).slotAt (f.aux12.extractLsb' 0 6).toNat).st = .fetching then s else s.done s) := by
  have hn := not_le.2 hn
  simp only [execCwait, he, Bool.not_true, Bool.false_eq_true, if_false, if_neg hn, waitsFor_iff, List.mem_singleton, exists_eq_left]

theorem execCwaitAll_ends (he : s.gang.geff s.pt f.h = true) :
    execCwaitAll f s = .next (if ∃ n, n < (s.imemOf s.gk).nseg ∧ ((s.imemOf s.gk).slotAt n).st = .fetching then s else s.done s) := by
  simp only [execCwaitAll, he, Bool.not_true, Bool.false_eq_true, if_false, waitsFor_iff, List.mem_range]

theorem segmentJumpsAndWaits : SegmentJumpsAndWaits := by
  intro s f im t slot
  refine ⟨fun he => ⟨?_, ?_, ?_⟩, fun he hn hs hset => ?_, fun he hn => ?_, fun he hn hs => ?_, execCwait_ends, execCwaitAll_ends⟩
  · show execJmpf f s = _
    simp only [execJmpf, he, Bool.not_false, if_true]
  · show execCwait f s = _
    simp only [execCwait, he, Bool.not_false, if_true]
  · show execCwaitAll f s = _
    simp only [execCwaitAll, he, Bool.not_false, if_true]
  · exact ⟨_, execJmpf_jump he (State.targetTrap_eq_none hn hs), onlyGang_jumpTo (onlyGang_refl s) hset.1 hset.2 rfl _⟩
  · exact execJmpf_trap he (State.targetTrap_outside hn)
  · exact execJmpf_trap he (State.targetTrap_empty hn hs)

end Segments

/-! ## The window of a gang, and the window that SEGMENT_LANDED names -/

theorem State.setImemOf_frame (s : State) (k : Nat) (im : Imem) :
    s.setImemOf k im = { s with teams := (s.setImemOf k im).teams, mx := (s.setImemOf k im).mx } := by
  unfold State.setImemOf
  dsimp only
  split <;> rfl

theorem State.imemOf_setImemOf (s : State) (k : Nat) (im : Imem) : (s.setImemOf k im).imemOf k = im := by
  by_cases hk : ((s.gangAt k).kind == .lintel) = true
  · have hs : s.setImemOf k im = s.setMxAt (s.clusterOfGang k) { s.mxAt (s.clusterOfGang k) with im := im } := if_pos hk
    have hc : (s.setMxAt (s.clusterOfGang k) { s.mxAt (s.clusterOfGang k) with im := im }).clusterOfGang k = s.clusterOfGang k := rfl
    rw [hs, State.imemOf, State.gangAt_setMxAt, if_pos hk, hc]
    simp [State.mxAt, State.setMxAt]
  · have hs : s.setImemOf k im = s.setTeamAt (s.gangAt k).team { s.teamAt (s.gangAt k).team with im := im } := if_neg hk
    rw [hs, State.imemOf, State.gangAt_setTeamAt, if_neg hk, State.teamAt_setTeamAt, if_pos rfl]

theorem State.setImemAt_frame (s : State) (key : Nat) (im : Imem) :
    s.setImemAt key im = { s with teams := (s.setImemAt key im).teams, mx := (s.setImemAt key im).mx } := by
  unfold State.setImemAt
  split <;> rfl

theorem State.imemAt_setImemAt (s : State) (key : Nat) (im : Imem) : (s.setImemAt key im).imemAt key = im := by
  unfold State.setImemAt State.imemAt
  split
  · simp [State.mxAt, State.setMxAt]
  · rw [State.teamAt_setTeamAt, if_pos rfl]

theorem Imem.slotAt_setSlot (m : Imem) (n k : Nat) (x : ISlot) : (m.setSlot n x).slotAt k = if k = n then x else m.slotAt k :=
  KMap.get_set ..

/-! ## The landing of a segment (R93) -/

/-- A slot takes the 4 KiB of its segment, and the other slots keep theirs. -/
theorem Imem.get_bytes_land (m : Imem) (n : Nat) {b : List Byte} (hb : b.length = 4096) (a : Nat) :
    KMap.get 0#8 (m.land n b).bytes a = if a / 4096 = n then b.getD (a % 4096) 0#8 else KMap.get 0#8 m.bytes a := by
  have hl : (m.land n b).bytes = KMap.setAll 0#8 (m.bytes.filter fun p => p.1 / 4096 != n) (placed (4096 * n) b) := by
    rw [KMap.setAll, placed, List.foldl_map]
    rfl
  rw [hl]
  split
  · rename_i h
    have hm := getD_mem_placed (o := 4096 * n) (hb.symm ▸ Nat.mod_lt a (Nat.succ_pos 4095) : a % 4096 < b.length)
    have ha : 4096 * n + a % 4096 = a := h ▸ Nat.div_add_mod a 4096
    exact KMap.get_setAll_mem _ (nodup_placed _ _) _ (congrArg (fun k => (k, b.getD (a % 4096) 0#8)) ha ▸ hm)
  · rename_i h
    rw [KMap.get_setAll_notMem _ _ _ _ (placed_ne (by omega)), KMap.get_filter 0#8 m.bytes fun k => k / 4096 != n]
    simp [h]

theorem State.segment_length {s : State} {x : Xl} {va pa : Nat} {leaf : DWord} {b : List Byte}
    (h : s.segment x va = .bytes b pa leaf) : b.length = 4096 := by
  unfold State.segment at h
  split at h
  · obtain ⟨-, h⟩ | ⟨-, h⟩ := ite_eq_iff.1 h
    · cases h
    obtain ⟨-, h⟩ | ⟨-, h⟩ := ite_eq_iff.1 h
    · cases h
    obtain ⟨-, h⟩ | ⟨-, h⟩ := ite_eq_iff.1 h
    · cases h
    rw [← (Segment.bytes.inj h).1, List.length_map, List.length_range]
  · cases h
  · cases h

/-- A state that differs in partition 7 of its dies and in the dies' clocks only: what the loads of a die fill and take in. -/
structure State.Fetches (s t : State) : Prop where
  eq : t = { s with dies := t.dies, vclock := t.vclock }
  dieAt : ∀ d, t.dieAt d = { s.dieAt d with p7 := (t.dieAt d).p7 }

section Fetches

variable {s t u : State}

theorem State.Fetches.refl : s.Fetches s := ⟨rfl, fun _ => rfl⟩

theorem State.Fetches.trans (h : s.Fetches t) (h' : t.Fetches u) : s.Fetches u where
  eq := h'.eq.trans (congrArg (fun x : State => { x with dies := u.dies, vclock := u.vclock }) h.eq)
  dieAt d := (h'.dieAt d).trans (congrArg (fun x : Die => { x with p7 := (u.dieAt d).p7 }) (h.dieAt d))

theorem State.Fetches.setWindows (h : s.Fetches t) {ts : KMap Team} {mx : KMap Mx} :
    { t with teams := ts, mx := mx } = { s with teams := ts, mx := mx, dies := t.dies, vclock := t.vclock } :=
  congrArg (fun u : State => { u with teams := ts, mx := mx }) h.eq

theorem State.Fetches.foldl {α : Type} {f : State → α → State} {l : List α} (hf : ∀ (t : State) a, t.Fetches (f t a)) :
    s.Fetches (l.foldl f s) := by
  induction l generalizing s with
  | nil => exact .refl
  | cons a r ih => exact (hf s a).trans ih

theorem State.Fetches.ite {c : Prop} [Decidable c] (ht : s.Fetches t) (hu : s.Fetches u) : s.Fetches (if c then t else u) := by
  split
  · exact ht
  · exact hu

theorem State.Fetches.putP7 {d name : Nat} {b : Nat → Byte} : s.Fetches (s.putP7 d name b) where
  eq := rfl
  dieAt k := by
    unfold State.putP7
    rw [State.dieAt_setDieAt]
    split
    · rename_i h
      rw [h]
    · rfl

theorem State.Fetches.fillP7 {gk ch : Nat} {l : List Acc} : s.Fetches (s.fillP7 gk ch l) :=
  .foldl fun t a => by
    split
    · exact .ite .putP7 .refl
    · exact .refl

theorem State.Fetches.noteRead {d : Nat} {pas : List Nat} : s.Fetches (s.noteRead d pas) := by
  unfold State.noteRead
  dsimp only
  split
  · exact .refl
  · exact ⟨rfl, fun _ => rfl⟩

theorem State.Fetches.tookSegment {gk pa : Nat} {leaf : DWord} : s.Fetches (s.tookSegment gk pa leaf) := .trans .fillP7 .noteRead

end Fetches

/-- CFETCH of a mapped executable 4 KiB line into a slot of the window that no live slice runs in. -/
theorem execCfetch_fetches {s : State} {f : ClassM} {pa : Nat} {leaf : DWord} (hg : s.groupGate f.h (indexG f) false false = none)
    (he : s.engineGate = none) (hn : f.d.toNat < (s.imemOf s.gk).nseg) (ha : (s.gang.effAddr f 0).toNat % 4096 = 0)
    (hl : ∀ i ∈ s.gang.liveSlices, slotOf (s.gang.sliceAt i).pc ≠ f.d.toNat)
    (hp : (s.lookup (s.xlOf s.gang.team) (s.gang.effAddr f 0).toNat).1 = .page pa leaf) (hx : entX leaf = true) :
    execCfetch f s = .next (s.done ((s.setImemOf s.gk ((s.imemOf s.gk).setSlot f.d.toNat
      { st := .fetching, src := s.gang.effAddr f 0, by_ := s.gk })).owe [.segmentLanded (s.imemKey s.gk) f.d.toNat])) := by
  have h1 : ¬ (s.imemOf s.gk).nseg ≤ f.d.toNat := not_le.2 hn
  have h2 : (s.gang.liveSlices.any fun i => slotOf (s.gang.sliceAt i).pc == f.d.toNat) = false :=
    List.any_eq_false.2 fun i hi => mt beq_iff_eq.1 (hl i hi)
  simp only [execCfetch, hg, he, hp, hx, h1, h2, ha, decide_false, ne_eq, not_true_eq_false, Bool.or_false, Bool.false_eq_true,
    if_false, if_true]

theorem execSegmentLanded_bytes {s : State} {key slot pa : Nat} {leaf : DWord} {b : List Byte}
    (hst : ((s.imemAt key).slotAt slot).st = .fetching)
    (hseg : s.segment (s.xlOf (if ((s.imemAt key).slotAt slot).by_ = 0 then key else (s.gangAt ((s.imemAt key).slotAt slot).by_).team))
      ((s.imemAt key).slotAt slot).src.toNat = .bytes b pa leaf) :
    ∃ gk, execSegmentLanded key slot s = .next ((s.tookSegment gk pa leaf).setImemAt key
      (((s.imemAt key).land slot b).setSlot slot { (s.imemAt key).slotAt slot with st := .landed })) := by
  refine ⟨if ((s.imemAt key).slotAt slot).by_ = 0 then (s.teamAt (if ((s.imemAt key).slotAt slot).by_ = 0 then key
    else (s.gangAt ((s.imemAt key).slotAt slot).by_).team)).gangs.headD 0 else ((s.imemAt key).slotAt slot).by_, ?_⟩
  simp only [execSegmentLanded, hst, bne_self_eq_false, Bool.false_eq_true, if_false, hseg]

theorem segmentsAreFetched : SegmentsAreFetched := by
  constructor
  · intro s f hg he n ea im hn ha hl hp
    obtain ⟨pa, leaf, hp, hx⟩ := hp
    have hf := State.setImemOf_frame s s.gk (im.setSlot n { st := .fetching, src := ea, by_ := s.gk })
    have hi : ∀ ev : List Instr, State.imemOf ((s.setImemOf s.gk (im.setSlot n { st := .fetching, src := ea, by_ := s.gk })).owe ev) s.gk = _ :=
      fun _ => State.imemOf_setImemOf s s.gk _
    refine ⟨_, execCfetch_fetches hg he hn ha hl hp hx, ?_, ?_, ?_, fun m => ?_⟩
    · rw [hf]; rfl
    · rw [hf]; rfl
    · rw [hi]
      rfl
    · rw [hi]
      exact Imem.slotAt_setSlot ..
  · intro s key slot pa leaf b _ im team hst hseg
    obtain ⟨gk, hx⟩ := execSegmentLanded_bytes hst hseg
    have ht : s.Fetches (s.tookSegment gk pa leaf) := .tookSegment
    have hf := State.setImemAt_frame (s.tookSegment gk pa leaf) key
      ((im.land slot b).setSlot slot { im.slotAt slot with st := .landed })
    refine ⟨_, hx, ?_, fun d => ?_, fun m => ?_, fun a => ?_⟩
    · rw [hf]
      exact ht.setWindows
    · rw [hf]
      exact ht.dieAt d
    · rw [State.imemAt_setImemAt, Imem.slotAt_setSlot]
      rfl
    · rw [State.imemAt_setImemAt]
      exact Imem.get_bytes_land im slot (State.segment_length hseg) a

/-! ## YIELD and the software trap (R104, R115) -/

theorem getLsbD_maskOf (t : Nat → Bool) (l : Nat) : (maskOf t).getLsbD l = (decide (l < 32) && t l) := by
  rw [maskOf, getLsbD_foldl_setBits t (fun l => l) (fun _ => mem_lanes.1), BitVec.getLsbD_zero, Bool.false_or, Bool.eq_iff_iff,
    List.any_eq_true]
  simp only [mem_lanes, Bool.and_eq_true, beq_iff_eq, decide_eq_true_eq]
  exact ⟨fun ⟨j, hj, ht, h⟩ => h ▸ ⟨hj, ht⟩, fun ⟨hl, ht⟩ => ⟨l, hl, ht, rfl⟩⟩

theorem maskOf_ne_zero {t : Nat → Bool} {l : Nat} (hl : l < 32) (ht : t l = true) : maskOf t ≠ 0#32 := fun h => by
  have := getLsbD_maskOf t l
  simp [h, hl, ht] at this

theorem maskOf_eq_zero {t : Nat → Bool} (h : ∀ l, l < 32 → t l = false) : maskOf t = 0#32 :=
  BitVec.eq_of_getLsbD_eq fun l hl => by rw [getLsbD_maskOf, h l hl]; simp

theorem maskOf_active_ne_zero {g : Gang} {p : Nat} (h : g.anyActive p = true) : maskOf (g.active p) ≠ 0#32 := by
  obtain ⟨l, hl, ha⟩ := List.any_eq_true.1 h
  exact maskOf_ne_zero (mem_lanes.1 hl) ha

theorem yieldAndSoftwareTrap : YieldAndSoftwareTrap := by
  intro s f
  refine ⟨fun he => ?_, fun he hg hp => ?_, fun he hg hp h0 => ?_, fun he hg hp h0 => ?_, fun k n hh hn => ?_, fun k n hh hn => ?_,
    fun k hh => ?_, fun hg he => ?_, fun hg ⟨l, hl, he⟩ => ?_, fun hg he => ?_⟩
  · show execYield f s = _
    simp only [execYield, he, Bool.not_false, if_true]
  · show execYield f s = _
    simp only [execYield, he, hg, hp, Bool.not_true, Bool.false_eq_true, if_false, if_true]
  · show execYield f s = _
    simp only [execYield, he, hg, hp, h0, Bool.not_true, Bool.false_eq_true, if_false, beq_self_eq_true, if_true]
  · show execYield f s = _
    simp only [execYield, he, hg, hp, beq_false_of_ne h0, Bool.not_true, Bool.false_eq_true, if_false]
  · show execYieldExpire k s = _
    simp only [execYieldExpire, hh, if_pos hn]
  · show execYieldExpire k s = _
    simp only [execYieldExpire, hh, if_neg (not_le.2 hn)]
  · show execYieldExpire k s = _
    unfold execYieldExpire
    dsimp only
    split
    · rename_i n hn
      exact absurd hn (hh n)
    · rfl
  · have hm := maskOf_active_ne_zero (Bool.and_eq_true _ _ ▸ he).1
    show execTrap f s = _
    simp only [execTrap, hg, he, if_true, beq_false_of_ne hm, Bool.false_eq_true, if_false]
  · have hm := maskOf_ne_zero hl he
    show execTrap f s = _
    simp only [execTrap, hg, beq_false_of_ne hm, Bool.false_eq_true, if_false]
  · have hm := maskOf_eq_zero he
    show execTrap f s = _
    simp only [execTrap, hg, hm, Bool.false_eq_true, if_false, beq_self_eq_true, if_true]

/-- Settles O21: jumps and waits by the slot's state, the landing by what a slot takes in, YIELD and TRAP by their branches. -/
theorem segmentsAndYield : Obligations.SegmentsAndYield := ⟨segmentJumpsAndWaits, segmentsAreFetched, yieldAndSoftwareTrap⟩

end Sys2Proof.Machine
end

section
/-! The vote tree (R109, R290, R291, R293). -/

namespace Sys2Proof.Machine

open Claims

/-! ## A group and what is computed from it -/

section Groups

variable {s : State} {gk num : Nat} {g : Group}

theorem State.groupAt_setGroupAt : (s.setGroupAt gk g).groupAt gk = g :=
  (KMap.get_set ..).trans (if_pos rfl)

theorem State.memberGangs_setGroupAt (h : g.members = (s.groupAt gk).members) : (s.setGroupAt gk g).memberGangs gk = s.memberGangs gk := by
  unfold State.memberGangs
  rw [State.groupAt_setGroupAt, h]
  rfl

theorem State.groupSize_setGroupAt (h : g.members = (s.groupAt gk).members) : (s.setGroupAt gk g).groupSize gk = s.groupSize gk := by
  unfold State.groupSize
  rw [State.groupAt_setGroupAt, h]
  rfl

theorem State.endedVotes_setGroupAt (h : g.members = (s.groupAt gk).members) (h' : g.gone = (s.groupAt gk).gone) :
    (s.setGroupAt gk g).endedVotes gk num = s.endedVotes gk num := by
  unfold State.endedVotes
  rw [State.groupAt_setGroupAt, h', State.memberGangs_setGroupAt h]
  rfl

theorem State.heldMember_setGroupAt {d : Nat} (h : g.members = (s.groupAt gk).members) :
    (s.setGroupAt gk g).heldMember d gk = s.heldMember d gk := by
  unfold State.heldMember
  rw [State.memberGangs_setGroupAt h]
  rfl

end Groups

/-! ## Partials and vote words (R290) -/

section Partials

variable {p : Partial} {all val : Bool} {c : Nat}

theorem Partial.plus_first (hc : c ≠ 0) (hp : p.count = 0) : p.plus all c val = { count := c, val := val, all := all } :=
  (if_neg hc).trans (if_pos hp)

theorem Partial.plus_more (hc : c ≠ 0) (hp : p.count ≠ 0) :
    p.plus all c val = { p with count := p.count + c, val := if all then p.val && val else p.val || val } :=
  (if_neg hc).trans (if_neg hp)

theorem Partial.plus_eq (hc : c ≠ 0) : p.plus all c val = if p.count = 0 then { count := c, val := val, all := all }
    else { p with count := p.count + c, val := if all then p.val && val else p.val || val } := by
  split
  · exact Partial.plus_first hc ‹_›
  · exact Partial.plus_more hc ‹_›

theorem Partial.plus_count (hc : c ≠ 0) : (p.plus all c val).count = p.count + c := by
  rw [Partial.plus_eq hc]
  split
  · rename_i h
    rw [h, Nat.zero_add]
  · rfl

theorem Partial.plus_val (hc : c ≠ 0) :
    (p.plus all c val).val = if p.count = 0 then val else if all then p.val && val else p.val || val := by
  rw [Partial.plus_eq hc]
  split <;> rfl

end Partials

theorem boolNat_le_one (b : Bool) : boolNat b ≤ 1 := by cases b <;> decide

theorem decide_boolNat (b : Bool) : decide (boolNat b = 1) = b := by cases b <;> rfl

/-- The count and the fields of a vote word that a frame carries, with the bit that says whether it goes to the root. -/
theorem voteWord_fields (c : Nat) (v a r root : Bool) : let w := (voteWord c v a r + boolNat root * 2 ^ 35) % 2 ^ 60
    w % 2 ^ 32 = c % 2 ^ 32 ∧ w.testBit 32 = v ∧ w.testBit 33 = a ∧ w.testBit 34 = r ∧ w.testBit 35 = root := by
  have hv := boolNat_le_one v
  have ha := boolNat_le_one a
  have hr := boolNat_le_one r
  have hb := boolNat_le_one root
  have key : ∀ (i : Nat) (b : Bool) (x : Nat), x / 2 ^ i % 2 = boolNat b → x.testBit i = b := fun i b x h => by
    rw [Nat.testBit_eq_decide_div_mod_eq, h, decide_boolNat]
  intro w
  refine ⟨?_, key _ _ _ ?_, key _ _ _ ?_, key _ _ _ ?_, key _ _ _ ?_⟩ <;> simp only [w, voteWord] <;> omega

/-! ## Frames of the tree (R272) -/

section Frames

variable {s : State} {f : Frame}

theorem frameNum_groupFrame (cls src dst gk num word aux psn srcm sdie : Nat) :
    frameNum { groupFrame cls src dst gk num word aux with psn := psn, srcm := srcm, sdie := sdie } = num % 65536 := by
  simp only [frameNum, groupFrame]
  omega

theorem frameGkey_groupFrame (cls src dst gk num word aux psn srcm sdie : Nat) :
    frameGkey { groupFrame cls src dst gk num word aux with psn := psn, srcm := srcm, sdie := sdie } =
      gk / 256 % 2 ^ 80 * 256 + gk % 256 := by
  simp only [frameGkey, groupFrame]
  omega

theorem frameWord_groupFrame (cls src dst gk num word aux psn srcm sdie : Nat) :
    frameWord { groupFrame cls src dst gk num word aux with psn := psn, srcm := srcm, sdie := sdie } = word % 2 ^ 60 := by
  simp only [frameWord, groupFrame]
  omega

theorem groupFrame_within (cls src dst gk num word aux : Nat) :
    { groupFrame cls src dst gk num word aux with psn := 0, srcm := src, sdie := 0 } = groupFrame cls src dst gk num word aux := rfl

theorem State.sendFrame_home (h : f.dstm = s.modn) : s.sendFrame f = s.owe (frameEvent { f with psn := 0, srcm := s.modn }) := if_pos h

theorem State.sendFrame_away (h : f.dstm ≠ s.modn) :
    s.sendFrame f = { s with psn := s.psn + 1, net := s.net ++ [({ f with psn := s.psn, srcm := s.modn }, s.clock)] } := if_neg h

theorem State.receive_within {act : Frame → State → State} (h : f.psn = 0) : s.receive f act = act f s := if_pos h

end Frames

/-! ## Die node and module node (R290) -/

section Nodes

variable {s : State} {die gk num : Nat} {f : Frame}

/-- What a node has gathered of a number. -/
def State.nodeAt (s : State) (die gk num : Nat) : Partial := KMap.get {} (s.groupAt gk).nodes (65536 * die + num)

/-- The frame in which a node sends what it has gathered of a number. -/
def State.partialFrame (s : State) (psn die gk num : Nat) : Frame :=
  let p := s.nodeAt die gk num
  { groupFrame 10 s.modn (if die = 4 then s.voteRoot gk else s.modn) gk num
      (voteWord p.count p.val p.all false + boolNat (decide (die = 4)) * 2 ^ 35) 0 with
    psn := psn, srcm := s.modn, sdie := if die = 4 then 0 else die }

/-- The state with what a node has gathered of a number taken out. -/
def State.clearNode (s : State) (die gk num : Nat) : State :=
  s.setGroupAt gk { s.groupAt gk with nodes := KMap.set {} (s.groupAt gk).nodes (65536 * die + num) {} }

theorem State.sendPartial_empty (h : (s.nodeAt die gk num).count = 0) : s.sendPartial die gk num = s :=
  if_pos h

theorem State.partialFrame_within : let p := s.nodeAt die gk num
    let w := voteWord p.count p.val p.all false
    s.partialFrame 0 die gk num = if die = 4 then groupFrame 10 s.modn (s.voteRoot gk) gk num (w + 2 ^ 35) 0
      else { groupFrame 10 s.modn s.modn gk num w 0 with sdie := die } := by
  intro p w
  unfold State.partialFrame
  dsimp only
  by_cases hd : die = 4
  · rw [if_pos hd, if_pos hd, if_pos hd, decide_eq_true hd, show boolNat true * 2 ^ 35 = 2 ^ 35 from Nat.one_mul _]
    exact groupFrame_within ..
  · rw [if_neg hd, if_neg hd, if_neg hd, decide_eq_false hd, show boolNat false * 2 ^ 35 = 0 from Nat.zero_mul _, Nat.add_zero]
    exact congrArg (fun f : Frame => { f with sdie := die }) (groupFrame_within ..)

theorem State.sendPartial_eq (h : (s.nodeAt die gk num).count ≠ 0) :
    s.sendPartial die gk num = (s.clearNode die gk num).sendFrame (s.partialFrame 0 die gk num) := by
  rw [State.partialFrame_within]
  exact if_neg h

theorem State.nodeAt_clearNode : (s.clearNode die gk num).nodeAt die gk num = {} := by
  rw [State.nodeAt, State.clearNode, State.groupAt_setGroupAt, KMap.get_set, if_pos rfl]

/-- A partial that stays on the module is owed as an event; one for another module leaves as the next packet. -/
theorem State.sendPartial_sends (h : (s.nodeAt die gk num).count ≠ 0) :
    ∃ psn, s.sendPartial die gk num =
      if die ≠ 4 ∨ s.voteRoot gk = s.modn then (s.clearNode die gk num).owe [.frameVote (s.partialFrame psn die gk num)]
      else { s.clearNode die gk num with net := s.net ++ [(s.partialFrame psn die gk num, s.clock)], psn := s.psn + 1 } := by
  have hd : (if die = 4 then s.voteRoot gk else s.modn) = s.modn ↔ die ≠ 4 ∨ s.voteRoot gk = s.modn := by
    split <;> simp [*]
  rw [State.sendPartial_eq h]
  by_cases hc : die ≠ 4 ∨ s.voteRoot gk = s.modn
  · exact ⟨0, (State.sendFrame_home (hd.2 hc)).trans (if_pos hc).symm⟩
  · exact ⟨s.psn, (State.sendFrame_away (mt hd.1 hc)).trans (if_neg hc).symm⟩

theorem not_someUncast_iff : ¬ someUncast s die gk num ↔ ((s.dieVoters die gk).all fun k => !s.notCast k gk num) = true := by
  simp [someUncast]

theorem execFrameVote_module (h : f.psn = 0) (hb : (s.groupAt (frameGkey f)).broken = false) (hm : (s.groupAt (frameGkey f)).members ≠ [])
    (hr : (frameWord f).testBit 35 = false) : execFrameVote f s = .next (s.moduleVote (frameGkey f) (frameNum f) (frameWord f)) := by
  have hm : (s.groupAt (frameGkey f)).members.isEmpty = false := List.isEmpty_eq_false_iff.2 hm
  simp only [execFrameVote, State.receive_within h, hb, hm, hr, Bool.or_self, Bool.false_eq_true, if_false]

theorem execFrameVote_root (h : f.psn = 0) (hb : (s.groupAt (frameGkey f)).broken = false) (hm : (s.groupAt (frameGkey f)).members ≠ [])
    (hr : (frameWord f).testBit 35 = true) : execFrameVote f s = .next (s.rootVote (frameGkey f) (frameNum f) (frameWord f) f.srcm) := by
  have hm : (s.groupAt (frameGkey f)).members.isEmpty = false := List.isEmpty_eq_false_iff.2 hm
  simp only [execFrameVote, State.receive_within h, hb, hm, hr, Bool.or_self, Bool.false_eq_true, if_false, if_true]

end Nodes

theorem votesGatherAtTheDieNode : VotesGatherAtTheDieNode := by
  refine ⟨fun s die gk num all val => ?_, fun s die gk num => ⟨rfl, State.sendPartial_empty, fun hp => ?_⟩, fun s f h => ?_⟩
  · intro p v e
    have hv : p.plus all 1 val = v := Partial.plus_eq Nat.one_ne_zero
    have hc : s.castVote die gk num all val =
        if ((e.dieVoters die gk).all fun k => !e.notCast k gk num) = true then e.sendPartial die gk num
        else if p.count = 0 then e.owe [.votePartialTimeout die gk num] else e := by
      simp only [e, ← hv]
      rfl
    exact ⟨fun hu => hc.trans (if_neg fun hn => not_someUncast_iff.2 hn hu), fun hu => hc.trans (if_pos (not_someUncast_iff.1 hu))⟩
  · obtain ⟨psn, hs⟩ := State.sendPartial_sends hp
    have hw : frameWord (s.partialFrame psn die gk num) = _ := frameWord_groupFrame ..
    have hv := voteWord_fields (s.nodeAt die gk num).count (s.nodeAt die gk num).val (s.nodeAt die gk num).all false
      (decide (die = 4))
    rw [← hw] at hv
    refine ⟨_, s.partialFrame psn die gk num, congrArg Host.Outcome.next hs, ?_, ?_, rfl, rfl, fun h => if_neg h, frameGkey_groupFrame ..,
      frameNum_groupFrame .., hv⟩
    · split <;> rfl
    · split <;> exact State.nodeAt_clearNode
  · intro gk num g w p v e hb hm h34 h35 h36 hw
    have hv : p.plus (w.testBit 33) (w % 2 ^ 32) (w.testBit 32) = v := Partial.plus_eq hw
    have hx : s.moduleVote gk num w = if ((List.range 4).any fun d => (KMap.get {} g.nodes (65536 * d + num)).count != 0) = true
        then e else e.sendPartial 4 gk num := by
      simp only [State.moduleVote, h34, h36, e, ← hv]
      rfl
    rw [show exec (.frameVote f) s = .next (s.moduleVote gk num w) from execFrameVote_module h hb hm h35, hx]
    simp only [bne_iff_ne, List.any_eq_true, decide_eq_true_eq]

/-! ## The root (R109, R290, R291) -/

section Root

variable {s : State} {gk num w src : Nat}

theorem State.rootVote_request {r : Bool × Nat} (h34 : w.testBit 34 = true) (hr : KMap.get none (s.groupAt gk).results num = some r) :
    s.rootVote gk num w src = s.returnResult gk num r.1 [src] := by
  simp only [State.rootVote, h34, if_true, hr]

/-- The group with a result of a number set at the root. -/
def Group.setResult (g : Group) (num : Nat) (r : Option (Bool × Nat)) : Group := { g with results := KMap.set none g.results num r }

theorem Group.get_setResult {g : Group} {r : Option (Bool × Nat)} : KMap.get none (g.setResult num r).results num = r :=
  (KMap.get_set ..).trans (if_pos rfl)

theorem State.rootVote_taken {r : Bool × Nat} (h34 : w.testBit 34 = false) (h36 : w.testBit 36 = true)
    (hr : KMap.get none (s.groupAt gk).results num = some r) :
    s.rootVote gk num w src =
      (s.setGroupAt gk ((s.groupAt gk).setResult num (some (r.1, r.2 + w % 2 ^ 32)))).forgetResult gk num := by
  simp only [State.rootVote, h34, h36, Bool.false_eq_true, if_false, if_true, hr]
  rfl

theorem State.rootVote_partial (h34 : w.testBit 34 = false) (h36 : w.testBit 36 = false) (h37 : w.testBit 37 = false) :
    s.rootVote gk num w src = s.rootPartial gk num w := by
  simp only [State.rootVote, h34, h36, h37, Bool.false_eq_true, if_false]

theorem State.forgetResult_some {r : Bool × Nat} (hr : KMap.get none (s.groupAt gk).results num = some r) :
    s.forgetResult gk num = if r.2 + s.endedVotes gk num < s.groupSize gk then s
      else s.setGroupAt gk ((s.groupAt gk).setResult num none) := by
  simp only [State.forgetResult, hr]
  rfl

/-- The partial of a number at the root with a frame's word added. -/
def State.rootSum (s : State) (gk num w : Nat) : Partial :=
  (KMap.get {} (s.groupAt gk).root num).plus (w.testBit 33) (w % 2 ^ 32) (w.testBit 32)

theorem State.rootSum_count (hw : 0 < w % 2 ^ 32) : (s.rootSum gk num w).count = (KMap.get {} (s.groupAt gk).root num).count + w % 2 ^ 32 :=
  Partial.plus_count hw.ne'

theorem State.rootSum_val (hw : 0 < w % 2 ^ 32) : let p := KMap.get {} (s.groupAt gk).root num
    (s.rootSum gk num w).val =
      if p.count = 0 then w.testBit 32 else if w.testBit 33 then p.val && w.testBit 32 else p.val || w.testBit 32 :=
  Partial.plus_val hw.ne'

theorem State.rootSum_count_ne (hw : 0 < w % 2 ^ 32) : (s.rootSum gk num w).count ≠ 0 := by
  rw [State.rootSum_count hw]
  omega

/-- The root keeps what it has of a number while member gangs are missing. -/
theorem State.rootPartial_gathers (hw : 0 < w % 2 ^ 32)
    (hm : (KMap.get {} (s.groupAt gk).root num).count + w % 2 ^ 32 + s.endedVotes gk num < s.groupSize gk) :
    s.rootPartial gk num w =
      s.setGroupAt gk { s.groupAt gk with root := KMap.set {} (s.groupAt gk).root num (s.rootSum gk num w) } :=
  (if_neg (State.rootSum_count_ne hw)).trans (if_pos (State.rootSum_count hw ▸ hm))

/-- With the last member gang the result is kept as the only one, and returns down the tree. -/
theorem State.rootPartial_resolves (hw : 0 < w % 2 ^ 32)
    (hm : s.groupSize gk ≤ (KMap.get {} (s.groupAt gk).root num).count + w % 2 ^ 32 + s.endedVotes gk num) :
    s.rootPartial gk num w = (s.setGroupAt gk { s.groupAt gk with
      root := KMap.set {} (s.groupAt gk).root num {}
      results := KMap.set none [] num (some ((s.rootSum gk num w).val, 0)) }).returnResult gk num (s.rootSum gk num w).val
        (s.groupModules gk) :=
  (if_neg (State.rootSum_count_ne hw)).trans (if_neg (State.rootSum_count hw ▸ not_lt.2 hm))

theorem State.forgetResult_setResult {v : Bool} {n : Nat} :
    (s.setGroupAt gk ((s.groupAt gk).setResult num (some (v, n)))).forgetResult gk num =
      if n + s.endedVotes gk num < s.groupSize gk then s.setGroupAt gk ((s.groupAt gk).setResult num (some (v, n)))
      else (s.setGroupAt gk ((s.groupAt gk).setResult num (some (v, n)))).setGroupAt gk
        (((s.groupAt gk).setResult num (some (v, n))).setResult num none) := by
  have hg : (s.setGroupAt gk ((s.groupAt gk).setResult num (some (v, n)))).groupAt gk = _ := State.groupAt_setGroupAt
  rw [State.forgetResult_some ((congrArg (fun g : Group => KMap.get none g.results num) hg).trans Group.get_setResult), hg,
    State.endedVotes_setGroupAt (g := (s.groupAt gk).setResult num (some (v, n))) rfl rfl,
    State.groupSize_setGroupAt (g := (s.groupAt gk).setResult num (some (v, n))) rfl]

/-- The takings of a result are counted, and the result is forgotten once no member gang is missing. -/
theorem State.rootVote_counts {v : Bool} {n : Nat} (h34 : w.testBit 34 = false) (h36 : w.testBit 36 = true)
    (hr : KMap.get none (s.groupAt gk).results num = some (v, n)) :
    ∃ t, s.rootVote gk num w src = t ∧ t = { s with groups := t.groups } ∧ KMap.get none (t.groupAt gk).results num =
      if n + w % 2 ^ 32 + s.endedVotes gk num < s.groupSize gk then some (v, n + w % 2 ^ 32) else none := by
  refine ⟨_, (State.rootVote_taken h34 h36 hr).trans State.forgetResult_setResult, ?_, ?_⟩
  · split <;> rfl
  · split <;> rw [State.groupAt_setGroupAt, Group.get_setResult]

end Root

section Request

variable {s : State} {die gk num : Nat}

theorem execVoteResultRequest_kept {v : Bool} (hv : (num, v) ∈ KMap.get [] (s.groupAt gk).kept die)
    (hu : ∀ w, (num, w) ∈ KMap.get [] (s.groupAt gk).kept die → w = v) :
    execVoteResultRequest die gk num s = .next (s.keepResult die gk num v) := by
  cases hf : (KMap.get [] (s.groupAt gk).kept die).find? fun x => x.1 == num with
  | none => exact absurd (beq_self_eq_true num) (List.find?_eq_none.1 hf _ hv)
  | some x =>
    obtain ⟨n, w⟩ := x
    obtain rfl : n = num := beq_iff_eq.1 (List.find?_some (p := fun x : Nat × Bool => x.1 == num) hf)
    obtain rfl : w = v := hu w (List.mem_of_find?_eq_some hf)
    simp only [execVoteResultRequest, hf]

theorem execVoteResultRequest_lacks (h : ∀ x ∈ KMap.get [] (s.groupAt gk).kept die, x.1 ≠ num) :
    execVoteResultRequest die gk num s = .next (s.owe [.frameVote { groupFrame 10 s.modn s.modn gk num (voteWord 0 false false true) 0 with
      psn := 0, srcm := s.modn, sdie := die }]) := by
  have hf : ((KMap.get [] (s.groupAt gk).kept die).find? fun x => x.1 == num) = none :=
    List.find?_eq_none.2 fun x hx => mt beq_iff_eq.1 (h x hx)
  simp only [execVoteResultRequest, hf]
  exact congrArg Host.Outcome.next (State.sendFrame_home rfl)

end Request

theorem voteRootReduces : VoteRootReduces := by
  refine ⟨fun s f => ?_, fun s die gk num => ⟨fun v => execVoteResultRequest_kept, fun h => ?_⟩⟩
  · intro gk num g w p0 cnt h hb hm
    have hroot := execFrameVote_root (s := s) h hb hm
    refine ⟨fun h35 hr => ?_, fun h35 h34 h36 v n hr => ?_, fun h35 h34 v n hr => ?_, fun h35 h34 h36 h37 hw hc => ?_,
      fun h35 h34 h36 h37 hw hc => ?_⟩
    · exact (execFrameVote_module h hb hm h35).trans (congrArg Host.Outcome.next (if_pos hr))
    · obtain ⟨t, hx, ht⟩ := State.rootVote_counts (src := f.srcm) h34 h36 hr
      exact ⟨t, (hroot h35).trans (congrArg Host.Outcome.next hx), ht⟩
    · exact (hroot h35).trans (congrArg Host.Outcome.next (State.rootVote_request (r := (v, n)) h34 hr))
    · have hx : s.rootVote gk num w f.srcm = _ := (State.rootVote_partial h34 h36 h37).trans (State.rootPartial_gathers hw hc)
      refine ⟨_, (hroot h35).trans (congrArg Host.Outcome.next hx), rfl, ?_⟩
      rw [State.groupAt_setGroupAt, KMap.get_set, if_pos rfl]
      exact ⟨State.rootSum_count hw, fun h0 => (State.rootSum_val hw).trans (if_neg h0.ne')⟩
    · have hx : s.rootVote gk num w f.srcm = _ := (State.rootVote_partial h34 h36 h37).trans (State.rootPartial_resolves hw hc)
      rw [State.rootSum_val hw] at hx
      refine ⟨_, (hroot h35).trans (congrArg Host.Outcome.next hx), rfl, ?_⟩
      rw [State.groupAt_setGroupAt, KMap.get_set, if_pos rfl]
  · have hw : frameWord { groupFrame 10 s.modn s.modn gk num (voteWord 0 false false true) 0 with
        psn := 0, srcm := s.modn, sdie := die } = _ := frameWord_groupFrame ..
    obtain ⟨-, -, -, h34, h35⟩ := voteWord_fields 0 false false true false
    refine ⟨_, execVoteResultRequest_lacks h, rfl, rfl, frameNum_groupFrame .., ?_, ?_⟩
    · rw [hw]
      exact h34
    · rw [hw]
      exact h35

/-! ## Results at the dies (R291, R293) -/

section Results

variable {s : State} {f : Frame} {gk num d : Nat} {val : Bool}

/-- A die takes a result where it holds, or held, a member, and where a gang of it waits for the result. -/
def State.takeResult (s : State) (gk num : Nat) (val : Bool) (d : Nat) : State :=
  if s.heldMember d gk || (s.gangs.any fun p => match p.2.vcast with
      | some v => v.grp = gk && v.num = num && s.dieOfGang p.1 == d
      | none => false) then s.keepResult d gk num val else s

theorem execFrameVoteResult_breaks (h : f.psn = 0) (hw : (frameWord f).testBit 33 = true) :
    execFrameVoteResult f s = .next (if (s.groupAt (frameGkey f)).broken then s else s.breakHere (frameGkey f) []) := by
  simp only [execFrameVoteResult, State.receive_within h, hw, if_true]

theorem execFrameVoteResult_takes (h : f.psn = 0) (hw : (frameWord f).testBit 33 = false) : execFrameVoteResult f s =
    .next ((List.range 4).foldl (fun s => s.takeResult (frameGkey f) (frameNum f) ((frameWord f).testBit 32)) s) := by
  simp only [execFrameVoteResult, State.receive_within h, hw, Bool.false_eq_true, if_false]
  rfl

theorem State.takeResult_held (h : s.heldMember d gk = true) : s.takeResult gk num val d = s.keepResult d gk num val :=
  if_pos (Bool.or_eq_true_iff.2 (.inl h))

theorem State.takeResult_elsewhere (h : s.heldMember d gk = false) (hd : ∀ p ∈ s.gangs, s.dieOfGang p.1 ≠ d) :
    s.takeResult gk num val d = s := by
  refine if_neg ?_
  rw [h, Bool.false_or, List.any_eq_true]
  rintro ⟨p, hp, ht⟩
  split at ht
  · exact hd p hp (beq_iff_eq.1 (Bool.and_eq_true_iff.1 ht).2)
  · cases ht

theorem State.keepResult_frame : s.keepResult d gk num val =
    { s with groups := (s.keepResult d gk num val).groups, due := (s.keepResult d gk num val).due } := rfl

/-- The group once a die has taken a result. -/
def Group.keep (g : Group) (d num : Nat) (val : Bool) : Group :=
  { g with kept := KMap.set [] g.kept d (((num, val) :: (KMap.get [] g.kept d).filter fun x => x.1 != num).take 4) }

theorem State.groupAt_keepResult : (s.keepResult d gk num val).groupAt gk = (s.groupAt gk).keep d num val :=
  State.groupAt_setGroupAt

theorem State.heldMember_keepResult {j : Nat} : (s.keepResult d gk num val).heldMember j gk = s.heldMember j gk :=
  State.heldMember_setGroupAt (g := (s.groupAt gk).keep d num val) rfl

theorem State.mem_due_keepResult {k : Nat} {g : Gang} {v : Cast} (hk : (k, g) ∈ s.gangs) (he : g.ended = false) (hv : g.vcast = some v)
    (hg : v.grp = gk) (hn : v.num = num) (hd : s.dieOfGang k = d) : .voteResultDelivery k ∈ (s.keepResult d gk num val).due := by
  refine List.mem_append_right _ (List.mem_map_of_mem (List.mem_filterMap.2 ⟨(k, g), hk, ?_⟩))
  simp only [hv]
  refine if_pos ?_
  rw [he, hg, hn]
  simp only [decide_true, Bool.not_false, Bool.true_and]
  exact beq_iff_eq.2 hd

end Results

theorem voteResultsAreKept : VoteResultsAreKept := by
  refine ⟨fun s f h hw => execFrameVoteResult_breaks h hw, fun s f h hw h3 h0 hd => ?_⟩
  intro gk old
  have hidle : ∀ d, d < 4 → d ≠ 0 → (s.keepResult 0 gk (frameNum f) ((frameWord f).testBit 32)).takeResult gk (frameNum f)
      ((frameWord f).testBit 32) d = s.keepResult 0 gk (frameNum f) ((frameWord f).testBit 32) := fun d hl hz =>
    State.takeResult_elsewhere (State.heldMember_keepResult.trans (h3 d hl hz)) fun p hp => fun h => hz (h.symm.trans (hd p hp))
  have hx : (List.range 4).foldl (fun s => s.takeResult gk (frameNum f) ((frameWord f).testBit 32)) s =
      s.keepResult 0 gk (frameNum f) ((frameWord f).testBit 32) := by
    rw [show List.range 4 = [0, 1, 2, 3] from rfl]
    rw [List.foldl_cons, List.foldl_cons, List.foldl_cons, List.foldl_cons, List.foldl_nil, State.takeResult_held h0,
      hidle 1 (by decide) (by decide), hidle 2 (by decide) (by decide), hidle 3 (by decide) (by decide)]
  refine ⟨_, (execFrameVoteResult_takes h hw).trans (congrArg Host.Outcome.next hx), State.keepResult_frame, ?_,
    fun k g v hk he hv hg hn => State.mem_due_keepResult hk he hv hg hn (hd _ hk)⟩
  rw [State.groupAt_keepResult, Group.keep, KMap.get_set, if_pos rfl]
  simp only [old, ne_eq, decide_not]
  rfl

/-- Settles O26: votes at the die and module nodes, at the root, and results at the dies, each by the branches of its node. -/
theorem votes : Obligations.Votes := ⟨votesGatherAtTheDieNode, voteRootReduces, voteResultsAreKept⟩

end Sys2Proof.Machine
end
